-- ==== Sys2Proof/Word.lean ====
section
/-! DEFINITION. The word types of the Q88 (R4, R6, R32): bytes, 32-bit lanes, 64-bit pairs and
instruction words. -/

namespace Sys2Proof

/-- One byte of memory. -/
abbrev Byte := BitVec 8

/-- A 32-bit register value or one lane of a vector register (R32). -/
abbrev Word := BitVec 32

/-- A 64-bit register pair, CSR or k register (R33, R42). -/
abbrev DWord := BitVec 64

/-- One instruction word (R88). -/
abbrev IWord := BitVec 64

/-- A set of lanes of a wave, bit i for lane i (R4). -/
abbrev LaneMask := BitVec 32

end Sys2Proof
end

