-- ==== Sys2Proof/Config.lean ====
section
/-! DEFINITION. What the part fixes once and for all (R1, R13, R43) and the free values: constants without a
body, of which no proof can see a value (log entries 3 and 4). -/

namespace Sys2Proof.Config

/-- Lanes of a wave (R4). -/
def lanes : Nat := 32

/-- Dies of a module (R1). -/
def dies : Nat := 2

/-- Cores of a die (R1, R46). -/
def coresPerDie : Nat := 200

/-- Bytes of a scratchpad region (R16). -/
def regionBytes : Nat := 32768

/-- Bytes of an L2 line (R341). -/
def lineBytes : Nat := 128

/-- Bytes of one storage granule, the unit of poison and of copies (R322, R445). -/
def granule : Nat := 16

/-- Operations a team's matrix queue holds (R404). -/
def matrixQueue : Nat := 16

/-- Operations a target engine's arrival buffer holds (R404). -/
def arrivalBuffer : Nat := 4

/-- Instructions a core's ray request queue holds (R415). -/
def rayQueue : Nat := 16

/-- Traversal slots of a core (R417). -/
def traversalSlots : Nat := 64

/-- Outstanding copies a context counts at most (R319). -/
def maxKout : Nat := 64

/-- Visits a visibility segment may make (R301). -/
def segmentBudget : Nat := 65536

/-- Entries of a core's mailbox refusal list (R462). -/
def refusalList : Nat := 16

/-- Messages a wave's receive FIFO holds (R226). -/
def mailFifo : Nat := 16

/-- Unacknowledged requests a wave holds at most (R459). -/
def maxOwc : Nat := 256

/-- Free value: what an uncorrectable error leaves in place of a byte (R445). The value as read is not stated. -/
opaque freeByte : Nat → Byte

/-- Free value: what the energy counters attribute (R515, R517): the spec names the counters and gives no values. -/
opaque freeEnergy : Nat → BitVec 64

/-- Free value: a field of a team context that a management core has written, read from the bytes of the context part, whose layout
is the spill engine's own (R440). -/
opaque contextField : List Byte → Nat → BitVec 64

/-- Free value: CCYC read by a context (R48), and the phase an arrival at an allocation that is gone delivers (R332). -/
opaque freeReading : Nat → BitVec 64

end Sys2Proof.Config
end

