-- ==== Sys2Proof/Syntax.lean ====
section
/-! DEFINITION. The syntax of Streltik and of the part's events: one constructor of `Instr` for every row of
spec/opcode_table.json. An instruction word carries the fields of its layout class (R89, R101, R106, R108, R109,
R111); an event carries the names of the things it happens to. -/

namespace Sys2Proof

/-- The full-word layout (R89). -/
structure AluW where
  bnd : Bool
  var : BitVec 4
  g : BitVec 4
  d : BitVec 8
  a : BitVec 8
  b : BitVec 8
  c : BitVec 8
  ma : BitVec 2
  mb : BitVec 2
  mc : BitVec 2
  cl : Bool
  sc : BitVec 3
  h : BitVec 2
  deriving DecidableEq, Repr

/-- The memory-class layout (R101). -/
structure MemW where
  bnd : Bool
  var : BitVec 4
  g : BitVec 4
  d : BitVec 8
  a : BitVec 8
  b : BitVec 8
  off8 : BitVec 8
  scope : BitVec 3
  ord : BitVec 2
  xs : BitVec 2
  aop : BitVec 3
  h : BitVec 2
  deriving DecidableEq, Repr

/-- BRA and BRX (R106): BRA uses `off24`, BRX the target pair `a`; bits 21:14 are `rdist` (in the stream
profile the condition register, R110). -/
structure BraW where
  bnd : Bool
  g : BitVec 4
  off24 : BitVec 24
  rdist : BitVec 8
  h : BitVec 2
  deriving DecidableEq, Repr

/-- BRX (R106, R175). -/
structure BrxW where
  bnd : Bool
  g : BitVec 4
  a : BitVec 8
  rdist : BitVec 8
  h : BitVec 2
  deriving DecidableEq, Repr

/-- CALL and LOOP (R106): link or counter `d` and a 24-bit word offset. -/
structure CallW where
  bnd : Bool
  g : BitVec 4
  d : BitVec 8
  off24 : BitVec 24
  h : BitVec 2
  deriving DecidableEq, Repr

/-- CALLX and RET (R106): link `d` and target `a`. -/
structure CallxW where
  bnd : Bool
  g : BitVec 4
  d : BitVec 8
  a : BitVec 8
  deriving DecidableEq, Repr

/-- CSRR, CSRW, CSRS, CSRC (R108). -/
structure CsrW where
  bnd : Bool
  var : BitVec 4
  g : BitVec 4
  d : BitVec 8
  a : BitVec 8
  num : BitVec 12
  deriving DecidableEq, Repr

/-- Words whose bits 13:2 carry the instruction's own fields (R109). -/
structure SysW where
  bnd : Bool
  var : BitVec 4
  g : BitVec 4
  d : BitVec 8
  a : BitVec 8
  b : BitVec 8
  c : BitVec 8
  x : BitVec 12
  deriving DecidableEq, Repr

/-- TRAP, BKPT, SVC (R106). -/
structure ImmW where
  bnd : Bool
  g : BitVec 4
  imm : BitVec 16
  deriving DecidableEq, Repr

/-- NOP, REGANG, EXIT, YIELD, ERET (R106): a guard and nothing else. -/
structure NoneW where
  bnd : Bool
  g : BitVec 4
  deriving DecidableEq, Repr

/-- One half of a paired word (R111). -/
structure Half where
  rop : BitVec 5
  d : BitVec 8
  a : BitVec 8
  b : BitVec 8
  t : BitVec 2
  deriving DecidableEq, Repr

/-- A paired word (R111). -/
structure PairW where
  bnd : Bool
  h0 : Half
  h1 : Half
  deriving DecidableEq, Repr

/-- A request identity: the source unit's place and its sequence number (R453). -/
structure Rid where
  mod : Nat
  die : Nat
  tile : Nat
  unit : Nat
  seq : Nat
  deriving DecidableEq, Repr

/-- Who makes a request, or waits for a retranslation or a replay (R352, R428, R429, R432, R458): `request` is the request of another
module or of a gateway, `host` a queue pair, `own` the module itself. -/
inductive Requester where
  | wave (team wave : Nat)
  | context (ctx : Nat)
  | matrix (team : Nat)
  | pass (cluster slot : Nat)
  | stream (team q : Nat)
  | request (rid : Rid)
  | copy (team num : Nat)
  | scopy (ctx num : Nat)
  | host (port qp : Nat)
  | own
  deriving DecidableEq, Repr

/-- A public key as it is presented beside an image; the fuses hold only its digest (R511). -/
structure PubKey where
  n : Nat
  e : Nat
  deriving DecidableEq, Repr

/-- What the outside and the fuses bring to bring-up (R520). -/
structure Bringup where
  fuseOk : List Bool
  stratus : List Bool
  caps : List Nat
  modules : List (List Bool)
  vendorKey : PubKey
  ownerKey : PubKey
  caltus : List Byte
  service : List Byte
  random : BitVec 512
  deriving DecidableEq, Repr

/-- A management-queue request as it arrives (R500, R501). -/
structure MgmtMsg where
  part : Nat
  port : Nat
  op : BitVec 16
  tag : BitVec 32
  operands : List Byte
  deriving DecidableEq, Repr

/-- Who asks for a management change: a service-firmware management core, Caltus on a die's secure management core (R510), or the board
(R502). -/
inductive Role where
  | service
  | caltus (die : Nat)
  | board
  deriving DecidableEq, Repr

/-- Caltus's registers of a die are reached by that die's secure management core only (R503, R506, R509). -/
def Role.caltusOf (r : Role) (die : Nat) : Bool := r == .caltus die

/-- Whether the Caltus root monitor asks, on either die (R510). -/
def Role.isCaltus (r : Role) : Bool := r.caltusOf 0 || r.caltusOf 1

/-- A command on a key slot and who gives it (R509, R510). -/
structure KeyReq where
  by_ : Role
  slot : Nat
  deriving DecidableEq, Repr

/-- BUD and STAT in whole watts (R514). -/
structure Budget where
  bud : Nat
  stat : Nat
  deriving DecidableEq, Repr

/-- The reset of a partition and who makes it (R519). -/
structure ResetReq where
  by_ : Role
  part : Nat
  deriving DecidableEq, Repr

/-- A signed sideband request (R502, R511). -/
structure SideReq where
  seq : Nat
  kind : Nat
  value : List Byte
  key : PubKey
  sig : List Byte
  deriving DecidableEq, Repr

/-- An RDMA message: its port and queue pair, the key and the address it names, its bytes, the length it reads (R497, R498). -/
structure RdmaReq where
  port : Nat
  qp : Nat
  key : BitVec 32
  va : Nat
  data : List Byte
  len : Nat
  deriving DecidableEq, Repr

/-- A write with immediate (R374, R498): the key and the address it names, its bytes and its immediate. -/
structure CommitMsg where
  key : BitVec 32
  va : Nat
  data : List Byte
  imm : Word
  deriving DecidableEq, Repr

/-- Every step of the part: the instruction words of R118 and the events of the opcode table. -/
inductive Instr where
  | ill (f : IWord)
  | nop (f : NoneW)
  | bra (f : BraW)
  | brx (f : BrxW)
  | call (f : CallW)
  | callx (f : CallxW)
  | ret (f : CallxW)
  | regang (f : NoneW)
  | exit (f : NoneW)
  | yield (f : NoneW)
  | trap (f : ImmW)
  | eret (f : NoneW)
  | bkpt (f : ImmW)
  | loop (f : CallW)
  | csrr (f : CsrW)
  | csrw (f : CsrW)
  | csrs (f : CsrW)
  | csrc (f : CsrW)
  | cinv (f : MemW)
  | cinvAll (f : MemW)
  | cwb (f : MemW)
  | pref (f : MemW)
  | extq (f : SysW)
  | halloc (f : SysW)
  | hfree (f : SysW)
  | setprio (f : SysW)
  | svc (f : ImmW)
  | iadd (f : AluW)
  | isub (f : AluW)
  | iaddc (f : AluW)
  | imul (f : AluW)
  | imulh (f : AluW)
  | imad (f : AluW)
  | imin (f : AluW)
  | imax (f : AluW)
  | iabsd (f : AluW)
  | and (f : AluW)
  | or (f : AluW)
  | xor (f : AluW)
  | andn (f : AluW)
  | shl (f : AluW)
  | shr (f : AluW)
  | sar (f : AluW)
  | rotl (f : AluW)
  | clz (f : AluW)
  | popc (f : AluW)
  | brev (f : AluW)
  | bfe (f : AluW)
  | bfi (f : AluW)
  | lea (f : AluW)
  | icmp (f : AluW)
  | sel (f : AluW)
  | mov (f : AluW)
  | movl (f : AluW)
  | movh (f : AluW)
  | prmt (f : AluW)
  | idot4 (f : AluW)
  | idiv (f : AluW)
  | irem (f : AluW)
  | pand (f : AluW)
  | por (f : AluW)
  | pxor (f : AluW)
  | pnot (f : AluW)
  | pmov (f : AluW)
  | pset (f : AluW)
  | pget (f : AluW)
  | rfl (f : AluW)
  | rdlane (f : AluW)
  | wrlane (f : AluW)
  | fadd (f : AluW)
  | fsub (f : AluW)
  | fmul (f : AluW)
  | fma (f : AluW)
  | fmin (f : AluW)
  | fmax (f : AluW)
  | fcmp (f : AluW)
  | fclass (f : AluW)
  | frcp (f : AluW)
  | fsqrt (f : AluW)
  | frsq (f : AluW)
  | fexp2 (f : AluW)
  | flog2 (f : AluW)
  | fsinpi (f : AluW)
  | fcospi (f : AluW)
  | fdiv (f : AluW)
  | ffloor (f : AluW)
  | fceil (f : AluW)
  | ftrunc (f : AluW)
  | frint (f : AluW)
  | ffrac (f : AluW)
  | fldexp (f : AluW)
  | fdot2 (f : AluW)
  | fdot4 (f : AluW)
  | hadd2 (f : AluW)
  | hmul2 (f : AluW)
  | hfma2 (f : AluW)
  | fmed3 (f : AluW)
  | cvt (f : AluW)
  | cvtq (f : AluW)
  | cvtdq (f : AluW)
  | pack (f : AluW)
  | unpk (f : AluW)
  | shfl (f : AluW)
  | vote (f : AluW)
  | redux (f : AluW)
  | scan (f : AluW)
  | matchl (f : AluW)
  | ld (f : MemW)
  | st (f : MemW)
  | lds (f : MemW)
  | sts (f : MemW)
  | ldp (f : MemW)
  | stp (f : MemW)
  | ldu (f : MemW)
  | stu (f : MemW)
  | atom (f : MemW)
  | atoms (f : MemW)
  | red (f : MemW)
  | append (f : SysW)
  | decline (f : SysW)
  | fence (f : MemW)
  | bar (f : SysW)
  | cbinit (f : SysW)
  | cbarv (f : SysW)
  | cbwait (f : SysW)
  | tlwait (f : SysW)
  | tlread (f : SysW)
  | cpy (f : SysW)
  | mcast (f : SysW)
  | cexec (f : SysW)
  | ceqry (f : SysW)
  | ceqryArg (f : SysW)
  | iscfg (f : SysW)
  | qclose (f : SysW)
  | emit (f : SysW)
  | emitr (f : SysW)
  | recget (f : SysW)
  | recgetCount (f : SysW)
  | mbtgt (f : SysW)
  | mxzero (f : SysW)
  | mxldw (f : SysW)
  | mxloop (f : SysW)
  | mxspl (f : SysW)
  | mxdrain (f : SysW)
  | mxfence (f : SysW)
  | mxrd (f : SysW)
  | mxrdStat (f : SysW)
  | mxwr (f : SysW)
  | mxmask (f : SysW)
  | mxcfg (f : SysW)
  | jchain (f : SysW)
  | jsend (f : SysW)
  | jrecv (f : SysW)
  | jclose (f : SysW)
  | jabort (f : SysW)
  | rtbox (f : SysW)
  | rttri (f : SysW)
  | rtcrv (f : SysW)
  | rtrace (f : SysW)
  | rng (f : SysW)
  | rsvupd (f : SysW)
  | rsvmrg (f : SysW)
  | rsvnrm (f : SysW)
  | rsvld (f : SysW)
  | rsvst (f : SysW)
  | ltwalk (f : SysW)
  | reuse (f : SysW)
  | cparg (f : SysW)
  | cpret (f : SysW)
  | kld (f : SysW)
  | kst (f : SysW)
  | agset (f : SysW)
  | agstep (f : SysW)
  | scopy (f : SysW)
  | sgath (f : SysW)
  | sscat (f : SysW)
  | smcast (f : SysW)
  | cbload (f : SysW)
  | sdecode (f : SysW)
  | qpush (f : SysW)
  | tlinc (f : SysW)
  | swait (f : SysW)
  | stopc (f : SysW)
  | pairedWord (f : PairW)
  | moduleReset (b : Bringup)
  | partitionReset (r : ResetReq)
  | clockStretch (cluster cycles : Nat)
  | powerLimit (cycles : Nat)
  | energyRefill
  | teamAdmit (team : Nat)
  | ucieModuleFail (gw m : Nat)
  | fabricPortFail (port : Nat)
  | flitCrcFail (port : Nat)
  | thieloData (n : Nat)
  | e2eack (n : Nat)
  | e2eRetransmit (n port : Nat)
  | fatalError (p reason origin addr : Nat)
  | haltLineArrival (p unit : Nat)
  | haltHeaderWrite (p : Nat)
  | homeRequest (rid : Rid)
  | ackFlit (rid : Rid)
  | nackFlit (rid : Rid)
  | deferredPerm (team wave : Nat)
  | mingenRaiseComplete (asid : Nat)
  | onDemandTranslate (who : Requester)
  | gatewayAnchorData (n : Nat)
  | gatewayWindowEnd (n : Nat)
  | gatewayReduction (rid : Rid)
  | haloRequest (cluster slot : Nat)
  | mail (n : Nat)
  | mailacc (n : Nat)
  | mailref (n : Nat)
  | mailSlotGrant (team wave : Nat)
  | mailResendTimeout (team wave : Nat)
  | mbdropRead (core : Nat)
  | stretchCountRead (cluster : Nat)
  | reservationGrant (core : Nat)
  | ready (n : Nat)
  | arm (n : Nat)
  | credit (n : Nat)
  | req (n : Nat)
  | data (n : Nat)
  | datasat (n : Nat)
  | endFlit (n : Nat)
  | abortFlit (n : Nat)
  | refuse (n : Nat)
  | revoke (n : Nat)
  | copyBurst (engine : Nat)
  | copyComplete (ctx num : Nat)
  | waveCopyComplete (team num : Nat)
  | tlincApply (ctx : Nat)
  | cbarvApply (ctx : Nat)
  | contextFaulted (ctx : Nat)
  | stopcComplete (ctx : Nat)
  | streamFetch (team q : Nat)
  | matrixOpStart (team : Nat)
  | clusterOpArrival (team core : Nat)
  | rowBlock (team : Nat)
  | matrixOpComplete (team : Nat)
  | rtraceStart (core n : Nat)
  | rayUnitComplete (core n : Nat)
  | passStart (cluster slot : Nat)
  | passPixel (cluster slot : Nat)
  | visibilitySegment (cluster slot : Nat)
  | passEnd (cluster slot : Nat)
  | hostCommit (port qp : Nat) (msg : CommitMsg)
  | rdmaWrite (r : RdmaReq)
  | rdmaRead (r : RdmaReq)
  | roceInvalidRequest (port qp : Nat)
  | nodeFire (p node : Nat)
  | drainComplete (p node : Nat)
  | teamReady (team : Nat)
  | teamResident (core team : Nat)
  | bankSwap (core : Nat)
  | waitSwapTimeout (core : Nat)
  | contextSaved (team : Nat)
  | claimComplete (core : Nat)
  | teamEnd (team energy : Nat)
  | launchEnd (launch : Nat)
  | flush (p : Nat)
  | replay (p : Nat)
  | flushThenReplay (p : Nat)
  | force (m : MgmtMsg)
  | kill (m : MgmtMsg)
  | halt (m : MgmtMsg)
  | nodetab (m : MgmtMsg)
  | nodeon (m : MgmtMsg)
  | nodeoff (m : MgmtMsg)
  | asrec (m : MgmtMsg)
  | svcdone (p : Nat) (ticket : Word)
  | keyLoad (r : KeyReq)
  | keyErase (r : KeyReq)
  | regionWrite (by_ : Role) (i : Nat) (rega regb : DWord)
  | regionRekeyComplete (die i : Nat)
  | worldWrite (die : Nat) (by_ : Role) (num : BitVec 12) (value : DWord)
  | schcfgWrite (p : Nat) (value : DWord)
  | areaBaseWrite (num : BitVec 12) (value : DWord)
  | allowanceWrite (p watts : Nat)
  | budgetSet (by_ : Role) (b : Budget)
  | mregExtend (die : Nat) (by_ : Role) (i : Nat) (digest : BitVec 512)
  | attestationReport (die : Nat) (nonce : List Byte)
  | signedSidebandRequest (r : SideReq)
  | mgmtCsrWrite (die : Nat) (by_ : Role) (num : BitVec 12) (value : DWord)
  | readDataResponse (rid : Rid)
  | contextFillComplete (core : Nat)
  | releaseClearComplete (core : Nat)
  | gatewayReductionWindowEnd (n : Nat)
  | mailboxControlFlit (n : Nat)
  | unknownOp (m : MgmtMsg)
  | stackFail (k : Nat)
  | ucieLinkLevelRetry (gw m : Nat)
  deriving DecidableEq, Repr

end Sys2Proof
end

