-- ==== Sys2Proof/Machine/State.lean ====
section
/-! DEFINITION. The state of one KQ-880 module as plain data: the team contexts of R29, the cores, clusters and
Contrail contexts, memory, the networks between them, the schedulers of the partitions, the management registers and
the agenda that says which agent moves next. `State.reset` is the module right after module reset (R10, R520 step 1). -/

namespace Sys2Proof.Machine

/-- A sparse table: keys strictly rising, an absent key meaning the default its reader names. -/
abbrev SMap (α : Type) := List (Nat × α)

/-- A set of numbers, strictly rising. -/
abbrev NSet := List Nat

/-- Trap and park causes (R423, R426). -/
inductive Cause where
  | profile | illegalEnc | illegalPair | priv | syncParted | divstackOvf | misalign | scratchBounds | peerRetired
  | extentMiss | perm | copyFail | poison | fpInvalid | fpDivZero | fpOverflow | fpUnderflow | fpInexact | chainAbort
  | trap | bkpt
  deriving DecidableEq, Repr

/-- What will write a busy register: a memory request, a wave copy, a matrix operation (R27). -/
inductive BusySrc where
  | req (rid : Rid)
  | copy (num : Nat)
  | matrix (op : Nat)
  deriving DecidableEq, Repr

/-- What a gang that cannot proceed waits for (R228, R268, R27); a wait for results names what gives them. -/
inductive WaitKind where
  | result (on : List BusySrc)
  | counter | barrier | mailbox | fifo | park | append | order | slot | context | fence | room | reservation
  | chain | claim | unit | send | service
  deriving DecidableEq, Repr

/-- How a slice stands: free to issue, waiting at REGANG (R22) or at a BAR whose bit B is `bnd` (R207), waiting for a service reply (R183),
for an engine operation that retires its word, whose bit B is `bnd` (`async`), or to be woken for another try
(`wait`). -/
inductive Hold where
  | free
  | regang
  | bar (bnd : Bool)
  | svc (ticket : Nat)
  | async (op : Nat) (bnd : Bool) (k : WaitKind)
  | wait (k : WaitKind)
  deriving DecidableEq, Repr

/-- A deferral entry (R20); `rpc = 0` means none. -/
structure Deferral where
  mask : BitVec 4
  dpc : BitVec 53
  rpc : BitVec 53
  deriving DecidableEq, Repr

/-- Slice state (R17). DEPTH is the length of `stack`, whose head is the top entry. -/
structure Slice where
  live : Bool
  pc : BitVec 53
  lmask : BitVec 4
  gangid : BitVec 3
  stack : List Deferral
  runpos : BitVec 5
  hold : Hold
  deriving DecidableEq, Repr

/-- A store that has not left its wave's store queue (R358); `after` lists the wave's reads that were not performed when the
store was issued. -/
inductive StoreE where
  | scratch (off : Nat) (bytes : List Byte) (release : Bool) (after : List Rid)
  | peer (team : Nat) (off : Nat) (bytes : List Byte) (release : Bool) (after : List Rid)
  | global (rid : Rid)
  deriving DecidableEq, Repr

/-- A mailbox message (R226, R461). `psn` marks the granules of its payload, of four lanes each (R453, R454). -/
structure Message where
  vals : List Word
  mask : LaneMask
  fromMod : Nat
  fromCore : Nat
  fromWave : Nat
  fromTeam : Nat
  psn : BitVec 8
  deriving DecidableEq, Repr

/-- Kinds of mailbox flit (R453, R462). -/
inductive MailKind where
  | mail | acc | ref | control
  deriving DecidableEq, Repr

/-- A flit of the mailbox network (R461), with the modules it comes from and goes to (R451). `listed` says in a MAILREF that
the refusal list took the sender; `granted` says in a MAIL that a slot is reserved for it (R462); `seq` is the SEQ of the message (R453). -/
structure MailFlit where
  kind : MailKind
  part : Nat
  fromMod : Nat
  fromCore : Nat
  fromTeam : Nat
  fromWave : Nat
  toMod : Nat
  toCore : Nat
  launch : Nat
  toWave : Nat
  msg : Message
  listed : Bool
  granted : Bool
  seq : Nat
  deriving DecidableEq, Repr

/-- A parked lane: its number, its address, the park code and the extent index (R426). -/
structure ParkLane where
  lane : Nat
  va : Nat
  code : Nat
  idx : Nat
  deriving DecidableEq, Repr

/-- What a sending word writes besides its message, held back until the word completes (R228): vector registers by lane, uniform
registers, the registers of each kind that become unmarked, predicate bits with their lanes, flags of FPCTL. -/
structure Late where
  v : SMap Word
  s : SMap Word
  vclean : NSet
  sclean : NSet
  p : List (Nat × LaneMask × LaneMask)
  flags : DWord
  deriving DecidableEq, Repr

/-- One wave: registers (R32), slices, its CSRs (R45), its queues. Sparse tables read 0 where nothing is listed. `ordered`
says that the synchronising read it is blocked in has issued (R52); `taken` is the message and the elements the sending word
took, which go back when it issues again, `late` what else it writes, and `refused` says that its message was refused (R228,
R462). -/
structure Wave where
  slices : List Slice
  v : SMap Word
  s : SMap Word
  p : SMap Word
  vpoison : NSet
  spoison : NSet
  cause : BitVec 8
  wepc : DWord
  wpark : Word
  wtraparg : DWord
  whandler : DWord
  cte : Bool
  intrap : Bool
  defer : Bool
  wclock : DWord
  fpctl : DWord
  mbdest : DWord
  trapGang : BitVec 8
  parkGang : BitVec 8
  parked : Bool
  replay : Bool
  parks : List ParkLane
  parkAcc : Nat
  stamp : Nat
  lastGang : BitVec 3
  blockedAt : Option Nat
  blockTh : Nat
  mbox : List Message
  mbReserved : Nat
  storeQ : List StoreE
  owc : Nat
  busy : List (Nat × BusySrc)
  slots : List Nat
  sending : Option MailFlit
  resendAt : Option Nat
  refused : Bool
  descs : List (Nat × List Byte)
  taken : List (Nat × List (Word × Bool)) × Option Message
  late : Option Late
  ordered : Bool
  deriving DecidableEq, Repr

/-- Where a team stands (R390). -/
inductive TeamSt where
  | waiting | ready | resident | active | saved | ending | ended
  deriving DecidableEq, Repr

/-- An extent-table entry (R346). -/
structure Extent where
  kind : BitVec 2
  vbase : Nat
  len : Nat
  pbase : Nat
  key : Nat
  sec : Bool
  isOpen : Bool
  x : Bool
  w : Bool
  r : Bool
  gen : Nat
  installed : Nat
  deriving DecidableEq, Repr

/-- The three cell modes (R79). -/
inductive CellMode where
  | xf48 | i48 | a48
  deriving DecidableEq, Repr

/-- An accumulator tile: cells (row × 128 + column), poison bits and the flag word's fields (R240). -/
structure Tile where
  cells : SMap (BitVec 48)
  psn : NSet
  mode : CellMode
  anchor : BitVec 10
  ecause : BitVec 8
  lent : Bool
  dsat : Bool
  abt : Bool
  ovf : Bool
  deriving DecidableEq, Repr

/-- FIFO states (R328). -/
inductive FifoSt where
  | idle | streaming | pushing | closed
  deriving DecidableEq, Repr

/-- A replayable fault an engine waits on (R433): the pages of its access that are not there, as lane 0 of a word, the ACCESS code of
R429, and the stamp (R430). `noted` says that its fault records are written and it waits for the pager (R428). -/
structure EngPark where
  pages : List ParkLane
  acc : Nat
  stamp : Nat
  noted : Bool
  deriving DecidableEq, Repr

/-- The set-up of an indirect stream (R219, R330). -/
structure Stream where
  base : Nat
  index : Nat
  count : Nat
  stride : Nat
  offset : Nat
  next : Nat
  park : Option EngPark
  failure : Option (Cause × Nat)
  deriving DecidableEq, Repr

/-- A stream FIFO (R219, R328); each element carries its poison mark. -/
structure Fifo where
  st : FifoSt
  elems : List (Word × Bool)
  stream : Option Stream
  deriving DecidableEq, Repr

/-- Where a logical region or tile is (R437). -/
inductive RegionSt where
  | fresh | present | saving | filling | saved
  deriving DecidableEq, Repr

/-- The source of a matrix operand (R234, R236, R237): its base, format block and shape in memory. -/
structure Operand where
  handle : Bool
  base : Nat
  rows : Nat
  rowBytes : Nat
  pitch : Nat
  ahead : Nat
  fmt : BitVec 4
  grp : Nat
  tr : Bool
  cb : Nat
  cbf : Bool
  x : BitVec 16
  scl : Nat
  zp : Nat
  deriving DecidableEq, Repr

/-- The latched plane descriptor (R247). -/
structure Plane where
  op : Operand
  pat : BitVec 2
  metaOff : Nat
  failed : Option (BitVec 8)
  cluster : Bool
  deriving DecidableEq, Repr

/-- The bytes of one plane as they were read (R247), side data among them: the address of each run of bytes, and the
bytes with their poison marks. -/
structure PlaneData where
  step : Nat
  segs : List (Nat × List (Byte × Bool))
  deriving DecidableEq, Repr

/-- A queued matrix operation with the operands and masks captured at issue (R232, R244). -/
inductive MxKind where
  | zero (tile : Nat) (mask : BitVec 8)
  | cfg (tile : Nat) (mode : CellMode) (anchor : BitVec 10) (lend : Bool)
  | ldw (pl : Plane) (mask : BitVec 8)
  | loop (tile : Nat) (a : Operand) (m n : Nat) (da db dm : Int) (rows : BitVec 128) (cols : List (BitVec 128))
      (sparse : Bool) (mask : BitVec 8)
  | drain (tile : Nat) (dst : Operand) (dstT : Option Operand) (fmt fmtT : BitVec 4) (nsat : Bool)
      (scale scaleT : Word) (rows : BitVec 128) (cols : List (BitVec 128)) (mask : BitVec 8)
  | rd (tile : Nat) (raw : Bool) (d : Nat) (row col : Nat) (lanes : LaneMask) (wave : Nat)
  | stat (tile : Nat) (d : Nat) (wave : Nat)
  | wr (tile : Nat) (raw : Bool) (row col : Nat) (vals : List (Nat × BitVec 64))
  | chain (tile : Nat) (anchor : Bool) (d : Nat) (p0 p1 : Word) (wave : Nat)
  | send (d handle : Nat) (rows cols : BitVec 128) (wave : Nat)
  | recv (d handle : Nat) (wave : Nat)
  deriving DecidableEq, Repr

/-- A queue entry: identity, batch, what it does, the cores in the cluster it works on with the team on each, chosen when it
issues (R197, R250), how far it has come (R257, R408). -/
structure MxOp where
  id : Nat
  batch : Nat
  kind : MxKind
  targets : List (Nat × Nat)
  started : Bool
  done : Bool
  step : Nat
  block : Nat
  park : Option EngPark
  cut : Bool
  deriving DecidableEq, Repr

/-- A cluster-form operation in the arrival buffer of a target engine (R404): its team, its identity, and whether it has
entered the engine's order (R251). -/
structure Arrival where
  team : Nat
  op : Nat
  entered : Bool
  deriving DecidableEq, Repr

/-- A copy a wave issued: CPY or MCAST (R213, R214). `dests` lists team, generation, offset, code so far. -/
structure WCopy where
  num : Nat
  wave : Nat
  d : Nat
  toScratch : Bool
  fromScratch : Bool
  src : Nat
  dst : Nat
  len : Nat
  pos : Nat
  dests : List (Nat × Nat × Nat)
  code : Nat
  park : Option EngPark
  deriving DecidableEq, Repr

/-- How far a chain member has come (R261, R266, R468): a withdrawn grant leaves it `waiting` (R469). -/
inductive ChainSt where
  | waiting | granted | armed | aborted | closed
  deriving DecidableEq, Repr

/-- Jetstream flit types (R467). -/
inductive FlitType where
  | data | credit | ready | arm | req | fin | abort | refuse | revoke | datasat
  deriving DecidableEq, Repr

/-- A Jetstream flit (R466). `cells` holds column, cell and poison of the valid cells of the segment; `last` counts the
rows that end with it, by which slots and credits are given back (R471). -/
structure JFlit where
  type : FlitType
  dest : Nat
  src : Nat
  chain : Nat
  rank : Nat
  count : Nat
  anchorMode : Bool
  cmode : CellMode
  anchor : BitVec 10
  row : Nat
  seg : Nat
  arg : Nat
  last : Nat
  cells : List (Nat × BitVec 48 × Bool)
  deriving DecidableEq, Repr

/-- A chain member's record (R29, R260). `ready` lists rank and core of received READY; `asked` counts rows asked for and
not yet granted, `requests` those of rank, core and rows at an ANCHOR root; `inbox` holds what the landing buffer has
accepted; `sendRows` the rows of a JSEND in progress that have not left, `curRow` the row whose credit is spent; `ends`
counts contributions (R472). -/
structure Chain where
  id : Nat
  anchorMode : Bool
  count : Nat
  rank : Nat
  root : Bool
  next : Nat
  tile : Nat
  cmode : CellMode
  anchor : BitVec 10
  st : ChainSt
  why : Nat
  sentReady : Bool
  ready : List (Nat × Nat)
  credits : Nat
  asked : Nat
  requests : List (Nat × Nat × Nat)
  free : Nat
  lastServed : Nat
  timeline : Nat
  sendRows : List Nat
  curRow : Option Nat
  inbox : List JFlit
  ends : Nat
  deriving DecidableEq, Repr

/-- A team context and its place in the scheduler (R29, R390). `copyOut` and `mxOut` are the smallest number of a copy, and of a
matrix batch, that wrote what other cores hold or global memory (R363). -/
structure Team where
  serial : Nat
  tag : Nat
  launch : Nat
  part : Nat
  index : Nat
  core : Nat
  st : TeamSt
  created : Bool
  base : Nat
  since : Nat
  charged : Bool
  nregs : Nat
  nslices : Nat
  nwaves : Nat
  naccs : Nat
  regions : Nat
  secure : Bool
  repro : Bool
  asid : Nat
  waves : List Wave
  mp : List (BitVec 128)
  np : List (BitVec 128)
  fifos : List Fifo
  tiles : List Tile
  tileSt : List RegionSt
  mxq : List MxOp
  mxNext : Nat
  mxBatch : Nat
  mxTl : DWord
  mxOut : Option Nat
  issuedPlane : Option Plane
  plane : Option Plane
  planeData : Option PlaneData
  copies : List WCopy
  copyNum : Nat
  copyTl : DWord
  copyOut : Option Nat
  chains : List Chain
  scratch : SMap Byte
  scratchPsn : NSet
  regSt : List RegionSt
  ext : List Extent
  arena : List (Nat × Nat)
  closed : NSet
  allocGen : Nat
  image : Option Nat
  ctxSaved : Bool
  saved : List Byte
  filled : Bool
  savedAt : Nat
  killed : Bool
  forced : Bool
  deriving DecidableEq, Repr

/-- A launch packet and the fields of the running launch (R381, R389). -/
structure Launch where
  id : Nat
  part : Nat
  node : Nat
  firing : Nat
  entry : Nat
  asid : Nat
  prio : Nat
  repro : Bool
  secure : Bool
  grid : Nat
  shape : Word
  scratch : Nat
  pkind : Nat
  pmul : Nat
  parg : Nat
  dkind : Nat
  ddiv : Nat
  dmlo : Int
  dalo : Int
  dmhi : Int
  dahi : Int
  bitmap : Nat
  exts : List (Nat × Nat × Nat × Nat)
  heap : Option Nat
  arena : Nat
  energy : Nat
  doneAddr : Nat
  counters : SMap Word
  batch : List Nat
  slots : List Nat
  created : Nat
  endedTeams : NSet
  ended : Bool
  killed : Bool
  deriving DecidableEq, Repr

/-- An enabled or disabled graph node (R368–R372). `stream` holds committed records no firing has taken; of
a root, `due` holds the sizes of the batches at its front that a drain has fixed, each with whether a drain is complete when it
fires (R379, R402). -/
structure Node where
  on : Bool
  packet : List Byte
  qbase : Nat
  qcap : Nat
  rsize : Nat
  root : Bool
  autodrain : Bool
  coalesce : Nat
  maxlive : Nat
  prod : Option Nat
  succ : List Nat
  committed : Nat
  freed : Nat
  firings : Nat
  refused : Nat
  errors : Nat
  live : Nat
  drains : Nat
  stream : List Nat
  due : List (Nat × Bool)
  used : NSet
  reserved : NSet
  drainReq : Bool
  drainedBy : NSet
  stopping : Bool
  endedFirings : NSet
  firstLaunch : Nat
  addr : Nat
  deriving DecidableEq, Repr

/-- A physical region or tile of a core (R437). -/
inductive Phys where
  | free
  | held (team idx : Nat)
  | clearing
  deriving DecidableEq, Repr

/-- A claim at the spill engine (R437, R438). -/
structure Claim where
  team : Nat
  tile : Bool
  idx : Nat
  unit : Nat
  victim : Option (Nat × Nat)
  deriving DecidableEq, Repr

/-- A line of the load cache with its poison marks (R353, R354). -/
structure CLine where
  bytes : List Byte
  psn : BitVec 8
  deriving DecidableEq, Repr

/-- An entry of the ray request queue (R415); `op` is the major opcode, `vals` the operands other than blocks as they were
read at issue, by lane. -/
structure RayOp where
  id : Nat
  team : Nat
  wave : Nat
  gang : BitVec 8
  word : SysW
  op : BitVec 8
  lanes : LaneMask
  vals : List (Nat × List Nat)
  started : Bool
  taken : Nat
  deriving DecidableEq, Repr

/-- A landing-buffer reservation, asked for or granted (R261). -/
structure Reservation where
  chain : Nat
  team : Nat
  size : Nat
  granted : Bool
  deriving DecidableEq, Repr

/-- A core (R30, R46, R397). `idle` says that a FORCE left the active bank empty and no team has become Resident since
(R395). -/
structure Core where
  active : Option Nat
  shadow : Option Nat
  swapping : Bool
  gen : Nat
  phys : List Phys
  physTiles : List Phys
  claims : List Claim
  lcache : SMap CLine
  ccyc : Nat
  waitth : Nat
  ready : List (List Nat)
  slot : List (Option Nat)
  rays : List RayOp
  reservations : List Reservation
  mbRefused : List MailFlit
  mbdrop : Nat
  arrivals : List Arrival
  early : List JFlit
  stopped : Bool
  seq : Nat
  idle : Bool
  deriving DecidableEq, Repr

/-- A slot of the cluster's codebook store (R326). -/
structure Codebook where
  tag : Option Nat
  bytes : SMap Byte
  psn : NSet
  loading : Bool
  loadedAt : Nat
  deriving DecidableEq, Repr

/-- A lane of a callable evaluation (R299): its own registers, PC and FPCTL; `slot` is the pass it works for; `args` the ten
fields of R300, `argPsn` the marks of the two granules of its record. -/
structure Eval where
  slot : Nat
  pc : BitVec 53
  entry : BitVec 53
  v : SMap Word
  s : SMap Word
  p : SMap Bool
  vpoison : NSet
  spoison : NSet
  fpctl : DWord
  lane : Nat
  args : List Word
  argPsn : List Bool
  done : Bool
  phat : Word
  vis : Option (List Word)
  cause : Option Cause
  parkAt : Option Nat
  deriving DecidableEq, Repr

/-- How a pass slot stands (R294–R298). -/
inductive PassSt where
  | free | granted | running | ending
  deriving DecidableEq, Repr

/-- A visibility segment a candidate waits for (R301): the phat of CPRET and its block, and the core that lends it a slot, once one
does (R420). -/
structure Segment where
  phat : Nat
  block : List Word
  core : Option Nat
  deriving DecidableEq, Repr

/-- A candidate of a pixel (R296, R419): its item, its record with the marks of its granules, the pixel the record lies at; the
lane that evaluates it, the segment it waits for, and the phat it is merged with. -/
structure Cand where
  item : Nat
  q : List Nat
  psn : List Bool
  at_ : Nat × Nat
  lane : Option Nat
  seg : Option Segment
  phat : Option Nat
  deriving DecidableEq, Repr

/-- A pixel in progress (R296): its record so far, its candidates that are not merged yet, and whether all its items have been
gathered. -/
structure Pixel where
  x : Nat
  y : Nat
  acc : List Nat
  accPsn : Bool
  cands : List Cand
  full : Bool
  deriving DecidableEq, Repr

/-- A pass slot of a Parhelion engine; `work` lists the pixels left to gather, in their order, `item` the next item of the first;
`halo` says that the item's record is awaited from across the split column, `halos` are those that have come, by parity and pixel; `px` holds the pixels in progress, and `lanes` the
evaluation of a pass that is parked (R296, R302, R419, R478). -/
structure Pass where
  st : PassSt
  team : Nat
  launch : Nat
  part : Nat
  asid : Nat
  secure : Bool
  ext : List Extent
  desc : List Byte
  work : List (Nat × Nat)
  item : Nat
  halo : Bool
  halos : List ((Nat × Nat × Nat) × List Byte × List Bool)
  px : List Pixel
  lanes : List Eval
  pixels : Nat
  rejected : Nat
  cause : BitVec 8
  viserr : Nat
  code : Nat
  timeline : DWord
  park : Option EngPark
  deriving DecidableEq, Repr

/-- A cluster (R13, R326, R503). For each of its Contrail engines, `issued` is the context that issued last (R307) and `served` the
one whose copy moved last (R413); `copySeq` numbers the copies of its contexts in the order of their issue (R412); `owed` counts the bursts a copy side is due
for those the fetch queue took while both waited (R413). `stretch`
counts the stretched cycles (R518), `lag` how far its cores' clocks have fallen behind and not yet shown it (R47; free). `evals` are the
lanes of the Parhelion evaluator, which work for one pass; `evalSlot` is the slot that had the last evaluation (R421), `lentCore` the
core in the cluster that lent the last traversal slot (R420), `phSeq` the sequence number of its Parhelion engine (R453). -/
structure Cluster where
  codebooks : List Codebook
  passes : List Pass
  stretch : Nat
  lag : Nat
  phStopped : Bool
  routerStopped : Bool
  routerDropped : Nat
  evals : List Eval
  evalSlot : Nat
  lentCore : Nat
  issued : List Nat
  served : List Nat
  owed : List Nat
  copySeq : Nat
  phSeq : Nat
  deriving DecidableEq, Repr

/-- Context states (R303, R305, R336). -/
inductive CtxSt where
  | stopped | running | parked | faulted | stopping | faulting
  deriving DecidableEq, Repr

/-- An address generator (R317). -/
structure AddrGen where
  base : DWord
  counts : List Nat
  strides : List Int
  pos : List Nat
  addr : DWord
  dims : Nat
  done : Bool
  left : Nat
  deriving DecidableEq, Repr

/-- A place a copy reads or writes: an address, or the offset of a team (its key) of an allocation generation (R312, R320). -/
inductive Loc where
  | global (va : Nat)
  | scratch (team gen off : Nat)
  deriving DecidableEq, Repr

/-- What a stream copy does (R323–R327). -/
inductive CopyKind where
  | linear (dst src : Loc) (len : Nat)
  | gather (dst src list : Loc) (count row : Nat)
  | scatter (dst src list : Loc) (count row : Nat)
  | mcast (dsts : List (Loc × Nat)) (src : Nat) (len : Nat)
  | cbload (slot : Nat) (src : Nat)
  | decode (dst src : Loc) (count : Nat) (table : SMap Byte) (marks : NSet)
  deriving DecidableEq, Repr

/-- A copy in flight of a Contrail context (R319); `seq` is its place in the order of issue of its cluster (R412); `pos` counts the bytes (codes of SDECODE) it is past, `row` is the index
of the row in progress with its mark (R324). -/
structure SCopy where
  num : Nat
  seq : Nat
  ns : Bool
  d : Nat
  kind : CopyKind
  pos : Nat
  row : Option (Nat × Bool)
  code : Nat
  fin : Bool
  park : Option EngPark
  deriving DecidableEq, Repr

/-- A deferred increment or arrival (R331, R332): behind the copies up to number `after` and the reads `reads`; `out` says that the
increment covers writes at cluster scope or wider (R363). -/
inductive Deferred where
  | tlinc (amount : DWord) (after : Nat) (reads : List Rid) (out : Bool)
  | cbarv (d : Nat) (team gen off : Nat) (amount : Nat) (after : Nat) (reads : List Rid)
  deriving DecidableEq, Repr

/-- A binding-table entry (R313). -/
inductive Bind where
  | empty | none
  | team (serial gen : Nat)
  deriving DecidableEq, Repr

/-- A Contrail context (R42, R48, R304). `outNow` says that it wrote outside its starting team's scratchpad since its last TLINC,
`outAt` the timeline value from which such writes are covered (R363). `parks` are the pages its parked word waits for (R337).
`copyFail` says that a copy under .ns failed while a word ran (R319), `redo` that its word is to issue again (R337). -/
structure Ctx where
  st : CtxSt
  k : SMap DWord
  kpoison : NSet
  kbusy : List (Nat × Nat)
  reqBusy : List (Nat × Rid)
  ags : List AddrGen
  kpc : BitVec 53
  kcause : BitVec 8
  karg : BitVec 16
  ktl : DWord
  kout : Nat
  ktag : BitVec 16
  team : Nat
  launch : Nat
  part : Nat
  asid : Nat
  cte : Bool
  secure : Bool
  bind : List Bind
  copies : List SCopy
  issued : Nat
  deferred : List Deferred
  storeQ : List Rid
  owc : Nat
  wait : Option WaitKind
  faultVa : Nat
  faultAcc : Nat
  stamp : Nat
  noted : Bool
  parks : List ParkLane
  copyFail : Bool
  redo : Bool
  outNow : Bool
  outAt : Option Nat
  killed : Bool
  seq : Nat
  deriving DecidableEq, Repr

/-- Who issues the word that `exec` runs: a gang of a wave, a Contrail context, an evaluator lane. -/
inductive Issuer where
  | none
  | wave (team wave : Nat) (gang : BitVec 8)
  | context (ctx : Nat)
  | lane (cluster : Nat)
  deriving DecidableEq, Repr

/-- Kinds of a global request (R453). -/
inductive ReqKind where
  | read | write | atomic | reduction
  deriving DecidableEq, Repr

/-- What has come of a request (R350, R458, R488); `waiting` is a rejected request whose NACK has arrived, with its stamp,
and whether its fault record is written (R352, R428). -/
inductive ReqSt where
  | queued | flight
  | acked
  | answered (bytes : List Byte) (psn : BitVec 8)
  | nacked | refused
  | waiting (stamp : Nat) (noted : Bool)
  deriving DecidableEq, Repr

/-- A request of a wave or context from its issue until it is answered (R350, R365, R456). `peer` is the team and the offset an STP
writes (R458); `place` numbers when it went on the network, and `served` when its home answered (R456); `bad` says that its payload
is marked on the way (R454); `sent` that it has taken the fabric to its home (R484), `via` is the die where it came into the module,
and `eng` the stop-area slot and the world of the engine that made it (R505). -/
structure MemReq where
  rid : Rid
  who : Requester
  gang : BitVec 8
  kind : ReqKind
  asid : Nat
  gen : Nat
  key : Nat
  sec : Bool
  va : Nat
  pa : Nat
  size : Nat
  data : List Byte
  cmp : List Byte
  aop : BitVec 3
  ty : BitVec 4
  ord : BitVec 2
  scope : BitVec 3
  lane : Nat
  d : Nat
  fwd : List (Nat × Byte)
  fill : Bool
  line : Option CLine
  epc : DWord
  st : ReqSt
  peer : Option (Nat × Nat)
  place : Nat
  served : Nat
  bad : Bool
  sent : Bool
  via : Nat
  eng : Option (Nat × Bool)
  deriving DecidableEq, Repr

/-- A flit a gateway holds for combining, with the cores it comes from (R475). -/
structure HeldFlit where
  gw : Nat
  die : Nat
  flit : JFlit
  srcs : List Nat
  since : Nat
  deriving DecidableEq, Repr

/-- A reduction a gateway holds for combining (R476). -/
structure HeldRed where
  gw : Nat
  die : Nat
  rid : Rid
  parts : List Rid
  since : Nat
  deriving DecidableEq, Repr

/-- A Horizon gateway: its UCIe modules in service and their retry counts (R480), and the identities of its duplicate-suppression
window with their partitions and, once known, their responses and when these were sent (R365,
R476, R477). -/
structure Gateway where
  modules : List Bool
  retries : List Nat
  stopped : Bool
  dropped : Nat
  window : List (Nat × Rid × Option (ReqSt × Nat))
  deriving DecidableEq, Repr

/-- Thielo flit types (R492). -/
inductive FabType where
  | data | e2eack | idle
  deriving DecidableEq, Repr

/-- A Thielo flit (R492). `req` is the request or the answer it carries, `mail` its mailbox flit; `stop` the reason, origin, module and address of a
halt-VC flit (R495). -/
structure FabFlit where
  type : FabType
  dmod : Nat
  smod : Nat
  part : Nat
  vc : Nat
  seq : Nat
  port : Nat
  rid : Rid
  req : Option MemReq
  mail : Option MailFlit
  stop : Option (Nat × Nat × Nat × Nat)
  deriving DecidableEq, Repr

/-- A flit the sender keeps until acknowledged (R494). -/
structure FabSent where
  flit : FabFlit
  sentAt : Nat
  tries : Nat
  deriving DecidableEq, Repr

/-- The receiver's record of one flow (R494): the number below which every flit has come, and those that came beyond it. -/
structure FabRecv where
  part : Nat
  smod : Nat
  vc : Nat
  next : Nat
  seen : NSet
  deriving DecidableEq, Repr

/-- A host window (R497). -/
structure Window where
  vbase : DWord
  len : DWord
  ctl : DWord
  check : DWord
  deriving DecidableEq, Repr

/-- A queue pair of a host port (R496). -/
structure Qp where
  port : Nat
  num : Nat
  part : Nat
  mgmt : Bool
  error : Bool
  deriving DecidableEq, Repr

/-- A pending service call (R183, R184). -/
structure Call where
  ticket : Nat
  team : Nat
  wave : Nat
  gang : BitVec 8
  deriving DecidableEq, Repr

/-- A command whose answer waits for its effect (R442, R501). -/
inductive Pending where
  | force (tag : Word) (port team : Nat)
  | kill (tag : Word) (port launch : Nat)
  | halt (tag : Word) (port : Nat)
  | nodeoff (tag : Word) (port node : Nat)
  | mingen (tag : Word) (port asid : Nat)
  deriving DecidableEq, Repr

/-- The halt in progress of a partition (R446–R449): the reason, the unit and module that raised the line, the address
concerned, the units it has reached (by stop-area slot) and the records written. -/
structure HaltInfo where
  reason : Nat
  origin : Nat
  origMod : Nat
  addr : Nat
  arrived : NSet
  records : Nat
  deriving DecidableEq, Repr

/-- A partition: its clusters, the other modules it spans with its clusters there (log entry 8), its scheduler's registers and tables, and in `fbLate` the
fault records that have not reached their ring (R54, R368, R392, R430, R184, R514). -/
structure Part where
  clusters : NSet
  modules : SMap NSet
  secure : Bool
  schcfg : DWord
  fbbase : DWord
  fbsize : DWord
  fbwr : DWord
  fbrd : DWord
  fbgen : DWord
  sabase : DWord
  svbase : DWord
  haltst : DWord
  sqbase : DWord
  sqsize : DWord
  sqwr : DWord
  sqrd : DWord
  svcreply : DWord
  sqPend : List (List Byte)
  calls : List Call
  nextTicket : Nat
  nodetab : Nat
  nodes : SMap Node
  nextSerial : Nat
  nextTag : Nat
  pend : List Pending
  halt : Option HaltInfo
  allowance : Nat
  account : DWord
  clean : Bool
  images : NSet
  fbLate : List (List (List Byte))
  deriving DecidableEq, Repr

/-- What the scheduler tells a tile by a flit of the control network (R351, R432, R451): a raised MINGEN, or the replay of the requesters
of a partition that are not parked under the generation. -/
inductive CtlCmd where
  | mingen (asid value : Nat)
  | replay (part gen : Nat)
  deriving DecidableEq, Repr

/-- A control flit of the scheduler on its way to a tile, 25 × die + tile (R451, R474). -/
structure CtlFlit where
  tile : Nat
  cmd : CtlCmd
  deriving DecidableEq, Repr

/-- A HALO request on its way (R478): the pass, the request identity, the gateway, the view's parity and layer, the tile row, the columns
it names, and the records not yet sent back. -/
structure Halo where
  cluster : Nat
  slot : Nat
  rid : Rid
  gw : Nat
  parity : Nat
  layer : Nat
  row : Nat
  cols : List Nat
  todo : List (Nat × Nat)
  deriving DecidableEq, Repr

/-- A line of another module's memory that its home has sent to an engine, a fetching wave or context, or a queue pair here (R484). -/
structure FarLine where
  who : Requester
  line : Nat
  bytes : List Byte
  psn : BitVec 8
  deriving DecidableEq, Repr

/-- An address-space record (R345), the raise of MINGEN in progress, and the tiles that have not got it yet with the value they have
(R351). -/
structure Asid where
  dw0 : DWord
  dw1 : DWord
  raising : Option Nat
  homes : SMap Nat
  deriving DecidableEq, Repr

/-- A stack of HBM4E (R483, R490). -/
structure Stack where
  en : Bool
  cap : Nat
  discarded : Nat
  deriving DecidableEq, Repr

/-- A region-table entry (R506) and whether Caltus holds it closed (R507). -/
structure Region where
  rega : DWord
  regb : DWord
  closed : Bool
  deriving DecidableEq, Repr

/-- How far bring-up has come (R520). -/
inductive Boot where
  | reset | fuses | memory | links | firmware | up
  | stopped (step : Nat)
  deriving DecidableEq, Repr

/-- What the fuses hold (R511, R513). -/
structure Fuses where
  vendor : BitVec 512
  owner : Option (BitVec 512)
  version : Nat
  devid : DWord
  identity : PubKey
  secretExp : Nat
  deriving DecidableEq, Repr

/-- What service firmware asks of Caltus through the request queue (R510): a world register, half a region's entry each, a key slot, the
budget, an extension. -/
inductive CaltusReq where
  | world (die : Nat) (num : BitVec 12) (value : DWord)
  | region (i : Nat) (rega regb : DWord)
  | keyLoad (die slot : Nat)
  | keyErase (slot : Nat)
  | budget (b : Budget)
  | measure (die i : Nat) (digest : BitVec 512)
  deriving DecidableEq, Repr

/-- Why a die or the module stopped in bring-up (R520), as it is read over I3C. -/
inductive BootFail where
  | fuses (die : Nat)
  | links
  | caltusImage
  | serviceImage
  deriving DecidableEq, Repr

/-- What the board reads over I3C beside registers (R502, R520): temperature, supply voltage and input power of the module, the gateways'
modules in service and their retries, the ports in service and their retries, why bring-up stopped, the mailbox with Caltus. -/
inductive BoardItem where
  | temperature | voltage | power
  | gateway (g : Nat)
  | port (k : Nat)
  | bootReason
  | mailbox
  deriving DecidableEq, Repr

/-- What such a read returns. -/
inductive BoardValue where
  | measured (value : DWord)
  | gateway (modules : List Bool) (retries : List Nat)
  | port (up : Bool) (retries : Nat)
  | boot (why : List BootFail)
  | mailbox (bytes : List Byte)
  deriving DecidableEq, Repr

/-- Line contents under a key and in a world that are not those in effect (R507, R509): the byte at a place of `State.mem`, with the key and
world it was written under. -/
structure Sealed where
  at_ : Nat
  key : Option (BitVec 512)
  sec : Bool
  byte : Byte
  deriving DecidableEq, Repr

/-- The same for the mark of a granule. -/
structure SealedMark where
  granule : Nat
  key : Option (BitVec 512)
  sec : Bool
  deriving DecidableEq, Repr

/-- What the module sends to the outside: answers and notes on the management queues (R501), in-band interrupts
(R502: kind 0 partition n halted, 1 stack n failed, 2 gateway n failed, 3 fabric path to module n failed, 4 thermal limit,
5 bring-up stopped), RDMA answers (R498, R499), signals of the fault buffer (R430), register reads, the status of a request to
Caltus (R510), a write refused its requester (R520), what the board reads (R502). -/
inductive Out where
  | answer (part port : Nat) (tag : Word) (status : Nat) (result : DWord)
  | sqnote (part wr : Nat)
  | interrupt (kind n : Nat)
  | rdmaData (port qp : Nat) (bytes : List Byte)
  | rdmaError (port qp : Nat)
  | roceError (port qp : Nat)
  | faultSignal (part : Nat)
  | fabric (port : Nat) (flit : FabFlit)
  | csrValue (num : Nat) (value : DWord)
  | stackCount (stack n : Nat)
  | report (bytes : List Byte)
  | sideband (accepted : Bool)
  | caltusStatus (done : Bool)
  | refusedWrite (by_ : Role) (num : Nat)
  | board (item : BoardItem) (value : BoardValue)
  deriving DecidableEq, Repr

/-- Where an uncorrectable error falls (R445, R454): a granule of memory or of a team's scratchpad, the payload of a request or of
its answer, a Jetstream flit, a vector or uniform register, a register of a context, an accumulator cell, a message, a flit kept for the
fabric or come from it. -/
inductive Upset where
  | mem (pa : Nat)
  | scratch (team off : Nat)
  | payload (rid : Rid)
  | jflit (n : Nat)
  | reg (team wave : Nat) (code : BitVec 8) (lane : Nat)
  | kreg (ctx n : Nat)
  | cell (team tile k : Nat)
  | mail (n : Nat)
  | fabric (sent : Bool) (n : Nat)
  deriving DecidableEq, Repr

/-- Which agent moves. `contrail` lets a Contrail engine issue; `drain` lets the head of a wave's (or context's) store queue leave; `wake` tries a waiting
wave again; `records` brings a partition's oldest fault records that are on their way to their ring (R431); `read` is a
management core, or the board, that reads a management register of a die (R7, R502, R503), `stackCount` service firmware that reads the
counter of a stack (R490). A flit arrives from the fabric, a request takes it (R484, R494); a control flit reaches its tile (R451); records of a HALO request are read at their homes (R478). Service firmware puts
a request into its queue to Caltus, and Caltus takes the oldest (R510); the board reads an item; the board or Caltus writes into their
mailbox (R502). -/
inductive Mover where
  | issue (core octant : Nat)
  | contrail (engine : Nat)
  | lane (cluster : Nat)
  | drain (team wave : Nat)
  | drainCtx (ctx : Nat)
  | wake (team wave : Nat)
  | records (part : Nat)
  | upset (at_ : Upset)
  | read (die : Nat) (by_ : Role) (num : Nat)
  | stackCount (stack : Nat)
  | arrive (f : FabFlit)
  | cross (rid : Rid)
  | control (n : Nat)
  | halo (n : Nat)
  | ask (r : CaltusReq)
  | caltus
  | board (item : BoardItem)
  | mailbox (by_ : Role) (off : Nat) (bytes : List Byte)
  | event (i : Instr)
  deriving DecidableEq, Repr

/-- One entry of the agenda: who moves, the free timing choice of the move, and the core cycles that pass before it. -/
structure Turn where
  who : Mover
  choice : Nat
  cycles : Nat
  deriving DecidableEq, Repr

/-- The whole module. -/
structure State where
  cur : Issuer
  agenda : List Turn
  choice : Nat
  fresh : Nat
  now : Nat
  moduleNo : Nat
  boot : Boot
  mem : List Host.Cell
  memPsn : NSet
  teams : SMap Team
  cores : SMap Core
  clusters : SMap Cluster
  ctxs : SMap Ctx
  launches : SMap Launch
  nextLaunch : Nat
  parts : SMap Part
  asids : SMap Asid
  reqs : List MemReq
  places : Nat
  served : Nat
  dup : List (Rid × ReqSt)
  mails : List MailFlit
  ctl : List CtlFlit
  halos : List Halo
  far : List FarLine
  aged : List Rid
  caltusQ : List CaltusReq
  caltusAt : Option Nat
  mailbox : List Byte
  bootWhy : List BootFail
  covered : List Sealed
  coveredPsn : List SealedMark
  jnet : List JFlit
  held : List HeldFlit
  heldRed : List HeldRed
  gateways : List Gateway
  ports : NSet
  portRetries : SMap Nat
  fabIn : List FabFlit
  fabSent : List FabSent
  fabRecv : List FabRecv
  fabNext : SMap Nat
  hbm : List Stack
  regions : SMap Region
  qps : List Qp
  windows : SMap Window
  csrs : SMap DWord
  keys : SMap (BitVec 512)
  keydat : SMap DWord
  mregs : SMap (BitVec 512)
  fuses : Fuses
  svcVersion : Nat
  sideSeq : Nat
  denied : SMap Nat
  budget : Nat
  reserve : Nat
  energy : SMap DWord
  outbox : List Out
  deriving DecidableEq, Repr

/-- Why a step stops. Every constructor is a stop of the model, never of the part. -/
inductive Fault where
  /-- Raised by an instruction word when `cur` names no wave, context or evaluator lane that exists: no such step of
  the part. Safe: the part never issues a word without an issuer. -/
  | noIssuer
  deriving DecidableEq, Repr

/-- Why a step is refused. -/
inductive Refusal where
  /-- Raised by an arm of `exec` whose instruction has no meaning yet. Safe. -/
  | notModelled (mnemonic : String)
  deriving DecidableEq, Repr

/-! Units after module reset (R10, R519, R520). -/

/-- A core after reset: 16 physical regions with the stratus die, 8 without, and 4 physical tiles (R437). WAITTH is 4,096
(R46). -/
def Core.blank (stratus : Bool) : Core where
  active := none
  shadow := none
  swapping := false
  gen := 0
  phys := List.replicate (if stratus then 16 else 8) .free
  physTiles := List.replicate 4 .free
  claims := []
  lcache := []
  ccyc := 0
  waitth := 4096
  ready := List.replicate 8 []
  slot := List.replicate 8 none
  rays := []
  reservations := []
  mbRefused := []
  mbdrop := 0
  arrivals := []
  early := []
  stopped := false
  seq := 0
  idle := false

def Codebook.blank : Codebook := ⟨none, [], [], false, 0⟩

def Pass.blank : Pass where
  st := .free
  team := 0
  launch := 0
  part := 0
  asid := 0
  secure := false
  ext := []
  desc := []
  work := []
  item := 0
  halo := false
  halos := []
  px := []
  lanes := []
  pixels := 0
  rejected := 0
  cause := 0
  viserr := 0
  code := 0
  timeline := 0
  park := none

/-- A cluster after reset: 4 codebook slots (R326), 4 pass slots (R294). -/
def Cluster.blank : Cluster where
  codebooks := List.replicate 4 Codebook.blank
  passes := List.replicate 4 Pass.blank
  stretch := 0
  lag := 0
  phStopped := false
  routerStopped := false
  routerDropped := 0
  evals := []
  evalSlot := 3
  lentCore := 7
  issued := List.replicate 4 3
  served := List.replicate 4 3
  owed := List.replicate 4 0
  copySeq := 0
  phSeq := 0

def AddrGen.blank : AddrGen := ⟨0, [0, 0, 0, 0, 0], [0, 0, 0, 0, 0], [0, 0, 0, 0, 0], 0, 0, false, 0⟩

/-- A context after module reset (R303). -/
def Ctx.blank : Ctx where
  st := .stopped
  k := []
  kpoison := []
  kbusy := []
  reqBusy := []
  ags := List.replicate 4 AddrGen.blank
  kpc := 0
  kcause := 0
  karg := 0
  ktl := 0
  kout := 0
  ktag := 0
  team := 0
  launch := 0
  part := 0
  asid := 0
  cte := false
  secure := false
  bind := List.replicate 8 .empty
  copies := []
  issued := 0
  deferred := []
  storeQ := []
  owc := 0
  wait := none
  faultVa := 0
  faultAcc := 0
  stamp := 0
  noted := false
  parks := []
  copyFail := false
  redo := false
  outNow := false
  outAt := none
  killed := false
  seq := 0

/-- A Horizon gateway before its links are trained: no module in service. -/
def Gateway.blank : Gateway := ⟨List.replicate 5 false, List.replicate 5 0, false, 0, []⟩

/-- SCHCFG after reset (R392). -/
def schcfgReset : DWord := 0x40_0000#64

/-- A partition after its reset (R519, R392, R430). -/
def Part.blank (clusters : NSet) : Part where
  clusters := clusters
  modules := []
  secure := false
  schcfg := schcfgReset
  fbbase := 0
  fbsize := 0
  fbwr := 0
  fbrd := 0
  fbgen := 0
  sabase := 0
  svbase := 0
  haltst := 0
  sqbase := 0
  sqsize := 0
  sqwr := 0
  sqrd := 0
  svcreply := 0
  sqPend := []
  calls := []
  nextTicket := 1
  nodetab := 0
  nodes := []
  nextSerial := 1
  nextTag := 1
  pend := []
  halt := none
  allowance := 0
  account := 0
  clean := false
  images := []
  fbLate := []

/-- The state right after module reset (R10, R520 step 1): no team, eight partitions without clusters (R44, R430), every CSR at
its reset value, MREG zero. The stacks, gateways and stratus dies count as absent until bring-up finds them (R520 steps 2 to
4). Memory lists nothing. Budget and static reserve are the values of R514. The fuse contents, for which the spec
gives no values, are those log entry 2 names. -/
def State.reset : State where
  cur := .none
  agenda := []
  choice := 0
  fresh := 0
  now := 0
  moduleNo := 0
  boot := .reset
  mem := []
  memPsn := []
  teams := []
  cores := (List.range 400).map fun c => (c, Core.blank false)
  clusters := (List.range 50).map fun k => (k, Cluster.blank)
  ctxs := (List.range 800).map fun x => (x, Ctx.blank)
  launches := []
  nextLaunch := 1
  parts := (List.range 8).map fun p => (p, Part.blank [])
  asids := []
  reqs := []
  places := 0
  served := 0
  dup := []
  mails := []
  ctl := []
  halos := []
  far := []
  aged := []
  caltusQ := []
  caltusAt := none
  mailbox := List.replicate 256 0#8
  bootWhy := []
  covered := []
  coveredPsn := []
  jnet := []
  held := []
  heldRed := []
  gateways := List.replicate 5 Gateway.blank
  ports := []
  portRetries := []
  fabIn := []
  fabSent := []
  fabRecv := []
  fabNext := []
  hbm := List.replicate 10 ⟨false, 0, 0⟩
  regions := []
  qps := []
  windows := []
  csrs := []
  keys := []
  keydat := []
  mregs := []
  fuses := { vendor := 0, owner := none, version := 0, devid := 0, identity := ⟨0, 0⟩, secretExp := 0 }
  svcVersion := 0
  sideSeq := 0
  denied := []
  budget := 2400
  reserve := 400
  energy := []
  outbox := []

end Sys2Proof.Machine
end

