-- ==== Sys2Proof/Machine/Bits.lean ====
section
/-! DEFINITION. Sparse tables, sets of numbers, byte strings and bit fields: what the operations of the machine are
written over. -/

namespace Sys2Proof.Machine

variable {α β : Type}

/-- The entry at a key. -/
def smGet? (m : SMap α) (k : Nat) : Option α :=
  match m with
  | [] => none
  | (j, x) :: r => if k == j then some x else smGet? r k

/-- The entry at a key, or the table's default. -/
def smGetD (m : SMap α) (k : Nat) (d : α) : α := (smGet? m k).getD d

/-- Sets an entry, keeping the keys rising. -/
def smSet (m : SMap α) (k : Nat) (x : α) : SMap α :=
  match m with
  | [] => [(k, x)]
  | (j, y) :: r => if k == j then (k, x) :: r else if k < j then (k, x) :: (j, y) :: r else (j, y) :: smSet r k x

/-- Removes an entry. -/
def smDel (m : SMap α) (k : Nat) : SMap α := m.filter fun p => p.1 != k

/-- Sets an entry of a table whose absent keys read as `d`: writing `d` removes the entry. -/
def smPut [BEq α] (d : α) (m : SMap α) (k : Nat) (x : α) : SMap α := if x == d then smDel m k else smSet m k x

/-- Changes the entry at a key, when there is one. -/
def smMod (m : SMap α) (k : Nat) (f : α → α) : SMap α :=
  m.map fun p => if p.1 == k then (p.1, f p.2) else p

/-- Membership, insertion and removal of a set of numbers. -/
def nsHas (m : NSet) (k : Nat) : Bool := m.contains k

def nsAdd (m : NSet) (k : Nat) : NSet :=
  match m with
  | [] => [k]
  | j :: r => if k == j then j :: r else if k < j then k :: j :: r else j :: nsAdd r k

def nsDel (m : NSet) (k : Nat) : NSet := m.filter (· != k)

/-- Sets or clears membership. -/
def nsPut (m : NSet) (k : Nat) (b : Bool) : NSet := if b then nsAdd m k else nsDel m k

/-- Bits hi down to lo of a number. -/
def bits (x hi lo : Nat) : Nat := x / 2 ^ lo % 2 ^ (hi + 1 - lo)

/-- Bit i of a number. -/
def bit (x i : Nat) : Bool := x / 2 ^ i % 2 == 1

/-- A number modulo 2^n read as two's complement. -/
def toSigned (n : Nat) (x : Nat) : Int :=
  let y := x % 2 ^ n
  if y < 2 ^ (n - 1) then (y : Int) else (y : Int) - 2 ^ n

/-- An integer modulo 2^n. -/
def ofSigned (n : Nat) (x : Int) : Nat := (x % (2 ^ n : Int)).toNat

/-- Sign extension of the low n bits to 64. -/
def sext64 (n : Nat) (x : Nat) : DWord := BitVec.ofInt 64 (toSigned n x)

/-- Sat(e, lo, hi) (R12). -/
def satI (e lo hi : Int) : Int := if e < lo then lo else if hi < e then hi else e

/-- n little-endian bytes of a number (R4). -/
def toBytes (n : Nat) (x : Nat) : List Byte := (List.range n).map fun i => BitVec.ofNat 8 (x / 2 ^ (8 * i))

/-- The number of a little-endian byte string (R4). -/
def ofBytes (bs : List Byte) : Nat := bs.foldr (fun b a => b.toNat + 256 * a) 0

/-- The n bytes at an offset of a byte string; bytes past its end are 0. -/
def sliceB (bs : List Byte) (o n : Nat) : List Byte := (List.range n).map fun i => bs.getD (o + i) 0

/-- The little-endian number of n bytes at an offset. -/
def fieldB (bs : List Byte) (o n : Nat) : Nat := ofBytes (sliceB bs o n)

/-- Rounds up to a multiple. -/
def roundUp (x k : Nat) : Nat := (x + k - 1) / k * k

/-- The lanes of a mask in ascending order. -/
def lanesOf (m : LaneMask) : List Nat := (List.range 32).filter fun i => m.getLsbD i

/-- The mask of the lanes a test selects. -/
def maskOf (f : Nat → Bool) : LaneMask :=
  BitVec.ofNat 32 ((List.range 32).foldl (fun a i => if f i then a + 2 ^ i else a) 0)

/-- The lowest lane of a mask. -/
def lowLane (m : LaneMask) : Nat := ((lanesOf m).head?).getD 0

/-- The slices of an 8-bit gang mask in ascending order. -/
def slicesOf (g : BitVec 8) : List Nat := (List.range 8).filter fun i => g.getLsbD i

/-- The lowest slice of a gang. -/
def lowSlice (g : BitVec 8) : Nat := ((slicesOf g).head?).getD 0

/-- Replaces element i of a list. -/
def setAt (l : List α) (i : Nat) (x : α) : List α :=
  match l, i with
  | [], _ => []
  | _ :: r, 0 => x :: r
  | y :: r, i + 1 => y :: setAt r i x

/-- Changes element i of a list. -/
def modAt (l : List α) (i : Nat) (f : α → α) : List α :=
  match l, i with
  | [], _ => []
  | y :: r, 0 => f y :: r
  | y :: r, i + 1 => y :: modAt r i f

/-- The integer square root, bit by bit from bit k down. -/
def isqrtFrom (k : Nat) (n r : Nat) : Nat :=
  match k with
  | 0 => if (r + 1) * (r + 1) ≤ n then r + 1 else r
  | k + 1 => let t := r + 2 ^ (k + 1); isqrtFrom k n (if t * t ≤ n then t else r)

/-- floor(√n). -/
def isqrt (n : Nat) : Nat := isqrtFrom (n.log2 / 2 + 1) n 0

end Sys2Proof.Machine
end

