-- ==== Sys2Proof/Machine/Flags.lean ====
section
/-! DEFINITION. Number formats, exact values, the one rounding of a result, and the five exceptions (R57–R72, R79,
R80). An exact value is a sign and a fraction; `st` marks an irrational value that lies just above the fraction, with no
breakpoint of any format between them. -/

namespace Sys2Proof.Machine

/-- The float formats (R58, R71–R73, R79). A code of fp4 is read through `fp4Value`, which knows the extra value. -/
inductive FT where
  | f32 | f16 | bf16 | e4m3 | e5m2 | fp4 | xf48
  deriving DecidableEq, Repr

/-- Exponent bits (R58, R71, R72, R79). -/
def FT.eb : FT → Nat
  | .f32 => 8 | .f16 => 5 | .bf16 => 8 | .e4m3 => 4 | .e5m2 => 5 | .fp4 => 2 | .xf48 => 10

/-- Fraction bits (R58, R71, R72, R79). -/
def FT.fb : FT → Nat
  | .f32 => 23 | .f16 => 10 | .bf16 => 7 | .e4m3 => 3 | .e5m2 => 2 | .fp4 => 1 | .xf48 => 37

/-- Exponent bias (R58, R71, R72, R79). -/
def FT.bias (f : FT) : Nat := 2 ^ (f.eb - 1) - 1

/-- The sign bit's place. -/
def FT.sbit (f : FT) : Nat := f.eb + f.fb

/-- Magnitude code of the largest finite value. -/
def FT.maxFin : FT → Nat
  | .e4m3 => 0x7E
  | .fp4 => 7
  | f => (2 ^ f.eb - 1) * 2 ^ f.fb - 1

/-- Magnitude code of infinity; e4m3 and fp4 have none, and the code just above their largest value stands in its place. -/
def FT.infCode (f : FT) : Nat := f.maxFin + 1

/-- The canonical NaN (R58, R71, R72, R79); fp4 writes 0x0 (R85). -/
def FT.nan : FT → Nat
  | .f32 => 0x7FC00000 | .f16 => 0x7E00 | .bf16 => 0x7FC0 | .e4m3 => 0x7F | .e5m2 => 0x7E | .fp4 => 0 | .xf48 => 0x7FF000000000

/-- The code of 1.0. -/
def FT.one (f : FT) : Nat := f.bias * 2 ^ f.fb

/-- An exact extended value. -/
inductive XV where
  | nan
  | inf (neg : Bool)
  | num (neg : Bool) (n d : Nat) (st : Bool)
  deriving DecidableEq, Repr

/-- Zero of a sign, and an exact fraction. -/
def XV.zero (neg : Bool) : XV := .num neg 0 1 false
def XV.frac (neg : Bool) (n d : Nat) : XV := .num neg n d false

def XV.isZero : XV → Bool
  | .num _ n _ st => n == 0 && !st
  | _ => false

def XV.isNan : XV → Bool
  | .nan => true
  | _ => false

def XV.isInf : XV → Bool
  | .inf _ => true
  | _ => false

def XV.neg : XV → Bool
  | .nan => false
  | .inf s => s
  | .num s _ _ _ => s

/-- The value with another sign. -/
def XV.withNeg (v : XV) (s : Bool) : XV :=
  match v with
  | .nan => .nan
  | .inf _ => .inf s
  | .num _ n d st => .num s n d st

/-- m × 2^e as an exact value, the exponent offset by `off` (e = x − off). -/
def XV.scaled (neg : Bool) (m x off : Nat) : XV :=
  if off ≤ x then .frac neg (m * 2 ^ (x - off)) 1 else .frac neg m (2 ^ (off - x))

/-- Exceptions as bits in the order of FPCTL (R67): 0 invalid, 1 divide by zero, 2 overflow, 3 underflow, 4 inexact. -/
abbrev Exc := BitVec 5
def Exc.none : Exc := 0#5
def Exc.inv : Exc := 1#5
def Exc.dbz : Exc := 2#5
def Exc.ovf : Exc := 4#5
def Exc.unf : Exc := 8#5
def Exc.inx : Exc := 16#5

/-- Whether a code is a NaN of its format. -/
def FT.isNan (f : FT) (x : Nat) : Bool :=
  let m := x % 2 ^ f.sbit
  match f with
  | .e4m3 => m == 0x7F
  | f => m > f.infCode

/-- Signalling NaNs (R58); e4m3's NaNs are quiet. -/
def FT.isSnan (f : FT) (x : Nat) : Bool := f != .e4m3 && f.isNan x && !bit x (f.fb - 1)

/-- A subnormal code (R58): XF48 has none (R79). -/
def FT.isSub (f : FT) (x : Nat) : Bool :=
  f != .xf48 && x / 2 ^ f.fb % 2 ^ f.eb == 0 && x % 2 ^ f.fb != 0

/-- The value a code stands for. -/
def FT.value (f : FT) (x : Nat) : XV :=
  let s := bit x f.sbit
  let e := x / 2 ^ f.fb % 2 ^ f.eb
  let m := x % 2 ^ f.fb
  if f.isNan x then .nan
  else if f != .e4m3 && f != .fp4 && e == 2 ^ f.eb - 1 then .inf s
  else if e == 0 then if f == .xf48 then .zero s else .scaled s m 1 (f.bias + f.fb)
  else .scaled s (2 ^ f.fb + m) e (f.bias + f.fb)

/-- Formats FPCTL.FTZ concerns (R60). -/
def FT.ftz (f : FT) : Bool := f == .f32 || f == .f16 || f == .bf16

/-- A source as it is read (R60). -/
def FT.read (f : FT) (ftz : Bool) (x : Nat) : XV :=
  if ftz && f.ftz && f.isSub x then .zero (bit x f.sbit) else f.value x

/-- Invalid when a source is a signalling NaN (R58). -/
def FT.snanExc (f : FT) (x : Nat) : Exc := if f.isSnan x then Exc.inv else Exc.none

/-- Rounding modes (R62). -/
abbrev RM := BitVec 2
def RM.ne : RM := 0#2
def RM.tz : RM := 1#2
def RM.up : RM := 2#2
def RM.dn : RM := 3#2

/-- Whether the magnitude rounds up: `odd` the kept last bit, `r` and `d` the remainder and its unit, `st` sticky. -/
def roundsUp (rm : RM) (neg odd : Bool) (r d : Nat) (st : Bool) : Bool :=
  if rm == RM.ne then 2 * r > d || (2 * r == d && (st || odd))
  else if rm == RM.tz then false
  else if rm == RM.up then !neg && (r != 0 || st)
  else neg && (r != 0 || st)

/-- floor(log2(n / d)) + 2^20, for n and d not 0. -/
def floorLog (n d : Nat) : Nat :=
  let k := 2 ^ 20 + n.log2 - d.log2
  let ge (k : Nat) : Bool := if 2 ^ 20 ≤ k then d * 2 ^ (k - 2 ^ 20) ≤ n else d ≤ n * 2 ^ (2 ^ 20 - k)
  if ge k then k else k - 1

/-- n / d in units of 2^(q − 2^20): quotient, remainder and divisor. -/
def quantum (n d q : Nat) : Nat × Nat × Nat :=
  let (a, b) := if 2 ^ 20 ≤ q then (n, d * 2 ^ (q - 2 ^ 20)) else (n * 2 ^ (2 ^ 20 - q), d)
  (a / b, a % b, b)

/-- Rounds a non-zero magnitude to a multiple of 2^(q − 2^20). -/
def roundAt (rm : RM) (neg : Bool) (n d : Nat) (st : Bool) (q : Nat) : Nat × Bool :=
  let (m, r, b) := quantum n d q
  (if roundsUp rm neg (m % 2 == 1) r b st then m + 1 else m, r == 0 && !st)

/-- What overflow writes (R66): infinity or the largest finite value, as the mode gives. -/
def FT.ovfCode (f : FT) (rm : RM) (neg : Bool) : Nat :=
  if rm == RM.tz || (rm == RM.up && neg) || (rm == RM.dn && !neg) then f.maxFin else f.infCode

/-- The sign bit of a format as a number. -/
def FT.sgn (f : FT) (neg : Bool) : Nat := if neg then 2 ^ f.sbit else 0

/-- The one rounding of R62, R66, R69: code and exceptions. `fl` is FPCTL.FTZ (R60). XF48 flushes below its normals
without a flag of its own (R80). -/
def FT.round (f : FT) (rm : RM) (fl : Bool) (v : XV) : Nat × Exc :=
  match v with
  | .nan => (f.nan, Exc.none)
  | .inf s => (f.sgn s + f.infCode, Exc.none)
  | .num s n d st =>
    if n == 0 then (f.sgn s, Exc.none)
    else
      let e := floorLog n d
      let emin := 2 ^ 20 + 1 - f.bias
      let free := roundAt rm s n d st (e - f.fb)
      let tiny := e + 1 < emin || (e < emin && free.1 < 2 ^ (f.fb + 1))
      let q := max (e - f.fb) (emin - f.fb)
      let (m, exact) := roundAt rm s n d st q
      let code := (q + f.fb - emin) * 2 ^ f.fb + m
      if f == .xf48 then
        if tiny then (f.sgn s, Exc.none)
        else (f.sgn s + min code f.infCode, Exc.none)
      else if tiny && fl then (f.sgn s, Exc.unf ||| Exc.inx)
      else if f.maxFin < code then (f.sgn s + f.ovfCode rm s, Exc.ovf ||| Exc.inx)
      else (f.sgn s + code, if exact then Exc.none else if tiny then Exc.unf ||| Exc.inx else Exc.inx)

/-- Scale codes of bits 6:4 (R69): 1, 2, 4, 8, 1/16, 1/8, 1/4, 1/2. -/
def scaleBy (sc : BitVec 3) (v : XV) : XV :=
  match v with
  | .num s n d st =>
    if sc.toNat < 4 then .num s (n * 2 ^ sc.toNat) d st else .num s n (d * 2 ^ (8 - sc.toNat)) st
  | v => v

/-- The clamp of R69: NaN and negative values become +0, values above 1 become 1. -/
def clampX (cl : Bool) (v : XV) : XV :=
  if !cl then v
  else match v with
    | .nan => .zero false
    | .inf s => if s then .zero false else .frac false 1 1
    | .num s n d st => if s then .zero false else if d ≤ n then .frac false 1 1 else .num s n d st

/-- The rounding environment of a word: FPCTL and the destination fields (R62, R69). -/
structure Env where
  rm : RM
  ftz : Bool
  sc : BitVec 3
  cl : Bool
  deriving DecidableEq, Repr

/-- Round-to-nearest-even, subnormals honoured, no scale and no clamp (R63). -/
def Env.rne : Env := ⟨RM.ne, false, 0#3, false⟩

/-- R69: scale, clamp, one rounding. -/
def Env.result (e : Env) (f : FT) (v : XV) (x : Exc) : Nat × Exc :=
  let (c, y) := f.round e.rm e.ftz (clampX e.cl (scaleBy e.sc v))
  (c, x ||| y)

/-- R62: the override of CVT, PACK and FRINT. -/
def roundOverride (rm : RM) (h : BitVec 2) : RM :=
  if h == 0#2 then rm else if h == 1#2 then RM.ne else if h == 2#2 then RM.tz else RM.dn

/-! Exact operations. An exact zero sum of opposite signs is +0, −0 toward −∞ (IEEE 754, R153). -/

/-- x + y of two exact fractions, as a signed fraction over a common denominator. -/
def addNum (rm : RM) (s1 : Bool) (n1 d1 : Nat) (s2 : Bool) (n2 d2 : Nat) : XV :=
  let a := n1 * d2
  let b := n2 * d1
  let d := d1 * d2
  if s1 == s2 then .frac s1 (a + b) d
  else if a == b then .zero (rm == RM.dn)
  else if b < a then .frac s1 (a - b) d
  else .frac s2 (b - a) d

/-- Exact(x + y), and invalid for ∞ − ∞. -/
def xadd (rm : RM) (x y : XV) : XV × Exc :=
  match x, y with
  | .nan, _ => (.nan, Exc.none)
  | _, .nan => (.nan, Exc.none)
  | .inf s, .inf t => if s == t then (.inf s, Exc.none) else (.nan, Exc.inv)
  | .inf s, .num .. => (.inf s, Exc.none)
  | .num .., .inf t => (.inf t, Exc.none)
  | .num s n d _, .num t m e _ => (addNum rm s n d t m e, Exc.none)

/-- Exact(−x). -/
def xneg (x : XV) : XV := x.withNeg (!x.neg)

/-- Exact(x × y), and invalid for ∞ × 0. -/
def xmul (x y : XV) : XV × Exc :=
  match x, y with
  | .nan, _ => (.nan, Exc.none)
  | _, .nan => (.nan, Exc.none)
  | .inf s, y => if y.isZero then (.nan, Exc.inv) else (.inf (s != y.neg), Exc.none)
  | x, .inf t => if x.isZero then (.nan, Exc.inv) else (.inf (x.neg != t), Exc.none)
  | .num s n d _, .num t m e _ => (.frac (s != t) (n * m) (d * e), Exc.none)

/-- Exact(x / y): ±∞ with divide by zero over ±0, NaN with invalid for 0/0 and ∞/∞ (R153). -/
def xdiv (x y : XV) : XV × Exc :=
  match x, y with
  | .nan, _ => (.nan, Exc.none)
  | _, .nan => (.nan, Exc.none)
  | .inf _, .inf _ => (.nan, Exc.inv)
  | .inf s, .num t _ _ _ => (.inf (s != t), Exc.none)
  | .num s _ _ _, .inf t => (.zero (s != t), Exc.none)
  | .num s n d _, .num t m e _ =>
    if m == 0 then if n == 0 then (.nan, Exc.inv) else (.inf (s != t), Exc.dbz)
    else (.frac (s != t) (n * e) (d * m), Exc.none)

/-- x < y for values that are not NaN; −0 equals +0. -/
def xlt (x y : XV) : Bool :=
  match x, y with
  | .inf s, .inf t => s && !t
  | .inf s, .num .. => s
  | .num .., .inf t => !t
  | .num s n d _, .num t m e _ =>
    if s && !t then n != 0 || m != 0
    else if !s && t then false
    else if s then m * d < n * e
    else n * e < m * d
  | _, _ => false

/-- Numeric equality; −0 equals +0. -/
def xeq (x y : XV) : Bool := !x.isNan && !y.isNan && !xlt x y && !xlt y x

/-- The integer nearest a fraction in a mode, as a magnitude, and whether it is exact. -/
def roundInt (rm : RM) (neg : Bool) (n d : Nat) : Nat × Bool :=
  let m := n / d
  let r := n % d
  (if roundsUp rm neg (m % 2 == 1) r d false then m + 1 else m, r == 0)

/-- The sum rule of R83 for values of R84: NaN for a NaN or infinities of both signs, an exact zero is +0 unless every
addend is −0. -/
def xsum (xs : List XV) : XV :=
  if xs.any XV.isNan || (xs.contains (.inf true) && xs.contains (.inf false)) then .nan
  else if xs.contains (.inf true) then .inf true
  else if xs.contains (.inf false) then .inf false
  else
    let t := xs.foldl (fun a x => (xadd RM.ne a x).1) (.zero (xs.all fun x => x.isZero && x.neg))
    if t.isZero then .zero (xs.all fun x => x.isZero && x.neg) else t

end Sys2Proof.Machine
end

