-- ==== Sys2Proof/Machine/Transcend.lean ====
section
/-! DEFINITION. The exact values of the functions of R64 and R65. A root or a transcendental value is given as a
fraction just below it, with `st` set: the fixed point holds 400 bits, far more than separates such a value from every
breakpoint of f32 and f16 (log entry 5). The cases in which the value is a fraction are computed exactly. -/

namespace Sys2Proof.Machine

/-- Bits of the fixed point. -/
def fixBits : Nat := 400

/-- 1 in the fixed point. -/
def fixOne : Nat := 2 ^ fixBits

/-- A margin above the accumulated truncation of any series below. -/
def fixErr : Nat := 2 ^ 20

/-- floor(ln 2 × 2^400). -/
def fixLn2 : Nat := 0xb17217f7d1cf79abc9e3b39803f2f6af40f343267298b62d8a0d175b8baafa2be7b876206debac98559552fb4afa1b10ed2e

/-- floor(π × 2^400). -/
def fixPi : Nat := 0x3243f6a8885a308d313198a2e03707344a4093822299f31d0082efa98ec4e6c89452821e638d01377be5466cf34e90c6cc0ac

/-- Σ y^k / k! from the term t of index k, `n` terms. -/
def expSeries (n k t y : Nat) : Nat :=
  match n with
  | 0 => 0
  | n + 1 => t + expSeries n (k + 1) (t * y / fixOne / (k + 1)) y

/-- Σ z^(2k+1) / (2k+1), the series of atanh, `n` terms. -/
def atanhSeries (n k t zz : Nat) : Nat :=
  match n with
  | 0 => 0
  | n + 1 => t / (2 * k + 1) + atanhSeries n (k + 1) (t * zz / fixOne) zz

/-- The alternating series of sine (k odd) and cosine (k even) from the term t of index k: the sum of the terms with a
plus sign and of those with a minus sign. -/
def trigSeries (n k t yy : Nat) : Nat × Nat :=
  match n with
  | 0 => (0, 0)
  | n + 1 =>
    let (p, m) := trigSeries n (k + 2) (t * yy / fixOne / ((k + 1) * (k + 2))) yy
    (t + m, p)

/-- A value just above the fixed-point number x. -/
def fixBelow (neg : Bool) (x : Nat) : XV := .num neg (x - fixErr) fixOne true

/-- √(n / d) with sign +. -/
def xsqrtNum (n d : Nat) : XV :=
  let a := n * 2 ^ 800 / d
  let r := isqrt a
  .num false r fixOne (r * r * d != n * 2 ^ 800)

/-- FSQRT (R65). -/
def xsqrt (x : XV) : XV × Exc :=
  match x with
  | .nan => (.nan, Exc.none)
  | .inf s => if s then (.nan, Exc.inv) else (.inf false, Exc.none)
  | .num s n d _ =>
    if n == 0 then (.zero s, Exc.none) else if s then (.nan, Exc.inv) else (xsqrtNum n d, Exc.none)

/-- FRSQ (R65). -/
def xrsq (x : XV) : XV × Exc :=
  match x with
  | .nan => (.nan, Exc.none)
  | .inf s => if s then (.nan, Exc.inv) else (.zero false, Exc.none)
  | .num s n d _ =>
    if n == 0 then (.inf s, Exc.dbz) else if s then (.nan, Exc.inv) else (xsqrtNum d n, Exc.none)

/-- FRCP (R65). -/
def xrcp (x : XV) : XV × Exc := xdiv (.frac false 1 1) x

/-- 2^x for a finite non-zero x. The exponent is bounded to ±2^11, beyond which every format has overflowed or is
below half its smallest subnormal. -/
def xexp2Num (s : Bool) (n d : Nat) : XV :=
  let i := n / d
  let r := n % d
  let ib := min i 2048
  if s then
    if r == 0 then .frac false 1 (2 ^ ib)
    else
      let y := (d - r) * fixLn2 / d
      .num false (expSeries 110 0 fixOne y - fixErr) (fixOne * 2 ^ (ib + 1)) true
  else if r == 0 then .frac false (2 ^ ib) 1
  else
    let y := r * fixLn2 / d
    .num false ((expSeries 110 0 fixOne y - fixErr) * 2 ^ ib) fixOne true

/-- FEXP2 (R65). -/
def xexp2 (x : XV) : XV × Exc :=
  match x with
  | .nan => (.nan, Exc.none)
  | .inf s => (if s then .zero false else .inf false, Exc.none)
  | .num s n d _ => if n == 0 then (.frac false 1 1, Exc.none) else (xexp2Num s n d, Exc.none)

/-- log2 of a positive fraction: exact for powers of two. -/
def xlog2Num (n d : Nat) : XV :=
  let e := floorLog n d
  let (a, b) := if 2 ^ 20 ≤ e then (n, d * 2 ^ (e - 2 ^ 20)) else (n * 2 ^ (2 ^ 20 - e), d)
  if a == b then if 2 ^ 20 ≤ e then .frac false (e - 2 ^ 20) 1 else .frac true (2 ^ 20 - e) 1
  else
    let z := (a - b) * fixOne / (a + b)
    let l := 2 * atanhSeries 140 0 z (z * z / fixOne) * fixOne / fixLn2
    if 2 ^ 20 ≤ e then fixBelow false ((e - 2 ^ 20) * fixOne + l)
    else fixBelow true ((2 ^ 20 - e) * fixOne - l)

/-- FLOG2 (R65). -/
def xlog2 (x : XV) : XV × Exc :=
  match x with
  | .nan => (.nan, Exc.none)
  | .inf s => if s then (.nan, Exc.inv) else (.inf false, Exc.none)
  | .num s n d _ =>
    if n == 0 then (.inf true, Exc.dbz) else if s then (.nan, Exc.inv) else (xlog2Num n d, Exc.none)

/-- sin(π n / d) for 0 < n / d < 1/2, or cos, as a value just below. -/
def sinBelow (n d : Nat) : XV :=
  let y := n * fixPi / d
  let (p, m) := trigSeries 70 1 y (y * y / fixOne)
  fixBelow false (p - m)

def cosBelow (n d : Nat) : XV :=
  let y := n * fixPi / d
  let (p, m) := trigSeries 70 0 fixOne (y * y / fixOne)
  fixBelow false (p - m)

/-- sin(π t) for t = n / d in [0, 2), with its sign; exact at multiples of 1/2. -/
def sinTurn (n d : Nat) : XV :=
  let s := d ≤ n
  let m := if s then n - d else n
  if m == 0 then .zero false
  else if 2 * m == d then .frac s 1 1
  else
    let k := if d < 2 * m then d - m else m
    (if 4 * k < d then sinBelow k d else cosBelow (d - 2 * k) (2 * d)).withNeg s

/-- FSINPI (R65): an integer n gives a zero of n's sign. -/
def xsinpi (x : XV) : XV × Exc :=
  match x with
  | .nan => (.nan, Exc.none)
  | .inf _ => (.nan, Exc.inv)
  | .num s n d _ =>
    let v := sinTurn (n % (2 * d)) d
    if v.isZero then (.zero s, Exc.none) else (v.withNeg (v.neg != s), Exc.none)

/-- FCOSPI (R65): cos(πa) = sin(π(|a| + 1/2)); its zeros are +0. -/
def xcospi (x : XV) : XV × Exc :=
  match x with
  | .nan => (.nan, Exc.none)
  | .inf _ => (.nan, Exc.inv)
  | .num _ n d _ => (sinTurn ((2 * n + d) % (4 * d)) (2 * d), Exc.none)

end Sys2Proof.Machine
end

