-- ==== Sys2Proof/Machine/FloatLane.lean ====
section
/-! DEFINITION. The float operations of one lane on stored codes (R59–R61, R64, R73, R84–R87, R91, R153–R165). Each
answers the code to write and the exceptions raised. The wave, uniform and callable datapaths share them. -/

namespace Sys2Proof.Machine

/-- The scalar type of VAR[2:0] (R94). -/
def ftOf (t : Nat) : FT :=
  match t with
  | 0 => .f32 | 1 => .f16 | 2 => .bf16 | 3 => .e4m3 | 4 => .e5m2 | _ => .fp4

/-- Bits a code of the format occupies. -/
def FT.width (f : FT) : Nat := f.sbit + 1

/-- A stored code in the low bits of a register (R133). -/
def FT.code (f : FT) (x : Nat) : Nat := x % 2 ^ f.width

/-- A float modifier acts on the sign bit alone (R91). -/
def fmodify (f : FT) (m : BitVec 2) (x : Nat) : Nat :=
  let c := f.code x
  let g := c % 2 ^ f.sbit
  if m == 0#2 then c
  else if m == 1#2 then (if bit c f.sbit then g else g + 2 ^ f.sbit)
  else if m == 2#2 then g
  else g + 2 ^ f.sbit

/-- The three modifiers of a word (R89). -/
structure Mods where
  a : BitVec 2
  b : BitVec 2
  c : BitVec 2
  deriving DecidableEq, Repr

def Mods.none : Mods := ⟨0#2, 0#2, 0#2⟩

/-- A two-operand operation: sources read by R60, a signalling NaN raises invalid, one rounding (R69). -/
def float2 (op : XV → XV → XV × Exc) (f : FT) (e : Env) (m : Mods) (a b : Nat) : Nat × Exc :=
  let x := fmodify f m.a a
  let y := fmodify f m.b b
  let (v, k) := op (f.read e.ftz x) (f.read e.ftz y)
  e.result f v (k ||| f.snanExc x ||| f.snanExc y)

/-- A one-operand operation. -/
def float1 (op : XV → XV × Exc) (f : FT) (e : Env) (m : Mods) (a : Nat) : Nat × Exc :=
  let x := fmodify f m.a a
  let (v, k) := op (f.read e.ftz x)
  e.result f v (k ||| f.snanExc x)

/-- FADD, FSUB, FMUL, FDIV (R153). -/
def fAdd (f : FT) (e : Env) (m : Mods) (a b : Nat) : Nat × Exc := float2 (xadd e.rm) f e m a b
def fSub (f : FT) (e : Env) (m : Mods) (a b : Nat) : Nat × Exc := float2 (fun x y => xadd e.rm x (xneg y)) f e m a b
def fMul (f : FT) (e : Env) (m : Mods) (a b : Nat) : Nat × Exc := float2 xmul f e m a b
def fDiv (f : FT) (e : Env) (m : Mods) (a b : Nat) : Nat × Exc := float2 xdiv f e m a b

/-- FMA: a × b + c exactly, rounded once (R64). -/
def fFma (f : FT) (e : Env) (m : Mods) (a b c : Nat) : Nat × Exc :=
  let x := fmodify f m.a a
  let y := fmodify f m.b b
  let z := fmodify f m.c c
  let (p, k) := xmul (f.read e.ftz x) (f.read e.ftz y)
  let (v, k') := xadd e.rm p (f.read e.ftz z)
  e.result f v (k ||| k' ||| f.snanExc x ||| f.snanExc y ||| f.snanExc z)

/-- A source code after the input flush of R60. -/
def flushCode (f : FT) (ftz : Bool) (x : Nat) : Nat := if ftz && f.ftz && f.isSub x then f.sgn (bit x f.sbit) else x

/-- Whether x orders below y, −0 below +0 (R61). -/
def belowMin (f : FT) (x y : Nat) : Bool :=
  let u := f.value x
  let v := f.value y
  if u.isZero && v.isZero then bit x f.sbit && !bit y f.sbit else xlt u v

/-- FMIN and FMAX (R61). -/
def fMinMax (big : Bool) (f : FT) (ftz : Bool) (a b : Nat) : Nat :=
  let x := flushCode f ftz a
  let y := flushCode f ftz b
  if f.isNan x then (if f.isNan y then f.nan else y)
  else if f.isNan y then x
  else if belowMin f x y != big then x else y

def fMin (f : FT) (e : Env) (m : Mods) (a b : Nat) : Nat × Exc :=
  let x := fmodify f m.a a
  let y := fmodify f m.b b
  (fMinMax false f e.ftz x y, f.snanExc x ||| f.snanExc y)

def fMax (f : FT) (e : Env) (m : Mods) (a b : Nat) : Nat × Exc :=
  let x := fmodify f m.a a
  let y := fmodify f m.b b
  (fMinMax true f e.ftz x y, f.snanExc x ||| f.snanExc y)

/-- FMED3 (R154). -/
def fMed3 (f : FT) (e : Env) (m : Mods) (a b c : Nat) : Nat × Exc :=
  let x := fmodify f m.a a
  let y := fmodify f m.b b
  let z := fmodify f m.c c
  let lo := fMinMax false f e.ftz x y
  let hi := fMinMax false f e.ftz (fMinMax true f e.ftz x y) z
  (fMinMax true f e.ftz lo hi, f.snanExc x ||| f.snanExc y ||| f.snanExc z)

/-- FCMP (R97, R155): the condition and its exceptions. -/
def fCmp (f : FT) (ftz : Bool) (m : Mods) (cond : BitVec 3) (a b : Nat) : Bool × Exc :=
  let x := fmodify f m.a a
  let y := fmodify f m.b b
  let u := f.read ftz x
  let v := f.read ftz y
  let uno := u.isNan || v.isNan
  let lt := !uno && xlt u v
  let gt := !uno && xlt v u
  let eq := !uno && !lt && !gt
  let r := match cond.toNat with
    | 0 => eq
    | 1 => !eq
    | 2 => lt
    | 3 => lt || eq
    | 4 => gt
    | 5 => gt || eq
    | 6 => !uno
    | _ => uno
  let ordered := 2 ≤ cond.toNat && cond.toNat ≤ 5
  (r, if (ordered && uno) || f.isSnan x || f.isSnan y then Exc.inv else Exc.none)

/-- FCLASS (R156). -/
def fClass (f : FT) (a : Nat) : Nat :=
  let x := f.code a
  let s := bit x f.sbit
  if f.isNan x then (if f.isSnan x then 256 else 512)
  else if (f.value x).isInf then (if s then 1 else 128)
  else if (f.value x).isZero then (if s then 8 else 16)
  else if f.isSub x then (if s then 4 else 32)
  else if s then 2 else 64

/-- FFLOOR, FCEIL, FTRUNC and FRINT (R157): rounding to an integral value in a mode; `rint` raises inexact. -/
def fIntegral (f : FT) (ftz : Bool) (rm : RM) (rint : Bool) (ma : BitVec 2) (a : Nat) : Nat × Exc :=
  let x := fmodify f ma a
  match f.read ftz x with
  | .nan => (f.nan, f.snanExc x)
  | .inf s => (f.sgn s + f.infCode, Exc.none)
  | .num s n d _ =>
    let (i, exact) := roundInt rm s n d
    ((f.round RM.ne false (.frac s i 1)).1, if rint && !exact then Exc.inx else Exc.none)

/-- FFRAC (R158). -/
def fFrac (f : FT) (e : Env) (ma : BitVec 2) (a : Nat) : Nat × Exc :=
  let x := fmodify f ma a
  match f.read e.ftz x with
  | .nan => (f.nan, f.snanExc x)
  | .inf _ => (f.nan, Exc.inv)
  | .num s n d _ =>
    let r := n % d
    let (c, k) := f.round e.rm e.ftz (.frac false (if r == 0 then 0 else if s then d - r else r) d)
    if c == f.one then (f.one - 1, Exc.inx) else (c, k)

/-- FLDEXP (R159): exponents past ±2^12 round as ±2^12 does, in every format. -/
def fLdexp (f : FT) (e : Env) (ma : BitVec 2) (a : Nat) (b : Int) : Nat × Exc :=
  let x := fmodify f ma a
  let k := satI b (-4096) 4096
  let v := match f.read e.ftz x with
    | .num s n d st => if k < 0 then .num s n (d * 2 ^ (-k).toNat) st else .num s (n * 2 ^ k.toNat) d st
    | v => v
  e.result f v (f.snanExc x)

/-- An fp4 code with its extra value X (R73). -/
def fp4Value (x : Nat) (q : Nat) : XV := if q % 16 == 8 then FT.f16.value (FT.f16.code x) else FT.fp4.value (q % 16)

/-- Whether an fp4 code reads as a signalling NaN (R58). -/
def fp4Snan (x : Nat) (q : Nat) : Bool := q % 16 == 8 && FT.f16.isSnan (FT.f16.code x)

/-- The sum of R84: products of the pairs plus c, one rounding to f32; invalid as R160 gives. -/
def fDot (e : Env) (ps : List (XV × XV)) (c : XV) (snan : Bool) : Nat × Exc :=
  let rs := ps.map fun p => xmul p.1 p.2
  let vs := rs.map (·.1) ++ [c]
  let bad := snan || rs.any (fun r => r.2 == Exc.inv) || (vs.contains (.inf true) && vs.contains (.inf false))
  e.result .f32 (xsum vs) (if bad then Exc.inv else Exc.none)

/-- FDOT2 (R160). -/
def fDot2 (f : FT) (e : Env) (m : Mods) (a b c : Nat) : Nat × Exc :=
  let el (mo : BitVec 2) (x k : Nat) : Nat := fmodify f mo (x / 2 ^ (16 * k))
  let z := fmodify .f32 m.c c
  let as := [el m.a a 0, el m.a a 1]
  let bs := [el m.b b 0, el m.b b 1]
  fDot e ((as.zip bs).map fun p => (f.read e.ftz p.1, f.read e.ftz p.2)) (FT.f32.read e.ftz z)
    ((as ++ bs).any f.isSnan || FT.f32.isSnan z)

/-- FDOT4 (R160): FTZ does not affect its elements. -/
def fDot4 (t : Nat) (e : Env) (m : Mods) (a b c : Nat) : Nat × Exc :=
  let z := fmodify .f32 m.c c
  let ks := [0, 1, 2, 3]
  if t == 5 then
    fDot e (ks.map fun k => (fp4Value (a / 65536) (a / 2 ^ (4 * k)), fp4Value (b / 65536) (b / 2 ^ (4 * k))))
      (FT.f32.read e.ftz z)
      (ks.any (fun k => fp4Snan (a / 65536) (a / 2 ^ (4 * k)) || fp4Snan (b / 65536) (b / 2 ^ (4 * k))) || FT.f32.isSnan z)
  else
    let f := ftOf t
    let el (x k : Nat) : Nat := f.code (x / 2 ^ (8 * k))
    fDot e (ks.map fun k => (f.value (el a k), f.value (el b k))) (FT.f32.read e.ftz z)
      (ks.any (fun k => f.isSnan (el a k) || f.isSnan (el b k)) || FT.f32.isSnan z)

/-- A packed operation acts on each half by itself (R161). -/
def perHalf (op : Nat → Nat → Nat → Nat × Exc) (a b c : Nat) : Nat × Exc :=
  let (l, x) := op (a % 65536) (b % 65536) (c % 65536)
  let (h, y) := op (a / 65536 % 65536) (b / 65536 % 65536) (c / 65536 % 65536)
  (l + 65536 * h, x ||| y)

def hAdd2 (f : FT) (e : Env) (m : Mods) (a b : Nat) : Nat × Exc := perHalf (fun x y _ => fAdd f e m x y) a b 0
def hMul2 (f : FT) (e : Env) (m : Mods) (a b : Nat) : Nat × Exc := perHalf (fun x y _ => fMul f e m x y) a b 0
def hFma2 (f : FT) (e : Env) (m : Mods) (a b c : Nat) : Nat × Exc := perHalf (fun x y z => fFma f e m x y z) a b c

/-! Conversions. -/

/-- Integer type codes (R96): width and signedness; the low three bits are those of R94. -/
def intBits (t : Nat) : Nat :=
  match t % 8 / 2 with
  | 0 => 32 | 1 => 64 | 2 => 16 | _ => 8
def intSigned (t : Nat) : Bool := t % 2 == 0

/-- The value of the low bits of a register as an integer type (R133). -/
def intValue (t : Nat) (x : Nat) : Int :=
  if intSigned t then toSigned (intBits t) x else ((x % 2 ^ intBits t : Nat) : Int)

/-- The range of an integer type. -/
def intMin (t : Nat) : Int := if intSigned t then -(2 ^ (intBits t - 1) : Int) else 0
def intMax (t : Nat) : Int := if intSigned t then (2 ^ (intBits t - 1) : Int) - 1 else (2 ^ intBits t : Int) - 1

/-- An integer written at its width: modulo 2^n and extended to 32 bits (R133), 64 bits for a pair. -/
def intCode (t : Nat) (v : Int) : Nat :=
  let n := intBits t
  let u := ofSigned n v
  if n ≥ 32 then u else if intSigned t then ofSigned 32 (toSigned n u) else u

/-- A signed-integer modifier (R91). -/
def imodify (t : Nat) (m : BitVec 2) (v : Int) : Int :=
  let w := if m == 0#2 then v else if m == 1#2 then -v else if m == 2#2 then v.natAbs else -(v.natAbs : Int)
  intValue t (ofSigned (intBits t) w)

/-- Widening float conversions (R85), by type codes. -/
def widening (src dst : Nat) : Bool :=
  dst == 0 || ((src == 3 || src == 4) && (dst == 1 || dst == 2)) || (src == 5 && dst == 1) || (src == dst && src != 5)

/-- The rows of R85 for a float destination, after scale and clamp (R69, R162). `wide` is a widening conversion; `k0` what the
source raises, to which a NaN source of an fp4 destination adds invalid. A widening conversion whose result is subnormal is flushed
under FTZ with underflow and inexact, as R60 has it of every result; and an infinity written as e4m3's 0x7F raises nothing, R85
naming no flag there (DESIGN CHOICE, log entry 87). -/
def toFloat (dst : FT) (wide nsat : Bool) (e : Env) (v : XV) (k0 : Exc) : Nat × Exc :=
  let k := if dst == .fp4 && v.isNan then Exc.inv else k0
  match clampX e.cl (scaleBy e.sc v) with
  | .nan => (dst.nan, k)
  | .inf s =>
    if wide then (dst.sgn s + dst.infCode, k)
    else if nsat then (if dst == .e4m3 then 0x7F else dst.sgn s + dst.infCode, k)
    else (dst.sgn s + dst.maxFin, k ||| Exc.inx)
  | w =>
    let (c, x) := dst.round e.rm e.ftz w
    let big := x &&& Exc.ovf != Exc.none
    let c' := if !big || wide then c else if !nsat then dst.sgn w.neg + dst.maxFin else if dst == .e4m3 then 0x7F else c
    (if dst == .fp4 && c' == 8 then 0 else c', k ||| x)

/-- The integer row of R85. -/
def toInt (t : Nat) (rm : RM) (v : XV) : Nat × Exc :=
  match v with
  | .nan => (0, Exc.inv)
  | .inf s => (intCode t (if s then intMin t else intMax t), Exc.inv)
  | .num s n d _ =>
    let (m, exact) := roundInt rm s n d
    let i : Int := if s then -(m : Int) else m
    if i < intMin t then (intCode t (intMin t), Exc.inv)
    else if intMax t < i then (intCode t (intMax t), Exc.inv)
    else (intCode t i, if exact then Exc.none else Exc.inx)

/-- CVT (R85, R162): type codes of R96, `x` the extra value of an fp4 source. The environment's mode is that of R62. A modifier changes the
sign of an fp4 source's value, X's among them, and FTZ does not flush a subnormal X as UNPK and CVT read it (DESIGN CHOICE, log
entry 88). -/
def cvt (dst src : Nat) (nsat : Bool) (e : Env) (ma : BitVec 2) (a x : Nat) : Nat × Exc :=
  if src < 8 then
    let sf := ftOf src
    let c := fmodify sf ma a
    let v := if src == 5 then
        let w := fp4Value x (sf.code a)
        if ma == 0#2 then w else if ma == 1#2 then w.withNeg (!w.neg) else w.withNeg (ma == 3#2)
      else sf.read e.ftz c
    let snan := if src == 5 then fp4Snan x (sf.code a) else sf.isSnan c
    if dst < 8 then toFloat (ftOf dst) (widening src dst) nsat e v (if snan then Exc.inv else Exc.none)
    else toInt dst e.rm v
  else
    let i := imodify src ma (intValue src a)
    if dst < 8 then toFloat (ftOf dst) false nsat e (.frac (i < 0) i.natAbs 1) Exc.none
    else (intCode dst (if e.cl then satI i (intMin dst) (intMax dst) else i), Exc.none)

/-- The range and zero point of a quantised format (R75, R76, R86). -/
def qMin (q : Nat) : Int := if q == 2 then -127 else 0
def qMax (q : Nat) : Int := if q == 0 then 255 else if q == 1 then 15 else 127
def qZero (q z : Nat) : Int := if q == 0 then ((z % 256 : Nat) : Int) else if q == 1 then ((z % 16 : Nat) : Int) else 0

/-- CVTQ (R86), round-to-nearest-even. -/
def cvtq (q : Nat) (ftz : Bool) (a b c : Nat) : Nat × Exc :=
  let x := FT.f32.read ftz (FT.f32.code a)
  let s := FT.f16.read ftz (FT.f16.code b)
  let z := qZero q c
  let code (d : Int) : Int := satI (d + z) (qMin q) (qMax q)
  let put (i : Int) : Nat := ofSigned (if q == 1 then 4 else 8) i
  match x, s with
  | .inf neg, .num false (n + 1) _ _ =>
    let _ := n
    (put (if neg then qMin q else qMax q), Exc.ovf ||| Exc.inx)
  | .num neg n d _, .num false (m + 1) e _ =>
    let r := (roundInt RM.ne neg (n * e) (d * (m + 1))).1
    let i : Int := if neg then -(r : Int) else r
    let w := code i
    let back : Int := (w - z) * ((m + 1 : Nat) : Int) * (d : Int)
    let orig : Int := (if neg then -(n : Int) else (n : Int)) * (e : Int)
    (put w, (if w == i + z then Exc.none else Exc.ovf) ||| (if back == orig then Exc.none else Exc.inx))
  | _, _ => (put (code 0), Exc.inv)

/-- The difference d of a quantised code (R75, R76). -/
def qDiff (q code z : Nat) : Int :=
  if q == 0 then ((code % 256 : Nat) : Int) - qZero 0 z
  else if q == 1 then ((code % 16 : Nat) : Int) - qZero 1 z
  else toSigned 8 code

/-- CVTDQ (R87). The difference 0 has no sign: it is taken as +0, so that a negative scale gives -0 (DESIGN CHOICE, log entry 89). -/
def cvtdq (q : Nat) (e : Env) (a b c : Nat) : Nat × Exc :=
  let s := FT.f16.code b
  let d := qDiff q a c
  let (v, k) := xmul (FT.f16.read e.ftz s) (.frac (d < 0) d.natAbs 1)
  e.result .f32 v (k ||| FT.f16.snanExc s)

/-- Bits of a packed element (R164). -/
def packWidth (t : Nat) : Nat := if t ≤ 2 then 16 else if t ≤ 4 then 8 else 4

/-- PACK (R164). -/
def fPack (t : Nat) (e : Env) (m : Mods) (a b c : Nat) : Nat × Exc :=
  let w := packWidth t
  let (ea, x) := cvt t 0 false e m.a a 0
  let (eb, y) := cvt t 0 false e m.b b 0
  ((ea + eb * 2 ^ w + c * 2 ^ (2 * w)) % 2 ^ 32, x ||| y)

/-- UNPK (R165). -/
def fUnpk (t : Nat) (ftz : Bool) (a b x : Nat) : Nat × Exc :=
  let w := packWidth t
  cvt 0 t false ⟨RM.ne, ftz, 0#3, false⟩ 0#2 (a / 2 ^ (w * (b % (32 / w)))) x

/-- A lone value as a float source and result (R169): input flush, canonical NaN, invalid for a signalling NaN. -/
def fLone (ftz : Bool) (a : Nat) : Nat × Exc :=
  (if FT.f32.isNan a then FT.f32.nan else flushCode .f32 ftz a, FT.f32.snanExc a)

end Sys2Proof.Machine
end

