-- ==== Sys2Proof/Machine/IntLane.lean ====
section
/-! DEFINITION. The integer operations of one lane (R91, R133, R138–R148), shared by the wave, uniform, stream and
callable datapaths. Types are the codes of VAR[2:0] (R94). -/

namespace Sys2Proof.Machine

/-- IMM16 as a source (R95): sign-extended for signed types, zero-extended otherwise. -/
def intImm (t : Nat) (imm : BitVec 16) : Nat :=
  if intSigned t then ofSigned 64 (toSigned 16 imm.toNat) else imm.toNat

/-- IMM16 as a float source (R95). -/
def floatImm (t : Nat) (imm : BitVec 16) : Nat := if t == 0 then imm.toNat * 65536 else imm.toNat * 65537

/-- R139: the exact result saturated or taken modulo 2^n, written at its width. -/
def intResult (t : Nat) (cl : Bool) (e : Int) : Nat := intCode t (if cl then satI e (intMin t) (intMax t) else e)

/-- A source as the type, with its modifier (R133, R91). -/
def intSrc (t : Nat) (m : BitVec 2) (x : Nat) : Int := imodify t m (intValue t x)

/-- Unsigned value of the low n bits for the bitwise operations. -/
def unsignedOf (t : Nat) (x : Nat) : Nat := x % 2 ^ intBits t

def iAnd (t a b : Nat) : Nat := Nat.land (unsignedOf t a) (unsignedOf t b)
def iOr (t a b : Nat) : Nat := Nat.lor (unsignedOf t a) (unsignedOf t b)
def iXor (t a b : Nat) : Nat := Nat.xor (unsignedOf t a) (unsignedOf t b)
def iAndn (t a b : Nat) : Nat := Nat.land (unsignedOf t a) (2 ^ intBits t - 1 - unsignedOf t b)

/-- Shift counts are unsigned 32-bit values (R140). -/
def iShl (t a c : Nat) : Nat := if intBits t ≤ c % 2 ^ 32 then 0 else unsignedOf t a * 2 ^ (c % 2 ^ 32) % 2 ^ intBits t
def iShr (t a c : Nat) : Nat := if intBits t ≤ c % 2 ^ 32 then 0 else unsignedOf t a / 2 ^ (c % 2 ^ 32)
def iSar (t a c : Nat) : Nat := intCode t (intValue t a / (2 ^ min (c % 2 ^ 32) (intBits t) : Nat))
def iRotl (t a c : Nat) : Nat :=
  let n := intBits t
  let k := c % 2 ^ 32 % n
  (unsignedOf t a * 2 ^ k % 2 ^ n) + unsignedOf t a / 2 ^ (n - k)

/-- The number of 1 bits among the low n. -/
def countOnes (n x : Nat) : Nat := ((List.range n).filter fun i => bit x i).length
def iPopc (t a : Nat) : Nat := countOnes (intBits t) a
def iClz (t a : Nat) : Nat := if unsignedOf t a == 0 then intBits t else intBits t - 1 - (unsignedOf t a).log2
def iBrev (t a : Nat) : Nat :=
  let n := intBits t
  (List.range n).foldl (fun r i => if bit a i then r + 2 ^ (n - 1 - i) else r) 0

/-- The bit field a control names (R142): off = bits 7:0, len = bits 15:8; none when it selects nothing. -/
def bitField (n ctl : Nat) : Option (Nat × Nat) :=
  let o := ctl % 256
  let l := ctl / 256 % 256
  if l == 0 || n ≤ o then none else some (o, min (o + l) n - o)

/-- BFE (R142). -/
def iBfe (t a ctl : Nat) : Nat :=
  match bitField (intBits t) ctl with
  | none => 0
  | some (o, l) =>
    let f := unsignedOf t a / 2 ^ o % 2 ^ l
    if intSigned t then intCode t (toSigned l f) else f

/-- BFI (R142). -/
def iBfi (t a b ctl : Nat) : Nat :=
  let y := unsignedOf t b
  match bitField (intBits t) ctl with
  | none => y
  | some (o, l) => y - (y / 2 ^ o % 2 ^ l) * 2 ^ o + (unsignedOf t a % 2 ^ l) * 2 ^ o

/-- LEA (R143). -/
def iLea (t a b sh : Nat) : Nat := ofSigned 64 ((a : Int) + intValue t b * (2 ^ sh : Nat))

/-- PRMT (R144). -/
def iPrmt (a b c : Nat) : Nat :=
  let pair := a % 2 ^ 32 + b % 2 ^ 32 * 2 ^ 32
  let byte (k : Nat) : Nat :=
    let sel := c / 2 ^ (5 * k) % 32
    let s := pair / 2 ^ (8 * (sel % 8)) % 256
    match sel / 8 with
    | 0 => s
    | 1 => 0
    | 2 => if bit s 7 then 255 else 0
    | _ => if bit s 0 then 255 else 0
  byte 0 + byte 1 * 2 ^ 8 + byte 2 * 2 ^ 16 + byte 3 * 2 ^ 24

/-- IDOT4 (R145): types .i8 (6) and .n8 (7), the accumulator .i32 or .n32. -/
def iDot4 (t : Nat) (cl : Bool) (a b c : Nat) : Nat :=
  let el (x k : Nat) : Int := intValue t (x / 2 ^ (8 * k))
  let e := [0, 1, 2, 3].foldl (fun s k => s + el a k * el b k) (intValue (t - 6) c)
  intResult (t - 6) cl e

/-- IDIV and IREM (R146). -/
def iDiv (t : Nat) (x y : Int) : Nat := intCode t (if y == 0 then -1 else Int.tdiv x y)
def iRem (t : Nat) (x y : Int) : Nat := intCode t (if y == 0 then x else Int.tmod x y)

/-- ICMP's condition (R97, R148). -/
def iCmp (cond : BitVec 3) (x y : Int) : Bool :=
  match cond.toNat with
  | 0 => x == y
  | 1 => x != y
  | 2 => x < y
  | 3 => x ≤ y
  | 4 => y < x
  | _ => y ≤ x

/-- IADDC (R141): sum and carry. -/
def iAddc (t a b : Nat) (cin : Bool) : Nat × Bool :=
  let s := unsignedOf t a + unsignedOf t b + cin.toNat
  (s % 2 ^ intBits t, 2 ^ intBits t ≤ s)

/-- IABSD's result is unsigned at the type's width (R139). -/
def iAbsd (t : Nat) (x y : Int) : Nat := (x - y).natAbs % 2 ^ intBits t

/-- IMULH (R139). -/
def iMulh (t : Nat) (x y : Int) : Nat := intCode t (x * y / (2 ^ intBits t : Nat))

end Sys2Proof.Machine
end

