-- ==== Sys2Proof/Machine/Memory.lean ====
section
/-! DEFINITION. Memory as plain data: canonical locations, bytes, poison marks, page tables and extents (R341–R349,
R484), the read-modify-write of R202, and the checks a home makes (R350, R488, R490). -/

namespace Sys2Proof.Machine

/-- What a byte of memory that nothing has written reads as (log entry 6). -/
def memDefault : Byte := 0

/-- The canonical form of a memory: addresses strictly rising, no entry equal to the default. -/
def Memory.wf : List Host.Cell → Bool
  | [] => true
  | [c] => c.2 != memDefault
  | c :: d :: r => c.2 != memDefault && c.1 < d.1 && Memory.wf (d :: r)

/-- One byte of memory. -/
def memGet (m : List Host.Cell) (a : Nat) : Byte := smGetD m a memDefault

/-- Writes one byte, keeping the canonical form. -/
def memSet (m : List Host.Cell) (a : Nat) (b : Byte) : List Host.Cell := smPut memDefault m a b

/-- Writes bytes upward from an address. -/
def memSets (m : List Host.Cell) (a : Nat) (bs : List Byte) : List Host.Cell :=
  match bs with
  | [] => m
  | b :: r => memSets (memSet m a b) (a + 1) r

/-- Reads n bytes upward from an address. -/
def memGets (m : List Host.Cell) (a n : Nat) : List Byte := (List.range n).map fun i => memGet m (a + i)

/-- A place in memory after canonicalisation (R342, R343, R484): a module (none for this one), a stack, an offset. -/
structure Place where
  other : Option Nat
  stack : Nat
  off : Nat
  inter : Bool
  deriving DecidableEq, Repr

/-- The local map of one module (R484). -/
def placeLocal (other : Option Nat) (pa : Nat) : Option Place :=
  if pa < 10 * 2 ^ 36 then some ⟨other, pa / 2 ^ 36, pa % 2 ^ 36, false⟩
  else if 0x010000000000 ≤ pa && pa < 0x018000000000 then
    let o := pa - 0x010000000000
    let g := o / 2048
    some ⟨other, g % 10, g / 10 * 2048 + o % 2048, true⟩
  else none

/-- Canonicalisation of a physical address (R342, R484). -/
def place (s : State) (pa : Nat) : Option Place :=
  if pa < 2 ^ 51 then placeLocal none pa
  else if pa < 2 ^ 52 then
    let m := (pa - 2 ^ 51) / 2 ^ 43
    placeLocal (if m == s.moduleNo then none else some m) (pa % 2 ^ 43)
  else none

/-- The key of a place in `State.mem`: two aliases of one byte have one key (R343). -/
def Place.key (p : Place) : Nat :=
  (match p.other with
    | none => 0
    | some m => (m + 1) * 2 ^ 40) + p.stack * 2 ^ 36 + p.off

/-- Capacity of a good stack (R483), which a stack of another module is taken to have (log entry 7). -/
def goodCap : Nat := 5859375

/-- Whether stack k backs an offset (R483). -/
def stackBacks (s : State) (k t : Nat) : Bool :=
  match s.hbm[k]? with
  | some h => h.en && t < 8192 * h.cap
  | none => false

/-- Whether a place is backed (R342, R483). -/
def Place.backed (s : State) (p : Place) : Bool :=
  match p.other with
  | some _ => p.off < 8192 * goodCap
  | none => if p.inter then (List.range 10).all fun k => stackBacks s k p.off else stackBacks s p.stack p.off

/-- The memory key of a physical address; unbacked addresses, which nothing translates to, share no key with a backed
one. -/
def loc (s : State) (pa : Nat) : Nat :=
  match place s pa with
  | some p => p.key
  | none => 2 ^ 60 + pa

/-- Whether every byte of a physical range is backed, judged at its 2 KiB granules (R342, R483, R522). -/
def rangeBacked (s : State) (pa len : Nat) : Bool :=
  len == 0 || ((List.range ((len + 2047) / 2048)).map (fun i => pa + 2048 * i) ++ [pa + len - 1]).all fun a =>
    match place s a with
    | some p => p.backed s
    | none => false

/-- Bytes at a physical address, granule by granule through the map (R342). -/
def physGet (s : State) (pa n : Nat) : List Byte := (List.range n).map fun i => memGet s.mem (loc s (pa + i))

/-- The poison mark of the 16-byte granule that holds a physical address (R445). -/
def physPsn (s : State) (pa : Nat) : Bool := nsHas s.memPsn (loc s pa / 16)

/-- Poison marks of the granules of a physical range, bit i for the i-th granule touched. -/
def physPsns (s : State) (pa n : Nat) : List Bool :=
  (List.range ((pa % 16 + n + 15) / 16)).map fun i => physPsn s (pa / 16 * 16 + 16 * i)

/-- A range cut at lines of 128 bytes. -/
def linePieces (pa n : Nat) : List (Nat × Nat) :=
  if n == 0 then []
  else (List.range ((pa % 128 + n + 127) / 128)).map fun i =>
    let lo := max pa (pa / 128 * 128 + 128 * i)
    let hi := min (pa + n) (pa / 128 * 128 + 128 * (i + 1))
    (lo, hi - lo)

/-- Writes bytes at a physical address: the granules overwritten whole lose their marks (R445), and a line written under one key holds
nothing under another (R509); a discarded write to a
stack out of service is the caller's to make. -/
def physSet (s : State) (pa : Nat) (bs : List Byte) : State :=
  let n := bs.length
  let mem := ((List.range n).zip bs).foldl (fun m p => memSet m (loc s (pa + p.1)) p.2) s.mem
  let whole := (List.range (n / 16 + 1)).filterMap fun i =>
    let g := (pa + 15) / 16 * 16 + 16 * i
    if g + 16 ≤ pa + n then some (loc s g / 16) else none
  let kept (k : Nat) : Bool := !((linePieces pa n).any fun p => loc s p.1 / 128 == k / 128)
  { s with
    mem := mem
    memPsn := whole.foldl nsDel s.memPsn
    covered := s.covered.filter fun c => kept c.at_
    coveredPsn := s.coveredPsn.filter fun c => kept (16 * c.granule) }

/-- Marks or clears the granules of a physical range. -/
def physMark (s : State) (pa n : Nat) (b : Bool) : State :=
  let gs := (List.range ((pa % 16 + n + 15) / 16)).map fun i => loc s (pa / 16 * 16 + 16 * i) / 16
  { s with memPsn := gs.foldl (fun m g => nsPut m g b) s.memPsn }

/-- A little-endian number in physical memory. -/
def physNum (s : State) (pa n : Nat) : Nat := ofBytes (physGet s pa n)

/-- A request as its issue makes it. -/
def MemReq.blank (rid : Rid) (who : Requester) : MemReq where
  rid := rid
  who := who
  gang := 0
  kind := .read
  asid := 0
  gen := 0
  key := 0
  sec := false
  va := 0
  pa := 0
  size := 0
  data := []
  cmp := []
  aop := 0
  ty := 0
  ord := 0
  scope := 0
  lane := 0
  d := 0
  fwd := []
  fill := false
  line := none
  epc := 0
  st := .queued
  peer := none
  place := 0
  served := 0
  bad := false
  sent := false
  via := rid.die
  eng := none

/-- Whether a physical address lies in a window of another module (R484). -/
def remote (s : State) (pa : Nat) : Bool := (place s pa).any (·.other.isSome)

/-- KEY and SEC of the region that holds a place, and whether Caltus holds it closed (R506, R507). Memory of another
module is that module's to check (R484). -/
def regionOf (s : State) (p : Place) : Nat × Bool × Bool :=
  match p.other with
  | some _ => (0, false, false)
  | none =>
    let die := p.stack / 5
    let u := p.off / 2 ^ 21
    match s.regions.find? (fun r =>
        r.1 / 64 == die && r.2.rega.getLsbD 63 && bits r.2.rega.toNat 50 48 == p.stack % 5 &&
          bits r.2.rega.toNat 14 0 ≤ u && u ≤ bits r.2.regb.toNat 14 0) with
    | some (_, r) => (bits r.rega.toNat 61 55, r.rega.getLsbD 62, r.closed)
    | none => (0, false, false)

/-- A write of the module itself to another module's memory, or into a closed region, goes as requests (R458, R484, R507), of UNIT 31 (log entry 105). -/
def sendOwn (s : State) (pa : Nat) (bs : List Byte) : State :=
  (linePieces pa bs.length).foldl (fun s p =>
    let b := MemReq.blank ⟨s.moduleNo, 0, 0, 31, s.places % 2 ^ 20⟩ .own
    let r : MemReq := { b with kind := .write, va := p.1, pa := p.1, size := p.2, data := (bs.drop (p.1 - pa)).take p.2, st := .flight, place := s.places }
    { s with reqs := s.reqs ++ [r], places := s.places + 1 }) s

/-- An update of a register structure by the Q88 itself: fault ring, service ring, stop and save areas, node state
blocks. Where the stack is out of service it is discarded and counted (R490, R522); into a closed
region it goes as a request, which its home answers NACK (R488, R507). -/
def ownWrite (s : State) (pa : Nat) (bs : List Byte) : State :=
  match place s pa with
  | none => s
  | some p =>
    if p.other.isSome || (regionOf s p).2.2 then sendOwn s pa bs
    else if p.backed s then physSet s pa bs
    else { s with hbm := modAt s.hbm p.stack fun h => { h with discarded := h.discarded + 1 } }

/-! Page tables. -/

/-- A translated page: base, size, attributes (R344). -/
structure Page where
  va : Nat
  pa : Nat
  size : Nat
  key : Nat
  sec : Bool
  x : Bool
  w : Bool
  r : Bool
  res : Bool
  deriving DecidableEq, Repr

/-- Index of a virtual address at a level (R344). -/
def pteIndex (va level : Nat) : Nat := if level == 0 then va / 2 ^ 53 % 8 else va / 2 ^ (53 - 10 * level) % 1024

/-- Whether an entry's reserved fields are 0 (R344). -/
def pteClean (e : Nat) : Bool := bits e 63 60 == 0 && bits e 12 8 == 0 && !bit e 1

/-- The page an entry describes at a level, when it is valid (R344). -/
def ptePage (s : State) (va table level e : Nat) : Option Page :=
  let size := bits e 7 6
  let shift := if size == 3 then 25 else if size == 2 then 18 else 13
  let group := if size == 3 then 4 else if size == 2 then 32 else 1
  let i := pteIndex va level
  let pa := bits e 51 13 * 2 ^ 13
  let same := (List.range group).all fun k => physNum s (table + 8 * (i / group * group + k)) 8 == e
  if ((size == 1 || size == 2) && level == 4 || size == 3 && level == 3) && same && pa % 2 ^ shift == 0 &&
      rangeBacked s pa (2 ^ shift) then
    some ⟨va / 2 ^ shift * 2 ^ shift, pa, 2 ^ shift, bits e 59 53, bit e 52, bit e 5, bit e 4, bit e 3, bit e 2⟩
  else none

/-- The walk of the levels left, from a table (R344). -/
def walkFrom (s : State) (va table : Nat) : Nat → Option Page
  | 0 => none
  | n + 1 =>
    let level := 4 - n
    let e := physNum s (table + 8 * pteIndex va level) 8
    if !rangeBacked s table 8192 || !bit e 0 || !pteClean e then none
    else if bits e 7 6 == 0 then
      if level == 4 then none else walkFrom s va (bits e 51 13 * 2 ^ 13) n
    else ptePage s va table level e

/-- The address-space record of an ASID (R345). -/
def asidOf (s : State) (a : Nat) : Asid := smGetD s.asids a ⟨0, 0, none, []⟩

def Asid.valid (a : Asid) : Bool := a.dw0.getLsbD 0
def Asid.gen (a : Asid) : Nat := bits a.dw1.toNat 15 0
def Asid.mingen (a : Asid) : Nat := bits a.dw1.toNat 31 16

/-- MINGEN as the cores and the home of a tile have it: while a raise is under way its flit has reached the tile or not (R351, R474). -/
def mingenAt (s : State) (tile asid : Nat) : Nat :=
  let A := asidOf s asid
  (smGet? A.homes tile).getD A.mingen

/-- The page that maps a virtual address, when a valid entry does (R344). -/
def walk (s : State) (asid va : Nat) : Option Page :=
  let a := asidOf s asid
  if a.valid && va < 2 ^ 56 then walkFrom s va (bits a.dw0.toNat 51 13 * 2 ^ 13) 5 else none

/-- A generation older than MINGEN (R345). -/
def olderThan (g mingen : Nat) : Bool :=
  let d := (mingen + 2 ^ 16 - g % 2 ^ 16) % 2 ^ 16
  1 ≤ d && d ≤ 32767

/-! Regions (R506). -/

/-- Whether every granule of a page agrees with its regions in KEY and SEC (R347, R508). -/
def pageAgrees (s : State) (g : Page) : Bool :=
  (List.range (g.size / 2048)).all fun i =>
    match place s (g.pa + 2048 * i) with
    | some p =>
      let (k, sec, _) := regionOf s p
      p.other.isSome || (k == g.key && sec == g.sec)
    | none => false

/-- Whether a region over the page is held closed: its retranslation waits (R488, R507). -/
def pageClosed (s : State) (g : Page) : Bool :=
  (List.range (g.size / 2048)).any fun i =>
    match place s (g.pa + 2048 * i) with
    | some p => (regionOf s p).2.2
    | none => false

/-! Extents. -/

/-- Access kinds (R429). -/
inductive Acc where
  | read | write | atomic | fetch
  deriving DecidableEq, Repr

/-- The code of R429's ACCESS. -/
def Acc.code : Acc → Nat
  | .read => 0 | .write => 1 | .atomic => 2 | .fetch => 3

/-- An extent's permission for an access: an atomic reads and writes (R346). -/
def Extent.allows (e : Extent) (a : Acc) : Bool :=
  match a with
  | .read => e.r
  | .write => e.w
  | .atomic => e.r && e.w
  | .fetch => e.x

/-- The result of matching an address (R348). -/
inductive Tr where
  | ok (pa key : Nat) (sec : Bool) (gen : Nat)
  | perm
  | park (code idx : Nat)
  | miss
  deriving DecidableEq, Repr

/-- The index of the entry that covers an address. -/
def extentAt (ext : List Extent) (va : Nat) : Option Nat :=
  ext.findIdx? fun e => e.kind != 0#2 && e.vbase ≤ va && va < e.vbase + e.len * 8192

/-- Whether an address lies in a range declared for team t: (any range, an open range) (R349, R383). -/
def declared (decls : List (Nat × Nat × Nat × Nat)) (t va : Nat) : Bool :=
  decls.any fun d => (va + 2 ^ 56 - (d.1 + t * d.2.2.1) % 2 ^ 56) % 2 ^ 56 < d.2.1

def declaredOpen (decls : List (Nat × Nat × Nat × Nat)) (t va : Nat) : Bool :=
  va < 2 ^ 56 && decls.any fun d => bit d.2.2.2 3 && (va + 2 ^ 56 - (d.1 + t * d.2.2.1) % 2 ^ 56) % 2 ^ 56 < d.2.1

/-- The permissions (R, W, X) declared for an address: the union of the declarations that cover it (R383). -/
def declPerm (decls : List (Nat × Nat × Nat × Nat)) (t va : Nat) : Bool × Bool × Bool :=
  let ds := decls.filter fun d => (va + 2 ^ 56 - (d.1 + t * d.2.2.1) % 2 ^ 56) % 2 ^ 56 < d.2.1
  (ds.any (fun d => bit d.2.2.2 0), ds.any (fun d => bit d.2.2.2 1), ds.any (fun d => bit d.2.2.2 2))

/-- R348: matching an address against an extent table, at a tile. `decl` says whether a declared range holds the address. -/
def matchExtent (s : State) (tile asid : Nat) (ext : List Extent) (decl : Bool) (va : Nat) (a : Acc) : Tr :=
  match extentAt ext va with
  | some i =>
    match ext[i]? with
    | none => .miss
    | some e =>
      if e.kind == 2#2 then .park 0x40 i
      else if olderThan e.gen (mingenAt s tile asid) then .park 0x40 i
      else if e.kind == 3#2 || !e.allows a then .perm
      else .ok (e.pbase + (va - e.vbase)) e.key e.sec e.gen
  | none => if decl && va < 2 ^ 56 then .park 0x41 0xFF else .miss

/-! The home. -/

/-- The operations of R104 and R202 on an old value; `ty` the type, `op` the AOP. -/
def atomicOp (ty op old v cmp : Nat) : Nat :=
  if ty == 4 then
    match op with
    | 0 => (fAdd .f32 Env.rne .none old v).1
    | 1 => fMinMax false .f32 false old v
    | 2 => fMinMax true .f32 false old v
    | _ => if FT.f32.isNan v then FT.f32.nan else v
  else
    let n := intBits ty
    let a := intValue ty old
    let b := intValue ty v
    match op with
    | 0 => (old + v) % 2 ^ n
    | 1 => if a ≤ b then old else v
    | 2 => if a ≤ b then v else old
    | 3 => Nat.land old v
    | 4 => Nat.lor old v
    | 5 => Nat.xor old v
    | 6 => v
    | _ => if old == cmp then v else old

/-- Bytes an atomic type occupies (R104). -/
def atomicSize (ty : Nat) : Nat := if ty == 2 || ty == 3 then 8 else 4

/-- What a home makes of a request: performed, rejected for its generation, or refused (R350, R488, R490). -/
inductive Verdict where
  | perform | nack | refuse | world | discard
  deriving DecidableEq, Repr

/-- The checks of a home (R350, R488, R490, R505): the generation, the region's KEY and SEC against the request's. Another module's
memory is its home's to check, when the request has got there (R484). -/
def homeCheck (s : State) (pa asid gen key : Nat) (sec engineWorld : Bool) (engine : Bool) : Verdict :=
  match place s pa with
  | none => .discard
  | some p =>
    let a := asidOf s asid
    let current := gen == a.gen
    let (k, rs, closed) := regionOf s p
    if p.other.isSome then .perform
    else if olderThan gen (mingenAt s (p.stack * 5 + p.off / 128 % 5) asid) then .nack
    else if closed then .nack
    else if !((s.hbm.map (·.en)).getD p.stack false) then if current then .discard else .nack
    else if engine && rs != engineWorld then if current then .world else .nack
    else if k != key || rs != sec then if current then .refuse else .nack
    else .perform

end Sys2Proof.Machine
end

