-- ==== Sys2Proof/Machine/Link.lean ====
section
/-! DEFINITION. What leaves the module: the outbox, the fabric's ports, routes and held flits (R491–R495), the gateways in
service (R480, R481), and the halt line of a partition as it is raised (R446, R479, R495). -/

namespace Sys2Proof.Machine

def modPart (s : State) (p : Nat) (f : Part → Part) : State := { s with parts := smMod s.parts p f }
def emitOut (s : State) (o : Out) : State := { s with outbox := s.outbox ++ [o] }

/-- A die's management register by number, 0 after reset unless bring-up or a write set it. -/
def dieCsr (s : State) (die num : Nat) : DWord := smGetD s.csrs (die * 4096 + num) 0

/-! Ports and routes. -/

/-- The ports in service of a die that lead toward a module (R493): port p of die d has number 64 × d + p. -/
def diePorts (s : State) (die m : Nat) : List Nat :=
  let mask := dieCsr s die (0xD00 + m)
  ((List.range 64).filter fun i => mask.getLsbD i && nsHas s.ports (64 * die + i)).map fun i => 64 * die + i

/-- The ports traffic of a die takes to a module: its own, or those of the other die when it has none left (R491). -/
def portsTo (s : State) (die m : Nat) : List Nat :=
  match diePorts s die m with
  | [] => diePorts s (1 - die) m
  | l => l

/-- Virtual channels of the Thielo header (R492). -/
def vcRequest : Nat := 0
def vcResponse : Nat := 1
def vcMail : Nat := 2
def vcHalt : Nat := 3

/-- The port of a flit (R493): a request takes the port its UNIT and SEQ select, other flits the lowest. -/
def choosePort (ports : List Nat) (vc : Nat) (rid : Rid) : Option Nat :=
  if vc == vcRequest then ports[(rid.unit * 2 ^ 20 + rid.seq) % ports.length]? else ports.head?

/-- The key of a flow's sequence counter: partition, destination module, VC. -/
def flowKey (p dmod vc : Nat) : Nat := (p * 256 + dmod) * 4 + vc

/-- A flit leaves on its port, if there is one. -/
def transmit (s : State) (f : FabFlit) (port : Option Nat) : State :=
  match port with
  | some k => emitOut s (.fabric k { f with port := k })
  | none => s

/-- A DATA flit is numbered, kept until it is acknowledged, and sent (R494). -/
def fabSend (s : State) (die p dmod vc : Nat) (rid : Rid) (req : Option MemReq) (mail : Option MailFlit)
    (stop : Option (Nat × Nat × Nat × Nat)) : State :=
  let k := flowKey p dmod vc
  let n := smGetD s.fabNext k 0
  let f : FabFlit := ⟨.data, dmod, s.moduleNo, p, vc, n, 0, rid, req, mail, stop⟩
  transmit { s with
    fabNext := smPut 0 s.fabNext k ((n + 1) % 2 ^ 24)
    fabSent := s.fabSent ++ [⟨f, s.now, 0⟩] } f (choosePort (portsTo s die dmod) vc rid)

/-- The core a flit of the mailbox network leaves, and the module it goes to: an answer goes back. -/
def MailFlit.leaves (f : MailFlit) : Nat := if f.kind == .mail then f.fromCore else f.toCore
def MailFlit.goesTo (f : MailFlit) : Nat := if f.kind == .mail then f.toMod else f.fromMod

/-- A flit goes on the mailbox network, or over the fabric to another module; MAILACC and MAILREF travel with the responses
(R451, R492). -/
def postMail (s : State) (f : MailFlit) : State :=
  if f.goesTo == s.moduleNo then { s with mails := s.mails ++ [f] }
  else
    let c := f.leaves
    let vc := match f.kind with
      | .mail | .control => vcMail
      | _ => vcResponse
    fabSend s (c / 200) f.part f.goesTo vc ⟨s.moduleNo, c / 200, c % 200 / 8, c % 8, 0⟩ none (some f) none

/-! Gateways. -/

/-- Whether a gateway has a module in service (R480). -/
def gatewayUp (s : State) (g : Nat) : Bool := ((s.gateways[g]?).elim [] (·.modules)).any id

/-- The gateway that carries what would cross in a row: its own, or the nearest enabled, the lower on a tie (R481). -/
def crossing (s : State) (row : Nat) : Nat :=
  ((List.range 5).foldl (fun (b : Option Nat) g =>
    if !gatewayUp s g then b
    else match b with
      | none => some g
      | some h => if (max g row - min g row) < (max h row - min h row) then some g else b) none).getD row

/-! The halt line. -/

/-- The stop-area slots of the units (R448): a core, its matrix sequencer, a context, a Parhelion engine, a router, a
Horizon gateway. -/
def coreUnit (c : Nat) : Nat := c / 200 * 1024 + c % 200
def mxUnit (c : Nat) : Nat := c / 200 * 1024 + 200 + c % 200
def ctxUnit (x : Nat) : Nat := x / 400 * 1024 + 400 + x % 400
def phUnit (k : Nat) : Nat := k / 25 * 1024 + 800 + k % 25
def routerUnit (k : Nat) : Nat := k / 25 * 1024 + 825 + k % 25
def gwUnit (die g : Nat) : Nat := die * 1024 + 850 + g

/-- Whether a halt line has reached a unit, which then does nothing more (R446). -/
def unitStopped (s : State) (part unit : Nat) : Bool :=
  match smGet? s.parts part with
  | some P => P.haltst.getLsbD 8 || P.halt.any fun h => nsHas h.arrived unit
  | none => true

/-- A halt line comes up in this module, from itself or another; the first condition stands. It goes on to the other modules
of the partition (R446, R495). -/
def lineUp (s : State) (p : Nat) (h : HaltInfo) : State :=
  match smGet? s.parts p with
  | none => s
  | some P =>
    if P.halt.isSome || P.haltst.getLsbD 8 then s
    else ((P.modules.map (·.1)).filter fun m => m != h.origMod).foldl (fun s m =>
      fabSend s 0 p m vcHalt ⟨s.moduleNo, 0, 0, 0, 0⟩ none none (some (h.reason, h.origin, h.origMod, h.addr)))
      (modPart s p fun P => { P with halt := some h })

/-- R422, R446: a unit of this module raises the line. -/
def raiseHalt (s : State) (p reason origin addr : Nat) : State :=
  lineUp s p ⟨reason, origin, s.moduleNo, addr, [], 0⟩

/-- The path to a module has failed (R491): the partitions that span both modules halt with reason 2. ORIGIN, which names a
unit, is free: the spec gives ports no stop-area slot. -/
def pathFailed (s : State) (m : Nat) : State :=
  let origin := ofBytes [Config.freeByte s.fresh, Config.freeByte (s.fresh + 1)]
  (s.parts.filter fun p => (smGet? p.2.modules m).isSome).foldl (fun s p => raiseHalt s p.1 2 origin 0)
    (emitOut { s with fresh := s.fresh + 2 } (.interrupt 3 m))

end Sys2Proof.Machine
end

