-- ==== Sys2Proof/Machine/Ops.lean ====
section
/-! DEFINITION. The named operations over State that the meanings share: teams, waves and cores; how a gang advances,
reconverges and parts (R19, R22, R116, R172–R174); the service queue (R184) and the fault buffer (R429, R430); chains
and their aborts (R266); a kill (R443); taking a trap (R181, R425) and returning from it (R185). -/

namespace Sys2Proof.Machine

/-! Access. -/

/-- Teams are keyed by partition and serial: the serial is unique in its partition (R46). -/
def teamKey (part serial : Nat) : Nat := serial * 8 + part

def Team.key (T : Team) : Nat := teamKey T.part T.serial

def team? (s : State) (t : Nat) : Option Team := smGet? s.teams t
def setTeam (s : State) (t : Nat) (T : Team) : State := { s with teams := smSet s.teams t T }
def modTeam (s : State) (t : Nat) (f : Team → Team) : State := { s with teams := smMod s.teams t f }
def Team.setWave (T : Team) (w : Nat) (W : Wave) : Team := { T with waves := setAt T.waves w W }
def modWave (s : State) (t w : Nat) (f : Wave → Wave) : State := modTeam s t fun T => { T with waves := modAt T.waves w f }
def wave? (s : State) (t w : Nat) : Option Wave := (team? s t).bind fun T => T.waves[w]?
def core? (s : State) (c : Nat) : Option Core := smGet? s.cores c
def modCore (s : State) (c : Nat) (f : Core → Core) : State := { s with cores := smMod s.cores c f }
def modCluster (s : State) (k : Nat) (f : Cluster → Cluster) : State := { s with clusters := smMod s.clusters k f }
def modCtx (s : State) (x : Nat) (f : Ctx → Ctx) : State := { s with ctxs := smMod s.ctxs x f }
def modLaunch (s : State) (l : Nat) (f : Launch → Launch) : State := { s with launches := smMod s.launches l f }

/-- The cluster of a core in the module, and the die (R46). -/
def clusterOf (c : Nat) : Nat := c / 8
def dieOf (c : Nat) : Nat := c / 200

/-- The partition a cluster belongs to. -/
def partOfCluster (s : State) (k : Nat) : Option Nat := (s.parts.find? fun p => nsHas p.2.clusters k).map (·.1)
def partOfCore (s : State) (c : Nat) : Option Nat := partOfCluster s (clusterOf c)

/-- Whether the partition is halting or halted: none of its units goes on past its bound (R446). -/
def halted (s : State) (p : Nat) : Bool :=
  match smGet? s.parts p with
  | some P => P.halt.isSome || P.haltst.getLsbD 8
  | none => true

/-- The team of a launch that a core holds: resident, active or saved, the lowest TEAMIDX (R197). -/
def Team.heldState (T : Team) : Bool :=
  match T.st with
  | .resident | .active | .saved | .ending => T.created
  | _ => false

def heldTeam (s : State) (launch core : Nat) : Option (Nat × Team) :=
  (s.teams.filter fun p => p.2.launch == launch && p.2.core == core && p.2.heldState).foldl
    (fun b p => match b with
      | none => some p
      | some q => if p.2.index < q.2.index then some p else some q) none

/-! Slices and gangs. -/

/-- R174: what a slice does when its PC equals the RPC of its top entry, entry after entry. The flag says whether any
step was taken. -/
def reconvergeStack (pc : BitVec 53) (lmask : BitVec 4) : List Deferral → BitVec 53 × BitVec 4 × List Deferral × Bool
  | [] => (pc, lmask, [], false)
  | e :: r =>
    if e.rpc != 0 && pc == e.rpc then
      if e.dpc != e.rpc then (e.dpc, e.mask, ⟨lmask, e.rpc, e.rpc⟩ :: r, true)
      else
        let (p, l, st, _) := reconvergeStack pc (lmask ||| e.mask) r
        (p, l, st, true)
    else (pc, lmask, e :: r, false)

/-- A slice comes to a PC (R116, R174): `jump` when its PC is set other than by falling through, `bnd` when the word
before had B = 1. -/
def Slice.goto (sl : Slice) (pc : BitVec 53) (jump bnd : Bool) : Slice :=
  let (p, l, st, moved) := reconvergeStack pc sl.lmask sl.stack
  { sl with
    pc := p
    lmask := l
    stack := st
    runpos := if jump || bnd || moved then 0 else sl.runpos + 1
    hold := .free }

def Slice.dead : Slice := ⟨false, 0, 0, 0, [], 0, .free⟩

def Wave.slice (W : Wave) (i : Nat) : Slice := W.slices.getD i Slice.dead

/-- LIVE of WSTAT (R45). -/
def Wave.live (W : Wave) : BitVec 8 :=
  BitVec.ofNat 8 ((List.range 8).foldl (fun a i => if (W.slice i).live then a + 2 ^ i else a) 0)

/-- The gang a slice belongs to, as a mask of slices (R17). -/
def Wave.gangOf (W : Wave) (i : Nat) : BitVec 8 :=
  let g := (W.slice i).gangid
  BitVec.ofNat 8 ((List.range 8).foldl
    (fun a j => if (W.slice j).live && (W.slice j).gangid == g then a + 2 ^ j else a) 0)

/-- The GANGIDs of the wave's gangs in ascending order. -/
def Wave.gangIds (W : Wave) : List Nat :=
  (List.range 8).filter fun i => (W.slice i).live && (W.slice i).gangid.toNat == i

/-- Changes the slices of a gang. -/
def Wave.mapGang (W : Wave) (g : BitVec 8) (f : Nat → Slice → Slice) : Wave :=
  { W with slices := ((List.range W.slices.length).zip W.slices).map fun p => if g.getLsbD p.1 then f p.1 p.2 else p.2 }

/-- R173: the slices of a gang part into one gang per PC, each GANGID its lowest slice. -/
def Wave.regroup (W : Wave) (g : BitVec 8) : Wave :=
  W.mapGang g fun _ sl =>
    { sl with gangid := BitVec.ofNat 3 (((slicesOf g).find? fun j => (W.slice j).live && (W.slice j).pc == sl.pc).getD 0) }

/-- The lanes a gang's lane masks enable (R17). -/
def Wave.gangLanes (W : Wave) (g : BitVec 8) : LaneMask :=
  maskOf fun i => g.getLsbD (i / 4) && (W.slice (i / 4)).live && (W.slice (i / 4)).lmask.getLsbD (i % 4)

/-- Predicate registers: p0 reads as all ones (R37). -/
def Wave.pred (W : Wave) (p : Nat) : Word := if p == 0 then BitVec.allOnes 32 else smGetD W.p p 0

/-- Lanes a guard selects (R90). -/
def Wave.guard (W : Wave) (g : BitVec 4) : LaneMask :=
  let m := W.pred (g.toNat % 8)
  if g.getLsbD 3 then ~~~m else m

/-- WEPC as trap entry writes it: RUNPOS and PC of the gang's lowest slice (R45, R181). -/
def epcOf (runpos : BitVec 5) (pc : BitVec 53) : DWord := 0#1 ++ runpos ++ 0#2 ++ pc ++ 0#3

/-- FPCTL's mode and FTZ (R45). -/
def Wave.rm (W : Wave) : RM := W.fpctl.extractLsb' 0 2
def Wave.ftz (W : Wave) : Bool := W.fpctl.getLsbD 2

/-- The word of a gang that was parked is performed: its replay is over (R427). -/
def Wave.endReplay (W : Wave) (g : BitVec 8) : Wave :=
  { W with
    wpark := if W.replay && g == W.parkGang then 0 else W.wpark
    parked := if W.replay && g == W.parkGang then false else W.parked
    replay := if g == W.parkGang then false else W.replay }

/-- Whether a gang's next word is the last its run may hold: a slice of it stands at RUNPOS 23 (R26). -/
def Wave.lastOfRun (W : Wave) (g : BitVec 8) : Bool := (slicesOf g).any fun i => (W.slice i).runpos == 23#5

/-- Retirement (R50, R116): the slices of the gang take their next place, the gang parts where their PCs differ, WCLOCK
counts the slices, and a replay of parked lanes is over (R427). -/
def Wave.retireTo (W : Wave) (g : BitVec 8) (f : Nat → Slice → Slice) : Wave :=
  let W1 := ((W.mapGang g f).regroup g).endReplay g
  { W1 with
    wclock := W1.wclock + BitVec.ofNat 64 (slicesOf g).length
    blockedAt := none
    ordered := false
    lastGang := BitVec.ofNat 3 (lowSlice g) }

/-- Retirement to the next word (R88). -/
def Wave.retire (W : Wave) (g : BitVec 8) (bnd : Bool) : Wave := W.retireTo g fun _ sl => sl.goto (sl.pc + 1) false bnd

/-- Sets the hold of a gang's slices. -/
def Wave.holdGang (W : Wave) (g : BitVec 8) (h : Hold) : Wave := W.mapGang g fun _ sl => { sl with hold := h }

/-- Lets the waiting slices of a wave try again. -/
def Wave.wake (W : Wave) : Wave :=
  { W with slices := W.slices.map fun sl => match sl.hold with
      | .wait _ => { sl with hold := .free }
      | _ => sl }

/-- Whether a gang may issue: its slices are free, the wave is not parked, and no other gang is in the handler (R181,
R427). -/
def Wave.gangReady (W : Wave) (g : BitVec 8) : Bool :=
  g != 0 && (slicesOf g).all (fun i => (W.slice i).hold == .free) && (!W.parked || (W.replay && g == W.parkGang)) &&
    (!W.intrap || g &&& ~~~W.trapGang == 0)

def Wave.hasReady (W : Wave) : Bool := W.gangIds.any fun i => W.gangReady (W.gangOf i)

/-- The octant of a wave (R14). -/
def octantOf (w : Nat) : Nat := w % 8

/-- A wave that has become ready joins the tail of its octant's list (R397). -/
def makeReady (s : State) (t w : Nat) : State :=
  match team? s t with
  | none => s
  | some T =>
    match T.waves[w]? with
    | none => s
    | some W =>
      if !W.hasReady then s
      else modCore s T.core fun C =>
        let o := octantOf w
        if C.active == some t && C.slot.getD o none != some w && !(C.ready.getD o []).contains w then
          { C with ready := modAt C.ready o fun l => l ++ [w] }
        else C

/-- Wakes a wave of a team in an active bank and puts it on its list. In the shadow bank a waiting word is compared again when its team
comes back (R228). -/
def wakeWave (s : State) (t w : Nat) : State :=
  if (team? s t).any fun T => T.st == .active then makeReady (modWave s t w Wave.wake) t w else s

/-- Wakes every wave of a team. -/
def wakeTeam (s : State) (t : Nat) : State :=
  match team? s t with
  | none => s
  | some T => (List.range T.waves.length).foldl (fun s w => wakeWave s t w) s

/-- Wakes every wave of every team of a launch. -/
def wakeLaunch (s : State) (l : Nat) : State :=
  (s.teams.filter fun p => p.2.launch == l).foldl (fun s p => wakeTeam s p.1) s

/-! The load cache (R353, R354). -/

/-- The core whose request port sent a request (R453). -/
def Rid.core (r : Rid) : Option Nat := if r.unit < 8 then some (r.die * 200 + r.tile * 8 + r.unit) else none

/-- Removes lines of a core's load cache. A fill under way for such a line is dropped, so that it does not bring back
what was removed. -/
def dropLines (s : State) (core : Nat) (hit : Nat → Bool) : State :=
  let s1 := modCore s core fun C => { C with lcache := C.lcache.filter fun l => !hit l.1 }
  { s1 with reqs := s1.reqs.map fun r =>
      if Rid.core r.rid == some core && hit (loc s r.pa / 128) then { r with fill := false } else r }

/-- Lines the load cache of a core holds: 64 KiB (R339). -/
def lcacheLines : Nat := 512

/-- A line comes into the load cache. When it is full, a line of the turn's choice makes room (R339). -/
def Core.fillLine (C : Core) (line : Nat) (l : CLine) (choice : Nat) : Core :=
  let old := C.lcache.filter fun x => x.1 != line
  let kept := if old.length < lcacheLines then old else old.eraseIdx (choice / 2 % old.length)
  { C with lcache := smSet kept line l }

/-- The whole load cache is invalidated (R354). -/
def invalidate (s : State) (core : Nat) : State := dropLines s core fun _ => true

/-! Causes and stops. -/

/-- The code of a cause (R423). -/
def Cause.code : Cause → Nat
  | .profile => 0x04 | .illegalEnc => 0x01 | .illegalPair => 0x02 | .priv => 0x03 | .syncParted => 0x11
  | .divstackOvf => 0x10 | .misalign => 0x08 | .scratchBounds => 0x0B | .peerRetired => 0x0C | .extentMiss => 0x09
  | .perm => 0x0A | .copyFail => 0x1A | .poison => 0x18 | .fpInvalid => 0x20 | .fpDivZero => 0x21
  | .fpOverflow => 0x22 | .fpUnderflow => 0x23 | .fpInexact => 0x24 | .chainAbort => 0x19 | .trap => 0x30 | .bkpt => 0x31

/-- The cause of exception i in the order of R67. -/
def fpCause (i : Nat) : Cause :=
  match i with
  | 0 => .fpInvalid | 1 => .fpDivZero | 2 => .fpOverflow | 3 => .fpUnderflow | _ => .fpInexact

/-- The first sequence number from n on that no unacknowledged request of a unit has: a unit never reuses a SEQ while a request with it
is unacknowledged (R477). -/
def freeSeq (s : State) (unit : Rid) (n : Nat) : Nat :=
  (((List.range (s.reqs.length + 1)).map fun i => (n + i) % 2 ^ 20).find? fun k =>
    !s.reqs.any fun r => r.rid == { unit with seq := k }).getD n

/-- The next request identity of a core's port (R453). -/
def nextRid (s : State) (core : Nat) : Rid × State :=
  let unit : Rid := ⟨s.moduleNo, dieOf core, clusterOf core % 25, core % 8, 0⟩
  let n := freeSeq s unit ((core? s core).elim 0 (·.seq))
  ({ unit with seq := n }, modCore s core fun C => { C with seq := (n + 1) % 2 ^ 20 })

/-- The next identity of a Contrail context (R453). -/
def nextCtxRid (s : State) (x : Nat) : Rid × State :=
  let unit : Rid := ⟨s.moduleNo, x / 16 / 25, x / 16 % 25, 8 + x % 16, 0⟩
  let n := freeSeq s unit ((smGet? s.ctxs x).elim 0 (·.seq))
  ({ unit with seq := n }, modCtx s x fun X => { X with seq := (n + 1) % 2 ^ 20 })

/-- The next identity of a cluster's Parhelion engine (R453). -/
def nextPhRid (s : State) (k : Nat) : Rid × State :=
  let unit : Rid := ⟨s.moduleNo, k / 25, k % 25, 24, 0⟩
  let n := freeSeq s unit ((smGet? s.clusters k).elim 0 (·.phSeq))
  ({ unit with seq := n }, modCluster s k fun C => { C with phSeq := (n + 1) % 2 ^ 20 })

/-- Where a cause stands in the table of R423: 0 is the highest. -/
def Cause.rank : Cause → Nat
  | .profile => 0 | .illegalEnc => 1 | .illegalPair => 2 | .priv => 3 | .syncParted => 4 | .divstackOvf => 5 | .misalign => 6
  | .scratchBounds => 7 | .peerRetired => 8 | .extentMiss => 9 | .perm => 10 | .copyFail => 11 | .poison => 12
  | .fpInvalid | .fpDivZero | .fpOverflow | .fpUnderflow | .fpInexact => 13
  | .chainAbort => 14
  | .trap | .bkpt => 15

/-- The highest of several causes, the first of equals (R423). -/
def highest (l : List (Cause × Nat)) : Option (Cause × Nat) :=
  l.foldl (fun b x => match b with
    | none => some x
    | some y => if x.1.rank < y.1.rank then some x else some y) none

/-- How a word that does not complete stops. -/
inductive Stop where
  | trap (c : Cause) (arg : DWord)
  | wait (k : WaitKind) (s : State)
  | off
  | fault (f : Fault)

/-- A trap when a test holds. -/
def trapIf (b : Bool) (c : Cause) (arg : DWord := 0) : Except Stop Unit := if b then .error (.trap c arg) else .ok ()

/-- A wait when a test holds: the word has no effect and issues again. -/
def waitIf (b : Bool) (k : WaitKind) (s : State) : Except Stop Unit := if b then .error (.wait k s) else .ok ()

/-- An event that is not possible in the state: it does not happen. -/
def needs (b : Bool) : Except Stop Unit := if b then .ok () else .error .off

/-- The value of an option, or an event that is not possible. -/
def need {α : Type} (o : Option α) : Except Stop α :=
  match o with
  | some x => .ok x
  | none => .error .off

/-! The service queue (R184). -/

/-- Records a ring of 2^LOG2 holds, LOG2 in the limits of its register; other values hold none (R184, R430). -/
def ringSize (reg : DWord) (lo hi : Nat) : Nat :=
  let l := bits reg.toNat 4 0
  if lo ≤ l && l ≤ hi then 2 ^ l else 0

/-- Writes one record at SQWR.WR, advances WR and notes it (R184, R501). -/
def sqWrite (s : State) (p : Nat) (P : Part) (rec : List Byte) : State :=
  let n := ringSize P.sqsize 4 16
  let wr := P.sqwr.toNat
  let s1 := ownWrite s (bits P.sqbase.toNat 51 12 * 4096 + 64 * (wr % n)) rec
  let wr' := (wr + 1) % 2 ^ 32
  emitOut (modPart s1 p fun P => { P with sqwr := BitVec.ofNat 64 wr' }) (.sqnote p wr')

/-- Room in the service ring. -/
def sqRoom (P : Part) : Bool :=
  (P.sqwr.toNat + 2 ^ 32 - P.sqrd.toNat) % 2 ^ 32 < ringSize P.sqsize 4 16

/-- Lets waiting records in while there is room, in their order; no record is dropped (R184). -/
def sqDrain (p : Nat) : Nat → State → State
  | 0, s => s
  | n + 1, s =>
    match smGet? s.parts p with
    | none => s
    | some P =>
      match P.sqPend with
      | [] => s
      | r :: rs => if sqRoom P then sqDrain p n (modPart (sqWrite s p P r) p fun P => { P with sqPend := rs }) else s

/-- A record for the service queue waits behind every earlier record of the partition (R184). -/
def sqPush (s : State) (p : Nat) (rec : List Byte) : State :=
  let s1 := modPart s p fun P => { P with sqPend := P.sqPend ++ [rec] }
  match smGet? s1.parts p with
  | none => s1
  | some P => sqDrain p P.sqPend.length s1

/-- The records of R385, R425 and R443. -/
def sqRecord (node reason cause wave firing team index : Nat) (epc arg : DWord) (park intrap : Nat) : List Byte :=
  toBytes 2 node ++ toBytes 1 reason ++ toBytes 1 cause ++ toBytes 1 wave ++ toBytes 3 0 ++ toBytes 8 firing ++
    toBytes 4 team ++ toBytes 4 index ++ toBytes 8 epc.toNat ++ toBytes 8 arg.toNat ++ toBytes 4 park ++
    toBytes 1 intrap ++ toBytes 19 0

/-- The answer of a management request (R501). -/
def answer (s : State) (p port : Nat) (tag : Word) (status : Nat) (result : DWord := 0) : State :=
  emitOut s (.answer p port tag status result)

/-! Node state blocks (R372). -/

def nodeFields (n : Node) : List Byte :=
  toBytes 8 n.committed ++ toBytes 8 n.freed ++ toBytes 8 n.firings ++ toBytes 4 n.refused ++ toBytes 4 n.errors ++
    toBytes 2 n.live ++ toBytes 2 n.drains

/-- Changes a node and mirrors its state block (R372). -/
def modNode (s : State) (p n : Nat) (f : Node → Node) : State :=
  match (smGet? s.parts p).bind fun P => smGet? P.nodes n with
  | none => s
  | some N =>
    let N1 := f N
    let s1 := modPart s p fun P => { P with nodes := smSet P.nodes n N1 }
    if nodeFields N1 == nodeFields N then s1 else ownWrite s1 (N1.addr + 384) (nodeFields N1)

def node? (s : State) (p n : Nat) : Option Node := (smGet? s.parts p).bind fun P => smGet? P.nodes n

/-! Chains. -/

/-- Sends a Jetstream flit. -/
def jput (s : State) (f : JFlit) : State := { s with jnet := s.jnet ++ [f] }

/-- A control flit of a chain (R466, R467). -/
def Chain.flit (c : Chain) (type : FlitType) (src dest arg : Nat) : JFlit :=
  { type := type, dest := dest, src := src, chain := c.id, rank := c.rank, count := c.count, anchorMode := c.anchorMode,
    cmode := c.cmode, anchor := c.anchor, row := 0, seg := 0, arg := arg, last := 0, cells := [] }

def chain? (T : Team) (id : Nat) : Option Chain := T.chains.find? fun c => c.id == id
def Team.modChain (T : Team) (id : Nat) (f : Chain → Chain) : Team :=
  { T with chains := T.chains.map fun c => if c.id == id then f c else c }

/-- Members a member knows (R473): in LINE its predecessor and NEXT, in ANCHOR the root or the READY sources. -/
def Chain.known (c : Chain) : List Nat := (if c.root then [] else [c.next]) ++ c.ready.map (·.2)

/-- An open chain (R266): not aborted and not closed. -/
def Chain.isOpen (c : Chain) : Bool :=
  match c.st with
  | .aborted | .closed => false
  | _ => true

/-- A member learns of an abort (R266, R473): its reservation is released, ABORT goes to every member it knows. -/
def abortChain (s : State) (t id why : Nat) : State :=
  match (team? s t).bind fun T => (chain? T id).map fun c => (T, c) with
  | none => s
  | some (T, c) =>
    if !c.isOpen then s
    else
      let s1 := setTeam s t (T.modChain id fun c => { c with st := .aborted, why := why, requests := [], inbox := [] })
      let s2 := modCore s1 T.core fun C =>
        { C with reservations := C.reservations.filter fun r => !(r.chain == id && r.team == t) }
      wakeTeam (c.known.foldl (fun s d => jput s (c.flit .abort T.core d why)) s2) t

/-- A pinned team (R250, R261): an open chain, an incomplete cluster-form operation, or a tile it has lent. -/
def MxKind.mask : MxKind → BitVec 8
  | .zero _ m => m
  | .ldw _ m => m
  | .loop _ _ _ _ _ _ _ _ _ _ m => m
  | .drain _ _ _ _ _ _ _ _ _ _ m => m
  | _ => 0

def Team.pinned (T : Team) : Bool :=
  T.chains.any Chain.isOpen || T.tiles.any (·.lent) || T.mxq.any fun o => !o.done && !o.cut && o.kind.mask != 0

/-- The tile an operation works on. -/
def MxKind.tile? : MxKind → Option Nat
  | .zero t _ => some t
  | .cfg t _ _ _ => some t
  | .ldw _ _ => none
  | .loop t _ _ _ _ _ _ _ _ _ _ => some t
  | .drain t _ _ _ _ _ _ _ _ _ _ => some t
  | .rd t _ _ _ _ _ _ => some t
  | .stat t _ _ => some t
  | .wr t _ _ _ _ => some t
  | .chain t _ _ _ _ _ => some t
  | .send _ _ _ _ _ => none
  | .recv _ _ _ => none

/-- Whether a team lends the tile an operation works on (R250). -/
def MxKind.lentBy (k : MxKind) (T : Team) : Bool := k.tile?.any fun i => (T.tiles[i]?).any (·.lent)

/-- Arrivals that leave every engine's buffer (R404). -/
def dropArrivals (s : State) (f : Arrival → Bool) : State :=
  { s with cores := s.cores.map fun c => (c.1, { c.2 with arrivals := c.2.arrivals.filter fun a => !f a }) }

/-- R259: an operation cut short counts as complete, leaves the buffers of its target engines (R404), and ABT is set in the issuer's tile and in each remaining target
tile. -/
def cutOp (s : State) (t : Nat) (op : MxOp) : State :=
  match team? s t with
  | none => s
  | some T =>
    let s1 := dropArrivals (setTeam s t { T with mxq := T.mxq.map fun o => if o.id == op.id then { o with cut := true } else o })
      fun a => a.team == t && a.op == op.id
    match op.kind.tile? with
    | none => s1
    | some i =>
      (t :: op.targets.map (·.2)).foldl (fun s u => modTeam s u fun T => { T with tiles := modAt T.tiles i fun x => { x with abt := true } }) s1

/-- Cuts every incomplete cluster-form operation of a team, and those of other teams of the launch that have a lent
tile of this team as a target (R259). -/
def cutClusterOps (s : State) (t : Nat) : State :=
  match team? s t with
  | none => s
  | some T =>
    let hits := (s.teams.filter fun p => p.2.launch == T.launch).flatMap fun p =>
      (p.2.mxq.filter fun o => !o.done && !o.cut && o.kind.mask != 0 &&
        (p.1 == t || (o.kind.lentBy T && o.targets.any fun q => q.2 == t))).map fun o => (p.1, o)
    hits.foldl (fun s h => cutOp s h.1 h.2) s

/-! Copies and contexts. -/

/-- The copy status word (R212). -/
def copyStatus (tlv code : Nat) : DWord := BitVec.ofNat 64 (tlv % 2 ^ 48 * 2 ^ 16 + code)

/-- A context enters its fault with COPY_FAIL (R319, R336). -/
def Ctx.failCopy (x : Ctx) : Ctx := { x with st := .faulting, kcause := 0x1A, karg := 0, faultVa := 0, copyFail := false }

/-- A copy of a context is no longer in flight: its status is written, without .ns (R319). -/
def Ctx.dropCopy (x : Ctx) (c : SCopy) (code : Nat) : Ctx :=
  let y := { x with
    kout := x.kout - 1
    copies := x.copies.filter fun d => d.num != c.num
    kbusy := x.kbusy.filter fun b => b.2 != c.num }
  if c.ns then y else { y with k := smPut 0 y.k c.d (copyStatus c.num code), kpoison := nsDel y.kpoison c.d }

/-- A copy of a context completes (R319). A failure under .ns faults the context once its running word has finished: at once between
words, and in the wait of a STOPC (R305). A fault already recorded stands. -/
def Ctx.endCopy (x : Ctx) (c : SCopy) (code : Nat) : Ctx :=
  let y := x.dropCopy c code
  if !c.ns || code == 1 then y
  else match y.st with
    | .stopping => y.failCopy
    | .running => if y.wait.isNone && !y.redo then y.failCopy else { y with copyFail := true }
    | .parked => { y with copyFail := true }
    | _ => y

/-- A context's word is done, and it goes to another (R307); a failed copy has waited for that (R319). -/
def Ctx.goTo (x : Ctx) (pc : BitVec 53) : Ctx :=
  let y := { x with kpc := pc, wait := none, st := .running, stamp := 0, redo := false }
  if x.copyFail then y.failCopy else y

/-- A context goes to its next word. -/
def Ctx.nextWord (x : Ctx) : Ctx := x.goTo (x.kpc + 1)

/-- R306: a kill stops the contexts of the launch's teams with KCAUSE 0x00; their copies end with CODE 0x05. -/
def Ctx.kill (x : Ctx) : Ctx :=
  let y := x.copies.foldl (fun y c => y.dropCopy c 5) x
  { y with st := .faulted, kcause := 0, karg := 0, copyFail := false, redo := false, deferred := [], kbusy := [], reqBusy := [], storeQ := [], owc := 0, wait := none,
           killed := true }

/-- The requests of a context are gone with a kill of its starting team (R443): a context that had stopped keeps its state. -/
def Ctx.settled (x : Ctx) : Ctx := { x with reqBusy := [], storeQ := [], owc := 0 }

/-- A codebook slot is empty once the team whose tag it holds has ended (R326). -/
def dropBooks (tags : List Nat) (bs : List Codebook) : List Codebook :=
  bs.map fun b => if b.tag.any fun t => tags.contains t then ⟨none, [], [], false, 0⟩ else b

/-- A killed pass stops after the pixel in progress, with CODE 0x05 (R298). -/
def Pass.kill (p : Pass) : Pass :=
  match p.st with
  | .free => p
  | _ => { p with st := .ending, code := 5 }

/-! Scratchpad units (R437, R441). -/

/-- Releases the physical units a team holds: they are cleared in the background (R438, R441). A victim its claims had chosen
stays where it is. -/
def releaseUnits (s : State) (t core : Nat) : State :=
  let s1 := (((core? s core).elim [] (·.claims)).filter fun c => c.team == t).foldl (fun s c => match c.victim with
    | some (v, j) => modTeam s v fun V => if c.tile then { V with tileSt := setAt V.tileSt j .present }
        else { V with regSt := setAt V.regSt j .present }
    | none => s) s
  modCore s1 core fun C =>
    let rel (p : Phys) : Phys := match p with
      | .held u i => if u == t then .clearing else .held u i
      | p => p
    { C with
      phys := C.phys.map rel
      physTiles := C.physTiles.map rel
      claims := C.claims.filter fun c => c.team != t
      reservations := C.reservations.filter fun r => r.team != t
      rays := C.rays.filter fun r => r.team != t
      active := if C.active == some t then none else C.active
      shadow := if C.shadow == some t then none else C.shadow
      ready := if C.active == some t then C.ready.map fun _ => [] else C.ready
      slot := if C.active == some t then C.slot.map fun _ => none else C.slot }

/-- Gives an image of the save area back (R440). -/
def freeImage (s : State) (p : Nat) (im : Option Nat) : State :=
  match im with
  | none => s
  | some i => modPart s p fun P => { P with images := nsDel P.images i }

/-! Reserved queue slots. -/

/-- Wakes every wave of a partition (a queue slot freed, R222). -/
def wakePart (s : State) (p : Nat) : State :=
  (s.teams.filter fun q => q.2.part == p).foldl (fun s q => wakeTeam s q.1) s

/-- A reserved queue slot is named by its node and its place: node × 2^32 + slot. Released slots are free again (R223). -/
def releaseSlots (s : State) (p : Nat) (slots : List Nat) : State :=
  if slots.isEmpty then s
  else wakePart (slots.foldl (fun s x =>
    modNode s p (x / 2 ^ 32) fun N => { N with reserved := nsDel N.reserved (x % 2 ^ 32) }) s) p

/-! Requests at the home. -/

/-- Bytes that the spec leaves open, in place of data that cannot be read (R445, R490). -/
def freeBytes (s : State) (n : Nat) : List Byte × State :=
  ((List.range n).map fun i => Config.freeByte (s.fresh + i), { s with fresh := s.fresh + n })

/-- The marks of the granules that n bytes touch as a PSN mask (R453). -/
def psnMask (s : State) (pa n : Nat) : BitVec 8 :=
  BitVec.ofNat 8 ((List.range ((pa % 16 + n + 15) / 16)).foldl (fun a i => if physPsn s (pa / 16 * 16 + 16 * i) then a + 2 ^ i else a) 0)

/-- A line as its home holds it, for a fill of the load cache (R353, R354). -/
def homeLine (s : State) (pa : Nat) : CLine :=
  let b := pa / 128 * 128
  ⟨physGet s b 128, BitVec.ofNat 8 (((List.range 8).zip (physPsns s b 128)).foldl (fun a p => if p.2 then a + 2 ^ p.1 else a) 0)⟩

/-- A home performs a request whole (R341, R356, R364, R445): an atomic leaves its granule's mark. -/
def performReq (s : State) (r : MemReq) : State × MemReq :=
  match r.kind with
  | .read =>
    let ln : Option CLine := if r.fill then some (homeLine s r.pa) else none
    (s, { r with st := .answered (physGet s r.pa r.size) (psnMask s r.pa r.size), line := ln })
  | .write =>
    let s1 := physSet s r.pa r.data
    (if r.bad then physMark s1 r.pa r.size true else s1, { r with st := .acked })
  | .atomic =>
    let old := physGet s r.pa r.size
    let new := toBytes r.size (atomicOp r.ty.toNat r.aop.toNat (ofBytes old) (ofBytes r.data) (ofBytes r.cmp))
    let s1 := physSet s r.pa new
    (if r.bad then physMark s1 r.pa r.size true else s1, { r with st := .answered old (psnMask s r.pa r.size) })
  | .reduction =>
    let old := physGet s r.pa r.size
    let new := toBytes r.size (atomicOp r.ty.toNat r.aop.toNat (ofBytes old) (ofBytes r.data) 0)
    let s1 := physSet s r.pa new
    (if r.bad then physMark s1 r.pa r.size true else s1, { r with st := .acked })

/-- A request at a stack out of service (R490): poisoned data, or discarded and acknowledged; the stack counts it. -/
def discardReq (s : State) (r : MemReq) : State × MemReq :=
  let s1 := match place s r.pa with
    | some p => { s with hbm := modAt s.hbm p.stack fun h => { h with discarded := h.discarded + 1 } }
    | none => s
  match r.kind with
  | .read | .atomic =>
    let (bs, s2) := freeBytes s1 r.size
    (s2, { r with st := .answered bs 0xFF#8, fill := false })
  | _ => (s1, { r with st := .acked })

/-! Kill (R443). -/

/-- The team a requester belongs to. -/
def requesterTeam (s : State) : Requester → Option Nat
  | .wave t _ => some t
  | .context c => (smGet? s.ctxs c).map fun x => teamKey x.part x.team
  | .matrix t => some t
  | .pass k i => ((smGet? s.clusters k).bind fun C => C.passes[i]?).map (·.team)
  | .stream t _ => some t
  | .request _ | .host _ _ | .own => none
  | .copy t _ => some t
  | .scopy c _ => (smGet? s.ctxs c).map fun x => teamKey x.part x.team

/-- The partition of a requester. -/
def requesterPart (s : State) (q : Requester) : Nat := ((requesterTeam s q).bind (team? s)).elim 0 (·.part)

/-- The partition of a request: another module's names it, and a combined one is of the partition of its parts (R476). -/
def MemReq.part (s : State) (r : MemReq) : Nat :=
  match r.who with
  | .request rid =>
    if r.rid.mod != s.moduleNo then r.lane
    else ((s.reqs.find? fun q => q.rid == rid).map fun q => requesterPart s q.who).getD 0
  | .host port qp => ((s.qps.find? fun q => q.port == port && q.num == qp).map (·.part)).getD 0
  | who => requesterPart s who

/-- In-flight requests of a kill are each performed or not (R443, R447): bit i of the turn's choice decides the i-th.
What a gateway has sent on as part of one reduction is performed with that (R476), and another module performs what has reached it. -/
def settleReqs (s : State) (dead : MemReq → Bool) : State :=
  let joined (r : MemReq) : Bool := s.heldRed.any fun h => h.parts.contains r.rid && s.reqs.any fun q => q.rid == h.rid
  let (s1, _) := (s.reqs.filter dead).foldl (fun a r =>
    let (s, i) := a
    (match r.st with
      | .flight => if bit s.choice i && r.peer.isNone && !joined r && !remote s r.pa then (performReq s r).1 else s
      | _ => s, i + 1)) (s, 0)
  let gone := ((s.reqs.filter dead).map (·.who))
  { s1 with
    reqs := s1.reqs.filter fun r => !dead r
    far := s1.far.filter fun l => !gone.contains l.who }

/-- A wave's copy status word comes into its pair, which is busy no longer (R212); z discards it. -/
def Wave.copyDone (W : Wave) (d num code : Nat) : Wave :=
  let x := (copyStatus num code).toNat
  let W1 := { W with busy := W.busy.filter fun b => b.2 != .copy num }
  if 0xC0 ≤ d && d < 0xF8 then
    let n := d - 0xC0
    { W1 with
      s := smPut 0 (smPut 0 W1.s n (BitVec.ofNat 32 x)) (n + 1) (BitVec.ofNat 32 (x / 2 ^ 32))
      spoison := nsDel (nsDel W1.spoison n) (n + 1) }
  else W1

/-- The copy timeline reaches n when every copy numbered n or below has completed. -/
def Team.copyTimeline (T : Team) : Nat :=
  match T.copies with
  | [] => T.copyNum
  | c :: r => (r.foldl (fun a d => min a d.num) c.num) - 1

/-- Whether a wave's copy writes what lies outside its team's own scratchpad (R363). -/
def WCopy.outside (c : WCopy) (t : Nat) : Bool := !c.toScratch || c.dests.any fun d => d.1 != t && d.2.2 != 3

/-- The smaller of a number and one already noted. -/
def noteLeast (o : Option Nat) (n : Nat) : Option Nat := some (o.elim n (min n))

/-- A copy of a team completes: its status word is written, its number counts on the timeline (R212). -/
def Team.endCopy (T : Team) (t : Nat) (c : WCopy) (code : Nat) : Team :=
  let T1 := { T with
    copies := T.copies.filter fun d => d.num != c.num
    copyOut := if c.outside t then noteLeast T.copyOut c.num else T.copyOut
    waves := modAt T.waves c.wave fun W => W.copyDone c.d c.num code }
  { T1 with copyTl := BitVec.ofNat 64 T1.copyTimeline }

/-- The copies of a team that is killed, or whose partition halts, end with CODE 0x05 (R215). -/
def Team.cutCopies (T : Team) (t : Nat) : Team := T.copies.foldl (fun T c => T.endCopy t c 5) T

/-- A team ended by a kill holds nothing (R443, R390). -/
def Team.kill (T0 : Team) : Team :=
  let T := T0.cutCopies T0.key
  { T with
    st := .ended
    killed := true
    forced := false
    mxq := []
    image := none
    arena := []
    closed := List.range 16
    waves := T.waves.map fun W =>
      { W with slices := W.slices.map fun sl => { sl with live := false }, storeQ := [], busy := [], slots := [], sending := none, resendAt := none,
               refused := false, taken := ([], none), late := none, ordered := false, parked := false, replay := false } }

/-- A node that is being disabled is off once no launch of it lives (R368): its records that no launch consumed are discarded,
and the waiting NODEOFF is answered (R501). -/
def nodeIdle (s : State) (p n : Nat) : State :=
  match node? s p n with
  | none => s
  | some N =>
    if !N.stopping || N.live != 0 then s
    else
      let hit (q : Pending) : Bool := match q with
        | .nodeoff _ _ m => m == n
        | _ => false
      let off (N : Node) : Node := { N with on := false, stopping := false, stream := [], due := [], used := [], reserved := [], drainReq := false }
      let waiting := ((smGet? s.parts p).elim [] (·.pend)).filter hit
      let s1 := modPart s p fun P => { P with nodes := smMod P.nodes n off, pend := P.pend.filter fun q => !hit q }
      waiting.foldl (fun s q => match q with
        | .nodeoff tag port _ => answer s p port tag 0
        | _ => s) s1

/-- R389, R380: a launch counts as ended; its batch is freed and LIVE falls. -/
def launchOver (s : State) (l : Nat) : State :=
  match smGet? s.launches l with
  | none => s
  | some L =>
    if L.ended then s
    else
      let s1 := modLaunch s l fun L => { L with ended := true }
      let s2 := modNode s1 L.part L.node fun N =>
        let n := L.batch.length
        let N1 := { N with live := N.live - 1 }
        if N.root then
          let sizes (f : Nat) : Nat :=
            ((s1.launches.find? fun p => p.2.part == L.part && p.2.node == L.node && N.firstLaunch ≤ p.1 && p.2.firing == f).map
              fun p => p.2.batch.length).getD 0
          let first := ((s1.launches.filter fun p => p.2.part == L.part && p.2.node == L.node && N.firstLaunch ≤ p.1 && !p.2.ended).map
            fun p => p.2.firing).foldl min N.firings
          let ends := nsAdd N.endedFirings L.firing
          let (k, e) := (ends.filter fun f => f < first).foldl (fun a f => (a.1 + sizes f, nsDel a.2 f)) (0, ends)
          { N1 with freed := N1.freed + k, endedFirings := e }
        else { N1 with freed := N1.freed + n, used := L.slots.foldl nsDel N1.used }
      nodeIdle s2 L.part L.node

/-- Answers waiting KILL commands of a launch (R501). -/
def answerKills (s : State) (p l : Nat) : State :=
  match smGet? s.parts p with
  | none => s
  | some P =>
    let hit (q : Pending) : Bool := match q with
      | .kill _ _ m => m == l
      | _ => false
    (P.pend.filter hit).foldl (fun s q => match q with
      | .kill tag port _ => answer s p port tag 0
      | _ => s) (modPart s p fun P => { P with pend := P.pend.filter fun q => !hit q })

/-- Answers waiting FORCE commands of a team, which has left its bank (R442, R501). -/
def answerForces (s : State) (p t : Nat) : State :=
  match smGet? s.parts p with
  | none => s
  | some P =>
    let hit (q : Pending) : Bool := match q with
      | .force _ _ u => u == t
      | _ => false
    (P.pend.filter hit).foldl (fun s q => match q with
      | .force tag port _ => answer s p port tag 0
      | _ => s) (modPart s p fun P => { P with pend := P.pend.filter fun q => !hit q })

/-- A team that ends gives back its estimate, where it was charged, and is charged the energy `a` that the counters attribute to it
(R515, R517). -/
def settleEnergy (s : State) (t : Nat) (a : DWord) : State :=
  match team? s t with
  | none => s
  | some T =>
    let e := if T.charged then (smGet? s.launches T.launch).elim 0 (·.energy) else 0
    let k := 0xF20 + T.part
    modPart { s with energy := smPut 0 s.energy k (smGetD s.energy k 0 + a) } T.part fun P =>
      { P with account := P.account + BitVec.ofNat 64 e - a }

/-- What the counters attribute to a team that a kill ends: nothing to one that never ran, else a free amount (log entry 68). -/
def settleKilled (s : State) (t : Nat) : State :=
  if (team? s t).any (·.created) then settleEnergy { s with fresh := s.fresh + 1 } t (Config.freeEnergy s.fresh) else settleEnergy s t 0

/-- A kill acts on every team of a launch at once (R443). `rec` is the record of R425, already due, or none for the
record of reason 0x21 that names a team. -/
def killLaunch (s : State) (l : Nat) (t : Nat) (rec : Option (List Byte)) : State :=
  match smGet? s.launches l with
  | none => s
  | some L =>
    if L.ended || L.killed then s
    else
      let T0 := team? s t
      let r := match rec with
        | some r => r
        | none => sqRecord L.node 0x21 0 0 L.firing (T0.elim 0 (·.serial)) (T0.elim 0 (·.index)) 0 0 0 0
      let s0 := match rec with
        | some r => sqPush s L.part r
        | none => s
      let s1 := modLaunch s0 l fun L => { L with killed := true }
      let ts := (s1.teams.filter fun p => p.2.launch == l && p.2.st != .ended).map (·.1)
      let mine (q : Requester) : Bool := match requesterTeam s1 q with
        | some u => ts.contains u
        | none => false
      let s2 := ts.foldl (fun s u =>
        let ids := ((team? s u).elim [] (·.chains)).map (·.id)
        cutClusterOps (ids.foldl (fun s id => abortChain s u id 2) s) u) s1
      let s3 := dropArrivals (settleReqs s2 fun q => mine q.who) fun a => ts.contains a.team
      let s4 := { s3 with
        ctxs := s3.ctxs.map fun p =>
          if !ts.contains (teamKey p.2.part p.2.team) then p
          else (p.1, if p.2.st != .stopped && !p.2.killed then p.2.kill else p.2.settled)
        clusters := s3.clusters.map fun p =>
          (p.1, { p.2 with
            passes := p.2.passes.map fun x => if ts.contains x.team then x.kill else x
            codebooks := dropBooks (ts.filterMap fun u => (team? s3 u).bind fun T =>
              if clusterOf T.core == p.1 then some T.tag else none) p.2.codebooks })
        mails := s3.mails.filter fun m => !(m.kind == .mail && ts.contains m.fromTeam) }
      let s5 := ts.foldl (fun s u =>
        match team? s u with
        | none => s
        | some T => releaseSlots (freeImage (setTeam (releaseUnits s u T.core) u T.kill) T.part T.image) T.part
            (T.waves.flatMap (·.slots))) s4
      let s6 := modPart s5 L.part fun P => { P with calls := P.calls.filter fun c => !ts.contains c.team }
      let s7 := launchOver (ts.foldl settleKilled s6) l
      let s8 := if rec.isSome then s7 else sqPush s7 L.part r
      answerKills (ts.foldl (fun s u => answerForces s L.part u) s8) L.part l

/-! Traps. -/

/-- R181: entry to the handler. The other gangs issue nothing until ERET. -/
def Wave.enter (W : Wave) (g : BitVec 8) (cause : Nat) (arg epc : DWord) (deferred : Bool) : Wave :=
  let base : BitVec 53 := W.whandler.extractLsb' 3 53
  let W1 := (W.mapGang g fun _ sl => sl.goto base true false).regroup g
  { W1 with
    cause := BitVec.ofNat 8 cause
    wepc := epc
    wtraparg := arg
    descs := W1.descs.filter fun q => !g.getLsbD q.1
    intrap := true
    defer := deferred
    trapGang := g
    parked := false
    replay := false
    ordered := false
    blockedAt := none }

/-- R181, R49, R425: a recoverable trap of a gang, with the WEPC it writes. With no handler to enter, the record goes to
the service queue and the launch is killed. -/
def takeTrapAt (s : State) (t w : Nat) (g : BitVec 8) (cause : Nat) (arg epc : DWord) (deferred : Bool) : State :=
  match team? s t with
  | none => s
  | some T =>
    match T.waves[w]? with
    | none => s
    | some W =>
      if W.whandler.getLsbD 0 && !W.intrap then setTeam s t (T.setWave w (W.enter g cause arg epc deferred))
      else
        let L := smGet? s.launches T.launch
        killLaunch s T.launch t (some (sqRecord (L.elim 0 (·.node)) 0x20 cause w (L.elim 0 (·.firing)) T.serial T.index
          epc arg W.wpark.toNat W.intrap.toNat))

/-- The WEPC of a trap taken at the word a gang is at. -/
def Wave.epcAt (W : Wave) (g : BitVec 8) : DWord := epcOf (W.slice (lowSlice g)).runpos (W.slice (lowSlice g)).pc

/-- A trap at the word that raises it (R28, R181). -/
def takeTrap (s : State) (t w : Nat) (g : BitVec 8) (c : Cause) (arg : DWord) : State :=
  takeTrapAt s t w g c.code arg ((wave? s t w).elim 0 fun W => W.epcAt g) false

def Wave.setLast (W : Wave) (g : BitVec 8) : Wave := { W with lastGang := BitVec.ofNat 3 (lowSlice g) }

/-- A gang that waits holds its place and gives up the slot (R27). -/
def holdAt (s : State) (t w : Nat) (g : BitVec 8) (h : Hold) : State := modWave s t w fun W => (W.holdGang g h).setLast g

/-! Long waits (R31). -/

/-- A long wait of a slice (R31). -/
def longHold : Hold → Bool
  | .bar _ | .wait .counter | .wait .barrier | .wait .mailbox | .wait .fifo => true
  | _ => false

/-- Whether a slice is blocked on one of some requests: on a result of it, or at a fence or a send, which wait for all (R27, R352). -/
def Hold.blockedOn (rids : List Rid) : Hold → Bool
  | .wait (.result on) | .async _ _ (.result on) => on.any fun b => match b with
      | .req r => rids.contains r
      | _ => false
  | .wait .fence | .wait .send => !rids.isEmpty
  | _ => false

/-- The rejected requests of a wave that wait for their retranslation or their page (R352). -/
def rejectedOf (s : State) (t w : Nat) : List Rid :=
  (s.reqs.filter fun r => r.who == .wave t w && (match r.st with
    | .waiting _ _ => true
    | _ => false)).map (·.rid)

/-- Whether a wave is in a long wait (R31): it is parked, or each of its live slices waits for what R31 lists or at REGANG,
and one waits for what R31 lists. A slice blocked on a request that was rejected counts as parked (R352). -/
def Wave.inLongWait (W : Wave) (rejected : List Rid) : Bool :=
  let long (h : Hold) : Bool := longHold h || h.blockedOn rejected
  (W.parked && !W.replay) || (W.slices.all (fun sl => !sl.live || long sl.hold || sl.hold == .regang) &&
    W.slices.any fun sl => sl.live && long sl.hold)

/-- The clock of a wave's long wait: it starts when the wait begins, with the threshold of that time (R392), and stops when the
wave waits for something else. A word that tries again does not end its wait. -/
def Wave.noteWait (W : Wave) (rejected : List Rid) (now th : Nat) : Wave :=
  if W.inLongWait rejected then
    if W.blockedAt.isSome then W else { W with blockedAt := some now, blockTh := th }
  else if W.hasReady then W
  else { W with blockedAt := none }

/-- The waits of the active teams' waves, noted before time passes (R31). -/
def noteWaits (s : State) : State :=
  s.cores.foldl (fun a p => match p.2.active with
    | none => a
    | some t => modTeam a t fun T => { T with
        waves := ((List.range T.waves.length).zip T.waves).map fun q => q.2.noteWait (rejectedOf s t q.1) s.now p.2.waitth }) s

/-- What a stop of a gang's word does to the machine. -/
def finishWave (s : State) (t w : Nat) (g : BitVec 8) (r : Except Stop State) : Host.Outcome State Fault Refusal :=
  match r with
  | .ok s' => .next s'
  | .error (.trap c arg) => .next (takeTrap s t w g c arg)
  | .error (.wait k s') => .next (holdAt s' t w g (.wait k))
  | .error .off => .next s
  | .error (.fault f) => .fault f

/-- R336: a word of a context that meets a trapping cause has no effect; the context enters Faulted once its copies,
increments and arrivals are done. -/
def faultCtx (s : State) (x cause arg : Nat) (va : Nat) : State :=
  modCtx s x fun X => { X with
    st := .faulting
    kcause := BitVec.ofNat 8 cause
    karg := BitVec.ofNat 16 arg
    faultVa := va
    wait := none
    copyFail := false
    redo := false }

def finishCtx (s : State) (x : Nat) (r : Except Stop State) : Host.Outcome State Fault Refusal :=
  match r with
  | .ok s' => .next s'
  | .error (.trap c arg) =>
    .next (faultCtx s x c.code (if c == .trap then arg.toNat else 0) (match c with
      | .misalign | .extentMiss | .perm | .scratchBounds | .peerRetired => arg.toNat
      | _ => 0))
  | .error (.wait k s') => .next (modCtx s' x fun X => { X with wait := some k })
  | .error .off => .next s
  | .error (.fault f) => .fault f

/-- Wakes the waves on a cluster: a unit, a slot or a timeline there has changed. -/
def wakeOn (s : State) (cluster : Nat) : State :=
  (s.teams.filter fun p => clusterOf p.2.core == cluster).foldl (fun s p => wakeTeam s p.1) s

/-- The lowest PC among the lanes that have not finished, where the evaluator issues (R299). -/
def lowestPc (es : List Eval) : Option (BitVec 53) :=
  (es.filter fun e => !e.done).foldl (fun b e => match b with
    | none => some e.pc
    | some p => if e.pc.ult p then some e.pc else some p) none

/-- The lane whose turn it is: at the lowest PC, one that is not held by a page that is not there (R299, R302). -/
def Cluster.lane? (C : Cluster) : Option Eval :=
  C.evals.find? fun e => !e.done && e.parkAt.isNone && some e.pc == lowestPc C.evals

def laneOf (s : State) (k : Nat) : Option Eval := (smGet? s.clusters k).bind Cluster.lane?

/-- A lane of the evaluator with another state. -/
def setLane (s : State) (k : Nat) (e : Eval) : State :=
  modCluster s k fun C => { C with evals := C.evals.map fun x => if x.lane == e.lane then e else x }

/-- A trap ends a lane's evaluation (R302). -/
def finishLane (s : State) (k : Nat) (r : Except Stop State) : Host.Outcome State Fault Refusal :=
  let stop (c : Option Cause) : State := (laneOf s k).elim s fun e => setLane s k { e with done := true, cause := c }
  match r with
  | .ok s' => .next s'
  | .error (.trap c _) => .next (stop (some c))
  | .error (.wait _ s') => .next s'
  | .error .off => .next s
  | .error (.fault f) => .fault f

/-- What an event answers: one that cannot happen in the state does not, and the turn passes (log entry 10). -/
def finishEvent (s : State) (r : Except Stop State) : Host.Outcome State Fault Refusal :=
  match r with
  | .ok s' => .next s'
  | .error _ => .next s

end Sys2Proof.Machine
end

