-- ==== Sys2Proof/Machine/Operands.lean ====
section
/-! DEFINITION. Operand codes and every operand form: what a code names in each profile (R32, R122), the checks of
R33–R35 and R38, what a word waits for before it reads (R27, R51, R52, R220), poison on sources (R445), reading and
writing registers, and the settling of float exceptions (R66–R68, R423). -/

namespace Sys2Proof.Machine

/-- What an operand code names in the compute profile (R32). -/
inductive Opnd where
  | v (n : Nat)
  | s (n : Nat)
  | z | lid
  | q (n : Nat)
  | mb | bad
  deriving DecidableEq, Repr

def opndOf (c : BitVec 8) : Opnd :=
  let n := c.toNat
  if n < 0xC0 then .v n
  else if n < 0xF8 then .s (n - 0xC0)
  else if n == 0xF8 then .z
  else if n == 0xF9 then .lid
  else if n < 0xFE then .q (n - 0xFA)
  else if n == 0xFE then .mb
  else .bad

def isUniform (c : BitVec 8) : Bool :=
  match opndOf c with
  | .s _ => true
  | _ => false

def isVector (c : BitVec 8) : Bool :=
  match opndOf c with
  | .v _ => true
  | _ => false

/-- Sources of the uniform datapath (R35). -/
def uniformSrc (c : BitVec 8) : Bool :=
  match opndOf c with
  | .s _ | .z | .lid => true
  | _ => false

/-- Registers a word names: the first code, how many, and the alignment their number must have (R33, R103). -/
structure Regs where
  code : BitVec 8
  n : Nat
  al : Nat
  deriving DecidableEq, Repr

/-- One register; an even pair; a quad; a block of n from any register. -/
def Regs.one (c : BitVec 8) : Regs := ⟨c, 1, 1⟩
def Regs.pair (c : BitVec 8) : Regs := ⟨c, 2, 2⟩
def Regs.quad (c : BitVec 8) : Regs := ⟨c, 4, 4⟩
def Regs.block (c : BitVec 8) (n al : Nat) : Regs := ⟨c, n, al⟩

/-- A register or a pair by its width. -/
def Regs.ofW (c : BitVec 8) (w : Nat) : Regs := if w == 1 then .one c else if w == 2 then .pair c else .quad c

/-- Whether a source may be named (R33, R34, R38): V is the wave's allocation. -/
def Regs.srcOk (V : Nat) (r : Regs) : Bool :=
  match opndOf r.code with
  | .v n => n + r.n ≤ V && n % r.al == 0
  | .s n => n + r.n ≤ 56 && n % r.al == 0
  | .z => true
  | .lid | .q _ | .mb => r.n == 1
  | .bad => false

/-- Whether a destination may be named (R33, R34, R38). -/
def Regs.dstOk (V : Nat) (r : Regs) : Bool :=
  match opndOf r.code with
  | .v n => n + r.n ≤ V && n % r.al == 0
  | .s n => n + r.n ≤ 56 && n % r.al == 0
  | .z => true
  | .mb => r.n == 1
  | .lid | .q _ | .bad => false

/-! The wave that issues a word. -/

/-- A word of a gang as it issues: the state, its team and wave, the gang, and ActiveLanes() (R12). `pops` holds what the
word popped from q0–q3 and mb, with poison marks (R39). -/
structure WCtx where
  s : State
  t : Nat
  w : Nat
  T : Team
  W : Wave
  gang : BitVec 8
  lanes : LaneMask
  pops : List (BitVec 8 × List (Word × Bool))

/-- The issuing gang with a guard (R12, R90); a replay performs the parked lanes only (R427). -/
def wctx? (s : State) (t w : Nat) (gang : BitVec 8) (g : BitVec 4) : Option WCtx :=
  match team? s t with
  | none => none
  | some T =>
    match T.waves[w]? with
    | none => none
    | some W =>
      if gang == 0 || gang &&& ~~~W.live != 0 then none
      else
        let m := W.gangLanes gang &&& W.guard g
        some ⟨s, t, w, T, W, gang, if W.replay && gang == W.parkGang then m &&& W.wpark else m, []⟩

/-- The wave and team written back. -/
def WCtx.put (c : WCtx) (W : Wave) : State := setTeam c.s c.t (c.T.setWave c.w W)

/-- Retires the word with the wave W (R50). -/
def WCtx.retire (c : WCtx) (W : Wave) (bnd : Bool) : State := c.put (W.retire c.gang bnd)

/-- Reads one 32-bit register of a lane (R38). -/
def WCtx.reg (c : WCtx) (code : BitVec 8) (lane : Nat) : Nat :=
  match opndOf code with
  | .v n => (smGetD c.W.v (32 * n + lane) 0).toNat
  | .s n => (smGetD c.W.s n 0).toNat
  | .lid => lane
  | .q _ | .mb => (((c.pops.find? fun p => p.1 == code).bind fun p => p.2[lane]?).map fun x => x.1.toNat).getD 0
  | .z | .bad => 0

/-- A later register of a block that starts at a code; z stays z (R33). -/
def codeAt (code : BitVec 8) (i : Nat) : BitVec 8 :=
  match opndOf code with
  | .v n => BitVec.ofNat 8 (n + i)
  | .s n => BitVec.ofNat 8 (0xC0 + n + i)
  | _ => code

/-- Reads a pair, the even register holding bits 31:0 (R33). -/
def WCtx.reg64 (c : WCtx) (code : BitVec 8) (lane : Nat) : Nat :=
  c.reg code lane + c.reg (codeAt code 1) lane * 2 ^ 32

/-- Reads n registers as one little-endian number. -/
def WCtx.regN (c : WCtx) (code : BitVec 8) (n lane : Nat) : Nat :=
  (List.range n).foldl (fun a i => a + c.reg (codeAt code i) lane * 2 ^ (32 * i)) 0

/-- Writes one register of a lane, which unmarks it (R38, R445). -/
def Wave.putV (W : Wave) (n lane : Nat) (x : Nat) : Wave :=
  { W with v := smPut 0 W.v (32 * n + lane) (BitVec.ofNat 32 x), vpoison := nsDel W.vpoison (32 * n + lane) }

def Wave.putS (W : Wave) (n : Nat) (x : Nat) : Wave :=
  { W with s := smPut 0 W.s n (BitVec.ofNat 32 x), spoison := nsDel W.spoison n }

def Wave.putReg (W : Wave) (code : BitVec 8) (lane x : Nat) : Wave :=
  match opndOf code with
  | .v n => W.putV n lane x
  | .s n => W.putS n x
  | _ => W

/-- Writes n registers from one little-endian number. -/
def Wave.putRegs (W : Wave) (code : BitVec 8) (n lane x : Nat) : Wave :=
  (List.range n).foldl (fun W i => W.putReg (codeAt code i) lane (x / 2 ^ (32 * i))) W

/-- Marks a register as poisoned (R445). -/
def Wave.markReg (W : Wave) (code : BitVec 8) (lane : Nat) : Wave :=
  match opndOf code with
  | .v n => { W with vpoison := nsAdd W.vpoison (32 * n + lane) }
  | .s n => { W with spoison := nsAdd W.spoison n }
  | _ => W

/-- Writes a predicate bit of a lane; a write to p0 is discarded (R37, R97). -/
def Wave.putPred (W : Wave) (p : Nat) (lanes val : LaneMask) : Wave :=
  if p % 8 == 0 then W
  else { W with p := smPut 0 W.p (p % 8) ((W.pred (p % 8) &&& ~~~lanes) ||| (val &&& lanes)) }

/-- The register keys of a block, as the scoreboard numbers them. -/
def Regs.keys (r : Regs) : List Nat :=
  match opndOf r.code with
  | .v n => (List.range r.n).map fun i => n + i
  | .s n => (List.range r.n).map fun i => 0xC0 + n + i
  | _ => []

/-- Whether a result is still to be written into one of the registers (R27). -/
def Wave.busyAny (W : Wave) (rs : List Regs) : Bool := rs.any fun r => r.keys.any fun k => W.busy.any fun b => b.1 == k

/-- What gives the results still to be written there. -/
def Wave.busyOn (W : Wave) (rs : List Regs) : List BusySrc :=
  (W.busy.filter fun b => rs.any fun r => r.keys.contains b.1).map (·.2)

/-- The lanes of a block that hold poison: every active lane for a uniform register (R445). -/
def WCtx.poisonLanes (c : WCtx) (r : Regs) : LaneMask :=
  match opndOf r.code with
  | .v n => maskOf fun l => c.lanes.getLsbD l && (List.range r.n).any fun i => nsHas c.W.vpoison (32 * (n + i) + l)
  | .s n => if (List.range r.n).any fun i => nsHas c.W.spoison (n + i) then c.lanes else 0
  | .q _ | .mb => maskOf fun l => c.lanes.getLsbD l &&
      (((c.pops.find? fun p => p.1 == r.code).bind fun p => p.2[l]?).map (·.2)).getD false
  | _ => 0

/-- POISON at the consuming word (R423, R445): the operand is the first that the lowest poisoned lane finds. -/
def WCtx.checkPoison (c : WCtx) (srcs : List Regs) : Except Stop Unit :=
  let all := srcs.foldl (fun m r => m ||| c.poisonLanes r) 0
  match srcs.find? fun r => c.poisonLanes r != 0 && (c.poisonLanes r).getLsbD (lowLane all) with
  | some r => .error (.trap .poison (BitVec.ofNat 64 ((c.poisonLanes r).toNat + r.code.toNat * 2 ^ 32)))
  | none => .ok ()

/-! Synchronising operations in reproducible mode (R51, R52). -/

/-- SYNC_PARTED's argument and condition (R51, R423). -/
def WCtx.checkParted (c : WCtx) : Except Stop Unit :=
  trapIf (c.T.repro && c.gang != c.W.live) .syncParted (BitVec.ofNat 64 (c.W.live.toNat + c.gang.toNat * 256))

/-- Whether a wave is left out of the comparison: it waits at BAR or CBWAIT, or has ended (R52). A wave with a gang there and
slices at REGANG is compared (DESIGN CHOICE, log entry 83). -/
def Wave.outOfOrder (W : Wave) : Bool :=
  W.slices.all fun sl => !sl.live || (match sl.hold with
    | .bar _ | .wait .barrier => true
    | _ => false)

/-- Whether (WCLOCK, wave index) is the smallest of the team (R52). -/
def WCtx.isFirst (c : WCtx) : Bool :=
  ((List.range c.T.waves.length).zip c.T.waves).all fun p =>
    p.1 == c.w || p.2.outOfOrder || c.W.wclock.toNat < p.2.wclock.toNat ||
      (c.W.wclock.toNat == p.2.wclock.toNat && c.w < p.1)

/-- The order of R52: the operation waits for its turn, unless it has issued already. -/
def WCtx.waitOrder (c : WCtx) : Except Stop Unit := waitIf (c.T.repro && !c.W.ordered && !c.isFirst) .order c.s

/-- The synchronising operation has issued: what it still waits for, it waits for inside it (R52). -/
def WCtx.issued (c : WCtx) : WCtx :=
  if c.T.repro then
    let W := { c.W with ordered := true }
    { c with s := setTeam c.s c.t (c.T.setWave c.w W), T := c.T.setWave c.w W, W := W }
  else c

/-! Pops (R38, R39, R220, R227). -/

/-- A read of a FIFO that may proceed: 32 elements present, or closed (R220). -/
def Fifo.readable (f : Fifo) : Bool := 32 ≤ f.elems.length || f.st == .closed

/-- The failure a read would meet in place of the failing element (R330). -/
def Fifo.failing (f : Fifo) : Option (Cause × Nat) :=
  if f.elems.length < 32 && f.st == .closed then f.stream.bind (·.failure) else none

/-- Pops up to 32 elements, lanes past the last receiving 0xFFFF_FFFF (R220). -/
def Fifo.pop (f : Fifo) : List (Word × Bool) × Fifo :=
  ((List.range 32).map fun i => f.elems.getD i (BitVec.allOnes 32, false), { f with elems := f.elems.drop 32 })

/-- The distinct FIFOs and mb named by the sources (R39). -/
def popCodes (srcs : List Regs) : List (BitVec 8) :=
  [0xFA#8, 0xFB#8, 0xFC#8, 0xFD#8, 0xFE#8].filter fun c => srcs.any fun r => r.code == c

/-- The pops of a word: waits until each may proceed, then takes one pop or one receive of each (R38, R39); of several failures the
highest cause stands (R423). A message of another core invalidates the load cache (R354), and its marked granules, of four lanes
each, mark what the word reads (R454). -/
def WCtx.takePops (c : WCtx) (srcs : List Regs) : Except Stop WCtx := do
  let codes := popCodes srcs
  if codes.isEmpty then .ok c
  else do
    c.checkParted
    c.waitOrder
    match highest (codes.filterMap fun k => match opndOf k with
        | .q n => (c.T.fifos[n]?).bind Fifo.failing
        | _ => none) with
    | some (cause, va) => Except.error (.trap cause (BitVec.ofNat 64 va))
    | none => do
      waitIf (codes.any fun k => match opndOf k with
        | .q n => !((c.T.fifos[n]?).map Fifo.readable).getD false
        | _ => false) .fifo c.issued.s
      waitIf (codes.contains 0xFE#8 && c.W.mbox.isEmpty) .mailbox c.issued.s
      .ok (codes.foldl (fun c k =>
        match opndOf k with
        | .q n =>
          match c.T.fifos[n]? with
          | some f =>
            let (xs, f1) := f.pop
            { c with T := { c.T with fifos := setAt c.T.fifos n f1 }, pops := c.pops ++ [(k, xs)] }
          | none => c
        | .mb =>
          match c.W.mbox with
          | m :: rest =>
            let xs := (List.range 32).map fun i => (if m.mask.getLsbD i then m.vals.getD i 0 else 0, m.mask.getLsbD i && m.psn.getLsbD (i / 4))
            { c with
              W := { c.W with mbox := rest }
              s := if m.fromMod == c.s.moduleNo && m.fromCore == c.T.core then c.s else invalidate c.s c.T.core
              pops := c.pops ++ [(k, xs)] }
          | [] => c
        | _ => c) c)

/-- What every word does before it reads its operands: the checks of R33–R35 and R38, the wait for results still to
come (R27), the pops. `uni` says that the word runs on the uniform datapath. -/
def WCtx.open (c : WCtx) (srcs dsts : List Regs) (uni : Bool) : Except Stop WCtx := do
  let V := c.T.nregs
  trapIf (!(srcs.all (Regs.srcOk V) && dsts.all (Regs.dstOk V))) .illegalEnc
  trapIf (uni && !(srcs.all fun r => uniformSrc r.code)) .illegalEnc
  waitIf (c.W.busyAny (srcs ++ dsts)) (.result (c.W.busyOn (srcs ++ dsts))) c.s
  c.takePops srcs

/-! Float exceptions (R67, R68, R423). -/

/-- The lanes in which exception i was raised. -/
def raisedLanes (xs : List (Nat × Exc × Exc)) (i : Nat) : Nat :=
  (maskOf fun l => xs.any fun x => x.1 == l && (x.2.1 ||| x.2.2).getLsbD i).toNat

/-- R67, R68: with an enabled exception raised the word traps, otherwise the flags are ORed into FPCTL. Each entry holds
a lane and the exceptions of half 0 and half 1. -/
def settleFlags (fpctl : DWord) (xs : List (Nat × Exc × Exc)) : Except Stop DWord :=
  let total := xs.foldl (fun a x => a ||| x.2.1 ||| x.2.2) Exc.none
  let on := total &&& (fpctl.extractLsb' 4 5)
  match (List.range 5).find? fun i => on.getLsbD i with
  | some i =>
    let h1 := xs.any fun x => x.2.2.getLsbD i
    .error (.trap (fpCause i) (BitVec.ofNat 64 (raisedLanes xs i + on.toNat * 2 ^ 32 + if h1 then 2 ^ 40 else 0)))
  | none => .ok (fpctl ||| BitVec.ofNat 64 (total.toNat * 2 ^ 9))

/-! Mailbox sends (R40, R226, R461). -/

/-- Whether MBDEST names a core of the wave's partition, on this module or on another (R13, R40, R225). -/
def mbTargetOk (s : State) (T : Team) (mb : DWord) : Bool :=
  let core := bits mb.toNat 14 6
  let m := bits mb.toNat 23 16
  core < 400 && (if m == s.moduleNo then partOfCore s core == some T.part
    else (smGet? s.parts T.part).any fun P => nsHas (smGetD P.modules m []) (clusterOf core))

/-- PERM for a write of mb (R40). A word with no active lane sends nothing and raises no PERM, though a read of mb with no
active lane takes a message (R39) (DESIGN CHOICE, log entry 84). -/
def WCtx.checkMb (c : WCtx) (dsts : List (BitVec 8)) : Except Stop Unit :=
  trapIf (c.lanes != 0 && dsts.contains 0xFE#8 && !(c.W.mbdest.getLsbD 31 && mbTargetOk c.s c.T c.W.mbdest)) .perm c.W.mbdest

/-- A send waits for the wave's earlier writes (R461) and for its message in flight. -/
def WCtx.waitSend (c : WCtx) (dsts : List (BitVec 8)) (s0 : State) : Except Stop Unit :=
  waitIf (c.lanes != 0 && dsts.contains 0xFE#8 && (c.W.owc != 0 || !c.W.storeQ.isEmpty || c.W.sending.isSome)) .send s0

/-- What the word took from its FIFOs and its mailbox, as it stood there. -/
def WCtx.taken (c : WCtx) : List (Nat × List (Word × Bool)) × Option Message :=
  let T := team? c.s c.t
  (c.pops.filterMap fun p => match opndOf p.1 with
      | .q n => (T.bind fun T => T.fifos[n]?).map fun f => (n, f.elems.take 32)
      | _ => none,
    if c.pops.any (fun p => p.1 == 0xFE#8) then (wave? c.s c.t c.w).bind fun W => W.mbox.head? else none)

/-- What differs between two tables: the keys whose entries do, with the later entry. -/
def smDiff (a b : SMap Word) : SMap Word :=
  ((a.map (·.1)) ++ (b.map (·.1))).filterMap fun k => if smGetD a k 0 != smGetD b k 0 then some (k, smGetD b k 0) else none

/-- What a word with the lanes m writes, beside what it took: from the wave it found to the wave it leaves. -/
def Wave.lateOf (W0 W : Wave) (m : LaneMask) : Late where
  v := smDiff W0.v W.v
  s := smDiff W0.s W.s
  vclean := W0.vpoison.filter fun k => !nsHas W.vpoison k
  sclean := W0.spoison.filter fun k => !nsHas W.spoison k
  p := (smDiff W0.p W.p).map fun q => (q.1, m, W.pred q.1)
  flags := W.fpctl &&& ~~~W0.fpctl

/-- The effects of a sending word that completes (R228). -/
def Wave.settle (W : Wave) : Wave :=
  match W.late with
  | none => W
  | some l =>
    let W1 := l.p.foldl (fun W q => W.putPred q.1 q.2.1 q.2.2) { W with late := none }
    { W1 with
      v := l.v.foldl (fun a q => smPut 0 a q.1 q.2) W1.v
      s := l.s.foldl (fun a q => smPut 0 a q.1 q.2) W1.s
      vpoison := l.vclean.foldl nsDel W1.vpoison
      spoison := l.sclean.foldl nsDel W1.spoison
      fpctl := W1.fpctl ||| l.flags }

/-- One MAIL flit to the MBDEST target; the word completes when the message has been accepted (R461). Until then it has no other
effect either: what it took goes back with its next issue, what it writes is held back (R228). -/
def WCtx.send (c : WCtx) (W : Wave) (bnd : Bool) (vals : Nat → Nat) : State :=
  let d := c.W.mbdest.toNat
  let m : Message := ⟨(List.range 32).map fun i => if c.lanes.getLsbD i then BitVec.ofNat 32 (vals i) else 0, c.lanes,
    c.s.moduleNo, c.T.core, c.w, c.t, 0⟩
  let (rid, s1) := nextRid c.s c.T.core
  let f : MailFlit := ⟨.mail, c.T.part, c.s.moduleNo, c.T.core, c.t, c.w, bits d 23 16, bits d 14 6, c.T.launch, bits d 5 0, m,
    false, false, rid.seq⟩
  postMail ({ c with s := s1 }.put ({ c.W with
    sending := some f, refused := false, taken := c.taken, late := some (c.W.lateOf W c.lanes) }.holdGang c.gang (.async 0 bnd .send))) f

/-! Contexts. -/

/-- A word of a Contrail context as it issues. -/
structure KCtx where
  s : State
  x : Nat
  X : Ctx

def kctx? (s : State) (x : Nat) : Option KCtx :=
  match smGet? s.ctxs x with
  | some X => if X.st == .running || X.st == .parked then some ⟨s, x, X⟩ else none
  | none => none

/-- k register n. -/
def KCtx.k (c : KCtx) (n : BitVec 8) : Nat := (smGetD c.X.k n.toNat 0).toNat

def Ctx.putK (X : Ctx) (n : BitVec 8) (v : Nat) : Ctx :=
  { X with k := smPut 0 X.k n.toNat (BitVec.ofNat 64 v), kpoison := nsDel X.kpoison n.toNat }

def KCtx.put (c : KCtx) (X : Ctx) : State := { c.s with ctxs := smSet c.s.ctxs c.x X }

/-- A context's word is done: the next word (R307). -/
def KCtx.retire (c : KCtx) (X : Ctx) : State := c.put X.nextWord

/-- Operand codes of the stream profile (R122), the wait for results, and POISON (R336). -/
def KCtx.open (c : KCtx) (srcs dsts : List (BitVec 8)) : Except Stop Unit := do
  trapIf ((srcs ++ dsts).any fun r => 32 ≤ r.toNat) .illegalEnc
  waitIf ((srcs ++ dsts).any fun r => c.X.kbusy.any (fun b => b.1 == r.toNat) || c.X.reqBusy.any fun b => b.1 == r.toNat)
    (.result []) c.s

def KCtx.checkPoison (c : KCtx) (srcs : List (BitVec 8)) : Except Stop Unit :=
  trapIf (srcs.any fun r => nsHas c.X.kpoison r.toNat) .poison

/-! Evaluator lanes. -/

/-- Operand codes of the callable profile (R122). -/
def callableOk (c : BitVec 8) : Bool :=
  let n := c.toNat
  n < 0x40 || (0xC0 ≤ n && n < 0xD0) || n == 0xF8 || n == 0xF9

def Regs.laneOk (r : Regs) : Bool :=
  match opndOf r.code with
  | .v n => n + r.n ≤ 64 && n % r.al == 0
  | .s n => n + r.n ≤ 16 && n % r.al == 0
  | .z => true
  | .lid => r.n == 1
  | _ => false

def Eval.reg (e : Eval) (code : BitVec 8) : Nat :=
  match opndOf code with
  | .v n => (smGetD e.v n 0).toNat
  | .s n => (smGetD e.s n 0).toNat
  | .lid => e.lane
  | _ => 0

def Eval.reg64 (e : Eval) (code : BitVec 8) : Nat := e.reg code + e.reg (codeAt code 1) * 2 ^ 32

def Eval.putReg (e : Eval) (code : BitVec 8) (x : Nat) : Eval :=
  match opndOf code with
  | .v n => { e with v := smPut 0 e.v n (BitVec.ofNat 32 x), vpoison := nsDel e.vpoison n }
  | .s n => { e with s := smPut 0 e.s n (BitVec.ofNat 32 x), spoison := nsDel e.spoison n }
  | _ => e

def Eval.putRegs (e : Eval) (code : BitVec 8) (n x : Nat) : Eval :=
  (List.range n).foldl (fun e i => e.putReg (codeAt code i) (x / 2 ^ (32 * i))) e

def Eval.pred (e : Eval) (p : Nat) : Bool := p % 8 == 0 || smGetD e.p (p % 8) false

def Eval.putPred (e : Eval) (p : Nat) (b : Bool) : Eval := if p % 8 == 0 then e else { e with p := smPut false e.p (p % 8) b }

def Eval.guard (e : Eval) (g : BitVec 4) : Bool := e.pred (g.toNat % 8) != g.getLsbD 3

def Eval.poisoned (e : Eval) (r : Regs) : Bool :=
  match opndOf r.code with
  | .v n => (List.range r.n).any fun i => nsHas e.vpoison (n + i)
  | .s n => (List.range r.n).any fun i => nsHas e.spoison (n + i)
  | _ => false

/-- Falls through to the next word (R299). -/
def Eval.next (e : Eval) : Eval := { e with pc := e.pc + 1 }

/-- The checks a lane's word makes before it reads (R33, R35, R122). -/
def Eval.open (srcs dsts : List Regs) (uni : Bool) : Except Stop Unit := do
  trapIf (!(srcs.all Regs.laneOk && dsts.all fun r => r.laneOk && r.code != 0xF9#8)) .illegalEnc
  trapIf (uni && !(srcs.all fun r => uniformSrc r.code)) .illegalEnc

def Eval.checkPoison (e : Eval) (srcs : List Regs) : Except Stop Unit := trapIf (srcs.any e.poisoned) .poison

/-! Profiles (R121). -/

/-- PROFILE's argument (R423). -/
def profileArg (opc : Nat) (paired : Bool) : DWord := BitVec.ofNat 64 (if paired then 256 else opc)

/-- The two restricted profiles' opcodes (R121). -/
def streamAllows (opc : Nat) : Bool :=
  opc ≤ 2 || opc == 4 || opc == 6 || opc == 0xA || opc == 0xD || (0x10 ≤ opc && opc ≤ 0x13) ||
    (0x20 ≤ opc && opc ≤ 0x3F && opc != 0x3D) || opc == 0x80 || opc == 0x81 || opc == 0x88 || opc == 0x8A ||
    opc == 0x8D || (0x92 ≤ opc && opc ≤ 0x95) || (0xD0 ≤ opc && opc ≤ 0xDD)

def callableAllows (opc : Nat) : Bool :=
  opc ≤ 2 || (0x10 ≤ opc && opc ≤ 0x13) || (0x20 ≤ opc && opc ≤ 0x46) || (0x50 ≤ opc && opc ≤ 0x6B) ||
    (0x70 ≤ opc && opc ≤ 0x74) || opc == 0x86 || opc == 0xB4 || opc == 0xC0 || opc == 0xC1

def computeAllows (opc : Nat) : Bool := opc < 0xC0

/-- A word not in the running profile (R121). -/
def offProfile {α : Type} (opc : Nat) : Except Stop α := .error (.trap .profile (profileArg opc false))

/-- A meaning by who issues the word. Where a profile has no such word it raises PROFILE (R121). -/
def issue (opc : Nat) (g : BitVec 4) (s : State) (wave : WCtx → Except Stop State)
    (ctx : KCtx → Except Stop State := fun _ => offProfile opc)
    (lane : Eval → Except Stop Eval := fun _ => offProfile opc) : Host.Outcome State Fault Refusal :=
  match s.cur with
  | .none => .fault .noIssuer
  | .wave t w gang =>
    match wctx? s t w gang g with
    | none => .fault .noIssuer
    | some c => finishWave s t w gang (if computeAllows opc then wave c else offProfile opc)
  | .context x =>
    match kctx? s x with
    | none => .fault .noIssuer
    | some c => finishCtx s x (if streamAllows opc then ctx c else offProfile opc)
  | .lane k =>
    match laneOf s k with
    | none => .fault .noIssuer
    | some e => finishLane s k ((if callableAllows opc then lane e else offProfile opc).map fun e' => setLane s k e')

end Sys2Proof.Machine
end

