-- ==== Sys2Proof/Machine/Waits.lean ====
section
/-! DEFINITION. How waiting gangs go on and waves end: REGANG (R22), BAR (R207), words held for a result (R27), the end
of a wave (R180, R223), parks and fault records (R426–R431). -/

namespace Sys2Proof.Machine

/-! Going on. -/

/-- A gang held for the end of its word retires (R27, R50). -/
def retireHeld (s : State) (t w : Nat) (g : BitVec 8) (bnd : Bool) : State :=
  makeReady (modWave s t w fun W => W.retire g bnd) t w

/-- The gangs of a wave whose word waits for operation `op`, with bit B of the word. -/
def Wave.asyncGangs (W : Wave) (op : Nat) (k : WaitKind) : List (BitVec 8 × Bool) :=
  W.gangIds.filterMap fun i => match (W.slice i).hold with
    | .async o b j => if o == op && j == k then some (W.gangOf i, b) else none
    | _ => none

/-- Whether every live slice waits at REGANG, and one does (R22). -/
def Wave.atRegang (W : Wave) : Bool := W.live != 0 && W.slices.all fun sl => !sl.live || sl.hold == .regang

/-- R22: the waiting slices of equal PC form one gang each, and go on at the word after. -/
def Wave.joinRegang (W : Wave) : Wave :=
  if !W.atRegang then W
  else
    let W1 := W.regroup W.live
    let gs := W1.gangIds.map W1.gangOf
    let W2 := W1.mapGang W.live fun _ sl => sl.goto (sl.pc + 1) false true
    gs.foldl Wave.regroup W2

/-- Whether the barrier of a team completes (R207): every live slice waits at a BAR, and the release of every live wave
is complete (R360). -/
def Team.atBar (T : Team) : Bool :=
  (T.waves.any fun W => W.live != 0) && T.waves.all fun W => W.live == 0 ||
    (W.storeQ.isEmpty && W.owc == 0 && W.slices.all fun sl => !sl.live || (match sl.hold with
      | .bar _ => true
      | _ => false))

/-- The gangs of a wave that wait at BAR retire (R207). -/
def Wave.leaveBar (W : Wave) : Wave :=
  (W.gangIds.map W.gangOf).foldl (fun W g => match (W.slice (lowSlice g)).hold with
    | .bar b => W.retire g b
    | _ => W) W

/-- R207: when every live wave has arrived the barrier completes. -/
def tryBar (s : State) (t : Nat) : State :=
  match team? s t with
  | none => s
  | some T =>
    if !T.atBar then s
    else
      let s1 := setTeam s t { T with waves := T.waves.map Wave.leaveBar }
      wakeTeam s1 t

/-- What follows when slices of a wave have ended (R22, R180, R207, R223, R390). -/
def slicesEnded (s : State) (t w : Nat) : State :=
  match team? s t with
  | none => s
  | some T =>
    match T.waves[w]? with
    | none => s
    | some W =>
      let W1 := W.joinRegang
      if W1.live != 0 then tryBar (makeReady (setTeam s t (T.setWave w W1)) t w) t
      else
        let T1 := T.setWave w { W1 with slots := [] }
        let done := T1.waves.all fun W => W.live == 0
        let s1 := releaseSlots (setTeam s t (if done then { T1 with st := .ending } else T1)) T.part W.slots
        tryBar (wakeTeam s1 t) t

/-! Parks and fault records. -/

/-- A fault record (R429). -/
def faultRecord (va : Nat) (pc : DWord) (lanes team wave access extidx kind fbgen asid : Nat) : List Byte :=
  toBytes 8 (va / 8192 * 8192 % 2 ^ 56) ++ toBytes 8 pc.toNat ++ toBytes 4 lanes ++ toBytes 4 team ++ toBytes 1 wave ++
    toBytes 1 access ++ toBytes 1 extidx ++ toBytes 1 kind ++ toBytes 2 fbgen ++ toBytes 1 asid ++ toBytes 1 0

/-- A requester's records at their ring: all or none, with a signal to the management cores (R430). Records stamped with an older
generation than the ring's are discarded (R431). -/
def placeFaults (s : State) (p : Nat) (recs : List (List Byte)) : State :=
  match smGet? s.parts p with
  | none => s
  | some P =>
    if recs.any fun r => fieldB r 28 2 != bits P.fbgen.toNat 15 0 then s else
    let size := ringSize P.fbsize 6 20
    let wr := P.fbwr.toNat
    let used := (wr + 2 ^ 32 - P.fbrd.toNat) % 2 ^ 32
    if size < used + recs.length then modPart s p fun P => { P with fbgen := P.fbgen ||| 0x10000#64 }
    else
      let base := bits P.fbbase.toNat 51 12 * 4096
      let s1 := ((List.range recs.length).zip recs).foldl (fun s r => ownWrite s (base + 32 * ((wr + r.1) % size)) r.2) s
      emitOut (modPart s1 p fun P => { P with fbwr := BitVec.ofNat 64 ((wr + recs.length) % 2 ^ 32) }) (.faultSignal p)

/-- A requester sends its records to the ring. Whether they come there in this step, or later past a FLUSH, is free: bit 63 of the
turn's choice says so (R431). -/
def writeFaults (s : State) (p : Nat) (recs : List (List Byte)) : State :=
  if bit s.choice 63 then modPart s p fun P => { P with fbLate := P.fbLate ++ [recs] } else placeFaults s p recs

/-- The oldest records on their way come to their ring. -/
def arriveFaults (s : State) (p : Nat) : State :=
  match (smGet? s.parts p).elim [] (·.fbLate) with
  | [] => s
  | r :: rest => placeFaults (modPart s p fun P => { P with fbLate := rest }) p r

/-- The current fault-buffer generation of a partition. -/
def fbGen (s : State) (p : Nat) : Nat := (smGet? s.parts p).elim 0 fun P => bits P.fbgen.toNat 15 0

/-- R429: one record for each 8 KiB page, in ascending order of the lowest lane that touches it, at most 32. -/
def parkRecords (ps : List ParkLane) (mk : Nat → Nat → Nat → Nat → List Byte) : List (List Byte) :=
  let pages := ps.foldl (fun l p => if l.contains (p.va / 8192) then l else l ++ [p.va / 8192]) []
  (pages.take 32).map fun g =>
    let hit := ps.filter fun p => p.va / 8192 == g
    mk (g * 8192) (maskOf fun l => hit.any fun p => p.lane == l).toNat ((hit.head?).elim 0xFF (·.idx))
      ((hit.head?).elim 0 (·.code))

/-- ACCESS of a record (R429). -/
def accessCode (a : Acc) (secure : Bool) : Nat := a.code + if secure then 4 else 0

/-- Whether an extent entry is of KIND 10: its page waits for the pager (R428). -/
def absentEntry (ext : List Extent) (idx : Nat) : Bool := (ext[idx]?).any fun e => e.kind == 2#2

/-- R426: the wave parks at the word of a gang, whose lanes `ps` are not performed. When every lane stands at an entry of KIND 10 the
fault records are written at once; otherwise when the other lanes have been translated, all together (R428, R429). -/
def parkWave (s : State) (t w : Nat) (g : BitVec 8) (a : Acc) (ps : List ParkLane) : State :=
  match team? s t with
  | none => s
  | some T =>
    match T.waves[w]? with
    | none => s
    | some W =>
      let gen := fbGen s T.part
      let epc := W.epcAt g
      let s1 := modWave s t w fun W => { W with
        wpark := maskOf fun l => ps.any fun p => p.lane == l
        wepc := epc
        cause := BitVec.ofNat 8 ((ps.head?).elim 0 (·.code))
        parked := true
        replay := false
        parks := ps
        parkAcc := a.code
        parkGang := g
        stamp := gen
        lastGang := BitVec.ofNat 3 (lowSlice g)
        ordered := false
        blockedAt := none }
      if ps.isEmpty || !(ps.all fun p => absentEntry T.ext p.idx) then s1
      else
        let pc : DWord := epc &&& 0x00FF_FFFF_FFFF_FFF8#64
        writeFaults s1 T.part (parkRecords ps fun va lanes idx _ =>
          faultRecord va pc lanes T.serial w (accessCode a T.secure) (idx % 256) 1 gen T.asid)

end Sys2Proof.Machine
end

