-- ==== Sys2Proof/Machine/Scratch.lean ====
section
/-! DEFINITION. Scratchpad storage: logical regions and tiles, claims (R437, R438), accesses from outside the team
(R439), save images (R440), poison marks of granules (R445). -/

namespace Sys2Proof.Machine

/-- The bytes of a team's allocation (R16). -/
def Team.scratchSize (T : Team) : Nat := T.regions * Config.regionBytes

/-- Bytes of the scratchpad as the physical regions hold them. -/
def scratchGet (T : Team) (off n : Nat) : List Byte := (List.range n).map fun i => smGetD T.scratch (off + i) 0

/-- Whether a range touches a marked granule (R445). -/
def scratchMarked (T : Team) (off n : Nat) : Bool :=
  (List.range ((off % 16 + n + 15) / 16)).any fun i => nsHas T.scratchPsn (off / 16 + i)

/-- Writes bytes; granules overwritten whole lose their marks (R445). -/
def scratchSet (T : Team) (off : Nat) (bs : List Byte) : Team :=
  let n := bs.length
  let whole := (List.range (n / 16 + 1)).filterMap fun i =>
    let g := (off + 15) / 16 + i
    if 16 * g + 16 ≤ off + n then some g else none
  { T with
    scratch := ((List.range n).zip bs).foldl (fun m p => smPut 0 m (off + p.1) p.2) T.scratch
    scratchPsn := whole.foldl nsDel T.scratchPsn }

/-- Marks the granules of a range. -/
def scratchMark (T : Team) (off n : Nat) : Team :=
  { T with scratchPsn := (List.range ((off % 16 + n + 15) / 16)).foldl (fun m i => nsAdd m (off / 16 + i)) T.scratchPsn }

/-! Save images (R440). -/

/-- The physical address of a team's save image. -/
def imageBase (s : State) (T : Team) : Option Nat :=
  T.image.bind fun i => (smGet? s.parts T.part).map fun P => bits P.svbase.toNat 51 21 * 2 ^ 21 + i * 2 ^ 21

/-- The bytes of a team context that are saved at once (R29). -/
def contextBytes (T : Team) : Nat :=
  T.nwaves * (T.nregs * 128 + 224 + 28 + 2112 + 96 + T.nslices * 138) + 192 + 8 + 4 * 1056 + 256 +
    256 * (T.mxq.filter fun o => !o.done).length + 64 * (T.chains.filter (·.isOpen)).length

/-- A team whose image a management core has written runs with the written contents (R440): the registers of its waves, where they
stand and its edge masks are what the spill engine's layout reads from the bytes (Config.contextField). -/
def Team.restored (T : Team) (bs : List Byte) : Team :=
  let at_ (w i : Nat) : DWord := Config.contextField bs (w * 65536 + i)
  let word (w i : Nat) : Word := (at_ w i).setWidth 32
  let mask (i : Nat) : BitVec 128 := at_ 255 (2 * i) ++ at_ 255 (2 * i + 1)
  let wave (w : Nat) (W : Wave) : Wave :=
    { W with
      v := (List.range (T.nregs * 32)).foldl (fun m i => smPut 0 m i (word w i)) []
      s := (List.range 56).foldl (fun m i => smPut 0 m i (word w (8192 + i))) []
      p := (List.range 7).foldl (fun m i => smPut 0 m (i + 1) (word w (8256 + i))) []
      wepc := at_ w 8272
      wtraparg := at_ w 8273
      whandler := at_ w 8274
      fpctl := at_ w 8275
      wclock := at_ w 8276
      slices := ((List.range W.slices.length).zip W.slices).map fun p => { p.2 with pc := (at_ w (8288 + p.1)).setWidth 53 } }
  { T with
    waves := ((List.range T.waves.length).zip T.waves).map fun p => wave p.1 p.2
    mp := (List.range T.mp.length).map mask
    np := (List.range T.np.length).map fun i => mask (4 + i) }

/-- The header of a save image (R440): SAVED is 1 from the time the context is written until the team runs again (R436). -/
def imageHeader (T : Team) : Nat :=
  let saved (l : List RegionSt) : Nat := ((List.range l.length).zip l).foldl (fun a p => if p.2 == .saved then a + 2 ^ p.1 else a) 0
  T.serial % 2 ^ 32 + T.allocGen % 256 * 2 ^ 32 + saved T.regSt % 2 ^ 16 * 2 ^ 40 + saved T.tileSt % 16 * 2 ^ 56 +
    if T.ctxSaved then 2 ^ 60 else 0

/-- The header of a team's image is kept as the team now stands (R440). -/
def putHeader (s : State) (t : Nat) : State :=
  match team? s t with
  | none => s
  | some T =>
    match imageBase s T with
    | none => s
    | some b => ownWrite s (b + 0x100000) (toBytes 8 (imageHeader T))

/-- The lowest free image of a partition, taken (R440). -/
def takeImage (s : State) (t : Nat) : Option State :=
  match team? s t with
  | none => none
  | some T =>
    if T.image.isSome then some s
    else
      match smGet? s.parts T.part with
      | none => none
      | some P =>
        match (List.range (bits P.svbase.toNat 7 0)).find? fun i => !nsHas P.images i with
        | none => none
        | some i => some (modTeam (modPart s T.part fun P => { P with images := nsAdd P.images i }) t fun T => { T with image := some i })

/-- Six-byte cells of a tile in row order (R440). -/
def tileBytes (x : Tile) : List Byte := (List.range 16384).flatMap fun i => toBytes 6 (smGetD x.cells i 0).toNat

/-- The poison bits of a tile in cell order. -/
def tilePsnBytes (x : Tile) : List Byte :=
  (List.range 2048).map fun i => BitVec.ofNat 8 ((List.range 8).foldl (fun a k => if nsHas x.psn (8 * i + k) then a + 2 ^ k else a) 0)

/-- A tile's mode, anchor and flag word in 16 bytes: the order of these fields is the spill engine's own (R440). -/
def tileTail (x : Tile) : List Byte :=
  toBytes 4 (match x.mode with
    | .xf48 => 0
    | .i48 => 1
    | .a48 => 2) ++ toBytes 4 x.anchor.toNat ++
    toBytes 4 (x.ecause.toNat + (if x.lent then 2 ^ 8 else 0) + (if x.dsat then 2 ^ 9 else 0) + (if x.abt then 2 ^ 10 else 0) +
      if x.ovf then 2 ^ 11 else 0) ++ toBytes 4 0

/-- Saves a region's bytes and marks into the image (R438, R440). -/
def saveRegion (s : State) (t i : Nat) : State :=
  match team? s t with
  | none => s
  | some T =>
    match imageBase s T with
    | none => s
    | some b =>
      let o := i * Config.regionBytes
      let s1 := ownWrite s (b + o) (scratchGet T o Config.regionBytes)
      let s2 := (T.scratchPsn.filter fun g => g / 2048 == i).foldl (fun s g => physMark s (b + 16 * g) 16 true) s1
      putHeader (modTeam s2 t fun T => { T with
        regSt := setAt T.regSt i .saved
        scratch := T.scratch.filter fun c => c.1 / Config.regionBytes != i
        scratchPsn := T.scratchPsn.filter fun g => g / 2048 != i }) t

/-- Fills a region from the image (R438). -/
def fillRegion (s : State) (t i : Nat) : State :=
  match team? s t with
  | none => s
  | some T =>
    match imageBase s T with
    | none => s
    | some b =>
      let o := i * Config.regionBytes
      let bs := physGet s (b + o) Config.regionBytes
      let marks := (List.range 2048).filter fun k => physPsn s (b + o + 16 * k)
      let fill (T : Team) : Team :=
        let T1 := scratchSet T o bs
        { T1 with
          regSt := setAt T1.regSt i .present
          scratchPsn := marks.foldl (fun m k => nsAdd m (2048 * i + k)) T1.scratchPsn }
      putHeader (modTeam s t fill) t

/-- Saves a tile (R438, R440). The cells stay with the tile's record, which the image then backs. -/
def saveTile (s : State) (t j : Nat) : State :=
  match team? s t with
  | none => s
  | some T =>
    match imageBase s T, T.tiles[j]? with
    | some b, some x =>
      let a := b + 0x80000 + 0x20000 * j
      let s1 := ownWrite s a (tileBytes x ++ tilePsnBytes x ++ tileTail x)
      putHeader (modTeam s1 t fun T => { T with tileSt := setAt T.tileSt j .saved }) t
    | _, _ => s

/-- Fills a tile from the image (R438). -/
def fillTile (s : State) (t j : Nat) : State :=
  match team? s t with
  | none => s
  | some T =>
    match imageBase s T with
    | none => s
    | some b =>
      let a := b + 0x80000 + 0x20000 * j
      let cells := (List.range 16384).foldl (fun m i => smPut 0 m i (BitVec.ofNat 48 (physNum s (a + 6 * i) 6))) []
      let psn := (List.range 16384).filter fun i => bit (physNum s (a + 98304 + i / 8) 1) (i % 8)
      let tail := a + 100352
      let fl := physNum s (tail + 8) 4
      let fill (x : Tile) : Tile := { x with
        cells := cells
        psn := psn
        mode := (match physNum s tail 4 % 4 with
          | 0 => .xf48
          | 1 => .i48
          | _ => .a48)
        anchor := BitVec.ofNat 10 (physNum s (tail + 4) 4)
        ecause := BitVec.ofNat 8 fl
        lent := bit fl 8
        dsat := bit fl 9
        abt := bit fl 10
        ovf := bit fl 11 }
      putHeader (modTeam s t fun T => { T with tileSt := setAt T.tileSt j .present, tiles := modAt T.tiles j fill }) t

/-! Claims (R437, R438). -/

/-- The units a core has of a kind. -/
def Core.units (C : Core) (tile : Bool) : List Phys := if tile then C.physTiles else C.phys
def Core.setUnit (C : Core) (tile : Bool) (u : Nat) (x : Phys) : Core :=
  if tile then { C with physTiles := setAt C.physTiles u x } else { C with phys := setAt C.phys u x }

/-- The state of a logical unit. -/
def Team.unitSt (T : Team) (tile : Bool) (i : Nat) : RegionSt := (if tile then T.tileSt[i]? else T.regSt[i]?).getD .present
def Team.setUnitSt (T : Team) (tile : Bool) (i : Nat) (x : RegionSt) : Team :=
  if tile then { T with tileSt := setAt T.tileSt i x } else { T with regSt := setAt T.regSt i x }

/-- Whether a unit is a victim a claim may take: held by a team that is not the claimant and not the active team, and
whose image is there to save into (R437, R440). Ordered: teams in neither bank first, the one saved longest ago, then
the shadow-bank team; the highest unit first. -/
def victimRank (s : State) (C : Core) (t : Nat) (tile : Bool) (u : Nat) : Option (Nat × Nat × Nat × Nat) :=
  match (C.units tile)[u]? with
  | some (.held v i) =>
    if v == t || C.active == some v then none
    else (team? s v).bind fun V =>
      if V.image.isNone || V.unitSt tile i != .present then none
      else some (if C.shadow == some v then 1 else 0, V.savedAt, 1024 - i, u)
  | _ => none

/-- The smaller of two ranks. -/
def rankLt (a b : Nat × Nat × Nat × Nat) : Bool :=
  a.1 < b.1 || (a.1 == b.1 && (a.2.1 < b.2.1 || (a.2.1 == b.2.1 && a.2.2.1 < b.2.2.1)))

/-- The victim of a claim (R437). -/
def victimOf (s : State) (C : Core) (t : Nat) (tile : Bool) : Option Nat :=
  ((List.range (C.units tile).length).filterMap (victimRank s C t tile)).foldl
    (fun b r => match b with
      | none => some r
      | some q => if rankLt r q then some r else some q) none |>.map (·.2.2.2)

/-- A team's first access to a unit that is not present claims it (R437). A free unit costs a fresh claimant nothing;
otherwise the claim waits at the spill engine. -/
def claimUnit (s : State) (t : Nat) (tile : Bool) (i : Nat) : State :=
  match team? s t with
  | none => s
  | some T =>
    match core? s T.core with
    | none => s
    | some C =>
      let st := T.unitSt tile i
      if st == .present || st == .filling || st == .saving || C.claims.any (fun c => c.team == t && c.tile == tile && c.idx == i) then s
      else
        match (C.units tile).findIdx? fun p => p == .free with
        | some u =>
          let s1 := modCore s T.core fun C => C.setUnit tile u (.held t i)
          if st == .fresh then modTeam s1 t fun T => T.setUnitSt tile i .present
          else
            modCore (modTeam s1 t fun T => T.setUnitSt tile i .filling) T.core fun C =>
              { C with claims := C.claims ++ [⟨t, tile, i, u, none⟩] }
        | none =>
          match victimOf s C t tile with
          | none => s
          | some u =>
            match (C.units tile)[u]? with
            | some (.held v j) =>
              modCore (modTeam s v fun V => V.setUnitSt tile j .saving) T.core fun C =>
                { C with claims := C.claims ++ [⟨t, tile, i, u, some (v, j)⟩] }
            | _ => s

/-- Claims the units a team's own access needs; the access waits when one is not there at once (R437). -/
def needUnits (s : State) (t : Nat) (tile : Bool) (is : List Nat) : State × Bool :=
  let s1 := is.foldl (fun s i => claimUnit s t tile i) s
  (s1, match team? s1 t with
    | some T => is.all fun i => T.unitSt tile i == .present
    | none => false)

/-- The regions a range touches. -/
def regionsOf (off n : Nat) : List Nat :=
  if n == 0 then [] else (List.range ((off + n - 1) / Config.regionBytes - off / Config.regionBytes + 1)).map (off / Config.regionBytes + ·)

/-! Accesses from outside the team (R439). -/

/-- Whether an access from outside must wait for a save or a fill. -/
def outsideWaits (T : Team) (off n : Nat) : Bool :=
  (regionsOf off n).any fun i => T.unitSt false i == .saving || T.unitSt false i == .filling

/-- Reads from outside: the bytes and whether one is marked. A fresh region reads as zero, but for what `outsideWrite` had to
keep with it. -/
def outsideRead (s : State) (T : Team) (off n : Nat) : List Byte × Bool :=
  let pieces := (List.range n).map fun k =>
    let o := off + k
    match T.unitSt false (o / Config.regionBytes) with
    | .present | .fresh => (smGetD T.scratch o 0, nsHas T.scratchPsn (o / 16))
    | _ => match imageBase s T with
      | some b => ((physGet s (b + o) 1).headD 0, physPsn s (b + o))
      | none => (0#8, false)
  (pieces.map (·.1), pieces.any (·.2))

/-- A fresh region that is written from outside is first written as zero in the image, and is saved (R439). With no image free it
becomes present instead; with no unit free either, what is written is kept until it gets one, or an image, which then takes it too
(DESIGN CHOICE, log entry 86). -/
def settleFresh (s : State) (t i : Nat) : State :=
  match team? s t with
  | none => s
  | some T =>
    if T.unitSt false i != .fresh then s
    else
      match (imageBase s T).map (fun _ => s) <|> takeImage s t with
      | some s1 => saveRegion s1 t i
      | none => claimUnit s t false i

/-- Writes from outside, byte by byte where each region is; `psn` marks what is written (R439, R445). -/
def outsideWrite (s : State) (t off : Nat) (bs : List Byte) (psn : Bool) : State :=
  let n := bs.length
  let s1 := (regionsOf off n).foldl (fun s i => settleFresh s t i) s
  (regionsOf off n).foldl (fun s i =>
    let lo := max off (i * Config.regionBytes)
    let hi := min (off + n) ((i + 1) * Config.regionBytes)
    let part := sliceB bs (lo - off) (hi - lo)
    match team? s t with
    | none => s
    | some T =>
      match T.unitSt false i, imageBase s T with
      | .saved, some b =>
        let s2 := ownWrite s (b + lo) part
        if psn then physMark s2 (b + lo) part.length true else s2
      | _, _ => modTeam s t fun T =>
        let T1 := scratchSet T lo part
        if psn then scratchMark T1 lo part.length else T1) s1

end Sys2Proof.Machine
end

