-- ==== Sys2Proof/Machine/Legal.lean ====
section
/-! DEFINITION. Legality: the checks of R119 that a word's own bits decide, whatever the profile and the state
(R25, R90, R92–R98, R103–R106, R112, R114, R132, R138, R149–R171, R231, R271, R315). The checks that need the profile
or the state (R33–R35, R110, R115, R122) are made at issue. An event is legal when its names are in range. -/

namespace Sys2Proof

/-- G = 0b1000 selects no lane and is reserved (R90). -/
def guardOk (g : BitVec 4) : Bool := g != 8#4

/-- An operand field that names a predicate (R97). -/
def predCode (x : BitVec 8) : Bool := x.ult 8#8

/-- The immediate-form flag VAR[3] (R94). -/
def immFlag (v : BitVec 4) : Bool := v.getLsbD 3

/-- VAR[2:0], the type (R94). -/
def ty3 (v : BitVec 4) : Nat := (v.extractLsb' 0 3).toNat

/-- Integer type codes with an even number are signed (R94). -/
def signedTy (t : Nat) : Bool := t % 2 == 0

/-- Integer type sets W, N and all eight (R138). -/
def tysW : List Nat := [0, 1, 2, 3]
def tysWN : List Nat := [0, 1, 2, 3, 4, 5, 6, 7]
def tysU : List Nat := [1, 3]

/-- Which modifier fields, CL and immediate form an entry takes (R132). -/
structure Takes where
  imm : Bool
  ma : Bool
  mb : Bool
  mc : Bool
  cl : Bool

/-- How many source operands an entry reads: unused fields hold 0 (R93); in the immediate form B and C hold IMM16. -/
def srcsOk (f : AluW) (n : Nat) : Bool :=
  if immFlag f.var then (if n == 1 then f.a == 0#8 else true)
  else (n ≥ 3 || f.c == 0#8) && (n ≥ 2 || f.b == 0#8)

/-- Modifier, clamp and immediate-form checks shared by the arithmetic groups (R92, R95, R132). -/
def takesOk (f : AluW) (t : Takes) : Bool :=
  (t.imm || !immFlag f.var) && (t.ma || f.ma == 0#2) && (t.mb || f.mb == 0#2) && (t.mc || f.mc == 0#2) &&
  (t.cl || !f.cl) && (!immFlag f.var || (f.mb == 0#2 && f.mc == 0#2))

/-- An integer entry (R138): its types, source count and marks; modifiers under signed types only; no SC, no H. -/
def intOk (f : AluW) (tys : List Nat) (n : Nat) (t : Takes) : Bool :=
  guardOk f.g && tys.contains (ty3 f.var) && takesOk f t && srcsOk f n && f.sc == 0#3 && f.h == 0#2 &&
  (signedTy (ty3 f.var) || (f.ma == 0#2 && f.mb == 0#2 && f.mc == 0#2))

/-- A float entry (R152). `sc` says whether the scale is taken. -/
def fpOk (f : AluW) (tys : List Nat) (n : Nat) (t : Takes) (sc : Bool) : Bool :=
  guardOk f.g && tys.contains (ty3 f.var) && takesOk f t && srcsOk f n && (sc || f.sc == 0#3) && f.h == 0#2

/-- No modifier, clamp, scale or hint. -/
def plain (f : AluW) : Bool :=
  guardOk f.g && f.ma == 0#2 && f.mb == 0#2 && f.mc == 0#2 && !f.cl && f.sc == 0#3 && f.h == 0#2

/-- Type codes of R96. -/
def typeCode (t : Nat) : Bool := t < 16 && t != 6 && t != 7
def floatCode (t : Nat) : Bool := t < 6
def signedCode (t : Nat) : Bool := t ≥ 8 && t % 2 == 0

/-- CVT (R96, R162). -/
def cvtOk (f : AluW) : Bool :=
  let dst := f.var.toNat
  let src := (f.b.extractLsb' 0 4).toNat
  let nsat := f.b.getLsbD 4
  guardOk f.g && typeCode dst && typeCode src && f.b.extractLsb' 5 3 == 0#3 && (src == 5 || f.c == 0#8) &&
  (!nsat || (floatCode dst && dst != 5)) && (f.ma == 0#2 || floatCode src || signedCode src) && f.mb == 0#2 &&
  f.mc == 0#2 && (floatCode dst || f.sc == 0#3)

/-- REDUX and SCAN operation and type (R169, R170). -/
def reduxOk (f : AluW) (t : Nat) : Bool :=
  let op := f.sc.toNat
  guardOk f.g && (t == 0 || t == 1 || t == 4) && op < 6 && (op < 3 || t == 1) && (!f.cl || (op == 0 && t != 4)) &&
  f.ma == 0#2 && f.mb == 0#2 && f.mc == 0#2 && f.h == 0#2 && f.b == 0#8 && f.c == 0#8

/-- Load and store fields (R101, R103, R105, R194). -/
def ldstOk (f : MemW) (store : Bool) (maxScope minScope : Nat) (policy : Bool) : Bool :=
  guardOk f.g && f.var.ult 7#4 && (!store || (f.var != 1#4 && f.var != 3#4)) && f.scope.toNat ≤ maxScope &&
  minScope ≤ f.scope.toNat && (f.ord == 0#2 || f.ord == (if store then 2#2 else 1#2)) && f.aop == 0#3 &&
  (policy || f.h == 0#2)

/-- Atomic type and operation (R104). -/
def atomicOk (f : MemW) (red : Bool) : Bool :=
  let t := f.var.toNat
  let op := f.aop.toNat
  guardOk f.g && t < 5 && (op < 3 || t == 1 || t == 3 || (op == 6 && t == 4)) && (!red || op < 6)

/-- CINV, CWB, PREF (R188). -/
def cacheOk (f : MemW) (v : BitVec 4) : Bool :=
  guardOk f.g && f.var == v && f.d == 0#8 && f.scope == 0#3 && f.ord == 0#2 && f.xs == 0#2 && f.aop == 0#3

/-- The operands of a system word that its entry uses; the others hold 0 (R93). -/
def sysOk (f : SysW) (d a b c : Bool) : Bool :=
  guardOk f.g && (d || f.d == 0#8) && (a || f.a == 0#8) && (b || f.b == 0#8) && (c || f.c == 0#8)

/-- IMM16 in bits 29:14 (R95). -/
def SysW.imm (f : SysW) : BitVec 16 := f.b ++ f.c
def AluW.imm (f : AluW) : BitVec 16 := f.b ++ f.c

/-- TILE, MASK and the rest of bits 13:2 of a matrix word (R231): a MASK only in the cluster form. -/
def mxOk (f : SysW) (tile : Bool) (mask : Bool) : Bool :=
  (tile || f.x.extractLsb' 10 2 == 0#2) && f.x.extractLsb' 0 2 == 0#2 &&
  (if mask && f.var.getLsbD 2 then true else f.x.extractLsb' 2 8 == 0#8)

/-- The first register of an octet (R217, R219). -/
def octetStart (x : BitVec 8) : Bool := (List.range 7).any fun i => x.toNat == 0xC0 + 8 * i

/-- SCOPE, ORD of RSVLD, RSVST, KLD, KST in bits 13:11 and 10:9 (R109). -/
def SysW.scope (f : SysW) : BitVec 3 := f.x.extractLsb' 9 3
def SysW.ord (f : SysW) : BitVec 2 := f.x.extractLsb' 7 2

/-- A half of a paired word (R112, R114). -/
def Half.wf (h : Half) : Bool :=
  let r := h.rop.toNat
  r < 0x15 && (h.t == 0#2 || (h.t == 1#2 && (r == 6 || r == 7 || r == 8 || r == 9 || r == 0x11 || r == 0x12 ||
    r == 0x13 || r == 0x14))) && (r != 0x10 || h.b == 0xF8#8) && (h.d.ult 0xC0#8 || h.d == 0xF8#8 || h.d == 0xFE#8)

/-- The word classes' own bits for ILL (R119). -/
def illWord (w : IWord) : Bool := w.extractLsb' 54 9 == 0#9

/-- Whether a word passes the checks its own bits decide; whether an event names things that can exist. -/
def Instr.legal : Instr → Bool
  | .ill f => illWord f
  | .nop f => guardOk f.g
  | .bra f => f.bnd && guardOk f.g
  | .brx f => f.bnd && f.g == 0#4
  | .call f => f.bnd && f.g == 0#4 && f.h == 0#2
  | .callx f => f.bnd && f.g == 0#4
  | .ret f => f.bnd && f.g == 0#4 && f.d == 0#8
  | .regang f => f.bnd && f.g == 0#4
  | .exit f => f.bnd && guardOk f.g
  | .yield f => f.bnd && guardOk f.g
  | .trap f => f.bnd && guardOk f.g
  | .eret f => f.bnd && f.g == 0#4
  | .bkpt f => guardOk f.g
  | .loop f => f.bnd && f.g == 0#4
  | .csrr f => guardOk f.g && f.var.ult 3#4 && f.a == 0#8
  | .csrw f => guardOk f.g && f.var.ult 3#4 && f.d == 0#8
  | .csrs f => guardOk f.g && f.var.ult 3#4 && f.d == 0#8
  | .csrc f => guardOk f.g && f.var.ult 3#4 && f.d == 0#8
  | .cinv f => cacheOk f 0#4 && f.h == 0#2
  | .cinvAll f => cacheOk f 1#4 && f.h == 0#2 && f.a == 0#8 && f.b == 0#8 && f.off8 == 0#8
  | .cwb f => cacheOk f 0#4 && f.h == 0#2
  | .pref f => cacheOk f 0#4
  | .extq f => sysOk f true true false false && f.var == 0#4 && f.x == 0#12
  | .halloc f => sysOk f true true false false && f.var == 0#4 && f.x == 0#12
  | .hfree f => sysOk f false true false false && f.var == 0#4 && f.x == 0#12
  | .setprio f => f.x == 0#12 && ((f.var == 0#4 && sysOk f false true false false) || (f.var == 8#4 && sysOk f false false true true))
  | .svc f => f.bnd && f.g == 0#4
  | .iadd f => intOk f tysWN 2 ⟨true, true, true, false, true⟩
  | .isub f => intOk f tysWN 2 ⟨true, true, true, false, true⟩
  | .iaddc f => intOk f tysU 3 ⟨false, false, false, false, false⟩
  | .imul f => intOk f tysWN 2 ⟨true, true, true, false, true⟩
  | .imulh f => intOk f tysW 2 ⟨true, true, true, false, false⟩
  | .imad f => intOk f tysWN 3 ⟨false, true, true, true, true⟩
  | .imin f => intOk f tysWN 2 ⟨true, true, true, false, false⟩
  | .imax f => intOk f tysWN 2 ⟨true, true, true, false, false⟩
  | .iabsd f => intOk f tysWN 2 ⟨true, true, true, false, false⟩
  | .and f => intOk f tysU 2 ⟨true, false, false, false, false⟩
  | .or f => intOk f tysU 2 ⟨true, false, false, false, false⟩
  | .xor f => intOk f tysU 2 ⟨true, false, false, false, false⟩
  | .andn f => intOk f tysU 2 ⟨true, false, false, false, false⟩
  | .shl f => intOk f tysU 2 ⟨true, false, false, false, false⟩
  | .shr f => intOk f tysU 2 ⟨true, false, false, false, false⟩
  | .sar f => intOk f [0, 2] 2 ⟨true, false, false, false, false⟩
  | .rotl f => intOk f tysU 2 ⟨true, false, false, false, false⟩
  | .clz f => intOk f tysU 1 ⟨false, false, false, false, false⟩
  | .popc f => intOk f tysU 1 ⟨false, false, false, false, false⟩
  | .brev f => intOk f tysU 1 ⟨false, false, false, false, false⟩
  | .bfe f => intOk f tysW 2 ⟨true, false, false, false, false⟩
  | .bfi f => intOk f tysU 3 ⟨false, false, false, false, false⟩
  | .lea f => intOk { f with sc := 0#3 } [0, 1] 2 ⟨true, false, false, false, false⟩
  | .icmp f => f.sc.ult 6#3 && intOk { f with sc := 0#3 } tysWN 2 ⟨true, true, true, false, false⟩
  | .sel f => intOk f tysU 3 ⟨false, false, false, false, false⟩
  | .mov f => intOk f [0, 1, 3] 1 ⟨true, false, false, false, false⟩
  | .movl f => plain f && f.var == 9#4 && f.a == 0#8
  | .movh f => plain f && f.var == 9#4 && f.a == 0#8
  | .prmt f => intOk f [1] 3 ⟨false, false, false, false, false⟩
  | .idot4 f => intOk f [6, 7] 3 ⟨false, false, false, false, true⟩
  | .idiv f => intOk f tysW 2 ⟨true, true, true, false, false⟩
  | .irem f => intOk f tysW 2 ⟨true, true, true, false, false⟩
  | .pand f => plain f && f.var == 0#4 && predCode f.d && predCode f.a && predCode f.b && f.c == 0#8
  | .por f => plain f && f.var == 0#4 && predCode f.d && predCode f.a && predCode f.b && f.c == 0#8
  | .pxor f => plain f && f.var == 0#4 && predCode f.d && predCode f.a && predCode f.b && f.c == 0#8
  | .pnot f => plain f && f.var == 0#4 && predCode f.d && predCode f.a && f.b == 0#8 && f.c == 0#8
  | .pmov f => plain f && f.var == 0#4 && predCode f.d && predCode f.a && f.b == 0#8 && f.c == 0#8
  | .pset f => plain f && f.var == 0#4 && predCode f.d && f.b == 0#8 && f.c == 0#8
  | .pget f => plain f && f.var == 0#4 && predCode f.a && f.b == 0#8 && f.c == 0#8
  | .rfl f => plain f && f.var.ult 2#4 && f.b == 0#8 && f.c == 0#8
  | .rdlane f => plain f && f.var.extractLsb' 1 2 == 0#2 && (immFlag f.var || f.c == 0#8)
  | .wrlane f => plain f && f.var.extractLsb' 1 2 == 0#2 && (immFlag f.var || f.c == 0#8)
  | .fadd f => fpOk f [0, 1, 2] 2 ⟨true, true, true, false, true⟩ true
  | .fsub f => fpOk f [0, 1, 2] 2 ⟨true, true, true, false, true⟩ true
  | .fmul f => fpOk f [0, 1, 2] 2 ⟨true, true, true, false, true⟩ true
  | .fma f => fpOk f [0, 1, 2] 3 ⟨false, true, true, true, true⟩ true
  | .fmin f => fpOk f [0, 1, 2] 2 ⟨true, true, true, false, false⟩ false
  | .fmax f => fpOk f [0, 1, 2] 2 ⟨true, true, true, false, false⟩ false
  | .fcmp f => fpOk f [0, 1, 2] 2 ⟨true, true, true, false, false⟩ true
  | .fclass f => fpOk f [0, 1, 2] 1 ⟨false, false, false, false, false⟩ false
  | .frcp f => fpOk f [0, 1] 1 ⟨false, true, false, false, true⟩ true
  | .fsqrt f => fpOk f [0, 1] 1 ⟨false, true, false, false, true⟩ true
  | .frsq f => fpOk f [0, 1] 1 ⟨false, true, false, false, true⟩ true
  | .fexp2 f => fpOk f [0, 1] 1 ⟨false, true, false, false, true⟩ true
  | .flog2 f => fpOk f [0, 1] 1 ⟨false, true, false, false, true⟩ true
  | .fsinpi f => fpOk f [0, 1] 1 ⟨false, true, false, false, true⟩ true
  | .fcospi f => fpOk f [0, 1] 1 ⟨false, true, false, false, true⟩ true
  | .fdiv f => fpOk f [0, 1] 2 ⟨true, true, true, false, true⟩ true
  | .ffloor f => fpOk f [0, 1, 2] 1 ⟨false, true, false, false, false⟩ false
  | .fceil f => fpOk f [0, 1, 2] 1 ⟨false, true, false, false, false⟩ false
  | .ftrunc f => fpOk f [0, 1, 2] 1 ⟨false, true, false, false, false⟩ false
  | .frint f => fpOk { f with h := 0#2 } [0, 1, 2] 1 ⟨false, true, false, false, false⟩ false
  | .ffrac f => fpOk f [0, 1] 1 ⟨false, true, false, false, false⟩ false
  | .fldexp f => fpOk f [0, 1] 2 ⟨true, true, false, false, true⟩ false
  | .fdot2 f => fpOk f [1, 2] 3 ⟨false, true, true, true, true⟩ true
  | .fdot4 f => fpOk f [3, 4, 5] 3 ⟨false, false, false, true, true⟩ true
  | .hadd2 f => fpOk f [1, 2] 2 ⟨true, true, true, false, true⟩ true
  | .hmul2 f => fpOk f [1, 2] 2 ⟨true, true, true, false, true⟩ true
  | .hfma2 f => fpOk f [1, 2] 3 ⟨false, true, true, true, true⟩ true
  | .fmed3 f => fpOk f [0, 1, 2] 3 ⟨false, true, true, true, false⟩ false
  | .cvt f => cvtOk f
  | .cvtq f => plain f && f.var.ult 3#4 && (f.var != 2#4 || f.c == 0xF8#8)
  | .cvtdq f => plain f && f.var.ult 3#4 && (f.var != 2#4 || f.c == 0xF8#8)
  | .pack f => guardOk f.g && f.var != 0#4 && f.var.ult 6#4 && f.mc == 0#2
  | .unpk f => plain f && 1 ≤ ty3 f.var && ty3 f.var ≤ 5 && (immFlag f.var || ty3 f.var == 5 || f.c == 0#8)
  | .shfl f => plain f
  | .vote f => plain f && f.var.ult 6#4 && predCode f.a && (2 < f.var.toNat || predCode f.d) && f.b == 0#8 && f.c == 0#8
  | .redux f => !immFlag f.var && reduxOk f (ty3 f.var)
  | .scan f => reduxOk f (ty3 f.var)
  | .matchl f => plain f && f.var.ult 4#4 && f.b == 0#8 && f.c == 0#8
  | .ld f => ldstOk f false 4 0 true
  | .st f => ldstOk f true 4 0 true
  | .lds f => ldstOk f false 1 0 false
  | .sts f => ldstOk f true 1 0 false
  | .ldp f => ldstOk f false 2 2 false
  | .stp f => ldstOk f true 2 2 false
  | .ldu f => ldstOk f false 4 0 true
  | .stu f => ldstOk f true 4 0 true
  | .atom f => atomicOk f false && f.scope.ult 5#3
  | .atoms f => atomicOk f false && f.scope.ult 2#3 && f.h == 0#2
  | .red f => atomicOk f true && f.scope.ult 5#3 && (f.ord == 0#2 || f.ord == 2#2)
  | .append f => sysOk f true true true false && f.var == 0#4 && f.x == 0#12
  | .decline f => sysOk f false true false false && f.var == 0#4 && f.x == 0#12
  | .fence f => f.g == 0#4 && f.var == 0#4 && f.scope.ult 5#3 && f.d == 0#8 && f.a == 0#8 && f.b == 0#8 && f.off8 == 0#8 && f.xs == 0#2 && f.aop == 0#3 && f.h == 0#2
  | .bar f => f.g == 0#4 && sysOk f false false false false && f.var == 0#4 && f.x == 0#12
  | .cbinit f => sysOk f false true true (immFlag f.var) && f.var.extractLsb' 1 2 == 0#2 && f.x == 0#12
  | .cbarv f => sysOk f true true true (immFlag f.var) && f.var.extractLsb' 1 2 == 0#2 && f.x == 0#12
  | .cbwait f => sysOk f false true true (immFlag f.var) && f.var.extractLsb' 1 2 == 0#2 && f.x == 0#12
  | .tlwait f => sysOk f false true true false && f.var == 0#4 && f.x == 0#12
  | .tlread f => sysOk f true true false false && f.var == 0#4 && f.x == 0#12
  | .cpy f => sysOk f true true true true && f.var.ult 3#4 && f.x == 0#12
  | .mcast f => sysOk f true true true true && f.var == 0#4 && f.x.extractLsb' 0 4 == 0#4 && f.x != 0#12
  | .cexec f => sysOk f true true true true && f.var == 0#4 && f.x == 0#12 && octetStart f.c
  | .ceqry f => sysOk f true true false false && f.var == 0#4 && f.x == 0#12
  | .ceqryArg f => sysOk f true true false false && f.var == 1#4 && f.x == 0#12
  | .iscfg f => sysOk f false true false false && f.var.ult 4#4 && f.x == 0#12 && octetStart f.a
  | .qclose f => f.g == 0#4 && sysOk f false false false false && f.var.ult 4#4 && f.x == 0#12
  | .emit f => sysOk f false true false false && f.var == 0#4 && f.x == 0#12
  | .emitr f => sysOk f true true false false && f.var == 0#4 && f.x == 0#12
  | .recget f => sysOk f true true false false && f.var == 0#4 && f.x == 0#12
  | .recgetCount f => sysOk f true false false false && f.var == 1#4 && f.x == 0#12
  | .mbtgt f => sysOk f false true false false && f.var == 0#4 && f.x == 0#12
  | .mxzero f => sysOk f false false false false && (f.var == 0#4 || f.var == 4#4) && mxOk f true true
  | .mxldw f => sysOk f false true true true && mxOk f false true && (f.var.extractLsb' 0 2 != 0#2 || f.c == 0xF8#8)
  | .mxloop f => sysOk f true true true true && f.var.extractLsb' 0 2 == 0#2 && mxOk f true true
  | .mxspl f => sysOk f true true true true && mxOk f true true
  | .mxdrain f => sysOk f true true true false && !f.var.getLsbD 0 && mxOk f true true
  | .mxfence f => sysOk f true false false false && f.var == 0#4 && f.x == 0#12
  | .mxrd f => sysOk f true true false false && f.var.ult 2#4 && mxOk f true false
  | .mxrdStat f => sysOk f true true false false && f.var == 2#4 && f.a == 0xF8#8 && mxOk f true false
  | .mxwr f => sysOk f false true true false && f.var.ult 2#4 && mxOk f true false
  | .mxmask f => guardOk f.g && f.d == 0#8 && !f.var.getLsbD 2 && f.x.extractLsb' 0 9 == 0#9 &&
    (f.var.getLsbD 0 || (f.x.extractLsb' 9 3).ult 4#3) && (!immFlag f.var || (!f.var.getLsbD 1 && f.a == 0#8 && f.imm.ule 128#16)) &&
    (immFlag f.var || (f.b == 0#8 && f.c == 0#8))
  | .mxcfg f => sysOk f false true false false && !immFlag f.var && f.var.extractLsb' 0 2 != 3#2 && (f.var.extractLsb' 0 2 == 2#2 || f.a == 0xF8#8) && mxOk f true false
  | .jchain f => sysOk f true true false false && f.var.ult 2#4 && mxOk f true false
  | .jsend f => sysOk f true true false false && f.var == 0#4 && f.x.extractLsb' 10 2 == 0#2 && f.x.extractLsb' 0 5 == 0#5
  | .jrecv f => sysOk f true true false false && f.var == 0#4 && f.x == 0#12
  | .jclose f => sysOk f false true false false && f.var == 0#4 && f.x == 0#12
  | .jabort f => sysOk f false true false false && f.var == 0#4 && f.x == 0#12
  | .rtbox f => sysOk f true true true false && f.var == 0#4 && f.x == 0#12
  | .rttri f => sysOk f true true true false && f.var == 0#4 && f.x == 0#12
  | .rtcrv f => sysOk f true true true false && f.var == 0#4 && f.x == 0#12
  | .rtrace f => sysOk f true true true (immFlag f.var) && !f.var.getLsbD 2 && f.var.extractLsb' 0 2 != 3#2 && f.x.extractLsb' 0 9 == 0#9 && (!immFlag f.var || f.imm.ule 4096#16)
  | .rng f => sysOk f true true true true && f.var.ult 2#4 && f.x == 0#12
  | .rsvupd f => sysOk f true true true true && f.var == 0#4 && f.x == 0#12
  | .rsvmrg f => sysOk f true true true true && f.var == 0#4
  | .rsvnrm f => sysOk f true false false false && f.var == 0#4 && f.x == 0#12
  | .rsvld f => sysOk f true true true false && f.var == 0#4 && f.scope.ult 5#3 && f.ord.ult 2#2 && f.x.extractLsb' 0 5 == 0#5
  | .rsvst f => sysOk f true true true false && f.var == 0#4 && f.scope.ult 5#3 && (f.ord == 0#2 || f.ord == 2#2) && f.x.extractLsb' 0 5 == 0#5
  | .ltwalk f => sysOk f true true true true && f.var == 0#4 && f.x == 0#12
  | .reuse f => f.g == 0#4 && sysOk f true true false false && f.var == 0#4 && f.x == 0#12
  | .cparg f => sysOk f true false true true && f.var == 8#4 && f.x == 0#12 && f.imm.ult 10#16
  | .cpret f => sysOk f false true true false && f.var.ult 2#4 && f.x == 0#12 && (f.var == 1#4 || f.b == 0xF8#8) && (f.var == 0#4 || f.b != 0xF8#8)
  | .kld f => f.g == 0#4 && sysOk f true true false true && f.var.ult 7#4 && f.scope == 2#3 && f.ord.ult 2#2 && f.x.extractLsb' 0 7 == 0#7
  | .kst f => f.g == 0#4 && sysOk f true true false true && f.var.ult 7#4 && !f.var.getLsbD 0 && f.scope == 2#3 && (f.ord == 0#2 || f.ord == 2#2) && f.x.extractLsb' 0 7 == 0#7
  | .agset f => f.g == 0#4 && sysOk f false true false false && f.var.ult 4#4 && f.x.extractLsb' 0 9 == 0#9 && 1 ≤ (f.x.extractLsb' 9 3).toNat && (f.x.extractLsb' 9 3).toNat ≤ 5 && f.a.toNat + (f.x.extractLsb' 9 3).toNat ≤ 31
  | .agstep f => f.g == 0#4 && sysOk f true false true false && f.var.ult 4#4 && f.x == 0#12 && f.d != f.b
  | .scopy f => f.g == 0#4 && sysOk f (!immFlag f.var) true true true && !f.var.getLsbD 2 && f.x == 0#12
  | .sgath f => f.g == 0#4 && sysOk f (!immFlag f.var) true true true && f.x == 0#12 && f.c.ule 30#8
  | .sscat f => f.g == 0#4 && sysOk f (!immFlag f.var) true true true && f.x == 0#12 && f.c.ule 30#8
  | .smcast f => f.g == 0#4 && sysOk f (!immFlag f.var) true true true && f.var.extractLsb' 0 3 == 0#3 && f.x.extractLsb' 0 4 == 0#4 && f.x != 0#12
  | .cbload f => f.g == 0#4 && sysOk f (!immFlag f.var) true false false && f.var.extractLsb' 0 3 == 0#3 && f.x == 0#12
  | .sdecode f => f.g == 0#4 && sysOk f (!immFlag f.var) true true true && !f.var.getLsbD 2 && f.x.extractLsb' 0 10 == 0#10
  | .qpush f => f.g == 0#4 && sysOk f true true true false && f.x == 0#12
  | .tlinc f => f.g == 0#4 && f.d == 0#8 && f.var.extractLsb' 0 3 == 0#3 && f.x.extractLsb' 0 9 == 0#9 && 2 ≤ f.scope.toNat && f.scope.toNat ≤ 4 && (if immFlag f.var then f.a == 0#8 && f.imm != 0#16 else f.b == 0#8 && f.c == 0#8)
  | .swait f => f.g == 0#4 && f.d == 0#8 && f.var.extractLsb' 0 3 == 0#3 && f.x == 0#12 && (if immFlag f.var then f.a == 0#8 else f.b == 0#8 && f.c == 0#8)
  | .stopc f => f.g == 0#4 && sysOk f false false false false && f.var == 0#4 && f.x == 0#12
  | .pairedWord f => f.h0.wf && f.h1.wf
  | .moduleReset _ => true
  | .partitionReset r => r.part < 8
  | .clockStretch cluster _ => cluster < 50
  | .powerLimit _ => true
  | .energyRefill => true
  | .teamAdmit _ => true
  | .ucieModuleFail gw m => gw < 5 && m < 5
  | .fabricPortFail port => port < 128
  | .flitCrcFail port => port < 128
  | .thieloData _ => true
  | .e2eack _ => true
  | .e2eRetransmit _ _ => true
  | .fatalError p reason _ _ => p < 8 && 1 ≤ reason && reason ≤ 3
  | .haltLineArrival p unit => p < 8 && unit < 2048
  | .haltHeaderWrite p => p < 8
  | .homeRequest _ => true
  | .ackFlit _ => true
  | .nackFlit _ => true
  | .deferredPerm _ _ => true
  | .mingenRaiseComplete asid => asid < 64
  | .onDemandTranslate _ => true
  | .gatewayAnchorData _ => true
  | .gatewayWindowEnd _ => true
  | .gatewayReduction _ => true
  | .haloRequest cluster slot => cluster < 50 && slot < 4
  | .mail _ => true
  | .mailacc _ => true
  | .mailref _ => true
  | .mailSlotGrant _ _ => true
  | .mailResendTimeout _ _ => true
  | .mbdropRead core => core < 400
  | .stretchCountRead cluster => cluster < 50
  | .reservationGrant core => core < 400
  | .ready _ => true
  | .arm _ => true
  | .credit _ => true
  | .req _ => true
  | .data _ => true
  | .datasat _ => true
  | .endFlit _ => true
  | .abortFlit _ => true
  | .refuse _ => true
  | .revoke _ => true
  | .copyBurst engine => engine < 200
  | .copyComplete ctx _ => ctx < 800
  | .waveCopyComplete _ _ => true
  | .tlincApply ctx => ctx < 800
  | .cbarvApply ctx => ctx < 800
  | .contextFaulted ctx => ctx < 800
  | .stopcComplete ctx => ctx < 800
  | .streamFetch _ q => q < 4
  | .matrixOpStart _ => true
  | .clusterOpArrival _ core => core < 400
  | .rowBlock _ => true
  | .matrixOpComplete _ => true
  | .rtraceStart core _ => core < 400
  | .rayUnitComplete core _ => core < 400
  | .passStart cluster slot => cluster < 50 && slot < 4
  | .passPixel cluster slot => cluster < 50 && slot < 4
  | .visibilitySegment cluster slot => cluster < 50 && slot < 4
  | .passEnd cluster slot => cluster < 50 && slot < 4
  | .hostCommit port _ _ => port < 4
  | .rdmaWrite r => r.port < 4
  | .rdmaRead r => r.port < 4
  | .roceInvalidRequest port _ => port < 4
  | .nodeFire p node => p < 8 && node < 4096
  | .drainComplete p node => p < 8 && node < 4096
  | .teamReady _ => true
  | .teamResident core _ => core < 400
  | .bankSwap core => core < 400
  | .waitSwapTimeout core => core < 400
  | .contextSaved _ => true
  | .claimComplete core => core < 400
  | .teamEnd _ _ => true
  | .launchEnd _ => true
  | .flush p => p < 8
  | .replay p => p < 8
  | .flushThenReplay p => p < 8
  | .force m => m.part < 8 && m.port < 4 && m.operands.length == 48
  | .kill m => m.part < 8 && m.port < 4 && m.operands.length == 48
  | .halt m => m.part < 8 && m.port < 4 && m.operands.length == 48
  | .nodetab m => m.part < 8 && m.port < 4 && m.operands.length == 48
  | .nodeon m => m.part < 8 && m.port < 4 && m.operands.length == 48
  | .nodeoff m => m.part < 8 && m.port < 4 && m.operands.length == 48
  | .asrec m => m.part < 8 && m.port < 4 && m.operands.length == 48
  | .svcdone p _ => p < 8
  | .keyLoad r => r.slot < 128
  | .keyErase r => r.slot < 128
  | .regionWrite _ i _ _ => i < 128
  | .regionRekeyComplete die i => die < 2 && i < 64
  | .worldWrite die _ _ _ => die < 2
  | .schcfgWrite p _ => p < 8
  | .areaBaseWrite _ _ => true
  | .allowanceWrite p _ => p < 8
  | .budgetSet _ _ => true
  | .mregExtend die _ i _ => die < 2 && i < 8
  | .attestationReport die nonce => die < 2 && nonce.length == 64
  | .signedSidebandRequest _ => true
  | .mgmtCsrWrite die _ _ _ => die < 2
  | .readDataResponse _ => true
  | .contextFillComplete core => core < 400
  | .releaseClearComplete core => core < 400
  | .gatewayReductionWindowEnd _ => true
  | .mailboxControlFlit _ => true
  | .unknownOp m => m.part < 8 && m.port < 4 && m.operands.length == 48
  | .stackFail s => s < 10
  | .ucieLinkLevelRetry gw m => gw < 5 && m < 5

end Sys2Proof
end

