-- ==== Sys2Proof/WellFormed.lean ====
section
/-! DEFINITION. Well-formedness of a step of the part: an instruction word is well formed when the encoding checks of
R119 that its own bits decide hold, an event when the numbers it names are in range. The checks themselves, entry by
entry, stand in Machine/Legal.lean. -/

namespace Sys2Proof

/-- A well-formed step. -/
def Instr.wf (i : Instr) : Bool := i.legal

end Sys2Proof
end

