-- ==== Sys2Proof/Machine/Access.lean ====
section
/-! DEFINITION. What the memory instructions share: effective addresses (R102), translation of the lanes and its failures
(R198, R348), store queues and forwarding (R200, R358), global requests (R453), the load cache (R353), the parking of
lanes (R199). -/

namespace Sys2Proof.Machine

/-! Addresses (R102). -/

/-- Base + sext32(index) × scale + sext8(OFF8) × size. -/
def effAddr (m base index xs off8 size : Nat) : Nat :=
  ofSigned m ((base : Int) + toSigned 32 index * (2 ^ xs : Nat) + toSigned 8 off8 * (size : Int))

/-- The global address of a lane. -/
def WCtx.gAddr (c : WCtx) (f : MemW) (size l : Nat) : Nat :=
  effAddr 64 (c.reg64 f.a l) (c.reg f.b l) f.xs.toNat f.off8.toNat size

/-- The scratchpad or peer address of a lane. -/
def WCtx.sAddr (c : WCtx) (f : MemW) (size l : Nat) : Nat :=
  effAddr 32 (c.reg f.a l) (c.reg f.b l) f.xs.toNat f.off8.toNat size

/-- Size in bytes and registers of an access code (R103). -/
def accSize (var : Nat) : Nat :=
  match var with
  | 0 | 1 => 1
  | 2 | 3 => 2
  | 4 => 4
  | 5 => 8
  | _ => 16

def accRegs (var : Nat) : Nat := if var ≤ 4 then 1 else if var == 5 then 2 else 4

/-- A loaded value at the width of its registers (R103). -/
def loadExt (var : Nat) (bs : List Byte) : Nat :=
  let x := ofBytes bs
  match var with
  | 1 => ofSigned 32 (toSigned 8 x)
  | 3 => ofSigned 32 (toSigned 16 x)
  | _ => x

/-! Translation of the lanes. -/

/-- The declarations of a team's launch. -/
def Team.decls (s : State) (T : Team) : List (Nat × Nat × Nat × Nat) := (smGet? s.launches T.launch).elim [] (·.exts)

/-- R348 for one address of a team. -/
def teamTr (s : State) (T : Team) (a : Acc) (va : Nat) : Tr :=
  matchExtent s (clusterOf T.core) T.asid T.ext (declared (Team.decls s T) T.index va) va a

/-- A lane that may proceed. -/
structure OkLane where
  lane : Nat
  va : Nat
  pa : Nat
  key : Nat
  sec : Bool
  gen : Nat

/-- The lanes that proceed and the lanes that park (R199). -/
structure LanePlan where
  ok : List OkLane
  parked : List ParkLane

/-- The trap of the lowest lane that a test selects (R198). -/
def trapLane (ls : List (Nat × Nat)) (bad : Nat → Bool) (c : Cause) : Except Stop Unit :=
  match ls.find? fun p => bad p.2 with
  | some p => .error (.trap c (BitVec.ofNat 64 p.2))
  | none => .ok ()

/-- R198, R348: the traps in their order, then what proceeds and what parks. `align` is the access size. -/
def planLanes (s : State) (T : Team) (a : Acc) (align : Nat) (ls : List (Nat × Nat)) : Except Stop LanePlan := do
  trapLane ls (fun va => va % align != 0) .misalign
  trapLane ls (fun va => teamTr s T a va == .miss) .extentMiss
  trapLane ls (fun va => teamTr s T a va == .perm) .perm
  .ok
    { ok := ls.filterMap fun p => match teamTr s T a p.2 with
        | .ok pa key sec gen => some ⟨p.1, p.2, pa, key, sec, gen⟩
        | _ => none
      parked := ls.filterMap fun p => match teamTr s T a p.2 with
        | .park code idx => some ⟨p.1, p.2, code, idx⟩
        | _ => none }

/-! Requests. -/

def req? (s : State) (rid : Rid) : Option MemReq := s.reqs.find? fun r => r.rid == rid
def modReq (s : State) (rid : Rid) (f : MemReq → MemReq) : State :=
  { s with reqs := s.reqs.map fun r => if r.rid == rid then f r else r }
/-- A request comes into being; one on the network has its place there (R358, R456). -/
def addReq (s : State) (r : MemReq) : State := { s with reqs := s.reqs ++ [{ r with place := s.places }], places := s.places + 1 }
def delReq (s : State) (rid : Rid) : State := { s with reqs := s.reqs.filter fun r => r.rid != rid }

/-- Whether a home rejected a request, which has not been sent again (R350, R352). -/
def MemReq.rejected (r : MemReq) : Bool :=
  match r.st with
  | .nacked | .waiting _ _ => true
  | _ => false

/-- A request that reads and is not performed, a rejected one among them: it keeps its place (R352). -/
def MemReq.readUndone (r : MemReq) : Bool :=
  (r.kind == .read || r.kind == .atomic) && (r.st == .queued || r.st == .flight || r.rejected)

/-- Whether an agent has reads that are not performed: a later read that would be performed at once waits for them (R358, R366). -/
def readsPending (s : State) (who : Requester) : Bool := s.reqs.any fun r => r.who == who && r.readUndone

/-- An access of a word that acquires (R104). -/
def MemReq.acquires (r : MemReq) : Bool :=
  match r.kind with
  | .read => r.ord == 1#2
  | .atomic => r.ord.getLsbD 0
  | _ => false

/-- Whether a wave has an acquire at cluster scope or wider that is not over: its later accesses do not use the load cache (R354,
R359). -/
def acquiring (s : State) (who : Requester) : Bool :=
  s.reqs.any fun r => r.who == who && r.acquires && 2 ≤ r.scope.toNat

/-- The reads of an agent that are not performed: a store issued now leaves its queue after them (R358). -/
def undoneReads (s : State) (who : Requester) : List Rid := (s.reqs.filter fun r => r.who == who && r.readUndone).map (·.rid)

/-- They as what a word waits for. -/
def readsOf (s : State) (who : Requester) : List BusySrc := (undoneReads s who).map .req

/-- The acquires of an agent that are not over. -/
def acquiresOf (s : State) (who : Requester) : List BusySrc := (s.reqs.filter fun r => r.who == who && r.acquires).map fun r => .req r.rid

/-- Whether an acquire of another gang of a wave is out: a later load of the wave issues when it has read (R354, R359). -/
def acquireOut (s : State) (t w : Nat) (g : BitVec 8) : Bool :=
  s.reqs.any fun r => r.who == .wave t w && r.acquires && r.gang != g

/-- Whether one of these reads is still to be performed. -/
def readsLeft (s : State) (rids : List Rid) : Bool := rids.any fun rid => (req? s rid).any (·.readUndone)

/-- Whether the agent of a request issued reads before it that are not performed. -/
def readsBefore (s : State) (r : MemReq) : Bool :=
  (s.reqs.takeWhile fun q => q.rid != r.rid).any fun q => q.who == r.who && q.readUndone

/-- Whether an agent has reads that are not answered. -/
def readsOpen (s : State) (who : Requester) : Bool := s.reqs.any fun r => r.who == who && (r.kind == .read || r.kind == .atomic)

/-- Whether a write of a core is on its way to a line of a team's scratchpad: a word of the core that reads there waits its turn (R456,
R458). -/
def peerInFlight (s : State) (core t off n : Nat) : Bool :=
  s.reqs.any fun r => Rid.core r.rid == some core && r.st == .flight && r.peer.any fun p =>
    p.1 == t && p.2 / 128 * 128 < off + n && off < p.2 / 128 * 128 + 128

/-- Whether a write of a core is on its way to a line of global memory (R456). -/
def lineInFlight (s : State) (core pa : Nat) : Bool :=
  s.reqs.any fun r => Rid.core r.rid == some core && (r.st == .flight || r.rejected) && r.kind != .read && r.peer.isNone &&
    loc s r.pa / 128 == loc s pa / 128

/-! Forwarding (R200, R358). -/

/-- The last of the queued writes that covers a byte: its value, or that the byte waits for an atomic. -/
inductive Fwd where
  | none
  | val (b : Byte)
  | atomic
  deriving DecidableEq

/-- What the queued global requests give for the byte at a place. -/
def fwdGlobal (s : State) (q : List MemReq) (pa : Nat) : Fwd :=
  q.foldl (fun a r =>
    let o := loc s pa - loc s r.pa
    if loc s r.pa ≤ loc s pa && o < r.size then
      (match r.kind with
        | .write => .val (r.data.getD o 0)
        | _ => .atomic)
    else a) .none

/-- The queued global writes of a wave in queue order. -/
def queuedReqs (s : State) (q : List StoreE) : List MemReq :=
  q.filterMap fun e => match e with
    | .global rid => req? s rid
    | _ => none

/-- What the queued scratchpad stores of a wave of team `self` give for a byte of team `t`. -/
def fwdScratch (q : List StoreE) (self t off : Nat) : Option Byte :=
  q.foldl (fun a e => match e with
    | .scratch o bs _ _ => if self == t && o ≤ off && off < o + bs.length then some (bs.getD (off - o) 0) else a
    | .peer u o bs _ _ => if u == t && o ≤ off && off < o + bs.length then some (bs.getD (off - o) 0) else a
    | .global _ => a) none

/-! Contexts. -/

/-- The extent table and declarations a context's accesses use: those of its starting team (R304). -/
def ctxTeam (s : State) (X : Ctx) : Option Team := team? s (teamKey X.part X.team)

/-- The fault records of a context's word (R337, R429): one for each page. -/
def ctxRecords (s : State) (x : Nat) (X : Ctx) (a : Acc) (ps : List ParkLane) : State :=
  writeFaults s X.part (parkRecords ps fun va lanes idx kind =>
    faultRecord va 0 lanes X.team (64 + x % 16) (accessCode a X.secure) (idx % 256) kind (fbGen s X.part) X.asid)

/-- A context parks at its word (R337); `ps` are the pages it waits for, as lane 0. Where all stand at entries of KIND 10 the fault records
are written at once, otherwise when the others have been translated (R428, R429). -/
def parkCtx (s : State) (x : Nat) (a : Acc) (ps : List ParkLane) : State :=
  match smGet? s.ctxs x with
  | none => s
  | some X =>
    let noted := (ctxTeam s X).any fun T => ps.all fun p => absentEntry T.ext p.idx
    let s1 := modCtx s x fun X => { X with
      st := .parked, stamp := fbGen s X.part, faultVa := (ps.head?).elim 0 (·.va), faultAcc := a.code, wait := some .park,
      noted := noted, parks := ps }
    if noted then ctxRecords s1 x X a (ps.map fun p => { p with code := 1 }) else s1

/-! Ends of an access. -/

/-- Writes a loaded value into a lane's registers; poison marks them (R445). -/
def Wave.load (W : Wave) (d : BitVec 8) (n lane x : Nat) (psn : Bool) : Wave :=
  let W1 := W.putRegs d n lane x
  if psn then (List.range n).foldl (fun W i => W.markReg (codeAt d i) lane) W1 else W1

/-- Marks registers as written later by a request (R27). -/
def Wave.await (W : Wave) (r : Regs) (rid : Rid) : Wave := { W with busy := W.busy ++ r.keys.map fun k => (k, .req rid) }

/-- The end of an access at issue: lanes that park hold the wave (R199); an acquire that waits for its value holds the
gang; an acquire at cluster scope or wider invalidates the load cache (R354); else the word retires. -/
def endAccess (s : State) (t w : Nat) (g : BitVec 8) (bnd : Bool) (a : Acc) (parked : List ParkLane) (acq : Bool)
    (scope : Nat) (pending : Bool) : State :=
  match team? s t with
  | none => s
  | some T =>
    if !parked.isEmpty then parkWave s t w g a parked
    else if acq && pending then holdAt s t w g (.async 0 bnd (.result (acquiresOf s (.wave t w))))
    else
      let s1 := if acq && 2 ≤ scope then invalidate s T.core else s
      modWave s1 t w fun W => W.retire g bnd

/-- A lane of a load: forwarded, from the load cache, or asked of the home (R353, R358). Gives whether it is pending. -/
def loadLane (s : State) (t w : Nat) (g : BitVec 8) (f : MemW) (cached : Bool) (x : OkLane) : State × Bool :=
  match team? s t with
  | none => (s, false)
  | some T =>
    match T.waves[w]? with
    | none => (s, false)
    | some W =>
      let n := accSize f.var.toNat
      let q := queuedReqs s W.storeQ
      let fs := (List.range n).map fun i => fwdGlobal s q (x.pa + i)
      let put (bs : List Byte) (psn : Bool) : State := modWave s t w fun W =>
        W.load f.d (accRegs f.var.toNat) x.lane (loadExt f.var.toNat bs) psn
      let vals := fs.map fun v => match v with
        | .val b => some b
        | _ => none
      if vals.all Option.isSome then (put (vals.map fun v => v.getD 0) false, false)
      else
        let line := loc s x.pa / 128
        let hit := if cached && s.choice % 2 == 0 && !readsPending s (.wave t w) && !acquiring s (.wave t w) &&
            !fs.contains .atomic then
          (core? s T.core).bind fun C => smGet? C.lcache line else none
        match hit with
        | some l =>
          let o := loc s x.pa % 128
          (put ((List.range n).map fun i => (vals.getD i none).getD (l.bytes.getD (o + i) 0)) (l.psn.getLsbD (o / 16)), false)
        | none =>
          let (rid, s1) := nextRid s T.core
          let b := MemReq.blank rid (.wave t w)
          let r : MemReq := { b with
            gang := g
            asid := T.asid
            gen := x.gen
            key := x.key
            sec := x.sec
            va := x.va
            pa := x.pa
            size := n
            ty := f.var
            ord := f.ord
            scope := f.scope
            lane := x.lane
            d := f.d.toNat
            fwd := (List.range n).filterMap fun i => ((vals.getD i none).map fun v => (i, v))
            fill := cached
            epc := W.epcAt g
            st := .flight }
          let s2 := modWave (addReq s1 r) t w fun W => W.await (.block f.d (accRegs f.var.toNat) 1) rid
          (s2, true)

/-- A lane of a store, atomic or reduction enters the store queue (R358, R201). -/
def queueLane (s : State) (t w : Nat) (g : BitVec 8) (f : MemW) (kind : ReqKind) (size : Nat) (data cmp : List Byte)
    (x : OkLane) : State :=
  match team? s t with
  | none => s
  | some T =>
    let (rid, s1) := nextRid s T.core
    let b := MemReq.blank rid (.wave t w)
    let r : MemReq := { b with
      gang := g
      kind := kind
      asid := T.asid
      gen := x.gen
      key := x.key
      sec := x.sec
      va := x.va
      pa := x.pa
      size := size
      data := data
      cmp := cmp
      aop := f.aop
      ty := f.var
      ord := f.ord
      scope := f.scope
      lane := x.lane
      d := f.d.toNat
      epc := ((T.waves[w]?).elim 0 fun W => W.epcAt g) }
    modWave (addReq s1 r) t w fun W =>
      let W1 := { W with storeQ := W.storeQ ++ [.global rid] }
      if kind == .atomic then W1.await (.block f.d (size / 4) 1) rid else W1

end Sys2Proof.Machine
end

