-- ==== Sys2Proof/Machine/Drain.lean ====
section
/-! DEFINITION. How the head of a store queue leaves it (R358, R360, R439, R458, R459). -/

namespace Sys2Proof.Machine

/-- Whether a requester has a write on its way that its home rejected: the later ones wait behind it (R352). -/
def writeNacked (s : State) (who : Requester) : Bool := s.reqs.any fun r => r.who == who && r.kind != .read && r.rejected

/-- Whether a global request is a release (R104, R105). -/
def MemReq.isRelease (r : MemReq) : Bool := r.kind != .read && r.ord.getLsbD 1

/-- Whether two requests go to one 128-byte line, of memory or of a team's scratchpad. -/
def sameLine (s : State) (a b : MemReq) : Bool :=
  match a.peer, b.peer with
  | none, none => loc s a.pa / 128 == loc s b.pa / 128
  | some p, some q => p.1 == q.1 && p.2 / 128 == q.2 / 128
  | _, _ => false

/-- Whether a read that follows a queued request of its agent waits until that has left the queue: an atomic, or a reduction to its
line (R358, R366). -/
def MemReq.heldBack (s : State) (q r : MemReq) : Bool := q.kind == .atomic || (q.kind == .reduction && sameLine s q r)

/-- On the network and not yet answered. -/
def MemReq.inFlight (r : MemReq) : Bool := r.st == .flight || r.rejected

/-- The reads of a request's agent that it held back in its queue: they come after it on the network. -/
def readsBehind (s : State) (r : MemReq) : List Rid :=
  ((s.reqs.dropWhile fun q => q.rid != r.rid).filter fun q => q.who == r.who && q.kind == .read && q.inFlight && MemReq.heldBack s r q).map (·.rid)

/-- A line the core writes is removed from its load cache (R354), and the request is on its way: it has its place from now on, so that the
stores of a core's waves have one order (R358). -/
def sendReq (s : State) (r : MemReq) : State :=
  let s1 := match Rid.core r.rid with
    | some c => dropLines s c fun l => l == loc s r.pa / 128
    | none => s
  let behind := readsBehind s r
  { s1 with
    places := s1.places + 2
    reqs := s1.reqs.map fun q =>
      if q.rid == r.rid then { q with st := .flight, place := s1.places }
      else if behind.contains q.rid then { q with place := s1.places + 1 } else q }

/-- A wave's queue gets shorter: fences, sends and barriers may go on. -/
def afterDrain (s : State) (t w : Nat) : State := tryBar (wakeWave s t w) t

/-- Own-scratchpad bytes leave the queue (R358, R439), `psn` marking them: a region a claim has taken meanwhile is written in its image. -/
def performScratch (s : State) (t off : Nat) (bs : List Byte) (psn : Bool) : Option State :=
  match team? s t with
  | none => some s
  | some T =>
    if (regionsOf off bs.length).all fun i => T.unitSt false i == .present then
      let T1 := scratchSet T off bs
      some (setTeam s t (if psn then scratchMark T1 off bs.length else T1))
    else if outsideWaits T off bs.length then none
    else some (outsideWrite s t off bs psn)

/-- Peer bytes leave the queue (R196, R439). A team that ended meanwhile takes nothing. -/
def performPeer (s : State) (u off : Nat) (bs : List Byte) (psn : Bool) : Option State :=
  match team? s u with
  | none => some s
  | some U => if U.st == .ended then some s else performScratch s u off bs psn

/-- Bytes for another core's scratchpad go on the network (R458). -/
def sendPeer (s : State) (who : Requester) (u off : Nat) (bs : List Byte) : State :=
  match (requesterTeam s who).bind (team? s) with
  | none => s
  | some T =>
    let (rid, s1) := nextRid s T.core
    let b := MemReq.blank rid who
    addReq s1 { b with kind := .write, size := bs.length, data := bs, st := .flight, peer := some (u, off) }

/-- The head of a wave's store queue leaves it, when it may: after the wave's earlier reads (R358), a release with no write
unacknowledged (R360). -/
def drainWave (s : State) (t w : Nat) : State :=
  match wave? s t w with
  | none => s
  | some W =>
    match W.storeQ with
    | [] => s
    | e :: q =>
      let who := Requester.wave t w
      let pop (s : State) : State := afterDrain (modWave s t w fun W => { W with storeQ := q }) t w
      if writeNacked s who || ((team? s t).bind fun T => core? s T.core).any (·.stopped) then s
      else
        match e with
        | .scratch off bs rel after =>
          if (rel && W.owc != 0) || readsLeft s after then s
          else (performScratch s t off bs false).elim s pop
        | .peer u off bs rel after =>
          if (rel && W.owc != 0) || readsLeft s after then s
          else if ((team? s u).map (·.core)) == ((team? s t).map (·.core)) then (performPeer s u off bs false).elim s pop
          else if Config.maxOwc ≤ W.owc then s
          else pop (modWave (sendPeer s who u off bs) t w fun W => { W with owc := W.owc + 1 })
        | .global rid =>
          match req? s rid with
          | none => pop s
          | some r =>
            if (r.isRelease && W.owc != 0) || readsBefore s r || Config.maxOwc ≤ W.owc then s
            else pop (modWave (sendReq s r) t w fun W => { W with owc := W.owc + 1 })

/-- The head of a context's store queue leaves it, when it may. -/
def drainCtx (s : State) (x : Nat) : State :=
  match smGet? s.ctxs x with
  | none => s
  | some X =>
    match X.storeQ with
    | [] => s
    | rid :: q =>
      let who := Requester.context x
      if writeNacked s who || unitStopped s X.part (ctxUnit x) then s
      else
        match req? s rid with
        | none => modCtx s x fun X => { X with storeQ := q }
        | some r =>
          if r.isRelease && (X.owc != 0 || readsBefore s r) then s
          else modCtx (sendReq s r) x fun X => { X with storeQ := q, owc := X.owc + 1 }

end Sys2Proof.Machine
end

