-- ==== Sys2Proof/Machine/Init.lean ====
section
/-! DEFINITION. Pieces of state as they are made: slices, waves and teams (R10, R18, R37, R41, R45, R328, R390), and the set-up that puts one word where the next step fetches. -/

namespace Sys2Proof.Machine

/-- A slice at the creation of its wave (R18). -/
def Slice.fresh (live : Bool) (entry : BitVec 53) : Slice := ⟨live, entry, 0xF, 0, [], 0, .free⟩

/-- A wave at its creation (R18, R37, R45). -/
def Wave.fresh (nslices : Nat) (entry : BitVec 53) : Wave where
  slices := (List.range 8).map fun i => if i < nslices then Slice.fresh true entry else Slice.dead
  v := []
  s := []
  p := []
  vpoison := []
  spoison := []
  cause := 0
  wepc := 0
  wpark := 0
  wtraparg := 0
  whandler := 0
  cte := false
  intrap := false
  defer := false
  wclock := 0
  fpctl := 0
  mbdest := 0
  trapGang := 0
  parkGang := 0
  parked := false
  replay := false
  parks := []
  parkAcc := 0
  stamp := 0
  lastGang := 0
  blockedAt := none
  blockTh := 0
  mbox := []
  mbReserved := 0
  storeQ := []
  owc := 0
  busy := []
  slots := []
  sending := none
  resendAt := none
  refused := false
  descs := []
  taken := ([], none)
  late := none
  ordered := false

/-- A tile at the creation of its team (R41, R240). -/
def Tile.fresh : Tile := ⟨[], [], .xf48, 0, 0, false, false, false, false⟩

/-- A FIFO at the creation of its team (R328). -/
def Fifo.fresh : Fifo := ⟨.idle, [], none⟩

/-- A team of a launch before it is created (R390). -/
def Team.blank (serial tag launch part index core : Nat) : Team where
  serial := serial
  tag := tag
  launch := launch
  part := part
  index := index
  core := core
  st := .waiting
  created := false
  base := 0
  since := 0
  charged := false
  nregs := 0
  nslices := 0
  nwaves := 0
  naccs := 0
  regions := 0
  secure := false
  repro := false
  asid := 0
  waves := []
  mp := List.replicate 4 (BitVec.allOnes 128)
  np := List.replicate 8 (BitVec.allOnes 128)
  fifos := List.replicate 4 Fifo.fresh
  tiles := []
  tileSt := []
  mxq := []
  mxNext := 0
  mxBatch := 0
  mxTl := 0
  mxOut := none
  issuedPlane := none
  plane := none
  planeData := none
  copies := []
  copyNum := 0
  copyTl := 0
  copyOut := none
  chains := []
  scratch := []
  scratchPsn := []
  regSt := []
  ext := []
  arena := []
  closed := []
  allocGen := 0
  image := none
  ctxSaved := false
  saved := []
  filled := false
  savedAt := 0
  killed := false
  forced := false

/-- The entry pc of a packet. -/
def Launch.pc (L : Launch) : BitVec 53 := BitVec.ofNat 53 (L.entry / 8)

/-- A team takes its shape from its launch (R382). -/
def Team.shaped (T : Team) (L : Launch) : Team :=
  let sh := L.shape.toNat
  { T with
    base := L.prio
    nregs := 32 * bits sh 21 19
    nslices := bits sh 18 15
    nwaves := bits sh 6 0
    naccs := bits sh 24 22
    regions := (L.scratch + 32767) / 32768
    secure := L.secure
    repro := L.repro
    asid := L.asid }

/-- Creation: the team first enters Resident (R18, R37, R41, R390, R437). -/
def Team.create (T : Team) (entry : BitVec 53) (gen : Nat) : Team :=
  { T with
    created := true
    waves := List.replicate T.nwaves (Wave.fresh T.nslices entry)
    tiles := List.replicate T.naccs Tile.fresh
    tileSt := List.replicate T.naccs .fresh
    regSt := List.replicate T.regions .fresh
    allocGen := gen }

def Launch.blank (id part : Nat) : Launch where
  id := id
  part := part
  node := 0
  firing := 0
  entry := 0
  asid := 0
  prio := 0
  repro := false
  secure := false
  grid := 1
  shape := 0
  scratch := 0
  pkind := 0
  pmul := 0
  parg := 0
  dkind := 0
  ddiv := 0
  dmlo := 0
  dalo := 0
  dmhi := 0
  dahi := 0
  bitmap := 0
  exts := []
  heap := none
  arena := 0
  energy := 0
  doneAddr := 0
  counters := []
  batch := []
  slots := []
  created := 0
  endedTeams := []
  ended := false
  killed := false

/-! One word where the next step fetches (log entry 9). -/

/-- The shape of the placed word's team: one wave of 8 slices, 192 vector registers, 4 tiles. -/
def placeShape : Word := BitVec.ofNat 32 (4 * 2 ^ 22 + 6 * 2 ^ 19 + 8 * 2 ^ 15 + 1)

def placeLaunch : Launch := { Launch.blank 1 0 with shape := placeShape, scratch := 524288 }

/-- The page the word stands in: readable, writable and executable at virtual and physical address 0. -/
def placeExtent : Extent := ⟨1, 0, 1, 0, 0, false, false, true, true, true, 0, 0⟩

def placeTeam : Team :=
  { (((Team.blank 1 1 1 0 0 0).shaped placeLaunch).create 0 1) with st := .active, ext := [placeExtent] }

def placeEval : Eval where
  slot := 0
  pc := 0
  entry := 0
  v := []
  s := []
  p := []
  vpoison := []
  spoison := []
  fpctl := 0
  lane := 0
  argPsn := []
  args := []
  done := false
  phat := 0
  vis := none
  cause := none
  parkAt := none

/-- Lays a word at physical address 0 of a module with its stacks in service, a partition and an address space, and gives
it an issuer in its own profile: wave 0 of an active team on core 0, context 0 of cluster 0, or a lane of that cluster's
evaluator. -/
def placeWord (s : State) (bs : List Byte) (opc : Nat) (paired : Bool) : State :=
  let k := teamKey 0 1
  let stream := !paired && 0xD0 ≤ opc
  let lane := !paired && 0xC0 ≤ opc && opc < 0xD0
  { s with
    cur := .none
    agenda := [⟨if stream then .contrail 0 else if lane then .lane 0 else .issue 0 0, 0, 0⟩]
    hbm := List.replicate 10 ⟨true, 5859375, 0⟩
    mem := ((List.range bs.length).zip bs).foldl (fun m p => smPut 0 m p.1 p.2) s.mem
    memPsn := nsDel s.memPsn 0
    regions := []
    asids := smSet s.asids 0 ⟨1, 0, none, []⟩
    parts := smSet s.parts 0 (Part.blank (List.range 50))
    launches := smSet s.launches 1 placeLaunch
    teams := smSet s.teams k placeTeam
    cores := smSet s.cores 0 { Core.blank true with active := some k, ready := setAt (List.replicate 8 []) 0 [0] }
    clusters := smSet s.clusters 0 { Cluster.blank with
      passes := setAt (List.replicate 4 Pass.blank) 0 { Pass.blank with st := .running, team := k, launch := 1, ext := [placeExtent] }
      evals := [placeEval] }
    ctxs := smSet s.ctxs 0 { Ctx.blank with st := .running, team := 1, launch := 1 } }

end Sys2Proof.Machine
end

