-- ==== Sys2Proof/Machine/Mailbox.lean ====
section
/-! DEFINITION. The mailbox network (R226, R461–R464): messages at their target, refusals, reserved slots and the ends of
sending words. -/

namespace Sys2Proof.Machine

/-- The flits without flit n. -/
def dropMail (s : State) (n : Nat) : State := { s with mails := s.mails.eraseIdx n }

/-- Whether two flits go from one unit to one unit on one network, which keeps their order (R451, R456). -/
def sameMailLane (a b : MailFlit) : Bool :=
  let net (f : MailFlit) : Bool := f.kind == .mail || f.kind == .control
  let path (f : MailFlit) : (Nat × Nat) × (Nat × Nat) :=
    if f.kind == .mail then ((f.fromMod, f.fromCore), (f.toMod, f.toCore)) else ((f.toMod, f.toCore), (f.fromMod, f.fromCore))
  net a == net b && path a == path b

/-- Whether flit n is the next of its lane. -/
def mailNext (s : State) (n : Nat) (f : MailFlit) : Bool := !(s.mails.take n).any fun g => sameMailLane g f

/-- The wave a message is for: the team of the launch that the core holds, if it has the wave (R226). -/
def mailTarget (s : State) (f : MailFlit) : Option (Nat × Wave) :=
  (heldTeam s f.launch f.toCore).bind fun p => (p.2.waves[f.toWave]?).map fun W => (p.1, W)

/-- Room in a receive FIFO of 16 messages, beside the reserved slots (R226, R462). -/
def Wave.mboxRoom (W : Wave) : Bool := W.mbox.length + W.mbReserved < 16

/-- Whether two flits are for one wave. -/
def sameTarget (a b : MailFlit) : Bool := a.launch == b.launch && a.toCore == b.toCore && a.toWave == b.toWave

/-- Whether two flits are of one sender. -/
def sameSender (a b : MailFlit) : Bool :=
  a.fromMod == b.fromMod && a.fromCore == b.fromCore && a.fromTeam == b.fromTeam && a.fromWave == b.fromWave

/-- A core keeps a refused sender in its list of 16, once (R462). -/
def Core.listSender (C : Core) (f : MailFlit) : Core × Bool :=
  if C.mbRefused.any fun g => sameTarget g f && sameSender g f then (C, true)
  else if C.mbRefused.length < 16 then ({ C with mbRefused := C.mbRefused ++ [f] }, true)
  else (C, false)

/-- A message that enters a FIFO in a save image is written there by the spill engine (R439, R463): the context part is in its
own layout (R440), so what its bytes become is free. What a management core had written there stands. -/
def intoImage (s : State) (t : Nat) : State :=
  match team? s t with
  | none => s
  | some T =>
    match T.st, imageBase s T with
    | .saved, some b =>
      let had := physGet s (b + 0x100040) T.saved.length
      let (bs, s1) := freeBytes s (min (contextBytes T) (2 ^ 20 - 64))
      ownWrite (modTeam s1 t fun T => { (if had == T.saved then T else T.restored had) with saved := bs }) (b + 0x100040) bs
    | _, _ => s

/-- A stopped core takes nothing and sends nothing (R446). -/
def coreStopped (s : State) (c : Nat) : Bool := (core? s c).elim true (·.stopped)

/-- MAIL (R462, R463): the target accepts or refuses the message; one without a target is counted and dropped. -/
def execMail (n : Nat) (s : State) : Host.Outcome State Fault Refusal :=
  finishEvent s do
    let f ← need s.mails[n]?
    needs (f.kind == .mail && mailNext s n f && !coreStopped s f.toCore)
    let C ← need (core? s f.toCore)
    let s1 := dropMail s n
    match mailTarget s f with
    | none => .ok (postMail (modCore s1 f.toCore fun C => { C with mbdrop := min (C.mbdrop + 1) (2 ^ 32 - 1) }) { f with kind := .acc })
    | some (t, W) =>
      if (f.granted && W.mbReserved != 0) || (W.mboxRoom && !C.mbRefused.any (sameTarget f)) then
        let s2 := modWave s1 t f.toWave fun W => { W with
          mbox := W.mbox ++ [f.msg]
          mbReserved := if f.granted then W.mbReserved - 1 else W.mbReserved }
        .ok (wakeWave (postMail (intoImage s2 t) { f with kind := .acc }) t f.toWave)
      else
        let (C1, listed) := C.listSender f
        .ok (postMail (modCore s1 f.toCore fun _ => C1) { f with kind := .ref, listed := listed })

/-- The wave whose sending word a flit answers; a team that ended takes no answer. -/
def mailSender (s : State) (f : MailFlit) : Option Wave :=
  (wave? s f.fromTeam f.fromWave).bind fun W => if W.sending.isSome then some W else none

/-- MAILACC (R461): the sending word completes. -/
def execMailacc (n : Nat) (s : State) : Host.Outcome State Fault Refusal :=
  finishEvent s do
    let f ← need s.mails[n]?
    needs (f.kind == .acc && mailNext s n f && !coreStopped s f.fromCore)
    let s1 := dropMail s n
    match mailSender s f with
    | none => .ok s1
    | some W =>
      let s2 := modWave s1 f.fromTeam f.fromWave fun W => { W.settle with sending := none, resendAt := none, refused := false, taken := ([], none) }
      .ok (wakeWave ((W.asyncGangs 0 .send).foldl (fun s g => retireHeld s f.fromTeam f.fromWave g.1 g.2) s2) f.fromTeam f.fromWave)

/-- MAILREF (R462): the sending word waits; a sender that was not recorded sends again later. A word whose team is swapped out
while it waits issues again (R228). -/
def execMailref (n : Nat) (s : State) : Host.Outcome State Fault Refusal :=
  finishEvent s do
    let f ← need s.mails[n]?
    needs (f.kind == .ref && mailNext s n f && !coreStopped s f.fromCore)
    let s1 := dropMail s n
    match mailSender s f with
    | none => .ok s1
    | some _ => .ok (modWave s1 f.fromTeam f.fromWave fun W => { W with
        refused := true, resendAt := if f.listed then W.resendAt else some s.now })

/-- The message of a sending word goes out again. -/
def resend (s : State) (t w : Nat) (granted : Bool) : State :=
  match (wave? s t w).bind (·.sending) with
  | none => s
  | some f => postMail (modWave s t w fun W => { W with resendAt := none, refused := false }) { f with granted := granted }

/-- Whether the team of a waiting sender is in the active bank: only then does its word send again (R228). -/
def senderActive (s : State) (f : MailFlit) : Bool := (team? s f.fromTeam).any fun T => T.st == .active

/-- MAIL_SLOT_GRANT (R462): `team` and `wave` name the receiver. A receiver that is gone has room for every sender: what
they send is dropped (R463). -/
def execMailSlotGrant (team wave : Nat) (s : State) : Host.Outcome State Fault Refusal :=
  finishEvent s do
    let T ← need (team? s team)
    let C ← need (core? s T.core)
    needs (!C.stopped)
    let mine (f : MailFlit) : Bool := f.launch == T.launch && f.toWave == wave
    let i ← need (C.mbRefused.findIdx? mine)
    let f ← need C.mbRefused[i]?
    let target := mailTarget s f
    needs (target.elim true fun p => p.1 == team && p.2.mboxRoom)
    let s1 := modCore s T.core fun C => { C with mbRefused := C.mbRefused.eraseIdx i }
    let s2 := if target.isSome then modWave s1 team wave fun W => { W with mbReserved := W.mbReserved + 1 } else s1
    .ok (postMail s2 { f with kind := .control })

/-- A reserved slot is given back, when its receiver is in this module. -/
def unreserve (s : State) (f : MailFlit) : State :=
  if f.toMod != s.moduleNo then s
  else match mailTarget s f with
    | some (t, _) => modWave s t f.toWave fun W => { W with mbReserved := W.mbReserved - 1 }
    | none => s

/-- MAILBOX_CONTROL_FLIT (R462): the sender sends into its reserved slot. The slot of a sender that has ended, or whose team was
swapped out while its word waited, is free again: that word issues again from the start (R228). The signal may overtake the answer to
the message, MAILREF, on the other network: it then waits for it. -/
def execMailboxControlFlit (n : Nat) (s : State) : Host.Outcome State Fault Refusal :=
  finishEvent s do
    let f ← need s.mails[n]?
    needs (f.kind == .control && mailNext s n f && !coreStopped s f.fromCore)
    let s1 := dropMail s n
    let waiting := senderActive s f && (mailSender s f).any fun W => W.sending.any (sameTarget f)
    if !waiting then .ok (unreserve s1 f)
    else do
      needs ((mailSender s f).any (·.refused))
      .ok (resend s1 f.fromTeam f.fromWave true)

/-- MAIL_RESEND_TIMEOUT (R462): 1,024 mc are 512 cc (R1). -/
def execMailResendTimeout (team wave : Nat) (s : State) : Host.Outcome State Fault Refusal :=
  finishEvent s do
    let W ← need (wave? s team wave)
    let t0 ← need W.resendAt
    let f ← need W.sending
    needs (t0 + 512 ≤ s.now && senderActive s f && !coreStopped s ((team? s team).elim 400 (·.core)))
    .ok (resend s team wave false)

/-- MBDROP of a core is read and cleared (R464). -/
def readMbdrop (s : State) (core : Nat) (C : Core) : State :=
  modCore (emitOut s (.csrValue (dieOf core * 4096 + 0xA00 + core % 200) (BitVec.ofNat 64 C.mbdrop))) core fun C =>
    { C with mbdrop := 0 }

/-- MBDROP_READ (R464): the die's management cores read the counter and clear it. -/
def execMbdropRead (core : Nat) (s : State) : Host.Outcome State Fault Refusal :=
  finishEvent s do
    let C ← need (core? s core)
    .ok (readMbdrop s core C)

end Sys2Proof.Machine
end

