-- ==== Sys2Proof/Machine/Engine.lean ====
section
/-! DEFINITION. How engines reach global memory: translation by the extents of the team they work for, the checks of the
home, poison (R239, R298, R321, R330, R488, R490), and the fatal conditions they can meet (R422, R446, R505). -/

namespace Sys2Proof.Machine

/-- What an engine's accesses are made with: who makes them, at which tile, address space, extents, declarations, world, the partition and the
stop-area slot that a violation names. -/
structure Eng where
  who : Requester
  tile : Nat
  part : Nat
  unit : Nat
  asid : Nat
  ext : List Extent
  decls : List (Nat × Nat × Nat × Nat)
  idx : Nat
  secure : Bool

/-- What comes of an engine's access: bytes with their marks, a trapping fault, a replayable fault, a region of the other
world, or that lines of another module were asked for. -/
inductive EngRes where
  | ok (bs : List (Byte × Bool))
  | trap (c : Cause) (va : Nat)
  | park (code idx va : Nat)
  | world (pa : Nat)
  | far
  deriving DecidableEq, Repr

/-- A range cut where a page or an interleave granule may change: at multiples of 2 KiB (R342, R344). -/
def cutRange (va n : Nat) : List (Nat × Nat) :=
  if n == 0 then []
  else (List.range ((va % 2048 + n + 2047) / 2048)).map fun i =>
    let lo := max va (va / 2048 * 2048 + 2048 * i)
    let hi := min (va + n) (va / 2048 * 2048 + 2048 * (i + 1))
    (lo, hi - lo)

/-- One piece of an access judged (R348, R350, R488, R490): its physical address, or that its stack is out of service. -/
inductive Judge where
  | go (pa : Nat)
  | discard (pa : Nat)
  | bad (r : EngRes)
  deriving DecidableEq

def judge (s : State) (E : Eng) (a : Acc) (va : Nat) : Judge :=
  match matchExtent s E.tile E.asid E.ext (declared E.decls E.idx va) va a with
  | .miss => .bad (.trap .extentMiss va)
  | .perm => .bad (.trap .perm va)
  | .park code i => .bad (.park code i va)
  | .ok pa key sec gen =>
    match homeCheck s pa E.asid gen key sec E.secure true with
    | .perform => .go pa
    | .discard => .discard pa
    | .nack => .bad (.park 0x42 ((extentAt E.ext va).getD 0xFF) va)
    | .refuse => .bad (.trap .perm va)
    | .world => .bad (.world pa)

/-- The first failure among the pieces of an access. -/
def firstBad (s : State) (E : Eng) (a : Acc) (va n : Nat) : Option EngRes :=
  (cutRange va n).findSome? fun p => match judge s E a (p.1 % 2 ^ 64) with
    | .bad r => some r
    | _ => none

/-- The pages of an access that are not there, as lane 0 of a word (R429). -/
def badPages (s : State) (E : Eng) (a : Acc) (va n : Nat) : List ParkLane :=
  (cutRange va n).filterMap fun p => match judge s E a (p.1 % 2 ^ 64) with
    | .bad (.park code idx v) => some ⟨0, v, code, idx⟩
    | _ => none

/-- Whether the stack of an address of this module is out of service (R490). -/
def stackOut (s : State) (pa : Nat) : Bool :=
  (place s pa).any fun p => p.other.isNone && !((s.hbm.map (·.en)).getD p.stack false)

/-- A stack out of service counts a request (R490). -/
def countDiscard (s : State) (pa : Nat) : State :=
  match place s pa with
  | some p => { s with hbm := modAt s.hbm p.stack fun h => { h with discarded := h.discarded + 1 } }
  | none => s

/-- A stack out of service counts the requests of an engine that it answers NACK (R490). -/
def countNacks (s : State) (E : Eng) (a : Acc) (va n : Nat) : State :=
  (cutRange va n).foldl (fun s p =>
    match matchExtent s E.tile E.asid E.ext (declared E.decls E.idx (p.1 % 2 ^ 64)) (p.1 % 2 ^ 64) a with
    | .ok pa key sec gen =>
      if stackOut s pa && homeCheck s pa E.asid gen key sec E.secure true == .nack then countDiscard s pa else s
    | _ => s) s

/-! Lines of other modules (R484). -/

/-- A line that has come for a requester. -/
def farLine? (s : State) (who : Requester) (pa : Nat) : Option FarLine :=
  s.far.find? fun l => l.who == who && l.line == loc s pa / 128

/-- Whether the bytes of a physical range can be read by a requester now: they are this module's, or their lines have come. -/
def atHand (s : State) (who : Requester) (pa n : Nat) : Bool :=
  (linePieces pa n).all fun p => !remote s p.1 || (farLine? s who p.1).isSome

/-- A byte with its mark, as its home has it or has sent it. -/
def byteAt (s : State) (who : Requester) (pa : Nat) : Byte × Bool :=
  if !remote s pa then ((physGet s pa 1).headD 0, physPsn s pa)
  else match farLine? s who pa with
    | some l => (l.bytes.getD (loc s pa % 128) 0, l.psn.getLsbD (loc s pa % 128 / 16))
    | none => (0, false)

/-- What has come for a requester is used up. -/
def dropFar (s : State) (who : Requester) : State := { s with far := s.far.filter fun l => l.who != who }

/-- A line that has come is used up. -/
def useFar (s : State) (who : Requester) (pa : Nat) : State :=
  { s with far := s.far.filter fun l => !(l.who == who && l.line == loc s pa / 128) }

/-! Writes and their acknowledgements (R458). -/

/-- The next request identity of an engine (R453): the matrix engine, streams and copies of waves are the core's port. -/
def engRid (s : State) (who : Requester) : Rid × State :=
  match who with
  | .context x | .scopy x _ => nextCtxRid s x
  | .pass k _ => nextPhRid s k
  | .host _ _ | .own | .request _ => (⟨s.moduleNo, 0, 0, 31, s.places % 2 ^ 20⟩, s)
  | who => nextRid s (((requesterTeam s who).bind (team? s)).elim 0 (·.core))

/-- A requester asks another module for a line it needs, unless it has done so: `r` says with what the request is made (R484). A read of 128
bytes is such a request. -/
def askLine (s : State) (r : MemReq) : State :=
  let n := loc s r.pa / 128
  if !remote s r.pa || (farLine? s r.who r.pa).isSome ||
      s.reqs.any (fun q => q.who == r.who && q.kind == .read && q.size == 128 && loc s q.pa / 128 == n) then s
  else
    let (rid, s1) := engRid s r.who
    addReq s1 { r with rid := rid, va := r.va / 128 * 128, pa := r.pa / 128 * 128, size := 128, st := .flight, via := rid.die }

/-- An engine asks for the lines of other modules in a range. -/
def askEng (s : State) (E : Eng) (a : Acc) (va n : Nat) : State :=
  (linePieces va n).foldl (fun s p =>
    let v := p.1 % 2 ^ 64
    match matchExtent s E.tile E.asid E.ext (declared E.decls E.idx v) v a with
    | .ok pa key sec gen =>
      let b := MemReq.blank ⟨s.moduleNo, 0, 0, 0, 0⟩ E.who
      askLine s { b with asid := E.asid, gen := gen, key := key, sec := sec, va := v, pa := pa, eng := some (E.unit, E.secure) }
    | _ => s) s

/-- The outstanding-write count of an engine: its writes whose ACK has not come (R458). -/
def engOwc (s : State) (who : Requester) : Nat := (s.reqs.filter fun r => r.who == who && r.kind != .read).length

/-- One write of an engine leaves it. In this module it is performed at once, and its ACK is on the way (log entry 96); to another module it
goes as a request. -/
def sendWrite (s : State) (E : Eng) (va pa key gen : Nat) (sec : Bool) (bs : List Byte) (psn : Bool) : State :=
  let (rid, s1) := engRid s E.who
  let b := MemReq.blank rid E.who
  let r : MemReq := { b with
    kind := .write
    asid := E.asid
    gen := gen
    key := key
    sec := sec
    va := va
    pa := pa
    size := bs.length
    bad := psn
    eng := some (E.unit, E.secure) }
  if remote s pa then
    { addReq s1 { r with data := bs, st := .flight } with far := s.far.filter fun l => l.line != loc s pa / 128 }
  else
    let s2 := physSet s1 pa bs
    let s3 := if psn then physMark s2 pa bs.length true else s2
    addReq { s3 with served := s3.served + 1 } { r with st := .acked, served := s3.served }

/-! Reading and writing. -/

/-- An engine reads n bytes, or asks for the lines it lacks. -/
def engRead (s : State) (E : Eng) (va n : Nat) : State × EngRes :=
  match firstBad s E .read va n with
  | some r => (countNacks s E .read va n, r)
  | none =>
    let far := (cutRange va n).any fun p => match judge s E .read (p.1 % 2 ^ 64) with
      | .go pa => !atHand s E.who pa p.2
      | _ => false
    if far then (askEng s E .read va n, .far)
    else
      let (s1, bs) := (cutRange va n).foldl (fun a p =>
        let (s, bs) := a
        match judge s E .read (p.1 % 2 ^ 64) with
        | .go pa => (s, bs ++ (List.range p.2).map fun i => byteAt s E.who (pa + i))
        | .discard pa =>
          let (fs, s2) := freeBytes (countDiscard s pa) p.2
          (s2, bs ++ fs.map fun b => (b, true))
        | .bad _ => (s, bs)) (s, [])
      (s1, .ok bs)

/-- An engine writes bytes, line by line; a mark poisons what it writes. -/
def engWrite (s : State) (E : Eng) (va : Nat) (bs : List Byte) (psn : Bool) : State × EngRes :=
  match firstBad s E .write va bs.length with
  | some r => (countNacks s E .write va bs.length, r)
  | none =>
    ((linePieces va bs.length).foldl (fun s p =>
      match matchExtent s E.tile E.asid E.ext (declared E.decls E.idx (p.1 % 2 ^ 64)) (p.1 % 2 ^ 64) .write with
      | .ok pa key sec gen =>
        (match judge s E .write (p.1 % 2 ^ 64) with
          | .go _ => sendWrite s E (p.1 % 2 ^ 64) pa key gen sec (sliceB bs (p.1 - va) p.2) psn
          | .discard _ => countDiscard s pa
          | .bad _ => s)
      | _ => s) s, .ok [])

/-- The engine of a team's own work: the matrix engine; copies and streams name themselves. -/
def teamEng (s : State) (T : Team) (unit : Nat) : Eng where
  who := .matrix T.key
  tile := clusterOf T.core
  part := T.part
  unit := unit
  asid := T.asid
  ext := T.ext
  decls := Team.decls s T
  idx := T.index
  secure := T.secure

/-- The engine of a pass (R504: of its own world, which is the partition's). -/
def passEng (s : State) (P : Pass) (cluster slot : Nat) : Eng where
  who := .pass cluster slot
  tile := cluster
  part := P.part
  unit := (cluster / 25) * 1024 + 800 + cluster % 25
  asid := P.asid
  ext := match team? s P.team with
    | some T => if T.launch == P.launch then T.ext else P.ext
    | none => P.ext
  decls := (smGet? s.launches P.launch).elim [] (·.exts)
  idx := (team? s P.team).elim 0 (·.index)
  secure := P.secure

/-- What the fetch queue of a core's Contrail engine moves, in bursts of 256 bytes: the copies are due as many (R413). -/
def fetchBursts (s : State) (core n : Nat) : State :=
  modCluster s (clusterOf core) fun C => { C with owed := modAt C.owed (core / 2 % 4) fun k => k + (n + 255) / 256 }

/-- The fault records of an engine: one for each distinct page (R429). -/
def engineRecords (s : State) (part asid : Nat) (secure : Bool) (serial wave : Nat) (a : Acc) (pages : List ParkLane) : State :=
  writeFaults s part (parkRecords pages fun va lanes idx kind =>
    faultRecord va 0 lanes serial wave (accessCode a secure) (idx % 256) kind (fbGen s part) asid)

/-- An engine parks at an access (R433): its records are written at once when every page stands at an entry of KIND 10, otherwise when
the others have been translated (R428, R429). -/
def parkEngine (s : State) (E : Eng) (serial wave : Nat) (a : Acc) (pages : List ParkLane) : State × EngPark :=
  let p : EngPark := ⟨pages, a.code, fbGen s E.part, pages.all fun l => absentEntry E.ext l.idx⟩
  (if p.noted then engineRecords s E.part E.asid E.secure serial wave a (pages.map fun l => { l with code := 1 }) else s, p)

/-- The page an access stopped at. -/
def onePage (code idx va : Nat) : List ParkLane := [⟨0, va, code, idx⟩]

def engBytes (bs : List (Byte × Bool)) : List Byte := bs.map (·.1)
def engMarked (bs : List (Byte × Bool)) : Bool := bs.any (·.2)

end Sys2Proof.Machine
end

