-- ==== Sys2Proof/Machine/MemOps.lean ====
section
/-! DEFINITION. The meanings of the memory instructions (R194–R206, R310): LD, ST, LDU, STU, LDS, STS, LDP, STP, ATOM,
ATOMS, RED, APPEND, DECLINE, FENCE. -/

namespace Sys2Proof.Machine

/-! Global loads and stores. -/

/-- The addresses of the lanes a word acts on: on the uniform datapath the lowest active lane's alone (R194). -/
def WCtx.addrs (c : WCtx) (uni : Bool) (addr : Nat → Nat) : List (Nat × Nat) :=
  (if uni then (lanesOf c.lanes).take 1 else lanesOf c.lanes).map fun l => (l, addr l)

/-- Whether a load's policy, ordering and scope let it read and fill the load cache (R353). -/
def cachedLoad (f : MemW) : Bool := (f.h == 0#2 || f.h == 3#2) && (f.ord != 1#2 || f.scope.ult 2#3)

/-- Uniform or z. -/
def uniOrZ (c : BitVec 8) : Bool := isUniform c || c == 0xF8#8

/-- Vector or z. -/
def vecOrZ (c : BitVec 8) : Bool := isVector c || c == 0xF8#8

/-- LD and LDU on a wave (R194, R198–R200). -/
def loadGlobal (f : MemW) (uni : Bool) (c0 : WCtx) : Except Stop State := do
  let srcs := [Regs.pair f.a, Regs.one f.b]
  let d := Regs.ofW f.d (accRegs f.var.toNat)
  trapIf (if uni then !(uniOrZ f.d && uniOrZ f.a && uniOrZ f.b) else !vecOrZ f.d) .illegalEnc
  let c ← c0.open srcs [d] false
  let size := accSize f.var.toNat
  let plan ← planLanes c.s c.T .read size (c.addrs uni (c.gAddr f size))
  c.checkPoison srcs
  waitIf (acquireOut c0.s c.t c.w c.gang) (.result (acquiresOf c0.s (.wave c.t c.w))) c0.s
  let (s1, pending) := plan.ok.foldl (fun a x =>
    let (s, p) := loadLane a.1 c.t c.w c.gang f (cachedLoad f) x
    (s, a.2 || p)) (c.put c.W, false)
  .ok (endAccess s1 c.t c.w c.gang f.bnd .read plan.parked (f.ord == 1#2) f.scope.toNat pending)

/-- ST and STU on a wave (R194, R200): the stores enter the store queue in ascending lane order. -/
def storeGlobal (f : MemW) (uni : Bool) (c0 : WCtx) : Except Stop State := do
  let n := accRegs f.var.toNat
  let srcs := [Regs.pair f.a, Regs.one f.b, Regs.ofW f.d n]
  trapIf (if uni then !(uniOrZ f.d && uniOrZ f.a && uniOrZ f.b) else !(vecOrZ f.d || isUniform f.d)) .illegalEnc
  let c ← c0.open srcs [] false
  let size := accSize f.var.toNat
  let plan ← planLanes c.s c.T .write size (c.addrs uni (c.gAddr f size))
  c.checkPoison srcs
  let s1 := plan.ok.foldl (fun s x =>
    queueLane s c.t c.w c.gang f .write size (toBytes size (c.regN f.d n x.lane)) [] x) (c.put c.W)
  .ok (endAccess s1 c.t c.w c.gang f.bnd .write plan.parked false 0 false)

/-! Requests of a context (R310). -/

/-- R348 for a context's address. -/
def ctxTr (s : State) (X : Ctx) (a : Acc) (va : Nat) : Tr :=
  match ctxTeam s X with
  | none => .miss
  | some T => teamTr s T a va

/-- A context's address (R310). -/
def KCtx.gAddr (c : KCtx) (f : MemW) (size : Nat) : Nat := effAddr 64 (c.k f.a) 0 0 f.off8.toNat size

/-- What a context's access does: translation and the traps in the order of R423, then a request made from what it carries. -/
def ctxAccess (c : KCtx) (f : MemW) (a : Acc) (srcs : List (BitVec 8)) (size : Nat) (go : Nat → Nat → Bool → Nat → Except Stop State) :
    Except Stop State := do
  let va := c.gAddr f size
  trapIf (va % size != 0) .misalign (BitVec.ofNat 64 va)
  match ctxTr c.s c.X a va with
  | .miss => .error (.trap .extentMiss (BitVec.ofNat 64 va))
  | .perm => .error (.trap .perm (BitVec.ofNat 64 va))
  | .park code idx => do
    c.checkPoison srcs
    .ok (parkCtx c.s c.x a [⟨0, va, code, idx⟩])
  | .ok pa key sec gen => do
    c.checkPoison srcs
    go pa key sec gen

/-- The request of a context's word. -/
def ctxReq (c : KCtx) (rid : Rid) (f : MemW) (size pa key gen : Nat) (sec : Bool) : MemReq :=
  let b := MemReq.blank rid (.context c.x)
  { b with
    asid := c.X.asid
    gen := gen
    key := key
    sec := sec
    va := c.gAddr f size
    pa := pa
    size := size
    aop := f.aop
    ty := f.var
    ord := f.ord
    scope := f.scope
    d := f.d.toNat
    epc := BitVec.ofNat 64 (c.X.kpc.toNat * 8)
    eng := some (ctxUnit c.x, c.X.secure) }

/-- The queued writes of a context. -/
def ctxQueue (s : State) (X : Ctx) : List MemReq := X.storeQ.filterMap (req? s)

/-- A load's 64-bit result in a context (R308, R310). -/
def ctxLoadExt (var : Nat) (bs : List Byte) : Nat :=
  let x := loadExt var bs
  if var == 1 || var == 3 then ofSigned 64 (toSigned 32 x) else x

/-- The stream profile's memory fields (R110, R310). -/
def ctxMemOk (f : MemW) : Bool := f.g == 0#4 && f.b == 0#8 && f.xs == 0#2

/-- A context's word has sent its request: it goes on, or waits for an acquire's value. -/
def Ctx.sent (X : Ctx) (hold : Bool) : Ctx :=
  if hold then { X with st := .running, stamp := 0, wait := some .order } else X.nextWord

/-- LD in a context (R310). -/
def loadCtx (f : MemW) (c : KCtx) : Except Stop State := do
  trapIf (!ctxMemOk f || f.var == 6#4) .illegalEnc
  c.open [f.a] [f.d]
  let size := accSize f.var.toNat
  ctxAccess c f .read [f.a] size fun pa key sec gen => do
    let fs := (List.range size).map fun i => fwdGlobal c.s (ctxQueue c.s c.X) (pa + i)
    let vals := fs.map fun v => match v with
      | .val b => some b
      | _ => none
    if vals.all Option.isSome && f.ord != 1#2 then
      .ok (c.retire (c.X.putK f.d (ctxLoadExt f.var.toNat (vals.map fun v => v.getD 0))))
    else do
      let (rid, s1) := nextCtxRid c.s c.x
      let r0 := ctxReq c rid f size pa key gen sec
      let r := { r0 with
        fwd := (List.range size).filterMap fun i => ((vals.getD i none).map fun v => (i, v))
        st := .flight }
      let s2 := modCtx (addReq s1 r) c.x fun X => { X with
        reqBusy := X.reqBusy ++ [(f.d.toNat, rid)] }
      .ok (modCtx s2 c.x fun X => X.sent (f.ord == 1#2))

/-- ST, RED in a context (R310): the request enters the context's store queue. -/
def queueCtx (c : KCtx) (f : MemW) (kind : ReqKind) (size pa key gen : Nat) (sec : Bool) (data cmp : List Byte) : State :=
  let (rid, s1) := nextCtxRid c.s c.x
  let r0 := ctxReq c rid f size pa key gen sec
  let out (X : Ctx) : Ctx := { X with outNow := true }
  let s2 := modCtx (addReq s1 { r0 with kind := kind, data := data, cmp := cmp }) c.x fun X => { X with
    storeQ := X.storeQ ++ [rid]
    reqBusy := if kind == .atomic then X.reqBusy ++ [(f.d.toNat, rid)] else X.reqBusy }
  modCtx s2 c.x fun X => (out X).sent (kind == .atomic && f.ord.getLsbD 0)

/-- ST in a context (R310). -/
def storeCtx (f : MemW) (c : KCtx) : Except Stop State := do
  trapIf (!ctxMemOk f || f.var == 6#4) .illegalEnc
  c.open [f.a, f.d] []
  let size := accSize f.var.toNat
  ctxAccess c f .write [f.a, f.d] size fun pa key sec gen =>
    .ok (queueCtx c f .write size pa key gen sec (toBytes size (c.k f.d)) [])

/-- ATOM and RED in a context (R310): .cas takes the compare value from D + 1. -/
def atomicCtx (f : MemW) (kind : ReqKind) (c : KCtx) : Except Stop State := do
  let cas := f.aop == 7#3
  trapIf (!ctxMemOk f || (cas && 30 < f.d.toNat)) .illegalEnc
  let d1 : BitVec 8 := f.d + 1
  let srcs := [f.a, f.d] ++ if cas then [d1] else []
  c.open srcs (if kind == .atomic then [f.d] else [])
  let size := atomicSize f.var.toNat
  ctxAccess c f .atomic srcs size fun pa key sec gen =>
    .ok (queueCtx c f kind size pa key gen sec (toBytes size (c.k f.d)) (if cas then toBytes size (c.k d1) else []))

/-! The meanings. -/

/-- LD (R194, R310). -/
def execLd (f : MemW) (s : State) : Host.Outcome State Fault Refusal := issue 0x80 f.g s (loadGlobal f false) (loadCtx f)

/-- ST (R194, R310). -/
def execSt (f : MemW) (s : State) : Host.Outcome State Fault Refusal := issue 0x81 f.g s (storeGlobal f false) (storeCtx f)

/-- What LDU of a callable evaluation reads (R299, R302): an access of the pass's engine. A replayable fault parks the
engine; a region of the other world halts the partition, and the lane gets no further; so it does while a line of another module has not
come. -/
def evalRead (s : State) (cluster slot : Nat) (va size : Nat) : Except Stop (Option (List (Byte × Bool))) :=
  match (smGet? s.clusters cluster).bind fun C => C.passes[slot]? with
  | none => .error .off
  | some P =>
    match (engRead s (passEng s P cluster slot) va size).2 with
    | .trap c v => .error (.trap c (BitVec.ofNat 64 v))
    | .park _ _ _ | .world _ | .far => .ok none
    | .ok bs => .ok (some bs)

/-- LDU in a lane of a callable evaluation (R194, R302). -/
def loadLaneEval (f : MemW) (s : State) (cluster : Nat) (e : Eval) : Except Stop Eval := do
  let n := accRegs f.var.toNat
  let srcs := [Regs.pair f.a, Regs.one f.b]
  trapIf (f.ord != 0#2 || !(uniOrZ f.d && uniOrZ f.a && uniOrZ f.b)) .illegalEnc
  Eval.open srcs [.ofW f.d n] false
  if !e.guard f.g then .ok e.next
  else do
    let size := accSize f.var.toNat
    let va := effAddr 64 (e.reg64 f.a) (e.reg f.b) f.xs.toNat f.off8.toNat size
    trapIf (va % size != 0) .misalign (BitVec.ofNat 64 va)
    match ← evalRead s cluster e.slot va size with
    | none => do
      e.checkPoison srcs
      .ok { e with parkAt := some va }
    | some bs => do
      e.checkPoison srcs
      let e1 := ({ e with parkAt := none }).putRegs f.d n (loadExt f.var.toNat (engBytes bs))
      .ok (if engMarked bs then { e1 with spoison := (List.range n).foldl (fun m i => nsAdd m (f.d.toNat - 0xC0 + i)) e1.spoison }
        else e1).next

/-- LDU (R194, R299). -/
def execLdu (f : MemW) (s : State) : Host.Outcome State Fault Refusal :=
  issue 0x86 f.g s (loadGlobal f true) (fun _ => offProfile 0x86) fun e =>
    loadLaneEval f s (match s.cur with
      | .lane k => k
      | _ => 0) e

/-- STU (R194). -/
def execStu (f : MemW) (s : State) : Host.Outcome State Fault Refusal := issue 0x87 f.g s (storeGlobal f true)

/-! Scratchpad (R195–R198, R437). -/

/-- R198 for scratchpad offsets. -/
def checkOffs (T : Team) (size : Nat) (ls : List (Nat × Nat)) : Except Stop Unit := do
  trapLane ls (fun o => o % size != 0) .misalign
  trapLane ls (fun o => T.scratchSize < o + size) .scratchBounds

/-- The claims of the active team's own access (R437): the word waits until every unit is present. The answer is the
state with the word's pops made. -/
def ownUnits (c0 c : WCtx) (offs : List Nat) (n : Nat) : Except Stop State := do
  let is := offs.flatMap fun o => regionsOf o n
  let (s1, here) := needUnits c0.s c0.t false is
  if here then .ok (needUnits (c.put c.W) c.t false is).1 else .error (.wait .claim s1)

/-- A team's scratchpad bytes as its own wave sees them: its own queued stores first (R358). -/
def WCtx.ownRead (s : State) (c : WCtx) (off n : Nat) : List Byte × Bool :=
  match team? s c.t with
  | none => ([], false)
  | some T =>
    let fs := (List.range n).map fun i => fwdScratch c.W.storeQ c.t c.t (off + i)
    ((List.range n).map fun i => (fs.getD i none).getD (smGetD T.scratch (off + i) 0),
      !fs.all Option.isSome && scratchMarked T off n)

/-- LDS (R194). -/
def execLds (f : MemW) (s : State) : Host.Outcome State Fault Refusal :=
  issue 0x82 f.g s fun c0 => do
    let n := accRegs f.var.toNat
    let srcs := [Regs.one f.a, Regs.one f.b]
    trapIf (!vecOrZ f.d) .illegalEnc
    let c ← c0.open srcs [.ofW f.d n] false
    let size := accSize f.var.toNat
    let ls := c.addrs false (c.sAddr f size)
    checkOffs c.T size ls
    c.checkPoison srcs
    waitIf (readsPending c0.s (.wave c.t c.w)) (.result (readsOf c0.s (.wave c.t c.w))) c0.s
    let s1 ← ownUnits c0 c (ls.map (·.2)) size
    let W := ls.foldl (fun W l =>
      let (bs, psn) := c.ownRead s1 l.2 size
      W.load f.d n l.1 (loadExt f.var.toNat bs) psn) c.W
    .ok (modWave s1 c.t c.w fun _ => W.retire c.gang f.bnd)

/-- STS (R194, R200). -/
def execSts (f : MemW) (s : State) : Host.Outcome State Fault Refusal :=
  issue 0x83 f.g s fun c0 => do
    let n := accRegs f.var.toNat
    let srcs := [Regs.one f.a, Regs.one f.b, Regs.ofW f.d n]
    trapIf (!(vecOrZ f.d || isUniform f.d)) .illegalEnc
    let c ← c0.open srcs [] false
    let size := accSize f.var.toNat
    let ls := c.addrs false (c.sAddr f size)
    checkOffs c.T size ls
    c.checkPoison srcs
    let s1 ← ownUnits c0 c (ls.map (·.2)) size
    let after := undoneReads c.s (.wave c.t c.w)
    let q := ls.map fun l => StoreE.scratch l.2 (toBytes size (c.regN f.d n l.1)) (f.ord == 2#2) after
    let W := { c.W with storeQ := c.W.storeQ ++ q }
    .ok (modWave s1 c.t c.w fun _ => W.retire c.gang f.bnd)

/-! Peer scratchpads (R195–R197). -/

/-- The team a peer address reaches (R196, R197). -/
def peerTeam (s : State) (T : Team) (addr : Nat) : Option (Nat × Team) :=
  heldTeam s T.launch (clusterOf T.core * 8 + addr / 2 ^ 29)

/-- R198 for peer addresses. -/
def checkPeers (s : State) (T : Team) (size : Nat) (ls : List (Nat × Nat)) : Except Stop Unit := do
  trapLane ls (fun a => a % size != 0) .misalign
  trapLane ls (fun a => bits a 28 19 != 0 || T.scratchSize < a % 2 ^ 19 + size) .scratchBounds
  trapLane ls (fun a => (peerTeam s T a).isNone) .peerRetired

/-- LDP (R194, R196, R439). -/
def execLdp (f : MemW) (s : State) : Host.Outcome State Fault Refusal :=
  issue 0x84 f.g s fun c0 => do
    let n := accRegs f.var.toNat
    let srcs := [Regs.one f.a, Regs.one f.b]
    trapIf (!vecOrZ f.d) .illegalEnc
    let c ← c0.open srcs [.ofW f.d n] false
    let size := accSize f.var.toNat
    let ls := c.addrs false (c.sAddr f size)
    checkPeers c.s c.T size ls
    c.checkPoison srcs
    waitIf (readsPending c0.s (.wave c.t c.w)) (.result (readsOf c0.s (.wave c.t c.w))) c0.s
    let tgt (a : Nat) : Nat × Team := (peerTeam c.s c.T a).getD (c.t, c.T)
    waitIf (ls.any fun l => peerInFlight c0.s c.T.core (tgt l.2).1 (l.2 % 2 ^ 19) size) (.result []) c0.s
    let own := (ls.filter fun l => (tgt l.2).1 == c.t).map fun l => l.2 % 2 ^ 19
    let s1 ← ownUnits c0 c own size
    waitIf (ls.any fun l => (tgt l.2).1 != c.t && outsideWaits (tgt l.2).2 (l.2 % 2 ^ 19) size) .claim c0.s
    let W := ls.foldl (fun W l =>
      let o := l.2 % 2 ^ 19
      let (u, U) := tgt l.2
      let (bs, psn) := if u == c.t then c.ownRead s1 o size else
        let (bs, psn) := outsideRead s1 U o size
        let fs := (List.range size).map fun i => fwdScratch c.W.storeQ c.t u (o + i)
        ((List.range size).map fun i => (fs.getD i none).getD (bs.getD i 0), psn && !fs.all Option.isSome)
      W.load f.d n l.1 (loadExt f.var.toNat bs) psn) c.W
    let s2 := if f.ord == 1#2 then invalidate s1 c.T.core else s1
    .ok (modWave s2 c.t c.w fun _ => W.retire c.gang f.bnd)

/-- STP (R194, R196). -/
def execStp (f : MemW) (s : State) : Host.Outcome State Fault Refusal :=
  issue 0x85 f.g s fun c0 => do
    let n := accRegs f.var.toNat
    let srcs := [Regs.one f.a, Regs.one f.b, Regs.ofW f.d n]
    trapIf (!(vecOrZ f.d || isUniform f.d)) .illegalEnc
    let c ← c0.open srcs [] false
    let size := accSize f.var.toNat
    let ls := c.addrs false (c.sAddr f size)
    checkPeers c.s c.T size ls
    c.checkPoison srcs
    let own := (ls.filter fun l => ((peerTeam c.s c.T l.2).map (·.1)) == some c.t).map fun l => l.2 % 2 ^ 19
    let s1 ← ownUnits c0 c own size
    let after := undoneReads c.s (.wave c.t c.w)
    let q := ls.map fun l =>
      StoreE.peer (((peerTeam c.s c.T l.2).map (·.1)).getD c.t) (l.2 % 2 ^ 19) (toBytes size (c.regN f.d n l.1)) (f.ord == 2#2) after
    let W := { c.W with storeQ := c.W.storeQ ++ q }
    .ok (modWave s1 c.t c.w fun _ => W.retire c.gang f.bnd)

/-! Atomics (R104, R201, R202). -/

/-- Registers of an atomic's value, and of D as it is read. -/
def atomRegs (f : MemW) : Nat := if f.var == 2#4 || f.var == 3#4 then 2 else 1
def atomD (f : MemW) : Regs :=
  let w := if f.aop == 7#3 then 2 * atomRegs f else atomRegs f
  .block f.d w w

/-- ATOM and RED on a wave. -/
def atomicGlobal (f : MemW) (kind : ReqKind) (c0 : WCtx) : Except Stop State := do
  let w := atomRegs f
  let srcs := [Regs.pair f.a, Regs.one f.b, atomD f]
  trapIf (!(vecOrZ f.d || (kind == .reduction && isUniform f.d))) .illegalEnc
  let c ← c0.open srcs (if kind == .atomic then [Regs.block f.d w w] else []) false
  let size := atomicSize f.var.toNat
  let plan ← planLanes c.s c.T .atomic size (c.addrs false (c.gAddr f size))
  c.checkPoison srcs
  let cmp (l : Nat) : List Byte := if f.aop == 7#3 then toBytes size (c.regN (codeAt f.d w) w l) else []
  let s1 := plan.ok.foldl (fun s x =>
    queueLane s c.t c.w c.gang f kind size (toBytes size (c.regN f.d w x.lane)) (cmp x.lane) x) (c.put c.W)
  .ok (endAccess s1 c.t c.w c.gang f.bnd .atomic plan.parked (kind == .atomic && f.ord.getLsbD 0) f.scope.toNat
    (!plan.ok.isEmpty))

/-- ATOM (R201, R310). -/
def execAtom (f : MemW) (s : State) : Host.Outcome State Fault Refusal :=
  issue 0x88 f.g s (atomicGlobal f .atomic) (atomicCtx f .atomic)

/-- RED (R201, R310). -/
def execRed (f : MemW) (s : State) : Host.Outcome State Fault Refusal :=
  issue 0x8A f.g s (atomicGlobal f .reduction) (atomicCtx f .reduction)

/-- ATOMS (R201, R202, R51, R52): indivisible at the scratchpad, after the wave's earlier stores and reads. -/
def execAtoms (f : MemW) (s : State) : Host.Outcome State Fault Refusal :=
  issue 0x89 f.g s fun c0 => do
    let w := atomRegs f
    let srcs := [Regs.one f.a, Regs.one f.b, atomD f]
    trapIf (!vecOrZ f.d) .illegalEnc
    let c1 ← c0.open srcs [.block f.d w w] false
    c1.checkParted
    let size := atomicSize f.var.toNat
    let ls := c1.addrs false (c1.sAddr f size)
    checkOffs c1.T size ls
    c1.checkPoison srcs
    c0.waitOrder
    waitIf (!c0.W.storeQ.isEmpty || readsPending c0.s (.wave c0.t c0.w) || (f.ord.getLsbD 1 && c0.W.owc != 0)) .fence c0.issued.s
    let s1 ← ownUnits c0.issued c1 (ls.map (·.2)) size
    match team? s1 c1.t with
    | none => .error (.fault .noIssuer)
    | some T1 =>
      let cmp (l : Nat) : Nat := if f.aop == 7#3 then c1.regN (codeAt f.d w) w l else 0
      let (T2, W2) := ls.foldl (fun a l =>
        let (T, W) := a
        let old := ofBytes (scratchGet T l.2 size)
        let new := atomicOp f.var.toNat f.aop.toNat old (c1.regN f.d w l.1 % 2 ^ (8 * size)) (cmp l.1 % 2 ^ (8 * size))
        (scratchSet T l.2 (toBytes size new), W.load f.d w l.1 old (scratchMarked T l.2 size))) (T1, c1.W)
      .ok (setTeam s1 c1.t (T2.setWave c1.w (W2.retire c1.gang f.bnd)))

/-! Ordered append (R203–R205). -/

/-- Whether every lower-indexed team of the launch has closed a counter (R203). -/
def lowerClosed (s : State) (T : Team) (k : Nat) : Bool :=
  match smGet? s.launches T.launch with
  | none => true
  | some L =>
    (List.range T.index).all fun i =>
      nsHas L.endedTeams i || s.teams.any fun p => p.2.launch == T.launch && p.2.index == i && nsHas p.2.closed k

/-- APPEND (R203). lid may name the counter: the value in the lowest active lane is taken (DESIGN CHOICE, log entry 109). -/
def execAppend (f : SysW) (s : State) : Host.Outcome State Fault Refusal :=
  issue 0x8B f.g s fun c0 => do
    let vec := isVector f.b
    trapIf (!(uniOrZ f.a || f.a == 0xF9#8) || (if vec then !isVector f.d else !isUniform f.d)) .illegalEnc
    let srcs := [Regs.one f.a, Regs.one f.b]
    let c ← c0.open srcs [.one f.d] (!vec)
    let k := c.reg f.a (lowLane c.lanes)
    if c.lanes == 0 then .ok (c.retire c.W f.bnd)
    else do
      c.checkParted
      trapIf (15 < k || nsHas c.T.closed k) .perm (BitVec.ofNat 64 k)
      c.checkPoison srcs
      c0.waitOrder
      waitIf (!lowerClosed c.s c.T k) .append c0.issued.s
      let cnt := (smGet? c.s.launches c.T.launch).elim 0 fun L => (smGetD L.counters k 0).toNat
      let ls := if vec then lanesOf c.lanes else (lanesOf c.lanes).take 1
      let (n, W) := ls.foldl (fun a l => ((a.1 + c.reg f.b l) % 2 ^ 32, a.2.putReg f.d l a.1)) (cnt, c.W)
      .ok (modLaunch (c.retire W f.bnd) c.T.launch fun L => { L with counters := smPut 0 L.counters k (BitVec.ofNat 32 n) })

/-- DECLINE (R204). lid may name the counter, as in APPEND (DESIGN CHOICE, log entry 109). -/
def execDecline (f : SysW) (s : State) : Host.Outcome State Fault Refusal :=
  issue 0x8C f.g s fun c0 => do
    let c ← c0.open [.one f.a] [] true
    let k := c.reg f.a (lowLane c.lanes)
    if c.lanes == 0 then .ok (c.retire c.W f.bnd)
    else do
      trapIf (15 < k) .perm (BitVec.ofNat 64 k)
      c.checkPoison [.one f.a]
      let T := { c.T with closed := nsAdd c.T.closed k }.setWave c.w (c.W.retire c.gang f.bnd)
      .ok (wakeLaunch (setTeam c.s c.t T) c.T.launch)

/-! Fences (R206, R361). -/

/-- FENCE on a wave. -/
def fenceWave (f : MemW) (c : WCtx) : Except Stop State := do
  let rel := f.ord == 0#2 || f.ord.getLsbD 1
  let acq := f.ord == 0#2 || f.ord.getLsbD 0
  if c.lanes == 0 then .ok (c.retire c.W f.bnd)
  else do
    waitIf (rel && (!c.W.storeQ.isEmpty || c.W.owc != 0)) .fence c.s
    waitIf (readsOpen c.s (.wave c.t c.w)) .fence c.s
    let s1 := c.retire c.W f.bnd
    .ok (if acq && 2 ≤ f.scope.toNat then invalidate s1 c.T.core else s1)

/-- FENCE in a context. -/
def fenceCtx (f : MemW) (c : KCtx) : Except Stop State := do
  trapIf (f.g != 0#4) .illegalEnc
  waitIf ((f.ord == 0#2 || f.ord.getLsbD 1) && (!c.X.storeQ.isEmpty || c.X.owc != 0)) .fence c.s
  waitIf (readsOpen c.s (.context c.x)) .fence c.s
  .ok (c.retire c.X)

/-- FENCE (R206, R361). -/
def execFence (f : MemW) (s : State) : Host.Outcome State Fault Refusal := issue 0x8D f.g s (fenceWave f) (fenceCtx f)

end Sys2Proof.Machine
end

