-- ==== Sys2Proof/Machine/Binding.lean ====
section
/-! DEFINITION. Scratchpad references and the binding table of a Contrail context (R312–R314, R320, R336). -/

namespace Sys2Proof.Machine

/-- The entry a context's access to core k of its cluster uses: filled at the first one (R313). The generation is the one
the team was given on its core (R314). -/
def bindEntry (s : State) (x : Nat) (X : Ctx) (k : Nat) : Bind :=
  match X.bind.getD k .none with
  | .empty =>
    match heldTeam s X.launch (x / 16 * 8 + k) with
    | some (_, T) => .team T.serial T.allocGen
    | none => .none
  | b => b

/-- The context with the entry of core k filled. -/
def bindFill (s : State) (x : Nat) (X : Ctx) (k : Nat) : Ctx := { X with bind := setAt X.bind k (bindEntry s x X k) }

/-- The team a current binding names (R313). -/
def boundTeam (s : State) (part serial gen : Nat) : Option (Nat × Team) :=
  match team? s (teamKey part serial) with
  | some T => if T.heldState && T.allocGen == gen then some (teamKey part serial, T) else none
  | none => none

def bindTeam (s : State) (X : Ctx) (b : Bind) : Option (Nat × Team) :=
  match b with
  | .team serial gen => boundTeam s X.part serial gen
  | _ => none

/-- The core, the offset, and whether a reference is out of bounds by its own bits (R312). -/
def refCore (v : Nat) : Nat := bits v 31 29
def refOff (v : Nat) : Nat := v % 2 ^ 19
def refBad (v : Nat) : Bool := v / 2 ^ 32 != 0 || bits v 28 19 != 0

/-- A reference that an access of `size` bytes uses, reached from the one in the register (R316): MISALIGN, SCRATCH_BOUNDS, PEER_RETIRED
in the order of R423. Gives the context with its table filled, the team and the offset. -/
def useRef (s : State) (x : Nat) (X : Ctx) (base v size align : Nat) : Except Stop (Ctx × Nat × Team × Nat) := do
  trapIf (v % align != 0) .misalign (BitVec.ofNat 64 v)
  trapIf (refBad base) .scratchBounds (BitVec.ofNat 64 base)
  trapIf (refBad v) .scratchBounds (BitVec.ofNat 64 v)
  let b := bindEntry s x X (refCore v)
  match bindTeam s X b with
  | none => .error (.trap .peerRetired (BitVec.ofNat 64 v))
  | some (t, T) => do
    trapIf (T.scratchSize < refOff v + size) .scratchBounds (BitVec.ofNat 64 v)
    .ok (bindFill s x X (refCore v), t, T, refOff v)

/-- Wakes the waves of every team of a launch on a cluster: a counted barrier may have changed phase. -/
def wakeCluster (s : State) (launch cluster : Nat) : State :=
  (s.teams.filter fun p => p.2.launch == launch && clusterOf p.2.core == cluster).foldl (fun s p => wakeTeam s p.1) s

/-- CBARV's effect on COUNT, EXPECT and PHASE: (count, phase) after b arrivals (R209). -/
def arrive (count expect phase b : Nat) : Nat × Nat :=
  let e := max expect 1
  let n := count + b
  (n % e % 2 ^ 32, (phase + n / e) % 2 ^ 32)

/-- A counted barrier's bytes after b arrivals, and PHASE before (R209). -/
def arriveBytes (bs : List Byte) (b : Nat) : List Byte × Nat :=
  let phase := fieldB bs 8 4
  let (n, ph) := arrive (fieldB bs 0 4) (fieldB bs 4 4) phase b
  (toBytes 4 n ++ toBytes 4 (fieldB bs 4 4) ++ toBytes 4 ph, phase)

end Sys2Proof.Machine
end

