-- ==== Sys2Proof/Machine/Sync.lean ====
section
/-! DEFINITION. The meanings of BAR, CBINIT, CBARV, CBWAIT, TLWAIT, TLREAD (R207–R211, R332, R334). -/

namespace Sys2Proof.Machine

/-- BAR (R207): the gang waits; the barrier completes when every live slice of every live wave waits at a BAR. -/
def execBar (f : SysW) (s : State) : Host.Outcome State Fault Refusal :=
  issue 0x90 f.g s fun c =>
    .ok (tryBar (c.put (((c.W.holdGang c.gang (.bar f.bnd)).endReplay c.gang).setLast c.gang)) c.t)

/-! Counted barriers. -/

/-- The operand b: a register or IMM16 (R208). -/
def cbB (f : SysW) (c : WCtx) : Nat := if immFlag f.var then (SysW.imm f).toNat else c.reg f.b (lowLane c.lanes)

def cbSrcs (f : SysW) : List Regs := [Regs.one f.a] ++ if immFlag f.var then [] else [Regs.one f.b]

/-- A release waits until the wave's earlier accesses are performed (R209, R360). -/
def WCtx.waitRelease (c : WCtx) (s0 : State) : Except Stop Unit :=
  waitIf (!c.W.storeQ.isEmpty || c.W.owc != 0 || readsPending s0 (.wave c.t c.w)) .fence s0

/-- Whether a store of the wave to the 16 bytes of an object is still in its queue: the word reads the object after it (R357, R358). -/
def objectQueued (q : List StoreE) (self t off : Nat) : Bool := (List.range 16).any fun i => (fwdScratch q self t (off + i)).isSome

/-- A counted-barrier word on a wave: its checks, then `act` on the object's 16 bytes, which may wait; it answers the bytes
to write, and the wave. `rel` says whether the word is a release. -/
def cbWave (f : SysW) (rel : Bool) (c0 : WCtx)
    (act : WCtx → List Byte → Bool → Except Stop (List Byte × Wave)) : Except Stop State := do
  let peer := f.var.getLsbD 0
  trapIf (!uniOrZ f.a || !(immFlag f.var || uniOrZ f.b)) .illegalEnc
  let c ← c0.open (cbSrcs f) [] true
  if c.lanes == 0 then .ok (c.retire c.W f.bnd)
  else do
    let l := lowLane c.lanes
    let a := c.reg f.a l
    if peer then checkPeers c.s c.T 16 [(l, a)] else checkOffs c.T 16 [(l, a)]
    c.checkPoison (cbSrcs f)
    if rel then c.waitRelease c0.s else waitIf (readsPending c0.s (.wave c.t c.w)) (.result (readsOf c0.s (.wave c.t c.w))) c0.s
    let (u, U) := if peer then (peerTeam c.s c.T a).getD (c.t, c.T) else (c.t, c.T)
    let o := if peer then a % 2 ^ 19 else a
    waitIf (objectQueued c.W.storeQ c.t u o) .fence c0.s
    if u == c.t then do
      let s1 ← ownUnits c0 c [o] 16
      match team? s1 u with
      | none => .error (.fault .noIssuer)
      | some T1 => do
        let (bs, W) ← act { c with s := s1 } (scratchGet T1 o 16) (scratchMarked T1 o 16)
        .ok (wakeCluster (setTeam s1 u ((scratchSet T1 o bs).setWave c.w (W.retire c.gang f.bnd))) c.T.launch (clusterOf c.T.core))
    else do
      waitIf (peerInFlight c0.s c.T.core u o 16) (.result []) c0.s
      waitIf (outsideWaits U o 16) .claim c0.s
      let (bs0, m) := outsideRead c.s U o 16
      let (bs, W) ← act c bs0 m
      let s1 := c.retire W f.bnd
      .ok (wakeCluster (if bs.isEmpty then s1 else outsideWrite s1 u o bs false) c.T.launch (clusterOf c.T.core))

/-- CBINIT (R208, R209). -/
def execCbinit (f : SysW) (s : State) : Host.Outcome State Fault Refusal :=
  issue 0x91 f.g s fun c => cbWave f true c fun c _ _ =>
    .ok (toBytes 4 0 ++ toBytes 4 (max (cbB f c) 1) ++ toBytes 4 0, c.W)

/-- CBARV in a context (R332): deferred behind the copies issued so far. -/
def cbarvCtx (f : SysW) (c : KCtx) : Except Stop State := do
  trapIf (f.g != 0#4 || !f.var.getLsbD 0) .illegalEnc
  let srcs := [f.a] ++ if immFlag f.var then [] else [f.b]
  c.open srcs [f.d]
  let (X, t, T, off) ← useRef c.s c.x c.X (c.k f.a) (c.k f.a) 16 16
  c.checkPoison srcs
  let b := if immFlag f.var then (SysW.imm f).toNat else c.k f.b % 2 ^ 32
  .ok (c.retire { X with
    outNow := X.outNow || t != teamKey X.part X.team
    deferred := X.deferred ++ [.cbarv f.d.toNat T.serial T.allocGen off b X.issued (undoneReads c.s (.context c.x))]
    kbusy := X.kbusy ++ [(f.d.toNat, 2 ^ 64)] })

/-- CBARV (R208, R209, R332). -/
def execCbarv (f : SysW) (s : State) : Host.Outcome State Fault Refusal :=
  issue 0x92 f.g s
    (fun c0 => do
      trapIf (!uniOrZ f.d || !(Regs.one f.d).dstOk c0.T.nregs) .illegalEnc
      waitIf (c0.W.busyAny [.one f.d]) (.result (c0.W.busyOn [.one f.d])) c0.s
      cbWave f true c0 fun c bs m =>
        let (new, phase) := arriveBytes bs (cbB f c)
        .ok (new, c.W.load f.d 1 0 phase m))
    (cbarvCtx f)

/-- CBWAIT in a context (R332). -/
def cbwaitCtx (f : SysW) (c : KCtx) : Except Stop State := do
  trapIf (f.g != 0#4 || !f.var.getLsbD 0) .illegalEnc
  let srcs := [f.a] ++ if immFlag f.var then [] else [f.b]
  c.open srcs []
  let (X, _, T, off) ← useRef c.s c.x c.X (c.k f.a) (c.k f.a) 16 16
  c.checkPoison srcs
  let b := if immFlag f.var then (SysW.imm f).toNat else c.k f.b % 2 ^ 32
  waitIf (outsideWaits T off 16 || fieldB (outsideRead c.s T off 16).1 8 4 == b) .barrier (c.put X)
  .ok (c.retire X)

/-- CBWAIT (R208, R209, R332, R354): a peer object's acquire invalidates the load cache. -/
def execCbwait (f : SysW) (s : State) : Host.Outcome State Fault Refusal :=
  issue 0x93 f.g s
    (fun c0 => do
      let r := cbWave f false c0 fun c bs _ => do
        waitIf (fieldB bs 8 4 == cbB f c) .barrier c0.s
        .ok ([], c.W)
      match r with
      | .ok s1 => .ok (if f.var.getLsbD 0 && c0.lanes != 0 then invalidate s1 c0.T.core else s1)
      | e => e)
    (cbwaitCtx f)

/-! Timelines. -/

/-- Whether a handle's reserved bits are 0 (R210). -/
def handleClean (h : Nat) : Bool :=
  h % 2 ^ 16 == 0 && (match bits h 31 28 with
    | 0 | 4 => bits h 27 16 == 0
    | 1 => bits h 27 20 == 0
    | 2 => bits h 27 18 == 0
    | 3 => true
    | _ => false)

/-- The counter a handle names, for a team on a cluster; none where PERM holds (R210, R211). -/
def timeline? (s : State) (t : Nat) (T : Team) (cluster h : Nat) : Option Nat :=
  let u := bits h 27 16
  if !handleClean h then none
  else
    match bits h 31 28 with
    | 0 => some T.mxTl.toNat
    | 1 => (smGet? s.ctxs (cluster * 16 + u)).bind fun X => if X.ktag.toNat == T.tag then some X.ktl.toNat else none
    | 2 => ((smGet? s.clusters cluster).bind fun C => C.passes[u]?).bind fun P => if P.team == t then some P.timeline.toNat else none
    | 3 => (chain? T u).map (·.timeline)
    | _ => some T.copyTl.toNat

/-- The timeline of a context's word (R334): the starting team's. -/
def KCtx.timeline (c : KCtx) (h : Nat) : Option Nat :=
  (ctxTeam c.s c.X).bind fun T => timeline? c.s (teamKey c.X.part c.X.team) T (c.x / 16) h

/-- Whether a timeline's increments up to n cover writes at cluster scope or wider (R363): the copies and matrix operations that wrote
outside the team's own scratchpad, a context's writes, a pass's, which go to the reservoir store. A chain's rows come into the
team's own tile. -/
def timelineOut (s : State) (T : Team) (cluster h n : Nat) : Bool :=
  match bits h 31 28 with
  | 0 => T.mxOut.any (· ≤ n)
  | 1 => ((smGet? s.ctxs (cluster * 16 + bits h 27 16)).bind (·.outAt)).any (· ≤ n)
  | 2 => true
  | 3 => false
  | _ => T.copyOut.any (· ≤ n)

/-- TLWAIT (R210, R334): completing, it acquires at the scope of the data written; at cluster scope or wider the load cache is
invalidated (R354, R363). -/
def execTlwait (f : SysW) (s : State) : Host.Outcome State Fault Refusal :=
  issue 0x94 f.g s
    (fun c0 => do
      let srcs := [Regs.one f.a, Regs.pair f.b]
      trapIf (!uniOrZ f.a || !uniOrZ f.b) .illegalEnc
      let c ← c0.open srcs [] true
      if c.lanes == 0 then .ok (c.retire c.W f.bnd)
      else do
        let h := c.reg f.a 0
        let v := timeline? c.s c.t c.T (clusterOf c.T.core) h
        trapIf v.isNone .perm (BitVec.ofNat 64 h)
        c.checkPoison srcs
        waitIf (v.getD 0 < c.reg64 f.b 0) .counter c0.s
        let s1 := c.retire c.W f.bnd
        .ok (if timelineOut c.s c.T (clusterOf c.T.core) h (c.reg64 f.b 0) then invalidate s1 c.T.core else s1))
    (fun c => do
      trapIf (f.g != 0#4) .illegalEnc
      c.open [f.a, f.b] []
      let h := c.k f.a % 2 ^ 32
      let v := c.timeline h
      trapIf v.isNone .perm (BitVec.ofNat 64 h)
      c.checkPoison [f.a, f.b]
      waitIf (v.getD 0 < c.k f.b) .counter c.s
      .ok (c.retire c.X))

/-- TLREAD (R210, R334). -/
def execTlread (f : SysW) (s : State) : Host.Outcome State Fault Refusal :=
  issue 0x95 f.g s
    (fun c0 => do
      trapIf (!uniOrZ f.a || !uniOrZ f.d) .illegalEnc
      let c ← c0.open [.one f.a] [.pair f.d] true
      if c.lanes == 0 then .ok (c.retire c.W f.bnd)
      else do
        let h := c.reg f.a 0
        let v := timeline? c.s c.t c.T (clusterOf c.T.core) h
        trapIf v.isNone .perm (BitVec.ofNat 64 h)
        c.checkPoison [.one f.a]
        .ok (c.retire (c.W.putRegs f.d 2 0 (v.getD 0)) f.bnd))
    (fun c => do
      trapIf (f.g != 0#4) .illegalEnc
      c.open [f.a] [f.d]
      let h := c.k f.a % 2 ^ 32
      let v := c.timeline h
      trapIf v.isNone .perm (BitVec.ofNat 64 h)
      c.checkPoison [f.a]
      .ok (c.retire (c.X.putK f.d (v.getD 0))))

end Sys2Proof.Machine
end

