-- ==== Sys2Proof/Machine/Alu.lean ====
section
/-! DEFINITION. How an arithmetic word runs on each datapath: on the lanes of a wave or once on the uniform datapath
(R35, R36, R132–R135), in a Contrail context (R110, R308), in a lane of a callable evaluation (R299). The operation
itself is a function of one lane's operands. -/

namespace Sys2Proof.Machine

/-- What an operation reads in one lane: the operands (`b` the immediate where the form has one), the predicate named
in C, the lane, the mode of FPCTL. -/
structure LaneIn where
  a : Nat
  b : Nat
  c : Nat
  pin : Bool
  lane : Nat
  rm : RM
  ftz : Bool

/-- What it gives: the result, the exceptions raised, the predicate result. -/
structure LaneOut where
  val : Nat
  exc : Exc
  pred : Bool

/-- An integer or bitwise result; a float result; a predicate result. -/
def LaneOut.ofInt (v : Nat) : LaneOut := ⟨v, Exc.none, false⟩
def LaneOut.ofFloat (v : Nat × Exc) : LaneOut := ⟨v.1, v.2, false⟩
def LaneOut.ofPred (v : Bool × Exc) : LaneOut := ⟨0, v.2, v.1⟩

/-- An arithmetic word: its operands with their widths in registers (absent where it has none), the predicates it
writes and reads, whether its results are signed (R308), whether C carries in (R308), an operand that is named without
being read, its operation. -/
structure AluSpec where
  a : Option (BitVec 8 × Nat)
  b : Option (BitVec 8 × Nat)
  c : Option (BitVec 8 × Nat)
  imm : Nat
  dst : Option (BitVec 8 × Nat)
  pdst : Option (BitVec 8)
  psrc : Option (BitVec 8)
  sgn : Bool
  carry : Bool
  bad : Bool
  idle : Option (BitVec 8)
  op : LaneIn → LaneOut

def AluSpec.srcs (x : AluSpec) : List Regs := (x.a.toList ++ x.b.toList ++ x.c.toList).map fun p => Regs.ofW p.1 p.2
def AluSpec.dsts (x : AluSpec) : List Regs := x.dst.toList.map fun p => Regs.ofW p.1 p.2

/-- Whether the word runs on the uniform datapath (R35). -/
def AluSpec.uni (x : AluSpec) : Bool := x.dst.any fun p => isUniform p.1

/-- Whether the predicates named are predicates (R97). -/
def AluSpec.predsOk (x : AluSpec) : Bool := (x.pdst.toList ++ x.psrc.toList).all predCode

/-! The wave. -/

/-- The start of a word of a wave that computes: the checks, the pops, PERM, POISON, the wait for a send. -/
def WCtx.begin (c : WCtx) (srcs dsts : List Regs) (uni : Bool) : Except Stop WCtx := do
  let d ← c.open srcs dsts uni
  d.checkMb (dsts.map (·.code))
  d.checkPoison srcs
  d.waitSend (dsts.map (·.code)) c.s
  .ok d

/-- The end of a word: the destination of a send takes the values of the lanes, any other word retires (R38, R50). -/
def WCtx.done (c : WCtx) (W : Wave) (bnd : Bool) (dst : Option (BitVec 8)) (vals : Nat → Nat) : State :=
  if dst == some 0xFE#8 && c.lanes != 0 then c.send W bnd vals else c.retire W bnd

def AluSpec.laneIn (x : AluSpec) (c : WCtx) (l : Nat) : LaneIn where
  a := x.a.elim 0 fun p => c.regN p.1 p.2 l
  b := x.b.elim x.imm fun p => c.regN p.1 p.2 l
  c := x.c.elim 0 fun p => c.regN p.1 p.2 l
  pin := x.psrc.any fun p => (c.W.pred p.toNat).getLsbD l
  lane := l
  rm := c.W.rm
  ftz := c.W.ftz

/-- The lanes a word computes in: on the uniform datapath the lowest active lane alone (R35). -/
def AluSpec.at (x : AluSpec) (c : WCtx) : List Nat := if x.uni then (lanesOf c.lanes).take 1 else lanesOf c.lanes

/-- The results of the lanes. -/
def AluSpec.outs (x : AluSpec) (c : WCtx) : List (Nat × LaneOut) := (x.at c).map fun l => (l, x.op (x.laneIn c l))

/-- The predicate result: each lane its own, on the uniform datapath one for every active lane (R141, R148). -/
def predVal (uni : Bool) (outs : List (Nat × LaneOut)) : LaneMask :=
  if uni then (if outs.any fun o => o.2.pred then BitVec.allOnes 32 else 0) else maskOf fun l => outs.any fun o => o.1 == l && o.2.pred

/-- The wave after the results are written (R35, R36, R135). -/
def AluSpec.write (x : AluSpec) (W : Wave) (lanes : LaneMask) (outs : List (Nat × LaneOut)) : Wave :=
  let W1 := match x.dst with
    | some (d, n) => outs.foldl (fun W o => W.putRegs d n o.1 o.2.val) W
    | none => W
  match x.pdst with
  | some p => W1.putPred p.toNat lanes (predVal x.uni outs)
  | none => W1

def AluSpec.wave (x : AluSpec) (bnd : Bool) (c0 : WCtx) : Except Stop State := do
  trapIf (x.bad || !x.predsOk || x.idle.any fun k => !(Regs.one k).srcOk c0.T.nregs) .illegalEnc
  let c ← c0.begin x.srcs x.dsts x.uni
  let outs := x.outs c
  let fp ← settleFlags c.W.fpctl (outs.map fun o => (o.1, o.2.exc, Exc.none))
  let W := x.write { c.W with fpctl := fp } c.lanes outs
  .ok (c.done W bnd (x.dst.map (·.1)) fun l => ((outs.find? fun o => o.1 == l).map fun o => o.2.val).getD 0)

/-! The context. -/

/-- The fields the stream profile keeps 0 (R110): ICMP's condition and LEA's shift apart. -/
def aluStreamOk (f : AluW) (scFree : Bool) : Bool :=
  f.g == 0#4 && f.ma == 0#2 && f.mb == 0#2 && f.mc == 0#2 && !f.cl && (scFree || f.sc == 0#3)

/-- The result at 64 bits (R308). -/
def AluSpec.ext (x : AluSpec) (v : Nat) : Nat :=
  match x.dst with
  | some (_, 1) => if x.sgn then ofSigned 64 (toSigned 32 v) else v
  | _ => v

def AluSpec.stream (x : AluSpec) (ok : Bool) (c : KCtx) : Except Stop State := do
  let srcs := (x.a.toList ++ x.b.toList ++ x.c.toList).map (·.1) ++ x.psrc.toList
  let dsts := x.dst.toList.map (·.1) ++ x.pdst.toList
  trapIf (x.bad || !ok) .illegalEnc
  c.open srcs dsts
  c.checkPoison srcs
  let out := x.op
    { a := x.a.elim 0 fun p => c.k p.1
      b := x.b.elim x.imm fun p => c.k p.1
      c := x.c.elim 0 fun p => c.k p.1
      pin := x.psrc.any fun p => if x.carry then bit (c.k p) 0 else c.k p != 0
      lane := 0
      rm := RM.ne
      ftz := false }
  let X1 := match x.dst with
    | some (d, _) => c.X.putK d (x.ext out.val)
    | none => c.X
  let X2 := match x.pdst with
    | some p => X1.putK p out.pred.toNat
    | none => X1
  .ok (c.retire X2)

/-! The evaluator lane. -/

def AluSpec.lane (x : AluSpec) (g : BitVec 4) (e : Eval) : Except Stop Eval := do
  trapIf (x.bad || !x.predsOk || x.idle.any fun k => !(Regs.one k).laneOk) .illegalEnc
  Eval.open x.srcs x.dsts x.uni
  if !e.guard g then .ok e.next
  else do
    e.checkPoison x.srcs
    let rd (p : BitVec 8 × Nat) : Nat := if p.2 == 1 then e.reg p.1 else e.reg64 p.1
    let out := x.op
      { a := x.a.elim 0 rd
        b := x.b.elim x.imm rd
        c := x.c.elim 0 rd
        pin := x.psrc.any fun p => e.pred p.toNat
        lane := e.lane
        rm := e.fpctl.extractLsb' 0 2
        ftz := e.fpctl.getLsbD 2 }
    let fp ← settleFlags e.fpctl [(e.lane, out.exc, Exc.none)]
    let e1 := match x.dst with
      | some (d, n) => ({ e with fpctl := fp }).putRegs d n out.val
      | none => { e with fpctl := fp }
    let e2 := match x.pdst with
      | some p => e1.putPred p.toNat out.pred
      | none => e1
    .ok e2.next

/-! Words of the full-word layout. -/

/-- Runs an arithmetic word whoever issues it. -/
def runAlu (opc : Nat) (f : AluW) (scFree : Bool) (x : AluSpec) (s : State) : Host.Outcome State Fault Refusal :=
  issue opc f.g s (x.wave f.bnd) (x.stream (aluStreamOk f scFree)) (x.lane f.g)

/-- Registers an integer type takes (R133). -/
def intRegs (t : Nat) : Nat := if intBits t == 64 then 2 else 1

/-- Source B, absent in the immediate form (R95); C when the entry has three sources. -/
def aluB (f : AluW) (w : Nat) : Option (BitVec 8 × Nat) := if immFlag f.var then none else some (f.b, w)
def aluC (f : AluW) (n w : Nat) : Option (BitVec 8 × Nat) := if n == 3 then some (f.c, w) else none

/-- An integer word of n sources: widths from the type, except b's when the entry fixes it (R133, R138). -/
def intSpec (f : AluW) (n wb : Nat) (sgn : Bool) (op : Nat → LaneIn → Nat) : AluSpec :=
  let t := ty3 f.var
  { a := some (f.a, intRegs t)
    b := if n == 1 then none else aluB f wb
    c := aluC f n (intRegs t)
    imm := intImm t f.imm
    dst := some (f.d, intRegs t)
    pdst := none
    psrc := none
    sgn := sgn
    carry := false
    bad := false
    idle := none
    op := fun i => LaneOut.ofInt (op t i) }

/-- A float word of n sources, one register each (R152). -/
def floatSpec (f : AluW) (n : Nat) (op : LaneIn → Nat × Exc) : AluSpec where
  a := some (f.a, 1)
  b := if n == 1 then none else aluB f 1
  c := aluC f n 1
  imm := floatImm (ty3 f.var) f.imm
  dst := some (f.d, 1)
  pdst := none
  psrc := none
  sgn := false
  carry := false
  bad := false
  idle := none
  op := fun i => LaneOut.ofFloat (op i)

/-- Writes one result per active lane, or once into a uniform register (R134). -/
def WCtx.finish (c : WCtx) (bnd : Bool) (d : BitVec 8) (n : Nat) (vals : Nat → Nat) : State :=
  let ls := if isUniform d then (lanesOf c.lanes).take 1 else lanesOf c.lanes
  c.done (ls.foldl (fun W l => W.putRegs d n l (vals l)) c.W) bnd (some d) vals

/-- The modifiers of a word. -/
def aluMods (f : AluW) : Mods := ⟨f.ma, f.mb, f.mc⟩

/-- The environment of a float word in a lane (R60, R62, R69). -/
def aluEnv (f : AluW) (i : LaneIn) : Env := ⟨i.rm, i.ftz, f.sc, f.cl⟩

end Sys2Proof.Machine
end

