-- ==== Sys2Proof/Machine/System.lean ====
section
/-! DEFINITION. The meanings of the system instructions: CSR access (R43–R48, R186, R187, R225), the cache and extent
instructions (R188, R189), the arena (R190–R192), SETPRIO (R193), SVC (R183, R184), MBTGT (R225). -/

namespace Sys2Proof.Machine

/-! Control and status registers. -/

/-- LSCAP (R46): the capacities of the die, and the reservoir partition its partition's SCHCFG sets (R340, R392). -/
def lscap (s : State) (die p : Nat) : DWord :=
  dieCsr s die 0x029 ||| BitVec.ofNat 64 (((smGet? s.parts p).elim 0 fun P => bits P.schcfg.toNat 35 32) * 2 ^ 32)

/-- WSTAT as a gang's CSRR reads it (R45). -/
def wstat (c : WCtx) (bnd : Bool) : Nat :=
  let sl := c.W.slice (lowSlice c.gang)
  let b (x : Bool) (i : Nat) : Nat := if x then 2 ^ i else 0
  c.W.live.toNat + c.gang.toNat * 2 ^ 8 + b c.W.intrap 16 + b c.T.repro 17 + b c.T.secure 18 + b c.W.cte 19 +
    sl.stack.length % 16 * 2 ^ 20 + (if bnd then 0 else (sl.runpos + 1).toNat) * 2 ^ 24 + b c.W.defer 29

/-- CLUSTERID and DIEID of a cluster of the module (R46). -/
def clusterId (k : Nat) : Nat := k % 25 + (k % 5) * 2 ^ 8 + (k % 25 / 5) * 2 ^ 12
def dieId (s : State) (k : Nat) : Nat := k / 25 + s.moduleNo * 2 ^ 8

/-- The value a wave reads of a CSR of the compute profile; none for a number the profile does not allow (R43). -/
def waveCsr (c : WCtx) (bnd : Bool) (num : Nat) : Option DWord :=
  let n (x : Nat) : Option DWord := some (BitVec.ofNat 64 x)
  match num with
  | 0x000 => n c.W.cause.toNat
  | 0x001 => some c.W.wepc
  | 0x002 => n c.W.wpark.toNat
  | 0x003 => some c.W.wtraparg
  | 0x004 => some c.W.whandler
  | 0x005 => n (wstat c bnd)
  | 0x008 => some c.W.wclock
  | 0x009 => n (c.w + octantOf c.w * 2 ^ 6)
  | 0x010 => n (c.T.serial % 2 ^ 32 + c.T.tag % 2 ^ 16 * 2 ^ 32)
  | 0x011 => n c.T.index
  | 0x018 => n c.T.core
  | 0x019 => n (clusterId (clusterOf c.T.core))
  | 0x01A => n (dieId c.s (clusterOf c.T.core))
  | 0x020 => some c.W.fpctl
  | 0x021 => some c.W.mbdest
  | 0x028 => n ((core? c.s c.T.core).elim 0 (·.waitth))
  | 0x029 => some (lscap c.s (dieOf c.T.core) c.T.part)
  | 0x030 => n ((core? c.s c.T.core).elim 0 (·.ccyc))
  | _ => none

/-- The RW bits of a wave's CSR (R45). -/
def csrRw (num : Nat) : DWord :=
  match num with
  | 0x000 => 0xFF#64
  | 0x001 => 0x7CFF_FFFF_FFFF_FFF8#64
  | 0x003 => BitVec.allOnes 64
  | 0x004 => 0x00FF_FFFF_FFFF_FFF9#64
  | 0x005 => 0x8_0000#64
  | 0x020 => 0x1F7#64
  | 0x021 => 0x80FF_7FFF#64
  | _ => 0

/-- W1C bits (R45). -/
def csrW1c (num : Nat) : DWord := if num == 0x020 then 0x3E00#64 else 0

/-- How a CSR word changes a register: CSRW, CSRS, CSRC (R44, R186). -/
inductive CsrOp where
  | write | setBits | clearBits
  deriving DecidableEq, Repr

/-- The value a write leaves, by the width of VAR (0 .b32, 1 .b64, 2 .hi) (R7, R44, R186). -/
def csrNew (op : CsrOp) (num var : Nat) (old a : DWord) : DWord :=
  let x : DWord := if var == 2 then a <<< 32 else a
  let rw := csrRw num
  match op with
  | .write =>
    let m : DWord := if var == 2 then 0xFFFF_FFFF_0000_0000#64 else BitVec.allOnes 64
    ((old &&& ~~~(rw &&& m)) ||| (x &&& rw &&& m)) &&& ~~~(csrW1c num &&& x &&& m)
  | .setBits => old ||| (x &&& rw)
  | .clearBits => old &&& ~~~(x &&& rw)

/-- The wave with a CSR set (R45). A write of WEPC abandons the parked lanes (R427). -/
def setWaveCsr (W : Wave) (num : Nat) (v : DWord) : Wave :=
  match num with
  | 0x000 => { W with cause := v.truncate 8 }
  | 0x001 => { W with wepc := v, wpark := 0 }
  | 0x003 => { W with wtraparg := v }
  | 0x004 => { W with whandler := v }
  | 0x005 => { W with cte := v.getLsbD 19 }
  | 0x020 => { W with fpctl := v }
  | 0x021 => { W with mbdest := v }
  | _ => W

/-- The CSR number's own checks (R43): a number below 0x800 that the profile does not have, and, after every ILLEGAL_ENC of
the word (R423), a management register. -/
def csrKnown (num : Nat) (known : Bool) : Except Stop Unit := trapIf (num < 0x800 && !known) .illegalEnc
def csrPriv (num : Nat) : Except Stop Unit := trapIf (0x800 ≤ num) .priv (BitVec.ofNat 64 num)

/-- The registers a CSR word's operand takes. -/
def csrRegs (var : Nat) : Nat := if var == 1 then 2 else 1

/-- What CSRR delivers by width (R186). -/
def csrPart (var : Nat) (v : DWord) : Nat :=
  if var == 0 then v.toNat % 2 ^ 32 else if var == 1 then v.toNat else v.toNat / 2 ^ 32

/-- The value a context reads (R43, R46, R48). CCYC names no core of a context's own: its count there is a free value. -/
def ctxCsr (c : KCtx) (num : Nat) : Option DWord :=
  let n (x : Nat) : Option DWord := some (BitVec.ofNat 64 x)
  match num with
  | 0x019 => n (clusterId (c.x / 16))
  | 0x01A => n (dieId c.s (c.x / 16))
  | 0x029 => some (lscap c.s (c.x / 16 / 25) c.X.part)
  | 0x030 => some (Config.freeReading c.s.fresh)
  | 0x100 => n (c.X.kcause.toNat + c.X.karg.toNat * 2 ^ 8)
  | 0x101 => n (c.X.kpc.toNat * 8)
  | 0x102 => some c.X.ktl
  | 0x103 => n c.X.kout
  | 0x104 => n c.X.ktag.toNat
  | _ => none

/-- CSRR (R186). -/
def execCsrr (f : CsrW) (s : State) : Host.Outcome State Fault Refusal :=
  issue 0x10 f.g s
    (fun c0 => do
      let v := waveCsr c0 f.bnd f.num.toNat
      trapIf (!uniOrZ f.d) .illegalEnc
      csrKnown f.num.toNat v.isSome
      let c ← c0.open [] [.ofW f.d (csrRegs f.var.toNat)] false
      csrPriv f.num.toNat
      .ok (c.finish f.bnd f.d (csrRegs f.var.toNat) fun _ => csrPart f.var.toNat (v.getD 0)))
    (fun c => do
      let v := ctxCsr c f.num.toNat
      trapIf (f.g != 0#4 || f.var != 1#4) .illegalEnc
      csrKnown f.num.toNat v.isSome
      c.open [] [f.d]
      csrPriv f.num.toNat
      let s1 := c.retire (c.X.putK f.d (v.getD 0).toNat)
      .ok (if f.num == 0x030#12 then { s1 with fresh := s1.fresh + 1 } else s1))
    (fun e => do
      trapIf (!uniOrZ f.d) .illegalEnc
      csrKnown f.num.toNat (f.num == 0x020#12)
      Eval.open [] [.ofW f.d (csrRegs f.var.toNat)] false
      csrPriv f.num.toNat
      .ok (if e.guard f.g then e.putRegs f.d (csrRegs f.var.toNat) (csrPart f.var.toNat e.fpctl) else e).next)

/-- Whether a value of MBDEST names a place of the wave's partition, or is not valid (R225). -/
def mbDestOk (s : State) (T : Team) (v : DWord) : Bool := !v.getLsbD 31 || mbTargetOk s T v

/-- CSRW, CSRS, CSRC (R44, R186, R225, R427). -/
def csrChange (opc : Nat) (op : CsrOp) (f : CsrW) (s : State) : Host.Outcome State Fault Refusal :=
  let num := f.num.toNat
  let var := f.var.toNat
  issue opc f.g s
    (fun c0 => do
      let v := waveCsr c0 f.bnd num
      trapIf (!uniOrZ f.a) .illegalEnc
      csrKnown num v.isSome
      let src := Regs.ofW f.a (csrRegs var)
      let c ← c0.open [src] [] false
      csrPriv num
      let new := csrNew op num var (v.getD 0) (BitVec.ofNat 64 (c.regN f.a (csrRegs var) 0))
      trapIf (c.lanes != 0 && num == 0x021 && !mbDestOk c.s c.T new) .perm new
      c.checkPoison [src]
      .ok (c.retire (if c.lanes == 0 then c.W else setWaveCsr c.W num new) f.bnd))
    (fun c => do
      let v := ctxCsr c num
      trapIf (f.g != 0#4 || f.var != 1#4) .illegalEnc
      csrKnown num v.isSome
      c.open [f.a] []
      csrPriv num
      c.checkPoison [f.a]
      let a : DWord := BitVec.ofNat 64 (c.k f.a)
      let old := c.X.kcause
      let new : BitVec 8 := match op with
        | .write => a.truncate 8
        | .setBits => old ||| a.truncate 8
        | .clearBits => old &&& ~~~(a.truncate 8)
      .ok (c.retire (if num == 0x100 then { c.X with kcause := new } else c.X)))
    (fun e => do
      trapIf (!uniOrZ f.a) .illegalEnc
      csrKnown num (num == 0x020)
      let src := Regs.ofW f.a (csrRegs var)
      Eval.open [src] [] false
      csrPriv num
      if !e.guard f.g then .ok e.next
      else do
        e.checkPoison [src]
        let a := if var == 1 then e.reg64 f.a else e.reg f.a
        .ok ({ e with fpctl := csrNew op num var e.fpctl (BitVec.ofNat 64 a) }).next)

/-- CSRW (R186). -/
def execCsrw (f : CsrW) (s : State) : Host.Outcome State Fault Refusal := csrChange 0x11 .write f s

/-- CSRS (R186). -/
def execCsrs (f : CsrW) (s : State) : Host.Outcome State Fault Refusal := csrChange 0x12 .setBits f s

/-- CSRC (R186). -/
def execCsrc (f : CsrW) (s : State) : Host.Outcome State Fault Refusal := csrChange 0x13 .clearBits f s

/-- MBTGT (R225). -/
def execMbtgt (f : SysW) (s : State) : Host.Outcome State Fault Refusal :=
  issue 0x9F f.g s fun c0 => do
    let c ← c0.open [.one f.a] [] true
    let a : DWord := BitVec.ofNat 64 (c.reg f.a (lowLane c.lanes))
    let new := csrNew .write 0x021 0 c.W.mbdest a
    trapIf (c.lanes != 0 && !mbDestOk c.s c.T new) .perm a
    c.checkPoison [.one f.a]
    .ok (c.retire (if c.lanes == 0 then c.W else { c.W with mbdest := new }) f.bnd)

/-! Cache and extent instructions. -/

/-- The physical address of a virtual one, when an extent maps it (R188: any other address is ignored). -/
def mappedPa (T : Team) (va : Nat) : Option Nat :=
  (extentAt T.ext va).bind fun i => (T.ext[i]?).bind fun e => if e.kind == 1#2 then some (e.pbase + (va - e.vbase)) else none

/-- The lines of the active lanes' addresses (R102, R188). -/
def WCtx.linePas (c : WCtx) (f : MemW) : List Nat := (lanesOf c.lanes).filterMap fun l => mappedPa c.T (c.gAddr f 128 l)

/-- CINV (R188, R354). -/
def execCinv (f : MemW) (s : State) : Host.Outcome State Fault Refusal :=
  issue 0x14 f.g s fun c0 => do
    let srcs := [Regs.pair f.a, Regs.one f.b]
    let c ← c0.open srcs [] false
    c.checkPoison srcs
    let lines := (c.linePas f).map fun pa => loc c.s pa / 128
    .ok (dropLines (c.retire c.W f.bnd) c.T.core fun l => lines.contains l)

/-- CINV.all (R188, R354). -/
def execCinvAll (f : MemW) (s : State) : Host.Outcome State Fault Refusal :=
  issue 0x14 f.g s fun c =>
    .ok (if c.lanes == 0 then c.retire c.W f.bnd else invalidate (c.retire c.W f.bnd) c.T.core)

/-- CWB (R188): the home's line and the stack's bytes are one in the model, so the word changes neither. -/
def execCwb (f : MemW) (s : State) : Host.Outcome State Fault Refusal :=
  issue 0x15 f.g s fun c0 => do
    let srcs := [Regs.pair f.a, Regs.one f.b]
    let c ← c0.open srcs [] false
    c.checkPoison srcs
    .ok (c.retire c.W f.bnd)

/-- PREF (R188, R353): fills the load cache unless the policy keeps it out. A line to which the core has a write under way
is left out, as is one that cannot be read. -/
def execPref (f : MemW) (s : State) : Host.Outcome State Fault Refusal :=
  issue 0x16 f.g s fun c0 => do
    let srcs := [Regs.pair f.a, Regs.one f.b]
    let c ← c0.open srcs [] false
    c.checkPoison srcs
    let s1 := c.retire c.W f.bnd
    .ok (if f.h == 1#2 || f.h == 2#2 || s1.choice % 2 == 1 then s1
      else (lanesOf c.lanes).foldl (fun s l =>
        match teamTr s c.T .read (c.gAddr f 128 l) with
        | .ok pa key sec gen =>
          let line := loc s pa / 128
          let own := s.reqs.any fun r => Rid.core r.rid == some c.T.core && r.kind != .read && loc s r.pa / 128 == line
          if own || remote s pa || homeCheck s pa c.T.asid gen key sec false false != .perform then s
          else modCore (dropLines s c.T.core fun l => l == line) c.T.core fun C => C.fillLine line (homeLine s pa) s.choice
        | _ => s) s1)

/-- EXTQ's result (R189). -/
def extqVal (s : State) (T : Team) (va : Nat) : Nat :=
  match extentAt T.ext va with
  | some i =>
    match T.ext[i]? with
    | some e => 2 ^ 31 + e.key % 128 * 2 ^ 12 + e.sec.toNat * 2 ^ 11 + e.r.toNat * 2 ^ 10 + e.w.toNat * 2 ^ 9 +
        e.x.toNat * 2 ^ 8 + i % 64
    | none => 0
  | none => if declaredOpen (Team.decls s T) T.index va then 2 ^ 30 else 0

/-- EXTQ (R189). -/
def execExtq (f : SysW) (s : State) : Host.Outcome State Fault Refusal :=
  issue 0x17 f.g s fun c0 => do
    let c ← c0.begin [.pair f.a] [.one f.d] (isUniform f.d)
    .ok (c.finish f.bnd f.d 1 fun l => extqVal c.s c.T (c.reg64 f.a l))

/-! The arena. -/

/-- The base of a team's arena and its size, when it has one (R384). -/
def arenaOf (s : State) (T : Team) : Option (Nat × Nat) :=
  (smGet? s.launches T.launch).bind fun L => L.heap.bind fun i => (L.exts[i]?).bind fun d =>
    if L.arena == 0 then none else some ((d.1 + T.index * L.arena) % 2 ^ 56, L.arena)

/-- Whether a run of granules is free. -/
def arenaFree (blocks : List (Nat × Nat)) (g n : Nat) : Bool := blocks.all fun b => g + n ≤ b.1 || b.1 + b.2 ≤ g

/-- The lowest free run of n granules among size (R190). -/
def arenaFind (blocks : List (Nat × Nat)) (n size : Nat) : Option Nat :=
  (List.range (size + 1)).find? fun g => g + n ≤ size && arenaFree blocks g n

/-- HALLOC (R190, R192). -/
def execHalloc (f : SysW) (s : State) : Host.Outcome State Fault Refusal :=
  issue 0x18 f.g s fun c0 => do
    trapIf (!uniOrZ f.d || !uniOrZ f.a) .illegalEnc
    let c ← c0.open [.one f.a] [.pair f.d] true
    if c.lanes == 0 then .ok (c.retire c.W f.bnd)
    else do
      c.checkParted
      c.checkPoison [.one f.a]
      c.waitOrder
      let n := (c.reg f.a 0 + 255) / 256
      let hit := match arenaOf c.s c.T with
        | some (b, size) => if n == 0 then none else (arenaFind c.T.arena n (size / 256)).map fun g => (b, g)
        | none => none
      match hit with
      | none => .ok (c.retire (c.W.putRegs f.d 2 0 0) f.bnd)
      | some (b, g) =>
        let T := { c.T with arena := c.T.arena ++ [(g, n)] }
        .ok (setTeam c.s c.t (T.setWave c.w ((c.W.putRegs f.d 2 0 (b + 256 * g)).retire c.gang f.bnd)))

/-- HFREE (R191, R192). -/
def execHfree (f : SysW) (s : State) : Host.Outcome State Fault Refusal :=
  issue 0x19 f.g s fun c0 => do
    trapIf (!uniOrZ f.a) .illegalEnc
    let c ← c0.open [.pair f.a] [] true
    if c.lanes == 0 then .ok (c.retire c.W f.bnd)
    else do
      c.checkParted
      c.waitOrder
      let a := c.reg64 f.a 0
      let blk := (arenaOf c.s c.T).bind fun p => c.T.arena.find? fun b => p.1 + 256 * b.1 == a
      trapIf blk.isNone .perm (BitVec.ofNat 64 a)
      c.checkPoison [.pair f.a]
      let T := { c.T with arena := c.T.arena.filter fun b => some b != blk }
      .ok (setTeam c.s c.t (T.setWave c.w (c.W.retire c.gang f.bnd)))

/-- SETPRIO (R193). -/
def execSetprio (f : SysW) (s : State) : Host.Outcome State Fault Refusal :=
  issue 0x1A f.g s fun c0 => do
    let imm := immFlag f.var
    let srcs := if imm then [] else [Regs.one f.a]
    trapIf (!imm && !uniOrZ f.a) .illegalEnc
    let c ← c0.open srcs [] true
    c.checkPoison srcs
    let v := if imm then (SysW.imm f).toNat else c.reg f.a 0
    let prio := (smGet? c.s.launches c.T.launch).elim 0 (·.prio)
    let T := if c.lanes == 0 then c.T else { c.T with base := min v prio }
    .ok (setTeam c.s c.t (T.setWave c.w (c.W.retire c.gang f.bnd)))

/-! Service calls. -/

/-- A service-call record (R184). -/
def svcRecord (node wave gang imm : Nat) (pc : BitVec 53) (team index : Nat) (ss : List Nat) (ticket : Nat) : List Byte :=
  toBytes 2 node ++ toBytes 1 0x30 ++ toBytes 1 0 ++ toBytes 1 wave ++ toBytes 1 gang ++ toBytes 2 imm ++
    toBytes 8 (byteAddrOf pc) ++ toBytes 4 team ++ toBytes 4 index ++ ss.flatMap (toBytes 4) ++ toBytes 4 ticket ++ toBytes 4 0
where
  byteAddrOf (pc : BitVec 53) : Nat := pc.toNat * 8

/-- SVC (R182, R183): the word retires, its record goes to the service queue, the gang waits for the reply. -/
def execSvc (f : ImmW) (s : State) : Host.Outcome State Fault Refusal :=
  issue 0x1B f.g s fun c0 => do
    let args := Regs.block 0xC0#8 8 1
    waitIf (c0.W.busyAny [args]) (.result (c0.W.busyOn [args])) c0.s
    match smGet? c0.s.parts c0.T.part with
    | none => .error (.fault .noIssuer)
    | some P => do
      trapIf (P.secure != c0.T.secure) .perm
      c0.checkPoison [args]
      let L := smGet? c0.s.launches c0.T.launch
      let ticket := P.nextTicket
      let sl := c0.W.slice (lowSlice c0.gang)
      let rc := svcRecord (L.elim 0 (·.node)) c0.w sl.gangid.toNat f.imm.toNat sl.pc c0.T.serial c0.T.index
        ((List.range 8).map fun i => (smGetD c0.W.s i 0).toNat) ticket
      let W := { (c0.W.holdGang c0.gang (.svc ticket)).endReplay c0.gang with
        wclock := c0.W.wclock + BitVec.ofNat 64 (slicesOf c0.gang).length
        lastGang := BitVec.ofNat 3 (lowSlice c0.gang) }
      .ok (sqPush (modPart (c0.put W) c0.T.part fun P => { P with
        nextTicket := (P.nextTicket + 1) % 2 ^ 32
        calls := P.calls ++ [⟨ticket, c0.t, c0.w, c0.gang⟩] }) c0.T.part rc)

end Sys2Proof.Machine
end

