-- ==== Sys2Proof/Machine/Copy.lean ====
section
/-! DEFINITION. The meanings of CPY, MCAST (R212–R216), CEXEC, CEQRY (R217, R218, R304), ISCFG and QCLOSE (R219–R221,
R328), and the event that ends a wave's copy. -/

namespace Sys2Proof.Machine

/-! Wave copies. -/

/-- A copy completes: its status word is written, its number counts on the timeline (R212). The write acquires its results: where
they lie outside the team's own scratchpad, the load cache is invalidated (R216, R354, R363). -/
def endWaveCopy (s : State) (t num code : Nat) : State :=
  match team? s t with
  | none => s
  | some T =>
    match T.copies.find? fun c => c.num == num with
    | none => s
    | some c =>
      let s1 := setTeam s t (T.endCopy t c code)
      wakeTeam (if c.outside t then invalidate s1 T.core else s1) t

/-- Where a range of a team's addresses first meets a failure of R198. -/
def rangeBad (s : State) (T : Team) (a : Acc) (va n : Nat) (r : Tr) : Option Nat :=
  ((cutRange va n).find? fun p => teamTr s T a (p.1 % 2 ^ 64) == r).map (·.1)

/-- The first failure of R198 over a range of a team's addresses, EXTENT_MISS above PERM (R213, R423). -/
def rangeTrap (s : State) (T : Team) (a : Acc) (va n : Nat) : Except Stop Unit :=
  match rangeBad s T a va n .miss with
  | some va => .error (.trap .extentMiss (BitVec.ofNat 64 va))
  | none =>
    match rangeBad s T a va n .perm with
    | some va => .error (.trap .perm (BitVec.ofNat 64 va))
    | none => .ok ()

/-- A range of a team's addresses that a copy names, and how it uses it. -/
structure GlobalSide where
  acc : Acc
  va : Nat

/-- Issue of a wave's copy (R213–R216): the checks, the wait of a release, then the copy takes the next number. A scratchpad range
past the allocation completes the copy at once, and under CTE the word traps as well. The spec gives the copy queue no capacity:
while the team has copies in flight, bit 61 of the turn's choice says that the queue has no room (R228). -/
def issueCopy (c0 c : WCtx) (bnd : Bool) (srcs : List Regs) (d : BitVec 8) (aligned : List Nat) (len : Nat)
    (side : Option GlobalSide) (offs : List Nat) (copy : WCopy) : Except Stop State := do
  match aligned.find? fun v => v % 16 != 0 with
  | some v => .error (.trap .misalign (BitVec.ofNat 64 v))
  | none => do
    trapIf (524288 < len) .misalign (BitVec.ofNat 64 len)
    let past := offs.find? fun o => c.T.scratchSize < o + len
    let traps := past.isSome && c.W.cte
    if !traps then do
      match side with
      | some g => rangeTrap c.s c.T g.acc g.va len
      | none => .ok ()
      c.checkPoison srcs
    c.waitRelease c0.s
    waitIf (!c.T.copies.isEmpty && bit c0.s.choice 61) .room c0.s
    let num := c.T.copyNum + 1
    let queued (W : Wave) : State :=
      let W1 := { W with busy := W.busy ++ (Regs.pair d).keys.map fun k => (k, .copy num) }
      setTeam c.s c.t { c.T.setWave c.w W1 with copyNum := num, copies := c.T.copies ++ [{ copy with num := num }] }
    match past with
    | none => .ok (queued (c.W.retire c.gang bnd))
    | some o =>
      if c.W.cte then .ok (takeTrap (endWaveCopy (queued c.W) c.t num 2) c.t c.w c.gang .scratchBounds (BitVec.ofNat 64 o))
      else .ok (endWaveCopy (queued (c.W.retire c.gang bnd)) c.t num 2)

/-- A copy that names nothing yet. -/
def WCopy.blank (wave : Nat) (d : BitVec 8) : WCopy where
  num := 0
  wave := wave
  d := d.toNat
  toScratch := false
  fromScratch := false
  src := 0
  dst := 0
  len := 0
  pos := 0
  dests := []
  code := 0
  park := none

/-- CPY (R213). -/
def execCpy (f : SysW) (s : State) : Host.Outcome State Fault Refusal :=
  issue 0x96 f.g s fun c0 => do
    trapIf (!uniOrZ f.d || !uniOrZ f.a || !uniOrZ f.b || !uniOrZ f.c) .illegalEnc
    let ra := if f.var == 2#4 then Regs.one f.a else Regs.pair f.a
    let srcs := [ra, Regs.one f.b, Regs.one f.c]
    let c ← c0.open srcs [.pair f.d] true
    if c.lanes == 0 then .ok (c.retire c.W f.bnd)
    else
      let a := if f.var == 2#4 then c.reg f.a 0 else c.reg64 f.a 0
      let b := c.reg f.b 0
      let n := c.reg f.c 0
      let w0 := WCopy.blank c.w f.d
      let own := (c.t, c.T.allocGen, 1)
      match f.var.toNat with
      | 0 =>
        issueCopy c0 c f.bnd srcs f.d [a, b, n] n (some ⟨.read, a⟩) [b]
          { w0 with toScratch := true, src := a, dst := b, len := n, dests := [own] }
      | 1 =>
        issueCopy c0 c f.bnd srcs f.d [a, b, n] n (some ⟨.write, a⟩) [b]
          { w0 with fromScratch := true, src := b, dst := a, len := n }
      | _ =>
        issueCopy c0 c f.bnd srcs f.d [a, b, n] n none [a, b]
          { w0 with toScratch := true, fromScratch := true, src := b, dst := a, len := n, dests := [own] }

/-- MASK in bits 13:6 (R214, R325). -/
def SysW.mask8 (f : SysW) : Nat := f.x.toNat / 16 % 256

/-- MCAST (R214, R215): a core that holds no team of the launch ends its delivery with CODE 0x03. -/
def execMcast (f : SysW) (s : State) : Host.Outcome State Fault Refusal :=
  issue 0x97 f.g s fun c0 => do
    trapIf (!uniOrZ f.d || !uniOrZ f.a || !uniOrZ f.b || !uniOrZ f.c) .illegalEnc
    let srcs := [Regs.pair f.a, Regs.one f.b, Regs.one f.c]
    let c ← c0.open srcs [.pair f.d] true
    if c.lanes == 0 then .ok (c.retire c.W f.bnd)
    else
      let a := c.reg64 f.a 0
      let b := c.reg f.b 0
      let n := c.reg f.c 0
      let dests := ((List.range 8).filter fun k => bit (SysW.mask8 f) k).map fun k =>
        match heldTeam c.s c.T.launch (clusterOf c.T.core * 8 + k) with
        | some (u, U) => (u, U.allocGen, 1)
        | none => (0, 0, 3)
      issueCopy c0 c f.bnd srcs f.d [a, b, n] n (some ⟨.read, a⟩) [b]
        { WCopy.blank c.w f.d with toScratch := true, src := a, dst := b, len := n, dests := dests }

/-! Contrail programs. -/

/-- Whether Contrail engine e of a cluster is secure (R503). -/
def contrailSecure (s : State) (cluster e : Nat) : Bool :=
  let c := cluster % 25
  if c < 16 then (dieCsr s (cluster / 25) 0xF01).getLsbD (4 * c + e)
  else (dieCsr s (cluster / 25) 0xF02).getLsbD (4 * (c - 16) + e)

/-- Whether CEXEC may take a context: Stopped, or Faulted, which it treats as stopped (R303). -/
def ctxFree (s : State) (x : Nat) : Bool :=
  match smGet? s.ctxs x with
  | some X => X.st == .stopped || X.st == .faulted
  | none => false

/-- The context CEXEC takes (R217). -/
def cexecPick (s : State) (cluster sel : Nat) : Option Nat :=
  if bit sel 4 then ((List.range 16).map fun i => cluster * 16 + i).find? (ctxFree s)
  else if ctxFree s (cluster * 16 + sel % 16) then some (cluster * 16 + sel % 16) else none

/-- A context as CEXEC starts it (R42, R217, R304). -/
def Ctx.start (X : Ctx) (T : Team) (cte : Bool) (entry : Nat) (ks : List Nat) : Ctx :=
  { X with
    st := .running
    k := ((List.range 8).zip ks).foldl (fun m p => smPut 0 m p.1 (BitVec.ofNat 64 p.2)) []
    kpoison := []
    kbusy := []
    reqBusy := []
    ags := List.replicate 4 ⟨0, [0, 0, 0, 0, 0], [0, 0, 0, 0, 0], [0, 0, 0, 0, 0], 0, 0, false, 0⟩
    kpc := BitVec.ofNat 53 (entry / 8)
    kcause := 0
    karg := 0
    ktl := 0
    kout := 0
    ktag := BitVec.ofNat 16 T.tag
    team := T.serial
    launch := T.launch
    part := T.part
    asid := T.asid
    cte := cte
    secure := T.secure
    bind := List.replicate 8 .empty
    copies := []
    issued := 0
    deferred := []
    wait := none
    faultVa := 0
    faultAcc := 0
    stamp := 0
    noted := false
    parks := []
    copyFail := false
    redo := false
    outNow := false
    outAt := none
    killed := false }

/-- The requests of a context's former program that are still out: what they answer changes nothing of the new program (R42, R310,
R336; DESIGN CHOICE, log entry 104). Their field `gang`, which a context's request does not use, says so. -/
def orphan (s : State) (x : Nat) : State :=
  { s with reqs := s.reqs.map fun r => if r.who == .context x then { r with gang := 0xFF } else r }

/-- CEXEC (R217, R304, R504). -/
def execCexec (f : SysW) (s : State) : Host.Outcome State Fault Refusal :=
  issue 0x98 f.g s fun c0 => do
    trapIf (!uniOrZ f.d || !uniOrZ f.a || !uniOrZ f.b) .illegalEnc
    let srcs := [Regs.pair f.a, Regs.one f.b, Regs.block f.c 8 1]
    let c ← c0.open srcs [.one f.d] true
    if c.lanes == 0 then .ok (c.retire c.W f.bnd)
    else do
      let entry := c.reg64 f.a 0
      let sel := c.reg f.b 0
      let cl := clusterOf c.T.core
      trapIf (entry % 8 != 0) .misalign (BitVec.ofNat 64 entry)
      let pick := cexecPick c.s cl sel
      let e := match pick with
        | some x => x % 16 / 4
        | none => sel % 16 / 4
      trapIf ((!bit sel 4 || pick.isSome) && contrailSecure c.s cl e != c.T.secure) .perm (BitVec.ofNat 64 sel)
      c.checkPoison srcs
      match pick with
      | none => .error (.wait .context c0.s)
      | some x => do
        c.waitRelease c0.s
        let ks := (List.range 8).map fun i => c.reg (codeAt f.c i) 0
        let s1 := c.retire (c.W.putReg f.d 0 (2 ^ 28 + x % 16 * 2 ^ 16)) f.bnd
        .ok (modCtx (orphan s1 x) x fun X => X.start c.T c.W.cte entry ks)

/-- CEQRY's status (R218). -/
def ctxStatus (X : Ctx) (tag : Nat) : Nat :=
  if X.ktag.toNat != tag then 8
  else
    let st := match X.st with
      | .running | .stopping | .faulting => 1
      | .parked => 2
      | .faulted => 4
      | .stopped => 0
    X.ktl.toNat % 2 ^ 32 * 2 ^ 32 + X.kout % 2 ^ 16 * 2 ^ 16 + X.kcause.toNat * 2 ^ 8 + st

/-- The shared course of CEQRY and CEQRY.arg (R218): a handle that is not of KIND 1 raises PERM, as R210 has it. -/
def ceqryWave (f : SysW) (val : Ctx → Nat → Nat) (c0 : WCtx) : Except Stop State := do
  trapIf (!uniOrZ f.d || !uniOrZ f.a) .illegalEnc
  let c ← c0.open [.one f.a] [.pair f.d] true
  if c.lanes == 0 then .ok (c.retire c.W f.bnd)
  else do
    let h := c.reg f.a 0
    let X := smGet? c.s.ctxs (clusterOf c.T.core * 16 + bits h 19 16)
    trapIf (bits h 31 28 != 1 || !handleClean h || X.isNone) .perm (BitVec.ofNat 64 h)
    c.checkPoison [.one f.a]
    .ok (c.retire (c.W.putRegs f.d 2 0 (X.elim 0 fun X => val X c.T.tag)) f.bnd)

/-- CEQRY (R218). -/
def execCeqry (f : SysW) (s : State) : Host.Outcome State Fault Refusal := issue 0x99 f.g s (ceqryWave f ctxStatus)

/-- CEQRY.arg (R218). -/
def execCeqryArg (f : SysW) (s : State) : Host.Outcome State Fault Refusal :=
  issue 0x99 f.g s (ceqryWave f fun X tag => if X.ktag.toNat == tag then X.karg.toNat else 0)

/-! Indirect streams. -/

/-- ISCFG (R219, R328). -/
def execIscfg (f : SysW) (s : State) : Host.Outcome State Fault Refusal :=
  issue 0x9A f.g s fun c0 => do
    let src := Regs.block f.a 8 1
    let c ← c0.open [src] [] true
    if c.lanes == 0 then .ok (c.retire c.W f.bnd)
    else do
      let r (i : Nat) : Nat := c.reg (codeAt f.a i) 0
      trapIf (r 5 % 4 != 0) .misalign (BitVec.ofNat 64 (r 5))
      trapIf (r 6 % 4 != 0) .misalign (BitVec.ofNat 64 (r 6))
      let n := f.var.toNat % 4
      let q := c.T.fifos.getD n ⟨.idle, [], none⟩
      trapIf (q.st == .streaming || q.st == .pushing) .perm (BitVec.ofNat 64 n)
      c.checkPoison [src]
      c.waitRelease c0.s
      let st : Stream := ⟨c.reg64 f.a 0, c.reg64 (codeAt f.a 2) 0, r 4, r 5, r 6, 0, none, none⟩
      let q1 : Fifo := if r 4 == 0 then { q with st := .closed, stream := some st } else { q with st := .streaming, stream := some st }
      let T := { c.T.setWave c.w (c.W.retire c.gang f.bnd) with fifos := setAt c.T.fifos n q1 }
      .ok (wakeTeam (setTeam c.s c.t T) c.t)

/-- QCLOSE (R221). -/
def execQclose (f : SysW) (s : State) : Host.Outcome State Fault Refusal :=
  issue 0x9B f.g s fun c =>
    if c.lanes == 0 then .ok (c.retire c.W f.bnd)
    else
      let T := { c.T.setWave c.w (c.W.retire c.gang f.bnd) with fifos := setAt c.T.fifos (f.var.toNat % 4) ⟨.closed, [], none⟩ }
      .ok (wakeTeam (setTeam c.s c.t T) c.t)

end Sys2Proof.Machine
end

