-- ==== Sys2Proof/Machine/Stream.lean ====
section
/-! DEFINITION. The stream profile's own words (R305, R315–R333): KLD, KST, the address generators, the copies, QPUSH,
TLINC, SWAIT, STOPC; the events that apply deferred work and end a context. -/

namespace Sys2Proof.Machine

/-! Scratchpad loads and stores (R316). -/

/-- Bytes of a SIZE code. -/
def kSize (var : Nat) : Nat :=
  match var with
  | 0 | 1 => 1
  | 2 | 3 => 2
  | 4 | 5 => 4
  | _ => 8

/-- The reference of a KLD or KST: the offset moves bits 31:0 only. -/
def KCtx.kRef (c : KCtx) (f : SysW) : Nat :=
  let r := c.k f.a
  r / 2 ^ 32 * 2 ^ 32 + ofSigned 32 ((r % 2 ^ 32 : Nat) + toSigned 8 f.c.toNat * (kSize f.var.toNat : Int))

/-- KLD (R316). A word that waits has filled the entry it binds (R313). -/
def execKld (f : SysW) (s : State) : Host.Outcome State Fault Refusal :=
  issue 0xD0 f.g s (fun _ => offProfile 0xD0) fun c => do
    c.open [f.a] [f.d]
    let n := kSize f.var.toNat
    let (X, _, T, off) ← useRef c.s c.x c.X (c.k f.a) (c.kRef f) n n
    c.checkPoison [f.a]
    waitIf (readsPending c.s (.context c.x)) (.result []) (c.put X)
    waitIf (outsideWaits T off n) .claim (c.put X)
    let (bs, m) := outsideRead c.s T off n
    let v := ofBytes bs
    let X1 := X.putK f.d (if f.var.getLsbD 0 then ofSigned 64 (toSigned (8 * n) v) else v)
    .ok (c.retire (if m then { X1 with kpoison := nsAdd X1.kpoison f.d.toNat } else X1))

/-- Whether a context's earlier writes are acknowledged and its reads performed: a release may go on (R335). -/
def KCtx.waitRelease (c : KCtx) (s0 : State) : Except Stop Unit :=
  waitIf (!c.X.storeQ.isEmpty || c.X.owc != 0 || readsPending c.s (.context c.x)) .fence s0

/-- KST (R316): behind the context's earlier stores, as STP is. -/
def execKst (f : SysW) (s : State) : Host.Outcome State Fault Refusal :=
  issue 0xD1 f.g s (fun _ => offProfile 0xD1) fun c => do
    c.open [f.a, f.d] []
    let n := kSize f.var.toNat
    let (X, t, T, off) ← useRef c.s c.x c.X (c.k f.a) (c.kRef f) n n
    c.checkPoison [f.a, f.d]
    if f.ord == 2#2 then c.waitRelease (c.put X) else waitIf (!c.X.storeQ.isEmpty) .fence (c.put X)
    waitIf (outsideWaits T off n) .claim (c.put X)
    .ok (outsideWrite (c.retire { X with outNow := X.outNow || t != teamKey X.part X.team }) t off (toBytes n (c.k f.d)) false)

/-! Address generators (R317, R318). -/

def SysW.dims (f : SysW) : Nat := (f.x.extractLsb' 9 3).toNat

/-- AGSET (R317). -/
def execAgset (f : SysW) (s : State) : Host.Outcome State Fault Refusal :=
  issue 0xD2 f.g s (fun _ => offProfile 0xD2) fun c => do
    let n := SysW.dims f
    let srcs := (List.range (n + 1)).map fun i => f.a + BitVec.ofNat 8 i
    c.open srcs []
    c.checkPoison srcs
    let w (i : Nat) : Nat := if i < n then c.k (f.a + BitVec.ofNat 8 (i + 1)) else 0
    let counts := (List.range 5).map fun i => w i % 2 ^ 32
    let used := counts.take n
    let ag : AddrGen :=
      { base := BitVec.ofNat 64 (c.k f.a)
        counts := counts
        strides := (List.range 5).map fun i => toSigned 32 (w i / 2 ^ 32)
        pos := [0, 0, 0, 0, 0]
        addr := BitVec.ofNat 64 (c.k f.a)
        dims := n
        done := used.any fun x => x == 0
        left := min (used.foldl (· * ·) 1) (2 ^ 64 - 1) }
    .ok (c.retire { c.X with ags := setAt c.X.ags (f.var.toNat % 4) ag })

/-- The positions after one step over the counts, and whether the last dimension wrapped. -/
def agNext : List Nat → List Nat → List Nat × Bool
  | n :: ns, p :: ps =>
    if p + 1 < n then ((p + 1) :: ps, false)
    else
      let (qs, w) := agNext ns ps
      (0 :: qs, w)
  | _, _ => ([], true)

/-- AGSTEP's effect on a generator that is not done (R318). One that no AGSET has set has no dimension: the loop runs zero times. -/
def AddrGen.step (g : AddrGen) : AddrGen :=
  let (ps, w) := agNext (g.counts.take g.dims) (g.pos.take g.dims)
  let pos := ps ++ List.replicate (5 - g.dims) 0
  { g with
    pos := pos
    done := w && g.dims != 0
    addr := BitVec.ofInt 64 ((g.base.toNat : Int) +
      ((pos.zip g.strides).map fun p => (p.1 : Int) * p.2).foldl (· + ·) 0)
    left := if g.left == 2 ^ 64 - 1 then g.left else (g.left + 2 ^ 64 - 1) % 2 ^ 64 }

/-- AGSTEP (R318). -/
def execAgstep (f : SysW) (s : State) : Host.Outcome State Fault Refusal :=
  issue 0xD3 f.g s (fun _ => offProfile 0xD3) fun c => do
    c.open [] [f.d, f.b]
    let n := f.var.toNat % 4
    let g := c.X.ags.getD n AddrGen.blank
    if g.done then .ok (c.retire ((c.X.putK f.d 0).putK f.b 0))
    else
      let g1 := g.step
      .ok (c.retire (({ c.X with ags := setAt c.X.ags n g1 }.putK f.d g.addr.toNat).putK f.b g1.left))

/-! Copies (R319–R327). -/

/-- The engine of a context's copies: its starting team's extents, its own world (R304). -/
def ctxEng (s : State) (x : Nat) (X : Ctx) : Eng :=
  let unit := x / 400 * 1024 + 400 + x % 400
  match ctxTeam s X with
  | some T => { teamEng s T unit with who := .context x, tile := x / 16, asid := X.asid, secure := X.secure }
  | none => ⟨.context x, x / 16, X.part, unit, X.asid, [], [], 0, X.secure⟩

/-- A scratchpad side as its copy uses it, or the code with which the copy completes at once (R320). -/
inductive Side where
  | at (l : Loc)
  | code (n : Nat) (ref : Nat)

/-- One side of a copy with its range: `bytes` from it are checked, of an indexed side none (R324). -/
structure SideSpec where
  scratch : Bool
  v : Nat
  bytes : Nat
  acc : Acc

/-- The traps of a copy's global ranges (R320): EXTENT_MISS of any above PERM of any (R423). -/
def globalSides (c : KCtx) (sps : List SideSpec) : Except Stop Unit :=
  let gs := sps.filter fun sp => !sp.scratch && sp.bytes != 0
  match ctxTeam c.s c.X with
  | none => trapIf (!gs.isEmpty) .extentMiss (BitVec.ofNat 64 ((gs.head?).elim 0 (·.v)))
  | some T =>
    match gs.findSome? fun sp => rangeBad c.s T sp.acc sp.v sp.bytes .miss with
    | some va => .error (.trap .extentMiss (BitVec.ofNat 64 va))
    | none =>
      match gs.findSome? fun sp => rangeBad c.s T sp.acc sp.v sp.bytes .perm with
      | some va => .error (.trap .perm (BitVec.ofNat 64 va))
      | none => .ok ()

/-- One side of a copy: the context with its table filled, and the place or the code of R320 (R312, R313). A reference of which no byte is
checked has its binding checked; what lies past the allocation shows row by row (R321, R324). -/
def openSide (c : KCtx) (X : Ctx) (sp : SideSpec) : Ctx × Side :=
  if !sp.scratch then (X, .at (.global sp.v))
  else if refBad sp.v && sp.bytes != 0 then (X, .code 2 sp.v)
  else
    let X1 := bindFill c.s c.x X (refCore sp.v)
    match bindTeam c.s X (bindEntry c.s c.x X (refCore sp.v)) with
    | none => (X1, .code 3 sp.v)
    | some (t, T) =>
      if sp.bytes != 0 && T.scratchSize < refOff sp.v + sp.bytes then (X1, .code 2 sp.v)
      else (X1, .at (.scratch t T.allocGen (if refBad sp.v then sp.v else refOff sp.v)))

/-- The sides of a copy: the traps of its global ranges, then each bound and checked (R320). -/
def openSides (c : KCtx) (X : Ctx) (sps : List SideSpec) : Except Stop (Ctx × List Side) := do
  globalSides c sps
  .ok (sps.foldl (fun a sp =>
    let (X1, d) := openSide c a.1 sp
    (X1, a.2 ++ [d])) (X, []))

/-- .ns: no status register. -/
def SysW.ns (f : SysW) : Bool := immFlag f.var

/-- MISALIGN of the first operand that is no multiple of 16, or of a length above its limit (R320). -/
def copyAligned (vs : List Nat) (len limit : Nat) : Except Stop Unit := do
  match vs.find? fun v => v % 16 != 0 with
  | some v => .error (.trap .misalign (BitVec.ofNat 64 v))
  | none => trapIf (limit < len) .misalign (BitVec.ofNat 64 len)

/-- A copy that completes at once by what its sides answer, retired codes before bounds as the rows of R320 stand. -/
def sideCode (sides : List Side) : Option (Nat × Nat) :=
  let of (n : Nat) : Option (Nat × Nat) := sides.findSome? fun d => match d with
    | .code m r => if m == n then some (m, r) else none
    | _ => none
  (of 3).orElse fun _ => of 2

def Side.loc (d : Side) : Loc :=
  match d with
  | .at l => l
  | .code _ _ => .global 0

/-- Whether a copy writes outside the starting team's scratchpad (R363). -/
def CopyKind.outside (k : CopyKind) (own : Nat) : Bool :=
  let away (l : Loc) : Bool := match l with
    | .scratch t _ _ => t != own
    | .global _ => true
  match k with
  | .linear d _ _ | .gather d _ _ _ _ | .scatter d _ _ _ _ | .decode d _ _ _ _ => away d
  | .mcast ds _ _ => ds.any fun d => d.2 == 1 && away d.1
  | .cbload _ _ => false

/-- Issue of a copy (R319, R320, R335): KOUT and the number go up. `now` is the code with which it completes at once, if it does;
`bounds` the reference of a SCRATCH_BOUNDS, which under CTE or .ns also faults the context at the word. -/
def issueSCopy (c : KCtx) (X : Ctx) (f : SysW) (srcs : List (BitVec 8)) (now : Option Nat) (bounds : Option Nat) (kind : CopyKind) :
    Except Stop State := do
  let hot := bounds.isSome && (X.cte || SysW.ns f)
  if !hot then c.checkPoison srcs
  waitIf (Config.maxKout ≤ X.kout) .unit (c.put X)
  c.waitRelease (c.put X)
  let num := X.issued + 1
  let seq := (smGet? c.s.clusters (c.x / 16)).elim 0 (·.copySeq)
  let cp : SCopy := { num := num, seq := seq, ns := SysW.ns f, d := f.d.toNat, kind := kind, pos := 0, row := none, code := 0, fin := false, park := none }
  let X1 : Ctx := { X with
    issued := num
    kout := X.kout + 1
    copies := X.copies ++ [cp]
    kbusy := if SysW.ns f then X.kbusy else X.kbusy ++ [(f.d.toNat, num)]
    outNow := X.outNow || (now.isNone && kind.outside (teamKey X.part X.team)) }
  let idle := (List.range 4).all fun i => (smGet? c.s.ctxs (c.x / 4 * 4 + i)).elim true fun Y => Y.copies.all (·.fin)
  let s1 := modCluster c.s (c.x / 16) fun C => { C with
    copySeq := C.copySeq + 1
    owed := if idle then setAt C.owed (c.x / 4 % 4) 0 else C.owed }
  let c1 : KCtx := { c with s := s1 }
  .ok (match bounds, hot with
    | some r, true => faultCtx (c1.put (X1.dropCopy cp (now.getD 2))) c.x Cause.scratchBounds.code 0 r
    | _, _ => c1.put (match now with
      | some code => X1.nextWord.endCopy cp code
      | none => X1.nextWord))

/-- Issue of a copy with its sides. -/
def issueSides (c : KCtx) (X : Ctx) (f : SysW) (srcs : List (BitVec 8)) (sides : List Side) (kind : List Loc → CopyKind) :
    Except Stop State :=
  let now := sideCode sides
  issueSCopy c X f srcs (now.map (·.1)) (now.bind fun n => if n.1 == 2 then some n.2 else none) (kind (sides.map Side.loc))

/-- Destinations a copy's word names for its status. -/
def SysW.statusRegs (f : SysW) : List (BitVec 8) := if SysW.ns f then [] else [f.d]

/-- SCOPY (R323): of length 0 it completes at once with CODE 0x01. -/
def execScopy (f : SysW) (s : State) : Host.Outcome State Fault Refusal :=
  issue 0xD4 f.g s (fun _ => offProfile 0xD4) fun c => do
    let srcs := [f.a, f.b, f.c]
    c.open srcs (SysW.statusRegs f)
    let (a, b, n) := (c.k f.a, c.k f.b, c.k f.c)
    copyAligned [a, b, n] n (2 ^ 24)
    let (X, sides) ← openSides c c.X [⟨f.var.getLsbD 0, a, n, .write⟩, ⟨f.var.getLsbD 1, b, n, .read⟩]
    let kind (l : List Loc) : CopyKind := .linear (l.getD 0 (.global 0)) (l.getD 1 (.global 0)) n
    if n == 0 then issueSCopy c X f srcs (some 1) none (kind []) else issueSides c X f srcs sides kind

/-- What SGATH and SSCAT share (R324): `ga` says which. The index list is the third side; the indexed side is checked row by
row, so only its binding is checked here. -/
def indexedCopy (opc : Nat) (ga : Bool) (f : SysW) (s : State) : Host.Outcome State Fault Refusal :=
  issue opc f.g s (fun _ => offProfile opc) fun c => do
    let c1 : BitVec 8 := f.c + 1
    let srcs := [f.a, f.b, f.c, c1]
    c.open srcs (SysW.statusRegs f)
    let (a, b, l) := (c.k f.a, c.k f.b, c.k f.c)
    let n := c.k c1 % 2 ^ 32
    let r := c.k c1 / 2 ^ 32
    copyAligned [a, b, l, r] r 4096
    trapIf (r == 0 || 65535 < n) .misalign (BitVec.ofNat 64 (c.k c1))
    let whole := n * r
    let (X, sides) ← openSides c c.X
      [⟨f.var.getLsbD 0, a, if ga then whole else 0, .write⟩, ⟨f.var.getLsbD 1, b, if ga then 0 else whole, .read⟩,
       ⟨f.var.getLsbD 2, l, 4 * n, .read⟩]
    issueSides c X f srcs sides fun ls =>
      let g (i : Nat) : Loc := ls.getD i (.global 0)
      if ga then .gather (g 0) (g 1) (g 2) n r else .scatter (g 0) (g 1) (g 2) n r

/-- SGATH (R324). -/
def execSgath (f : SysW) (s : State) : Host.Outcome State Fault Refusal := indexedCopy 0xD5 true f s

/-- SSCAT (R324). -/
def execSscat (f : SysW) (s : State) : Host.Outcome State Fault Refusal := indexedCopy 0xD6 false f s

/-- SMCAST (R325): each destination bound and checked separately. -/
def execSmcast (f : SysW) (s : State) : Host.Outcome State Fault Refusal :=
  issue 0xD7 f.g s (fun _ => offProfile 0xD7) fun c => do
    let srcs := [f.a, f.b, f.c]
    c.open srcs (SysW.statusRegs f)
    let (a, b, n) := (c.k f.a, c.k f.b, c.k f.c)
    copyAligned [a, b, n] n 524288
    globalSides c [⟨false, b, n, .read⟩]
    if refBad a || refCore a != 0 then issueSCopy c c.X f srcs (some 2) (some a) (.mcast [] b n)
    else do
      let cores := (List.range 8).filter fun j => bit (SysW.mask8 f) j
      let (X, ds) ← openSides c c.X (cores.map fun j => ⟨true, a + j * 2 ^ 29, n, .write⟩)
      let codes := ds.map fun d => match d with
        | .at _ => 1
        | .code k _ => k
      let past := ds.findSome? fun d => match d with
        | .code 2 r => some r
        | _ => none
      let now := if codes.all (· != 1) || (past.isSome && (X.cte || SysW.ns f)) then some (codes.foldl max 2) else none
      issueSCopy c X f srcs now (if now.isSome then past else none) (.mcast (ds.map fun d => match d with
        | .at l => (l, 1)
        | .code k _ => (.global 0, k)) b n)

/-- Whether a team's matrix queue, or a context's SDECODE, uses the table of a tag (R326). -/
def Operand.usesBook (x : Operand) : Bool := x.fmt == 9#4

def MxKind.usesBook (k : MxKind) : Bool :=
  match k with
  | .ldw pl _ => pl.op.usesBook
  | .loop _ a _ _ _ _ _ _ _ _ _ => a.usesBook
  | _ => false

def bookInUse (s : State) (cluster tag : Nat) : Bool :=
  (s.teams.any fun p => clusterOf p.2.core == cluster && p.2.tag == tag &&
    ((p.2.plane.any fun pl => pl.op.usesBook) && p.2.mxq.any (fun o => !o.done) || p.2.mxq.any fun o => !o.done && o.kind.usesBook)) ||
  ((List.range 16).any fun i => (smGet? s.ctxs (cluster * 16 + i)).any fun X => X.ktag.toNat == tag &&
    X.copies.any fun c => match c.kind with
      | .decode _ _ _ _ _ => true
      | _ => false)

/-- The slot CBLOAD takes (R326). -/
def bookSlot (s : State) (cluster tag : Nat) : Option Nat :=
  let bs := (smGet? s.clusters cluster).elim [] (·.codebooks)
  (bs.findIdx? fun b => b.tag == some tag).orElse fun _ =>
    (bs.findIdx? fun b => b.tag.isNone).orElse fun _ =>
      (((List.range bs.length).zip bs).filter fun p => !p.2.loading && !p.2.tag.any (bookInUse s cluster)).foldl
        (fun b p => match b with
          | none => some p
          | some q => if p.2.loadedAt < q.2.loadedAt then some p else some q) none |>.map (·.1)

/-- CBLOAD (R326). -/
def execCbload (f : SysW) (s : State) : Host.Outcome State Fault Refusal :=
  issue 0xD8 f.g s (fun _ => offProfile 0xD8) fun c => do
    c.open [f.a] (SysW.statusRegs f)
    let a := c.k f.a
    trapIf (a % 256 != 0) .misalign (BitVec.ofNat 64 a)
    globalSides c [⟨false, a, 16384, .read⟩]
    let X := c.X
    let cl := c.x / 16
    match bookSlot c.s cl X.ktag.toNat with
    | none => do
      c.checkPoison [f.a]
      .error (.wait .unit c.s)
    | some i => do
      let s1 ← issueSCopy c X f [f.a] none none (.cbload i a)
      .ok (modCluster s1 cl fun C => { C with codebooks := modAt C.codebooks i fun b =>
        { b with tag := some X.ktag.toNat, loading := true, loadedAt := c.s.now } })

/-- SDECODE (R327). -/
def execSdecode (f : SysW) (s : State) : Host.Outcome State Fault Refusal :=
  issue 0xD9 f.g s (fun _ => offProfile 0xD9) fun c => do
    let srcs := [f.a, f.b, f.c]
    c.open srcs (SysW.statusRegs f)
    let (a, b, n) := (c.k f.a, c.k f.b, c.k f.c)
    copyAligned [a] n (2 ^ 20)
    trapIf (n == 0) .misalign 0
    let (X, sides) ← openSides c c.X [⟨f.var.getLsbD 0, a, 16 * n, .write⟩, ⟨f.var.getLsbD 1, b, n, .read⟩]
    let book := ((smGet? c.s.clusters (c.x / 16)).elim [] (·.codebooks)).find? fun k => k.tag == some X.ktag.toNat
    match book with
    | none =>
      let hot := (sideCode sides).any fun n => n.1 == 2 && (X.cte || SysW.ns f)
      .error (if hot then .trap .scratchBounds (BitVec.ofNat 64 ((sideCode sides).elim 0 (·.2))) else .trap .copyFail 0)
    | some k => do
      waitIf k.loading .unit c.s
      let cb := (f.x.extractLsb' 10 2).toNat
      issueSides c X f srcs sides fun ls =>
        .decode (ls.getD 0 (.global 0)) (ls.getD 1 (.global 0)) n
          ((k.bytes.filter fun p => p.1 / 4096 == cb).map fun p => (p.1 % 4096, p.2))
          ((k.psn.filter fun g => g / 256 == cb).map fun g => g % 256)

/-! FIFOs (R329). -/

/-- Elements of 32 bits with the marks of their bytes. -/
def elemsOf (bs : List (Byte × Bool)) : List (Word × Bool) :=
  (List.range (bs.length / 4)).map fun i =>
    let e := (bs.drop (4 * i)).take 4
    (BitVec.ofNat 32 (ofBytes (engBytes e)), engMarked e)

/-- The elements a QPUSH reads from the scratchpad (R329). -/
def scratchElems (s : State) (T : Team) (off n : Nat) : List (Word × Bool) :=
  (List.range n).map fun i =>
    let (bs, m) := outsideRead s T (off + 4 * i) 4
    (BitVec.ofNat 32 (ofBytes bs), m)

/-- QPUSH into FIFO q of the starting team (R329), which takes elements while it lives, whatever other team of the launch its core holds;
the entry of that core is filled (R313). -/
def pushFifo (c : KCtx) (f : SysW) (X : Ctx) (xs : List (Word × Bool)) : Except Stop State := do
  let q := f.var.toNat % 4
  let home := (ctxTeam c.s c.X).filter Team.heldState
  let X1 := match ctxTeam c.s c.X with
    | some T => bindFill c.s c.x X (T.core % 8)
    | none => X
  let none_ : State := c.retire (X1.putK f.d 0)
  match home with
  | none => .ok none_
  | some T =>
    let fifo := T.fifos.getD q Fifo.fresh
    if fifo.st == .streaming || fifo.st == .closed then .ok none_
    else do
      waitIf (256 < fifo.elems.length + xs.length) .fifo (c.put X1)
      let f1 : Fifo := { fifo with st := if f.var.getLsbD 3 then .closed else .pushing, elems := fifo.elems ++ xs }
      let s1 := modTeam (c.retire (X1.putK f.d xs.length)) T.key fun T => { T with fifos := setAt T.fifos q f1 }
      .ok (wakeTeam s1 T.key)

/-- QPUSH (R329, R337): a source over pages that are not there writes a record for each. -/
def execQpush (f : SysW) (s : State) : Host.Outcome State Fault Refusal :=
  issue 0xDA f.g s (fun _ => offProfile 0xDA) fun c => do
    c.open [f.a, f.b] [f.d]
    let a := c.k f.a
    let n := c.k f.b
    trapIf (a % 4 != 0) .misalign (BitVec.ofNat 64 a)
    trapIf (n == 0 || 256 < n) .misalign (BitVec.ofNat 64 n)
    if f.var.getLsbD 2 then do
      let (X, _, T, off) ← useRef c.s c.x c.X a a (4 * n) 4
      c.checkPoison [f.a, f.b]
      c.waitRelease (c.put X)
      waitIf (outsideWaits T off (4 * n)) .claim (c.put X)
      pushFifo c f X (scratchElems c.s T off n)
    else do
      let E := ctxEng c.s c.x c.X
      globalSides c [⟨false, a, 4 * n, .read⟩]
      c.checkPoison [f.a, f.b]
      let pages := badPages c.s E .read a (4 * n)
      let (s1, r) := engRead c.s E a (4 * n)
      match r with
      | .trap cause va => .error (.trap cause (BitVec.ofNat 64 va))
      | .park _ _ _ => .ok (parkCtx c.s c.x .read pages)
      | .world pa => .ok (raiseHalt c.s c.X.part 3 E.unit pa)
      | .far => .ok s1
      | .ok bs => do
        c.waitRelease c.s
        pushFifo { c with s := dropFar s1 E.who } f c.X (elemsOf bs)

/-! Deferred work and waiting (R331–R333, R305). -/

/-- TLINC (R331). -/
def execTlinc (f : SysW) (s : State) : Host.Outcome State Fault Refusal :=
  issue 0xDB f.g s (fun _ => offProfile 0xDB) fun c => do
    let imm := immFlag f.var
    let srcs := if imm then [] else [f.a]
    c.open srcs []
    let v := if imm then (SysW.imm f).toNat else c.k f.a
    trapIf (v == 0) .illegalEnc
    c.checkPoison srcs
    .ok (c.retire { c.X with deferred := c.X.deferred ++ [.tlinc (BitVec.ofNat 64 v) c.X.issued (undoneReads c.s (.context c.x)) c.X.outNow], outNow := false })

/-- SWAIT (R333). -/
def execSwait (f : SysW) (s : State) : Host.Outcome State Fault Refusal :=
  issue 0xDC f.g s (fun _ => offProfile 0xDC) fun c => do
    let imm := immFlag f.var
    let srcs := if imm then [] else [f.a]
    c.open srcs []
    c.checkPoison srcs
    waitIf ((if imm then (SysW.imm f).toNat else c.k f.a) < c.X.kout) .unit c.s
    .ok (c.retire c.X)

/-- STOPC (R305). A copy under .ns that failed while the word waited or ran faults the context as it finishes (R319). -/
def execStopc (f : SysW) (s : State) : Host.Outcome State Fault Refusal :=
  issue 0xDD f.g s (fun _ => offProfile 0xDD) fun c => do
    c.open [] []
    .ok (c.put (if c.X.copyFail then c.X.failCopy else { c.X with st := .stopping, wait := none }))

/-- A context whose deferred work may go on: the copies before it are over, the reads before it performed, every write
acknowledged (R331, R360). -/
def deferredFree (s : State) (x : Nat) (X : Ctx) (after : Nat) (reads : List Rid) : Bool :=
  X.copies.all (fun c => after < c.num) && !readsLeft s reads && X.storeQ.isEmpty && X.owc == 0 && !unitStopped s X.part (ctxUnit x)

/-- TLINC_APPLY (R331). -/
def execTlincApply (ctx : Nat) (s : State) : Host.Outcome State Fault Refusal :=
  finishEvent s do
    let X ← need (smGet? s.ctxs ctx)
    match X.deferred with
    | .tlinc amount after reads out :: rest => do
      needs (deferredFree s ctx X after reads)
      let next (X : Ctx) : Ctx := { X with
        ktl := X.ktl + amount
        outAt := if out then noteLeast X.outAt (X.ktl + amount).toNat else X.outAt
        deferred := rest }
      .ok (wakeCluster (modCtx s ctx next) X.launch (ctx / 16))
    | _ => .error .off

/-- CBARV_APPLY (R332). An arrival at an allocation that is gone changes nothing, and its phase is left open. -/
def execCbarvApply (ctx : Nat) (s : State) : Host.Outcome State Fault Refusal :=
  finishEvent s do
    let X ← need (smGet? s.ctxs ctx)
    match X.deferred with
    | .cbarv d serial gen off amount after reads :: rest => do
      needs (deferredFree s ctx X after reads)
      let finish (s : State) (v : Nat) (m : Bool) : State := modCtx s ctx fun X =>
        let X1 := { X with deferred := rest, kbusy := X.kbusy.filter fun b => !(b.1 == d && b.2 == 2 ^ 64) }.putK (BitVec.ofNat 8 d) v
        if m then { X1 with kpoison := nsAdd X1.kpoison d } else X1
      match boundTeam s X.part serial gen with
      | none => .ok (finish { s with fresh := s.fresh + 1 } ((Config.freeReading s.fresh).toNat % 2 ^ 32) false)
      | some (t, T) => do
        needs (!outsideWaits T off 16)
        let (bs, m) := outsideRead s T off 16
        let (new, phase) := arriveBytes bs amount
        .ok (wakeCluster (finish (outsideWrite s t off new false) phase m) X.launch (ctx / 16))
    | _ => .error .off

/-- CONTEXT_FAULTED (R336). -/
def execContextFaulted (ctx : Nat) (s : State) : Host.Outcome State Fault Refusal :=
  finishEvent s do
    let X ← need (smGet? s.ctxs ctx)
    needs (X.st == .faulting && X.kout == 0 && X.deferred.isEmpty && !unitStopped s X.part (ctxUnit ctx))
    .ok ((s.teams.filter fun p => clusterOf p.2.core == ctx / 16).foldl (fun s p => wakeTeam s p.1)
      (modCtx s ctx fun X => { X with st := .faulted }))

/-- STOPC_COMPLETE (R305). -/
def execStopcComplete (ctx : Nat) (s : State) : Host.Outcome State Fault Refusal :=
  finishEvent s do
    let X ← need (smGet? s.ctxs ctx)
    needs (X.st == .stopping && X.kout == 0 && X.deferred.isEmpty && !unitStopped s X.part (ctxUnit ctx))
    .ok ((s.teams.filter fun p => clusterOf p.2.core == ctx / 16).foldl (fun s p => wakeTeam s p.1)
      (modCtx s ctx fun X => { X with st := .stopped }))

end Sys2Proof.Machine
end

