-- ==== Sys2Proof/Machine/Datapath.lean ====
section
/-! DEFINITION. The Contrail datapath (R321, R322, R330, R412–R414): bursts of the copies that contexts and waves issued, the
completion of copies, and the elements of indirect streams. -/

namespace Sys2Proof.Machine

/-! Granules. -/

/-- What comes of a piece of a copy at one of its sides: the bytes with their mark, a code that ends it, a park, a region of
the other world, or that a save or fill is under way. -/
inductive LocRes where
  | bytes (bs : List Byte) (psn : Bool)
  | code (n : Nat)
  | park (acc : Acc) (code idx va : Nat)
  | world (pa : Nat)
  | wait
  deriving DecidableEq

/-- A place o bytes further. -/
def Loc.plus (l : Loc) (o : Nat) : Loc :=
  match l with
  | .global va => .global ((va + o) % 2 ^ 64)
  | .scratch t g off => .scratch t g (off + o)

/-- The team of a scratchpad side that is still current (R313, R215). -/
def currentTeam (s : State) (t gen : Nat) : Option Team :=
  match team? s t with
  | some T => if T.heldState && T.allocGen == gen then some T else none
  | none => none

/-- An engine's answer as a side's. -/
def EngRes.loc (r : EngRes) (a : Acc) : LocRes :=
  match r with
  | .ok bs => .bytes (engBytes bs) (engMarked bs)
  | .trap _ _ => .code 2
  | .park code idx va => .park a code idx va
  | .world pa => .world pa
  | .far => .wait

/-- Reads n bytes of a side. -/
def readLoc (s : State) (E : Eng) (l : Loc) (n : Nat) : State × LocRes :=
  match l with
  | .global va =>
    let (s1, r) := engRead s E va n
    (s1, r.loc .read)
  | .scratch t gen off =>
    match currentTeam s t gen with
    | none => (s, .code 3)
    | some T =>
      if outsideWaits T off n then (s, .wait)
      else
        let (bs, m) := outsideRead s T off n
        (s, .bytes bs m)

/-- Writes bytes at a side; a mark poisons what is written. -/
def writeLoc (s : State) (E : Eng) (l : Loc) (bs : List Byte) (psn : Bool) : State × LocRes :=
  match l with
  | .global va =>
    let (s1, r) := engWrite s E va bs psn
    (s1, r.loc .write)
  | .scratch t gen off =>
    match currentTeam s t gen with
    | none => (s, .code 3)
    | some T => if outsideWaits T off bs.length then (s, .wait) else (outsideWrite s t off bs psn, .bytes [] false)

/-- Whether a place may be written now: asked before a read that its write follows. -/
def writable (s : State) (E : Eng) (l : Loc) (n : Nat) : LocRes :=
  match l with
  | .global va => ((firstBad s E .write va n).map fun r => r.loc .write).getD (.bytes [] false)
  | .scratch t gen off =>
    match currentTeam s t gen with
    | none => .code 3
    | some T => if outsideWaits T off n then .wait else .bytes [] false

/-- One piece moved: read just before it is written (R322). -/
def movePiece (s : State) (E : Eng) (dst src : Loc) (n : Nat) (mark : Bool) : State × LocRes :=
  match writable s E dst n with
  | .bytes _ _ =>
    let (s1, r) := readLoc s E src n
    match r with
    | .bytes bs psn =>
      let (s2, q) := writeLoc s1 E dst bs (psn || mark)
      match q with
      | .bytes _ _ => (s2, .bytes [] (psn || mark))
      | q => (s2, q)
    | r => (s1, r)
  | r => (s, r)

/-! Copies of a context. -/

/-- How a copy stands after a piece. -/
inductive Went where
  | on (c : SCopy)
  | held (c : SCopy)

/-- A copy past n more units, with a code counted. -/
def SCopy.past (c : SCopy) (n code : Nat) : SCopy := { c with pos := c.pos + n, code := max c.code code }

/-- A copy over. -/
def SCopy.over_ (c : SCopy) (code : Nat) : SCopy := { c with fin := true, code := max c.code code }

/-- Bytes, codes or rows' bytes in all. -/
def SCopy.total (c : SCopy) : Nat :=
  match c.kind with
  | .linear _ _ n => n
  | .gather _ _ _ n r => n * r
  | .scatter _ _ _ n r => n * r
  | .mcast _ _ n => n
  | .cbload _ _ => 16384
  | .decode _ _ n _ _ => n

/-- What a side's answer does to a copy: `n` units done, over, parked, or held. -/
def settle (s : State) (x : Nat) (X : Ctx) (E : Eng) (c : SCopy) (n : Nat) (r : LocRes) : State × Went :=
  match r with
  | .bytes _ psn => (s, .on (c.past n (if psn then 4 else 1)))
  | .code k => (s, .on (c.over_ k))
  | .wait => (s, .held c)
  | .world pa => (raiseHalt s X.part 3 E.unit pa, .held c)
  | .park a code idx va =>
    let (s1, p) := parkEngine s E X.team (64 + x % 16) a (onePage code idx va)
    (s1, .held { c with park := some p })

/-- Whether a row lies where its copy may go, asked when its index is read (R321, R324). -/
def rowCheck (s : State) (E : Eng) (a : Acc) (l : Loc) (n : Nat) : LocRes :=
  match l with
  | .global va => ((firstBad s E a va n).map fun r => r.loc a).getD (.bytes [] false)
  | .scratch t gen off =>
    match currentTeam s t gen with
    | none => .code 3
    | some T => if T.scratchSize < off + n then .code 2 else .bytes [] false

/-- One granule of an indexed copy (R324): `seq` is the contiguous side, `base` the indexed one. -/
def indexedPiece (s : State) (x : Nat) (X : Ctx) (E : Eng) (c : SCopy) (ga : Bool) (seq base list : Loc) (r : Nat) : State × Went :=
  let i := c.pos / r
  let o := c.pos % r
  match c.row with
  | none =>
    let (s1, q) := readLoc s E (list.plus (4 * i)) 4
    match q with
    | .bytes bs psn =>
      match rowCheck s1 E (if ga then .read else .write) (base.plus (ofBytes bs * r)) r with
      | .code 2 => (s1, .on (c.past r 2))
      | .bytes _ _ => (s1, .on { c with row := some (ofBytes bs, psn) })
      | q => settle s1 x X E c 0 q
    | q => settle s1 x X E c 0 q
  | some (idx, mark) =>
    let a := base.plus (idx * r + o)
    let b := seq.plus c.pos
    let done (c : SCopy) : SCopy := if c.pos % r == 0 then { c with row := none } else c
    let (s1, q) := movePiece s E (if ga then b else a) (if ga then a else b) 16 mark
    match q with
    | .bytes _ psn => (s1, .on (done (c.past 16 (if psn then 4 else 1))))
    | .code 2 =>
      let indexedBad := match rowCheck s1 E (if ga then .read else .write) a 16 with
        | .code 2 => true
        | _ => false
      if indexedBad then (s1, .on { c.past (r - o) 2 with row := none }) else (s1, .on (c.over_ 2))
    | q => settle s1 x X E c 0 q

/-- One granule of a multicast to every destination that still takes bytes (R325, R321). -/
def mcastPiece (s : State) (x : Nat) (X : Ctx) (E : Eng) (c : SCopy) (ds : List (Loc × Nat)) (src n : Nat) : State × Went :=
  if ds.any fun d => d.2 == 1 && writable s E (d.1.plus c.pos) 16 == .wait then (s, .held c)
  else
    let (s1, q) := readLoc s E (.global ((src + c.pos) % 2 ^ 64)) 16
    match q with
    | .bytes bs psn =>
      let (s2, ds2) := ds.foldl (fun a d =>
        if d.2 != 1 then (a.1, a.2 ++ [d])
        else
          let (s', r) := writeLoc a.1 E (d.1.plus c.pos) bs psn
          (s', a.2 ++ [(d.1, match r with
            | .code k => k
            | _ => 1)])) (s1, [])
      let c1 := { c.past 16 (if psn then 4 else 1) with kind := .mcast ds2 src n }
      (s2, .on (if ds2.all fun d => d.2 != 1 then { c1 with fin := true } else c1))
    | q => settle s1 x X E c 0 q

/-- One piece of a context's copy. -/
def copyPiece (s : State) (x : Nat) (X : Ctx) (E : Eng) (c : SCopy) : State × Went :=
  match c.kind with
  | .linear dst src _ =>
    let (s1, q) := movePiece s E (dst.plus c.pos) (src.plus c.pos) 16 false
    settle s1 x X E c 16 q
  | .gather dst src list _ r => indexedPiece s x X E c true dst src list r
  | .scatter dst src list _ r => indexedPiece s x X E c false src dst list r
  | .mcast ds src n => mcastPiece s x X E c ds src n
  | .cbload slot src =>
    let (s1, q) := readLoc s E (.global ((src + c.pos) % 2 ^ 64)) 16
    match q with
    | .bytes bs psn =>
      (modCluster s1 (x / 16) fun C => { C with codebooks := modAt C.codebooks slot fun b =>
        { b with
          bytes := ((List.range 16).zip bs).foldl (fun m p => smPut 0 m (c.pos + p.1) p.2) b.bytes
          psn := nsPut b.psn (c.pos / 16) psn } }, .on (c.past 16 (if psn then 4 else 1)))
    | q => settle s1 x X E c 0 q
  | .decode dst src _ table marks =>
    match writable s E (dst.plus (16 * c.pos)) 16 with
    | .bytes _ _ =>
      let (s1, q) := readLoc s E (src.plus c.pos) 1
      match q with
      | .bytes bs psn =>
        let code := ofBytes bs
        let bad := psn || nsHas marks code
        let (s2, w) := writeLoc s1 E (dst.plus (16 * c.pos)) ((List.range 16).map fun i => smGetD table (16 * code + i) 0) bad
        (match w with
          | .bytes _ _ => settle s2 x X E c 1 (.bytes [] bad)
          | w => settle s2 x X E c 1 w)
      | q => settle s1 x X E c 1 q
    | q => settle s x X E c 1 q

/-- A burst: pieces until `left` granules have moved (R413); reading an index moves none. -/
def copyPieces (x : Nat) (X : Ctx) (E : Eng) : Nat → Nat → State → SCopy → State × SCopy
  | 0, _, s, c => (s, c)
  | _, 0, s, c => (s, c)
  | n + 1, left + 1, s, c =>
    if c.fin then (s, c)
    else if c.total ≤ c.pos then (s, { c with fin := true })
    else
      match copyPiece s x X E c with
      | (s1, .on c1) => copyPieces x X E n (if c1.pos == c.pos then left + 1 else left) s1 c1
      | (s1, .held c1) => (s1, c1)

/-- Granules of a burst of 256 bytes. -/
def burstGranules : Nat := 16

/-- Whether an index of a scatter cannot be read now: its row may then go anywhere. -/
def CopyKind.blind (s : State) (E : Eng) (k : CopyKind) : Bool :=
  match k with
  | .scatter _ _ l n _ => (List.range n).any fun i => match (readLoc s E (l.plus (4 * i)) 4).2 with
      | .bytes _ _ => false
      | _ => true
  | _ => false

/-- Where a copy writes, and how much: the rows of a scatter where its indices now send them. -/
def CopyKind.dest (s : State) (E : Eng) (k : CopyKind) : List (Loc × Nat) :=
  match k with
  | .linear d _ n => [(d, n)]
  | .gather d _ _ n r => [(d, n * r)]
  | .scatter d _ l n r => (List.range n).filterMap fun i => match (readLoc s E (l.plus (4 * i)) 4).2 with
      | .bytes bs _ => some (d.plus (ofBytes bs * r), r)
      | _ => none
  | .mcast ds _ n => ds.map fun d => (d.1, n)
  | .cbload _ _ => []
  | .decode d _ n _ _ => [(d, 16 * n)]

/-- A written range as spans of memory: a team's scratchpad, the virtual addresses, and where they lie (R343). -/
def spansOf (s : State) (E : Eng) (d : Loc × Nat) : List (Nat × Nat × Nat) :=
  match d.1 with
  | .scratch t _ off => [(t + 2, off, d.2)]
  | .global va => (0, va, d.2) :: (cutRange va d.2).filterMap fun p =>
      match matchExtent s E.tile E.asid E.ext (declared E.decls E.idx (p.1 % 2 ^ 64)) (p.1 % 2 ^ 64) .write with
      | .ok pa _ _ _ => some (1, loc s pa, p.2)
      | _ => none

/-- Whether two copies may write the same byte (R322, R412). -/
def destsMeet (s : State) (E : Eng) (a b : CopyKind) : Bool :=
  match a, b with
  | .cbload i _, .cbload j _ => i == j
  | .cbload _ _, _ | _, .cbload _ _ => false
  | _, _ =>
    a.blind s E || b.blind s E ||
    let m := (b.dest s E).flatMap (spansOf s E)
    ((a.dest s E).flatMap (spansOf s E)).any fun x => m.any fun y => x.1 == y.1 && x.2.1 < y.2.1 + y.2.2 && y.2.1 < x.2.1 + x.2.2

/-- Whether a copy waits in staging: an earlier copy of its context that is not over writes bytes it writes (R322, R412). -/
def staged (s : State) (x : Nat) (X : Ctx) (c : SCopy) : Bool :=
  X.copies.any fun d => !d.fin && d.num < c.num && destsMeet s (ctxEng s x X) d.kind c.kind

/-- The active copies of a Contrail engine by their places in the order of issue: the sixteen oldest that are not over and do not wait
in staging (R412). -/
def activeCopies (s : State) (engine : Nat) : NSet :=
  (((List.range 4).flatMap fun i => (smGet? s.ctxs (engine * 4 + i)).elim [] fun X => X.copies.filterMap fun c =>
    if c.fin || staged s (engine * 4 + i) X c then none else some c.seq).foldl nsAdd []).take 16

/-- The copy of a context that the next burst may go to: the oldest active one that is not parked (R412, R413). -/
def nextCopy (s : State) (x : Nat) (X : Ctx) : Option SCopy :=
  X.copies.find? fun c => !c.fin && c.park.isNone && nsHas (activeCopies s (x / 4)) c.seq

/-! Copies of a wave (R213–R216). -/

/-- Whether a wave's copy has nothing left to move. -/
def WCopy.over_ (c : WCopy) : Bool := c.len ≤ c.pos || (c.toScratch && c.dests.all fun d => d.2.2 != 1)

/-- The largest code of a wave's copy and its destinations (R215). -/
def WCopy.result (c : WCopy) : Nat := (if c.toScratch then c.dests.map (·.2.2) else []).foldl max (max 1 c.code)

/-- One granule of a wave's copy. -/
def wavePiece (s : State) (t : Nat) (T : Team) (E : Eng) (c : WCopy) : State × WCopy × Bool :=
  let src : Loc := if c.fromScratch then .scratch t T.allocGen (c.src + c.pos) else .global ((c.src + c.pos) % 2 ^ 64)
  let dsts : List (Loc × Nat) :=
    if c.toScratch then c.dests.map fun d => (.scratch d.1 d.2.1 (c.dst + c.pos), d.2.2)
    else [(.global ((c.dst + c.pos) % 2 ^ 64), 1)]
  let held (s : State) (r : LocRes) : State × WCopy × Bool :=
    match r with
    | .code k => (s, { c with pos := c.len, code := max c.code k }, true)
    | .world pa => (raiseHalt s T.part 3 E.unit pa, c, false)
    | .park a code idx va =>
      let (s1, p) := parkEngine s E T.serial c.wave a (onePage code idx va)
      (s1, { c with park := some p }, false)
    | _ => (s, c, false)
  let early := dsts.findSome? fun d => if d.2 != 1 then none else match writable s E d.1 16 with
    | .bytes _ _ => none
    | .code k => if c.toScratch then none else some (.code k)
    | r => some r
  match early with
  | some r => held s r
  | none =>
    let (s1, q) := readLoc s E src 16
    match q with
    | .bytes bs psn =>
      let (s2, codes) := dsts.foldl (fun a d =>
        if d.2 != 1 then (a.1, a.2 ++ [d.2])
        else
          let (s', r) := writeLoc a.1 E d.1 bs psn
          (s', a.2 ++ [match r with
            | .code k => k
            | _ => 1])) (s1, [])
      (s2, { c with
        pos := c.pos + 16
        code := max c.code (if psn then 4 else 1)
        dests := if c.toScratch then (c.dests.zip codes).map fun p => (p.1.1, p.1.2.1, p.2) else c.dests }, true)
    | q => held s1 q

def wavePieces (t : Nat) (T : Team) (E : Eng) : Nat → State → WCopy → State × WCopy
  | 0, s, c => (s, c)
  | n + 1, s, c =>
    if c.over_ then (s, c)
    else
      match wavePiece s t T E c with
      | (s1, c1, true) => wavePieces t T E n s1 c1
      | (s1, c1, false) => (s1, c1)

/-! The events. -/

/-- What a burst may serve. -/
inductive Client where
  | ctx (x : Nat) (c : SCopy)
  | wave (t : Nat) (c : WCopy)

/-- The copy of an engine's contexts that their next burst goes to: the contexts take turns in ascending number after the one served last
(R413). -/
def contextTurn (s : State) (engine : Nat) : Option (Nat × SCopy) :=
  let last := ((smGet? s.clusters (engine / 4)).bind fun C => C.served[engine % 4]?).getD 3
  (List.range 4).findSome? fun i =>
    let x := engine * 4 + (last + 1 + i) % 4
    (smGet? s.ctxs x).bind fun X => if unitStopped s X.part (ctxUnit x) then none else (nextCopy s x X).map fun c => (x, c)

/-! The two sides of the datapath (R413). -/

/-- Whether the fetch queue holds work of a core: row blocks of an operation under way that reads tile handles, with its tiles present, or
elements of an indirect stream that has room. -/
def fetchWork (s : State) (core : Nat) : Bool :=
  let blocks := (core? s core).any fun C => !C.swapping && !C.stopped && (C.active.bind (team? s)).any fun T =>
    !unitStopped s T.part (mxUnit core) && T.mxq.head?.any fun op => op.started && !op.done && !op.cut && op.park.isNone && (match op.kind, T.plane with
      | .loop tile x _ _ _ _ _ _ _ _ _, some p => (x.handle || p.op.handle) && x.fmt != 9#4 && p.op.fmt != 9#4 &&
          op.targets.all fun q => (team? s q.2).any fun U => U.unitSt true tile == .present
      | _, _ => false)
  blocks || s.teams.any fun p => p.2.core == core && p.2.st != .ended && !unitStopped s p.2.part (ctxUnit (core / 2 * 4)) &&
    p.2.fifos.any fun f => f.st == .streaming && f.elems.length < 256 && f.stream.any fun st => st.park.isNone

/-- The bursts an engine's copies are due. -/
def owedBursts (s : State) (engine : Nat) : Nat := ((smGet? s.clusters (engine / 4)).bind fun C => C.owed[engine % 4]?).getD 0

/-- Whether the fetch queue of a core's engine has the datapath: burst by burst in turn with the copies, the fetch queue first. -/
def fetchTurn (s : State) (core : Nat) : Bool := owedBursts s (core / 2) == 0 || (contextTurn s (core / 2)).isNone

/-- Whether the copies have it. -/
def copyTurn (s : State) (engine : Nat) : Bool :=
  owedBursts s engine != 0 || !(fetchWork s (2 * engine) || fetchWork s (2 * engine + 1))

/-- The clients of an engine with work: its contexts' copies, in their turn, and the copies of the waves of its two cores (R409, R413). -/
def burstClients (s : State) (engine : Nat) : List Client :=
  (if copyTurn s engine then (contextTurn s engine).toList else []).map (fun p => Client.ctx p.1 p.2) ++
  ((s.teams.filter fun p => p.2.core / 2 == engine).flatMap fun p =>
    if unitStopped s p.2.part (ctxUnit (engine * 4)) then []
    else (p.2.copies.filter fun c => c.park.isNone && !c.over_).map (Client.wave p.1))

/-- COPY_BURST (R413): whether the burst goes to the contexts or to a wave's copy, whose place in the datapath the spec does not give, is
the turn's choice. -/
def execCopyBurst (engine : Nat) (s : State) : Host.Outcome State Fault Refusal :=
  finishEvent s do
    let cs := burstClients s engine
    let who ← need cs[s.choice % cs.length]?
    match who with
    | .ctx x c =>
      let X ← need (smGet? s.ctxs x)
      let (s1, c1) := copyPieces x X { ctxEng s x X with who := .scopy x c.num } (2 * burstGranules) burstGranules s c
      let s2 := modCluster s1 (x / 16) fun C => { C with
        served := setAt C.served (x / 4 % 4) (x % 4)
        owed := modAt C.owed (x / 4 % 4) fun k => k - 1 }
      .ok (modCtx s2 x fun X => { X with copies := X.copies.map fun d => if d.num == c.num then c1 else d })
    | .wave t c =>
      let T ← need (team? s t)
      let (s1, c1) := wavePieces t T { teamEng s T (ctxUnit (engine * 4)) with who := .copy t c.num } burstGranules s c
      .ok (modTeam s1 t fun T => { T with copies := T.copies.map fun d => if d.num == c.num then c1 else d })

/-- Whether a load into a slot of the codebook store is in flight on a cluster (R326). -/
def loadInFlight (s : State) (cluster slot : Nat) : Bool :=
  (List.range 16).any fun i => (smGet? s.ctxs (cluster * 16 + i)).any fun X => X.copies.any fun c => match c.kind with
    | .cbload j _ => j == slot
    | _ => false

/-- COPY_COMPLETE (R319, R326): every write of the copy is acknowledged (R458). -/
def execCopyComplete (ctx num : Nat) (s : State) : Host.Outcome State Fault Refusal :=
  finishEvent s do
    let X ← need (smGet? s.ctxs ctx)
    let c ← need (X.copies.find? fun c => c.num == num)
    needs (c.fin && engOwc s (.scopy ctx num) == 0 && !unitStopped s X.part (ctxUnit ctx))
    let codes : List Nat := match c.kind with
      | .mcast ds _ _ => ds.map fun d => d.2
      | _ => []
    let s1 := modCtx (dropFar s (.scopy ctx num)) ctx fun X => X.endCopy c (codes.foldl max (max 1 c.code))
    .ok (match c.kind with
      | .cbload slot _ => modCluster s1 (ctx / 16) fun C => { C with
          codebooks := modAt C.codebooks slot fun b => { b with loading := loadInFlight s1 (ctx / 16) slot } }
      | _ => s1)

/-- WAVE_COPY_COMPLETE (R212, R215, R216): every write of the copy is acknowledged (R458), and the status is
written, which acquires the copy's results. -/
def execWaveCopyComplete (team num : Nat) (s : State) : Host.Outcome State Fault Refusal :=
  finishEvent s do
    let T ← need (team? s team)
    let c ← need (T.copies.find? fun c => c.num == num)
    needs (c.over_ && c.park.isNone && engOwc s (.copy team num) == 0 && !unitStopped s T.part (ctxUnit (T.core / 2 * 4)))
    .ok (endWaveCopy (dropFar s (.copy team num)) team num c.result)

/-- The stream's fifo after an element or its failure. -/
def Fifo.fed (f : Fifo) (st : Stream) (x : Word × Bool) : Fifo :=
  let n := st.next + 1
  { f with
    elems := f.elems ++ [x]
    stream := some { st with next := n }
    st := if n == st.count then .closed else .streaming }

/-- A 4-byte read of a stream. -/
def streamRead (s : State) (E : Eng) (va : Nat) : State × EngRes :=
  if va % 4 != 0 then (s, .trap .misalign va) else engRead s E va 4

/-- The next element of a stream, or why it is not read (R219, R330). -/
def streamElem (s : State) (E : Eng) (st : Stream) : State × (EngRes ⊕ (Word × Bool)) :=
  let (s1, r) := streamRead s E ((st.index + 4 * st.next) % 2 ^ 64)
  match r with
  | .ok ib =>
    let (s2, q) := streamRead s1 E ((st.base + ofBytes (engBytes ib) * st.stride + st.offset) % 2 ^ 64)
    (match q with
      | .ok eb => (s2, .inr (BitVec.ofNat 32 (ofBytes (engBytes eb)), engMarked ib || engMarked eb))
      | q => (s2, .inl q))
  | r => (s1, .inl r)

/-- STREAM_FETCH (R330). -/
def execStreamFetch (team q : Nat) (s : State) : Host.Outcome State Fault Refusal :=
  finishEvent s do
    let T ← need (team? s team)
    let f ← need T.fifos[q]?
    let st ← need f.stream
    let unit := ctxUnit (T.core / 2 * 4)
    needs (f.st == .streaming && st.park.isNone && f.elems.length < 256 && T.st != .ended && !unitStopped s T.part unit && fetchTurn s T.core)
    let E : Eng := { teamEng s T unit with who := .stream team q }
    let put (s : State) (f : Fifo) : State := modTeam s team fun T => { T with fifos := setAt T.fifos q f }
    match streamElem s E st with
    | (s1, .inr x) => .ok (wakeTeam (put (dropFar (fetchBursts (fetchBursts s1 T.core 4) T.core 4) E.who) (f.fed st x)) team)
    | (s1, .inl (.trap c va)) =>
      .ok (wakeTeam (put s1 { f with st := .closed, stream := some { st with failure := some (c, va) } }) team)
    | (s1, .inl (.park code idx va)) =>
      let (s2, p) := parkEngine s1 E T.serial (132 + q) .read (onePage code idx va)
      .ok (put s2 { f with stream := some { st with park := some p } })
    | (s1, .inl (.world pa)) => .ok (raiseHalt s1 T.part 3 unit pa)
    | (s1, .inl (.ok _)) | (s1, .inl .far) => .ok s1

end Sys2Proof.Machine
end

