-- ==== Sys2Proof/Machine/MatrixCell.lean ====
section
/-! DEFINITION. Accumulator cells and the arithmetic of one of them: values and modes (R79), the granule and the overflow
of A48 and I48 (R80), the K-step (R83), the conversions of MXRD and MXWR (R245, R246) and of a drain (R256). -/

namespace Sys2Proof.Machine

/-- An integer as an exact value, and times a power of two. -/
def xint (i : Int) : XV := .frac (i < 0) i.natAbs 1

def xshift (v : XV) (e : Int) : XV :=
  match v with
  | .num s n d st => if 0 ≤ e then .num s (n * 2 ^ e.toNat) d st else .num s n (d * 2 ^ (-e).toNat) st
  | v => v

/-- The value of a cell (R79). -/
def cellValue (mode : CellMode) (anchor : BitVec 10) (c : BitVec 48) : XV :=
  match mode with
  | .xf48 => FT.xf48.value c.toNat
  | .i48 => xint (toSigned 48 c.toNat)
  | .a48 => xshift (xint (toSigned 48 c.toNat)) anchor.toInt

/-- The granule's exponent: the anchor, or 0 in I48 (R80). -/
def granuleExp (mode : CellMode) (anchor : BitVec 10) : Int :=
  match mode with
  | .a48 => anchor.toInt
  | _ => 0

/-- A finite value in granules, ties to even (R80). -/
def toGranule (e : Int) (v : XV) : Int :=
  match xshift v (-e) with
  | .num s n d _ =>
    let m := (roundInt RM.ne s n d).1
    if s then -(m : Int) else m
  | _ => 0

def cellMin : Int := -(2 ^ 47 : Int)
def cellMax : Int := (2 ^ 47 : Int) - 1

/-- An integer cell after a saturation, and whether it saturated (R80). -/
def satCell (n : Int) : BitVec 48 × Bool := (BitVec.ofInt 48 (satI n cellMin cellMax), n < cellMin || cellMax < n)

/-- RoundXF48 (R80). -/
def roundXf (v : XV) : Nat := (FT.xf48.round RM.ne false v).1

/-- The exact sum of values whose denominators are powers of two: the sum rule of R83, over one common denominator. -/
def dyadicSum (xs : List XV) : XV :=
  if xs.any XV.isNan || (xs.contains (.inf true) && xs.contains (.inf false)) then .nan
  else if xs.contains (.inf true) then .inf true
  else if xs.contains (.inf false) then .inf false
  else
    let den (v : XV) : Nat := match v with
      | .num _ _ d _ => d
      | _ => 1
    let top := xs.foldl (fun a v => max a (den v)) 1
    let sum : Int := xs.foldl (fun a v => match v with
      | .num s n d _ => let m : Int := (n * (top / d) : Nat); if s then a - m else a + m
      | _ => a) 0
    if sum == 0 then .zero (xs.all fun x => x.isZero && x.neg) else .frac (sum < 0) sum.natAbs top

/-- One K-step of one cell from its products: the cell, and whether the sticky overflow flag is set (R83). -/
def kStep (mode : CellMode) (anchor : BitVec 10) (c : BitVec 48) (prods : List XV) : BitVec 48 × Bool :=
  match mode with
  | .xf48 =>
    let s := FT.xf48.value (roundXf (dyadicSum prods))
    (BitVec.ofNat 48 (roundXf (dyadicSum [FT.xf48.value c.toNat, s])), false)
  | _ =>
    let e := granuleExp mode anchor
    if prods.any XV.isNan || (prods.contains (.inf true) && prods.contains (.inf false)) then (BitVec.ofInt 48 cellMin, true)
    else if prods.contains (.inf false) then (BitVec.ofInt 48 cellMax, true)
    else if prods.contains (.inf true) then (BitVec.ofInt 48 cellMin, true)
    else satCell (prods.foldl (fun a p => a + toGranule e p) (toSigned 48 c.toNat))

/-- MXRD .f32 (R245). -/
def cellToF32 (mode : CellMode) (anchor : BitVec 10) (c : BitVec 48) : Nat :=
  (FT.f32.round RM.ne false (cellValue mode anchor c)).1

/-- MXRD .raw: the pair d, d + 1 as one number (R245). -/
def cellToRaw (c : BitVec 48) : Nat := (c.signExtend 64).toNat

/-- MXWR .f32: the cell, and whether the sticky overflow flag is set (R246). -/
def f32ToCell (mode : CellMode) (anchor : BitVec 10) (x : Nat) : BitVec 48 × Bool :=
  let v := FT.f32.value x
  match mode with
  | .xf48 => (BitVec.ofNat 48 (roundXf v), false)
  | _ =>
    match v with
    | .nan => (BitVec.ofInt 48 cellMin, true)
    | .inf s => (BitVec.ofInt 48 (if s then cellMin else cellMax), true)
    | v => satCell (toGranule (granuleExp mode anchor) v)

/-- A drained element: its code, and whether DSAT is set (R85, R256). `fmt` is 8 for i32. -/
def drainCode (fmt : BitVec 4) (nsat : Bool) (scale : Word) (v : XV) : Nat × Bool :=
  let y := (xmul v (FT.f32.value scale.toNat)).1
  if fmt == 8#4 then
    let (c, k) := toInt 8 RM.ne y
    (c, k.getLsbD 0)
  else
    let f := ftOf fmt.toNat
    let (c, k) := toFloat f false nsat Env.rne y Exc.none
    (c, (y.isInf || k.getLsbD 2) && (f == .fp4 || !nsat))

end Sys2Proof.Machine
end

