-- ==== Sys2Proof/Machine/MatrixOperand.lean ====
section
/-! DEFINITION. Matrix operands: format blocks (R234), tile handles (R237, R238), where the elements, the scales, the zero
points and the sparsity metadata of a step lie (R235, R236, R252), the values of elements (R73–R78), the checks of a span at
issue (R239) and the reading of ranges by the fetcher. -/

namespace Sys2Proof.Machine

/-! Elements. -/

/-- Nibbles of one element (R236); the eight elements of a cb8 code share two. -/
def Operand.nibs (x : Operand) : Nat :=
  match x.fmt.toNat with
  | 0 => 8 | 1 | 2 => 4 | 5 | 7 => 1 | _ => 2

/-- Bytes an element's code occupies, a nibble counting as one. -/
def Operand.codeBytes (x : Operand) : Nat := max 1 (x.nibs / 2)

/-- K of a format (R82). -/
def Operand.stepK (x : Operand) : Nat :=
  match x.fmt.toNat with
  | 0 | 1 | 2 | 9 => 64
  | 5 | 7 => 256
  | _ => 128

/-- Whether a format is scaled by groups (R75, R76), and whether it has zero points. -/
def Operand.scaled (x : Operand) : Bool := x.fmt == 6#4 || x.fmt == 7#4 || x.fmt == 8#4
def Operand.zeroed (x : Operand) : Bool := x.fmt == 6#4 || x.fmt == 7#4

/-- Nibbles of k elements along the contiguous index. -/
def Operand.along (x : Operand) (k : Nat) : Nat := if x.fmt == 9#4 then k / 8 * 2 else k * x.nibs

/-- The nibble offset of element (line, k) from the base, the step's origin lying o bytes from it (R236). -/
def Operand.nib (x : Operand) (isA : Bool) (o : Int) (line k : Nat) : Int :=
  2 * o + (if isA != x.tr then 2 * line * x.pitch + x.along k else 2 * k * x.pitch + x.along line : Nat)

/-- An address of the operand's space, `o` bytes from its base. -/
def Operand.addr (x : Operand) (o : Int) : Nat := ofSigned (if x.handle then 64 else 32) ((x.base : Int) + o)

/-- The byte and half of an element at a nibble offset; none where a tile handle cuts it (R238). -/
def Operand.at (x : Operand) (nib : Int) : Option (Nat × Bool) :=
  let b := nib / 2
  if x.handle && ((x.rows : Int) ≤ b / x.pitch || (x.rowBytes : Int) ≤ b % x.pitch) then none
  else some (x.addr b, nib % 2 == 1)

/-- Where side data lie, `o` bytes from their base (R235). -/
def Operand.side (x : Operand) (o : Int) : Nat := ofSigned (if x.handle then 64 else 32) ((if x.handle then (x.base : Int) else 0) + o)

/-- The scale and the zero point of (group, line) (R235). -/
def Operand.sclAt (x : Operand) (lines gidx r : Nat) : Nat := x.side (x.scl + 2 * (gidx * lines + r) : Nat)
def Operand.zpAt (x : Operand) (lines gidx r : Nat) : Nat :=
  x.side (x.zp + (if x.fmt == 7#4 then (gidx * lines + r) / 2 else gidx * lines + r) : Nat)

/-! Bytes that have been read. -/

/-- Runs of bytes with their poison marks. -/
abbrev Segs := List (Nat × List (Byte × Bool))

/-- A byte that was read. -/
def Segs.byte (m : Segs) (a : Nat) : Byte × Bool :=
  match m.find? fun p => p.1 ≤ a && a < p.1 + p.2.length with
  | some p => p.2.getD (a - p.1) (0#8, false)
  | none => (0#8, false)

/-- A little-endian number and whether a byte of it is marked. -/
def Segs.num (m : Segs) (a n : Nat) : Nat × Bool :=
  let bs := (List.range n).map fun i => Segs.byte m (a + i)
  (ofBytes (bs.map (·.1)), bs.any (·.2))

/-- The codebook store a cb8 operand reads (R77): the bytes of one slot and its marks. -/
structure Book where
  bytes : SMap Byte
  psn : NSet

def Book.none : Book := ⟨[], []⟩

/-- The table of a cluster tagged with a team's tag (R236, R326). -/
def codebookOf (s : State) (cluster tag : Nat) : Option Codebook :=
  (smGet? s.clusters cluster).bind fun C => C.codebooks.find? fun b => b.tag == some tag

/-- Element j of vector i of codebook cb (R77). -/
def Book.element (b : Book) (x : Operand) (code j : Nat) : XV × Bool :=
  let a := x.cb * 4096 + 16 * code + 2 * j
  let v := ofBytes [smGetD b.bytes a 0, smGetD b.bytes (a + 1) 0]
  ((if x.cbf then FT.bf16 else FT.f16).value v, nsHas b.psn (a / 16))

/-- The value of an element and whether it is poisoned; cut elements read as +0. `raw` leaves the scales out (R83). `kk` is
the element's K index from the operation's first step, `j` its place in a cb8 vector. The difference 0 has no sign: it is taken as +0,
so that a negative scale gives −0 (R75; DESIGN CHOICE, log entry 89). -/
def Operand.value (x : Operand) (b : Book) (raw : Bool) (m : Segs) (nib : Int) (lines line kk j : Nat) : XV × Bool :=
  match x.at nib with
  | none => (.zero false, false)
  | some (a, up) =>
    let (n, p) := Segs.num m a x.codeBytes
    let code := if x.nibs == 1 then (if up then n / 16 else n % 16) else n
    match x.fmt.toNat with
    | 5 => (fp4Value x.x.toNat code, p)
    | 6 | 7 | 8 =>
      let g := kk / x.grp
      let (z, pz) := if x.zeroed then Segs.num m (x.zpAt lines g line) 1 else (0, false)
      let z' := if x.fmt == 7#4 then (if (g * lines + line) % 2 == 1 then z / 16 else z % 16) else z
      let d := xint (qDiff (x.fmt.toNat - 6) code z')
      if raw then (d, p || pz)
      else
        let (sc, ps) := Segs.num m (x.sclAt lines g line) 2
        ((xmul (FT.f16.value sc) d).1, p || pz || ps)
    | 9 => let (v, q) := b.element x code j; (v, p || q)
    | f => ((ftOf f).value code, p)

/-! Ranges. -/

/-- Joins ranges that follow each other. -/
def joinRanges : List (Nat × Nat) → List (Nat × Nat)
  | [] => []
  | (a, n) :: r =>
    match joinRanges r with
    | (b, k) :: q => if a ≤ b && b ≤ a + n then (a, max n (b + k - a)) :: q else (a, n) :: (b, k) :: q
    | [] => [(a, n)]

/-- The bytes of elements at nibble offsets. -/
def Operand.elemRanges (x : Operand) (ns : List Int) : List (Nat × Nat) :=
  joinRanges ((ns.filterMap x.at).map fun p => (p.1, x.codeBytes))

/-- The side data of lines over the K indices kk0 to kk0 + k − 1 (R235). -/
def Operand.sideRanges (x : Operand) (lines : Nat) (ls : List Nat) (kk0 k : Nat) : List (Nat × Nat) :=
  if !x.scaled || k == 0 then []
  else
    let gs := (List.range ((kk0 + k - 1) / x.grp - kk0 / x.grp + 1)).map (kk0 / x.grp + ·)
    joinRanges (gs.flatMap fun g => ls.map fun r => (x.sclAt lines g r, 2)) ++
      if x.zeroed then joinRanges (gs.flatMap fun g => ls.map fun r => (x.zpAt lines g r, 1)) else []

/-- A operand elements and side data of one step: `k` elements of each row. -/
def Operand.aRanges (x : Operand) (o : Int) (rows : List Nat) (kk0 k : Nat) : List (Nat × Nat) :=
  (if x.tr then (List.range k).flatMap fun i => x.elemRanges (rows.map fun m => x.nib true o m i)
    else rows.flatMap fun m => x.elemRanges ((List.range k).map fun i => x.nib true o m i)) ++
  x.sideRanges 128 rows kk0 k

/-! Planes. -/

/-- One step of the B operand: the origins of its elements and metadata, K stored and K covered, and its K index. -/
structure BStep where
  o : Int
  md : Int
  k : Nat
  kk0 : Nat

/-- The K indices a step covers (R252). -/
def Plane.covers (p : Plane) (k : Nat) : Nat := if p.pat == 0#2 then k else 2 * k

/-- Step j of an operation. -/
def Plane.bstep (p : Plane) (db dm : Int) (k j : Nat) : BStep :=
  ⟨db * j, p.metaOff + dm * j, k, j * p.covers k⟩

/-- Columns of B: 1,024 in the cluster form (R235). -/
def Plane.lines (p : Plane) : Nat := if p.cluster then 1024 else 128

/-- The columns of B that a core's plane holds (R247). -/
def Plane.column (p : Plane) (core n : Nat) : Nat := if p.cluster then 128 * core + n else n

/-- The metadata item of column n of B: its address and size, by group or chunk, at the place the table gives (R252). The table counts
128 columns a group in the cluster form too, whose n goes to 1,023 (R247; DEDUCED, log entry 30). -/
def Plane.item (p : Plane) (b : BStep) (g n : Nat) : Nat × Nat :=
  let i := g * 128 + n
  match p.pat.toNat with
  | 1 => (p.op.side (b.md + (i : Nat)), 1)
  | 2 => (p.op.side (b.md + (2 * i : Nat)), 2)
  | _ => (p.op.side (b.md + (4 * i : Nat)), 4)

/-- Groups or chunks of a step (R252). -/
def Plane.items (p : Plane) (b : BStep) : Nat :=
  match p.pat.toNat with
  | 1 => b.k / 2
  | 2 => b.k / 4
  | 3 => 2 * b.k / 128
  | _ => 0

/-- The origin of a chunk: its bitmap, from the step's B source (R252). -/
def Plane.chunk (p : Plane) (b : BStep) (m : Segs) (c n : Nat) : Int :=
  b.o + ((Segs.num m (p.item b c n).1 4).1 : Int)

/-- The present logical indices of a chunk. -/
def Plane.present (p : Plane) (b : BStep) (m : Segs) (c n : Nat) : List Nat :=
  let (x, _) := Segs.num m (p.op.addr (p.chunk b m c n)) 16
  (List.range 128).filter fun i => bit x i

/-- The stored elements of a column: logical index in the step, nibble offset, place in a cb8 vector (R252). -/
def Plane.stored (p : Plane) (b : BStep) (m : Segs) (n : Nat) : List (Nat × Int × Nat) :=
  match p.pat.toNat with
  | 0 => (List.range b.k).map fun k => (k, p.op.nib false b.o n k, k % 8)
  | 1 => (List.range b.k).map fun k =>
      (4 * (k / 2) + (Segs.num m (p.item b (k / 2) n).1 1).1 / 4 ^ (k % 2) % 4, p.op.nib false b.o n k, k % 8)
  | 2 => (List.range b.k).map fun k =>
      (8 * (k / 4) + (Segs.num m (p.item b (k / 4) n).1 2).1 / 8 ^ (k % 4) % 8, p.op.nib false b.o n k, k % 8)
  | _ => (List.range (p.items b)).flatMap fun c =>
      let is := p.present b m c n
      ((List.range is.length).zip is).map fun q =>
        (128 * c + q.2, 2 * (p.chunk b m c n + 16) + (p.op.along q.1 : Nat), q.1 % 8)

/-- Whether a metadata item of a column is marked: bitmap, chunk offset, 2:4 or 4:8 item (R254). -/
def Plane.metaPsn (p : Plane) (b : BStep) (m : Segs) (n : Nat) : Bool :=
  (List.range (p.items b)).any fun c =>
    (Segs.num m (p.item b c n).1 (p.item b c n).2).2 ||
      (p.pat == 3#2 && (Segs.num m (p.op.addr (p.chunk b m c n)) 16).2)

/-- The ranges of a plane that do not depend on what is read: metadata, side data, and the stored values but for the chunk
bitmap (R239, R247). -/
def Plane.ranges (p : Plane) (b : BStep) (cols : List Nat) : List (Nat × Nat) :=
  joinRanges ((List.range (p.items b)).flatMap fun g => cols.map fun n => p.item b g n) ++
  p.op.sideRanges p.lines cols b.kk0 (p.covers b.k) ++
  (if p.pat == 3#2 then []
    else if p.op.tr then cols.flatMap fun n => p.op.elemRanges ((List.range b.k).map fun k => p.op.nib false b.o n k)
    else (List.range b.k).flatMap fun k => p.op.elemRanges (cols.map fun n => p.op.nib false b.o n k))

/-- The bitmaps of the chunks, once their offsets are read. -/
def Plane.bitmaps (p : Plane) (b : BStep) (m : Segs) (cols : List Nat) : List (Nat × Nat) :=
  if p.pat != 3#2 then []
  else cols.flatMap fun n => (List.range (p.items b)).map fun c => (p.op.addr (p.chunk b m c n), 16)

/-- The packed values of the chunks, once their bitmaps are read. -/
def Plane.packed (p : Plane) (b : BStep) (m : Segs) (cols : List Nat) : List (Nat × Nat) :=
  if p.pat != 3#2 then []
  else cols.flatMap fun n => p.op.elemRanges ((p.stored b m n).map fun e => e.2.1)

/-- The columns the cores of a mask hold; with no mask, those of the one core. -/
def Plane.columns (p : Plane) (mask : BitVec 8) (own : Nat) : List Nat :=
  (if mask == 0 then [own] else slicesOf mask).flatMap fun k => (List.range 128).map (p.column k)

/-! Where the chunk bitmaps of a plane lead, as far as an issuing word can read them (R239). -/

/-- Whether a number has been read whole. -/
def Segs.has (m : Segs) (a n : Nat) : Bool :=
  (List.range n).all fun i => m.any fun p => p.1 ≤ a + i && a + i < p.1 + p.2.length

/-- The bytes of ranges of an operand's space that are in bounds and mapped. -/
def peekRanges (s : State) (T : Team) (handle : Bool) (rs : List (Nat × Nat)) : Segs :=
  rs.flatMap fun r =>
    if handle then
      (cutRange r.1 r.2).filterMap fun q => match teamTr s T .read (q.1 % 2 ^ 64) with
        | .ok pa _ _ _ => some (q.1, (physGet s pa q.2).map fun b => (b, false))
        | _ => none
    else if T.scratchSize < r.1 + r.2 then []
    else [(r.1, (outsideRead s T r.1 r.2).1.map fun b => (b, false))]

/-- The chunk bitmaps of a step, and the values they mark as present. -/
def Plane.chunkSpan (p : Plane) (s : State) (T : Team) (b : BStep) (cols : List Nat) : List (Nat × Nat) :=
  if p.pat != 3#2 then []
  else
    let at_ := cols.flatMap fun n => (List.range (p.items b)).map fun c => (c, n)
    let m1 := peekRanges s T p.op.handle (at_.map fun q => p.item b q.1 q.2)
    let known := at_.filter fun q => Segs.has m1 (p.item b q.1 q.2).1 4
    let bitmaps := known.map fun q => (p.op.addr (p.chunk b m1 q.1 q.2), 16)
    let m2 := m1 ++ peekRanges s T p.op.handle bitmaps
    bitmaps ++ ((known.filter fun q => Segs.has m2 (p.op.addr (p.chunk b m1 q.1 q.2)) 16).flatMap fun q =>
      p.op.elemRanges ((List.range (p.present b m2 q.1 q.2).length).map fun i =>
        2 * (p.chunk b m2 q.1 q.2 + 16) + (p.op.along i : Nat)))

/-! Reading. -/

/-- Why the fetcher does not go on: a failure of an access, with the pages that are not there, or units a claim must bring (R437). -/
inductive MxStop where
  | fail (r : EngRes) (a : Acc) (pages : List ParkLane)
  | units (s : State)

/-- The matrix engine's accesses: its stop record is slot 200 + core in die (R448). -/
def matrixEng (s : State) (T : Team) : Eng := teamEng s T (T.core / 200 * 1024 + 200 + T.core % 200)

/-- Reads ranges of an operand's space for a team. -/
def fetchRanges (s : State) (t : Nat) (handle : Bool) (rs : List (Nat × Nat)) : Except MxStop (State × Segs) :=
  match team? s t with
  | none => .ok (s, [])
  | some T =>
    if handle then
      rs.foldlM (fun a r =>
        match engRead a.1 (matrixEng a.1 T) r.1 r.2 with
        | (s1, .ok bs) => .ok (fetchBursts s1 T.core r.2, a.2 ++ [(r.1, bs)])
        | (s1, .far) => .error (.units s1)
        | (s1, e) => .error (.fail e .read (rs.flatMap fun q => badPages s1 (matrixEng s1 T) .read q.1 q.2))) (s, [])
    else
      match rs.find? fun r => T.scratchSize < r.1 + r.2 with
      | some r => .error (.fail (.trap .scratchBounds r.1) .read [])
      | none =>
        let (s1, ok) := needUnits s t false (rs.flatMap fun r => regionsOf r.1 r.2)
        if !ok then .error (.units s1)
        else
          match team? s1 t with
          | none => .ok (s1, [])
          | some U => .ok (s1, rs.map fun r => (r.1, (scratchGet U r.1 r.2).zip ((List.range r.2).map fun i => nsHas U.scratchPsn ((r.1 + i) / 16))))

/-- Reads a plane: metadata, side data and values, then what the chunk bitmap leads to. -/
def fetchPlane (s : State) (t : Nat) (p : Plane) (b : BStep) (cols : List Nat) : Except MxStop (State × Segs) := do
  let (s1, m1) ← fetchRanges s t p.op.handle (p.ranges b cols)
  let (s2, m2) ← fetchRanges s1 t p.op.handle (p.bitmaps b m1 cols)
  let (s3, m3) ← fetchRanges s2 t p.op.handle (p.packed b (m1 ++ m2) cols)
  .ok (s3, m1 ++ m2 ++ m3)

/-! Operands from registers (R230, R234, R237). -/

/-- ILLEGAL_ENC for a field of a register: the operand code and the field's lowest bit (R230). -/
def fieldTrap (b : Bool) (code : BitVec 8) (lo : Nat) : Except Stop Unit :=
  trapIf b .illegalEnc (BitVec.ofNat 64 (code.toNat + 256 * lo))

/-- The format block of a quad, or of z (R234): `isA` says where cb8 forbids TR (R236). -/
def readBlock (c : WCtx) (q : BitVec 8) (isA handle : Bool) : Except Stop Operand := do
  let w (i : Nat) : Nat := c.reg (codeAt q i) 0
  let fmt := bits (w 0) 3 0
  let grouped := fmt == 6 || fmt == 7 || fmt == 8
  fieldTrap (10 ≤ fmt) q 0
  fieldTrap (grouped && bits (w 0) 5 4 == 3) q 4
  fieldTrap (fmt == 9 && bit (w 0) 6 == isA) q 6
  fieldTrap (bits (w 0) 15 10 != 0) q 10
  fieldTrap (bits (w 1) 15 10 != 0) (codeAt q 1) 10
  fieldTrap (!handle && bits (w 1) 31 16 == 0) (codeAt q 1) 16
  fieldTrap (grouped && w 2 % 2 == 1) (codeAt q 2) 0
  .ok
    { handle := handle, base := 0, rows := 0, rowBytes := 0, pitch := 16 * bits (w 1) 31 16, ahead := 0,
      fmt := BitVec.ofNat 4 fmt, grp := 32 * 2 ^ bits (w 0) 5 4, tr := bit (w 0) 6, cb := bits (w 0) 9 8, cbf := bit (w 0) 7,
      x := BitVec.ofNat 16 (w 0 / 2 ^ 16), scl := w 2, zp := w 3 }

/-- A source or destination: a scratchpad offset, or the tile handle of an octet (R237). -/
def placeOperand (c : WCtx) (x : Operand) (r : BitVec 8) : Except Stop Operand :=
  if !x.handle then .ok { x with base := c.reg r 0 }
  else do
    let w (i : Nat) : Nat := c.reg (codeAt r i) 0
    fieldTrap (w 4 < w 3) (codeAt r 3) 0
    fieldTrap (w 4 == 0) (codeAt r 4) 0
    fieldTrap (w 5 / 4 != 0) (codeAt r 5) 2
    fieldTrap (w 6 != 0) (codeAt r 6) 0
    fieldTrap (w 7 != 0) (codeAt r 7) 0
    .ok { x with base := c.reg64 r 0, rows := w 2, rowBytes := w 3, pitch := w 4, ahead := w 5 % 4 }

/-- The register block of a source: one register, or an octet. -/
def sourceRegs (handle : Bool) (r : BitVec 8) : Regs := if handle then .block r 8 8 else .one r

/-- COPY_FAIL for a cb8 operand with no table (R236). -/
def checkBook (c : WCtx) (x : Operand) : Except Stop Unit :=
  trapIf (x.fmt == 9#4 && (codebookOf c.s (clusterOf c.T.core) c.T.tag).isNone) .copyFail (BitVec.ofNat 64 c.T.tag)

/-! Spans at issue (R239). -/

/-- The lowest of a list of numbers. -/
def lowest (l : List Nat) : Option Nat :=
  match l with
  | [] => none
  | a :: r => some (r.foldl min a)

/-- One span an operation will touch. -/
structure Span where
  x : Operand
  acc : Acc
  ranges : List (Nat × Nat)

/-- The causes of R239 for the spans of a word, in the order of R423, which puts PEER_RETIRED (`peers`) among them. -/
def checkSpans (s : State) (T : Team) (spans : List Span) (peers : Except Stop Unit) : Except Stop Unit := do
  let fail (c : Cause) (l : List Nat) : Except Stop Unit := match lowest l with
    | some a => .error (.trap c (BitVec.ofNat 64 a))
    | none => .ok ()
  let hs := spans.filter (·.x.handle)
  fail .misalign (hs.flatMap fun p => [p.x.base, p.x.pitch].filter fun v => v % 16 != 0)
  fail .scratchBounds ((spans.filter fun p => !p.x.handle).flatMap fun p => p.ranges.filterMap fun r =>
    if T.scratchSize < r.1 + r.2 then some (max r.1 T.scratchSize) else none)
  peers
  let bad (v : Tr) : List Nat := hs.flatMap fun p => (p.ranges.flatMap fun r => cutRange r.1 r.2).filterMap fun r =>
    if teamTr s T p.acc (r.1 % 2 ^ 64) == v then some (r.1 % 2 ^ 64) else none
  fail .extentMiss (bad .miss)
  fail .perm (bad .perm)

end Sys2Proof.Machine
end

