-- ==== Sys2Proof/Machine/Matrix.lean ====
section
/-! DEFINITION. The matrix instructions as they issue (R229–R257): the checks of a word, and the entry it takes in the team's
matrix queue. MXMASK and MXFENCE act at once. -/

namespace Sys2Proof.Machine

/-! Shared course. -/

/-- TILE in bits 13:12, and MASK in bits 11:4 (R231). -/
def SysW.tile (f : SysW) : Nat := (f.x.extractLsb' 10 2).toNat
def SysW.cmask (f : SysW) : BitVec 8 := f.x.extractLsb' 2 8
def SysW.cform (f : SysW) : Bool := f.var.getLsbD 2

/-- A word of this family (R229): uniform operands and z in `uni`, the registers it reads and writes, and its tile, which
the team must have. -/
def mxWord (opc : Nat) (f : SysW) (uni : List (BitVec 8)) (srcs dsts : List Regs) (tile : Bool)
    (act : WCtx → WCtx → Except Stop State) (s : State) : Host.Outcome State Fault Refusal :=
  issue opc f.g s fun c0 => do
    trapIf (!uni.all uniOrZ) .illegalEnc
    let c ← c0.open srcs dsts false
    trapIf (tile && c.T.naccs ≤ SysW.tile f) .illegalEnc
    if c.lanes == 0 then .ok (c.retire c.W f.bnd) else act c0 c

/-- A new queue entry. -/
def MxOp.fresh (id batch : Nat) (kind : MxKind) (targets : List (Nat × Nat)) : MxOp where
  id := id
  batch := batch
  kind := kind
  targets := targets
  started := false
  done := false
  step := 0
  block := 0
  park := none
  cut := false

/-- The cores of a mask other than the issuing one. -/
def otherCores (mask : BitVec 8) (own : Nat) : List Nat := (slicesOf mask).filter (· != own)

/-- The cores of an operation with the team on each: the issuer on its own, the team of R197 on another (R250). -/
def chooseTargets (s : State) (t launch core : Nat) (mask : BitVec 8) : List (Nat × Nat) :=
  (core % 8, t) :: (otherCores mask (core % 8)).filterMap fun k =>
    (heldTeam s launch (clusterOf core * 8 + k)).map fun p => (k, p.1)

/-- The last step of issue (R232, R233, R404): poison, room in the queue, the release, and the entry. `dst` is what the
operation writes when it completes (R27). -/
def mxIssue (c0 c : WCtx) (bnd : Bool) (srcs dst : List Regs) (kind : MxKind) (upd : Team → Team := fun T => T) :
    Except Stop State := do
  c.checkPoison srcs
  waitIf (Config.matrixQueue ≤ c.T.mxq.length) .room c0.s
  c.waitRelease c0.s
  let id := c.T.mxNext
  let W := { (c.W.retire c.gang bnd) with busy := c.W.busy ++ (dst.flatMap Regs.keys).map fun k => (k, .matrix id) }
  let T := upd (c.T.setWave c.w W)
  let ts := chooseTargets c.s c.t T.launch T.core kind.mask
  .ok (setTeam c.s c.t { T with mxNext := id + 1, mxq := T.mxq ++ [.fresh id (T.mxBatch + 1) kind ts] })

/-- A tile as the operations already queued leave it: mode, anchor, LENT (R241). -/
def Team.queuedTile (T : Team) (i : Nat) : CellMode × BitVec 10 × Bool :=
  T.mxq.foldl (fun a o => match o.kind with
    | .cfg j mode anchor lend => if i == j then (mode, anchor, lend) else a
    | _ => a) ((T.tiles[i]?).elim (.xf48, 0, false) fun x => (x.mode, x.anchor, x.lent))

/-- PERM on a tile the team has lent (R250). WTRAPARG is the tile's number (R423; DESIGN CHOICE, log entry 110). -/
def checkLent (c : WCtx) (tile : Nat) : Except Stop Unit := trapIf (c.T.queuedTile tile).2.2 .perm (BitVec.ofNat 64 tile)

/-- Whether a team of a launch is in a bank of a core (R250). -/
def banked (s : State) (launch core : Nat) : Bool :=
  s.teams.any fun p => p.2.launch == launch && p.2.core == core && p.2.created &&
      (match p.2.st with
        | .resident | .active | .ending => true
        | _ => false)

/-- ILLEGAL_ENC where the mask leaves the issuing core out (R250). -/
def checkMask (f : SysW) (c : WCtx) : Except Stop Unit :=
  trapIf (SysW.cform f && !(SysW.cmask f).getLsbD (c.T.core % 8)) .illegalEnc

/-- PEER_RETIRED (R250). -/
def checkPeersHere (f : SysW) (c : WCtx) : Except Stop Unit :=
  match (otherCores (SysW.cmask f) (c.T.core % 8)).find? fun k => !banked c.s c.T.launch (clusterOf c.T.core * 8 + k) with
  | some k => .error (.trap .peerRetired (BitVec.ofNat 64 k))
  | none => .ok ()

/-- PERM where the tile of a target, the team of R197, is not lent or does not match the issuer's (R250).
WTRAPARG is the target's core in the cluster (R423; DESIGN CHOICE, log entry 110). -/
def checkTargets (f : SysW) (c : WCtx) : Except Stop Unit :=
  let (mode, anchor, _) := c.T.queuedTile (SysW.tile f)
  match (otherCores (SysW.cmask f) (c.T.core % 8)).find? fun k =>
      match (heldTeam c.s c.T.launch (clusterOf c.T.core * 8 + k)).bind fun p => p.2.tiles[SysW.tile f]? with
      | some x => !x.lent || x.mode != mode || x.anchor != anchor
      | none => true with
  | some k => .error (.trap .perm (BitVec.ofNat 64 k))
  | none => .ok ()

/-! Tiles. -/

/-- MXZERO (R242, R250). -/
def execMxzero (f : SysW) (s : State) : Host.Outcome State Fault Refusal :=
  mxWord 0xA0 f [] [] [] true (fun c0 c => do
    checkMask f c
    checkPeersHere f c
    checkLent c (SysW.tile f)
    checkTargets f c
    mxIssue c0 c f.bnd [] [] (.zero (SysW.tile f) (SysW.cmask f))) s

/-- MXCFG (R241): only ANCHOR is read of the format block. -/
def execMxcfg (f : SysW) (s : State) : Host.Outcome State Fault Refusal :=
  let a48 := f.var.extractLsb' 0 2 == 2#2
  let srcs := if a48 then [Regs.quad f.a] else []
  mxWord 0xA9 f [f.a] srcs [] true (fun c0 c => do
    let w0 := c.reg f.a 0
    let w1 := c.reg (codeAt f.a 1) 0
    fieldTrap (a48 && bits w0 15 10 != 0) f.a 10
    fieldTrap (a48 && bits w1 15 10 != 0) (codeAt f.a 1) 10
    let mode : CellMode := if f.var.extractLsb' 0 2 == 0#2 then .xf48 else if a48 then .a48 else .i48
    mxIssue c0 c f.bnd srcs []
      (.cfg (SysW.tile f) mode (if a48 then BitVec.ofNat 10 w1 else 0) (f.var.getLsbD 2))) s

/-- The count an MXMASK sets, as a mask. -/
def countMask (n : Nat) : BitVec 128 := if 128 ≤ n then BitVec.allOnes 128 else BitVec.ofNat 128 (2 ^ n - 1)

/-- MXMASK (R243). -/
def execMxmask (f : SysW) (s : State) : Host.Outcome State Fault Refusal :=
  let imm := immFlag f.var
  let quad := f.var.getLsbD 1
  let srcs := if imm then [] else if quad then [Regs.quad f.a] else [Regs.one f.a]
  mxWord 0xA8 f (if imm then [] else [f.a]) srcs [] false (fun _ c => do
    c.checkPoison srcs
    let i := (f.x.extractLsb' 9 3).toNat
    let m : BitVec 128 :=
      if quad then BitVec.ofNat 128 (c.regN f.a 4 0)
      else countMask (if imm then (SysW.imm f).toNat else c.reg f.a 0)
    let T := c.T.setWave c.w (c.W.retire c.gang f.bnd)
    .ok (setTeam c.s c.t (if f.var.getLsbD 0 then { T with np := setAt T.np i m } else { T with mp := setAt T.mp i m }))) s

/-- The matrix timeline of a queue (R257). -/
def Team.matrixTimeline (T : Team) : Nat :=
  match T.mxq with
  | [] => T.mxBatch
  | o :: _ => min T.mxBatch (o.batch - 1)

/-- MXFENCE (R257). -/
def execMxfence (f : SysW) (s : State) : Host.Outcome State Fault Refusal :=
  mxWord 0xA5 f [f.d] [] [.pair f.d] false (fun _ c =>
    let b := c.T.mxBatch + 1
    let T := { c.T.setWave c.w ((c.W.putRegs f.d 2 0 b).retire c.gang f.bnd) with mxBatch := b }
    .ok (wakeTeam (setTeam c.s c.t { T with mxTl := BitVec.ofNat 64 T.matrixTimeline }) c.t)) s

/-! Reading and writing cells. -/

/-- The selector of R245: row, and the first column. -/
def readSelector (c : WCtx) (r : BitVec 8) : Except Stop (Nat × Nat) := do
  let v := c.reg r 0
  fieldTrap (bit v 7) r 7
  fieldTrap (v / 2 ^ 10 != 0) r 10
  .ok (bits v 6 0, 32 * bits v 9 8)

/-- MXRD .f32 and .raw (R245). -/
def execMxrd (f : SysW) (s : State) : Host.Outcome State Fault Refusal :=
  let raw := f.var.getLsbD 0
  let dst := if raw then Regs.pair f.d else Regs.one f.d
  if !vecOrZ f.d then issue 0xA6 f.g s fun _ => .error (.trap .illegalEnc 0)
  else mxWord 0xA6 f [f.a] [.one f.a] [dst] true (fun c0 c => do
    let (row, col) ← readSelector c f.a
    mxIssue c0 c f.bnd [.one f.a] [dst] (.rd (SysW.tile f) raw f.d.toNat row col c.lanes c.w)) s

/-- MXRD .stat (R240, R245). -/
def execMxrdStat (f : SysW) (s : State) : Host.Outcome State Fault Refusal :=
  mxWord 0xA6 f [f.d] [] [.one f.d] true (fun c0 c =>
    mxIssue c0 c f.bnd [] [.one f.d] (.stat (SysW.tile f) f.d.toNat c.w)) s

/-- MXWR (R246). -/
def execMxwr (f : SysW) (s : State) : Host.Outcome State Fault Refusal :=
  let raw := f.var.getLsbD 0
  let val := if raw then Regs.pair f.a else Regs.one f.a
  if !vecOrZ f.a then issue 0xA7 f.g s fun _ => .error (.trap .illegalEnc 0)
  else mxWord 0xA7 f [f.b] [val, .one f.b] [] true (fun c0 c => do
    let (row, col) ← readSelector c f.b
    checkLent c (SysW.tile f)
    mxIssue c0 c f.bnd [val, .one f.b] []
      (.wr (SysW.tile f) raw row col ((lanesOf c.lanes).map fun l =>
        (l, BitVec.ofNat 64 (if raw then c.reg64 f.a l else c.reg f.a l))))) s

/-! Multiplying. -/

/-- The span of a plane over some steps (R239): its metadata, side data and values, and where its chunk bitmaps lead. -/
def planeSpan (c : WCtx) (p : Plane) (mask : BitVec 8) (bs : List BStep) : Span :=
  ⟨p.op, .read, bs.flatMap fun b =>
    let cols := p.columns mask (c.T.core % 8)
    p.ranges b cols ++ p.chunkSpan c.s c.T b cols⟩

/-- The checks of MXLDW, and the plane it latches (R239, R247, R250). -/
def ldwPlan (f : SysW) (c : WCtx) : Except Stop Plane := do
  checkMask f c
  let x ← readBlock c f.b false (f.var.getLsbD 3)
  let x ← placeOperand c x f.a
  let p : Plane := ⟨x, f.var.extractLsb' 0 2, c.reg f.c 0, none, SysW.cform f⟩
  checkSpans c.s c.T [planeSpan c p (SysW.cmask f) [p.bstep 0 0 x.stepK 0]] (checkPeersHere f c)
  checkBook c x
  .ok p

/-- MXLDW (R247). -/
def execMxldw (f : SysW) (s : State) : Host.Outcome State Fault Refusal :=
  let srcs := [sourceRegs (f.var.getLsbD 3) f.a, .quad f.b, .one f.c]
  mxWord 0xA1 f [f.a, f.b, f.c] srcs [] false (fun c0 c => do
    let p ← ldwPlan f c
    mxIssue c0 c f.bnd srcs [] (.ldw p (SysW.cmask f)) fun T => { T with issuedPlane := some p }) s

/-- The shape of R248. -/
structure Shape where
  m : Nat
  mp : Nat
  np : Nat
  n : Nat

def readShape (c : WCtx) (r : BitVec 8) : Except Stop Shape := do
  let v := c.reg r 0
  fieldTrap (128 < bits v 7 0) r 0
  .ok ⟨bits v 7 0, bits v 9 8, bits v 12 10, bits v 31 13⟩

/-- An increment's limit (R248). -/
def stepUnit (x : Operand) : Int := if x.handle then 16 else (x.codeBytes : Int)

/-- The row lines an operation works on (R249). -/
def maskedRows (m : Nat) (mask : BitVec 128) : List Nat := (List.range m).filter fun i => mask.getLsbD i

/-- The checks of MXLOOP and MXSPL, and the operation they queue (R239, R248–R252). Where no MXLDW was issued, WTRAPARG is 0; where its
PAT does not fit, it is that PAT (R423; DESIGN CHOICE, log entry 110). -/
def loopPlan (f : SysW) (sparse : Bool) (c : WCtx) : Except Stop MxKind := do
  let th := f.var.getLsbD 3
  checkMask f c
  let sh ← readShape c f.a
  let x ← readBlock c f.c true th
  let x ← placeOperand c x f.d
  let da := toSigned 32 (c.reg f.b 0)
  let db := toSigned 32 (c.reg (codeAt f.b 1) 0)
  let dm := if sparse then toSigned 32 (c.reg (codeAt f.b 2) 0) else 0
  fieldTrap (da % stepUnit x != 0) f.b 0
  fieldTrap (c.T.issuedPlane.any fun p => db % stepUnit p.op != 0) (codeAt f.b 1) 0
  fieldTrap (sparse && c.reg (codeAt f.b 3) 0 != 0) (codeAt f.b 3) 0
  let rows := maskedRows sh.m (c.T.mp.getD sh.mp 0)
  let idle := sh.m == 0 || sh.n == 0
  let spans (p : Plane) : List Span :=
    let k := min x.stepK p.op.stepK
    if idle then []
    else
      [⟨x, .read, (List.range sh.n).flatMap fun (j : Nat) => x.aRanges (da * j) rows (j * p.covers k) (p.covers k)⟩,
        planeSpan c p (SysW.cmask f) ((List.range sh.n).map (p.bstep db dm k))]
  checkSpans c.s c.T (c.T.issuedPlane.elim [] spans) (checkPeersHere f c)
  match c.T.issuedPlane with
  | none => .error (.trap .perm 0)
  | some p => do
    trapIf (if sparse then p.pat == 0#2 || p.pat != f.var.extractLsb' 0 2 else p.pat != 0#2) .perm (p.pat.setWidth 64)
    checkLent c (SysW.tile f)
    checkTargets f c
    checkBook c x
    checkBook c p.op
    .ok (.loop (SysW.tile f) x sh.m sh.n da db dm (BitVec.ofNat 128 (rows.foldl (fun a r => a + 2 ^ r) 0))
      (if SysW.cform f then c.T.np else [c.T.np.getD sh.np 0]) sparse (SysW.cmask f))

/-- What MXLOOP and MXSPL share. `inc` lists the increment registers. -/
def mxLoop (f : SysW) (sparse : Bool) (inc : Regs) (c0 c : WCtx) : Except Stop State := do
  let k ← loopPlan f sparse c
  mxIssue c0 c f.bnd [sourceRegs (f.var.getLsbD 3) f.d, .one f.a, inc, .quad f.c] [] k

/-- MXLOOP (R248, R249). -/
def execMxloop (f : SysW) (s : State) : Host.Outcome State Fault Refusal :=
  mxWord 0xA2 f [f.d, f.a, f.b, f.c] [sourceRegs (f.var.getLsbD 3) f.d, .one f.a, .pair f.b, .quad f.c] [] true
    (mxLoop f false (.pair f.b)) s

/-- MXSPL (R252, R253). -/
def execMxspl (f : SysW) (s : State) : Host.Outcome State Fault Refusal :=
  mxWord 0xA3 f [f.d, f.a, f.b, f.c] [sourceRegs (f.var.getLsbD 3) f.d, .one f.a, .quad f.b, .quad f.c] [] true
    (mxLoop f true (.quad f.b)) s

/-! Draining. -/

/-- A destination's elements are laid out like an A operand's; i32 has the size of f32 (R256). -/
def drainDst (fmt : Nat) (handle : Bool) (pitch : Nat) : Operand where
  handle := handle
  base := 0
  rows := 0
  rowBytes := 0
  pitch := 16 * pitch
  ahead := 0
  fmt := BitVec.ofNat 4 (if fmt == 8 then 0 else fmt)
  grp := 32
  tr := false
  cb := 0
  cbf := false
  x := 0
  scl := 0
  zp := 0

/-- Codes of FMT and FMTT (R255). -/
def drainFmtOk (n : Nat) : Bool := n ≤ 5 || n == 8

/-- The columns of a core's cells in a drain's destination: 128k onward in cluster form (R256). -/
def drainColumn (mask : BitVec 8) (core n : Nat) : Nat := if mask == 0 then n else 128 * core + n

/-- The cores a drain works on and the unmasked columns of each. -/
def drainCols (mask : BitVec 8) (own : Nat) (cols : List (BitVec 128)) : List (Nat × List Nat) :=
  (if mask == 0 then [own] else slicesOf mask).map fun k =>
    (k, maskedRows 128 (cols.getD (if mask == 0 then 0 else k) 0))

/-- The checks of MXDRAIN, and the operation it queues (R239, R250, R255, R256). -/
def drainPlan (f : SysW) (c : WCtx) : Except Stop MxKind := do
  let dh := f.var.getLsbD 3
  let th := f.var.getLsbD 1
  let both := f.b != 0xF8#8
  checkMask f c
  let w0 := c.reg f.a 0
  let w3 := c.reg (codeAt f.a 3) 0
  let fmt := bits w0 3 0
  let fmtT := bits w0 7 4
  let nsat := bit w0 8
  fieldTrap (!drainFmtOk fmt) f.a 0
  fieldTrap (both && !drainFmtOk fmtT) f.a 4
  fieldTrap (nsat && (fmt == 5 || fmt == 8 || both && (fmtT == 5 || fmtT == 8))) f.a 8
  fieldTrap (w0 / 2 ^ 14 != 0) f.a 14
  let x ← placeOperand c (drainDst fmt dh (w3 % 2 ^ 16)) f.d
  let y ← if both then (placeOperand c (drainDst fmtT th (w3 / 2 ^ 16)) f.b).map some else .ok none
  let cols := if SysW.cform f then c.T.np else [c.T.np.getD (bits w0 13 11) 0]
  let rows := maskedRows 128 (c.T.mp.getD (bits w0 10 9) 0)
  let at_ := drainCols (SysW.cmask f) (c.T.core % 8) cols
  let col (k n : Nat) : Nat := drainColumn (SysW.cmask f) k n
  let direct := rows.flatMap fun m => at_.flatMap fun p => x.elemRanges (p.2.map fun n => x.nib true 0 m (col p.1 n))
  let trans := y.elim [] fun y => [Span.mk y .write (at_.flatMap fun p => p.2.flatMap fun n =>
    y.elemRanges (rows.map fun m => y.nib true 0 (col p.1 n) m))]
  checkSpans c.s c.T ([⟨x, .write, direct⟩] ++ trans) (checkPeersHere f c)
  checkTargets f c
  .ok (.drain (SysW.tile f) x y (BitVec.ofNat 4 fmt) (BitVec.ofNat 4 fmtT) nsat (BitVec.ofNat 32 (c.reg (codeAt f.a 1) 0))
    (BitVec.ofNat 32 (c.reg (codeAt f.a 2) 0)) (BitVec.ofNat 128 (rows.foldl (fun a r => a + 2 ^ r) 0)) cols (SysW.cmask f))

/-- The sources of MXDRAIN. -/
def drainSrcs (f : SysW) : List Regs :=
  [sourceRegs (f.var.getLsbD 3) f.d, .quad f.a] ++ if f.b != 0xF8#8 then [sourceRegs (f.var.getLsbD 1) f.b] else []

/-- MXDRAIN (R255, R256). -/
def execMxdrain (f : SysW) (s : State) : Host.Outcome State Fault Refusal :=
  mxWord 0xA4 f [f.d, f.a, f.b] (drainSrcs f) [] true (fun c0 c => do
    let k ← drainPlan f c
    mxIssue c0 c f.bnd (drainSrcs f) [] k) s

end Sys2Proof.Machine
end

