-- ==== Sys2Proof/Machine/Jetstream.lean ====
section
/-! DEFINITION. Jetstream chains: the words JCHAIN, JSEND, JRECV, JCLOSE, JABORT (R260–R267), reservations (R261, R469), arming
(R468), credits (R471), the sums of LINE and ANCHOR (R262, R263), and the flits' arrivals (R466–R473). -/

namespace Sys2Proof.Machine

/-! The words. -/

/-- The issue of a queued word that its gang waits at (R262, R268). -/
def mxIssueHeld (c0 c : WCtx) (bnd : Bool) (srcs : List Regs) (kind : MxKind) : Except Stop State := do
  c.checkPoison srcs
  waitIf (Config.matrixQueue ≤ c.T.mxq.length) .room c0.s
  c.waitRelease c0.s
  let id := c.T.mxNext
  let W := (c.W.holdGang c.gang (.async id bnd .chain)).setLast c.gang
  let T := c.T.setWave c.w W
  .ok (setTeam c.s c.t { T with mxNext := id + 1, mxq := T.mxq ++ [.fresh id (T.mxBatch + 1) kind [(T.core % 8, c.t)]] })

/-- JCHAIN (R260). -/
def execJchain (f : SysW) (s : State) : Host.Outcome State Fault Refusal :=
  mxWord 0xAA f [f.d, f.a] [.pair f.a] [.one f.d] true (fun c0 c => do
    let p0 := c.reg f.a 0
    let p1 := c.reg (codeAt f.a 1) 0
    let count := bits p0 27 20
    let rank := bits p0 19 12
    fieldTrap (count < 2) f.a 20
    fieldTrap (count ≤ rank) f.a 12
    fieldTrap (bits p0 31 28 != 0) f.a 28
    fieldTrap (bit p1 31 != (rank + 1 == count)) (codeAt f.a 1) 31
    fieldTrap (bits p1 30 9 != 0) (codeAt f.a 1) 9
    fieldTrap (if bit p1 31 then bits p1 8 0 != 0 else 400 ≤ bits p1 8 0 || partOfCore c.s (bits p1 8 0) != some c.T.part)
      (codeAt f.a 1) 0
    mxIssueHeld c0 c f.bnd [.pair f.a]
      (.chain (SysW.tile f) (f.var.getLsbD 0) f.d.toNat (BitVec.ofNat 32 p0) (BitVec.ofNat 32 p1) c.w)) s

/-- JSEND (R262): MP in bits 11:10 and NP in bits 9:7 name the edge masks, captured at issue (R244). -/
def execJsend (f : SysW) (s : State) : Host.Outcome State Fault Refusal :=
  mxWord 0xAB f [f.d, f.a] [.one f.a] [.pair f.d] false (fun c0 c =>
    mxIssueHeld c0 c f.bnd [.one f.a]
      (.send f.d.toNat (c.reg f.a 0) (c.T.mp.getD (f.x.extractLsb' 8 2).toNat 0) (c.T.np.getD (f.x.extractLsb' 5 3).toNat 0) c.w)) s

/-- JRECV (R262). -/
def execJrecv (f : SysW) (s : State) : Host.Outcome State Fault Refusal :=
  mxWord 0xAC f [f.d, f.a] [.one f.a] [.pair f.d] false (fun c0 c =>
    mxIssueHeld c0 c f.bnd [.one f.a] (.recv f.d.toNat (c.reg f.a 0) c.w)) s

/-- The chain a handle names: KIND 3 and reserved bits 0 (R210). -/
def handleChain (T : Team) (h : Nat) : Option Chain := if h / 2 ^ 28 == 3 && handleClean h then chain? T (bits h 27 16) else none

/-- Whether an operation transfers on a chain. -/
def MxKind.onChain (k : MxKind) (id : Nat) : Bool :=
  match k with
  | .send _ h _ _ _ => bits h 27 16 == id
  | .recv _ h _ => bits h 27 16 == id
  | _ => false

/-- A member's reservation on its core is given back (R261). -/
def dropReservation (s : State) (core t id : Nat) : State :=
  modCore s core fun C => { C with reservations := C.reservations.filter fun r => !(r.chain == id && r.team == t) }

/-- A chain is closed for a team (R265, R267). -/
def closeChain (s : State) (t id : Nat) : State :=
  match team? s t with
  | none => s
  | some T => dropReservation (setTeam s t (T.modChain id fun c => { c with st := .closed, inbox := [], requests := [] })) T.core t id

/-- JCLOSE (R265). -/
def execJclose (f : SysW) (s : State) : Host.Outcome State Fault Refusal :=
  mxWord 0xAD f [f.a] [.one f.a] [] false (fun c0 c => do
    let ch := handleChain c.T (c.reg f.a 0)
    trapIf ch.isNone .perm (BitVec.ofNat 64 (c.reg f.a 0))
    c.checkPoison [.one f.a]
    let id := ch.elim 0 (·.id)
    waitIf (c.T.mxq.any fun o => o.kind.onChain id) .chain c0.s
    .ok (closeChain (c.retire c.W f.bnd) c.t id)) s

/-- JABORT (R266). -/
def execJabort (f : SysW) (s : State) : Host.Outcome State Fault Refusal :=
  mxWord 0xAE f [f.a] [.one f.a] [] false (fun _ c => do
    let ch := handleChain c.T (c.reg f.a 0)
    trapIf ch.isNone .perm (BitVec.ofNat 64 (c.reg f.a 0))
    c.checkPoison [.one f.a]
    .ok (abortChain (c.retire c.W f.bnd) c.t (ch.elim 0 (·.id)) 1)) s

/-! Members. -/

/-- The member of a chain that a core holds. -/
def chainAt (s : State) (core id : Nat) : Option (Nat × Team × Chain) :=
  s.teams.findSome? fun p =>
    if p.2.core == core && p.2.st != .ended then
      (chain? p.2 id).bind fun c => if c.st == .closed then none else some (p.1, p.2, c)
    else none

def modChainOf (s : State) (t id : Nat) (f : Chain → Chain) : State := modTeam s t fun T => T.modChain id f
def modOp (s : State) (t id : Nat) (f : MxOp → MxOp) : State :=
  modTeam s t fun T => { T with mxq := T.mxq.map fun o => if o.id == id then f o else o }

/-- A member that holds its grant goes on toward arming (R468). -/
def advanceChain (s : State) (t id : Nat) : State :=
  match (team? s t).bind fun T => (chain? T id).map fun c => (T, c) with
  | none => s
  | some (T, c) =>
    if c.st != .granted then s
    else if c.root then
      if c.ready.length == (if c.anchorMode then c.count - 1 else 1) then
        c.ready.foldl (fun s r => jput s (c.flit .arm T.core r.2 0))
          (modChainOf s t id fun c => { c with st := .armed, free := 4 })
      else s
    else if !c.sentReady && (c.rank == 0 || c.anchorMode || !c.ready.isEmpty) then
      jput (modChainOf s t id fun c => { c with sentReady := true }) (c.flit .ready T.core c.next 0)
    else s

/-- Flits that came before the member's JCHAIN reach it first (DEDUCED, log entry 34). -/
def releaseEarly (s : State) (core id : Nat) : State :=
  let fs := ((core? s core).elim [] (·.early)).filter fun f => f.chain == id
  modCore { s with jnet := fs ++ s.jnet } core fun C => { C with early := C.early.filter fun f => f.chain != id }

/-- Opens a chain when its JCHAIN completes: d receives the handle and the gang goes on (R260). -/
def openChain (s : State) (t : Nat) (op : MxOp) (tile : Nat) (anchor : Bool) (d p0 p1 w : Nat) : State :=
  match team? s t with
  | none => s
  | some T =>
    match T.tiles[tile]? with
    | none => s
    | some x =>
      let id := bits p0 11 0
      let c : Chain :=
        { id := id, anchorMode := anchor, count := bits p0 27 20, rank := bits p0 19 12, root := bit p1 31, next := bits p1 8 0,
          tile := tile, cmode := x.mode, anchor := x.anchor, st := .granted, why := 0, sentReady := false, ready := [],
          credits := 0, asked := 0, requests := [], free := 0, lastServed := 0, timeline := 0, sendRows := [], curRow := none,
          inbox := [], ends := 0 }
      let s1 := modOp (setTeam s t { T with chains := T.chains ++ [c] }) t op.id fun o => { o with done := true }
      let s2 := modWave s1 t w fun W => W.putReg (BitVec.ofNat 8 d) 0 (3 * 2 ^ 28 + id * 2 ^ 16)
      let gs := ((wave? s2 t w).elim [] fun W => W.asyncGangs op.id .chain)
      releaseEarly (advanceChain (gs.foldl (fun s g => retireHeld s t w g.1 g.2) s2) t id) T.core id

/-- Landing-buffer space of a member (R261). -/
def reserveSize (anchor : Bool) (p0 p1 : Nat) : Nat :=
  if anchor then (if bit p1 31 then 4096 else 0) else if bits p0 19 12 == 0 then 0 else 8192

/-- Whether JCHAIN raises PERM in queue order (R260). -/
def chainRefused (T : Team) (tile : Nat) (anchor : Bool) (p0 : Nat) : Bool :=
  match T.tiles[tile]? with
  | none => true
  | some x => (anchor && x.mode == .xf48) || 2 ≤ (T.chains.filter Chain.isOpen).length || (chain? T (bits p0 11 0)).isSome || x.lent

/-- A trap at the word of a gang that waits for operation `op` (R260, R264). -/
def trapHeld (s : State) (t w op : Nat) (c : Cause) (arg : DWord) : State :=
  match ((wave? s t w).elim [] fun W => W.asyncGangs op .chain).head? with
  | some g => takeTrap s t w g.1 c arg
  | none => s

/-- JCHAIN at the head of the queue. -/
def startChain (s : State) (t : Nat) (op : MxOp) (tile : Nat) (anchor : Bool) (d : Nat) (p0 p1 : Word) (w : Nat) : State :=
  match team? s t with
  | none => s
  | some T =>
    if chainRefused T tile anchor p0.toNat then
      trapHeld (modOp s t op.id fun o => { o with cut := true }) t w op.id .perm (p0.setWidth 64)
    else
      let n := reserveSize anchor p0.toNat p1.toNat
      if n == 0 then openChain s t op tile anchor d p0.toNat p1.toNat w
      else modCore (modOp s t op.id fun o => { o with started := true }) T.core fun C =>
        { C with reservations := C.reservations ++ [⟨bits p0.toNat 11 0, t, n, false⟩] }

/-! Transfers. -/

/-- Adds two cells (R262, R263): the sum and whether it saturated. -/
def addCells (mode : CellMode) (a b : BitVec 48) : BitVec 48 × Bool :=
  match mode with
  | .xf48 => (BitVec.ofNat 48 (roundXf (dyadicSum [FT.xf48.value a.toNat, FT.xf48.value b.toNat])), false)
  | _ => satCell (toSigned 48 a.toNat + toSigned 48 b.toNat)

/-- The segments of a row that hold an unmasked cell (R471). -/
def rowSegs (cols : BitVec 128) : List Nat := (List.range 8).filter fun g => (List.range 16).any fun i => cols.getLsbD (16 * g + i)

/-- Flits of one row of a member's own tile: the unmasked cells (R262). -/
def rowFlits (c : Chain) (x : Tile) (core row : Nat) (cols : BitVec 128) : List JFlit :=
  let segs := rowSegs cols
  segs.map fun g => { c.flit .data core c.next 1 with
    row := row
    seg := g
    last := if segs.getLast? == some g then 1 else 0
    cells := ((List.range 16).filter fun i => cols.getLsbD (16 * g + i)).map fun i =>
      (i, smGetD x.cells (128 * row + 16 * g + i) 0, nsHas x.psn (128 * row + 16 * g + i)) }

/-- ARG counts contributions in 7 bits (R466, R467); past 127 it stays there (DESIGN CHOICE, log entry 92). -/
def countUp (n : Nat) : Nat := min (n + 1) 127

/-- A LINE rank adds its own cells to a flit and passes it on (R262): a saturated sum makes it DATASAT. -/
def passFlit (c : Chain) (x : Tile) (core : Nat) (rows cols : BitVec 128) (f : JFlit) : JFlit :=
  let sums := f.cells.map fun e =>
    let col := 16 * f.seg + e.1
    let own := rows.getLsbD f.row && cols.getLsbD col
    let (v, sat) := addCells c.cmode e.2.1 (if own then smGetD x.cells (128 * f.row + col) 0 else 0)
    ((e.1, v, e.2.2 || (own && nsHas x.psn (128 * f.row + col))), sat)
  { c.flit (if f.type == .datasat || sums.any (·.2) then .datasat else .data) core c.next (countUp f.arg) with
    row := f.row
    seg := f.seg
    last := f.last
    cells := sums.map (·.1) }

/-- The root adds a flit into its tile (R262, R263). -/
def addFlit (x : Tile) (mode : CellMode) (f : JFlit) : Tile :=
  let y := f.cells.foldl (fun x e =>
    let k := 128 * f.row + 16 * f.seg + e.1
    let (v, sat) := addCells mode e.2.1 (smGetD x.cells k 0)
    { x with cells := smPut 0 x.cells k v, psn := if e.2.2 then nsAdd x.psn k else x.psn, ovf := x.ovf || sat }) x
  { y with ovf := y.ovf || f.type == .datasat }

/-- The next requester an ANCHOR root serves: ascending rank from the sender served last (R471). -/
def nextRequest (c : Chain) : Option (Nat × Nat × Nat) :=
  let key (r : Nat × Nat × Nat) : Nat := (r.1 + c.count - c.lastServed - 1) % c.count
  (c.requests.filter fun r => r.2.2 != 0).foldl (fun b r => match b with
    | none => some r
    | some q => if key r < key q then some r else some q) none

/-- An ANCHOR root grants its free slots one row at a time (R471). -/
def grantSlots (t id core : Nat) : Nat → State → State
  | 0, s => s
  | n + 1, s =>
    match (team? s t).bind fun T => chain? T id with
    | none => s
    | some c =>
      match nextRequest c with
      | none => s
      | some r =>
        if c.free == 0 then s
        else grantSlots t id core n (jput (modChainOf s t id fun c => { c with
          free := c.free - 1
          lastServed := r.1
          requests := c.requests.map fun q => if q.1 == r.1 && q.2.1 == r.2.1 then (q.1, q.2.1, q.2.2 - 1) else q })
          (c.flit .credit core r.2.1 1))

/-- One advance of a sender with its own rows: rank 0 of LINE, any sender of ANCHOR. -/
def sendStep (s : State) (t : Nat) (T : Team) (op : MxOp) (c : Chain) (cols : BitVec 128) (x : Tile) : Option State :=
  match c.sendRows with
  | [] =>
    if op.step == 1 then none
    else some (modOp (jput s (c.flit .fin T.core c.next 1)) t op.id fun o => { o with step := 1, done := !c.anchorMode })
  | r :: rest =>
    if c.credits != 0 then
      some ((rowFlits c x T.core r cols).foldl jput
        (modChainOf s t c.id fun c => { c with credits := c.credits - 1, sendRows := rest }))
    else if c.anchorMode && c.asked == 0 then
      let n := min c.sendRows.length 127
      some (jput (modChainOf s t c.id fun c => { c with asked := n }) (c.flit .req T.core c.next n))
    else none

/-- A credit returns to the sender of a LINE flit (R471). -/
def returnCredit (s : State) (c : Chain) (core n : Nat) : State :=
  if n == 0 then s else c.ready.foldl (fun s r => jput s (c.flit .credit core r.2 n)) s

/-- One advance of a middle LINE rank. -/
def passStep (s : State) (t : Nat) (T : Team) (op : MxOp) (c : Chain) (rows cols : BitVec 128) (x : Tile) : Option State :=
  match c.inbox with
  | [] => none
  | f :: rest =>
    if f.type == .fin then
      some (modOp (jput (modChainOf s t c.id fun c => { c with inbox := rest }) (c.flit .fin T.core c.next (countUp f.arg)))
        t op.id fun o => { o with done := true })
    else if c.curRow != some f.row && c.credits == 0 then none
    else
      let s1 := modChainOf s t c.id fun c => { c with
        inbox := rest
        credits := if c.curRow == some f.row then c.credits else c.credits - 1
        curRow := if f.last != 0 then none else some f.row }
      some (returnCredit (jput s1 (passFlit c x T.core rows cols f)) c T.core f.last)

/-- One advance of the root. -/
def recvStep (s : State) (t : Nat) (T : Team) (op : MxOp) (c : Chain) (x : Tile) : Option State :=
  match c.inbox with
  | [] => none
  | f :: rest =>
    if f.type == .fin then
      let ends := c.ends + f.arg
      let fin := !c.anchorMode || c.count - 1 ≤ ends
      let s1 := modChainOf s t c.id fun c => { c with
        inbox := rest
        ends := if !c.anchorMode then 0 else if fin then ends - (c.count - 1) else ends }
      some (if fin then modOp s1 t op.id fun o => { o with done := true } else s1)
    else
      let T1 := { T with tiles := setAt T.tiles c.tile (addFlit x c.cmode f) }
      let s1 := setTeam s t (T1.modChain c.id fun c => { c with
        inbox := rest
        free := if c.anchorMode then c.free + min f.last 1 else c.free })
      some (if c.anchorMode then grantSlots t c.id T.core 4 s1 else returnCredit s1 c T.core f.last)

/-- One advance of the transfer in progress on a chain: it is armed, and its operation is at the head of the queue. -/
def chainStep (s : State) (t id : Nat) : Option State := do
  let T ← team? s t
  let c ← chain? T id
  let op ← T.mxq.head?
  let x ← T.tiles[c.tile]?
  if c.st != .armed || !op.started || op.done || !op.kind.onChain id then none
  else
    match op.kind with
    | .send _ _ rows cols _ => if c.anchorMode || c.rank == 0 then sendStep s t T op c cols x else passStep s t T op c rows cols x
    | .recv _ _ _ => recvStep s t T op c x
    | _ => none

/-- Advances a transfer as far as it goes. -/
def pumpChain (t id : Nat) : Nat → State → State
  | 0, s => s
  | n + 1, s =>
    match chainStep s t id with
    | some s' => pumpChain t id n s'
    | none => s

/-- Enough advances for what a member holds. -/
def pump (s : State) (t id : Nat) : State :=
  match (team? s t).bind fun T => chain? T id with
  | some c => pumpChain t id (c.inbox.length + c.sendRows.length + 4) s
  | none => s

/-- The transfer a JSEND or JRECV names: none where it raises PERM (R264). -/
def transferChain (T : Team) (k : MxKind) : Option Chain :=
  match k with
  | .send _ h _ _ _ => (handleChain T h).bind fun c => if c.st == .closed || c.root then none else some c
  | .recv _ h _ => (handleChain T h).bind fun c => if c.st == .closed || !c.root then none else some c
  | _ => none

/-- JSEND or JRECV at the head of the queue. -/
def startTransfer (s : State) (t : Nat) (op : MxOp) (h w : Nat) (rows cols : BitVec 128) : State :=
  match team? s t with
  | none => s
  | some T =>
    match transferChain T op.kind with
    | none => trapHeld (modOp s t op.id fun o => { o with cut := true }) t w op.id .perm (BitVec.ofNat 64 h)
    | some c =>
      let s1 := modOp s t op.id fun o => { o with started := true }
      pump (modChainOf s1 t c.id fun c => { c with sendRows := if cols == 0 then [] else maskedRows 128 rows, curRow := none }) t c.id

/-- The end of a JSEND or JRECV, aborted or not (R264, R266): the timeline's step, the status pair, then the next word or CHAIN_ABORT there. -/
def endTransfer (s : State) (t : Nat) (op : MxOp) (d h w : Nat) : State :=
  match (team? s t).bind fun T => chain? T (bits h 27 16) with
  | none => s
  | some c =>
    let gone := c.st == .aborted
    let tl := c.timeline + 1
    let s1 := modChainOf s t c.id fun c => { c with timeline := tl }
    let s2 := modWave s1 t w fun W => W.putRegs (BitVec.ofNat 8 d) 2 0
      (tl % 2 ^ 48 * 2 ^ 16 + if gone then c.why * 256 + 5 else 1)
    match (wave? s2 t w).bind fun W => (W.asyncGangs op.id .chain).head?.map fun g => (W, g) with
    | none => s2
    | some (W, g, bnd) =>
      if !gone then wakeTeam (retireHeld s2 t w g bnd) t
      else
        let sl := W.slice (lowSlice g)
        let s3 := modWave s2 t w fun W => { W with wclock := W.wclock + BitVec.ofNat 64 (slicesOf g).length }
        takeTrapAt s3 t w g Cause.chainAbort.code (BitVec.ofNat 64 (c.id + c.why * 256))
          (epcOf (if bnd then 0 else sl.runpos + 1) (sl.pc + 1)) false

/-! Reservations. -/

/-- Chains that a core's teams hold open, with a grant (R261). -/
def openHere (s : State) (core : Nat) : List (Nat × Chain) :=
  (s.teams.filter fun p => p.2.core == core).flatMap fun p =>
    (p.2.chains.filter fun c => c.isOpen && c.st != .waiting).map fun c => (p.1, c)

/-- A grant is withdrawn (R469): the member waits again, and REVOKE follows its READY. -/
def withdrawGrant (s : State) (core t : Nat) (c : Chain) : State :=
  let s1 := modChainOf s t c.id fun c => { c with st := .waiting, sentReady := false }
  let s2 := modCore s1 core fun C => { C with reservations := C.reservations.map fun r =>
    if r.chain == c.id && r.team == t then { r with granted := false } else r }
  if c.sentReady then jput s2 (c.flit .revoke core c.next 0) else s2

/-- A grant: a JCHAIN that waits completes; a withdrawn member goes on (R261, R469). -/
def giveGrant (s : State) (core : Nat) (r : Reservation) : State :=
  let s1 := modCore s core fun C => { C with reservations := C.reservations.map fun q => if q == r then { q with granted := true } else q }
  match (team? s1 r.team).bind fun T => chain? T r.chain with
  | some _ => advanceChain (modChainOf s1 r.team r.chain fun c => { c with st := .granted }) r.team r.chain
  | none =>
    match (team? s1 r.team).bind fun T => T.mxq.head? with
    | some op =>
      match op.kind with
      | .chain tile anchor d p0 p1 w => openChain s1 r.team op tile anchor d p0.toNat p1.toNat w
      | _ => s1
    | none => s1

/-- RESERVATION_GRANT (R261, R469): the lowest chain identity that waits. -/
def execReservationGrant (core : Nat) (s : State) : Host.Outcome State Fault Refusal :=
  finishEvent s do
    let C ← need (core? s core)
    needs (!C.stopped)
    let waiting := C.reservations.filter fun r => !r.granted &&
      (C.active == some r.team || ((team? s r.team).bind fun T => chain? T r.chain).isSome)
    let r ← need (waiting.foldl (fun b r => match b with
      | none => some r
      | some q => if r.chain < q.chain then some r else some q) none)
    let held := openHere s core
    let used := (C.reservations.filter (·.granted)).foldl (fun a r => a + r.size) 0
    if held.length < 4 && used + r.size ≤ 32768 then .ok (giveGrant s core r)
    else do
      let (u, d) ← need (held.find? fun p => r.chain < p.2.id && p.2.st == .granted &&
        C.reservations.any fun q => q.chain == p.2.id && q.team == p.1 && q.granted)
      needs (4 ≤ held.length)
      .ok (giveGrant (withdrawGrant s core u d) core r)

/-! Flits. -/

/-- The gateway a flit for the other die crosses: that of the destination's row (R465), or the nearest in service (R481). -/
def gatewayOf (s : State) (dest : Nat) : Nat := crossing s (dest / 8 % 25 / 5)

/-- Whether a flit goes from a core to a core of the other die. -/
def JFlit.crosses (f : JFlit) : Bool := f.src < 400 && f.dest < 400 && dieOf f.src != dieOf f.dest

/-- Whether a flit is ANCHOR data that a gateway must pass (R475). -/
def crossesGateway (f : JFlit) : Bool := f.anchorMode && (f.type == .data || f.type == .datasat) && f.crosses

/-- Whether flit f stays behind flit g of its source: both go to one core (R465), or g is on its way to be held at the gateway
that f crosses (R475). -/
def behind (s : State) (f g : JFlit) : Bool :=
  g.src == f.src && (g.dest == f.dest || (f.crosses && crossesGateway g && gatewayOf s g.dest == gatewayOf s f.dest))

/-- Whether flit f stays behind flit g: as above, or g is what the gateway that f crosses has sent to f's core. -/
def sameLane (s : State) (f g : JFlit) : Bool :=
  behind s f g || (f.crosses && g.dest == f.dest && g.src == 400 + 5 * dieOf f.src + gatewayOf s f.dest)

/-- Whether flit n may arrive now: a flit its gateway holds keeps every later one of its sources back (R475), but an ABORT of its chain,
for which it is discarded (R473). -/
def inOrder (s : State) (n : Nat) (f : JFlit) : Bool :=
  !((s.jnet.take n).any fun g => sameLane s f g) &&
    !(s.held.any fun h => f.crosses && h.gw == gatewayOf s f.dest && h.die == dieOf f.src && h.srcs.contains f.src &&
      !(f.type == .abort && h.flit.chain == f.chain && partOfCore s h.flit.dest == partOfCore s f.dest))

/-- The gateway an ABORT passes discards what it holds of the chain, one of the partition (R473). -/
def dropHeld (s : State) (f : JFlit) : State :=
  { s with held := s.held.filter fun h =>
      !(f.crosses && h.gw == gatewayOf s f.dest && h.flit.chain == f.chain && partOfCore s h.flit.dest == partOfCore s f.dest) }

/-- Whether a header agrees with a member's declaration (R466). -/
def headerOk (c : Chain) (f : JFlit) : Bool :=
  f.count == c.count && f.anchorMode == c.anchorMode && f.cmode == c.cmode && f.anchor == c.anchor

/-- An abort at a member that finds a flit wrong: the flit's source learns of it too (R266, R473). -/
def abortFrom (s : State) (t : Nat) (core : Nat) (c : Chain) (why : Nat) (f : JFlit) : State :=
  let s1 := abortChain s t c.id why
  if f.src < 400 && !c.known.contains f.src then jput s1 (c.flit .abort core f.src why) else s1

/-- What a core without the member does with a flit: it keeps it for a member that has not opened the chain yet and refuses it
for one that is gone, drops it, or refuses it (R473). -/
inductive Missing where
  | keep | drop | refuse

/-- Whether a core has held the member a flit is for, a team of the sender's launch, and holds it no longer (R473). -/
def memberGone (s : State) (f : JFlit) : Bool :=
  s.teams.any fun p => p.2.core == f.dest && (chain? p.2 f.chain).isSome &&
    s.teams.any fun q => q.2.core == f.src && q.2.launch == p.2.launch && (chain? q.2 f.chain).isSome

/-- A landing buffer sends a flit back (R473). -/
def refuseFlit (s : State) (f : JFlit) : State := jput s { f with type := .refuse, dest := f.src, src := f.dest, arg := 0, cells := [] }

/-- The arrival of a flit of a type at its member, which holds its header against its own declaration (R466);
an ABORT has passed its gateway (R473). -/
def jarrive (types : List FlitType) (missing : Missing) (n : Nat) (s : State)
    (act : State → Nat → Team → Chain → JFlit → State) : Host.Outcome State Fault Refusal :=
  finishEvent s do
    let f ← need s.jnet[n]?
    needs (types.contains f.type && f.dest < 400 && inOrder s n f && !crossesGateway f)
    needs (!((partOfCore s f.dest).elim true fun p => unitStopped s p (routerUnit (clusterOf f.dest))))
    let s0 := { s with jnet := s.jnet.eraseIdx n }
    let s1 := if f.type == .abort then dropHeld s0 f else s0
    match chainAt s1 f.dest f.chain with
    | none =>
      match missing with
      | .keep => .ok (if memberGone s1 f then refuseFlit s1 f else modCore s1 f.dest fun C => { C with early := C.early ++ [f] })
      | .drop => .ok s1
      | .refuse => .ok (refuseFlit s1 f)
    | some (t, T, c) =>
      if c.st == .aborted then .ok s1
      else if !headerOk c f then .ok (abortFrom s1 t T.core c 4 f)
      else .ok (act s1 t T c f)

/-- READY (R260, R468). -/
def execReady (n : Nat) (s : State) : Host.Outcome State Fault Refusal :=
  jarrive [.ready] .keep n s fun s t T c f =>
    let expected := if c.anchorMode then c.root && f.rank + 1 < c.count else f.rank + 1 == c.rank
    if !expected || c.ready.any (fun r => r.1 == f.rank && r.2 != f.src) then abortFrom s t T.core c 4 f
    else
      advanceChain (modChainOf s t c.id fun c =>
        { c with ready := if c.ready.contains (f.rank, f.src) then c.ready else c.ready ++ [(f.rank, f.src)] }) t c.id

/-- ARM (R468, R471). -/
def execArm (n : Nat) (s : State) : Host.Outcome State Fault Refusal :=
  jarrive [.arm] .drop n s fun s t T c _ =>
    if c.st != .granted then s
    else
      let s1 := modChainOf s t c.id fun c => { c with st := .armed, credits := if c.anchorMode then 0 else 8 }
      let s2 := if c.anchorMode then s1 else c.ready.foldl (fun s r => jput s (c.flit .arm T.core r.2 0)) s1
      pump s2 t c.id

/-- CREDIT (R471). -/
def execCredit (n : Nat) (s : State) : Host.Outcome State Fault Refusal :=
  jarrive [.credit] .drop n s fun s t _ c f =>
    pump (modChainOf s t c.id fun c => { c with credits := c.credits + f.arg, asked := c.asked - f.arg }) t c.id

/-- REQ (R471). -/
def execReq (n : Nat) (s : State) : Host.Outcome State Fault Refusal :=
  jarrive [.req] .refuse n s fun s t T c f =>
    grantSlots t c.id T.core 4 (modChainOf s t c.id fun c =>
      { c with requests := (c.requests.filter fun r => r.2.2 != 0) ++ [(f.rank, f.src, f.arg)] })

/-- The shared course of DATA and DATASAT: into the landing buffer, and on (R260, R262). At an ANCHOR root a flit that ends
several rows at once fills one slot and releases the others, which are granted again (R471). -/
def landData (s : State) (t : Nat) (T : Team) (c : Chain) (f : JFlit) : State :=
  if f.src < 400 && !c.ready.contains (f.rank, f.src) then abortFrom s t T.core c 4 f
  else
    let s1 := modChainOf s t c.id fun c => { c with
      inbox := c.inbox ++ [f]
      free := if c.anchorMode then c.free + (f.last - 1) else c.free }
    pump (if c.anchorMode then grantSlots t c.id T.core 4 s1 else s1) t c.id

/-- DATA (R262, R263, R471). -/
def execData (n : Nat) (s : State) : Host.Outcome State Fault Refusal := jarrive [.data] .refuse n s landData

/-- DATASAT (R467). -/
def execDatasat (n : Nat) (s : State) : Host.Outcome State Fault Refusal := jarrive [.datasat] .refuse n s landData

/-- END (R263, R472): at an ANCHOR root it says that the sender's rows have been accepted. -/
def execEndFlit (n : Nat) (s : State) : Host.Outcome State Fault Refusal :=
  jarrive [.fin] .refuse n s fun s t _ c f =>
    let s1 := if !c.anchorMode then s
      else match chainAt s f.src f.chain with
        | some (u, U, _) => match U.mxq.head? with
          | some op => if op.kind.onChain f.chain && op.step == 1 then modOp s u op.id fun o => { o with done := true } else s
          | none => s
        | none => s
    pump (modChainOf s1 t c.id fun c => { c with inbox := c.inbox ++ [f] }) t c.id

/-- ABORT (R266, R473). -/
def execAbortFlit (n : Nat) (s : State) : Host.Outcome State Fault Refusal :=
  jarrive [.abort] .keep n s fun s t _ c f => abortChain s t c.id f.arg

/-- REFUSE (R266, R473). At a gateway, which sent a sum on, every member of the chain, one of
the refusing core's partition, learns of the abort on its die. -/
def execRefuse (n : Nat) (s : State) : Host.Outcome State Fault Refusal :=
  match s.jnet[n]? with
  | some f =>
    if f.type == .refuse && 400 ≤ f.dest then
      .next (((List.range 200).map fun i => (f.dest - 400) / 5 * 200 + i).foldl (fun s core =>
        match chainAt s core f.chain with
        | some (t, T, c) => if partOfCore s f.src == some T.part then abortChain s t c.id 3 else s
        | none => s) { s with jnet := s.jnet.eraseIdx n })
    else jarrive [.refuse] .drop n s fun s t _ c _ => abortChain s t c.id 3
  | none => .next s

/-- REVOKE (R469). -/
def execRevoke (n : Nat) (s : State) : Host.Outcome State Fault Refusal :=
  jarrive [.revoke] .keep n s fun s t T c f =>
    let s1 := modChainOf s t c.id fun c => { c with
      ready := c.ready.filter fun r => r.1 != f.rank
      st := if c.st == .armed then .granted else c.st
      sentReady := c.root && c.sentReady
      credits := 0 }
    if !c.root && c.sentReady then jput s1 (c.flit .revoke T.core c.next 0) else s1

end Sys2Proof.Machine
end

