-- ==== Sys2Proof/Machine/MatrixEngine.lean ====
section
/-! DEFINITION. The matrix engine at work (R404–R411): the head of the queue starts, its row blocks are performed, it completes;
cluster-form operations at their targets (R250, R251, R259); drains (R256); stops and parks after issue (R239). -/

namespace Sys2Proof.Machine

/-! The head of the queue. -/

/-- A team's engine works while the team is active, its core does not swap, and the partition runs (R232, R258, R446). -/
def mxHead (s : State) (t : Nat) : Except Stop (Team × Core × MxOp) := do
  let T ← need (team? s t)
  let C ← need (core? s T.core)
  let op ← need T.mxq.head?
  needs (C.active == some t && !C.swapping && !C.stopped && !unitStopped s T.part (mxUnit T.core))
  needs (T.st == .active || T.st == .ending)
  .ok (T, C, op)

/-- Whether operation `id` of team u is under way. -/
def opRunning (s : State) (u id : Nat) : Bool :=
  ((team? s u).elim [] (·.mxq)).any fun o => o.id == id && o.started && !o.done && !o.cut

/-- Whether a core's engine is between its owner's operations, and no other team's operation is under way there (R251). -/
def betweenOps (s : State) (core : Nat) (owner : Bool) : Bool :=
  match core? s core with
  | none => false
  | some C =>
    let own := C.active.bind fun u => (team? s u).bind fun T => T.mxq.head?.map fun o => o.started && !o.done && !o.cut
    (owner || !own.getD false) && (!owner || !(C.arrivals.any fun a => opRunning s a.team a.op))

/-- Whether an operation may enter a target engine: it is the first arrival there that has not (R251), and the owner is
between its operations. -/
def mayEnter (s : State) (t id core : Nat) : Bool :=
  betweenOps s core false &&
    ((core? s core).bind fun C => C.arrivals.find? fun a => !a.entered).any fun a => a.team == t && a.op == id

/-- The target engines of an operation but the issuer's. -/
def targetCores (T : Team) (op : MxOp) : List Nat :=
  (otherCores op.kind.mask (T.core % 8)).map fun k => clusterOf T.core * 8 + k

/-- An operation enters the target engines whose order lets it (R251; DEDUCED, log entry 91). -/
def enterTargets (s : State) (t : Nat) (T : Team) (op : MxOp) : State :=
  ((targetCores T op).filter (mayEnter s t op.id)).foldl (fun s c => modCore s c fun C =>
    { C with arrivals := C.arrivals.map fun a => if a.team == t && a.op == op.id then { a with entered := true } else a }) s

/-- Whether an operation may start: it has entered every target engine (R251, R404), and stands between the operations
there. -/
def mayStart (s : State) (t : Nat) (T : Team) (op : MxOp) : Bool :=
  betweenOps s T.core true &&
    (targetCores T op).all fun c =>
      betweenOps s c false && ((core? s c).elim false fun C => C.arrivals.any fun a => a.team == t && a.op == op.id && a.entered)

/-! Stops after issue. -/

/-- R239: ABT and ECAUSE in the issuer's tile and in each target tile. -/
def stopOp (s : State) (t : Nat) (op : MxOp) (cause : BitVec 8) : State :=
  match team? s t with
  | none => s
  | some _ =>
    let s1 := dropArrivals (modOp s t op.id fun o => { o with cut := true }) fun a => a.team == t && a.op == op.id
    match op.kind.tile? with
    | none => s1
    | some i => (t :: op.targets.map (·.2)).foldl (fun s u => modTeam s u fun T =>
        { T with tiles := modAt T.tiles i fun x =>
          { x with abt := true, ecause := if x.ecause == 0 then cause else x.ecause } }) s1

/-- What a failed fetch or write does to the operation (R239, R505). -/
def mxFail (s : State) (t : Nat) (op : MxOp) (r : EngRes) (a : Acc) (pages : List ParkLane) : State :=
  match team? s t with
  | none => s
  | some T =>
    match r with
    | .ok _ | .far => s
    | .trap c _ =>
      (match op.kind with
        | .ldw _ _ =>
          modOp (modTeam s t fun T => { T with plane := T.plane.map fun p => { p with failed := some (BitVec.ofNat 8 c.code) } })
            t op.id fun o => { o with done := true }
        | _ => stopOp s t op (BitVec.ofNat 8 c.code))
    | .park _ _ _ =>
      let (s1, p) := parkEngine s (matrixEng s T) T.serial 128 a pages
      modOp s1 t op.id fun o => { o with park := some p }
    | .world pa => raiseHalt s T.part 3 (matrixEng s T).unit pa

def mxStopped (s : State) (t : Nat) (op : MxOp) (e : MxStop) : State :=
  match e with
  | .units s1 => s1
  | .fail r a pages => mxFail s t op r a pages

/-! Multiplying. -/

/-- The table a cb8 operand reads (R77). -/
def opBook (s : State) (T : Team) (x : Operand) : Book :=
  if x.fmt == 9#4 then (codebookOf s (clusterOf T.core) T.tag).elim Book.none fun b => ⟨b.bytes, b.psn⟩ else Book.none

/-- Whether a table an operation reads is still being loaded (R326). -/
def bookLoading (s : State) (T : Team) (xs : List Operand) : Bool :=
  xs.any fun x => x.fmt == 9#4 && ((codebookOf s (clusterOf T.core) T.tag).any (·.loading))

/-- The plane of step j, read again unless it is there (R247). -/
def ensurePlane (s : State) (t : Nat) (p : Plane) (mask : BitVec 8) (db dm : Int) (k j : Nat) : Except MxStop State :=
  match team? s t with
  | none => .ok s
  | some T =>
    if T.planeData.any fun d => d.step == j then .ok s
    else do
      let (s1, m) ← fetchPlane s t p (p.bstep db dm k j) (p.columns mask (T.core % 8))
      .ok (modTeam s1 t fun T => { T with planeData := some ⟨j, m⟩ })

/-- A column of the plane as the array multiplies it: the present elements by logical index, and whether its metadata are
marked. -/
structure PlaneCol where
  els : List (Nat × XV × Bool)
  psn : Bool

def planeCol (p : Plane) (b : BStep) (bk : Book) (raw : Bool) (m : Segs) (n : Nat) : PlaneCol where
  els := (p.stored b m n).map fun e => (e.1, p.op.value bk raw m e.2.1 p.lines n (b.kk0 + e.1) e.2.2)
  psn := p.metaPsn b m n

/-- Row m of A in a step: K values (R235, R236). -/
def rowVals (x : Operand) (bk : Book) (raw : Bool) (m : Segs) (o : Int) (row kk0 k : Nat) : List (XV × Bool) :=
  (List.range k).map fun i => x.value bk raw m (x.nib true o row i) 128 row (kk0 + i) (i % 8)

/-- The K-step of one cell (R83, R253, R254): absent values contribute +0. An element whose scale is 0 against an infinite or NaN
partner gives the NaN of R83's exact product, where R78 speaks of a zero product (DESIGN CHOICE, log entry 108). -/
def cellStep (x : Tile) (k : Nat) (row col : Nat) (a : List (XV × Bool)) (b : PlaneCol) : Tile :=
  let pairs := b.els.map fun e => (a.getD e.1 (.zero false, false), e.2)
  let prods := pairs.map fun q => (xmul q.1.1 q.2.1).1
  let (v, sat) := kStep x.mode x.anchor (smGetD x.cells (128 * row + col) 0) (prods ++ if b.els.length < k then [.zero false] else [])
  let bad := b.psn || pairs.any fun q => q.1.2 || q.2.2
  { x with
    cells := smPut 0 x.cells (128 * row + col) v
    psn := if bad then nsAdd x.psn (128 * row + col) else x.psn
    ovf := x.ovf || sat }

/-- A row block on one tile. -/
def blockTile (x : Tile) (k : Nat) (rows : List (Nat × List (XV × Bool))) (cols : List (Nat × PlaneCol)) : Tile :=
  rows.foldl (fun x r => cols.foldl (fun x c => cellStep x k r.1 c.1 r.2 c.2) x) x

/-- The rows of a row block (R408): 32 when an operand is f32, else all. -/
def blockRows (r4 : Bool) (block : Nat) (rows : BitVec 128) : List Nat :=
  (maskedRows 128 rows).filter fun m => !r4 || m / 32 == block

/-- The row block at hand of an operation, and the plane of the next step (R247, R249, R408). -/
def rowBlock (s : State) (t : Nat) (op : MxOp) (p : Plane) (tile : Nat) (x : Operand) (m n : Nat) (da db dm : Int)
    (rows : BitVec 128) (cols : List (BitVec 128)) (mask : BitVec 8) : Except MxStop State := do
  let k := min x.stepK p.op.stepK
  let kc := p.covers k
  let s1 ← ensurePlane s t p mask db dm k op.step
  match team? s1 t with
  | none => .ok s1
  | some T =>
    let r4 := x.fmt == 0#4 || p.op.fmt == 0#4
    let ms := blockRows r4 op.block rows
    let o := da * op.step
    let (s2, am) ← fetchRanges s1 t x.handle (x.aRanges o ms (op.step * kc) kc)
    let bm := T.planeData.elim [] (·.segs)
    let b := p.bstep db dm k op.step
    let work (core : Nat) (y : Tile) : Tile :=
      let raw := y.mode == .i48
      blockTile y kc (ms.map fun r => (r, rowVals x (opBook s2 T x) raw am o r (op.step * kc) kc))
        ((maskedRows 128 (cols.getD (if mask == 0 then 0 else core) 0)).map fun c =>
          (c, planeCol p b (opBook s2 T p.op) raw bm (p.column core c)))
    let s3 := op.targets.foldl (fun s q =>
      modTeam s q.2 fun U => { U with tiles := modAt U.tiles tile (work q.1) }) s2
    if r4 && 32 * (op.block + 1) < m then .ok (modOp s3 t op.id fun q => { q with block := op.block + 1 })
    else if op.step + 1 == n then
      .ok (modTeam (modOp s3 t op.id fun q => { q with done := true }) t fun T => { T with planeData := none })
    else
      let s4 := modOp s3 t op.id fun q => { q with step := op.step + 1, block := 0 }
      match ensurePlane s4 t p mask db dm k (op.step + 1) with
      | .ok s5 => .ok s5
      | .error e => .ok (mxStopped s4 t op e)

/-- The tile an operation or its chain works on, which it claims (R437). -/
def opTile (T : Team) (k : MxKind) : List Nat :=
  match k with
  | .send _ h _ _ _ => (handleChain T h).toList.map (·.tile)
  | .recv _ h _ => (handleChain T h).toList.map (·.tile)
  | k => k.tile?.toList

/-- Each access of an operation claims its tile on every core it works on (R437). -/
def claimTiles (s : State) (T : Team) (op : MxOp) : State × Bool :=
  op.targets.foldl (fun a p =>
    let (s, b) := needUnits a.1 p.2 true (opTile T op.kind)
    (s, a.2 && b)) (s, true)

/-- ROW_BLOCK (R408). -/
def execRowBlock (team : Nat) (s : State) : Host.Outcome State Fault Refusal :=
  finishEvent s do
    let (T, _, op) ← mxHead s team
    needs (op.started && !op.done && !op.cut && op.park.isNone)
    match op.kind with
    | .loop tile x m n da db dm rows cols _ mask => do
      let p ← need T.plane
      needs (!bookLoading s T [x, p.op] && (!(x.handle || p.op.handle) || fetchTurn s T.core))
      let (s1, ok) := claimTiles s T op
      if !ok then .ok s1
      else
        match rowBlock s1 team op p tile x m n da db dm rows cols mask with
        | .ok s2 => .ok s2
        | .error e => .ok (mxStopped s1 team op e)
    | _ => .error .off

/-! Draining. -/

/-- What an element writes at one byte: address, the bits it owns, their value, and whether the cell is poisoned. -/
structure Piece where
  addr : Nat
  mask : Nat
  val : Nat
  psn : Bool

/-- The bytes of one element (R256): a 4-bit element is one nibble of its byte. -/
def elemPieces (x : Operand) (nib : Int) (code : Nat) (psn : Bool) : List Piece :=
  match x.at nib with
  | none => []
  | some (a, up) =>
    if x.nibs == 1 then [⟨a, if up then 0xF0 else 0x0F, if up then code * 16 else code, psn⟩]
    else (List.range x.codeBytes).map fun i => ⟨a + i, 0xFF, code / 256 ^ i % 256, psn⟩

/-- Joins the pieces of one byte that follow each other; a later one stands. -/
def joinPieces : List Piece → List Piece
  | [] => []
  | p :: r =>
    match joinPieces r with
    | q :: l =>
      if p.addr == q.addr then
        ⟨p.addr, Nat.lor p.mask q.mask, Nat.lor (Nat.land p.val (255 - q.mask)) q.val, p.psn || q.psn⟩ :: l
      else p :: q :: l
    | [] => [p]

/-- Runs of consecutive addresses. -/
def runs : List Piece → List (List Piece)
  | [] => []
  | p :: r =>
    match runs r with
    | (q :: l) :: ls => if p.addr + 1 == q.addr then (p :: q :: l) :: ls else [p] :: (q :: l) :: ls
    | _ => [[p]]

/-- A run's bytes, over those that stand there. -/
def runBytes (ps : List Piece) (old : List Byte) : List Byte :=
  (ps.zip old).map fun q => BitVec.ofNat 8 (Nat.lor q.1.val (Nat.land q.2.toNat (255 - q.1.mask)))

/-- The bytes that stand at a global range, as far as it is mapped for writing. -/
def oldBytes (s : State) (E : Eng) (va n : Nat) : List Byte :=
  (List.range n).map fun i => match judge s E .write ((va + i) % 2 ^ 64) with
    | .go pa => (byteAt s E.who pa).1
    | _ => 0

/-- A drained run, cut at granules when a cell is poisoned, and whether each part is marked. -/
def Piece.parts (ps : List Piece) : List (List Piece × Bool) :=
  if ps.any (·.psn) then
    let gs := ps.foldl (fun (m : NSet) q => nsAdd m (q.addr / 16)) []
    gs.map fun g => let qs := ps.filter fun q => q.addr / 16 == g; (qs, qs.any (·.psn))
  else [(ps, false)]

/-- Whether every byte of a run can be written: the old one is at hand where the run owns only a part of it. -/
def oldAtHand (s : State) (E : Eng) (ps : List Piece) : Bool :=
  ps.all fun q => q.mask == 255 || match judge s E .write (q.addr % 2 ^ 64) with
    | .go pa => atHand s E.who pa 1
    | _ => true

/-- One run of a drain is written; a poisoned cell marks the granules of its element (R256). -/
def drainRun (s : State) (t : Nat) (x : Operand) (ps : List Piece) : Except MxStop State :=
  match team? s t, ps with
  | some T, p :: _ =>
    let marked := ps.filter (·.psn)
    if x.handle then
      let E := matrixEng s T
      match firstBad s E .write p.addr ps.length with
      | some e => .error (.fail e .write (badPages s E .write p.addr ps.length))
      | none =>
        if !oldAtHand s E ps then .error (.units (askEng s E .write p.addr ps.length))
        else .ok ((Piece.parts ps).foldl (fun s q =>
          let a := (q.1.head?.map (·.addr)).getD 0
          (engWrite s E a (runBytes q.1 (oldBytes s E a q.1.length)) q.2).1) (fetchBursts s T.core ps.length))
    else
      let (s1, ok) := needUnits s t false (regionsOf p.addr ps.length)
      if !ok then .error (.units s1)
      else .ok (modTeam s1 t fun T => marked.foldl (fun T q => scratchMark T q.addr 1)
        (scratchSet T p.addr (runBytes ps (scratchGet T p.addr ps.length))))
  | _, _ => .ok s

/-- A line of a drain: a row of the direct copy, or a column of the transposed one, of one core's tile. -/
structure DrainLine where
  x : Operand
  fmt : BitVec 4
  scale : Word
  trans : Bool
  core : Nat
  team : Nat
  cells : List (Nat × Nat)

/-- Writes a line, and sets DSAT where an element saturated. -/
def drainLine (s : State) (t tile : Nat) (nsat : Bool) (mask : BitVec 8) (l : DrainLine) : Except MxStop State :=
  match (team? s l.team).bind fun T => T.tiles[tile]? with
  | none => .ok s
  | some y =>
    let els := l.cells.map fun c =>
      let k := 128 * c.1 + c.2
      let (code, sat) := drainCode l.fmt nsat l.scale (cellValue y.mode y.anchor (smGetD y.cells k 0))
      let col := drainColumn mask l.core c.2
      (elemPieces l.x (if l.trans then l.x.nib true 0 col c.1 else l.x.nib true 0 c.1 col) code (nsHas y.psn k), sat)
    let ps := joinPieces (els.flatMap (·.1))
    let sat := els.any (·.2)
    ((runs ps).foldlM (fun s r => drainRun s t l.x r) s).map fun s1 =>
      modTeam s1 l.team fun T => { T with tiles := modAt T.tiles tile fun x => { x with dsat := x.dsat || sat } }

/-- The lines of a drain, in their order (R256). -/
def drainLines (ts : List (Nat × Nat)) (t : Nat) (T : Team) (x : Operand) (y : Option Operand) (fmt fmtT : BitVec 4) (scale scaleT : Word)
    (rows : BitVec 128) (cols : List (BitVec 128)) (mask : BitVec 8) : List DrainLine :=
  let ms := maskedRows 128 rows
  (drainCols mask (T.core % 8) cols).flatMap fun p =>
    let u := ((ts.find? fun q => q.1 == p.1).map (·.2)).getD t
    (ms.map fun m => ⟨x, fmt, scale, false, p.1, u, p.2.map fun n => (m, n)⟩) ++
      y.elim [] fun y => p.2.map fun n => ⟨y, fmtT, scaleT, true, p.1, u, ms.map fun m => (m, n)⟩

/-- Writes lines until one fails; `step` counts those written. -/
def runDrain (t : Nat) (op : MxOp) (tile : Nat) (nsat : Bool) (mask : BitVec 8) : List DrainLine → State → State
  | [], s => modOp s t op.id fun o => { o with done := true }
  | l :: r, s =>
    match drainLine s t tile nsat mask l with
    | .ok s1 => runDrain t op tile nsat mask r (modOp s1 t op.id fun o => { o with step := o.step + 1 })
    | .error e => mxStopped s t op e

/-! Starting. -/

def Tile.cleared (x : Tile) : Tile := { x with cells := [], psn := [], ovf := false, abt := false, dsat := false, ecause := 0 }

/-- The flag word of R240. -/
def Tile.flags (x : Tile) : Nat :=
  (if x.ovf then 1 else 0) + (if x.abt then 2 else 0) + (if x.dsat then 4 else 0) +
    (match x.mode with
      | .xf48 => 0
      | .i48 => 16
      | .a48 => 32) +
    (if x.psn.isEmpty then 0 else 64) + (if x.lent then 128 else 0) + x.ecause.toNat * 2 ^ 8 + x.anchor.toNat * 2 ^ 16

def modTile (s : State) (t i : Nat) (f : Tile → Tile) : State := modTeam s t fun T => { T with tiles := modAt T.tiles i f }

/-- MXRD's lanes (R245). -/
def readCells (W : Wave) (x : Tile) (raw : Bool) (d row col : Nat) (lanes : LaneMask) : Wave :=
  (lanesOf lanes).foldl (fun W l =>
    let k := 128 * row + col + l
    let c := smGetD x.cells k 0
    if raw then W.load (BitVec.ofNat 8 d) 2 l (cellToRaw c) (nsHas x.psn k)
    else W.load (BitVec.ofNat 8 d) 1 l (cellToF32 x.mode x.anchor c) (nsHas x.psn k)) W

/-- MXWR's lanes (R246). -/
def writeCells (x : Tile) (raw : Bool) (row col : Nat) (vals : List (Nat × BitVec 64)) : Tile :=
  vals.foldl (fun x v =>
    let k := 128 * row + col + v.1
    let (c, sat) := if raw then (v.2.setWidth 48, false) else f32ToCell x.mode x.anchor (v.2.toNat % 2 ^ 32)
    { x with cells := smPut 0 x.cells k c, psn := nsDel x.psn k, ovf := x.ovf || sat }) x

/-- What the head of the queue does when it starts, or goes on after a park or a claim: everything but row blocks. -/
def startOp (s : State) (t : Nat) (T : Team) (op : MxOp) : State :=
  let done (s : State) : State := modOp s t op.id fun o => { o with started := true, done := true }
  match op.kind with
  | .zero i _ => done (op.targets.foldl (fun s p => modTile s p.2 i Tile.cleared) s)
  | .cfg i mode anchor lend => done (modTile s t i fun x => { Tile.cleared x with mode := mode, anchor := anchor, lent := lend })
  | .rd i raw d row col lanes w => done (modWave s t w fun W => ((T.tiles[i]?).elim W fun x => readCells W x raw d row col lanes))
  | .stat i d w => done (modWave s t w fun W => W.putReg (BitVec.ofNat 8 d) 0 ((T.tiles[i]?).elim 0 Tile.flags))
  | .wr i raw row col vals => done (modTile s t i fun x => writeCells x raw row col vals)
  | .ldw p mask =>
    let s1 := modOp (if op.started then s else modTeam s t fun T => { T with plane := some p, planeData := none }) t op.id
      fun o => { o with started := true }
    (match ensurePlane s1 t p mask 0 0 p.op.stepK 0 with
      | .ok s2 => done s2
      | .error e => mxStopped s1 t op e)
  | .loop _ _ m n _ db dm _ _ _ mask =>
    let s1 := modOp s t op.id fun o => { o with started := true }
    (match T.plane with
      | none => s1
      | some p =>
        if m == 0 || n == 0 then done s1
        else match p.failed with
        | some c => stopOp s1 t op c
        | none =>
          match ensurePlane s1 t p mask db dm (min (match op.kind with
              | .loop _ x _ _ _ _ _ _ _ _ _ => x.stepK
              | _ => p.op.stepK) p.op.stepK) 0 with
            | .ok s2 => s2
            | .error e => mxStopped s1 t op e)
  | .drain i x y fmt fmtT nsat scale scaleT rows cols mask =>
    runDrain t op i nsat mask ((drainLines op.targets t T x y fmt fmtT scale scaleT rows cols mask).drop op.step)
      (modOp s t op.id fun o => { o with started := true })
  | .chain tile anchor d p0 p1 w => startChain s t op tile anchor d p0 p1 w
  | .send _ h rows cols w => startTransfer s t op h w rows cols
  | .recv _ h w => startTransfer s t op h w 0 0

/-- Whether an operation that has started is taken up again by another start: a park or a claim left it unfinished. -/
def MxKind.again (k : MxKind) : Bool :=
  match k with
  | .ldw _ _ => true
  | .drain _ _ _ _ _ _ _ _ _ _ _ => true
  | _ => false

/-- MATRIX_OP_START (R404, R405): operations run one at a time, which R405 makes indistinguishable from an overlap. An operation
that has not entered every target engine enters those it can (R251). -/
def execMatrixOpStart (team : Nat) (s : State) : Host.Outcome State Fault Refusal :=
  finishEvent s do
    let (T, _, op) ← mxHead s team
    needs (!op.done && !op.cut && op.park.isNone && (!op.started || op.kind.again))
    needs (!bookLoading s T (match op.kind, T.plane with
      | .loop _ x _ _ _ _ _ _ _ _ _, some p => [x, p.op]
      | _, _ => []))
    if op.started || mayStart s team T op then
      let (s1, ok) := claimTiles s T op
      .ok (if !ok then s1 else startOp s1 team ((team? s1 team).getD T) op)
    else do
      needs ((targetCores T op).any (mayEnter s team op.id))
      .ok (enterTargets s team T op)

/-- CLUSTER_OP_ARRIVAL (R404): the head of a queue enters the arrival buffer of a target engine. -/
def execClusterOpArrival (team core : Nat) (s : State) : Host.Outcome State Fault Refusal :=
  finishEvent s do
    let (T, _, op) ← mxHead s team
    let C ← need (core? s core)
    needs (!op.done && !op.cut && clusterOf core == clusterOf T.core && core != T.core && op.kind.mask.getLsbD (core % 8))
    needs (C.arrivals.length < Config.arrivalBuffer && !(C.arrivals.any fun a => a.team == team && a.op == op.id))
    .ok (modCore s core fun C => { C with arrivals := C.arrivals ++ [⟨team, op.id, false⟩] })

/-- Whether an operation writes memory outside its team's own scratchpad: a drain to a handle, or for other cores (R363). -/
def MxKind.outside : MxKind → Bool
  | .drain _ d dt _ _ _ _ _ _ _ m => d.handle || dt.any (·.handle) || m != 0
  | _ => false

/-- Whether an operation multiplies by the latched plane. -/
def MxKind.multiplies : MxKind → Bool
  | .loop _ _ _ _ _ _ _ _ _ _ _ => true
  | _ => false

/-- A queue without an operation, its registers free, the timeline where the rest of the queue leaves it (R257). The next
multiplication reads the plane of step 0 again, however this one ended (R247). -/
def Team.popped (T : Team) (op : MxOp) : Team :=
  let T1 : Team := { T with
    mxq := T.mxq.filter fun o => o.id != op.id
    planeData := if op.kind.multiplies then none else T.planeData
    mxOut := if op.kind.outside then noteLeast T.mxOut op.batch else T.mxOut
    waves := T.waves.map fun W => { W with busy := W.busy.filter fun b => b.2 != .matrix op.id } }
  { T1 with mxTl := BitVec.ofNat 64 T1.matrixTimeline }

/-- What a completed operation leaves: its entry is free, its registers are written, the timeline moves (R257, R404). -/
def popOp (s : State) (t : Nat) (op : MxOp) : State :=
  let s1 := modTeam (dropFar s (.matrix t)) t fun T => T.popped op
  wakeTeam (dropArrivals s1 fun a => a.team == t && a.op == op.id) t

/-- The head of a queue that may complete: that of a team the engine works for, or one that is over, wherever its team is (R259, R404). A
JSEND or JRECV completes when its team runs (R442). -/
def mxOver (s : State) (t : Nat) : Except Stop (Team × MxOp) :=
  match mxHead s t with
  | .ok (T, _, op) => .ok (T, op)
  | .error _ => do
    let T ← need (team? s t)
    let op ← need T.mxq.head?
    needs ((op.done || op.cut) && !unitStopped s T.part (mxUnit T.core) && (match op.kind with
      | .send _ _ _ _ _ | .recv _ _ _ => false
      | _ => true))
    .ok (T, op)

/-- MATRIX_OP_COMPLETE (R239, R257, R264, R266): every write of a drain is acknowledged (R458). -/
def execMatrixOpComplete (team : Nat) (s : State) : Host.Outcome State Fault Refusal :=
  finishEvent s do
    let (T, op) ← mxOver s team
    let aborted (h : Nat) : Bool := (chain? T (bits h 27 16)).any fun c => c.st == .aborted
    match op.kind with
    | .send d h _ _ w => do
      needs (op.cut || op.done || (op.started && aborted h))
      .ok (popOp (if op.cut then s else endTransfer s team op d h w) team op)
    | .recv d h w => do
      needs (op.cut || op.done || (op.started && aborted h))
      .ok (popOp (if op.cut then s else endTransfer s team op d h w) team op)
    | _ => do
      needs ((op.done || op.cut) && engOwc s (.matrix team) == 0)
      .ok (popOp s team op)

end Sys2Proof.Machine
end

