-- ==== Sys2Proof/Machine/RayMath.lean ====
section
/-! DEFINITION. The step sequences of the ray unit and the light walker (R269, R275–R280, R292, R293). Every line is one
rounding of an exact value; memory is read through a reader that the caller gives. -/

namespace Sys2Proof.Machine

/-! Lines (R269). -/

/-- The value of an f32, and its code. -/
def fv (x : Nat) : XV := FT.f32.value (x % 2 ^ 32)
def fcode (v : XV) : Nat := (FT.f32.round RM.ne false v).1

/-- One rounding, to nearest, down or up. -/
def line (v : XV) : XV := fv (fcode v)
def floorF (v : XV) : XV := fv (FT.f32.round RM.dn false v).1
def ceilF (v : XV) : XV := fv (FT.f32.round RM.up false v).1

def xm (a b : XV) : XV := (xmul a b).1
def xq (a b : XV) : XV := (xdiv a b).1
def xs (l : List XV) : XV := dyadicSum l
def lsub (a b : XV) : XV := line (xs [a, xneg b])
def lmul (a b : XV) : XV := line (xm a b)
def lquo (a b : XV) : XV := line (xq a b)
def xnum (n : Nat) : XV := .frac false n 1

/-- min and max are exact; a NaN operand gives NaN; −0 lies below +0. -/
def xmin (a b : XV) : XV := if a.isNan || b.isNan then .nan else if xlt b a || (xeq a b && b.neg) then b else a
def xmax (a b : XV) : XV := if a.isNan || b.isNan then .nan else if xlt a b || (xeq a b && a.neg) then b else a
def xle (a b : XV) : Bool := xlt a b || xeq a b

/-- Component k of a vector. -/
def at3 (v : List XV) (k : Nat) : XV := v.getD k (.zero false)

/-- The dot product: the exact sum of three exact products, rounded once. -/
def dot3 (a b : List XV) : XV := line (xs ((List.range 3).map fun k => xm (at3 a k) (at3 b k)))
def sub3 (a b : List XV) : List XV := (List.range 3).map fun k => lsub (at3 a k) (at3 b k)

/-- A ray: origin, direction, interval. -/
structure Ray where
  o : List XV
  d : List XV
  tmin : XV
  tmax : XV

def Ray.ofRegs (r : List Nat) : Ray :=
  let f (i : Nat) : XV := fv (r.getD i 0)
  ⟨[f 0, f 1, f 2], [f 3, f 4, f 5], f 6, f 7⟩

/-! Boxes. -/

/-- Child references (R273). -/
def refType (x : Nat) : Nat := x / 2 ^ 30 % 4
def refIndex (x : Nat) : Nat := x % 2 ^ 30
def refEmpty (x : Nat) : Bool := refType x == 3

/-- The near and far distances of one axis, or that the child misses (R275). -/
def boxAxis (o d lo hi : XV) : Option (XV × XV) :=
  if lo.isNan || hi.isNan || xlt hi lo then none
  else if d.isZero then (if xle lo o && xle o hi then some (.inf true, .inf false) else none)
  else
    let e1 := xq (xs [lo, xneg o]) d
    let e2 := xq (xs [hi, xneg o]) d
    if e1.isNan || e2.isNan then none else some (floorF (xmin e1 e2), ceilF (xmax e1 e2))

/-- The entry distance of a box, when the ray hits it (R275). -/
def boxHit (r : Ray) (lo hi : List XV) : Option XV :=
  if (r.o ++ r.d ++ [r.tmin, r.tmax]).any XV.isNan then none
  else do
    let x ← boxAxis (at3 r.o 0) (at3 r.d 0) (at3 lo 0) (at3 hi 0)
    let y ← boxAxis (at3 r.o 1) (at3 r.d 1) (at3 lo 1) (at3 hi 1)
    let z ← boxAxis (at3 r.o 2) (at3 r.d 2) (at3 lo 2) (at3 hi 2)
    let tn := xmax (xmax (xmax r.tmin x.1) y.1) z.1
    let tf := xmin (xmin (xmin r.tmax x.2) y.2) z.2
    if xle tn tf then some tn else none

/-- A child: its reference, its slot, its entry distance. -/
structure Child where
  ref : Nat
  slot : Nat
  dist : Option XV

/-- Puts a hit after every hit that is not farther. -/
def insertHit (c : Child) : List Child → List Child
  | [] => [c]
  | x :: r => if xlt (c.dist.getD .nan) (x.dist.getD .nan) then c :: x :: r else x :: insertHit c r

/-- RTBOX on a node: the children in sorted order (R275). -/
def boxNode (r : Ray) (node : List Byte) : List Child :=
  let f (o : Nat) : List XV := (List.range 3).map fun k => fv (fieldB node (o + 4 * k) 4)
  let cs := (List.range 4).map fun i =>
    let ref := fieldB node (112 + 4 * i) 4
    Child.mk ref i (if refEmpty ref then none else boxHit r (f (16 + 24 * i)) (f (28 + 24 * i)))
  (cs.filter (·.dist.isSome)).foldl (fun l c => insertHit c l) [] ++ cs.filter (·.dist.isNone)

/-- The result block of RTBOX (R275). -/
def boxResult (cs : List Child) : List Nat :=
  let hits := cs.filter (·.dist.isSome)
  cs.map (·.ref) ++ cs.map (fun c => c.dist.elim 0x7F800000 fcode) ++
    [hits.foldl (fun a c => a + 2 ^ c.slot) 0 + hits.length * 16 +
      ((List.range 4).zip cs).foldl (fun a p => a + p.2.slot * 2 ^ (8 + 2 * p.1)) 0]

/-! Triangles and curves. -/

/-- A hit: t, u, v, BACK, PART. -/
structure Hit where
  t : XV
  u : XV
  v : XV
  back : Bool
  part : Nat

/-- The result block of RTTRI and RTCRV (R277). -/
def hitResult (h : Option Hit) : List Nat :=
  match h with
  | none => [0x7F800000, 0, 0, 0]
  | some h => [fcode h.t, fcode h.u, fcode h.v, 1 + (if h.back then 2 else 0) + h.part * 4]

/-- The axis of the largest magnitude, ties to the lowest. -/
def bigAxis (d : List XV) : Nat :=
  let m (k : Nat) : XV := (at3 d k).withNeg false
  if xlt (m 0) (m 1) then (if xlt (m 1) (m 2) then 2 else 1) else if xlt (m 0) (m 2) then 2 else 0

/-- RTTRI on a record (R276). A NaN anywhere makes a miss. -/
def triHit (r : Ray) (rec_ : List Byte) : Option Hit :=
  let kz := bigAxis r.d
  let swap := xlt (at3 r.d kz) (.zero false)
  let kx := if swap then (kz + 2) % 3 else (kz + 1) % 3
  let ky := if swap then (kz + 1) % 3 else (kz + 2) % 3
  let dz := at3 r.d kz
  let sx := lquo (at3 r.d kx) dz
  let sy := lquo (at3 r.d ky) dz
  let sz := lquo (xnum 1) dz
  let shear (i : Nat) : XV × XV × XV :=
    let p := sub3 ((List.range 3).map fun k => fv (fieldB rec_ (12 * i + 4 * k) 4)) r.o
    let pz := at3 p kz
    (line (xs [at3 p kx, xneg (xm sx pz)]), line (xs [at3 p ky, xneg (xm sy pz)]), lmul sz pz)
  let (ax, ay, az) := shear 0
  let (bx, b_y, bz) := shear 1
  let (cx, cy, cz) := shear 2
  let u := line (xs [xm cx b_y, xneg (xm cy bx)])
  let v := line (xs [xm ax cy, xneg (xm ay cx)])
  let w := line (xs [xm bx ay, xneg (xm b_y ax)])
  let zero := XV.zero false
  let det := line (xs [u, v, w])
  let tt := line (xs [xm u az, xm v bz, xm w cz])
  let t := lquo tt det
  let uu := lquo v det
  let vv := lquo w det
  let back := xlt det zero
  if (r.o ++ r.d ++ [sx, sy, sz, ax, ay, az, bx, b_y, bz, cx, cy, cz, u, v, w, det, tt, t, uu, vv]).any XV.isNan then none
  else if [u, v, w].any (fun x => xlt x zero) && [u, v, w].any (fun x => xlt zero x) then none
  else if det.isZero then none
  else if back && bit (fieldB rec_ 36 4) 0 then none
  else if xle r.tmin t && xlt t r.tmax then some ⟨t, uu, vv, back, 0⟩ else none

/-- The body of the round cone: the hit, when the ray meets it between the ends (R278). -/
def coneBody (m0 m1 m2 m3 m5 dd rr ra d2 : XV) : Option (XV × XV) :=
  let two := xnum 2
  let zero := XV.zero false
  if !xlt zero d2 then none
  else
    let g2 := line (xs [xm d2 dd, xneg (xm m2 m2)])
    let g1 := line (xs [xm d2 m3, xneg (xm m1 m2), xm (xm m2 rr) ra])
    let g0 := line (xs [xm d2 m5, xneg (xm m1 m1), xm (xm (xm two m1) rr) ra, xneg (xm (xm m0 ra) ra)])
    let h := line (xs [xm g1 g1, xneg (xm g0 g2)])
    if xlt zero g2 && xle zero h then
      let s := line (xsqrt h).1
      let t := line (xq (xs [xneg s, xneg g1]) g2)
      let y := line (xs [m1, xneg (xm ra rr), xm t m2])
      if xlt zero y && xlt y d2 then some (t, lquo y d2) else none
    else none

/-- RTCRV on a record (R278). -/
def curveHit (r : Ray) (rec_ : List Byte) : Option Hit :=
  let f (i : Nat) : XV := fv (fieldB rec_ (4 * i) 4)
  let pa := [f 0, f 1, f 2]
  let ra := f 3
  let pb := [f 4, f 5, f 6]
  let rb := f 7
  let zero := XV.zero false
  let bad (x : XV) : Bool := x.isNan || x.isInf || xlt x zero
  let ba := sub3 pb pa
  let oa := sub3 r.o pa
  let ob := sub3 r.o pb
  let rr := lsub ra rb
  let m0 := dot3 ba ba
  let m1 := dot3 ba oa
  let m2 := dot3 ba r.d
  let m3 := dot3 r.d oa
  let m5 := dot3 oa oa
  let m6 := dot3 ob r.d
  let m7 := dot3 ob ob
  let dd := dot3 r.d r.d
  let d2 := line (xs [m0, xneg (xm rr rr)])
  if bad ra || bad rb || !xlt zero dd then none
  else
    let hit : Option (XV × XV × Nat) :=
      match coneBody m0 m1 m2 m3 m5 dd rr ra d2 with
      | some (t, u) => some (t, u, 0)
      | none =>
        let cap (m e : XV) (ra : XV) : XV := line (xs [xm m m, xneg (xm dd (xs [e, xneg (xm ra ra)]))])
        let h1 := cap m3 m5 ra
        let h2 := cap m6 m7 rb
        let ending (m h : XV) : XV := line (xq (xs [xneg m, xneg (line (xsqrt h).1)]) dd)
        let c1 : XV × XV × Nat := if xlt zero h1 then (ending m3 h1, zero, 1) else (.inf false, zero, 1)
        let c2 := if xlt zero h2 && xlt (ending m6 h2) c1.1 then (ending m6 h2, xnum 1, 2) else c1
        if c2.1 == .inf false then none else some c2
    match hit with
    | some (t, u, p) => if xle r.tmin t && xlt t r.tmax then some ⟨t, u, zero, false, p⟩ else none
    | none => none

/-! Reading. -/

/-- Why a lane's sequence does not go on. -/
inductive RayStop where
  | trap (c : Cause) (va : Nat)
  | park (code idx va : Nat)
  | units
  | world (pa : Nat)

/-- A sequence over the machine: effects made before a stop stand. -/
abbrev RayM (α : Type) := ExceptT RayStop (StateM State) α

/-- A reader: the bytes at an address, and whether one is poisoned. -/
abbrev Reader := Nat → Nat → RayM (List Byte × Bool)

/-! Traversal. -/

/-- The ray-state block between visits (R279); `own` holds the spills of a segment that uses no scratchpad (R301). -/
structure Trav where
  mode : Nat
  o : List Nat
  d : List Nat
  tmin : Nat
  tmax : Nat
  stack : List Nat
  node : Nat
  best : Nat
  prim : Nat
  u : Nat
  v : Nat
  spill : Nat
  started : Bool
  done : Bool
  hit : Bool
  back : Bool
  err : Nat
  spilled : Nat
  depth : Nat
  kind : Nat
  low : Nat
  nodes : Nat
  own : Option (List (List Nat))

def Trav.ofRegs (mode : Nat) (r : List Nat) (own : Option (List (List Nat))) : Trav :=
  let g (i : Nat) : Nat := r.getD i 0
  let s := g 22
  { mode := mode, o := [g 0, g 1, g 2], d := [g 3, g 4, g 5], tmin := g 6, tmax := g 7,
    stack := (List.range 8).map fun i => g (8 + i), node := g 16, best := g 17, prim := g 18, u := g 19, v := g 20,
    spill := g 21, started := bit s 31, done := bit s 30, hit := bit s 29, back := bit s 28, err := bits s 27 24,
    spilled := bits s 23 16, depth := bits s 15 12, kind := bits s 11 8, low := bits s 7 0, nodes := g 23, own := own }

def Trav.toRegs (x : Trav) : List Nat :=
  let b (c : Bool) (i : Nat) : Nat := if c then 2 ^ i else 0
  x.o ++ x.d ++ [x.tmin, x.tmax] ++ x.stack ++ [x.node, x.best, x.prim, x.u, x.v, x.spill,
    b x.started 31 + b x.done 30 + b x.hit 29 + b x.back 28 + x.err * 2 ^ 24 + x.spilled * 2 ^ 16 + x.depth * 2 ^ 12 +
      x.kind * 2 ^ 8 + x.low, x.nodes]

/-- The end of a traversal with an error (R279). -/
def Trav.fail (x : Trav) (e : Nat) : Trav := { x with err := e, done := true }

/-- The start of a ray (R280). -/
def Trav.start (x : Trav) : Trav :=
  if x.started then x
  else { x with
    started := true, done := false, hit := false, back := false, err := 0, spilled := 0, depth := 0, kind := 0, low := 0,
    best := x.tmax, prim := 0xFFFFFFFF, u := 0, v := 0, node := 0, nodes := 0 }

/-- The direction of the tests (R280): to the endpoint in .reconn. -/
def Trav.ray (x : Trav) : Ray :=
  let o := x.o.map fv
  let d := x.d.map fv
  ⟨o, if x.mode == 2 then sub3 d o else d, fv x.tmin, fv x.best⟩

/-- Spill slots: a store and a load of 16 bytes at a scratchpad offset; a load answers none for a poisoned granule. -/
structure Spills where
  size : Nat
  store : Nat → List Byte → RayM Unit
  load : Nat → RayM (Option (List Byte))

/-- Push (R280). -/
def Trav.push (sp : Spills) (x : Trav) (ref : Nat) : RayM Trav := do
  let put (x : Trav) : Trav := { x with stack := setAt x.stack x.depth ref, depth := x.depth + 1 }
  if x.done then return x
  else if x.depth != 8 then return put x
  else if x.spilled == 255 then return x.fail 3
  else
    let low := x.stack.take 4
    let y := { x with stack := x.stack.drop 4 ++ x.stack.drop 4, depth := 4, spilled := x.spilled + 1 }
    match x.own with
    | some l => return put { y with own := some (low :: l) }
    | none =>
      if x.spill % 16 != 0 || sp.size < x.spill + 16 then return x.fail 2
      else
        sp.store x.spill (low.flatMap (toBytes 4))
        return put { y with spill := x.spill + 16 }

/-- The top entry of the short stack. -/
def Trav.top (x : Trav) : Trav := { x with depth := x.depth - 1, node := x.stack.getD (x.depth - 1) 0xFFFFFFFF }

/-- NODE := Pop() (R280). -/
def Trav.pop (sp : Spills) (x : Trav) : RayM Trav := do
  if x.depth != 0 then return x.top
  else if x.spilled == 0 then return { x with done := true, node := 0xFFFFFFFF }
  else
    match x.own with
    | some l =>
      return ({ x with stack := l.headD [] ++ x.stack.drop 4, depth := 4, spilled := x.spilled - 1, own := some (l.drop 1) } : Trav).top
    | none =>
      let a := (x.spill + 2 ^ 32 - 16) % 2 ^ 32
      if a % 16 != 0 || sp.size < a + 16 then return x.fail 2
      else
        match ← sp.load a with
        | none => return x.fail 4
        | some bs =>
          return ({ x with
            stack := ((List.range 4).map fun i => fieldB bs (4 * i) 4) ++ x.stack.drop 4
            depth := 4, spilled := x.spilled - 1, spill := a } : Trav).top

/-- Pushes the references of the sorted positions k down to 1. -/
def Trav.pushAll (sp : Spills) : List Child → Trav → RayM Trav
  | [], x => pure x
  | c :: r, x => do
    let y ← x.push sp c.ref
    if y.done then return y else Trav.pushAll sp r y

/-- The records of a leaf from record i (R280). -/
def Trav.leaf (rd : Reader) (base size first count : Nat) : Nat → Trav → RayM Trav
  | 0, x => pure x
  | n + 1, x => do
    let i := count - (n + 1)
    let (bs, bad) ← rd ((base + 16 + size * i) % 2 ^ 64) size
    if bad then return x.fail 4
    else
      match if size == 48 then triHit x.ray bs else curveHit x.ray bs with
      | none => Trav.leaf rd base size first count n x
      | some h =>
        let y := { x with
          best := fcode h.t, prim := (first + i) % 2 ^ 32, u := fcode h.u, v := fcode h.v, hit := true, back := h.back
          kind := if size == 48 then 1 else 2 }
        if x.mode != 0 then return { y with done := true } else Trav.leaf rd base size first count n y

/-- One visit (R280). -/
def Trav.visit (rd : Reader) (sp : Spills) (bvh : Nat) (x0 : Trav) : RayM Trav := do
  let x := { x0 with nodes := min (x0.nodes + 1) 0xFFFFFFFF }
  let a := (bvh + 128 * refIndex x.node) % 2 ^ 64
  if refType x.node == 0 then
    let (bs, bad) ← rd a 128
    if bad then return x.fail 4
    else
      let hits := (boxNode x.ray bs).filter (·.dist.isSome)
      match hits with
      | [] => x.pop sp
      | c :: r =>
        let y ← Trav.pushAll sp r.reverse x
        return if y.done then y else { y with node := c.ref }
  else
    let (hd, bad) ← rd a 16
    if bad then return x.fail 4
    else
      let count := fieldB hd 0 4
      if 16 < count then return x.fail 1
      else
        let y ← Trav.leaf rd a (if refType x.node == 1 then 48 else 32) (fieldB hd 4 4) count count x
        if y.done then return y else y.pop sp

/-- The loop of R280 with a budget; the first argument bounds its turns, which also pop empty references. -/
def Trav.run (rd : Reader) (sp : Spills) (bvh : Nat) : Nat → Nat → Trav → RayM Trav
  | 0, _, x => pure x
  | f + 1, n, x => do
    if x.done || n == 0 then return x
    else if refEmpty x.node then
      let y ← x.pop sp
      Trav.run rd sp bvh f n y
    else
      let y ← x.visit rd sp bvh
      Trav.run rd sp bvh f (n - 1) y

/-- Turns that a traversal of a budget can take at most: each visit pushes at most three references. -/
def travTurns (n : Nat) : Nat := 5 * n + 2000

/-! The light tree (R292, R293). -/

/-- f32 values of the walk: the largest below 1, and 2^126. -/
def belowOne : XV := fv 0x3F7FFFFF

/-- Imp(j) and the node (R293). -/
def lightNode (rd : Reader) (base j : Nat) : RayM (List Byte × Bool) := rd ((base + 32 * (j % 2 ^ 31)) % 2 ^ 64) 32

def importance (p : List XV) (nd : List Byte) : XV :=
  let f (i : Nat) : XV := fv (fieldB nd (4 * i) 4)
  let dv := sub3 [f 0, f 1, f 2] p
  let sq (k : Nat) : XV := lmul (at3 dv k) (at3 dv k)
  let s2 := line (xs [sq 0, sq 1])
  let d2 := line (xs [s2, sq 2])
  let rsq := lmul (f 3) (f 3)
  let i := lquo (f 4) (xmax d2 rsq)
  xmin (if xlt (.zero false) i then i else .zero false) (.frac false (2 ^ 126) 1)

/-- A place in the walk: reference, pdf, draw, whether a node read was poisoned. -/
structure Walk where
  j : Option Nat
  pdf : XV
  u : XV
  bad : Bool

/-- The levels of the walk left (R293). -/
def lightWalk (rd : Reader) (base : Nat) (p : List XV) : Nat → Walk → RayM Walk
  | 0, w => pure (if w.j.any fun j => bit j 31 then w else { w with j := none, pdf := .zero false })
  | n + 1, w => do
    match w.j with
    | none => return w
    | some j =>
      if bit j 31 then return w
      else
        let (nd, b0) ← lightNode rd base j
        let l := fieldB nd 20 4
        let r := fieldB nd 24 4
        let (nl, b1) ← lightNode rd base l
        let (nr, b2) ← lightNode rd base r
        let il := importance p nl
        let ir := importance p nr
        let s := line (xs [il, ir])
        let bad := w.bad || b0 || b1 || b2
        if s.isZero then return { w with j := none, pdf := .zero false, bad := bad }
        else
          let pl := lquo il s
          let y : Walk :=
            if xlt w.u pl then ⟨some l, lmul w.pdf pl, lquo w.u pl, bad⟩
            else
              let a := lsub w.u pl
              let b := lsub (xnum 1) pl
              ⟨some r, lmul w.pdf b, lquo a b, bad⟩
          lightWalk rd base p n { y with u := xmin y.u belowOne }

/-- The start of the walk: the draw made a number of [0, 1). -/
def startWalk (start : Nat) (u : XV) : Walk :=
  ⟨some start, xnum 1, xmin (xmax (if u.isNan then .zero false else u) (.zero false)) belowOne, false⟩

/-- LTWALK's result block (R293). -/
def walkResult (w : Walk) : List Nat := [w.j.elim 0xFFFFFFFF fun j => j % 2 ^ 31, fcode w.pdf, fcode w.u]

end Sys2Proof.Machine
end

