-- ==== Sys2Proof/Machine/Ray.lean ====
section
/-! DEFINITION. The ray unit (R270–R284, R415, R417): RTBOX, RTTRI, RTCRV, RTRACE, LTWALK as they issue into the request
queue, the events that start a traversal and complete an entry; and RNG. -/

namespace Sys2Proof.Machine

/-! Issue. -/

/-- Cuts a range at lines. -/
def lineCuts (va n : Nat) : List (Nat × Nat) :=
  (List.range ((va % 128 + n + 127) / 128)).map fun i =>
    let lo := max va (va / 128 * 128 + 128 * i)
    let hi := min (va + n) (va / 128 * 128 + 128 * (i + 1))
    (lo % 2 ^ 64, hi - lo)

/-- Whether the lines of a record meet a trapping condition (R198). -/
def recordIs (s : State) (T : Team) (bad : Tr) (r : Nat × Nat) : Bool := (lineCuts r.1 r.2).any fun p => teamTr s T .read p.1 == bad

/-- A ray-unit word (R270, R415): its blocks and operands, the operands read at issue, the address it can check there, the record each
lane reads first, whose traps outrank POISON (R198, R272), and its entry in the request queue, at which the gang waits. -/
def rayWord (opc : Nat) (f : SysW) (srcs dsts : List Regs) (uni : List (BitVec 8)) (align : Nat) (addr : WCtx → Nat → Nat)
    (first : WCtx → Nat → List (Nat × Nat)) (vals : WCtx → Nat → List Nat) (s : State) : Host.Outcome State Fault Refusal :=
  issue opc f.g s fun c0 => do
    let blocks := (srcs ++ dsts).filter fun r => 3 ≤ r.n
    trapIf (!(blocks.all fun r => isVector r.code) || !uni.all uniOrZ) .illegalEnc
    let c ← c0.open srcs dsts false
    if c.lanes == 0 then .ok (c.retire c.W f.bnd)
    else do
      trapLane ((lanesOf c.lanes).map fun l => (l, addr c l)) (fun a => a % align != 0) .misalign
      let reads (bad : Tr) : List (Nat × Nat) := (lanesOf c.lanes).flatMap fun l =>
        ((first c l).filter (recordIs c.s c.T bad)).map fun r => (l, r.1)
      trapLane (reads .miss) (fun _ => true) .extentMiss
      trapLane (reads .perm) (fun _ => true) .perm
      c.checkPoison srcs
      let C := core? c.s c.T.core
      waitIf (Config.rayQueue ≤ C.elim 0 (·.rays.length)) .unit c0.s
      let id := (C.elim [] (·.rays)).foldl (fun a r => max a (r.id + 1)) 0
      let op : RayOp :=
        { id := id, team := c.t, wave := c.w, gang := c.gang, word := f, op := BitVec.ofNat 8 opc, lanes := c.lanes,
          vals := (lanesOf c.lanes).map fun l => (l, vals c l), started := false, taken := 0 }
      let W := (c.W.holdGang c.gang (.async id f.bnd .unit)).setLast c.gang
      .ok (modCore (c.put W) c.T.core fun C => { C with rays := C.rays ++ [op] })

/-- RTBOX (R275). -/
def execRtbox (f : SysW) (s : State) : Host.Outcome State Fault Refusal :=
  rayWord 0xB0 f [.block f.a 8 8, .pair f.b] [.block f.d 9 4] [] 128 (fun c l => c.reg64 f.b l)
    (fun c l => [(c.reg64 f.b l, 128)]) (fun c l => [c.reg64 f.b l]) s

/-- RTTRI (R276). -/
def execRttri (f : SysW) (s : State) : Host.Outcome State Fault Refusal :=
  rayWord 0xB1 f [.block f.a 8 8, .pair f.b] [.block f.d 4 4] [] 16 (fun c l => c.reg64 f.b l)
    (fun c l => [(c.reg64 f.b l, 48)]) (fun c l => [c.reg64 f.b l]) s

/-- RTCRV (R278). -/
def execRtcrv (f : SysW) (s : State) : Host.Outcome State Fault Refusal :=
  rayWord 0xB2 f [.block f.a 8 8, .pair f.b] [.block f.d 4 4] [] 16 (fun c l => c.reg64 f.b l)
    (fun c l => [(c.reg64 f.b l, 32)]) (fun c l => [c.reg64 f.b l]) s

/-- n registers of a lane from a block. -/
def Wave.block (W : Wave) (code : BitVec 8) (n lane : Nat) : List Nat :=
  (List.range n).map fun i => (smGetD W.v (32 * (code.toNat + i) + lane) 0).toNat

/-- What the next visit of a traversal reads first (R280): nothing when it is done, has no budget or pops an empty reference. -/
def traceFirst (bvh : Nat) (x : Trav) (budget : Nat) : List (Nat × Nat) :=
  if x.done || budget == 0 || refEmpty x.node then []
  else [((bvh + 128 * refIndex x.node) % 2 ^ 64, if refType x.node == 0 then 128 else 16)]

/-- RTRACE (R279, R280): the budget is capped at 4,096. -/
def execRtrace (f : SysW) (s : State) : Host.Outcome State Fault Refusal :=
  let imm := immFlag f.var
  let b := if imm then [] else [Regs.one f.b]
  rayWord 0xB3 f ([.block f.d 24 8, .pair f.a] ++ b) [.block f.d 24 8] ([f.a] ++ if imm then [] else [f.b]) 128
    (fun c l => c.reg64 f.a l)
    (fun c l => traceFirst (c.reg64 f.a l) (Trav.ofRegs 0 (c.W.block f.d 24 l) none).start
      (min 4096 (if imm then (SysW.imm f).toNat else c.reg f.b l)))
    (fun c l => [c.reg64 f.a l, min 4096 (if imm then (SysW.imm f).toNat else c.reg f.b l)]) s

/-- LTWALK (R293). -/
def execLtwalk (f : SysW) (s : State) : Host.Outcome State Fault Refusal :=
  rayWord 0xBA f [.block f.a 4 4, .pair f.b, .one f.c] [.block f.d 3 4] [f.b] 1 (fun _ _ => 0)
    (fun c l => if bit (c.reg f.c l) 31 then [] else [((c.reg64 f.b l + 32 * (c.reg f.c l % 2 ^ 31)) % 2 ^ 64, 32)])
    (fun c l => [c.reg64 f.b l, c.reg f.c l]) s

/-! Reading for a wave (R272). -/

/-- A wave asks another module for the line of an address (R484). -/
def farAsk (s : State) (T : Team) (va pa t w : Nat) : State :=
  match teamTr s T .read va with
  | .ok _ key sec gen =>
    let b := MemReq.blank ⟨s.moduleNo, 0, 0, 0, 0⟩ (.wave t w)
    askLine s { b with asid := T.asid, gen := gen, key := key, sec := sec, va := va, pa := pa }
  | _ => s

/-- A piece of a read: forwarded bytes, a line of the load cache, or the home, which also fills the cache (R353, R358). A
byte whose latest queued write is an atomic, earlier reads not yet performed, writes of the core on their way to the line and an
acquire that is not over are waited for (R354, R357–R359). -/
def rayPiece (t w : Nat) (va pa n : Nat) : RayM (List Byte × Bool) := do
  let s ← get
  match team? s t, wave? s t w with
  | some T, some W => do
    let q := queuedReqs s W.storeQ
    let fs := (List.range n).map fun i => fwdGlobal s q (pa + i)
    if fs.contains .atomic || readsPending s (.wave t w) || lineInFlight s T.core pa || acquiring s (.wave t w) then throw .units
    let line := loc s pa / 128
    let old := if s.choice % 2 == 0 then (core? s T.core).bind fun C => smGet? C.lcache line else none
    let ln ← match old with
      | some l => pure l
      | none =>
        if !remote s pa then pure (homeLine s pa)
        else match farLine? s (.wave t w) pa with
          | some l => pure ⟨l.bytes, l.psn⟩
          | none => do
            set (farAsk s T va pa t w)
            throw .units
    let s1 := useFar (if old.isSome then s else dropLines s T.core fun l => l == line) (.wave t w) pa
    set (modCore s1 T.core fun C => C.fillLine line ln s.choice)
    let o := pa % 128
    let bs := ((List.range n).zip fs).map fun p => match p.2 with
      | .val b => b
      | _ => ln.bytes.getD (o + p.1) 0
    let bad := ((List.range n).zip fs).any fun p => match p.2 with
      | .val _ => false
      | _ => ln.psn.getLsbD ((o + p.1) / 16)
    return (bs, bad)
  | _, _ => throw (.trap .extentMiss va)

/-- One piece translated and judged (R198, R348, R350, R488). -/
def rayPieceAt (t w : Nat) (va n : Nat) : RayM (List Byte × Bool) := do
  let s ← get
  match team? s t with
  | none => throw (.trap .extentMiss va)
  | some T =>
    match teamTr s T .read va with
    | .miss => throw (.trap .extentMiss va)
    | .perm => throw (.trap .perm va)
    | .park code idx => throw (.park code idx va)
    | .ok pa key sec gen =>
      match homeCheck s pa T.asid gen key sec T.secure false with
      | .perform => rayPiece t w va pa n
      | .nack => throw (.park 0x42 ((extentAt T.ext va).getD 0xFF) va)
      | .refuse | .world => throw (.trap .perm va)
      | .discard =>
        let (bs, s1) := freeBytes (countDiscard s pa) n
        set s1
        return (bs, true)

/-- The reader of a wave's lane: `align` is the alignment its records must have. A line that traps outranks one that parks (R198). -/
def rayReader (t w align : Nat) : Reader := fun va n => do
  if va % align != 0 then throw (.trap .misalign va)
  let s ← get
  let is (bad : Tr) : Bool := (team? s t).any fun T => recordIs s T bad (va, n)
  if is .miss then throw (.trap .extentMiss va)
  if is .perm then throw (.trap .perm va)
  (lineCuts va n).foldlM (fun a p => do
    let (bs, bad) ← rayPieceAt t w p.1 p.2
    return (a.1 ++ bs, a.2 || bad)) ([], false)

/-- Spill slots in the wave's own scratchpad (R281): stores enter its store queue, loads see it. -/
def raySpills (s : State) (t w : Nat) : Spills where
  size := (team? s t).elim 0 Team.scratchSize
  store := fun a bs => modify fun s =>
    let after := undoneReads s (.wave t w)
    modWave s t w fun W => { W with storeQ := W.storeQ ++ [.scratch a bs false after] }
  load := fun a => do
    let s ← get
    let (s1, ok) := needUnits s t false (regionsOf a 16)
    set s1
    match team? s1 t, wave? s1 t w with
    | some T, some W =>
      let fs := (List.range 16).map fun i => fwdScratch W.storeQ t t (a + i)
      if fs.all Option.isSome then return some (fs.map fun b => b.getD 0)
      else if !ok then throw .units
      else if scratchMarked T a 16 then return none
      else return some (((scratchGet T a 16).zip fs).map fun p => p.2.getD p.1)
    | _, _ => return none

/-! Lanes. -/

/-- What a lane writes: registers from d on, whether they are poisoned, and the predicate of RTRACE. -/
structure RayOut where
  regs : List Nat
  bad : Bool
  pd : Bool

/-- The work of one lane of an entry. -/
def rayLane (s0 : State) (r : RayOp) (W : Wave) (lane : Nat) (vals : List Nat) : RayM RayOut := do
  let f := r.word
  let a := vals.getD 0 0
  let b := vals.getD 1 0
  match r.op.toNat with
  | 0xB0 => do
    let (nd, bad) ← rayReader r.team r.wave 128 a 128
    return ⟨boxResult (boxNode (Ray.ofRegs (W.block f.a 8 lane)) nd), bad, false⟩
  | 0xB1 => do
    let (rec_, bad) ← rayReader r.team r.wave 16 a 48
    return ⟨hitResult (triHit (Ray.ofRegs (W.block f.a 8 lane)) rec_), bad, false⟩
  | 0xB2 => do
    let (rec_, bad) ← rayReader r.team r.wave 16 a 32
    return ⟨hitResult (curveHit (Ray.ofRegs (W.block f.a 8 lane)) rec_), bad, false⟩
  | 0xB3 => do
    let x := Trav.ofRegs (f.var.toNat % 4) (W.block f.d 24 lane) none
    if x.started && x.done then return ⟨x.toRegs, false, true⟩
    let y ← Trav.run (rayReader r.team r.wave 16) (raySpills s0 r.team r.wave) a (travTurns b) b x.start
    return ⟨y.toRegs, false, y.done⟩
  | _ => do
    let p := W.block f.a 4 lane
    let w ← lightWalk (rayReader r.team r.wave 32) a ((p.take 3).map fv) 32 (startWalk b (fv (p.getD 3 0)))
    return ⟨walkResult w, w.bad, false⟩

/-- The lanes in ascending order; the state passes through, and each answers or stops. -/
def rayLanes (s0 : State) (r : RayOp) (W : Wave) : List (Nat × List Nat) → State → List (Nat × Except RayStop RayOut) × State
  | [], s => ([], s)
  | (l, vals) :: rest, s =>
    let (x, s1) := (rayLane s0 r W l vals).run s
    let (xs, s2) := rayLanes s0 r W rest s1
    ((l, x) :: xs, s2)

/-- The trap of R423 among the lanes' stops: the highest cause, of the lowest lane. -/
def rayTrap (xs : List (Nat × Except RayStop RayOut)) : Option (Cause × Nat) :=
  let of (c : Cause) : Option (Cause × Nat) := xs.findSome? fun x => match x.2 with
    | .error (.trap d va) => if d == c then some (d, va) else none
    | _ => none
  (of .misalign).orElse fun _ => (of .extentMiss).orElse fun _ => of .perm

/-- A lane's results in the wave. -/
def putRay (f : SysW) (op : BitVec 8) (W : Wave) (lane : Nat) (o : RayOut) : Wave :=
  let W1 := ((List.range o.regs.length).zip o.regs).foldl (fun W p =>
    let c := codeAt f.d p.1
    let W := W.putReg c lane p.2
    if o.bad then W.markReg c lane else W) W
  if op == 0xB3#8 then W1.putPred (f.x.extractLsb' 9 3).toNat (1#32 <<< lane) (if o.pd then BitVec.allOnes 32 else 0) else W1

/-! The events. -/

/-- Traversal slots a core has lent to visibility segments (R420). -/
def lentBy (s : State) (core : Nat) : Nat :=
  (smGet? s.clusters (clusterOf core)).elim 0 fun C =>
    (C.passes.flatMap fun P => P.px.flatMap fun x => x.cands.filter fun c => c.seg.any fun g => g.core == some core).length

/-- Traversal slots in use on a core (R417, R420). -/
def slotsUsed (s : State) (core : Nat) (C : Core) : Nat := C.rays.foldl (fun a r => a + r.taken) (lentBy s core)

/-- RTRACE_START (R417). -/
def execRtraceStart (core n : Nat) (s : State) : Host.Outcome State Fault Refusal :=
  finishEvent s do
    let C ← need (core? s core)
    let r ← need C.rays[n]?
    let k := (lanesOf r.lanes).length
    needs (r.op == 0xB3#8 && !r.started && !C.stopped && !C.swapping && C.active == some r.team &&
      slotsUsed s core C + k ≤ Config.traversalSlots)
    .ok (modCore s core fun C => { C with rays := setAt C.rays n { r with started := true, taken := k } })

/-- RAY_UNIT_COMPLETE (R282, R415): every lane of an entry is done or parked. -/
def execRayUnitComplete (core n : Nat) (s : State) : Host.Outcome State Fault Refusal :=
  finishEvent s do
    let C ← need (core? s core)
    let r ← need C.rays[n]?
    let W ← need (wave? s r.team r.wave)
    needs ((r.op != 0xB3#8 || r.started) && !C.stopped)
    let (xs, s1) := rayLanes s r W r.vals s
    let out (s : State) : State := modCore s core fun C => { C with rays := C.rays.filter fun q => q.id != r.id }
    match rayTrap xs with
    | some (c, va) => .ok (takeTrap (out s1) r.team r.wave r.gang c (BitVec.ofNat 64 va))
    | none =>
      if xs.any fun x => match x.2 with
          | .error .units => true
          | _ => false then .ok s1
      else
        let s2 := modWave (out s1) r.team r.wave fun W => xs.foldl (fun W x => match x.2 with
          | .ok o => putRay r.word r.op W x.1 o
          | .error _ => W) W
        let parked : List ParkLane := xs.filterMap fun x => match x.2 with
          | .error (.park code idx va) => some ⟨x.1, va, code, idx⟩
          | _ => none
        if parked.isEmpty then .ok (wakeTeam (retireHeld s2 r.team r.wave r.gang r.word.bnd) r.team)
        else .ok (parkWave (modWave s2 r.team r.wave fun W => W.holdGang r.gang .free) r.team r.wave r.gang .read parked)

/-! RNG (R284). -/

/-- Four rounds of the generator. -/
def rngOut (key s c : Nat) : Nat :=
  let m := 2 ^ 32
  let rotl (x k : Nat) : Nat := (x * 2 ^ k + x / 2 ^ (32 - k)) % m
  let (x, y) := (List.range 4).foldl (fun a i =>
    let x := Nat.xor a.1 (rotl a.2 7) * 0xA3B195CD % m
    let y := Nat.xor ((a.2 + x + key / 2 ^ (32 * (i % 2)) % m) % m) (x / 2 ^ 15)
    (x, y)) (c % m, s % m)
  Nat.xor x y

/-- The draw in [0, 1). -/
def rngUnif (out : Nat) : Nat := fcode (.frac false (out / 256) (2 ^ 24))

/-- RNG (R284). -/
def execRng (f : SysW) (s : State) : Host.Outcome State Fault Refusal :=
  let x : AluSpec :=
    { a := some (f.a, 2), b := some (f.b, 1), c := some (f.c, 1), imm := 0, dst := some (f.d, 1), pdst := none, psrc := none,
      sgn := false, carry := false, bad := !uniOrZ f.a, idle := none,
      op := fun i => LaneOut.ofInt (let o := rngOut i.a i.b i.c; if f.var.getLsbD 0 then rngUnif o else o) }
  issue 0xB4 f.g s (x.wave f.bnd) (fun _ => offProfile 0xB4) (x.lane f.g)

end Sys2Proof.Machine
end

