-- ==== Sys2Proof/Machine/Reservoir.lean ====
section
/-! DEFINITION. Reservoirs (R285–R291): RSVUPD, RSVMRG and RSVNRM as functions on records of eight words, which the reuse
passes share, and the reservoir store: RSVLD and RSVST. -/

namespace Sys2Proof.Machine

/-! Records (R285). -/

/-- A record's words. -/
def rw (r : List Nat) (i : Nat) : Nat := r.getD i 0

/-- The null record (R290). -/
def nullRecord : List Nat := [0xFFFFFFFF, 0, 0, 0, 2 ^ 17, 0, 0, 0]

/-- M, and FLAGS with bits changed. -/
def rwM (r : List Nat) : Nat := rw r 4 % 65536
def rwFlags (r : List Nat) : Nat := rw r 4 / 65536 % 65536
def setFlag (fl i : Nat) (b : Bool) : Nat := fl - (if bit fl i then 2 ^ i else 0) + if b then 2 ^ i else 0
def rwNull (r : List Nat) : Bool := bit (rwFlags r) 1
def rwAge (r : List Nat) : Nat := rwFlags r / 256
def packMF (m fl : Nat) : Nat := m + 65536 * fl

/-- A weight, target or draw: NaN, infinite or below 0 counts as 0, and says so. -/
def weight (x : Nat) : XV × Bool :=
  let v := fv x
  if v.isNan || v.isInf || xlt v (.zero false) then (.zero false, true)
  else if v.isZero then (.zero false, false) else (v, false)

/-- Whether the draw u takes a weight w of the sum (R286, R287). -/
def selects (w : XV) (u wsum : Nat) : Bool := xlt (.zero false) w && xlt (lmul (fv u) (fv wsum)) w

/-- What an update writes: WSUM, M and FLAGS always, the sample when it is selected. -/
structure RsvOut where
  wsum : Nat
  mf : Nat
  sample : Option (List (Nat × Nat))

def RsvOut.writes (o : RsvOut) : List (Nat × Nat) := [(2, o.wsum), (4, o.mf)] ++ o.sample.getD []

/-- A record with some words written. -/
def putWords (r : List Nat) (ws : List (Nat × Nat)) : List Nat := ws.foldl (fun r p => setAt r p.1 p.2) r

/-- The payload words of a record. -/
def payload (r : List Nat) : List (Nat × Nat) := [(5, rw r 5), (6, rw r 6), (7, rw r 7)]

/-- RSVUPD (R286). -/
def rsvUpd (r q : List Nat) (w u : Nat) : RsvOut :=
  let (wv, bad) := weight w
  let wsum := fcode (xs [fv (rw r 2), wv])
  let m := min (rwM r + 1) 65535
  let fl := setFlag (setFlag (rwFlags r) 0 false) 2 (bit (rwFlags r) 2 || bad)
  if selects wv u wsum then
    ⟨wsum, packMF m (setFlag (fl % 256) 1 (rw q 0 == 0xFFFFFFFF)), some ([(0, rw q 0), (1, rw q 1)] ++ payload q)⟩
  else ⟨wsum, packMF m fl, none⟩

/-- RSVMRG (R287): p is phat_q_at_r, `cap` the cap taken whole. -/
def rsvMrg (r q : List Nat) (p u cap : Nat) : RsvOut :=
  let mq := min (rwM q) cap
  let pv0 := fv p
  let bad := pv0.isNan || pv0.isInf || xlt pv0 (.zero false)
  let pc := if bad || rwNull q then 0 else p
  let w0 := lmul (lmul (fv pc) (fv (rw q 3))) (xnum mq)
  let bad2 := w0.isNan || w0.isInf
  let w := if bad2 then XV.zero false else w0
  let wsum := fcode (xs [fv (rw r 2), w])
  let m := min (rwM r + mq) 65535
  let fl := setFlag (setFlag (rwFlags r) 0 false) 2 (bit (rwFlags r) 2 || bad || bad2)
  if selects w u wsum then
    ⟨wsum, packMF m (setFlag (fl % 256) 1 false + 256 * rwAge q), some ([(0, rw q 0), (1, pc)] ++ payload q)⟩
  else ⟨wsum, packMF m fl, none⟩

/-- RSVNRM (R288): the words it writes. -/
def rsvNrm (r : List Nat) : List (Nat × Nat) :=
  let zero := XV.zero false
  let fl := setFlag (rwFlags r) 0 true
  let phat := fv (rw r 1)
  let none_ : List (Nat × Nat) := [(3, 0), (0, 0xFFFFFFFF), (4, packMF (rwM r) (setFlag fl 1 true))]
  if xlt zero phat && xlt zero (fv (rw r 2)) && 0 < rwM r then
    let w := lquo (fv (rw r 2)) (lmul (xnum (rwM r)) phat)
    if w.isNan || w.isInf then none_ else [(3, fcode w), (4, packMF (rwM r) fl)]
  else none_

/-! The register words. -/

/-- POISON on the registers a word reads of its blocks, named by the block: the first that the lowest marked lane finds
(R423, R445). -/
def WCtx.checkParts (c : WCtx) (parts : List (BitVec 8 × List Nat)) : Except Stop Unit :=
  let m (p : BitVec 8 × List Nat) : LaneMask := p.2.foldl (fun a i => a ||| c.poisonLanes (.one (codeAt p.1 i))) 0
  let all := parts.foldl (fun a p => a ||| m p) 0
  match parts.find? fun p => m p != 0 && (m p).getLsbD (lowLane all) with
  | some p => .error (.trap .poison (BitVec.ofNat 64 ((m p).toNat + p.1.toNat * 2 ^ 32)))
  | none => .ok ()

/-- A block of eight as a lane holds it. -/
def WCtx.rec8 (c : WCtx) (code : BitVec 8) (l : Nat) : List Nat := (List.range 8).map fun i => c.reg (codeAt code i) l

/-- A word that works on the reservoir block D, lane by lane: `parts` are the registers it reads, `op` the words of D it
writes. -/
def rsvWord (opc : Nat) (f : SysW) (srcs : List Regs) (parts : List (BitVec 8 × List Nat))
    (op : WCtx → Nat → List (Nat × Nat)) (s : State) : Host.Outcome State Fault Refusal :=
  issue opc f.g s fun c0 => do
    let d := Regs.block f.d 8 8
    trapIf (!((d :: srcs).all fun r => r.n != 8 || isVector r.code)) .illegalEnc
    let c ← c0.open (d :: srcs) [d] false
    c.checkParts parts
    let W := (lanesOf c.lanes).foldl (fun W l => (op c l).foldl (fun W p => W.putReg (codeAt f.d p.1) l p.2) W) c.W
    .ok (c.retire W f.bnd)

/-- RSVUPD (R286). -/
def execRsvupd (f : SysW) (s : State) : Host.Outcome State Fault Refusal :=
  rsvWord 0xB5 f [.block f.a 8 8, .one f.b, .one f.c]
    [(f.d, [2, 4]), (f.a, [0, 1, 5, 6, 7]), (f.b, [0]), (f.c, [0])]
    (fun c l => (rsvUpd (c.rec8 f.d l) (c.rec8 f.a l) (c.reg f.b l) (c.reg f.c l)).writes) s

/-- RSVMRG (R287): CAP 0 means 65,535. -/
def execRsvmrg (f : SysW) (s : State) : Host.Outcome State Fault Refusal :=
  rsvWord 0xB6 f [.block f.a 8 8, .one f.b, .one f.c]
    [(f.d, [2, 4]), (f.a, [0, 3, 4, 5, 6, 7]), (f.b, [0]), (f.c, [0])]
    (fun c l => (rsvMrg (c.rec8 f.d l) (c.rec8 f.a l) (c.reg f.b l) (c.reg f.c l)
      (if f.x == 0#12 then 65535 else f.x.toNat)).writes) s

/-- RSVNRM (R288). -/
def execRsvnrm (f : SysW) (s : State) : Host.Outcome State Fault Refusal :=
  rsvWord 0xB7 f [] [(f.d, [1, 2, 4])] (fun c l => rsvNrm (c.rec8 f.d l)) s

/-! The reservoir store (R289–R291). -/

/-- A reservoir view. -/
structure View where
  width : Nat
  height : Nat
  parity : Nat
  layers : Nat
  split : Nat
  base : Nat
  deriving DecidableEq

/-- A view of four words. -/
def View.ofWords (w0 w1 base : Nat) : View :=
  ⟨bits w0 15 0, bits w0 31 16, bits w1 31 31, bits w1 25 24, bits w1 11 0, base⟩

/-- The field of a view outside its range, as word and lowest bit (R289). A reserved field that is not 0 counts as outside its range, in a
view held in a descriptor in memory too, where R9 would ignore it (DESIGN CHOICE, log entry 107). -/
def viewBad (w0 w1 base : Nat) : Option (Nat × Nat) :=
  if bits w0 15 0 == 0 || 16384 < bits w0 15 0 then some (0, 0)
  else if bits w0 31 16 == 0 || 16384 < bits w0 31 16 then some (0, 16)
  else if bits w1 23 12 != 0 then some (1, 12)
  else if bits w1 30 26 != 0 then some (1, 26)
  else if base % 8192 != 0 then some (2, 0)
  else none

/-- The address of a pixel's record in a layer (R290). -/
def View.addr (v : View) (parity layer x y : Nat) : Nat :=
  let tw := (v.width + 15) / 16
  let th := (v.height + 15) / 16
  let tile := ((parity * (v.layers + 1) + layer) * th + y / 16) * tw + x / 16
  (v.base + 8192 * tile + 32 * (16 * (y % 16) + x % 16)) % 2 ^ 64

def View.holds (v : View) (x y : Nat) : Bool := x < v.width && y < v.height

/-- SCOPE, ORD and LAYER of RSVLD and RSVST (R271). -/
def SysW.memWord (f : SysW) : MemW :=
  { bnd := f.bnd, var := f.var, g := f.g, d := f.d, a := f.a, b := f.b, off8 := 0, scope := f.x.extractLsb' 9 3,
    ord := f.x.extractLsb' 7 2, xs := 0, aop := 0, h := 0 }

def SysW.layer (f : SysW) : Nat := (f.x.extractLsb' 5 2).toNat

/-- The start of RSVLD and RSVST: the checks of the view, and the pixel of every active lane. -/
def viewLanes (f : SysW) (c : WCtx) : Except Stop (View × List (Nat × Nat × Nat)) := do
  let w0 := c.reg f.b 0
  let w1 := c.reg (codeAt f.b 1) 0
  let base := c.reg64 (codeAt f.b 2) 0
  match viewBad w0 w1 base with
  | some (i, lo) => fieldTrap true (codeAt f.b i) lo
  | none => .ok ()
  let v := View.ofWords w0 w1 base
  trapIf (v.layers < SysW.layer f) .illegalEnc
  .ok (v, (lanesOf c.lanes).map fun l => (l, bits (c.reg f.a l) 15 0, bits (c.reg f.a l) 31 16))

/-- The lanes inside the view with their addresses. -/
def View.inside (v : View) (layer : Nat) (px : List (Nat × Nat × Nat)) : List (Nat × Nat) :=
  (px.filter fun p => v.holds p.2.1 p.2.2).map fun p => (p.1, v.addr v.parity layer p.2.1 p.2.2)

/-- A block of eight registers of a lane from 32 bytes (R291). -/
def Wave.loadRecord (W : Wave) (d : BitVec 8) (lane : Nat) (bs : List Byte) (psn : Bool) : Wave := W.load d 8 lane (ofBytes bs) psn

/-- A lane of RSVLD: forwarded whole from the wave's own queue, or asked of the home (R353, R358). -/
def rsvLane (f : MemW) (s : State) (t w : Nat) (g : BitVec 8) (x : OkLane) : State × Bool :=
  match team? s t, wave? s t w with
  | some T, some W =>
    let q := queuedReqs s W.storeQ
    let vals := (List.range 32).map fun i => match fwdGlobal s q (x.pa + i) with
      | .val b => some b
      | _ => none
    if vals.all Option.isSome then
      (modWave s t w fun W => W.loadRecord f.d x.lane (vals.map fun v => v.getD 0) false, false)
    else
      let (rid, s1) := nextRid s T.core
      let b := MemReq.blank rid (.wave t w)
      let r : MemReq := { b with
        gang := g
        asid := T.asid
        gen := x.gen
        key := x.key
        sec := x.sec
        va := x.va
        pa := x.pa
        size := 32
        ty := f.var
        ord := f.ord
        scope := f.scope
        lane := x.lane
        d := f.d.toNat
        fwd := (List.range 32).filterMap fun i => ((vals.getD i none).map fun v => (i, v))
        epc := W.epcAt g
        st := .flight }
      (modWave (addReq s1 r) t w fun W => W.await (.block f.d 8 1) rid, true)
  | _, _ => (s, false)

/-- RSVLD (R290, R291). -/
def execRsvld (f : SysW) (s : State) : Host.Outcome State Fault Refusal :=
  issue 0xB8 f.g s fun c0 => do
    let d := Regs.block f.d 8 8
    let srcs := [Regs.one f.a, Regs.quad f.b]
    trapIf (!isVector f.d || !uniOrZ f.b) .illegalEnc
    let c ← c0.open srcs [d] false
    if c.lanes == 0 then .ok (c.retire c.W f.bnd)
    else do
      let (v, px) ← viewLanes f c
      let plan ← planLanes c.s c.T .read 32 (v.inside (SysW.layer f) px)
      c.checkPoison srcs
      let W := (px.filter fun p => !v.holds p.2.1 p.2.2).foldl
        (fun W p => W.loadRecord f.d p.1 (nullRecord.flatMap (toBytes 4)) false) c.W
      let m := SysW.memWord f
      waitIf (acquireOut c0.s c.t c.w c.gang) (.result (acquiresOf c0.s (.wave c.t c.w))) c0.s
      let (s1, pending) := plan.ok.foldl (fun a x =>
        let (s, p) := rsvLane m a.1 c.t c.w c.gang x
        (s, a.2 || p)) (c.put W, false)
      .ok (endAccess s1 c.t c.w c.gang f.bnd .read plan.parked (m.ord == 1#2) m.scope.toNat pending)

/-- RSVST (R290, R291). -/
def execRsvst (f : SysW) (s : State) : Host.Outcome State Fault Refusal :=
  issue 0xB9 f.g s fun c0 => do
    let d := Regs.block f.d 8 8
    let srcs := [Regs.one f.a, Regs.quad f.b, d]
    trapIf (!isVector f.d || !uniOrZ f.b) .illegalEnc
    let c ← c0.open srcs [] false
    if c.lanes == 0 then .ok (c.retire c.W f.bnd)
    else do
      let (v, px) ← viewLanes f c
      let plan ← planLanes c.s c.T .write 32 (v.inside (SysW.layer f) px)
      c.checkPoison srcs
      let m := SysW.memWord f
      let s1 := plan.ok.foldl (fun s x =>
        queueLane s c.t c.w c.gang m .write 32 ((c.rec8 f.d x.lane).flatMap (toBytes 4)) [] x) (c.put c.W)
      .ok (endAccess s1 c.t c.w c.gang f.bnd .write plan.parked false 0 false)

end Sys2Proof.Machine
end

