-- ==== Sys2Proof/Machine/Reuse.lean ====
section
/-! DEFINITION. Reuse passes (R294–R302, R478, R486): REUSE, the callable words CPARG and CPRET, and the events of a
Parhelion engine. -/

namespace Sys2Proof.Machine

/-! The pass descriptor (R295). -/

/-- The views, the modes, the interval of the callable's words. -/
def dIn (d : List Byte) : View := View.ofWords (fieldB d 80 4) (fieldB d 84 4) (fieldB d 88 8)
def dOut (d : List Byte) : View := View.ofWords (fieldB d 96 4) (fieldB d 100 4) (fieldB d 104 8)
def dMode (d : List Byte) (i : Nat) : Bool := bit (fieldB d 9 1) i
def dLayerIn (d : List Byte) : Nat := bits (fieldB d 11 1) 1 0
def dLayerOut (d : List Byte) : Nat := bits (fieldB d 11 1) 3 2
def dCount (d : List Byte) : Nat := fieldB d 8 1
def dOff (d : List Byte) (k : Nat) : Int × Int := (toSigned 8 (fieldB d (12 + 2 * k) 1), toSigned 8 (fieldB d (13 + 2 * k) 1))
def dCap (d : List Byte) (o : Nat) : Nat := if fieldB d o 2 == 0 then 65535 else fieldB d o 2

/-- Whether a descriptor keeps its limits (R295). -/
def descOk (d : List Byte) : Bool :=
  let n (o w : Nat) : Nat := fieldB d o w
  let r := n 10 1
  n 0 2 ≤ n 4 2 && n 2 2 ≤ n 6 2 && dCount d ≤ 8 && n 9 1 < 8 && 1 ≤ r && r ≤ 32 && n 11 1 < 16 &&
    (List.range (dCount d)).all (fun k => (dOff d k).1.natAbs ≤ r && (dOff d k).2.natAbs ≤ r) &&
    n 40 4 % 4 == 0 && n 48 8 % 8 == 0 && n 120 8 % 16 == 0 &&
    (viewBad (n 80 4) (n 84 4) (n 88 8)).isNone && (viewBad (n 96 4) (n 100 4) (n 104 8)).isNone &&
    dLayerIn d ≤ (dIn d).layers && dLayerOut d ≤ (dOut d).layers &&
    (dIn d).width == (dOut d).width && (dIn d).height == (dOut d).height

/-- First byte and length of a layer at a parity. -/
def View.layerSpan (v : View) (parity layer : Nat) : Nat × Nat :=
  let n := 8192 * ((v.width + 15) / 16) * ((v.height + 15) / 16)
  (v.base + (parity * (v.layers + 1) + layer) * n, n)

def overlap (a b : Nat × Nat) : Bool := a.1 < b.1 + b.2 && b.1 < a.1 + a.2

/-- PERM of R294: OUT's layer meets IN's layer at either parity. -/
def descClash (d : List Byte) : Bool :=
  let o := (dOut d).layerSpan (dOut d).parity (dLayerOut d)
  (List.range 2).any fun p => overlap o ((dIn d).layerSpan p (dLayerIn d))

/-! REUSE (R294). -/

def pass? (s : State) (k slot : Nat) : Option Pass := (smGet? s.clusters k).bind fun C => C.passes[slot]?
def modPass (s : State) (k slot : Nat) (f : Pass → Pass) : State :=
  modCluster s k fun C => { C with passes := modAt C.passes slot f }

/-- The world of a cluster's Parhelion engine (R503). -/
def passSecure (s : State) (k : Nat) : Bool := (dieCsr s (k / 25) 0xF03).getLsbD (k % 25)

/-- REUSE reads its descriptor at the home: translation, then the bytes, or a park (R198, R350, R488). -/
def readDesc (s : State) (who : Requester) (T : Team) (a : Nat) : Except Stop (State × (List (Byte × Bool) ⊕ (Nat × Nat))) := do
  trapIf (a % 128 != 0) .misalign (BitVec.ofNat 64 a)
  match teamTr s T .read a with
  | .miss => .error (.trap .extentMiss (BitVec.ofNat 64 a))
  | .perm => .error (.trap .perm (BitVec.ofNat 64 a))
  | .park code idx => .ok (s, .inr (code, idx))
  | .ok pa key sec gen =>
    match homeCheck s pa T.asid gen key sec T.secure false with
    | .perform =>
      if atHand s who pa 128 then .ok (useFar s who pa, .inl ((List.range 128).map fun i => byteAt s who (pa + i)))
      else
        let b := MemReq.blank ⟨s.moduleNo, 0, 0, 0, 0⟩ who
        .error (.wait .unit (askLine s { b with asid := T.asid, gen := gen, key := key, sec := sec, va := a, pa := pa }))
    | .discard =>
      let (bs, s1) := freeBytes (countDiscard s pa) 128
      .ok (s1, .inl (bs.map fun b => (b, true)))
    | .nack => .ok (if stackOut s pa then countDiscard s pa else s, .inr (0x42, (extentAt T.ext a).getD 0xFF))
    | .refuse | .world => .error (.trap .perm (BitVec.ofNat 64 a))

/-- A pass slot taken by a team (R294). -/
def Pass.grant (P : Pass) (T : Team) (t : Nat) (d : List Byte) : Pass :=
  { Pass.blank with
    st := .granted
    team := t
    launch := T.launch
    part := T.part
    asid := T.asid
    secure := T.secure
    ext := T.ext
    desc := d
    timeline := P.timeline }

/-- A REUSE whose descriptor stands takes the lowest free slot, or waits for one with the descriptor it has read (R294). -/
def takePassSlot (c0 c : WCtx) (s1 : State) (f : SysW) (d : List Byte) : Except Stop State :=
  let k := clusterOf c.T.core
  let others := c.W.descs.filter fun q => q.1 != lowSlice c.gang
  match (List.range 4).find? fun i => (pass? c.s k i).any fun P => P.st == .free with
  | none => .error (.wait .unit (modWave c0.s c.t c.w fun W => { W with descs := others ++ [(lowSlice c.gang, d)] }))
  | some i =>
    let tl := (pass? c.s k i).elim 0 fun P => P.timeline.toNat
    let W := (((c.W.putReg f.d 0 (2 ^ 29 + i * 2 ^ 16)).putReg (codeAt f.d 1) 0 0).putRegs (codeAt f.d 2) 2 0 (tl + 1))
    .ok (modPass ({ c with s := s1 }.retire { W with descs := others } f.bnd) k i fun P => P.grant c.T c.t d)

/-- REUSE (R294): the descriptor is read and checked once, when the word issues. -/
def execReuse (f : SysW) (s : State) : Host.Outcome State Fault Refusal :=
  issue 0xBB f.g s fun c0 => do
    trapIf (!uniOrZ f.a || !(isUniform f.d || f.d == 0xF8#8)) .illegalEnc
    let c ← c0.open [.pair f.a] [.quad f.d] true
    if c.lanes == 0 then .ok (c.retire c.W f.bnd)
    else
      match c.W.descs.find? fun q => q.1 == lowSlice c.gang with
      | some q => takePassSlot c0 c c.s f q.2
      | none => do
        let a := c.reg64 f.a 0
        let k := clusterOf c.T.core
        let (s1, got) ← readDesc c.s (.wave c.t c.w) c.T a
        trapIf (passSecure c.s k != c.T.secure) .perm (BitVec.ofNat 64 a)
        c.checkPoison [.pair f.a]
        c.waitRelease c0.s
        match got with
        | .inr (code, idx) => .ok (parkWave (c.put c.W) c.t c.w c.gang .read [⟨lowLane c.lanes, a, code, idx⟩])
        | .inl bs => do
          trapIf (engMarked bs) .poison (BitVec.ofNat 64 (c.lanes.toNat + f.a.toNat * 2 ^ 32))
          let d := engBytes bs
          trapIf (!descOk d) .illegalEnc
          trapIf (descClash d) .perm (BitVec.ofNat 64 a)
          takePassSlot c0 c s1 f d

/-! The callable words (R300, R301). -/

/-- The pass a lane works for. -/
def lanePass (s : State) (e : Eval) : Option Pass :=
  match s.cur with
  | .lane k => pass? s k e.slot
  | _ => none

/-- CPARG (R300): a field of a poisoned record marks its destination (R445). -/
def execCparg (f : SysW) (s : State) : Host.Outcome State Fault Refusal :=
  issue 0xC0 f.g s (fun _ => offProfile 0xC0) (fun _ => offProfile 0xC0) fun e => do
    trapIf (!vecOrZ f.d) .illegalEnc
    Eval.open [] [.one f.d] false
    if !e.guard f.g then .ok e.next
    else
      let i := (SysW.imm f).toNat
      let e1 := e.putReg f.d (e.args.getD i 0).toNat
      let bad := if i == 0 || i == 6 || i == 7 then e.argPsn.getD 0 false
        else if i ≤ 3 || i == 8 then e.argPsn.getD 1 false else false
      .ok (match opndOf f.d with
        | .v n => if bad then { e1 with vpoison := nsAdd e1.vpoison n } else e1
        | _ => e1).next

/-- CPRET (R301). -/
def execCpret (f : SysW) (s : State) : Host.Outcome State Fault Refusal :=
  issue 0xC1 f.g s (fun _ => offProfile 0xC1) (fun _ => offProfile 0xC1) fun e => do
    let vis := f.var.getLsbD 0
    let block := Regs.block f.b 6 2
    trapIf (vis && !isVector f.b) .illegalEnc
    Eval.open ([.one f.a] ++ if vis then [block] else []) [] false
    if !e.guard f.g then .ok e.next
    else do
      let phat := e.reg f.a
      let on := vis && (lanePass s e).any (fun P => dMode P.desc 2) && xlt (.zero false) (fv phat)
      e.checkPoison ([Regs.one f.a] ++ if on then [block] else [])
      .ok { e with
        done := true
        phat := BitVec.ofNat 32 phat
        vis := if on then some ((List.range 6).map fun i => BitVec.ofNat 32 (e.reg (codeAt f.b i))) else none }

/-! The pixels of a pass. -/

/-- The cluster whose engine processes a tile (R486). -/
def tileHome (clusters : NSet) (split tx ty : Nat) : Nat :=
  let on (d : Nat) : NSet := clusters.filter fun k => k / 25 == d
  let d := if tx < split then 0 else 1
  let l := if (on d).isEmpty then on (1 - d) else on d
  l.getD ((7 * tx + 3 * ty) % l.length) 0

/-- The pixels a pass of a cluster computes, tile by tile (R296). -/
def passWork (s : State) (k : Nat) (P : Pass) : List (Nat × Nat) :=
  let d := P.desc
  let v := dIn d
  let cl := (smGet? s.parts P.part).elim [] (·.clusters)
  let span (lo hi n : Nat) : List Nat := (List.range (min (hi + 1) ((n + 15) / 16) - lo)).map (lo + ·)
  ((span (fieldB d 2 2) (fieldB d 6 2) v.height).flatMap fun ty =>
    ((span (fieldB d 0 2) (fieldB d 4 2) v.width).filter fun tx => tileHome cl v.split tx ty == k).flatMap fun tx =>
      (List.range 256).map fun i => (16 * tx + i % 16, 16 * ty + i / 16)).filter fun p => v.holds p.1 p.2

/-- PASS_START (R294). -/
def execPassStart (cluster slot : Nat) (s : State) : Host.Outcome State Fault Refusal :=
  finishEvent s do
    let C ← need (smGet? s.clusters cluster)
    let P ← need C.passes[slot]?
    needs (P.st == .granted && !C.phStopped)
    .ok (modPass s cluster slot fun P => { P with st := .running, work := passWork s cluster P })

/-- The engine's reads for a pass. -/
def passReader (k slot align : Nat) : Reader := fun va n => do
  let s ← get
  match pass? s k slot with
  | none => throw .units
  | some P =>
    if va % align != 0 then throw (.trap .misalign va)
    let (s1, r) := engRead s (passEng s P k slot) va n
    set s1
    match r with
    | .ok bs => return (engBytes bs, engMarked bs)
    | .trap c v => throw (.trap c v)
    | .park code idx v => throw (.park code idx v)
    | .world pa => throw (.world pa)
    | .far => throw .units

/-- The record of an item: its parity and pixel, or none where it is absent or outside the view; and whether a poisoned
motion vector led to it (R296). -/
def itemPlace (k slot : Nat) (P : Pass) (x y : Nat) : RayM (Option (Nat × Nat × Nat) × Bool) := do
  let d := P.desc
  let v := dIn d
  let inside (par : Nat) (ix iy : Int) : Option (Nat × Nat × Nat) :=
    if ix < 0 || iy < 0 || !v.holds ix.toNat iy.toNat then none else some (par, ix.toNat, iy.toNat)
  if P.item == 0 then return (some (v.parity, x, y), false)
  else if P.item == 1 then
    if !dMode d 0 then return (none, false)
    else
      let (bs, bad) ← passReader k slot 4 ((fieldB d 32 8 + y * fieldB d 40 4 + 4 * x) % 2 ^ 64) 4
      let move (p : Nat) (mv : Nat) : Option Int :=
        match xs [xnum p, FT.f16.value mv] with
        | .num neg n m _ =>
          let r := (roundInt RM.ne neg n m).1
          some (if neg then -(r : Int) else r)
        | _ => none
      match move x (fieldB bs 0 2), move y (fieldB bs 2 2) with
      | some ix, some iy => return (inside (1 - v.parity) ix iy, bad)
      | _, _ => return (none, bad)
  else
    let n := P.item - 2
    if dCount d ≤ n then return (none, false)
    else
      let st := 65536 * y + x
      let sym := if dMode d 1 then rngOut (fieldB d 64 8) st ((fieldB d 44 4 + 10) % 2 ^ 32) % 8 else 0
      let (dx, dy) := dOff d n
      let (ex, ey) := if bit sym 0 then (dy, dx) else (dx, dy)
      let ex := if bit sym 1 then -ex else ex
      let ey := if bit sym 2 then -ey else ey
      return (inside v.parity ((x : Int) + ex) ((y : Int) + ey), false)

/-! Gathering (R296, R419). -/

def Pixel.fresh (x y : Nat) : Pixel := ⟨x, y, nullRecord, false, [], false⟩

/-- The pixel being gathered is the last of those in progress. -/
def Pass.gathering (P : Pass) (f : Pixel → Pixel) : Pass :=
  { P with px := P.px.dropLast ++ (P.px.getLast?.map f).toList }

/-- The next pixel is in progress, unless one is being gathered. -/
def Pass.begin (P : Pass) : Pass :=
  match P.work with
  | [] => P
  | (x, y) :: _ => if P.px.getLast?.any fun q => !q.full then P else { P with px := P.px ++ [.fresh x y], item := 0 }

/-- The record an item names becomes a candidate, unless it is null or empty (R296). -/
def Pass.take (P : Pass) (bs : List Byte) (marks : List Bool) (at_ : Nat × Nat) : Pass :=
  let q := (List.range 8).map fun i => fieldB bs (4 * i) 4
  let q1 := if P.item == 1 then setAt q 4 (packMF (rwM q) (rwFlags q % 256 + 256 * min (rwAge q + 1) 255)) else q
  let new : List Cand := if rwNull q || rwM q == 0 then [] else [⟨P.item, q1, marks, at_, none, none, none⟩]
  { P.gathering (fun p => { p with accPsn := p.accPsn || marks.any (fun b => b), cands := p.cands ++ new }) with
    halo := false, item := P.item + 1 }

/-- Reads a record whole, with the marks of its granules (R291). -/
def readRecord (k slot : Nat) (P : Pass) (par x y : Nat) : RayM (List Byte × List Bool) := do
  let a := (dIn P.desc).addr par (dLayerIn P.desc) x y
  let (b0, m0) ← passReader k slot 16 a 16
  let (b1, m1) ← passReader k slot 16 ((a + 16) % 2 ^ 64) 16
  return (b0 ++ b1, [m0, m1])

/-- Reads a candidate's record. -/
def readCand (k slot : Nat) (P : Pass) (par x y : Nat) : RayM Unit := do
  let (bs, ms) ← readRecord k slot P par x y
  modify fun s => modPass s k slot fun P => P.take bs ms (x, y)

/-- The next item of the pixel being gathered, up to where the pass must wait for a record from across the split. -/
def gatherItem (k slot : Nat) (P0 : Pass) : RayM Unit := do
  let P := P0.begin
  modify fun s => modPass s k slot fun _ => P
  match P.work with
  | [] => pure ()
  | (x, y) :: rest =>
    if 10 ≤ P.item then
      modify fun s => modPass s k slot fun P => { P.gathering (fun p => { p with full := true }) with work := rest, item := 0 }
    else do
      let (place, bad) ← itemPlace k slot P x y
      modify fun s => modPass s k slot fun P => P.gathering fun p => { p with accPsn := p.accPsn || bad }
      match place with
      | none => modify fun s => modPass s k slot fun P => { P with item := P.item + 1 }
      | some (par, qx, qy) => do
        let s ← get
        let home := tileHome ((smGet? s.parts P.part).elim [] (·.clusters)) (dIn P.desc).split (qx / 16) (qy / 16)
        if home / 25 != k / 25 then
          match P.halos.find? fun h => h.1 == (par, qx, qy) with
          | some h => modify fun s => modPass s k slot fun P => P.take h.2.1 h.2.2 (qx, qy)
          | none => modify fun s => modPass s k slot fun P => { P with halo := true }
        else readCand k slot P par qx qy

/-! Evaluating (R299, R419, R421). -/

/-- A candidate no lane has taken yet. -/
def Cand.idle (c : Cand) : Bool := c.lane.isNone && c.seg.isNone && c.phat.isNone

/-- The candidates that wait for a lane, in pixel and item order. -/
def Pass.waiting (P : Pass) : Nat := (P.px.flatMap fun p => p.cands.filter Cand.idle).length

/-- Whether a pass that was killed, or runs no more, has nothing left to gather (R298). -/
def Pass.gathered (P : Pass) : Bool :=
  match P.st with
  | .running => P.work.isEmpty
  | _ => P.px.all (·.full)

/-- Whether a pass has 64 candidates for an evaluation, its last ones, or one to take up again. -/
def Pass.evalReady (P : Pass) : Bool :=
  P.park.isNone && (!P.lanes.isEmpty || 64 ≤ P.waiting || (P.gathered && P.waiting != 0))

/-- The evaluator takes the passes in turn, in ascending slot number (R421). -/
def Cluster.evalTurn (C : Cluster) : Option Nat :=
  ((List.range 4).map fun i => (C.evalSlot + 1 + i) % 4).find? fun i => (C.passes[i]?).any Pass.evalReady

/-- The lane of a candidate's evaluation as it starts (R299, R300). -/
def Eval.start (P : Pass) (slot lane : Nat) (x y : Nat) (c : Cand) : Eval :=
  let q := c.q
  let user := fieldB P.desc 112 8
  let entry := BitVec.ofNat 53 (fieldB P.desc 48 8 / 8)
  { slot := slot, pc := entry, entry := entry, v := [],
    s := ([(0, user % 2 ^ 32), (1, user / 2 ^ 32), (2, c.item)].foldl (fun m p => smPut 0 m p.1 (BitVec.ofNat 32 p.2)) []),
    p := [], vpoison := [], spoison := [], fpctl := 0, lane := lane,
    args := [rw q 0, rw q 5, rw q 6, rw q 7, x + 65536 * y, c.at_.1 + 65536 * c.at_.2, rw q 1, rw q 3, rw q 4, min c.item 2].map
      (BitVec.ofNat 32),
    argPsn := c.psn, done := false, phat := 0, vis := none, cause := none, parkAt := none }

/-- Gives lanes from number `n` on to the first candidates that wait, up to 64 in all (R419). -/
def fillCands (P : Pass) (slot x y : Nat) : List Cand → Nat → List Cand × List Eval × Nat
  | [], n => ([], [], n)
  | c :: r, n =>
    if c.idle && n < 64 then
      let (cs, es, m) := fillCands P slot x y r (n + 1)
      ({ c with lane := some n } :: cs, Eval.start P slot n x y c :: es, m)
    else
      let (cs, es, m) := fillCands P slot x y r n
      (c :: cs, es, m)

def fillPixels (P : Pass) (slot : Nat) : List Pixel → Nat → List Pixel × List Eval
  | [], _ => ([], [])
  | p :: r, n =>
    let (cs, es, m) := fillCands P slot p.x p.y p.cands n
    let (ps, fs) := fillPixels P slot r m
    ({ p with cands := cs } :: ps, es ++ fs)

/-- An evaluation of a pass starts, or is taken up again after a park (R302). -/
def startEval (s : State) (k slot : Nat) (P : Pass) : State :=
  let (ps, es) := if P.lanes.isEmpty then fillPixels P slot P.px 0 else (P.px, P.lanes)
  modCluster (modPass s k slot fun P => { P with px := ps, lanes := [] }) k fun C => { C with evals := es, evalSlot := slot }

/-- The candidate of a lane that has ended (R301, R302). -/
def Cand.ended (c : Cand) (e : Eval) : Cand :=
  let d := { c with lane := none }
  if e.cause.isSome then { d with phat := some 0 }
  else
    match e.vis with
    | some b => { d with seg := some ⟨e.phat.toNat, b, none⟩ }
    | none => { d with phat := some e.phat.toNat }

/-- The end of an evaluation: its lanes in pixel and item order. -/
def Pass.evaluated (P : Pass) (es : List Eval) : Pass :=
  let bad := es.filterMap (·.cause)
  { P with
    px := P.px.map fun p => { p with cands := p.cands.map fun c => (es.find? fun e => c.lane == some e.lane).elim c c.ended }
    rejected := P.rejected + bad.length
    cause := if P.cause == 0 then (bad.head?).elim 0 (fun c => BitVec.ofNat 8 c.code) else P.cause }

/-- What a lane that could not read meets (R302). -/
def evalAcc (e : Eval) (va : Nat) : Acc := if va == e.pc.toNat * 8 then .fetch else .read

def evalStop (s : State) (k : Nat) (P : Pass) (e : Eval) (va : Nat) : Option (Acc × EngRes) :=
  match judge s (passEng s P k e.slot) (evalAcc e va) va with
  | .bad r => some (evalAcc e va, r)
  | _ => none

/-- The pass parks at the pages its lanes are held at, one record for each (R302, R429): the lanes stand at one word, so that all
fetch or all read. A region of the other world halts the partition (R505). -/
def parkLanes (k slot : Nat) (rs : List (Acc × EngRes)) (s : State) : State :=
  match pass? s k slot with
  | none => s
  | some P =>
    let pages := rs.flatMap fun r => match r.2 with
      | .park code idx va => onePage code idx va
      | _ => []
    let s1 := rs.foldl (fun s r => match r.2 with
      | .world pa => raiseHalt s P.part 3 (passEng s P k slot).unit pa
      | _ => s) s
    match rs.head?.map (·.1), pages with
    | some acc, _ :: _ =>
      let (s2, p) := parkEngine s1 (passEng s1 P k slot) (P.team / 8) 129 acc pages
      modPass s2 k slot fun P => { P with park := some p }
    | _, _ => s1

/-- An evaluation in which every lane at the lowest PC is held is set aside, and its pass parks, or asks for lines of other modules. -/
def setAside (s : State) (k slot : Nat) (C : Cluster) (P : Pass) : State :=
  let stuck := C.evals.filter fun e => e.parkAt.isSome && !e.done
  let s1 := modCluster (modPass s k slot fun P => { P with lanes := C.evals.map fun e => { e with parkAt := none } }) k
    fun C => { C with evals := [] }
  let s2 := stuck.foldl (fun s e => e.parkAt.elim s fun va => askEng s (passEng s P k slot) (evalAcc e va) va 1) s1
  parkLanes k slot (stuck.filterMap fun e => e.parkAt.bind (evalStop s k P e)) s2

/-! Merging and writing (R296, R419). -/

/-- RSVMRG of a candidate with its phat (R296, R287). -/
def Pass.merge (P : Pass) (p : Pixel) (c : Cand) (phat : Nat) : Pixel :=
  let d := P.desc
  let cap := if c.item == 0 then 65535 else if c.item == 1 then dCap d 28 else dCap d 30
  let u := rngUnif (rngOut (fieldB d 64 8) (65536 * p.y + p.x) ((fieldB d 44 4 + c.item) % 2 ^ 32))
  { p with acc := putWords p.acc (rsvMrg p.acc c.q phat u cap).writes }

/-- A pixel's candidates are merged in item order, as far as their phats are there. -/
def Pass.mergeAll (P : Pass) (p : Pixel) : List Cand → Pixel
  | [] => { p with cands := [] }
  | c :: r =>
    match c.phat with
    | none => { p with cands := c :: r }
    | some v => P.mergeAll (P.merge p c v) r

/-- A pixel whose items are all gathered and merged. -/
def Pixel.ready (p : Pixel) : Bool := p.full && p.cands.isEmpty

/-- The record of a pixel is written (R296): poisoned when an input was (R445). -/
def finishPixel (k slot : Nat) (P : Pass) (p : Pixel) : RayM Unit := do
  let s ← get
  let r := putWords p.acc (rsvNrm p.acc)
  let v := dOut P.desc
  let (s1, res) := engWrite s (passEng s P k slot) (v.addr v.parity (dLayerOut P.desc) p.x p.y) (r.flatMap (toBytes 4)) p.accPsn
  set s1
  match res with
  | .ok _ => modify fun s => modPass s k slot fun P => { P with
      px := P.px.filter fun q => !(q.x == p.x && q.y == p.y), pixels := P.pixels + 1 }
  | .trap c va => throw (.trap c va)
  | .park code idx va => throw (.park code idx va)
  | .world pa => throw (.world pa)
  | .far => throw .units

/-! The stages at work (R419). -/

/-- Whether a pass gathers on: fewer than 64 of its candidates wait, and no record from across the split is awaited. A killed pass
gathers no new pixel (R298). -/
def Pass.gathers (P : Pass) : Bool := !P.halo && P.waiting < 64 && !P.gathered

/-- One advance of a pass: its first pixel is written, so that the order stands (R421); else what an evaluation left is taken; else one starts; else an item is
gathered. The answer says whether the pass goes on. -/
def passAdvance (k slot : Nat) : RayM Bool := do
  let s ← get
  match (smGet? s.clusters k).bind fun C => C.passes[slot]?.map fun P => (C, P) with
  | none => return false
  | some (C, P0) => do
    let P := { P0 with px := P0.px.map fun p => P0.mergeAll p p.cands }
    modify fun s => modPass s k slot fun _ => P
    let mine := C.evals.any fun e => e.slot == slot
    match P.px.head?.filter Pixel.ready with
    | some p => do
      finishPixel k slot P p
      return false
    | none =>
      if mine && C.evals.all (·.done) then do
        modify fun s => modCluster (modPass s k slot fun P => P.evaluated C.evals) k fun C => { C with evals := [] }
        return true
      else if mine && C.lane?.isNone then do
        modify fun s => setAside s k slot C P
        return false
      else if C.evals.isEmpty && C.evalTurn == some slot then do
        modify fun s => startEval s k slot P
        return true
      else if P.gathers then do
        gatherItem k slot P
        return true
      else return false

def passAdvances (k slot : Nat) : Nat → RayM Unit
  | 0 => pure ()
  | n + 1 => do
    let go ← passAdvance k slot
    if go then passAdvances k slot n else pure ()

/-- The lanes of a pass that work for no candidate are given up. -/
def pruneLanes (s : State) (k slot : Nat) : State :=
  let live := (pass? s k slot).elim [] fun P => P.px.flatMap fun p => p.cands.filterMap (·.lane)
  let keep (e : Eval) : Bool := e.slot != slot || live.contains e.lane
  modCluster (modPass s k slot fun P => { P with lanes := P.lanes.filter keep }) k fun C => { C with evals := C.evals.filter keep }

/-- A killed pass keeps the pixel in progress only, the first one (R298). -/
def prunePass (s : State) (k slot : Nat) : State :=
  if (pass? s k slot).any fun P => P.st == .ending then
    pruneLanes (modPass s k slot fun P => { P with px := P.px.take 1, halo := P.halo && P.px.length == 1 }) k slot
  else s

/-- What a stop does to a pass (R298, R505). -/
def passStop (s : State) (k slot : Nat) (acc : Acc) (stop : RayStop) : State :=
  match pass? s k slot with
  | none => s
  | some P =>
    let E := passEng s P k slot
    match stop with
    | .units => s
    | .trap c _ => pruneLanes (modPass s k slot fun P =>
        { P with px := [], halo := false, st := .ending, code := 5, cause := BitVec.ofNat 8 c.code }) k slot
    | .park code idx va =>
      let (s1, p) := parkEngine s E (P.team / 8) 129 acc (onePage code idx va)
      modPass s1 k slot fun P => { P with park := some p }
    | .world pa => raiseHalt s P.part 3 E.unit pa

/-- A stretch of the work of a pass. -/
def passRun (s : State) (k slot : Nat) (acc : Pass → Acc) (m : RayM Unit) : State :=
  let (r, s1) := m.run s
  match r with
  | .ok _ => s1
  | .error stop => passStop s1 k slot ((pass? s1 k slot).elim .read acc) stop

/-- PASS_PIXEL (R296, R419): the pass goes on to the next record it writes, or to where it must wait for its evaluation, a
segment, or a record from across the split. -/
def execPassPixel (cluster slot : Nat) (s : State) : Host.Outcome State Fault Refusal :=
  finishEvent s do
    let C ← need (smGet? s.clusters cluster)
    let P ← need C.passes[slot]?
    needs ((P.st == .running || P.st == .ending) && P.park.isNone && !(P.work.isEmpty && P.px.isEmpty) && !C.phStopped)
    .ok (passRun (prunePass s cluster slot) cluster slot (fun P => if P.px.head?.any Pixel.ready then .write else .read)
      (passAdvances cluster slot 64))

/-- The columns a halo request names: up to 32 consecutive ones on the far side of the split (R478). -/
def haloCols (s : State) (k : Nat) (P : Pass) (qx qy : Nat) : List Nat :=
  let v := dIn P.desc
  let far (x : Nat) : Bool := tileHome ((smGet? s.parts P.part).elim [] (·.clusters)) v.split (x / 16) (qy / 16) / 25 != k / 25
  ((List.range 32).map (qx / 32 * 32 + ·)).filter fun x => v.holds x qy && far x

/-- HALO_REQUEST (R478): the records across the split column of an item's tile row and columns are asked for, through the gateway of the
engine's row (R455, R481), the item's own first. -/
def execHaloRequest (cluster slot : Nat) (s : State) : Host.Outcome State Fault Refusal :=
  finishEvent s do
    let C ← need (smGet? s.clusters cluster)
    let P ← need C.passes[slot]?
    let p ← need P.work.head?
    needs (P.halo && P.park.isNone && !C.phStopped && !s.halos.any fun h => h.cluster == cluster && h.slot == slot)
    .ok (passRun s cluster slot (fun _ => .read) do
      let (place, _) ← itemPlace cluster slot P p.1 p.2
      match place with
      | none => pure ()
      | some (par, qx, qy) => modify fun s =>
        let cols := haloCols s cluster P qx qy
        let all := ((List.range 16).map (qy / 16 * 16 + ·)).flatMap fun y => (cols.filter fun x => (dIn P.desc).holds x y).map fun x => (x, y)
        let (rid, s1) := nextPhRid s cluster
        { s1 with halos := s1.halos ++
          [⟨cluster, slot, rid, crossing s1 (cluster % 25 / 5), par, dLayerIn P.desc, qy / 16, cols, (qx, qy) :: all.filter (· != (qx, qy))⟩] })

/-- Up to n records of a halo request are read at their homes. One that cannot be read is left out, unless the pass waits for it. -/
def haloRecords (k slot par : Nat) (wanted : Option (Nat × Nat)) : Nat → List (Nat × Nat) → RayM (List (Nat × Nat))
  | 0, todo => pure todo
  | _, [] => pure []
  | n + 1, (x, y) :: rest => do
    let s ← get
    match pass? s k slot with
    | none => pure []
    | some P => do
      let put (r : List Byte × List Bool) : RayM Unit := modify fun s => modPass s k slot fun P => { P with
        halos := P.halos ++ [((par, x, y), r.1, r.2)], halo := P.halo && wanted != some (x, y) }
      let (r, s1) := (readRecord k slot P par x y).run s
      match r with
      | .ok r => do
        set s1
        put r
        haloRecords k slot par wanted n rest
      | .error .units => do
        set s1
        pure ((x, y) :: rest)
      | .error stop =>
        if wanted == some (x, y) then throw stop
        else haloRecords k slot par wanted n rest

/-- The records of four of a halo request come, in one DATA flit (R478). -/
def haloMove (s : State) (n : Nat) : State :=
  match s.halos[n]? with
  | none => s
  | some h =>
    match pass? s h.cluster h.slot with
    | none => { s with halos := s.halos.eraseIdx n }
    | some P =>
      if P.park.isSome || unitStopped s P.part (phUnit h.cluster) then s
      else
        let wanted := if P.halo then (h.todo.head?).filter fun _ => h.todo.length == (haloAll P h).length else none
        let (r, s1) := (haloRecords h.cluster h.slot h.parity wanted 4 h.todo).run s
        match r with
        | .ok [] => { s1 with halos := s1.halos.eraseIdx n }
        | .ok todo => { s1 with halos := modAt s1.halos n fun h => { h with todo := todo } }
        | .error stop => passStop { s1 with halos := s1.halos.eraseIdx n } h.cluster h.slot .read stop
where
  /-- The records a request names. -/
  haloAll (P : Pass) (h : Halo) : List (Nat × Nat) :=
    ((List.range 16).map (h.row * 16 + ·)).flatMap fun y => (h.cols.filter fun x => (dIn P.desc).holds x y).map fun x => (x, y)

/-! Visibility (R301, R420). -/

/-- The core of a cluster that lends a traversal slot (R420): at most 8 of its slots are lent and 32 remain free; in ascending order,
from the core after the one used last. -/
def lender (s : State) (cluster : Nat) (C : Cluster) : Option Nat :=
  ((List.range 8).map fun i => 8 * cluster + (C.lentCore + 1 + i) % 8).find? fun core => (core? s core).any fun D =>
    lentBy s core < 8 && slotsUsed s core D + 33 ≤ Config.traversalSlots && !D.stopped

/-- The segment of a visibility block as a traversal (R301). -/
def segmentTrav (P : Pass) (b : List Word) : Trav :=
  let n (i : Nat) : Nat := (b.getD i 0).toNat
  { (Trav.ofRegs 2 [] (some [])) with
    o := [n 0, n 1, n 2], d := [n 3, n 4, n 5], tmin := fieldB P.desc 72 4, tmax := fieldB P.desc 76 4 }

/-- The candidates of a pass that wait for a segment, in pixel and item order: pixel, item, segment. -/
def Pass.segments (P : Pass) : List ((Nat × Nat) × Nat × Segment) :=
  P.px.flatMap fun p => p.cands.filterMap fun c => c.seg.map fun g => ((p.x, p.y), c.item, g)

def Pass.modCand (P : Pass) (at_ : Nat × Nat) (item : Nat) (f : Cand → Cand) : Pass :=
  { P with px := P.px.map fun p =>
      if (p.x, p.y) == at_ then { p with cands := p.cands.map fun c => if c.item == item then f c else c } else p }

/-- A segment's outcome (R301): the phat its candidate is merged with, and the count of those that ended in an error. -/
def Pass.traced (P : Pass) (at_ : Nat × Nat) (item : Nat) (g : Segment) (occluded err : Bool) : Pass :=
  { P.modCand at_ item (fun c => { c with seg := none, phat := some (if occluded then 0 else g.phat) }) with
    viserr := P.viserr + if err then 1 else 0 }

/-- VISIBILITY_SEGMENT (R301, R420): a segment that waits borrows a slot; with none, one that has a slot runs to its end and gives
the slot back. Which of the two comes first is a matter of timing. -/
def execVisibilitySegment (cluster slot : Nat) (s : State) : Host.Outcome State Fault Refusal :=
  finishEvent s do
    let C ← need (smGet? s.clusters cluster)
    let P ← need C.passes[slot]?
    needs (P.park.isNone && !C.phStopped)
    let started := P.segments.filter fun g => g.2.2.core.isSome
    match (P.segments.find? fun g => g.2.2.core.isNone).bind fun g => (lender s cluster C).map fun core => (g, core) with
    | some (g, core) =>
      if s.choice % 2 == 0 || started.isEmpty then
        .ok (modCluster (modPass s cluster slot fun P =>
          P.modCand g.1 g.2.1 fun c => { c with seg := some { g.2.2 with core := some core } }) cluster
          fun C => { C with lentCore := core % 8 })
      else trace P (started.getD (s.choice / 2 % started.length) g)
    | none => do
      let g ← need started[s.choice / 2 % max started.length 1]?
      trace P g
where
  trace (P : Pass) (g : (Nat × Nat) × Nat × Segment) : Except Stop State :=
    let bvh := fieldB P.desc 56 8
    let n := Config.segmentBudget
    .ok (passRun s cluster slot (fun _ => .read) do
      if bvh % 128 != 0 then throw (.trap .misalign bvh)
      let spills : Spills := ⟨0, fun _ _ => pure (), fun _ => pure none⟩
      let y ← Trav.run (passReader cluster slot 16) spills bvh (travTurns n) n (segmentTrav P g.2.2.block).start
      let err := y.err != 0 || !y.done
      modify fun s => wakeOn (modPass s cluster slot fun P => P.traced g.1 g.2.1 g.2.2 (err || y.hit) err) cluster)

/-! The end (R297, R298). -/

/-- The status record. -/
def Pass.status (P : Pass) : List Byte :=
  toBytes 4 P.pixels ++ toBytes 4 P.rejected ++ toBytes 1 P.cause.toNat ++ toBytes 1 (if P.code == 0 then 1 else P.code) ++
    toBytes 2 0 ++ toBytes 4 P.viserr

/-- PASS_END (R297): every record is written and acknowledged (R458). A status record whose write traps is left out, and the timeline advances. -/
def execPassEnd (cluster slot : Nat) (s : State) : Host.Outcome State Fault Refusal :=
  finishEvent s do
    let C ← need (smGet? s.clusters cluster)
    let P ← need C.passes[slot]?
    needs (P.park.isNone && P.px.isEmpty && !C.phStopped && engOwc s (.pass cluster slot) == 0 && (P.st == .ending || (P.st == .running && P.work.isEmpty)))
    let (s1, r) := engWrite (pruneLanes s cluster slot) (passEng s P cluster slot) (fieldB P.desc 120 8) P.status false
    match r with
    | .park code idx va => .ok (passStop s1 cluster slot .write (.park code idx va))
    | .world pa => .ok (passStop s1 cluster slot .write (.world pa))
    | _ => .ok (wakeOn (modPass { dropFar s1 (.pass cluster slot) with halos := s1.halos.filter fun h => !(h.cluster == cluster && h.slot == slot) }
        cluster slot fun P => { P with
        st := .free, timeline := P.timeline + 1, work := [], desc := [], ext := [], lanes := [], halos := [], halo := false }) cluster)

end Sys2Proof.Machine
end

