-- ==== Sys2Proof/Machine/Translate.lean ====
section
/-! DEFINITION. The scheduler's translation: extent entries from declared ranges (R346, R347, R349, R383), on-demand entries
and retranslation (R349, R428), and what a park or a rejected request comes to (R352). -/

namespace Sys2Proof.Machine

/-! Pages. -/

/-- What a page of 8 KiB is to a team: no valid entry, not resident, an alias error, or mapped; with R, W, X. -/
inductive PageCls where
  | none
  | absent (r w x : Bool)
  | mapped (bad : Bool) (pa key : Nat) (sec r w x : Bool)
  deriving DecidableEq, Repr

/-- Permissions of a page entry narrowed by the declarations (R346). -/
def narrowed (g : Page) (d : Bool × Bool × Bool) : Bool × Bool × Bool := (g.r && d.1, g.w && d.2.1, g.x && d.2.2)

/-- The page of a virtual address for a team (R344, R346, R347, R505, R508). -/
def pageClass (s : State) (T : Team) (va : Nat) : PageCls :=
  match walk s T.asid va with
  | none => .none
  | some g =>
    let (r, w, x) := narrowed g (declPerm (Team.decls s T) T.index va)
    if !g.res then .absent r w x
    else .mapped (!pageAgrees s g || g.sec != T.secure) (g.pa + (va / 8192 * 8192 - g.va)) g.key g.sec r w x

/-- An entry that covers one page. -/
def pageEntry (va gen : Nat) (c : PageCls) : Option Extent :=
  match c with
  | .none => Option.none
  | .absent r w x => some ⟨2, va, 1, 0, 0, false, false, x, w, r, gen, 0⟩
  | .mapped bad pa key sec r w x => some ⟨if bad then 3 else 1, va, 1, pa, key, sec, false, x, w, r, gen, 0⟩

/-- Whether a page goes on where an entry ends (R346). -/
def Extent.joins (e f : Extent) : Bool :=
  e.kind == f.kind && e.vbase + 8192 * e.len == f.vbase && e.r == f.r && e.w == f.w && e.x == f.x &&
    (e.kind == 2#2 || (e.pbase + 8192 * e.len == f.pbase && e.key == f.key && e.sec == f.sec))

/-- Entries of pages in ascending order, shared where they may be. -/
def joinEntries : List Extent → List Extent
  | [] => []
  | e :: r =>
    match joinEntries r with
    | [] => [e]
    | f :: q => if e.joins f then { e with len := e.len + f.len } :: q else e :: f :: q

/-- The entries of a span of pages. -/
def spanEntries (s : State) (T : Team) (va n : Nat) : List Extent :=
  let gen := (asidOf s T.asid).gen
  joinEntries ((List.range n).filterMap fun i => pageEntry (va + 8192 * i) gen (pageClass s T (va + 8192 * i)))

/-! Before dispatch (R346, R349, R383). -/

/-- The pages of ranges, merged in ascending order. -/
def mergeSpans (l : List (Nat × Nat)) : List (Nat × Nat) :=
  l.foldl (fun acc p => insertSpan p acc) []
where
  insertSpan (p : Nat × Nat) : List (Nat × Nat) → List (Nat × Nat)
    | [] => [p]
    | q :: r =>
      if p.1 + 8192 * p.2 < q.1 then p :: q :: r
      else if q.1 + 8192 * q.2 < p.1 then q :: insertSpan p r
      else
        let lo := min p.1 q.1
        let hi := max (p.1 + 8192 * p.2) (q.1 + 8192 * q.2)
        insertSpan (lo, (hi - lo) / 8192) r

/-- A declared range of a team; one that wraps past 2^56 is two. -/
def declSpans (t : Nat) (d : Nat × Nat × Nat × Nat) : List (Nat × Nat) :=
  let lo := (d.1 + t * d.2.2.1) % 2 ^ 56
  let n := d.2.1 / 8192
  let top := (2 ^ 56 - lo) / 8192
  if n ≤ top then [(lo, n)] else [(0, n - top), (lo, top)]

/-- The extent table a team is dispatched with: at most 63 entries, in ascending address. -/
def buildExtents (s : State) (T : Team) : List Extent :=
  let spans := mergeSpans (((Team.decls s T).filter fun d => !bit d.2.2.2 3).flatMap (declSpans T.index))
  (spans.flatMap fun p => spanEntries s T p.1 p.2).take 63

/-! On demand (R349). -/

/-- The mark of the entry installed last. -/
def lastInstalled (ext : List Extent) : Nat := ext.foldl (fun a e => max a e.installed) 0

/-- Puts an OPEN entry into a free slot, or in place of the OPEN entry installed longest ago. -/
def installEntry (ext : List Extent) (e0 : Extent) : Option (List Extent) :=
  let e := { e0 with isOpen := true, installed := lastInstalled ext + 1 }
  match ext.findIdx? fun f => f.kind == 0#2 with
  | some i => some (setAt ext i e)
  | none =>
    if ext.length < 64 then some (ext ++ [e])
    else
      let old := ((List.range ext.length).zip ext).foldl (fun (b : Option (Nat × Nat)) p =>
        if p.2.isOpen && b.all (fun q => p.2.installed < q.2) then some (p.1, p.2.installed) else b) none
      old.map fun q => setAt ext q.1 e

/-- The part of a page around an address that no entry covers: entries never overlap (R346). -/
def uncovered (ext : List Extent) (va lo hi : Nat) : Nat × Nat :=
  (ext.filter fun e => e.kind != 0#2).foldl (fun a e =>
    let eb := e.vbase + 8192 * e.len
    (if eb ≤ va then max a.1 eb else a.1, if va < e.vbase then min a.2 e.vbase else a.2)) (lo, hi)

/-- The span of entry i translated anew: its lowest part keeps the slot, the others are installed as OPEN (R349). -/
def retranslate (s : State) (T : Team) (i : Nat) : Team :=
  match T.ext[i]? with
  | none => T
  | some e =>
    match spanEntries s T e.vbase e.len with
    | [] => { T with ext := setAt T.ext i { e with kind := 0 } }
    | f :: r =>
      let kept := setAt T.ext i { f with isOpen := e.isOpen, installed := e.installed }
      { T with ext := r.foldl (fun x g => (installEntry x g).getD x) kept }

/-- REPLAY's first act: the entries of KIND 10 of a team are translated anew (R432). -/
def retranslateAbsent (s : State) (T : Team) : Team :=
  (List.range T.ext.length).foldl (fun T i => if absentEntry T.ext i then retranslate s T i else T) T

/-- What an address comes to: it may be accessed, its page is not resident, no mapping permits it, its region is closed. -/
inductive Resolved where
  | ok | absent (kind idx : Nat) | forbidden | closed
  deriving DecidableEq, Repr

/-- Whether a region under a page of a span is held closed. -/
def spanClosed (s : State) (T : Team) (va n : Nat) : Bool :=
  (List.range n).any fun i => (walk s T.asid (va + 8192 * i)).any (pageClosed s)

/-- Whether a region under the page of an address, or under the entry that covers it, is held closed: the retranslation waits (R488,
R507). -/
def vaClosed (s : State) (T : Team) (va : Nat) : Bool :=
  spanClosed s T va 1 || ((extentAt T.ext va).bind (T.ext[·]?)).any fun e => spanClosed s T e.vbase e.len

/-- An entry after its retranslation, for an access. -/
def judgeEntry (s : State) (T : Team) (va : Nat) (a : Acc) : Resolved :=
  match teamTr s T a va with
  | .ok _ _ _ _ => .ok
  | .perm | .miss => .forbidden
  | .park c i => if c == 0x40 then .absent 3 i else .absent 2 0xFF

/-- R428: the scheduler retranslates an address for a team. An entry of KIND 10 is left to the pager. -/
def resolveVa (s : State) (t va : Nat) (a : Acc) : State × Resolved :=
  match team? s t with
  | none => (s, .forbidden)
  | some T =>
    if vaClosed s T va then (s, .closed)
    else
      match teamTr s T a va with
      | .ok _ _ _ gen =>
        let T1 := if gen == (asidOf s T.asid).gen then T else retranslate s T ((extentAt T.ext va).getD 0)
        (setTeam s t T1, judgeEntry s T1 va a)
      | .perm | .miss => (s, .forbidden)
      | .park c i =>
        if c == 0x40 && absentEntry T.ext i then (s, .absent 1 i)
        else if c == 0x40 then
          let T1 := retranslate s T i
          let r := judgeEntry s T1 va a
          (setTeam s t T1, match r with
            | .absent _ j => .absent 3 j
            | r => r)
        else
          let page := va / 8192 * 8192
          match pageClass s T page, walk s T.asid va with
          | .mapped bad _ key sec r w x, some g =>
            let (lo, hi) := uncovered T.ext va g.va (g.va + g.size)
            let e : Extent := ⟨if bad then 3 else 1, lo, (hi - lo) / 8192, g.pa + (lo - g.va), key, sec, true, x, w, r,
              (asidOf s T.asid).gen, 0⟩
            (match installEntry T.ext e with
              | some ext =>
                let T1 := { T with ext := ext }
                (setTeam s t T1, if bad || !e.allows a then .forbidden else .ok)
              | none => (s, .absent 2 0xFF))
          | .absent r w x, _ =>
            (s, if (Extent.mk 2 0 0 0 0 false true x w r 0 0).allows a then .absent 2 0xFF else .forbidden)
          | _, _ => (s, .forbidden)

/-- The access of a code of R429. -/
def Acc.ofCode (n : Nat) : Acc :=
  match n % 4 with
  | 0 => .read
  | 1 => .write
  | 2 => .atomic
  | _ => .fetch

/-- R352: a team with no permitted mapping ends as faulted with cause EXTENT_MISS. -/
def endMissing (s : State) (t wave : Nat) (epc : DWord) (va : Nat) : State :=
  match team? s t with
  | none => s
  | some T =>
    let L := smGet? s.launches T.launch
    let W := T.waves[wave]?
    killLaunch s T.launch t (some (sqRecord (L.elim 0 (·.node)) 0x20 0x09 wave (L.elim 0 (·.firing)) T.serial T.index epc
      (BitVec.ofNat 64 va) (W.elim 0 fun W => W.wpark.toNat) (W.elim 0 fun W => W.intrap.toNat)))

end Sys2Proof.Machine
end

