-- ==== Sys2Proof/Machine/Home.lean ====
section
/-! DEFINITION. Requests at their homes and their answers (R341, R350, R352, R358, R456, R458, R460, R488, R490), deferred
traps (R488), retranslation and replay of requesters (R428, R432), the MINGEN raise (R351), and the combining gateways
(R475, R476). -/

namespace Sys2Proof.Machine

/-! The home. -/

/-- The port a request came from (R453). -/
def portOf (r : Rid) : Nat × Nat × Nat × Nat := (r.mod, r.die, r.tile, r.unit)

/-- Whether another request keeps this one from its home: one of the same port that went on the network before it to the same line
(R456); for a read, a read the same agent issued before it that was rejected and is still to be retried, and an atomic of it in its
queue, or a reduction there to the line (R358, R366). Reads to different lines are performed in any order: each holds its line
against the later writes of its own core, whose waves therefore cannot tell. -/
def homeBlocked (s : State) (r : MemReq) : Bool :=
  (s.reqs.any fun q => portOf q.rid == portOf r.rid && q.inFlight && q.place < r.place && sameLine s q r) ||
    (s.reqs.takeWhile fun q => q.rid != r.rid).any fun q => r.kind == .read && q.who == r.who &&
      ((q.rejected && (q.kind == .read || q.kind == .atomic)) || (q.st == .queued && MemReq.heldBack s q r))

/-- The checks of a home for a request (R350, R488, R490, R505). What a module itself writes, or a host through a window that agrees with
the page, is not checked against an extent entry's bits. -/
def homeVerdict (s : State) (r : MemReq) : Verdict :=
  if r.rid.unit == 31 then
    match place s r.pa with
    | none => .discard
    | some p =>
      if (regionOf s p).2.2 then .nack
      else if !((s.hbm.map (·.en)).getD p.stack false) then .discard
      else .perform
  else homeCheck s r.pa r.asid r.gen r.key r.sec (r.eng.elim false (·.2)) r.eng.isSome

/-- The home's answer to a request: the state, and the request as it goes back (R350, R488, R490, R505). -/
def serveReq (s : State) (r : MemReq) : State × MemReq :=
  match homeVerdict s r with
  | .perform => performReq s r
  | .nack => (if stackOut s r.pa then countDiscard s r.pa else s, { r with st := .nacked })
  | .refuse => (s, { r with st := .refused })
  | .world => (lineUp s (r.part s) ⟨3, r.eng.elim 0 (·.1), r.rid.mod, r.pa, [], 0⟩, { r with st := .refused })
  | .discard => discardReq s r

/-- The die of a place in this module. -/
def homeDie (s : State) (pa : Nat) : Option Nat :=
  (place s pa).bind fun p => if p.other.isSome then none else some (p.stack / 5)

/-- A request of another module is answered over the fabric (R494, R495); `lane` holds the partition its flit named. -/
def answerFabric (s : State) (r : MemReq) : State :=
  fabSend (delReq s r.rid) ((homeDie s r.pa).getD 0) r.lane r.rid.mod vcResponse r.rid (some r) none none

/-- A gateway records the responses of requests in its window (R365, R476). -/
def respond (s : State) (rids : List Rid) (st : ReqSt) : State :=
  { s with gateways := s.gateways.map fun G => { G with
      window := G.window.map fun x => if rids.contains x.2.1 then (x.1, x.2.1, some (st, s.now)) else x } }

/-- A gateway's identities of a partition. -/
def Gateway.ofPart (G : Gateway) (p : Nat) : List (Nat × Rid × Option (ReqSt × Nat)) := G.window.filter fun x => x.1 == p

/-- Whether an identity may leave a window: its response was sent 2^16 cc ago (R477). -/
def mayAge (s : State) (x : Nat × Rid × Option (ReqSt × Nat)) : Bool := x.2.2.any fun a => a.2 + 2 ^ 16 ≤ s.now

/-- Whether a gateway's window has room for one more identity of a partition (R477). -/
def windowRoom (s : State) (gw p : Nat) : Bool :=
  s.gateways[gw]?.any fun G => (G.ofPart p).length < 4096 || (G.ofPart p).any (mayAge s)

/-- A gateway records an identity: its window holds 4,096 of a partition, and the first that may leaves it when it is full (R476, R477). One
of another module that has left is held as aged until its unit's SEQ is 2^19 further on (log entry 111). -/
def noteWindow (s : State) (gw p : Nat) (rid : Rid) (st : Option ReqSt) : State :=
  match s.gateways[gw]? with
  | none => s
  | some G =>
    let mine := (G.ofPart p).filter fun x => x.2.1 != rid
    let old := if mine.length < 4096 then none else mine.find? (mayAge s)
    let keep := G.window.filter fun x => x.2.1 != rid && !(old.any fun o => o.2.1 == x.2.1)
    { s with
      gateways := setAt s.gateways gw { G with window := keep ++ [(p, rid, st.map fun a => (a, s.now))] }
      aged := s.aged ++ (old.toList.filter fun o => o.2.1.mod != s.moduleNo).map (·.2.1) }

/-- The gateway at which a request crosses to the other die: any one in service, which the turn's choice says (R455). -/
def crossedAt (s : State) : Option Nat :=
  let ups := (List.range 5).filter (gatewayUp s)
  ups[s.choice / 4 % ups.length]?

/-- A combined reduction answers for its constituents (R476): each has its own answer. -/
def answerParts (s : State) (r : MemReq) : State :=
  match r.who with
  | .request _ =>
    if r.rid.mod != s.moduleNo then answerFabric s r
    else match s.heldRed.find? fun h => h.rid == r.rid with
    | none => s
    | some h =>
      let s1 := respond (delReq s r.rid) h.parts r.st
      { s1 with
        reqs := s1.reqs.map fun q => if h.parts.contains q.rid then { q with st := r.st, served := r.served } else q
        heldRed := s1.heldRed.filter fun g => g.rid != r.rid }
  | _ => s

/-- Requests a gateway holds are not at their home (R476). -/
def heldAtGateway (s : State) (rid : Rid) : Bool := s.heldRed.any fun h => h.parts.contains rid

/-- The gateway that forwards a write, atomic or reduction on its way to its home, from the die where it is in the module (R365). -/
def forwarder (s : State) (r : MemReq) : Option Nat :=
  if r.kind != .read && r.peer.isNone && r.rid.unit < 26 && (homeDie s r.pa).any (fun d => d != r.via) then crossedAt s else none

/-- A home keeps the answers of the last writes, atomics and reductions it performed (R365, R460, R477), and so does the gateway that
forwarded such a request to the other die. -/
def noteDone (s0 : State) (r : MemReq) : State :=
  let s := match forwarder s0 r with
    | some g => noteWindow s0 g (r.part s0) r.rid (some r.st)
    | none => s0
  if r.kind == .read || r.rejected || r.st == .refused then s
  else
    let old := (s.dup.filter fun d => d.1 != r.rid) ++ [(r.rid, r.st)]
    let n := old.length - 4096
    { s with
      dup := old.drop n
      aged := s.aged ++ (((old.take n).map (·.1)).filter fun q => q.mod != s.moduleNo) }

/-- A request is served where it goes: at its home, or at another core's scratchpad, which may have to wait for a save or a fill
(R439, R458). -/
def serveAt (s : State) (r : MemReq) : Option (State × MemReq) :=
  match r.peer with
  | some (u, off) => (performPeer s u off r.data r.bad).map fun s1 => (s1, { r with st := .acked })
  | none => some (serveReq s r)

/-! Requests to other modules (R484, R495). -/

/-- A request for another module's memory takes the fabric, in the order of its port and line (R456, R493, R494). -/
def crossMove (s : State) (rid : Rid) : State :=
  match req? s rid with
  | none => s
  | some r =>
    match (place s r.pa).bind (·.other) with
    | none => s
    | some m =>
      if r.st != .flight || r.sent || r.peer.isSome || homeBlocked s r then s
      else modReq (fabSend s r.rid.die (r.part s) m vcRequest rid (some r) none none) rid fun r => { r with sent := true }

/-- The answer of another module to a request (R495). -/
def fabAnswer (s : State) (a : MemReq) : State :=
  modReq { s with served := s.served + 1 } a.rid fun r =>
    if r.st == .flight && r.sent then { r with st := a.st, line := a.line, served := s.served } else r

/-- HOME_REQUEST (R341, R350, R364, R458): at a home of this module, where the window of the gateway on its way has room (R477). -/
def execHomeRequest (rid : Rid) (s : State) : Host.Outcome State Fault Refusal :=
  finishEvent s do
    let r ← need (req? s rid)
    needs (r.st == .flight && (r.peer.isSome || !remote s r.pa) && !homeBlocked s r && !heldAtGateway s rid)
    needs ((forwarder s r).all fun g => windowRoom s g (r.part s))
    let (s1, r0) ← need (serveAt s r)
    let r1 := { r0 with served := s1.served }
    .ok (answerParts (noteDone (modReq { s1 with served := s1.served + 1 } rid fun _ => r1) r1) r1)

/-! Answers. -/

/-- The unit that answers a request (R342, R456): the slice of its line, or the core whose scratchpad it writes. -/
def answerer (s : State) (r : MemReq) : Nat :=
  match r.peer with
  | some (u, _) => 1000 + (team? s u).elim 400 (·.core)
  | none => match place s r.pa with
    | some p => if p.other.isSome then 3000 + p.other.getD 0 else p.stack * 5 + p.off / 128 % 5
    | none => 4000

/-- Whether the answer of a request may arrive: answers of one unit to one unit arrive in the order sent (R456). -/
def answerNext (s : State) (r : MemReq) : Bool :=
  !s.reqs.any fun q => portOf q.rid == portOf r.rid && q.served < r.served && answerer s q == answerer s r && (match q.st with
    | .acked | .answered _ _ | .nacked => true
    | _ => false)

/-- A wave's or context's outstanding-write count falls (R458). -/
def owcDown (s : State) : Requester → State
  | .wave t w => tryBar (wakeWave (modWave s t w fun W => { W with owc := W.owc - 1 }) t w) t
  | .context x => modCtx s x fun X => { X with owc := X.owc - 1 }
  | _ => s

/-- Whether a request counts in OWC. -/
def MemReq.counts (r : MemReq) : Bool := r.kind != .read

/-- ACK (R458). -/
def execAckFlit (rid : Rid) (s : State) : Host.Outcome State Fault Refusal :=
  finishEvent s do
    let r ← need (req? s rid)
    needs (r.st == .acked && answerNext s r)
    .ok (owcDown (delReq s rid) r.who)

/-- A gang's acquire is over when no answer to it is out: the load cache goes, and the word retires (R27, R354). -/
def endAcquire (s : State) (t w : Nat) (r : MemReq) : State :=
  match team? s t, wave? s t w with
  | some T, some W =>
    let more := s.reqs.any fun q => q.who == r.who && q.gang == r.gang && q.acquires
    match (W.slice (lowSlice r.gang)).hold with
    | .async 0 bnd (.result _) =>
      if more || !r.acquires then s
      else retireHeld (if 2 ≤ r.scope.toNat then invalidate s T.core else s) t w r.gang bnd
    | _ => s
  | _, _ => s

/-- The bytes of an answer with those the requester's own earlier stores supply (R358), and whether the mark of a granule
counts (R272, R445). -/
def MemReq.result (r : MemReq) (bs : List Byte) (psn : BitVec 8) : List Byte × Bool :=
  ((List.range r.size).map fun i => ((r.fwd.find? fun p => p.1 == i).map (·.2)).getD (bs.getD i 0),
    (List.range r.size).any fun i => psn.getLsbD ((r.pa % 16 + i) / 16) && !r.fwd.any fun p => p.1 == i)

/-- An answer at a wave (R27, R103, R353, R445). -/
def waveAnswer (s : State) (t w : Nat) (r : MemReq) (bs : List Byte) (psn : BitVec 8) : State :=
  let (xs, bad) := r.result bs psn
  let v := if r.kind == .read && r.size ≤ 4 then loadExt r.ty.toNat xs else ofBytes xs
  let s1 := modWave (delReq s r.rid) t w fun W =>
    { W.load (BitVec.ofNat 8 r.d) (max 1 (r.size / 4)) r.lane v bad with busy := W.busy.filter fun b => b.2 != .req r.rid }
  let s2 := match r.line, Rid.core r.rid with
    | some l, some c => if r.fill then modCore s1 c fun C => C.fillLine (loc s r.pa / 128) l s.choice else s1
    | _, _ => s1
  endAcquire (wakeWave (if r.counts then owcDown s2 r.who else s2) t w) t w r

/-- An answer at a context (R308, R310); one to a former program writes no register (log entry 104). -/
def ctxAnswer (s : State) (x : Nat) (r : MemReq) (bs : List Byte) (psn : BitVec 8) : State :=
  let (xs, bad) := r.result bs psn
  let v := if r.kind == .read then ctxLoadExt r.ty.toNat xs
    else if r.ty == 0#4 then ofSigned 64 (toSigned 32 (ofBytes xs)) else ofBytes xs
  let s1 := modCtx (delReq s r.rid) x fun X => if r.gang != 0 then X else
    let X1 := { X with reqBusy := X.reqBusy.filter fun b => b.2 != r.rid }.putK (BitVec.ofNat 8 r.d) v
    let X2 := if bad then { X1 with kpoison := nsAdd X1.kpoison r.d } else X1
    if r.acquires && X2.wait == some .order then { X2 with wait := none }.nextWord else X2
  if r.counts then owcDown s1 r.who else s1

/-- A line of another module comes for the requester that asked for it (R484). -/
def lineAnswer (s : State) (r : MemReq) (bs : List Byte) (psn : BitVec 8) : State :=
  let s1 := delReq s r.rid
  let s2 := { s1 with far := (s1.far.filter fun l => !(l.who == r.who && l.line == loc s r.pa / 128)) ++ [⟨r.who, loc s r.pa / 128, bs, psn⟩] }
  match r.who with
  | .wave t w => wakeWave s2 t w
  | _ => s2

/-- READ_DATA_RESPONSE (R27). -/
def execReadDataResponse (rid : Rid) (s : State) : Host.Outcome State Fault Refusal :=
  finishEvent s do
    let r ← need (req? s rid)
    needs (answerNext s r)
    match r.st with
    | .answered bs psn =>
      if r.kind == .read && r.size == 128 then .ok (lineAnswer s r bs psn)
      else match r.who with
      | .wave t w => .ok (waveAnswer s t w r bs psn)
      | .context x => .ok (ctxAnswer s x r bs psn)
      | _ => .ok (delReq s rid)
    | _ => .error .off

/-! Retranslation of a request (R352, R428). -/

/-- The team whose extents a request uses, the access it makes, and the WAVE code of its records (R429). -/
def MemReq.access (r : MemReq) : Acc :=
  match r.kind with
  | .read => .read
  | .write => .write
  | _ => .atomic

/-- A copy of a wave has the code of the wave, a copy of a context that of the context. -/
def waveCode (s : State) : Requester → Nat
  | .wave _ w => w
  | .context x | .scopy x _ => 64 + x % 16
  | .matrix _ => 128
  | .pass _ _ => 129
  | .stream _ q => 132 + q
  | .copy t n => ((team? s t).bind fun T => T.copies.find? fun c => c.num == n).elim 0 (·.wave)
  | .request _ | .host _ _ | .own => 0

/-- The fault record of one requester at one address (R429). -/
def oneRecord (s : State) (T : Team) (who : Requester) (va : Nat) (pc : DWord) (lanes : Nat) (a : Acc) (idx kind : Nat) : State :=
  writeFaults s T.part [faultRecord va pc lanes T.serial (waveCode s who) (accessCode a T.secure) (idx % 256) kind
    (fbGen s T.part) T.asid]

/-- A rejected request whose NACK is here is translated anew and sent again in its place, or waits. -/
def resolveReq (s : State) (r : MemReq) : State :=
  match requesterTeam s r.who with
  | none => if r.who == .own then modReq s r.rid fun r => { r with st := .flight, sent := false } else delReq s r.rid
  | some t =>
    let wait (s : State) (noted : Bool) : State :=
      modReq s r.rid fun r => { r with st := .waiting ((team? s t).elim 0 fun T => fbGen s T.part) noted }
    let (s1, res) := resolveVa s t r.va r.access
    match team? s1 t with
    | none => delReq s1 r.rid
    | some T =>
      match res with
      | .closed => wait s1 false
      | .absent kind idx =>
        let (pc, lanes) : DWord × Nat := match r.who with
          | .wave _ _ => (r.epc &&& 0x00FF_FFFF_FFFF_FFF8#64, 2 ^ r.lane)
          | _ => (0, 1)
        wait (oneRecord s1 T r.who r.va pc lanes r.access idx kind) true
      | .forbidden =>
        let epc := match r.who with
          | .wave _ _ => r.epc
          | _ => 0
        endMissing (delReq s1 r.rid) t (waveCode s1 r.who) epc r.va
      | .ok =>
        match teamTr s1 T r.access r.va with
        | .ok pa key sec gen =>
          modReq s1 r.rid fun r => { r with pa := pa, key := key, sec := sec, gen := gen, st := .flight, sent := false }
        | _ => wait s1 false

/-- A context's refused request ends as a trapping fault of the context (R488, R336): of its program as it runs, parks or stops. A fault
already recorded stands, and a former program's request faults nothing. -/
def ctxRefused (s : State) (x : Nat) (r : MemReq) : State :=
  let s1 := modCtx (delReq s r.rid) x fun X => { X with
    reqBusy := X.reqBusy.filter fun b => b.2 != r.rid
    owc := if r.counts then X.owc - 1 else X.owc }
  let on := (smGet? s.ctxs x).any fun X => X.st == .running || X.st == .parked || X.st == .stopping
  if on && r.gang == 0 then faultCtx s1 x 0x0A 0 r.va else s1

/-- An engine's refused request ends its operation as a trapping fault does (R488). -/
def engineRefused (s0 : State) (r : MemReq) : State :=
  let s := delReq s0 r.rid
  match r.who with
  | .matrix t => ((team? s t).bind fun T => T.mxq.find? fun o => o.started && !o.done).elim s fun op => mxFail s t op (.trap .perm r.va) r.access []
  | .pass k i => passStop s k i r.access (.trap .perm r.va)
  | .stream t q => modTeam s t fun T => { T with fifos := modAt T.fifos q fun f =>
      { f with st := .closed, stream := f.stream.map fun st => { st with failure := some (.perm, r.va) } } }
  | .copy t n => modTeam s t fun T => { T with copies := T.copies.map fun c =>
      if c.num == n then { c with pos := c.len, code := max c.code 2 } else c }
  | .scopy x n => modCtx s x fun X => { X with copies := X.copies.map fun c => if c.num == n then { c with fin := true, code := max c.code 2 } else c }
  | _ => s

/-- NACK (R352, R460): the requester retranslates and retries with the same identity. The refusal of a context's or an engine's request comes
the same way. -/
def execNackFlit (rid : Rid) (s : State) : Host.Outcome State Fault Refusal :=
  finishEvent s do
    let r ← need (req? s rid)
    needs (answerNext s r)
    match r.st, r.who with
    | .nacked, _ => .ok (resolveReq s r)
    | .refused, .context x => .ok (ctxRefused s x r)
    | .refused, .wave _ _ => .error .off
    | .refused, .request _ => .error .off
    | .refused, _ => .ok (engineRefused s r)
    | _, _ => .error .off

/-- The gang a refusal traps: the one that holds the lowest live slice of the gang that issued. -/
def refusedGang (W : Wave) (g : BitVec 8) : Option (BitVec 8) :=
  ((slicesOf g).find? fun i => (W.slice i).live).map fun i => W.gangOf i

/-- Whether a gang stands at a word boundary (R488). -/
def atBoundary (W : Wave) (g : BitVec 8) : Bool :=
  (slicesOf g).all fun i => match (W.slice i).hold with
    | .free | .wait _ => true
    | _ => false

/-- DEFERRED_PERM (R488). A refusal that finds its gang ended is dropped; that of a fetch traps the word itself. -/
def execDeferredPerm (team wave : Nat) (s : State) : Host.Outcome State Fault Refusal :=
  finishEvent s do
    let r ← need (s.reqs.find? fun r => r.who == .wave team wave && r.st == .refused)
    let s1 := modWave (delReq s r.rid) team wave fun W => { W with busy := W.busy.filter fun b => b.2 != .req r.rid }
    let s2 := endAcquire (if r.counts then owcDown s1 r.who else s1) team wave r
    let W ← need (wave? s2 team wave)
    match refusedGang W r.gang with
    | none => .ok (wakeWave s2 team wave)
    | some g => do
      needs (atBoundary W g && !W.parked && (!W.intrap || g &&& ~~~W.trapGang == 0))
      let s3 := modWave s2 team wave fun W => W.holdGang g .free
      .ok (makeReady (takeTrapAt s3 team wave g 0x0A (BitVec.ofNat 64 r.va) (W.epcAt g) (r.size != 128)) team wave)

/-! Requesters that are parked (R428, R432). -/

/-- The park of an engine requester, with the key of its team. -/
def enginePark (s : State) : Requester → Option (Nat × EngPark)
  | .matrix t => ((team? s t).bind fun T => (T.mxq.find? fun o => o.park.isSome).bind (·.park)).map fun p => (t, p)
  | .pass k i => (pass? s k i).bind fun P => P.park.map fun p => (P.team, p)
  | .stream t q => ((team? s t).bind fun T => (T.fifos[q]?).bind fun f => f.stream.bind (·.park)).map fun p => (t, p)
  | .copy t n => ((team? s t).bind fun T => (T.copies.find? fun c => c.num == n).bind (·.park)).map fun p => (t, p)
  | .context x => (smGet? s.ctxs x).bind fun X =>
      if X.st == .parked then some (teamKey X.part X.team, ⟨X.parks, X.faultAcc, X.stamp, X.noted⟩) else none
  | .scopy x n => (smGet? s.ctxs x).bind fun X =>
      ((X.copies.find? fun c => c.num == n).bind (·.park)).map fun p => (teamKey X.part X.team, p)
  | _ => none

/-- Changes the park of an engine requester; none lets it go on. -/
def setEnginePark (s : State) (who : Requester) (q : Option EngPark) : State :=
  let put (o : Option EngPark) : Option EngPark := if o.isSome then q else o
  match who with
  | .matrix t => modTeam s t fun T => { T with mxq := T.mxq.map fun o => { o with park := put o.park } }
  | .pass k i => modPass s k i fun P => { P with park := put P.park }
  | .stream t n => modTeam s t fun T => { T with fifos := modAt T.fifos n fun f =>
      { f with stream := f.stream.map fun st => { st with park := put st.park } } }
  | .copy t n => modTeam s t fun T => { T with copies := T.copies.map fun c => if c.num == n then { c with park := put c.park } else c }
  | .context x => modCtx s x fun X =>
      if X.st != .parked then X
      else match q with
        | some p => { X with noted := p.noted, stamp := p.stamp }
        | none => { X with st := .running, wait := none, noted := false, parks := [], redo := true }
  | .scopy x n => modCtx s x fun X => { X with
      copies := X.copies.map fun c => if c.num == n then { c with park := put c.park } else c }
  | _ => s

/-- A parked wave's lanes resolved one after the other: the state, the lanes whose pages are not resident with the kind and
index of their record, and an address that nothing permits. Lanes at the entries of KIND 10 in `ext` are among the first. -/
def resolveLanes (t : Nat) (a : Acc) (ext : List Extent) : List ParkLane → State → State × List (ParkLane × Nat × Nat) × Option Nat
  | [], s => (s, [], none)
  | l :: r, s =>
    if absentEntry ext l.idx then
      let (s2, xs, bad) := resolveLanes t a ext r s
      (s2, (l, 1, l.idx) :: xs, bad)
    else
      let (s1, res) := resolveVa s t l.va a
      let (s2, xs, bad) := resolveLanes t a ext r s1
      match res with
      | .absent kind idx => (s2, (l, kind, idx) :: xs, bad)
      | .forbidden => (s2, xs, some l.va)
      | _ => (s2, xs, bad)

/-- The wave goes on with the word it is parked at (R427, R432). -/
def replayWave (s : State) (t w : Nat) : State :=
  makeReady (modWave s t w fun W => if W.parked then { W with replay := true, parks := [] } else W) t w

/-- A parked wave translated anew (R428). Where some lanes stand at entries of KIND 10, the records of all are written now, in one
block (R429). -/
def resolveWave (s : State) (t w : Nat) : Except Stop State := do
  let T ← need (team? s t)
  let W ← need T.waves[w]?
  let todo := W.parks.filter fun l => !absentEntry T.ext l.idx
  needs (W.parked && !W.replay && !todo.isEmpty && !todo.any fun l => vaClosed s T l.va)
  let a := Acc.ofCode W.parkAcc
  let (s1, gone, bad) := resolveLanes t a T.ext W.parks s
  match bad with
  | some va => .ok (endMissing s1 t w W.wepc va)
  | none =>
    if gone.isEmpty then .ok (replayWave s1 t w)
    else
      let pc : DWord := W.wepc &&& 0x00FF_FFFF_FFFF_FFF8#64
      let recs := parkRecords (gone.map fun g => { g.1 with idx := g.2.2, code := g.2.1 }) fun va lanes idx kind =>
        faultRecord va pc lanes T.serial w (accessCode a T.secure) (idx % 256) kind (fbGen s1 T.part) T.asid
      .ok (modWave (writeFaults s1 T.part recs) t w fun W => { W with parks := [], stamp := fbGen s1 T.part })

/-- An engine requester or a context translated anew (R428, R337), as a wave is. -/
def resolveEngine (s : State) (who : Requester) (t : Nat) (p : EngPark) : Except Stop State := do
  let T ← need (team? s t)
  needs (!p.noted && !p.pages.any fun l => vaClosed s T l.va)
  let a := Acc.ofCode p.acc
  let (s1, gone, bad) := resolveLanes t a T.ext p.pages s
  match bad with
  | some va => .ok (endMissing s1 t (waveCode s1 who) 0 va)
  | none =>
    if gone.isEmpty then .ok (setEnginePark s1 who none)
    else
      .ok (setEnginePark (engineRecords s1 T.part T.asid T.secure T.serial (waveCode s1 who) a
        (gone.map fun g => { g.1 with idx := g.2.2, code := g.2.1 })) who (some { p with noted := true, stamp := fbGen s1 T.part }))

/-- ON_DEMAND_TRANSLATE (R428). -/
def execOnDemandTranslate (who : Requester) (s : State) : Host.Outcome State Fault Refusal :=
  finishEvent s do
    match who with
    | .wave t w => resolveWave s t w
    | .request rid =>
      let r ← need (req? s rid)
      match r.st with
      | .waiting _ false => .ok (resolveReq s r)
      | _ => .error .off
    | who =>
      let (t, p) ← need (enginePark s who)
      resolveEngine s who t p

/-! MINGEN (R351). -/

/-- A raised MINGEN reaches a tile (R351): its home and cores have the value, and the cores of partitions that use the address space
invalidate their load caches. -/
def raiseAt (s : State) (tile asid v : Nat) : State :=
  let A := asidOf s asid
  let homes := if v == A.mingen then smDel A.homes tile else smSet A.homes tile v
  let s1 := { s with asids := smSet s.asids asid { A with homes := homes } }
  ((List.range 8).map (8 * tile + ·)).foldl invalidate s1

/-- Whether a command waits for the raise of an address space. -/
def Pending.ofAsid (asid : Nat) : Pending → Bool
  | .mingen _ _ a => a == asid
  | _ => false

/-- MINGEN_RAISE_COMPLETE (R351): every tile has got the value. -/
def execMingenRaiseComplete (asid : Nat) (s : State) : Host.Outcome State Fault Refusal :=
  finishEvent s do
    let A := asidOf s asid
    needs (A.raising.isSome && A.homes.isEmpty)
    let ps := s.parts.filter fun p => p.2.pend.any (Pending.ofAsid asid)
    let s1 := { s with asids := smSet s.asids asid { A with raising := none } }
    .ok (ps.foldl (fun (s : State) (p : Nat × Part) =>
      (p.2.pend.filter (Pending.ofAsid asid)).foldl (fun (s : State) (q : Pending) => match q with
        | .mingen tag port _ => answer s p.1 port tag 0
        | _ => s) (modPart s p.1 fun P => { P with pend := P.pend.filter fun q => !q.ofAsid asid })) s1)

/-! Uncorrectable errors (R445, R454). -/

/-- An uncorrectable error marks a granule, a register, a cell, or the payload of a flit on its way. -/
def upsetMove (s : State) : Upset → State
  | .mem pa => physMark s pa 1 true
  | .scratch t off => modTeam s t fun T =>
      if off < T.scratchSize && T.unitSt false (off / Config.regionBytes) == .present then scratchMark T off 1 else T
  | .payload rid => modReq s rid fun r => match r.st with
      | .flight => if r.kind == .read then r else { r with bad := true }
      | .answered bs _ => { r with st := .answered bs 0xFF, line := r.line.map fun l => { l with psn := 0xFF } }
      | _ => r
  | .jflit n => { s with jnet := modAt s.jnet n fun f => { f with cells := f.cells.map fun c => (c.1, c.2.1, true) } }
  | .reg t w code lane => modWave s t w fun W => W.markReg code (lane % 32)
  | .kreg x n => modCtx s x fun X => if n < 64 then { X with kpoison := nsAdd X.kpoison n } else X
  | .cell t i k => modTeam s t fun T =>
      if k < 16384 && T.unitSt true i == .present then { T with tiles := modAt T.tiles i fun x => { x with psn := nsAdd x.psn k } } else T
  | .mail n => { s with mails := modAt s.mails n fun f => { f with msg := { f.msg with psn := 0xFF } } }
  | .fabric sent n =>
    let mark (f : FabFlit) : FabFlit := { f with
      req := f.req.map fun r => match r.st with
        | .answered bs _ => { r with st := .answered bs 0xFF, line := r.line.map fun l => { l with psn := 0xFF } }
        | _ => if r.kind == .read then r else { r with bad := true }
      mail := f.mail.map fun m => { m with msg := { m.msg with psn := 0xFF } } }
    if sent then { s with fabSent := modAt s.fabSent n fun h => { h with flit := mark h.flit } }
    else { s with fabIn := modAt s.fabIn n mark }

/-! Combining gateways. -/

/-- Whether a gateway may combine a request (R476): an integer reduction, relaxed or release, to the other die. -/
def combinable (s : State) (r : MemReq) : Bool :=
  r.kind == .reduction && r.st == .flight && (homeDie s r.pa).any (fun d => d != r.rid.die) && r.rid.mod == s.moduleNo &&
    r.ty.ult 4#4 && r.aop.ult 6#3 && !r.ord.getLsbD 0

/-- Whether two reductions are alike for a gateway; they carry the same translation. -/
def alike (a b : MemReq) : Bool :=
  a.va == b.va && a.pa == b.pa && a.aop == b.aop && a.ty == b.ty && a.asid == b.asid && a.gen == b.gen && a.key == b.key &&
    a.sec == b.sec && a.rid.die == b.rid.die && a.eng.map (·.2) == b.eng.map (·.2)

/-- GATEWAY_REDUCTION (R455, R476): the gateway at which it would cross holds a reduction, or joins it to one it holds, unless the
partition's halt line has reached it (R479). -/
def execGatewayReduction (rid : Rid) (s : State) : Host.Outcome State Fault Refusal :=
  finishEvent s do
    let r ← need (req? s rid)
    needs (combinable s r && !heldAtGateway s rid && !homeBlocked s r)
    let gw ← need (crossedAt s)
    needs (windowRoom s gw (r.part s) && !unitStopped s (r.part s) (gwUnit rid.die gw))
    let hit := s.heldRed.find? fun h =>
      h.gw == gw && h.die == rid.die && s.now ≤ h.since + 32 && (req? s h.rid).isNone &&
        h.parts.any fun q => (req? s q).any fun q => alike q r
    let s := noteWindow s gw (r.part s) rid none
    match hit with
    | some h => .ok { s with heldRed := s.heldRed.map fun g => if g.rid == h.rid then { g with parts := g.parts ++ [rid] } else g }
    | none =>
      let own : Rid := ⟨rid.mod, rid.die, rid.tile, 26 + gw, s.fresh % 2 ^ 20⟩
      .ok { s with heldRed := s.heldRed ++ [⟨gw, rid.die, own, [rid], s.now⟩], fresh := s.fresh + 1 }

/-- GATEWAY_REDUCTION_WINDOW_END (R476): a reduction alone goes on as it is; joined ones go on as one under the gateway's own
identity. -/
def execGatewayReductionWindowEnd (n : Nat) (s : State) : Host.Outcome State Fault Refusal :=
  finishEvent s do
    let h ← need s.heldRed[n]?
    needs (req? s h.rid).isNone
    let rs := h.parts.filterMap (req? s)
    match rs with
    | [] => .ok { s with heldRed := s.heldRed.filter fun g => g.rid != h.rid }
    | [_] => .ok { s with heldRed := s.heldRed.filter fun g => g.rid != h.rid }
    | r :: rest =>
      let v := rest.foldl (fun a q => atomicOp q.ty.toNat q.aop.toNat a (ofBytes q.data) 0) (ofBytes r.data)
      .ok (addReq s { r with rid := h.rid, who := .request r.rid, data := toBytes r.size v })

/-- Two ANCHOR flits added cell by cell (R475): the sum and whether a cell saturated. -/
def addFlits (a b : JFlit) : JFlit :=
  let cols := b.cells.foldl (fun m c => nsAdd m c.1) (a.cells.foldl (fun m c => nsAdd m c.1) [])
  let get (f : JFlit) (c : Nat) : Int × Bool :=
    match f.cells.find? fun x => x.1 == c with
    | some x => (toSigned 48 x.2.1.toNat, x.2.2)
    | none => (0, false)
  let outs := cols.map fun c =>
    let (x, p) := get a c
    let (y, q) := get b c
    let (v, sat) := satCell (x + y)
    (c, v, p || q, sat)
  { a with
    type := if a.type == .datasat || b.type == .datasat || (outs.any fun o => o.2.2.2) then .datasat else .data
    arg := a.arg + b.arg
    last := a.last + b.last
    cells := outs.map fun o => (o.1, o.2.1, o.2.2.1) }

/-- GATEWAY_ANCHOR_DATA (R475): at a gateway the partition's halt line has not reached (R479). -/
def execGatewayAnchorData (n : Nat) (s : State) : Host.Outcome State Fault Refusal :=
  finishEvent s do
    let f ← need s.jnet[n]?
    needs (crossesGateway f && !(s.jnet.take n).any fun g => behind s f g)
    let gw := gatewayOf s f.dest
    needs (!((partOfCore s f.dest).elim false fun p => unitStopped s p (gwUnit (dieOf f.src) gw)))
    let rest := s.jnet.eraseIdx n
    let i := s.held.findIdx? fun h =>
      h.gw == gw && h.die == dieOf f.src && h.flit.dest == f.dest && h.flit.chain == f.chain && h.flit.row == f.row &&
        h.flit.seg == f.seg && h.flit.arg + f.arg ≤ 127 && s.now ≤ h.since + 64
    match i with
    | some i =>
      let late := (s.held.drop (i + 1)).any fun h => h.gw == gw && h.die == dieOf f.src && h.srcs.contains f.src
      if late then .ok { s with jnet := rest, held := s.held ++ [⟨gw, dieOf f.src, f, [f.src], s.now⟩] }
      else .ok { s with jnet := rest, held := modAt s.held i fun h => { h with flit := addFlits h.flit f, srcs := nsAdd h.srcs f.src } }
    | none => .ok { s with jnet := rest, held := s.held ++ [⟨gw, dieOf f.src, f, [f.src], s.now⟩] }

/-- GATEWAY_WINDOW_END (R465, R475): the flit goes on, behind what gateways sent before it, before the flits of its sources that it
held back. -/
def execGatewayWindowEnd (n : Nat) (s : State) : Host.Outcome State Fault Refusal :=
  finishEvent s do
    let h ← need s.held[n]?
    needs (!(s.held.take n).any fun g => g.gw == h.gw && g.die == h.die && g.srcs.any fun c => h.srcs.contains c)
    let src := 400 + 5 * h.die + h.gw
    let f := { h.flit with src := src }
    let k := s.jnet.length - (s.jnet.reverse.takeWhile fun g => g.src < 400).length
    .ok { s with held := s.held.eraseIdx n, jnet := s.jnet.take k ++ [f] ++ s.jnet.drop k }

end Sys2Proof.Machine
end

