-- ==== Sys2Proof/Machine/Launch.lean ====
section
/-! DEFINITION. Launches: a node's firing, the checks of its packet, its teams (R377–R386), drains (R379), the end of a
launch (R389), and node fields (R369). -/

namespace Sys2Proof.Machine

/-! The scheduler's own accesses. -/

/-- The physical place of a virtual address in an address space, whose page is resident. -/
def schedPa (s : State) (asid va : Nat) : Option Nat :=
  (walk s asid va).bind fun g => if g.res then some (g.pa + (va - g.va)) else none

/-- Bytes the scheduler reads in an address space. Where nothing resident is mapped they are free: the spec gives no value
for them. So are those another module holds, whose home the scheduler does not wait for (log entry 105). -/
def schedRead (s : State) (asid va n : Nat) : State × List Byte :=
  (cutRange va n).foldl (fun a p =>
    match schedPa a.1 asid (p.1 % 2 ^ 56) with
    | some pa =>
      if remote a.1 pa then (let (bs, s1) := freeBytes a.1 p.2; (s1, a.2 ++ bs)) else (a.1, a.2 ++ physGet a.1 pa p.2)
    | none => let (bs, s1) := freeBytes a.1 p.2; (s1, a.2 ++ bs)) (s, [])

/-- An atomic of the scheduler on an aligned word (R388, R389). -/
def schedAtomic (s : State) (asid va n : Nat) (f : Nat → Nat) : State :=
  match schedPa s asid va with
  | some pa =>
    if remote s pa then (let (bs, s1) := freeBytes s n; ownWrite s1 pa bs) else ownWrite s pa (toBytes n (f (physNum s pa n)))
  | none => s

/-! The packet (R381). -/

/-- Cores of clusters in ascending order. -/
def clusterCores (ks : NSet) : List Nat := ks.flatMap fun k => (List.range 8).map (8 * k + ·)

/-- A core of another module, as a team of this module's scheduler names it. -/
def farCore (m c : Nat) : Nat := 512 * (m + 1) + c

/-- The partition's cores on this module. -/
def localCores (P : Part) : List Nat := clusterCores P.clusters

/-- A partition's core list (R386): ordered by module number and then by COREID. -/
def coreList (s : State) (P : Part) : List Nat :=
  (smSet P.modules s.moduleNo P.clusters).flatMap fun q =>
    (clusterCores q.2).map fun c => if q.1 == s.moduleNo then c else farCore q.1 c

/-- A 32-bit field as a signed number. -/
def fieldI (bs : List Byte) (o : Nat) : Int := toSigned 32 (fieldB bs o 4)

/-- The declarations of a launch (R383). -/
def readDecls (bs : List Byte) (n : Nat) : List (Nat × Nat × Nat × Nat) :=
  (List.range n).map fun i =>
    (fieldB bs (32 * i) 8, fieldB bs (32 * i + 8) 8, fieldB bs (32 * i + 16) 8, fieldB bs (32 * i + 24) 4)

/-- The fields of a packet, with its declarations as read. -/
def packetLaunch (id p node firing : Nat) (k : List Byte) (decls : List (Nat × Nat × Nat × Nat)) (batch : List Nat) : Launch :=
  { Launch.blank id p with
    node := node
    firing := firing
    entry := fieldB k 0 8
    asid := fieldB k 30 1
    prio := fieldB k 28 1
    repro := bit (fieldB k 29 1) 0
    secure := bit (fieldB k 29 1) 1
    grid := fieldB k 16 4 * fieldB k 20 4 * fieldB k 24 4
    shape := BitVec.ofNat 32 (fieldB k 8 4)
    scratch := fieldB k 12 4
    pkind := fieldB k 32 4
    pmul := fieldB k 36 4
    parg := fieldB k 40 8
    dkind := fieldB k 48 4
    ddiv := fieldB k 52 4
    dmlo := fieldI k 56
    dalo := fieldI k 60
    dmhi := fieldI k 64
    dahi := fieldI k 68
    bitmap := fieldB k 72 8
    exts := decls
    heap := if bit (fieldB k 92 4) 31 then some (fieldB k 92 4 % 64) else none
    arena := fieldB k 96 8
    energy := fieldB k 104 4
    doneAddr := fieldB k 112 8
    batch := batch
    slots := batch }

/-- Limits of SHAPE (R382). -/
def shapeOk (sh : Nat) : Bool :=
  bits sh 24 22 ≤ 4 && 1 ≤ bits sh 21 19 && bits sh 21 19 ≤ 6 && 1 ≤ bits sh 18 15 && bits sh 18 15 ≤ 8 &&
    1 ≤ bits sh 6 0 && bits sh 6 0 ≤ 64

/-- A declaration within R383. -/
def declOk (d : Nat × Nat × Nat × Nat) : Bool :=
  d.1 % 8192 == 0 && d.1 / 2 ^ 56 == 0 && d.2.1 % 8192 == 0 && 8192 ≤ d.2.1 && d.2.2.1 % 8192 == 0 && d.2.2.2 < 16

/-- A heap within R384. -/
def heapOk (L : Launch) : Bool :=
  match L.heap with
  | none => true
  | some i => match L.exts[i]? with
    | some (_, len, stride, fl) => stride == 0 && bit fl 0 && bit fl 1 && !bit fl 2 && !bit fl 3 && L.grid * L.arena ≤ len
    | none => false

/-- The scratchpad of a core of the partition in bytes: the smaller where dies differ (R2, R46). -/
def partScratch (s : State) (P : Part) : Nat :=
  P.clusters.foldl (fun a k => min a (bits (dieCsr s (k / 25) 0x029).toNat 15 0 * 1024)) (2 ^ 30)

/-- The first check of R385 that fails: `tab` holds the placement table's entries. A declaration's reserved word is ignored (R9,
R383); the packet's own reserved fields are not (R385). -/
def packetFault (s : State) (P : Part) (k : List Byte) (L : Launch) (count : Nat) (tab : List Nat) : Option Nat :=
  let sh := L.shape.toNat
  let extlist := fieldB k 80 8
  let checks : List (Nat × Bool) := [
    (0x01, L.entry % 8 != 0 || L.entry / 2 ^ 56 != 0),
    (0x02, !shapeOk sh || 7 < L.prio || 3 < fieldB k 29 1 || 63 < L.asid),
    (0x03, 512 < (bits sh 6 0 + 7) / 8 * (32 * bits sh 21 19) || partScratch s P < L.scratch),
    (0x04, L.grid == 0 || 2 ^ 32 ≤ L.grid),
    (0x05, !(asidOf s L.asid).valid),
    (0x06, L.secure != P.secure),
    (0x07, 2 < L.pkind || (L.pkind == 1 && (L.parg % 16 != 0 || tab.any fun c => (coreList s P).length ≤ c))),
    (0x08, 1 < L.dkind || (L.dkind == 0 && L.ddiv != 0) || (L.dkind == 1 && (L.ddiv == 0 || 65535 < L.ddiv)) ||
      L.bitmap % 8 != 0 || (L.dkind == 1 && L.bitmap == 0)),
    (0x09, extlist % 32 != 0 || 64 < count || !L.exts.all declOk || L.arena % 256 != 0 || !heapOk L),
    (0x0A, 1024 * P.allowance < L.energy),
    (0x0B, fieldB k 31 1 != 0 || fieldB k 108 4 != 0 || fieldB k 120 136 != 0 || bits sh 31 25 != 0 || bits sh 14 7 != 0 ||
      bits (fieldB k 92 4) 30 6 != 0 || (L.pkind != 2 && L.pmul != 0) || (L.pkind == 0 && L.parg != 0) ||
      (L.pkind == 2 && L.parg / 2 ^ 32 != 0))]
  (checks.find? (·.2)).map (·.1)

/-- The core of team t by the placement (R386); 400 while a free one has none. -/
def placeTeamOf (s : State) (P : Part) (L : Launch) (tab : List Nat) (t : Nat) : Nat :=
  let cs := coreList s P
  match L.pkind with
  | 1 => cs.getD (tab.getD t 0) 400
  | 2 => cs.getD ((L.pmul * t + L.parg % 2 ^ 32) % cs.length) 400
  | _ => 400

/-- The teams of a launch come into being, Waiting (R390). -/
def spawnTeams (s : State) (p : Nat) (P : Part) (L : Launch) (tab : List Nat) : State :=
  let mk (i : Nat) : Team :=
    { (Team.blank (P.nextSerial + i) ((P.nextTag + i) % 2 ^ 16) L.id p i (placeTeamOf s P L tab i)).shaped L with since := s.now }
  let s1 := (List.range L.grid).foldl (fun s i => setTeam s (teamKey p (P.nextSerial + i)) (mk i)) s
  modPart s1 p fun P => { P with nextSerial := P.nextSerial + L.grid, nextTag := (P.nextTag + L.grid) % 2 ^ 16 }

/-- The 64-byte record of a refused launch (R385). -/
def refusedRecord (node reason firing : Nat) : List Byte :=
  toBytes 2 node ++ toBytes 1 reason ++ toBytes 5 0 ++ toBytes 8 firing ++ toBytes 48 0

/-- A node fires with the next n records of its stream (R377, R385). -/
def fireNode (s : State) (p node n : Nat) : State :=
  match smGet? s.parts p, node? s p node with
  | some P, some N =>
    let k := N.packet
    let asid := fieldB k 30 1
    let count := fieldB k 88 4
    let batch := N.stream.take n
    let (s1, db) := schedRead s asid (fieldB k 80 8) (32 * min count 64)
    let grid := fieldB k 16 4 * fieldB k 20 4 * fieldB k 24 4
    let (s2, tb) := if fieldB k 32 4 == 1 && grid < 2 ^ 32 then schedRead s1 asid (fieldB k 40 8) (2 * grid) else (s1, [])
    let tab := (List.range (tb.length / 2)).map fun i => fieldB tb (2 * i) 2
    let L := packetLaunch s2.nextLaunch p node N.firings k (readDecls db (min count 64)) batch
    let s3 := modNode { s2 with nextLaunch := s2.nextLaunch + 1, launches := smSet s2.launches L.id L } p node fun N =>
      { N with stream := N.stream.drop n, firings := N.firings + 1, live := N.live + 1 }
    match packetFault s3 P k L count tab with
    | none => modPart (spawnTeams s3 p P L tab) p fun P => { P with clean := false }
    | some why =>
      let s4 := modNode (launchOver s3 L.id) p node fun N => { N with errors := (N.errors + 1) % 2 ^ 32 }
      sqPush s4 p (refusedRecord node why L.firing)
  | _, _ => s

/-- Whether a node may start one more launch (R377). -/
def Node.roomLive (N : Node) : Bool := N.maxlive == 0 || N.live < N.maxlive

/-- NODE_FIRE (R377). -/
def execNodeFire (p node : Nat) (s : State) : Host.Outcome State Fault Refusal :=
  finishEvent s do
    let N ← need (node? s p node)
    needs (!halted s p && N.on && !N.stopping && N.due.isEmpty && N.coalesce ≤ N.stream.length && N.roomLive)
    .ok (wakePart (fireNode s p node N.coalesce) p)

/-- The enabled nodes that have a node among their successors (R379). -/
def producers (P : Part) (node : Nat) : List (Nat × Node) := P.nodes.filter fun q => q.2.on && q.2.succ.contains node

/-- A drain of a node is complete: DRAINS counts it, and the node's successors learn of it (R379). -/
def drained (s : State) (p node : Nat) : State :=
  let s1 := modNode s p node fun N => { N with drainReq := false, drains := (N.drains + 1) % 2 ^ 16, drainedBy := [] }
  ((node? s p node).elim [] (·.succ)).foldl (fun s m => modNode s p m fun M =>
    if M.on && !M.root then { M with drainedBy := nsAdd M.drainedBy node, drainReq := M.drainReq || M.autodrain } else M) s1

/-- The next batch that a drain of a root has fixed fires, when one more launch may start (R377, R379). -/
def fireDue (s : State) (p node : Nat) : Option State :=
  (node? s p node).bind fun N =>
    match N.due with
    | [] => none
    | (n, last) :: r =>
      if halted s p || !N.on || !(n == 0 || (!N.stopping && N.roomLive)) then none
      else
        let s1 := modNode (if n == 0 then s else wakePart (fireNode s p node n) p) p node fun N => { N with due := r }
        some (if last then drained s1 p node else s1)

/-- Fires the batches that drains have fixed, as many as may start. -/
def fireAllDue (p node : Nat) : Nat → State → State
  | 0, s => s
  | k + 1, s => match fireDue s p node with
    | none => s
    | some s1 => fireAllDue p node k s1

/-- A drain of a root is requested: the full batches of the records before it stand (R377, R402), and one batch of all that remain
follows, whatever COALESCE says (R379; log entry 106): `fresh` is how many records the commit itself brings. Where one more launch
may start they fire at once. -/
def drainRoot (s : State) (p node fresh : Nat) : State :=
  match node? s p node with
  | none => s
  | some N =>
    let loose := N.stream.length - (N.due.map (·.1)).sum
    let full := (loose - fresh) / N.coalesce
    let due := N.due ++ List.replicate full (N.coalesce, false) ++ [(loose - full * N.coalesce, true)]
    fireAllDue p node due.length (modNode s p node fun N => { N with due := due })

/-- DRAIN_COMPLETE (R379): of a root, a batch that its drain has fixed fires; of another node, once its producers have drained and no
full batch can fire (R377, R402), what is left fires as one batch. -/
def execDrainComplete (p node : Nat) (s : State) : Host.Outcome State Fault Refusal :=
  finishEvent s do
    let P ← need (smGet? s.parts p)
    let N ← need (node? s p node)
    if N.root then need (fireDue s p node)
    else do
      needs (!halted s p && N.on && N.drainReq)
      needs ((producers P node).all fun q => nsHas N.drainedBy q.1 && q.2.live == 0)
      needs (N.stream.isEmpty || (!N.stopping && N.roomLive && N.stream.length < N.coalesce))
      .ok (drained (if N.stream.isEmpty then s else fireNode s p node N.stream.length) p node)

/-- Waves of other launches that wait for this one's end (R400) try again. -/
def execLaunchEnd (launch : Nat) (s : State) : Host.Outcome State Fault Refusal :=
  finishEvent s do
    let L ← need (smGet? s.launches launch)
    needs (!halted s L.part && !L.ended && !L.killed && L.endedTeams.length == L.grid)
    let s1 := if L.doneAddr == 0 then s else schedAtomic s L.asid L.doneAddr 8 fun v => (v + 1) % 2 ^ 64
    .ok (wakePart (launchOver s1 launch) L.part)

/-! Node fields (R369). -/

/-- The offset of the first field of a descriptor that is reserved and not 0, or outside its limits. -/
def nodeFault (d : List Byte) : Option Nat :=
  let nsucc := fieldB d 272 1
  let checks : List (Nat × Bool) := [
    (256, fieldB d 256 8 % 256 != 0),
    (264, fieldB d 264 4 == 0 || 65535 < fieldB d 264 4),
    (268, fieldB d 268 1 == 0 || 8 < fieldB d 268 1),
    (269, 3 < fieldB d 269 1),
    (270, fieldB d 270 2 == 0 || 1024 < fieldB d 270 2),
    (272, 8 < nsucc),
    (274, bits (fieldB d 274 2) 14 12 != 0),
    (276, fieldB d 276 4 != 0)] ++
    (List.range 8).map (fun i => (280 + 2 * i, 4095 < fieldB d (280 + 2 * i) 2 || (nsucc ≤ i && fieldB d (280 + 2 * i) 2 != 0))) ++
    [(296, fieldB d 296 88 != 0)]
  (checks.find? (·.2)).map (·.1)

/-- A node as its descriptor gives it, its state block clear (R368, R372). -/
def nodeOf (d : List Byte) (addr first : Nat) : Node where
  on := true
  packet := d.take 256
  qbase := fieldB d 256 8
  qcap := fieldB d 264 4
  rsize := fieldB d 268 1
  root := bit (fieldB d 269 1) 0
  autodrain := bit (fieldB d 269 1) 1
  coalesce := fieldB d 270 2
  maxlive := fieldB d 273 1
  prod := if bit (fieldB d 274 2) 15 then some (fieldB d 274 2 % 4096) else none
  succ := (List.range (fieldB d 272 1)).map fun i => fieldB d (280 + 2 * i) 2 % 4096
  committed := 0
  freed := 0
  firings := 0
  refused := 0
  errors := 0
  live := 0
  drains := 0
  stream := []
  due := []
  used := []
  reserved := []
  drainReq := false
  drainedBy := []
  stopping := false
  endedFirings := []
  firstLaunch := first
  addr := addr

end Sys2Proof.Machine
end

