-- ==== Sys2Proof/Machine/Fabric.lean ====
section
/-! DEFINITION. The links to the outside: Thielo flits at their receiver, acknowledgements and retransmission (R494), CRC
failures, and ports and modules taken out of service (R480, R481, R491), RDMA through host windows and host commits
(R373–R375, R496–R499). -/

namespace Sys2Proof.Machine

/-! The fabric. -/

/-- FLIT_CRC_FAIL (R491): the link sends the flit again, and counts the retry. -/
def execFlitCrcFail (port : Nat) (s : State) : Host.Outcome State Fault Refusal :=
  finishEvent s do
    needs (nsHas s.ports port)
    .ok { s with portRetries := smPut 0 s.portRetries port (smGetD s.portRetries port 0 + 1) }

/-- FABRIC_PORT_FAIL (R491): a port that has exceeded its retry limit, which the spec does not give, leaves service. A
module with no port left toward another has lost its path. -/
def execFabricPortFail (port : Nat) (s : State) : Host.Outcome State Fault Refusal :=
  finishEvent s do
    needs (nsHas s.ports port && smGetD s.portRetries port 0 != 0)
    let s1 := { s with ports := nsDel s.ports port }
    let lost := (List.range 256).filter fun m =>
      m != s.moduleNo && !(portsTo s (port / 64) m).isEmpty && (portsTo s1 (port / 64) m).isEmpty
    .ok (lost.foldl pathFailed s1)

/-- How far sequence number n is past m, modulo 2^24. -/
def seqDist (n m : Nat) : Nat := (n + 2 ^ 24 - m % 2 ^ 24) % 2 ^ 24

/-- The numbers that came beyond a gap join once the gap is filled. -/
def advanceSeq (seen : NSet) : Nat → Nat → Nat × NSet
  | 0, k => (k, seen)
  | n + 1, k => if nsHas seen k then advanceSeq (nsDel seen k) n ((k + 1) % 2 ^ 24) else (k, seen)

/-- A flow's record takes a flit; none when the flit is a duplicate within the window of 4,096 (R494). -/
def FabRecv.take (r : FabRecv) (n : Nat) : Option FabRecv :=
  let ahead := seqDist n r.next
  if ahead < 2 ^ 23 then
    if nsHas r.seen n then none
    else
      let (k, seen) := advanceSeq (nsAdd r.seen n) (r.seen.length + 1) r.next
      some { r with next := k, seen := seen }
  else if seqDist r.next n ≤ 4096 then none
  else some r

/-- The flow of a flit at its receiver. -/
def FabRecv.flow (r : FabRecv) (f : FabFlit) : Bool := r.part == f.part && r.smod == f.smod && r.vc == f.vc

def recvOf (s : State) (f : FabFlit) : FabRecv := (s.fabRecv.find? fun r => r.flow f).getD ⟨f.part, f.smod, f.vc, 0, []⟩

/-- A request from another module (R484, R495): one that was performed before gets the recorded answer (R365, R477); one
that is still here is a copy; another comes to its home as a local one does. -/
def foreignRequest (s0 : State) (f : FabFlit) (r : MemReq) : State :=
  let r1 := { r with who := .request r.rid, lane := f.part, st := .flight, sent := false, via := f.port / 64 % 2 }
  let late (q : Rid) : Bool := portOf q == portOf r.rid && 2 ^ 19 ≤ (r.rid.seq + 2 ^ 20 - q.seq % 2 ^ 20) % 2 ^ 20
  let s := { s0 with aged := s0.aged.filter fun q => !late q }
  let atGateway := s.gateways.findSome? fun G => ((G.window.find? fun x => x.2.1 == r.rid).bind (·.2.2)).map (·.1)
  match ((s.dup.find? fun d => d.1 == r.rid).map (·.2)).or atGateway with
  | some st => answerFabric s { r1 with st := st }
  | none => if (req? s r.rid).isSome || remote s r.pa then s else addReq s r1

/-- What a flit brings: a request, an answer, a flit of the mailbox network, or the halt line (R492, R495). -/
def deliver (s : State) (f : FabFlit) : State :=
  match f.stop, f.req, f.mail with
  | some (reason, origin, m, addr), _, _ => if f.vc == vcHalt then lineUp s f.part ⟨reason, origin, m, addr, [], 0⟩ else s
  | none, some r, _ =>
    if f.vc == vcRequest then foreignRequest s f r
    else if f.vc == vcResponse then fabAnswer s r
    else s
  | none, none, some m => if m.goesTo == s.moduleNo then { s with mails := s.mails ++ [m] } else s
  | none, none, none => s

/-- A flit comes in on a port of the module (R492, R494). -/
def arriveMove (s : State) (f : FabFlit) : State :=
  if f.dmod == s.moduleNo && nsHas s.ports f.port then { s with fabIn := s.fabIn ++ [f] } else s

/-- THIELO_DATA (R494): the flit is taken unless it is a duplicate, and E2EACK goes back. A copy of a request whose identity has aged out of a
window is held (R477). -/
def execThieloData (n : Nat) (s : State) : Host.Outcome State Fault Refusal :=
  finishEvent s do
    let f ← need s.fabIn[n]?
    needs (f.type == .data && f.dmod == s.moduleNo)
    needs (!(f.vc == vcRequest && f.req.any fun r => s.aged.contains r.rid))
    let s1 := { s with fabIn := s.fabIn.eraseIdx n }
    let r := recvOf s1 f
    let r' := r.take f.seq
    let r1 := r'.getD r
    let s2 := { s1 with fabRecv := (s1.fabRecv.filter fun q => !q.flow f) ++ [r1] }
    let s3 := if r'.isSome then deliver s2 f else s2
    let ack : FabFlit := ⟨.e2eack, f.smod, s.moduleNo, f.part, f.vc, (r1.next + 2 ^ 24 - 1) % 2 ^ 24, 0, f.rid, none, none, none⟩
    .ok (transmit s3 ack (choosePort (portsTo s3 0 f.smod) f.vc f.rid))

/-- E2EACK (R494): every flit of the flow up to the number is released. -/
def execE2eack (n : Nat) (s : State) : Host.Outcome State Fault Refusal :=
  finishEvent s do
    let f ← need s.fabIn[n]?
    needs (f.type == .e2eack && f.dmod == s.moduleNo)
    let done (h : FabSent) : Bool :=
      h.flit.part == f.part && h.flit.dmod == f.smod && h.flit.vc == f.vc && seqDist f.seq h.flit.seq < 2 ^ 23
    .ok { s with fabIn := s.fabIn.eraseIdx n, fabSent := s.fabSent.filter fun h => !done h }

/-- E2E_RETRANSMIT (R494): after 8,192 cc the flit goes again on a port chosen afresh; after 7 times the path has failed. -/
def execE2eRetransmit (n port : Nat) (s : State) : Host.Outcome State Fault Refusal :=
  finishEvent s do
    let h ← need s.fabSent[n]?
    needs (h.sentAt + 8192 ≤ s.now)
    if 7 ≤ h.tries then .ok (pathFailed { s with fabSent := s.fabSent.eraseIdx n } h.flit.dmod)
    else do
      let die := if (portsTo s 0 h.flit.dmod).contains port then 0 else 1
      needs ((portsTo s die h.flit.dmod).contains port)
      .ok (transmit { s with fabSent := setAt s.fabSent n { h with sentAt := s.now, tries := h.tries + 1 } } h.flit (some port))

/-! The die pair. -/

/-- The last gateway has failed (R481): every partition with clusters of both dies halts with reason 2. -/
def dieLinkLost (s : State) (g : Nat) : State :=
  if (List.range 5).any (gatewayUp s) then s
  else (s.parts.filter fun p => p.2.clusters.any (· < 25) && p.2.clusters.any (25 ≤ ·)).foldl
    (fun s p => raiseHalt s p.1 2 (gwUnit 0 g) 0) s

/-- UCIE_LINK_LEVEL_RETRY (R480). -/
def execUcieLinkLevelRetry (gw m : Nat) (s : State) : Host.Outcome State Fault Refusal :=
  finishEvent s do
    let G ← need s.gateways[gw]?
    needs (G.modules.getD m false)
    .ok { s with gateways := setAt s.gateways gw { G with retries := modAt G.retries m (· + 1) } }

/-- UCIE_MODULE_FAIL (R480, R481, R502): a module that has exceeded its retry limit, which the spec does not give, leaves
service. -/
def execUcieModuleFail (gw m : Nat) (s : State) : Host.Outcome State Fault Refusal :=
  finishEvent s do
    let G ← need s.gateways[gw]?
    needs (G.modules.getD m false && G.retries.getD m 0 != 0)
    let s1 := { s with gateways := setAt s.gateways gw { G with modules := setAt G.modules m false } }
    .ok (if gatewayUp s1 gw then s1 else dieLinkLost (emitOut s1 (.interrupt 2 gw)) gw)

/-! The host. -/

/-- A queue pair that serves RDMA: open, not a management one (R496). -/
def rdmaQp (s : State) (port qp : Nat) : Option Qp :=
  s.qps.find? fun q => q.port == port && q.num == qp && !q.mgmt && !q.error

/-- A queue pair enters its error state (R496, R498). -/
def failQp (s : State) (port qp : Nat) : State :=
  { s with qps := s.qps.map fun q => if q.port == port && q.num == qp then { q with error := true } else q }

/-- ROCE_INVALID_REQUEST (R496). -/
def execRoceInvalidRequest (port qp : Nat) (s : State) : Host.Outcome State Fault Refusal :=
  finishEvent s do
    needs (s.qps.any fun q => q.port == port && q.num == qp && !q.error)
    .ok (emitOut (failQp s port qp) (.roceError port qp))

/-- The window of a memory key in a partition (R497): its base, length, address space, whether it may be read and
written. -/
def hostWindow (s : State) (p : Nat) (key : Nat) : Option (Nat × Nat × Nat × Bool × Bool) :=
  (smGet? s.windows (p * 64 + key / 2 ^ 26)).bind fun W =>
    let len := bits W.len.toNat 42 0
    if len != 0 && bits W.check.toNat 25 0 == key % 2 ^ 26 then
      some (bits W.vbase.toNat 55 13 * 8192, len * 8192, bits W.ctl.toNat 15 10, W.ctl.getLsbD 8, W.ctl.getLsbD 9)
    else none

/-- The physical addresses of a host access, piece by piece; none when a page refuses it (R498). -/
def hostPieces (s : State) (P : Part) (asid va n : Nat) (write : Bool) : Option (List (Nat × Nat × Nat)) :=
  (cutRange va n).mapM fun p =>
    (walk s asid p.1).bind fun g =>
      if g.res && (if write then g.w else g.r) && g.sec == P.secure && pageAgrees s g then some (p.1, p.2, g.pa + (p.1 - g.va))
      else none

/-- Whether a page of a host access lies over a region held closed: the access waits (R488). -/
def hostClosed (s : State) (asid va n : Nat) : Bool := (cutRange va n).any fun p => (walk s asid p.1).any (pageClosed s)

/-- The pieces of an RDMA message, or none when it is refused (R498). -/
def rdmaPieces (s : State) (Q : Qp) (r : RdmaReq) (n : Nat) (write : Bool) : Except Stop (Option (List (Nat × Nat × Nat))) := do
  let P ← need (smGet? s.parts Q.part)
  match hostWindow s Q.part r.key.toNat with
  | none => .ok none
  | some (base, len, asid, mayRead, mayWrite) =>
    if base ≤ r.va && r.va + n ≤ base + len && (if write then mayWrite else mayRead) then do
      needs (!hostClosed s asid r.va n)
      .ok (hostPieces s P asid r.va n write)
    else .ok none

/-- A refused message: nothing of it is done (R498). -/
def rdmaRefuse (s : State) (r : RdmaReq) : State := emitOut (failQp s r.port r.qp) (.rdmaError r.port r.qp)

/-- The bytes of a message are written at their homes, in ascending order (R498). -/
def rdmaPut (s : State) (r : RdmaReq) (ps : List (Nat × Nat × Nat)) : State :=
  ps.foldl (fun s p => ownWrite s p.2.2 (sliceB r.data (p.1 - r.va) p.2.1)) s

/-- RDMA_WRITE (R498, R499). -/
def execRdmaWrite (r : RdmaReq) (s : State) : Host.Outcome State Fault Refusal :=
  finishEvent s do
    let Q ← need (rdmaQp s r.port r.qp)
    match ← rdmaPieces s Q r r.data.length true with
    | none => .ok (rdmaRefuse s r)
    | some ps => .ok (rdmaPut s r ps)

/-- A host asks for the lines of other modules that its read needs (R484, R498). -/
def hostAsk (s : State) (who : Requester) (ps : List (Nat × Nat × Nat)) : State :=
  ps.foldl (fun s p => (linePieces p.2.2 p.2.1).foldl (fun s q =>
    let b := MemReq.blank ⟨s.moduleNo, 0, 0, 31, 0⟩ who
    askLine s { b with va := q.1, pa := q.1 }) s) s

/-- RDMA_READ (R498, R499): each granule is read whole at its home. A stack out of service gives free bytes (R490). -/
def execRdmaRead (r : RdmaReq) (s : State) : Host.Outcome State Fault Refusal :=
  finishEvent s do
    let Q ← need (rdmaQp s r.port r.qp)
    match ← rdmaPieces s Q r r.len false with
    | none => .ok (rdmaRefuse s r)
    | some ps =>
      let who : Requester := .host r.port r.qp
      if ps.any fun p => !atHand s who p.2.2 p.2.1 then .ok (hostAsk s who ps)
      else
      let (s1, bs) := ps.foldl (fun a p =>
        let (s, bs) := a
        if rangeBacked s p.2.2 p.2.1 then (s, bs ++ (List.range p.2.1).map fun i => (byteAt s who (p.2.2 + i)).1)
        else
          let (fs, s2) := freeBytes (countDiscard s p.2.2) p.2.1
          (s2, bs ++ fs)) (s, [])
      .ok (emitOut (dropFar s1 who) (.rdmaData r.port r.qp bs))

/-- The scheduler's state of a node of a partition: a node that has never been enabled is disabled, with a clear state block
(R368, R372). -/
def nodeEntry (s : State) (p n : Nat) : State :=
  match smGet? s.parts p with
  | none => s
  | some P =>
    if (smGet? P.nodes n).isSome then s
    else
      let N : Node := { nodeOf (List.replicate 512 0#8) (P.nodetab + 512 * n) 0 with on := false }
      modPart s p fun P => { P with nodes := smSet P.nodes n N }

/-- Whether the window of a memory key lies over the queue of a root node of the partition (R371, R498). -/
def overRoot (s : State) (p key : Nat) : Bool :=
  (hostWindow s p key).any fun w => ((smGet? s.parts p).elim [] (·.nodes)).any fun n =>
    n.2.root && fieldB n.2.packet 30 1 == w.2.2.1 && w.1 < n.2.qbase + 32 * n.2.rsize * n.2.qcap && n.2.qbase < w.1 + w.2.1

/-- A commit of a partition's host (R373, R374): its records enter the stream of the root node, or it is refused and counted. A drain it
requests is complete at once (R379). -/
def commitRecords (s0 : State) (p : Nat) (imm : Word) : State :=
  let x := imm.toNat
  let n := bits x 31 20
  let count := bits x 10 0
  let s := nodeEntry s0 p n
  match node? s p n with
  | none => s
  | some N =>
    if !N.on || !N.root || bits x 18 11 != 0 || 1024 < count || N.qcap < N.committed - N.freed + count then
      modNode s p n fun N => { N with refused := (N.refused + 1) % 2 ^ 32 }
    else
      let slots := (List.range count).map fun i => (N.committed + i) % N.qcap
      let s1 := modNode s p n fun N => { N with stream := N.stream ++ slots, committed := N.committed + count }
      if bit x 19 then drainRoot s1 p n count else s1

/-- HOST_COMMIT (R373–R375, R498): a write with immediate. Its bytes, and those of the writes before it, are performed when the commit
is applied; away from a root node's queue the message is an invalid request (R496). -/
def execHostCommit (port qp : Nat) (msg : CommitMsg) (s : State) : Host.Outcome State Fault Refusal :=
  finishEvent s do
    let r : RdmaReq := ⟨port, qp, msg.key, msg.va, msg.data, 0⟩
    let Q ← need (rdmaQp s r.port r.qp)
    match ← rdmaPieces s Q r r.data.length true with
    | none => .ok (rdmaRefuse s r)
    | some ps =>
      if overRoot s Q.part r.key.toNat then .ok (commitRecords (rdmaPut s r ps) Q.part msg.imm)
      else .ok (emitOut (failQp s r.port r.qp) (.roceError r.port r.qp))

end Sys2Proof.Machine
end

