-- ==== Sys2Proof/Machine/Schedule.lean ====
section
/-! DEFINITION. The scheduler at work: dependences (R387), the choice of teams and their admission (R386, R391, R393,
R394, R515), bank swaps (R30, R31, R395, R434), saved contexts (R435, R436, R440), claims (R437, R438), the end of a team
(R388, R441). -/

namespace Sys2Proof.Machine

/-! Dependences. -/

/-- The range of teams a team waits for (R387). -/
def depRange (L : Launch) (t : Nat) : Int × Int :=
  (max 0 ((L.dmlo * t + L.dalo) / L.ddiv), min (t - 1) ((L.dmhi * t + L.dahi) / L.ddiv))

/-- Whether a bit of the completion bitmap is 1. A page that is not there holds the team back. -/
def bitmapBit (s : State) (L : Launch) (t : Nat) : Bool :=
  match schedPa s L.asid (L.bitmap + t / 8) with
  | some pa => bit (physNum s pa 1) (t % 8)
  | none => false

/-- Whether a team is dependence-ready. -/
def dependenceReady (s : State) (L : Launch) (t : Nat) : Bool :=
  let (lo, hi) := depRange L t
  L.dkind == 0 || hi < lo || (List.range (hi - lo + 1).toNat).all fun i => bitmapBit s L (lo.toNat + i)

/-- TEAM_READY (R387, R390). -/
def execTeamReady (team : Nat) (s : State) : Host.Outcome State Fault Refusal :=
  finishEvent s do
    let T ← need (team? s team)
    let L ← need (smGet? s.launches T.launch)
    needs (T.st == .waiting && !L.ended && !L.killed && !halted s T.part && dependenceReady s L T.index)
    .ok (modTeam s team fun T => { T with st := .ready, since := s.now })

/-! The choice (R391). -/

/-- Effective priority (R391). -/
def effPrio (s : State) (P : Part) (T : Team) : Nat :=
  let ageq := bits P.schcfg.toNat 31 0
  min 7 (T.base + (s.now - T.since) / max ageq 1)

/-- The scheduler's order. -/
def chosenBefore (s : State) (P : Part) (a b : Team) : Bool :=
  let x := effPrio s P a
  let y := effPrio s P b
  y < x || (x == y && (a.since < b.since || (a.since == b.since &&
    (a.launch < b.launch || (a.launch == b.launch && a.index < b.index)))))

/-- A team that has no core yet (R386). -/
def Team.unplaced (T : Team) : Bool := T.core == 400

/-- Whether the lower teams of the launch placed on a core let a team come (R393). -/
def lowerPlaced (s : State) (T : Team) (core : Nat) : Bool :=
  s.teams.all fun p => p.2.launch != T.launch || T.index ≤ p.2.index || p.2.core != core || (match p.2.st with
    | .resident | .active | .ending | .ended => true
    | _ => false)

/-- Whether a team may displace the shadow team (R394, R396, R440). -/
def mayDisplace (s : State) (N : Team) (v : Nat) : Bool :=
  match team? s v with
  | none => false
  | some S => S.st == .resident && S.base < N.base && !S.pinned && !(S.launch == N.launch && S.index < N.index) &&
      (takeImage s v).isSome

/-- Whether a core's shadow bank takes a team (R394). -/
def bankFor (s : State) (core : Nat) (N : Team) : Bool :=
  match core? s core with
  | none => false
  | some C => !C.swapping && (match C.shadow with
    | none => true
    | some v => mayDisplace s N v)

/-- The core of a free team (R386), among those of this module (log entry 8): the lowest whose shadow
bank is free, else the lowest whose shadow team it may displace by R394, with what R393 asks. -/
def freeCore (s : State) (P : Part) (N : Team) : Option Nat :=
  match (localCores P).find? fun c => (core? s c).any fun C => C.shadow.isNone && !C.swapping with
  | some c => some c
  | none => (localCores P).find? fun c => bankFor s c N && lowerPlaced s N c

/-- Whether a team may come to a core. -/
def mayUse (s : State) (P : Part) (core : Nat) (T : Team) : Bool :=
  (T.st == .ready || T.st == .saved) && (if T.unplaced then freeCore s P T == some core else T.core == core) &&
    lowerPlaced s T core

/-- The team chosen for a core. -/
def chosenFor (s : State) (p : Nat) (P : Part) (core : Nat) : Option (Nat × Team) :=
  (s.teams.filter fun q => q.2.part == p && mayUse s P core q.2).foldl (fun b q => match b with
    | none => some q
    | some r => if chosenBefore s P q.2 r.2 then some q else some r) none

/-- The teams chosen for cores whose shadow bank takes them. -/
def chosenTeams (s : State) (p : Nat) (P : Part) : List (Nat × Team) :=
  (localCores P).filterMap fun c => (chosenFor s p P c).bind fun q => if bankFor s c q.2 then some q else none

/-- Whether a team is admitted: charged, and the account of a Saved one is not below 0 (R515). -/
def admitted (P : Part) (T : Team) : Bool := T.charged && (T.st == .ready || 0 ≤ P.account.toInt)

/-- Whether a charged Saved team is admitted: the account is not below 0, and no team before it in the order waits (R515). -/
def savedFits (s : State) (P : Part) (t : Nat) (T : Team) : Bool :=
  0 ≤ P.account.toInt && (chosenTeams s T.part P).all fun q => q.1 == t || admitted P q.2 || !chosenBefore s P q.2 T

/-- TEAM_ADMIT (R515): the first chosen team that is not admitted; its estimate is charged once. -/
def execTeamAdmit (team : Nat) (s : State) : Host.Outcome State Fault Refusal :=
  finishEvent s do
    let T ← need (team? s team)
    let P ← need (smGet? s.parts T.part)
    let L ← need (smGet? s.launches T.launch)
    let waiting := (chosenTeams s T.part P).filter fun q => !admitted P q.2
    needs (!halted s T.part && waiting.all (fun q => q.1 == team || chosenBefore s P T q.2))
    if T.charged then do
      needs (T.st == .saved && 0 ≤ P.account.toInt)
      .ok s
    else do
      needs (waiting.any (fun q => q.1 == team) && (L.energy : Int) ≤ P.account.toInt)
      .ok (modTeam (modPart s T.part fun P => { P with account := P.account - BitVec.ofNat 64 L.energy }) team fun T => { T with charged := true })

/-! Saved contexts. -/

/-- R436: nothing is on its way to the context, and its waves' writes are all performed. -/
def contextQuiet (s : State) (t : Nat) (T : Team) : Bool :=
  (T.waves.all fun W => W.storeQ.isEmpty && W.owc == 0) &&
    (s.reqs.all fun r => match r.who with
      | .wave u _ => u != t
      | _ => true) &&
    ((core? s T.core).elim true fun C => C.rays.all fun r => r.team != t)

/-- The context is written, and the image marked SAVED (R436, R440). The layout of the context part is the spill engine's
own: its bytes are free, and what was written is kept. -/
def saveContext (s : State) (t : Nat) : State :=
  match team? s t with
  | none => s
  | some T =>
    match imageBase s T with
    | none => s
    | some b =>
      let (bs, s1) := freeBytes s (min (contextBytes T) (2 ^ 20 - 64))
      putHeader (modTeam (ownWrite s1 (b + 0x100040) bs) t fun T => { T with ctxSaved := true, saved := bs }) t

/-- A team leaves the shadow bank: Saved (R390, R394, R436). -/
def leaveShadow (s : State) (t core : Nat) : Option State :=
  match takeImage s t with
  | none => none
  | some s1 =>
    match team? s1 t with
    | none => none
    | some T =>
      if !contextQuiet s1 t T then none
      else
        let s2 := if T.ctxSaved then s1 else saveContext s1 t
        let s3 := modTeam s2 t fun T => { T with st := .saved, savedAt := s.now, since := s.now, forced := false }
        some (answerForces (modCore s3 core fun C => { C with shadow := none }) T.part t)

/-- The work of the spill engine in its order of service (R435): the claims of the active team, and the outgoing context. -/
def claimWaits (C : Core) : Bool := C.claims.any fun c => C.active == some c.team

def contextWaits (s : State) (C : Core) : Bool :=
  C.shadow.any fun t => (team? s t).any fun T =>
    T.st == .resident && T.filled && T.image.isSome && !T.ctxSaved && contextQuiet s t T

/-- CONTEXT_SAVED (R435, R436): of a team swapped out. A forced team then leaves the shadow bank (R442). -/
def execContextSaved (team : Nat) (s : State) : Host.Outcome State Fault Refusal :=
  finishEvent s do
    let T ← need (team? s team)
    let C ← need (core? s T.core)
    needs (T.st == .resident && C.shadow == some team && !C.stopped && !claimWaits C && contextQuiet s team T)
    if T.forced then need (leaveShadow s team T.core)
    else do
      needs (T.image.isSome && !T.ctxSaved)
      .ok (saveContext s team)

/-- CONTEXT_FILL_COMPLETE (R435, R440). -/
def execContextFillComplete (core : Nat) (s : State) : Host.Outcome State Fault Refusal :=
  finishEvent s do
    let C ← need (core? s core)
    let t ← need C.shadow
    let T ← need (team? s t)
    needs (T.st == .resident && !T.filled && !C.stopped && !claimWaits C)
    let bs := (imageBase s T).elim T.saved fun b => physGet s (b + 0x100040) T.saved.length
    .ok (setTeam s t { (if bs == T.saved then T else T.restored bs) with filled := true })

/-! Residence. -/

/-- Whether something still refers to a generation of a core's allocation (R314). -/
def genInUse (s : State) (core g : Nat) : Bool :=
  let here (u h : Nat) : Bool := h == g && (team? s u).any fun T => T.core == core
  let at_ (l : Loc) : Bool := match l with
    | .scratch u h _ => here u h
    | .global _ => false
  let kind (k : CopyKind) : Bool := match k with
    | .linear a b _ => at_ a || at_ b
    | .gather a b c _ _ => at_ a || at_ b || at_ c
    | .scatter a b c _ _ => at_ a || at_ b || at_ c
    | .mcast ds _ _ => ds.any fun d => at_ d.1
    | .cbload _ _ => false
    | .decode a b _ _ _ => at_ a || at_ b
  s.ctxs.any (fun x =>
    (x.1 / 16 == clusterOf core && (match x.2.bind.getD (core % 8) .empty with
      | .team _ h => h == g
      | _ => false)) ||
    x.2.copies.any (fun c => kind c.kind) ||
    x.2.deferred.any fun d => match d with
      | .cbarv _ u h _ _ _ _ => here (teamKey x.2.part u) h
      | .tlinc _ _ _ _ => false) ||
  s.teams.any fun p => p.2.copies.any fun c => c.dests.any fun d => here d.1 d.2.1

/-- A team enters the shadow bank: a new one is created there (R18, R37, R41, R390), a saved one is filled (R435). A team that
depends on others acquires what they wrote: the load cache is invalidated (R354, R388). -/
def enterShadow (s : State) (t core : Nat) (T : Team) : State :=
  let s1 := modCore s core fun C => { C with shadow := some t, idle := false }
  if T.created then putHeader (setTeam s1 t { T with st := .resident, filled := false, ctxSaved := false }) t
  else
    let g := (((core? s core).elim 0 (·.gen)) + 1) % 256
    let L := smGet? s.launches T.launch
    let T1 := { T with core := core, ext := buildExtents s T }.create (L.elim 0 Launch.pc) g
    let s2 := setTeam (modCore s1 core fun C => { C with gen := g }) t { T1 with st := .resident, filled := true }
    if L.any fun L => L.dkind == 1 then invalidate s2 core else s2

/-- Whether a page a team declares lies over a region held closed: its translation waits (R488). -/
def declsClosed (s : State) (T : Team) : Bool :=
  (mergeSpans (((Team.decls s T).filter fun d => !bit d.2.2.2 3).flatMap (declSpans T.index))).any fun p =>
    (List.range p.2).any fun i => vaClosed s T (p.1 + 8192 * i)

/-- TEAM_RESIDENT (R386, R393, R394): the context of a team that is displaced is written after the claims of the active team (R435). -/
def execTeamResident (core team : Nat) (s : State) : Host.Outcome State Fault Refusal :=
  finishEvent s do
    let T ← need (team? s team)
    let P ← need (smGet? s.parts T.part)
    let C ← need (core? s core)
    needs (!halted s T.part && (chosenFor s T.part P core).any (fun q => q.1 == team) && bankFor s core T)
    needs (T.charged && (T.st == .ready || savedFits s P team T))
    needs (T.created || !(genInUse s core ((C.gen + 1) % 256) || declsClosed s T))
    let s1 ← match C.shadow with
      | none => .ok s
      | some v => do
        needs (!claimWaits C || (team? s v).any (·.ctxSaved))
        need (leaveShadow s v core)
    .ok (enterShadow s1 team core T)

/-! Bank swaps. -/

/-- The ready lists of a team that comes to the active bank (R397, R398). -/
def readyLists (T : Team) : List (List Nat) :=
  (List.range 8).map fun o => (List.range T.waves.length).filter fun w => octantOf w == o && (T.waves[w]?).any Wave.hasReady

/-- What a refused sending word took goes back, and the word issues again (R228). -/
def Wave.unsend (W : Wave) : Wave :=
  if !W.refused then W
  else { W with
    slices := W.slices.map fun sl => match sl.hold with
      | .async _ _ .send => { sl with hold := .free }
      | _ => sl
    mbox := W.taken.2.toList ++ W.mbox
    sending := none, resendAt := none, refused := false, taken := ([], none), late := none }

/-- The elements that refused sending words took go back to the FIFOs (R228). -/
def Team.untake (T : Team) : Team :=
  T.waves.foldl (fun T W => if !W.refused then T else W.taken.1.foldl (fun T q =>
    { T with fifos := modAt T.fifos q.1 fun f => { f with elems := q.2 ++ f.elems } }) T) T

/-- A team's waves as it comes to the active bank: waiting words issue again, waits begin anew (R31, R228). -/
def Team.activate (T : Team) : Team :=
  { T.untake with
    st := .active
    ctxSaved := false
    forced := false
    waves := T.waves.map fun W => { W.wake.unsend with blockedAt := none, descs := [], ordered := false } }

/-- The banks change places (R30). -/
def finishSwap (s : State) (core : Nat) : State :=
  match core? s core with
  | none => s
  | some C =>
    let s1 := match C.active with
      | some a => modTeam s a fun T => { T with st := .resident, ctxSaved := false, filled := true, forced := false }
      | none => s
    let s2 := match C.shadow with
      | some b => putHeader (modTeam s1 b fun T => T.activate) b
      | none => s1
    let lists := (C.shadow.bind (team? s2)).elim (List.replicate 8 []) readyLists
    let s3 := modCore s2 core fun C => { C with
      active := C.shadow, shadow := C.active, swapping := false, ready := lists, slot := List.replicate 8 none,
      idle := C.shadow.isNone }
    match C.active.bind fun a => (team? s3 a).map fun T => (a, T) with
    | some (a, T) => answerForces s3 T.part a
    | none => s3

/-- The ray words of a team that an outgoing bank takes back: RTRACE words without slots (R283). -/
def retractRays (s : State) (core t : Nat) : State :=
  let back := ((core? s core).elim [] (·.rays)).filter fun r => r.team == t && r.op == 0xB3#8 && !r.started
  back.foldl (fun s r =>
    modCore (modWave s t r.wave fun W => W.holdGang r.gang .free) core fun C => { C with rays := C.rays.filter fun q => q.id != r.id }) s

/-- Whether a traversal of a team is under way: the swap waits for it (R283, R434). -/
def tracing (s : State) (core t : Nat) : Bool :=
  ((core? s core).elim [] (·.rays)).any fun r => r.team == t && r.op == 0xB3#8 && r.started

/-- A swap is decided: it is made at once, or when the last traversal is done. -/
def decideSwap (s : State) (core : Nat) (C : Core) : State :=
  match C.active with
  | none => finishSwap s core
  | some a =>
    let s1 := retractRays s core a
    if tracing s1 core a then modCore s1 core fun C => { C with swapping := true } else finishSwap s1 core

/-- The outgoing team has its save image (R440). -/
def withImage (s : State) (C : Core) : Option State :=
  match C.active with
  | none => some s
  | some a => takeImage s a

/-- Whether the shadow team can come in: filled, not forced out (R442), with a ready wave when `ready` asks for one (R31, R395, R435). -/
def shadowReady (s : State) (C : Core) (ready : Bool) : Bool :=
  (C.shadow.bind (team? s)).any fun T => T.filled && T.st == .resident && !T.forced && (!ready || T.waves.any Wave.hasReady)

/-- Whether another team could become Resident on a core next: one chosen for it, admitted or to be admitted now, which its shadow bank
takes (R391, R394, R515). -/
def comesNext (s : State) (core : Nat) : Bool :=
  match partOfCore s core with
  | none => false
  | some p => (smGet? s.parts p).any fun P => (chosenFor s p P core).any fun q => bankFor s core q.2 &&
      (if q.2.charged then q.2.st == .ready || savedFits s P q.1 q.2
        else (smGet? s.launches q.2.launch).any fun L => (L.energy : Int) ≤ P.account.toInt)

/-- Whether a core may swap by R395: pre-emption, the end of a team, a FORCE. A core that a FORCE left idle brings the forced team back
when no other team could become Resident there: every dispatched team eventually runs (R54; log entry 100). -/
def swapDue (s : State) (core : Nat) (C : Core) : Bool :=
  match C.active.bind (team? s) with
  | none => C.active.isNone && (!C.idle || !comesNext s core) && shadowReady s C false
  | some A =>
    (A.forced && A.st == .active && (C.shadow.isNone || shadowReady s C false)) ||
      (A.st == .active && !A.pinned && shadowReady s C true && (C.shadow.bind (team? s)).any fun S => A.base < S.base)

/-- The partition of a core runs (R446). -/
def coreRuns (s : State) (core : Nat) (C : Core) : Bool := !C.stopped && !((partOfCore s core).elim true (halted s))

/-- BANK_SWAP (R30, R395, R434). -/
def execBankSwap (core : Nat) (s : State) : Host.Outcome State Fault Refusal :=
  finishEvent s do
    let C ← need (core? s core)
    needs (coreRuns s core C)
    if C.swapping then do
      needs (C.active.elim true fun a => !tracing s core a)
      if C.shadow.isNone && !((C.active.bind (team? s)).any (·.forced)) then .ok (modCore s core fun C => { C with swapping := false })
      else .ok (finishSwap s core)
    else do
      needs (swapDue s core C)
      let s1 ← need (withImage s C)
      .ok (decideSwap s1 core C)

/-- Whether a live wave has been blocked on a long wait for longer than the threshold (R31). -/
def Wave.longBlocked (W : Wave) (rejected : List Rid) (now : Nat) : Bool :=
  W.inLongWait rejected && W.blockedAt.any fun t0 => t0 + W.blockTh < now

/-- Whether every live wave of a team has been, and one lives (R31). -/
def teamBlocked (s : State) (t : Nat) (A : Team) : Bool :=
  (A.waves.any fun W => W.live != 0) && ((List.range A.waves.length).zip A.waves).all fun q =>
    q.2.live == 0 || q.2.longBlocked (rejectedOf s t q.1) s.now

/-- WAIT_SWAP_TIMEOUT (R31, R395, R396). -/
def execWaitSwapTimeout (core : Nat) (s : State) : Host.Outcome State Fault Refusal :=
  finishEvent s do
    let C ← need (core? s core)
    let t ← need C.active
    let A ← need (team? s t)
    needs (coreRuns s core C && !C.swapping && A.st == .active && !A.pinned && shadowReady s C true)
    needs (teamBlocked s t A)
    let s1 ← need (withImage s C)
    .ok (decideSwap s1 core C)

/-! Claims. -/

/-- A victim is saved, unless its team has ended. -/
def saveVictim (s : State) (c : Claim) : State :=
  match c.victim with
  | none => s
  | some (v, j) =>
    match team? s v with
    | none => s
    | some V =>
      if V.st == .ended || V.unitSt c.tile j != .saving then s
      else if c.tile then saveTile s v j else saveRegion s v j

/-- The claimant's unit is filled, or is clear when it is fresh. -/
def settleClaim (s : State) (c : Claim) : State :=
  match team? s c.team with
  | none => s
  | some T =>
    if T.unitSt c.tile c.idx == .fresh then setTeam s c.team (T.setUnitSt c.tile c.idx .present)
    else if c.tile then fillTile s c.team c.idx else fillRegion s c.team c.idx

/-- CLAIM_COMPLETE (R435, R437, R438): claims of the active team come first, then the oldest. -/
def execClaimComplete (core : Nat) (s : State) : Host.Outcome State Fault Refusal :=
  finishEvent s do
    let C ← need (core? s core)
    needs (!C.stopped)
    let i := (C.claims.findIdx? fun c => C.active == some c.team).getD 0
    let c ← need C.claims[i]?
    let s1 := settleClaim (saveVictim s c) c
    let s2 := modCore s1 core fun C => { C.setUnit c.tile c.unit (.held c.team c.idx) with claims := C.claims.eraseIdx i }
    .ok (wakeOn s2 (clusterOf core))

/-- RELEASE_CLEAR_COMPLETE (R435, R438): one of the released units, in an order the spec does not give, once nothing else waits
at the spill engine. -/
def execReleaseClearComplete (core : Nat) (s : State) : Host.Outcome State Fault Refusal :=
  finishEvent s do
    let C ← need (core? s core)
    needs (!claimWaits C && !contextWaits s C && !(C.shadow.bind (team? s)).any fun T => T.st == .resident && !T.filled)
    let rs := ((List.range C.phys.length).filter fun u => C.phys[u]? == some .clearing).map fun u => (false, u)
    let ts := ((List.range C.physTiles.length).filter fun u => C.physTiles[u]? == some .clearing).map fun u => (true, u)
    let all := rs ++ ts
    let (tile, u) ← need all[s.choice % max all.length 1]?
    .ok (wakeOn (modCore s core fun C => C.setUnit tile u .free) (clusterOf core))

/-! The end of a team. -/

/-- Whether everything a team issued is done (R388). -/
def teamDone (s : State) (t : Nat) (T : Team) : Bool :=
  T.copies.isEmpty && T.mxq.all (·.done) && (T.waves.all fun W => W.storeQ.isEmpty && W.owc == 0) &&
    s.reqs.all fun r => match r.who with
      | .wave u _ => u != t || r.kind == .read
      | _ => true

/-- R267: an open chain closes with its team; one with a JSEND or JRECV that has not completed is aborted at the other members. -/
def endChain (s : State) (t : Nat) (c : Chain) : State :=
  if !c.isOpen then s
  else if ((team? s t).elim [] (·.mxq)).any fun o => o.kind.onChain c.id && !o.done && !o.cut then abortChain s t c.id 3
  else closeChain s t c.id

/-- TEAM_END (R388, R441, R515, R517): `energy` is what the counters attribute to the team. -/
def execTeamEnd (team energy : Nat) (s : State) : Host.Outcome State Fault Refusal :=
  finishEvent s do
    let T ← need (team? s team)
    let L ← need (smGet? s.launches T.launch)
    needs (T.st == .ending && !halted s T.part && teamDone s team T)
    let s1 := cutClusterOps (T.chains.foldl (fun s c => endChain s team c) s) team
    let s2 := if L.bitmap == 0 then s1
      else schedAtomic s1 L.asid (L.bitmap + T.index / 8) 1 fun v => v ||| 2 ^ (T.index % 8)
    let s3 := modLaunch s2 T.launch fun L => { L with endedTeams := nsAdd L.endedTeams T.index }
    let s4 := releaseUnits s3 team T.core
    let s5 := freeImage (modTeam s4 team fun T => { T with
      st := .ended, closed := List.range 16, arena := [], image := none, forced := false }) T.part T.image
    let s6 := modCluster s5 (clusterOf T.core) fun C => { C with codebooks := dropBooks [T.tag] C.codebooks }
    let s7 := modPart (settleEnergy s6 team (BitVec.ofNat 64 energy)) T.part fun P => { P with calls := P.calls.filter fun c => c.team != team }
    let s8 := { s7 with reqs := s7.reqs.filter fun r => match r.who with
      | .wave u _ => u != team
      | _ => true }
    .ok (answerForces (wakePart (dropArrivals s8 fun a => a.team == team) T.part) T.part team)

end Sys2Proof.Machine
end

