-- ==== Sys2Proof/Machine/Command.lean ====
section
/-! DEFINITION. The management queue (R442, R500, R501): FORCE, KILL, HALT, NODETAB, NODEON, NODEOFF, ASREC, unknown operations;
SVCDONE (R184); FLUSH and REPLAY (R432). -/

namespace Sys2Proof.Machine

/-! Requests and answers. -/

/-- A request is served for a partition that is set up, on its management queue pair of one of the four ports (R500). -/
def served (s : State) (m : MgmtMsg) : Except Stop Part := do
  let P ← need (smGet? s.parts m.part)
  needs (m.port < 4 && !(s.qps.any fun q => q.port == m.port && q.part == m.part && q.mgmt && q.error))
  .ok P

/-- The answer to a request, with its status and result (R501). -/
def reply (s : State) (m : MgmtMsg) (status : Nat) (result : Nat := 0) : State :=
  answer s m.part m.port m.tag status (BitVec.ofNat 64 result)

/-- A request that is answered later. -/
def deferReply (s : State) (p : Nat) (q : Pending) : State := modPart s p fun P => { P with pend := P.pend ++ [q] }

/-- An operand at its offset in the message (R501: the operands start at +8). -/
def operand (m : MgmtMsg) (off n : Nat) : Nat := fieldB m.operands (off - 8) n

/-- A living team of a partition by its serial. -/
def livingTeam (s : State) (p serial : Nat) : Option (Nat × Team) :=
  s.teams.find? fun q => q.2.part == p && q.2.serial % 2 ^ 32 == serial && q.2.st != .ended

/-! FORCE, KILL, HALT (R442). -/

/-- The aborts and cuts of FORCE: the team is no longer pinned. -/
def unpin (s : State) (t : Nat) : State :=
  let ids := ((team? s t).elim [] (·.chains)).map (·.id)
  let s1 := cutClusterOps (ids.foldl (fun s id => abortChain s t id 2) s) t
  modTeam s1 t fun T => { T with tiles := T.tiles.map fun x => { x with lent := false } }

/-- FORCE (R442): the team leaves its bank by BANK_SWAP or CONTEXT_SAVED; one in no bank has left it. -/
def execForce (m : MgmtMsg) (s : State) : Host.Outcome State Fault Refusal :=
  finishEvent s do
    let _ ← served s m
    needs (m.op == 0x0001#16)
    match livingTeam s m.part (operand m 8 4) with
    | none => .ok (reply s m 2)
    | some (t, T) =>
      let s1 := unpin s t
      match T.st with
      | .saved | .waiting | .ready => .ok (reply s1 m 0)
      | _ => .ok (deferReply (modTeam s1 t fun T => { T with forced := true }) m.part (.force m.tag m.port t))

/-- KILL (R442, R443). -/
def execKill (m : MgmtMsg) (s : State) : Host.Outcome State Fault Refusal :=
  finishEvent s do
    let _ ← served s m
    needs (m.op == 0x0002#16)
    match livingTeam s m.part (operand m 8 4) with
    | none => .ok (reply s m 2)
    | some (t, T) => .ok (killLaunch (deferReply s m.part (.kill m.tag m.port T.launch)) T.launch t none)

/-- HALT (R442, R446): answered once HALTST.HALTED is 1. -/
def execHalt (m : MgmtMsg) (s : State) : Host.Outcome State Fault Refusal :=
  finishEvent s do
    let P ← served s m
    needs (m.op == 0x0003#16)
    if P.haltst.getLsbD 8 then .ok (reply s m 0)
    else .ok (deferReply (raiseHalt s m.part 4 0xFFFF 0) m.part (.halt m.tag m.port))

/-! Nodes (R368, R369). -/

/-- NODETAB (R501): refused while a node is enabled. The entries of the nodes move with the table (R368, R372). -/
def execNodetab (m : MgmtMsg) (s : State) : Host.Outcome State Fault Refusal :=
  finishEvent s do
    let P ← served s m
    needs (m.op == 0x0010#16)
    let a := operand m 8 8
    if a % 4096 != 0 then .ok (reply s m 2)
    else if P.nodes.any (·.2.on) then .ok (reply s m 1)
    else .ok (reply (modPart s m.part fun P => { P with nodetab := a, nodes := P.nodes.map fun q => (q.1, { q.2 with addr := a + 512 * q.1 }) }) m 0)

/-- NODEON (R368, R369, R501): the descriptor is read once and the state block cleared. A node that is enabled already is not
read again. -/
def execNodeon (m : MgmtMsg) (s : State) : Host.Outcome State Fault Refusal :=
  finishEvent s do
    let P ← served s m
    needs (m.op == 0x0011#16)
    let n := operand m 8 2
    if 4096 ≤ n then .ok (reply s m 2)
    else if (smGet? P.nodes n).any (·.on) then .ok (reply s m 1)
    else
      let a := P.nodetab + 512 * n
      let d := physGet s a 512
      match nodeFault d with
      | some off => .ok (reply s m 1 off)
      | none =>
        let s1 := modPart s m.part fun P => { P with nodes := smSet P.nodes n (nodeOf d a s.nextLaunch) }
        .ok (wakePart (reply (ownWrite s1 (a + 384) (List.replicate 128 0#8)) m 0) m.part)

/-- NODEOFF (R368): with a launch of the node alive, the node is disabled when that launch has ended. -/
def execNodeoff (m : MgmtMsg) (s : State) : Host.Outcome State Fault Refusal :=
  finishEvent s do
    let P ← served s m
    needs (m.op == 0x0012#16)
    let n := operand m 8 2
    if 4096 ≤ n then .ok (reply s m 2)
    else if !(smGet? P.nodes n).any (·.on) then .ok (reply s m 0)
    else
      let s1 := deferReply (modNode s m.part n fun N => { N with stopping := true }) m.part (.nodeoff m.tag m.port n)
      .ok (wakePart (nodeIdle s1 m.part n) m.part)

/-! Address spaces (R345, R351). -/

/-- ASREC (R345, R351, R501): a raise of MINGEN goes to every tile, and is answered when it is complete. -/
def execAsrec (m : MgmtMsg) (s : State) : Host.Outcome State Fault Refusal :=
  finishEvent s do
    let _ ← served s m
    needs (m.op == 0x0018#16)
    let a := operand m 8 1
    let d0 := BitVec.ofNat 64 (operand m 16 8) &&& 0x000F_FFFF_FFFF_E001#64
    let d1 := BitVec.ofNat 64 (operand m 24 8) &&& 0xFFFF_FFFF#64
    if 64 ≤ a then .ok (reply s m 2)
    else if 32768 ≤ (bits d1.toNat 15 0 + 2 ^ 16 - bits d1.toNat 31 16) % 2 ^ 16 then .ok (reply s m 1)
    else
      let A := asidOf s a
      let raises := bits d1.toNat 31 16 != A.mingen
      let A1 : Asid := { A with
        dw0 := d0
        dw1 := d1
        raising := if raises then some (bits d1.toNat 31 16) else A.raising
        homes := if raises then (List.range 50).map fun k => (k, (smGet? A.homes k).getD A.mingen) else A.homes }
      let v := bits d1.toNat 31 16
      let s1 := { s with
        asids := smSet s.asids a A1
        ctl := s.ctl ++ (if raises then (List.range 50).map fun k => ⟨k, .mingen a v⟩ else []) }
      .ok (if raises then deferReply s1 m.part (.mingen m.tag m.port a) else reply s1 m 0)

/-- UNKNOWN_OP (R501). -/
def execUnknownOp (m : MgmtMsg) (s : State) : Host.Outcome State Fault Refusal :=
  finishEvent s do
    let _ ← served s m
    needs (!([0x0001#16, 0x0002#16, 0x0003#16, 0x0010#16, 0x0011#16, 0x0012#16, 0x0018#16].contains m.op))
    .ok (reply s m 3)

/-! Service calls (R183, R184). -/

/-- The gang that waits with a ticket goes on at the word after its SVC, with the reply in s0:s1. -/
def finishCall (s : State) (c : Call) (v : DWord) : State :=
  let adv (W : Wave) : Wave :=
    { (W.mapGang c.gang fun _ sl => if sl.hold == .svc c.ticket then sl.goto (sl.pc + 1) false true else sl).regroup c.gang with
      s := smPut 0 (smPut 0 W.s 0 (v.extractLsb' 0 32)) 1 (v.extractLsb' 32 32)
      spoison := nsDel (nsDel W.spoison 0) 1
      blockedAt := none }
  makeReady (modWave s c.team c.wave adv) c.team c.wave

/-- A service call is done (R184): a ticket that names no pending call has no effect. -/
def callDone (s : State) (p ticket : Nat) : State :=
  match (smGet? s.parts p).bind fun P => (P.calls.find? fun c => c.ticket % 2 ^ 32 == ticket).map fun c => (P, c) with
  | none => s
  | some (P, c) => finishCall (modPart s p fun P => { P with calls := P.calls.filter fun d => d.ticket != c.ticket }) c P.svcreply

/-- SVCDONE (R184). -/
def execSvcdone (p : Nat) (ticket : Word) (s : State) : Host.Outcome State Fault Refusal :=
  finishEvent s do
    let _ ← need (smGet? s.parts p)
    .ok (callDone s p ticket.toNat)

/-! FLUSH and REPLAY (R431, R432). -/

def flushGen (s : State) (p : Nat) : State :=
  modPart s p fun P => { P with fbgen := (P.fbgen &&& 0x10000#64) ||| BitVec.ofNat 64 ((bits P.fbgen.toNat 15 0 + 1) % 2 ^ 16) }

/-- The entries of KIND 10 of a team translated anew (R432). -/
def refreshTeam (s : State) (t : Nat) : State :=
  match team? s t with
  | some T => setTeam s t (retranslateAbsent s T)
  | none => s

/-- One engine requester retried, when it is parked under an older stamp. -/
def replayEngine (p gen : Nat) (s : State) (who : Requester) : State :=
  match enginePark s who with
  | some (t, q) =>
    if (team? s t).any (fun T => T.part == p) && olderThan q.stamp gen then setEnginePark (refreshTeam s t) who none else s
  | none => s

/-- One wave replayed, when it is parked under an older stamp. -/
def replayParked (p gen : Nat) (s : State) (tw : Nat × Nat) : State :=
  if (team? s tw.1).any (fun T => T.part == p) && (wave? s tw.1 tw.2).any fun W => W.parked && !W.replay && olderThan W.stamp gen then
    replayWave (refreshTeam s tw.1) tw.1 tw.2
  else s

/-- One request that waits for its page retried. -/
def replayReq (p gen : Nat) (s : State) (rid : Rid) : State :=
  match req? s rid with
  | some r => match r.st with
    | .waiting stamp true =>
      if olderThan stamp gen && r.part s == p then
        let s1 := (requesterTeam s r.who).elim s (refreshTeam s)
        modReq s1 rid fun r => { r with st := .waiting gen false }
      else s
    | _ => s
  | none => s

/-- Every engine that may be parked. -/
def engineRequesters (s : State) : List Requester :=
  (s.teams.flatMap fun p => [.matrix p.1] ++ (List.range 4).map (.stream p.1 ·) ++ p.2.copies.map fun c => .copy p.1 c.num) ++
    (s.clusters.flatMap fun k => (List.range 4).map fun i => .pass k.1 i) ++
    s.ctxs.flatMap fun x => .context x.1 :: x.2.copies.map fun c => .scopy x.1 c.num

/-- REPLAY goes to the tiles of the partition as flits of the control network (R432, R451). -/
def replayAll (s : State) (p : Nat) : State :=
  { s with ctl := s.ctl ++ ((smGet? s.parts p).elim [] (·.clusters)).map fun k => ⟨k, .replay p (fbGen s p)⟩ }

/-- The tile of an engine that may be parked. -/
def requesterTile (s : State) (who : Requester) : Nat :=
  match who with
  | .context x | .scopy x _ => x / 16
  | .pass k _ => k
  | who => (((requesterTeam s who).bind (team? s)).map fun T => clusterOf T.core).getD 0

/-- REPLAY at a tile: each parked requester there is retried (R432). -/
def replayTile (s : State) (k p gen : Nat) : State :=
  let waves := (s.teams.filter fun q => clusterOf q.2.core == k).flatMap fun q => (List.range q.2.waves.length).map fun w => (q.1, w)
  let s1 := waves.foldl (replayParked p gen) s
  let s2 := ((engineRequesters s1).filter fun q => requesterTile s1 q == k).foldl (replayEngine p gen) s1
  ((s2.reqs.filter fun r => requesterTile s2 r.who == k).map (·.rid)).foldl (replayReq p gen) s2

/-- Whether REPLAY would translate an entry of a team at a tile anew over a region held closed: it waits (R488, R507). -/
def tileClosed (s : State) (k p : Nat) : Bool :=
  s.teams.any fun q => q.2.part == p && clusterOf q.2.core == k && q.2.ext.any fun e => e.kind == 2#2 && spanClosed s q.2 e.vbase e.len

/-- Whether a gateway still holds requests that entered it before a flit of the scheduler that crosses it (R474). -/
def gatewayHolds (s : State) (tile : Nat) : Bool :=
  let g := crossing s (tile % 25 / 5)
  25 ≤ tile && ((s.heldRed.any fun h => h.die == 0 && h.gw == g && (req? s h.rid).isNone) || s.halos.any fun h => h.cluster < 25 && h.gw == g)

/-- A control flit of the scheduler reaches its tile: those to one tile in the order sent (R456), a raise of MINGEN crosses a gateway behind
the requests it holds (R474), and REPLAY waits for a closed region (R507). -/
def controlMove (s : State) (n : Nat) : State :=
  match s.ctl[n]? with
  | none => s
  | some f =>
    if (s.ctl.take n).any fun g => g.tile == f.tile then s
    else
      let s1 := { s with ctl := s.ctl.eraseIdx n }
      match f.cmd with
      | .mingen a v => if gatewayHolds s f.tile then s else raiseAt s1 f.tile a v
      | .replay p gen => if tileClosed s f.tile p then s else replayTile s1 f.tile p gen

/-- FLUSH (R432). -/
def execFlush (p : Nat) (s : State) : Host.Outcome State Fault Refusal :=
  finishEvent s do
    let _ ← need (smGet? s.parts p)
    .ok (flushGen s p)

/-- REPLAY (R432). -/
def execReplay (p : Nat) (s : State) : Host.Outcome State Fault Refusal :=
  finishEvent s do
    let _ ← need (smGet? s.parts p)
    .ok (replayAll s p)

/-- FLUSH then REPLAY (R430, R432). -/
def execFlushThenReplay (p : Nat) (s : State) : Host.Outcome State Fault Refusal :=
  finishEvent s do
    let _ ← need (smGet? s.parts p)
    .ok (replayAll (flushGen s p) p)

end Sys2Proof.Machine
end

