-- ==== Sys2Proof/Machine/Header.lean ====
section
/-! DEFINITION. The headers of the flits in State, laid out as their tables have them: the mesh header (R453), the Jetstream header
(R466), the Thielo header (R492). A flit in State is a record of the same fields; what a header says is read from it. -/

namespace Sys2Proof.Machine

/-- Where a flit goes on the mesh: the die, the cluster in the die and the module (R453). -/
structure Dest where
  die : Nat
  tile : Nat
  mod : Nat
  deriving DecidableEq, Repr

/-- The mesh header (R453): PSN, KIND, the destination, and RID, which names the requester. -/
def meshHeader (psn kind : Nat) (d : Dest) (r : Rid) : BitVec 72 :=
  BitVec.ofNat 8 psn ++ BitVec.ofNat 4 kind ++ BitVec.ofNat 1 d.die ++ BitVec.ofNat 5 d.tile ++ BitVec.ofNat 8 d.mod ++
    BitVec.ofNat 1 r.die ++ BitVec.ofNat 5 r.tile ++ BitVec.ofNat 8 r.mod ++ BitVec.ofNat 12 r.unit ++ BitVec.ofNat 20 r.seq

/-- The tile that homes a physical address (R342, R482): row y of die d serves stack 5d + y, and line L of a stack is homed at
column L mod 5. -/
def homeTile (s : State) (pa : Nat) : Dest :=
  match place s pa with
  | some p => ⟨p.stack / 5, p.stack % 5 * 5 + p.off / 128 % 5, p.other.getD s.moduleNo⟩
  | none => ⟨0, 0, s.moduleNo⟩

/-- The requester's tile, to which an answer goes. -/
def ridHome (r : Rid) : Dest := ⟨r.die, r.tile, r.mod⟩

/-- KIND of a request, and of the answer it has got (R453). -/
def MemReq.kindCode (r : MemReq) : Nat :=
  match r.st with
  | .answered _ _ => 4
  | .acked => 5
  | .nacked | .refused | .waiting _ _ => 6
  | .queued | .flight => match r.kind with
    | .read => 0
    | .write => 1
    | .atomic => 2
    | .reduction => 3

/-- A core's tile in a module. -/
def coreTile (core mod : Nat) : Dest := ⟨core / 200, core % 200 / 8, mod⟩

/-- Where a request goes: to the home of its address, or to the core whose scratchpad it writes (R453, R458). -/
def MemReq.target (s : State) (r : MemReq) : Dest :=
  match r.peer with
  | some (u, _) => coreTile ((team? s u).elim 0 (·.core)) s.moduleNo
  | none => homeTile s r.pa

/-- The header of a request on its way to its home, or of its answer on the way back. -/
def MemReq.header (s : State) (r : MemReq) : BitVec 72 :=
  match r.st with
  | .answered _ psn => meshHeader psn.toNat r.kindCode (ridHome r.rid) r.rid
  | .queued | .flight => meshHeader (if r.bad then 0xFF else 0) r.kindCode (r.target s) r.rid
  | _ => meshHeader 0 r.kindCode (ridHome r.rid) r.rid

/-- The header of a flit of the mailbox network: answers and signals go back to the sender
with the SEQ of the message (R453, R461, R462). -/
def MailFlit.header (f : MailFlit) : BitVec 72 :=
  let dst := coreTile f.toCore f.toMod
  let back := coreTile f.fromCore f.fromMod
  let (d, src, core) := if f.kind == .mail then (dst, back, f.fromCore) else (back, dst, f.toCore)
  let kind := match f.kind with
    | .mail => 7
    | .acc => 8
    | .ref => 9
    | .control => 10
  meshHeader (if f.kind == .mail then f.msg.psn.toNat else 0) kind d ⟨src.mod, src.die, src.tile, core % 8, f.seq⟩

/-- The header of a halo request of a cluster's Parhelion engine, UNIT 24: to the home of a record's address (R453, R478). -/
def haloHeader (s : State) (h : Halo) (pa : Nat) : BitVec 72 := meshHeader 0 11 (homeTile s pa) h.rid

/-- The header of a control flit of the scheduler (R451, R453, R474); the scheduler's RID is die 0, UNIT 31 (log entry 105). -/
def CtlFlit.header (s : State) (f : CtlFlit) : BitVec 72 :=
  meshHeader 0 10 ⟨f.tile / 25, f.tile % 25, s.moduleNo⟩ ⟨s.moduleNo, 0, 0, 31, 0⟩

/-- Flit type codes (R467). -/
def FlitType.code : FlitType → Nat
  | .data => 0 | .credit => 1 | .ready => 2 | .arm => 3 | .req => 4 | .fin => 5 | .abort => 6 | .refuse => 7 | .revoke => 8
  | .datasat => 9

/-- The Jetstream header (R466). -/
def JFlit.header (f : JFlit) : BitVec 80 :=
  let cmode : BitVec 2 := match f.cmode with
    | .xf48 => 0#2
    | .i48 => 1#2
    | .a48 => 2#2
  BitVec.ofNat 4 f.type.code ++ BitVec.ofNat 9 f.dest ++ BitVec.ofNat 9 f.src ++ BitVec.ofNat 12 f.chain ++ BitVec.ofNat 8 f.rank ++
    BitVec.ofNat 8 f.count ++ BitVec.ofBool f.anchorMode ++ cmode ++ f.anchor ++ BitVec.ofNat 7 f.row ++ BitVec.ofNat 3 f.seg ++
    BitVec.ofNat 7 f.arg

/-- VALID and PSN of a Jetstream flit's 16 cells (R466). -/
def JFlit.valid (f : JFlit) : BitVec 16 := BitVec.ofNat 16 (f.cells.foldl (fun a c => a ||| 2 ^ (c.1 % 16)) 0)
def JFlit.psn (f : JFlit) : BitVec 16 := BitVec.ofNat 16 (f.cells.foldl (fun a c => if c.2.2 then a ||| 2 ^ (c.1 % 16) else a) 0)

/-- The Thielo header (R492), with the mesh header of what the flit carries. -/
def FabFlit.header (s : State) (f : FabFlit) : BitVec 128 :=
  let type := match f.type with
    | .data => 0
    | .e2eack => 1
    | .idle => 2
  let mhdr := match f.req, f.mail with
    | some r, _ => r.header s
    | none, some m => m.header
    | none, none => meshHeader 0 10 ⟨0, 0, f.dmod⟩ f.rid
  BitVec.ofNat 8 f.dmod ++ BitVec.ofNat 8 f.smod ++ BitVec.ofNat 3 f.part ++ BitVec.ofNat 2 f.vc ++ BitVec.ofNat 2 type ++
    BitVec.ofNat 24 f.seq ++ 0#9 ++ mhdr

end Sys2Proof.Machine
end

