-- ==== Sys2Proof/Machine/Halt.lean ====
section
/-! DEFINITION. Partition halt (R422, R446–R450, R523, R338): fatal conditions, the halt line at each unit, its stop record, the
halt header. -/

namespace Sys2Proof.Machine

/-- FATAL_ERROR (R422): a fatal condition met by a unit raises the partition's halt line. -/
def execFatalError (p reason origin addr : Nat) (s : State) : Host.Outcome State Fault Refusal :=
  finishEvent s do
    needs (!halted s p && 1 ≤ reason && reason ≤ 3)
    .ok (raiseHalt s p reason origin addr)

/-! Units (R448). -/

/-- The units of a partition, by stop-area slot: those of its clusters, and the gateways of the dies it has clusters on. -/
def partUnits (P : Part) : List Nat :=
  P.clusters.flatMap (fun k =>
    (List.range 8).map (fun i => coreUnit (8 * k + i)) ++ (List.range 8).map (fun i => mxUnit (8 * k + i)) ++
      (List.range 16).map (fun i => ctxUnit (16 * k + i)) ++ [phUnit k, routerUnit k]) ++
    ([0, 1].filter fun d => P.clusters.any fun k => k / 25 == d).flatMap fun d => (List.range 5).map (gwUnit d)

/-! Stop records (R450, R523, R338). -/

/-- Bytes up to 64. -/
def pad64 (bs : List Byte) : List Byte := (bs ++ List.replicate 64 0#8).take 64

/-- The head of a record: KIND, STATE, UNIT. -/
def recordHead (kind st unit : Nat) : List Byte := toBytes 1 kind ++ toBytes 1 st ++ toBytes 2 unit ++ toBytes 4 0

/-- A set of waves as a bit mask. -/
def waveBits (T : Team) (f : Wave → Bool) : Nat :=
  ((List.range T.waves.length).zip T.waves).foldl (fun a p => if f p.2 then a + 2 ^ p.1 else a) 0

/-- Stores of a team not yet drained. -/
def undrained (T : Team) : Nat := T.waves.foldl (fun a W => a + W.storeQ.length) 0

/-- The UNIT field of a core's records (R450): its identity in the module, and the die in bit 9. -/
def coreField (core : Nat) : Nat := core + core / 200 * 2 ^ 9

/-- A core's record. -/
def coreRecord (s : State) (core : Nat) : List Byte :=
  match core? s core with
  | none => List.replicate 64 0#8
  | some C =>
    let A := C.active.bind (team? s)
    let S := C.shadow.bind (team? s)
    let live := A.elim 0 fun T => waveBits T fun W => W.live != 0
    let parked := A.elim 0 fun T => waveBits T fun W => W.live != 0 && W.parked
    let st := if A.isNone then 0 else if live != 0 && parked == live then 2 else 1
    pad64 (recordHead 1 st (coreField core) ++ toBytes 4 (A.elim 0 (·.serial)) ++ toBytes 4 (S.elim 0 (·.serial)) ++ toBytes 8 live ++
      toBytes 8 parked ++ toBytes 2 (A.elim 0 undrained + S.elim 0 undrained) ++ toBytes 1 C.swapping.toNat ++ toBytes 5 0 ++
      toBytes 8 C.ccyc)

/-- A matrix sequencer's record. -/
def matrixRecord (s : State) (core : Nat) : List Byte :=
  match ((core? s core).bind (·.active)).bind (team? s) with
  | none => pad64 (recordHead 2 0 (coreField core))
  | some T =>
    let q := T.mxq.filter fun o => !o.done
    let st := if q.isEmpty then 0 else if q.any (·.park.isSome) then 2 else if q.any (·.started) then 4 else 1
    let op := q.head?
    pad64 (recordHead 2 st (coreField core) ++ toBytes 4 T.serial ++ toBytes 1 q.length ++ toBytes 1 (op.elim 0 (·.block)) ++
      toBytes 1 ((op.bind fun o => o.kind.tile?).getD 0) ++ toBytes 1 0 ++ toBytes 8 (op.elim 0 (·.step)) ++ toBytes 8 T.mxTl.toNat)

/-- Whether a context's record names an address: it is parked, or faulted by an access (R338). -/
def Ctx.recordVa (X : Ctx) : Nat :=
  match X.st with
  | .parked => X.faultVa
  | .faulted => if [0x08#8, 0x09#8, 0x0A#8, 0x0B#8, 0x0C#8].contains X.kcause then X.faultVa else 0
  | _ => 0

/-- A context's record (R338). -/
def ctxRecord (s : State) (x : Nat) : List Byte :=
  match smGet? s.ctxs x with
  | none => List.replicate 64 0#8
  | some X =>
    let st := match X.st with
      | .stopped => 0
      | .running | .stopping | .faulting => 1
      | .parked => 2
      | .faulted => 3
    let unit := x % 16 + x / 16 % 25 * 16 + x / 400 * 2 ^ 9
    pad64 (toBytes 8 (X.kpc.toNat * 8) ++ toBytes 8 X.ktl.toNat ++ toBytes 2 X.kout ++ toBytes 2 X.ktag.toNat ++
      toBytes 1 X.kcause.toNat ++ toBytes 1 st ++ toBytes 2 unit ++ toBytes 4 X.team ++ toBytes 1 (min 255 X.deferred.length) ++
      toBytes 1 0 ++ toBytes 2 X.karg.toNat ++ toBytes 8 X.issued ++ toBytes 8 X.recordVa)

/-- A Parhelion engine's record. -/
def passRecord (s : State) (k : Nat) : List Byte :=
  match smGet? s.clusters k with
  | none => List.replicate 64 0#8
  | some C =>
    let on (P : Pass) : Bool := P.st != .free
    let st := if !C.passes.any on then 0 else if C.passes.any (fun P => on P && P.park.isSome) then 2 else 4
    let slots := ((List.range 4).zip C.passes).foldl (fun a p => if on p.2 then a + 2 ^ p.1 else a) 0
    pad64 (recordHead 4 st (k % 25 + k / 25 * 2 ^ 9) ++ toBytes 1 slots ++ toBytes 7 0 ++
      C.passes.flatMap fun P => toBytes 8 (((P.px.map (fun x => (x.x, x.y)) ++ P.work).head?).elim 0 (fun p => p.2 * 65536 + p.1) + P.timeline.toNat % 2 ^ 32 * 2 ^ 32))

/-- The open chains at the cores of a cluster, in ascending identity. -/
def chainsAt (s : State) (k : Nat) : List Nat :=
  let ids := (s.teams.filter fun p => clusterOf p.2.core == k).flatMap fun p => (p.2.chains.filter (·.isOpen)).map (·.id)
  ids.foldl nsAdd []

/-- A Jetstream router's record. -/
def routerRecord (s : State) (k dropped : Nat) : List Byte :=
  let ids := chainsAt s k
  let open_ := (s.teams.filter fun p => clusterOf p.2.core == k).foldl (fun a p => a + (p.2.chains.filter (·.isOpen)).length) 0
  pad64 (recordHead 5 (if open_ == 0 then 0 else 1) (k % 25 + k / 25 * 2 ^ 9) ++ toBytes 1 open_ ++ toBytes 1 0 ++
    (List.range 4).flatMap (fun i => toBytes 2 (ids.getD i 0)) ++ toBytes 6 0 ++ toBytes 4 dropped)

/-- A gateway's record. -/
def gatewayRecord (s : State) (p die g dropped : Nat) : List Byte :=
  let n := ((s.gateways[g]?).elim [] (·.window)).filter fun x => x.1 == p && x.2.1.die == die
  pad64 (recordHead 6 (if dropped == 0 then 0 else 1) (g + die * 2 ^ 9) ++ toBytes 8 dropped ++ toBytes 4 n.length)

/-! The line at a unit (R446). -/

/-- A router drops what is on its links for its cluster, of the halted partition (R446, R479): Jetstream flits and mailbox flits to its
cores, requests to its slice and its cores, answers to its units. -/
def stopRouter (s : State) (p k : Nat) : State × Nat :=
  let out (f : JFlit) : Bool := f.dest < 400 && clusterOf f.dest == k
  let here (d : Dest) : Bool := d.mod == s.moduleNo && d.die == k / 25 && d.tile == k % 25
  let req (r : MemReq) : Bool := r.part s == p && (match r.st with
    | .flight => here (r.target s)
    | .acked | .answered _ _ | .nacked | .refused => here (ridHome r.rid)
    | _ => false)
  let mail (f : MailFlit) : Bool := f.part == p && clusterOf (if f.kind == .mail then f.toCore else f.fromCore) == k
  let n := (s.jnet.filter out).length + (s.reqs.filter req).length + (s.mails.filter mail).length
  let s1 := { s with jnet := s.jnet.filter (fun f => !out f), reqs := s.reqs.filter (fun r => !req r), mails := s.mails.filter fun f => !mail f }
  (modCluster s1 k fun C => { C with routerStopped := true, routerDropped := n }, n)

/-- A gateway drops the flits of the partition it holds, and those on their way across it (R479). -/
def stopGateway (s : State) (p die g : Nat) : State × Nat :=
  let flit (h : HeldFlit) : Bool := h.gw == g && h.die == die && partOfCore s h.flit.dest == some p
  let red (h : HeldRed) : Bool := h.gw == g && h.die == die && h.parts.any fun q => (req? s q).any fun r => r.part s == p
  let gone := (s.heldRed.filter red).flatMap (·.parts)
  let pass (f : JFlit) : Bool := f.crosses && gatewayOf s f.dest == g && dieOf f.src == die && partOfCore s f.dest == some p
  let halo (h : Halo) : Bool := h.gw == g && h.cluster / 25 == die && (pass? s h.cluster h.slot).any fun P => P.part == p
  let n := (s.held.filter flit).length + gone.length + (s.jnet.filter pass).length + (s.halos.filter halo).length
  ({ s with
    jnet := s.jnet.filter fun f => !pass f
    held := s.held.filter fun h => !flit h
    heldRed := s.heldRed.filter fun h => !red h
    halos := s.halos.filter fun h => !halo h
    reqs := s.reqs.filter fun r => !gone.contains r.rid
    gateways := modAt s.gateways g fun G => { G with dropped := n } }, n)

/-- The copies of the waves of a core's teams end with CODE 0x05 (R215). -/
def cutWaveCopies (s : State) (core : Nat) : State :=
  { s with teams := s.teams.map fun p => if p.2.core == core then (p.1, p.2.cutCopies p.1) else p }

/-- The copies of a context end with CODE 0x05 (R306, R321). -/
def cutCtxCopies (s : State) (x : Nat) : State := modCtx s x fun X => X.copies.foldl (fun X c => X.dropCopy c 5) X

/-- The unit stops; its record, which says how it stood. -/
def stopUnit (s : State) (p unit : Nat) : State × List Byte :=
  let die := unit / 1024
  let k := unit % 1024
  if k < 200 then (modCore (cutWaveCopies s (die * 200 + k)) (die * 200 + k) fun C => { C with stopped := true }, coreRecord s (die * 200 + k))
  else if k < 400 then (s, matrixRecord s (die * 200 + (k - 200)))
  else if k < 800 then (cutCtxCopies s (die * 400 + (k - 400)), ctxRecord s (die * 400 + (k - 400)))
  else if k < 825 then
    (modCluster s (die * 25 + (k - 800)) fun C => { C with phStopped := true }, passRecord s (die * 25 + (k - 800)))
  else if k < 850 then
    let c := die * 25 + (k - 825)
    let (s1, n) := stopRouter s p c
    (s1, routerRecord s c n)
  else
    let (s1, n) := stopGateway s p die (k - 850)
    (s1, gatewayRecord s p die (k - 850) n)

/-- The stop area of a partition (R448). -/
def stopArea (P : Part) : Nat := bits P.sabase.toNat 51 17 * 2 ^ 17

/-- HALT_LINE_ARRIVAL (R446, R448): the unit stops and writes its stop record. -/
def execHaltLineArrival (p unit : Nat) (s : State) : Host.Outcome State Fault Refusal :=
  finishEvent s do
    let P ← need (smGet? s.parts p)
    let h ← need P.halt
    needs ((partUnits P).contains unit && !nsHas h.arrived unit)
    let (s1, rec) := stopUnit s p unit
    let s2 := ownWrite s1 (stopArea P + 64 * unit) rec
    .ok (modPart s2 p fun P => { P with halt := P.halt.map fun h => { h with arrived := nsAdd h.arrived unit, records := h.records + 1 } })

/-- HALT_HEADER_WRITE (R449, R501, R502): once every unit has written its record. -/
def execHaltHeaderWrite (p : Nat) (s : State) : Host.Outcome State Fault Refusal :=
  finishEvent s do
    let P ← need (smGet? s.parts p)
    let h ← need P.halt
    needs ((partUnits P).all fun u => nsHas h.arrived u)
    let base := stopArea P
    let s1 := ownWrite s (base + 64 * 855) (List.replicate (64 * 168) 0#8)
    let s2 := ownWrite s1 (base + 64 * (1024 + 855)) (List.replicate (64 * 169) 0#8)
    let header := pad64 (toBytes 1 h.reason ++ toBytes 1 0 ++ toBytes 2 h.origin ++ toBytes 1 h.origMod ++ toBytes 3 0 ++
      toBytes 8 h.addr ++ toBytes 4 (h.records + 1))
    let s3 := ownWrite s2 (base + 64 * 1023) header
    let waits (q : Pending) : Bool := match q with
      | .halt _ _ => true
      | _ => false
    let s4 := modPart s3 p fun P => { P with
      halt := none
      haltst := BitVec.ofNat 64 (2 ^ 8 + h.reason)
      pend := P.pend.filter fun q => !waits q }
    .ok ((P.pend.filter waits).foldl (fun (s : State) (q : Pending) => match q with
      | .halt tag port => answer s p port tag 0
      | _ => s) (emitOut s4 (.interrupt 0 p)))

end Sys2Proof.Machine
end

