-- ==== Sys2Proof/Machine/Sha.lean ====
section
/-! DEFINITION. SHA-512 and RSA-4096 with PKCS #1 v1.5, which R511–R513 name and do not spell out (log entry 40): the digest
of a byte string, signatures and their check. -/

namespace Sys2Proof.Machine.Sha

/-! The constants: the first 64 bits after the point of roots of the first primes. -/

/-- The integer root of degree d of n, bit by bit from bit b − 1 down. -/
def root (d n : Nat) : Nat → Nat → Nat
  | 0, r => r
  | b + 1, r => root d n b (if (r + 2 ^ b) ^ d ≤ n then r + 2 ^ b else r)

/-- The first 64 bits after the point of the root of degree d of p. -/
def fraction (d p : Nat) : DWord := BitVec.ofNat 64 (root d (p * 2 ^ (64 * d)) 72 0)

/-- The primes below n in ascending order. -/
def primes (n : Nat) : List Nat :=
  (List.range n).foldl (fun ps x => if x < 2 || ps.any fun p => x % p == 0 then ps else ps ++ [x]) []

/-- The round constants: cube roots of the first eighty primes. -/
def k : List DWord := (primes 410).map (fraction 3)

/-- The first hash value: square roots of the first eight primes. -/
def h0 : List DWord := (primes 20).map (fraction 2)

/-- A number from bytes, the first the most significant. -/
def ofBE (bs : List Byte) : Nat := bs.foldl (fun a b => 256 * a + b.toNat) 0

/-- n bytes of a number, the most significant first. -/
def toBE (n x : Nat) : List Byte := (toBytes n x).reverse

/-- The padded message. -/
def pad (m : List Byte) : List Byte :=
  m ++ [0x80#8] ++ List.replicate ((239 - m.length % 128) % 128) 0#8 ++ toBE 16 (8 * m.length)

/-- Rotations of a word, and the word with its low bits dropped, joined by exclusive or. -/
def mix (x : DWord) (rot : List Nat) (drop : Nat) : DWord := rot.foldl (fun y r => y ^^^ x.rotateRight r) (x >>> drop)

/-- The work on a block: the next sixteen words of the schedule, and the two halves of the working variables, newest first. -/
structure Work where
  words : List DWord
  a : List DWord
  e : List DWord

/-- One round with its constant; the schedule moves on by a word. -/
def Work.turn (w : Work) (c : DWord) : Work :=
  let x (i : Nat) := w.words.getD i 0
  let a (i : Nat) := w.a.getD i 0
  let e (i : Nat) := w.e.getD i 0
  let t := x 0 + c + e 3 + mix (e 0) [14, 18, 41] 64 + (e 2 ^^^ (e 0 &&& (e 1 ^^^ e 2)))
  { words := w.words.drop 1 ++ [x 0 + x 9 + mix (x 1) [1, 8] 7 + mix (x 14) [19, 61] 6]
    a := (t + mix (a 0) [28, 34, 39] 64 + ((a 1 &&& a 2) ||| (a 0 &&& (a 1 ||| a 2)))) :: w.a.take 3
    e := (t + a 3) :: w.e.take 3 }

/-- One block of 128 bytes. -/
def block (h : List DWord) (m : List Byte) : List DWord :=
  let words := (List.range 16).map fun i => BitVec.ofNat 64 (ofBE (sliceB m (8 * i) 8))
  let w := k.foldl Work.turn ⟨words, h.take 4, h.drop 4⟩
  (h.zip (w.a ++ w.e)).map fun p => p.1 + p.2

/-- The digest of a byte string, 64 bytes. -/
def digest (m : List Byte) : List Byte :=
  let p := pad m
  (((List.range (p.length / 128)).foldl (fun h i => block h (sliceB p (128 * i) 128)) h0)).flatMap fun x => toBE 8 x.toNat

/-- base^e mod n; the fuel is the number of bits of e. -/
def powMod (n : Nat) : Nat → Nat → Nat → Nat
  | 0, _, _ => 1 % n
  | f + 1, b, e =>
    let r := powMod n f (b * b % n) (e / 2)
    if e % 2 == 1 then b * r % n else r

/-- The encoded message of a digest in 512 bytes. -/
def encoded (d : List Byte) : List Byte :=
  let t : List Byte := [0x30#8, 0x51#8, 0x30#8, 0x0d#8, 0x06#8, 0x09#8, 0x60#8, 0x86#8, 0x48#8, 0x01#8, 0x65#8, 0x03#8, 0x04#8,
    0x02#8, 0x03#8, 0x05#8, 0x00#8, 0x04#8, 0x40#8] ++ d
  [0#8, 1#8] ++ List.replicate (509 - t.length) 0xFF#8 ++ [0#8] ++ t

/-- Whether a signature of a byte string checks under a public key. -/
def verify (key : PubKey) (m sig : List Byte) : Bool :=
  let s := ofBE sig
  sig.length == 512 && s < key.n && powMod key.n (key.e.log2 + 1) s key.e == ofBE (encoded (digest m))

/-- The signature of a byte string. -/
def sign (n d : Nat) (m : List Byte) : List Byte := toBE 512 (powMod n (d.log2 + 1) (ofBE (encoded (digest m))) d)

/-- The digest of a public key: modulus in 512 bytes, exponent in 4. -/
def keyDigest (key : PubKey) : BitVec 512 := BitVec.ofNat 512 (ofBE (digest (toBE 512 key.n ++ toBE 4 key.e)))

end Sys2Proof.Machine.Sha
end

