-- ==== Sys2Proof/Machine/Manage.lean ====
section
/-! DEFINITION. The management registers and roles (R44, R392, R430, R483, R493, R497, R503–R514, R517, R522), energy and clocks
(R514–R518), the measurement registers and the attestation report (R512, R513), signed sideband requests (R511), the failure
of a stack (R502). -/

namespace Sys2Proof.Machine

/-- A die's management register written. -/
def setDieCsr (s : State) (die num : Nat) (v : DWord) : State := { s with csrs := smPut 0 s.csrs (die * 4096 + num) v }

/-- Caltus counts an access to its registers by another agent (R503). -/
def denyAccess (s : State) (die : Nat) : State := { s with denied := smPut 0 s.denied die (smGetD s.denied die 0 + 1) }

/-! Scheduling parameters and areas. -/

/-- Size of an L2 slice in KiB, the smaller where the partition's dies differ (R46). -/
def partL2 (s : State) (P : Part) : Nat :=
  P.clusters.foldl (fun a k => min a (bits (dieCsr s (k / 25) 0x029).toNat 31 16)) (2 ^ 16)

/-- Whether a write of SCHCFG is refused (R392). -/
def schcfgBad (s : State) (p : Nat) (P : Part) (value : DWord) : Bool :=
  let mib := bits value.toNat 35 32
  let live := s.launches.any fun q => q.2.part == p && !q.2.ended
  (mib != bits P.schcfg.toNat 35 32 && live) || partL2 s P < 2 * 1024 * mib || bits value.toNat 31 0 == 0

/-- A refused write is reported to its requester (R520). A write of a register of a partition does not name its requester, and is reported
as service firmware's, which makes it (R510; DESIGN CHOICE, log entry 112). -/
def refuseWrite (s : State) (by_ : Role) (num : Nat) : State := emitOut s (.refusedWrite by_ num)

/-- SCHCFG is written; a refused write leaves it as it was (R392). -/
def schcfgSet (s : State) (p : Nat) (value : DWord) : State :=
  match smGet? s.parts p with
  | none => s
  | some P =>
    if schcfgBad s p P value then refuseWrite s .service (0x800 + 16 * p)
    else modPart s p fun P => { P with schcfg := value &&& 0xF_FFFF_FFFF#64 }

/-- SCHCFG_WRITE (R392). -/
def execSchcfgWrite (p : Nat) (value : DWord) (s : State) : Host.Outcome State Fault Refusal :=
  finishEvent s do
    let _ ← need (smGet? s.parts p)
    .ok (schcfgSet s p value)

/-- The area a ring or area register set describes, base and bytes (R522). -/
def areaRange (off : Nat) (P : Part) : Nat × Nat :=
  match off with
  | 0 | 1 => (bits P.fbbase.toNat 51 12 * 4096, 32 * ringSize P.fbsize 6 20)
  | 6 => (bits P.sabase.toNat 51 17 * 2 ^ 17, 131072)
  | 7 => (bits P.svbase.toNat 51 21 * 2 ^ 21, bits P.svbase.toNat 7 0 * 2 ^ 21)
  | _ => (bits P.sqbase.toNat 51 12 * 4096, 64 * ringSize P.sqsize 4 16)

/-- The register written, its reserved bits 0. -/
def areaWrite (off : Nat) (v : DWord) (P : Part) : Option Part :=
  match off with
  | 0 => some { P with fbbase := v &&& 0x000F_FFFF_FFFF_F000#64 }
  | 1 => some { P with fbsize := v &&& 0x1F#64 }
  | 6 => some { P with sabase := v &&& 0x000F_FFFF_FFFE_0000#64 }
  | 7 => some { P with svbase := v &&& 0x000F_FFFF_FFE0_00FF#64 }
  | 9 => some { P with sqbase := v &&& 0x000F_FFFF_FFFF_F000#64 }
  | 10 => some { P with sqsize := v &&& 0x1F#64 }
  | _ => none

/-- Records that waited for room in the service ring go in, now that a register changed (R184). -/
def drainSq (s : State) (p : Nat) : State := sqDrain p ((smGet? s.parts p).elim 0 (·.sqPend.length)) s

/-- A base or size register is written, unless its area would not be backed (R522). -/
def areaSet (s : State) (p off : Nat) (value : DWord) : State :=
  match (smGet? s.parts p).bind (areaWrite off value) with
  | none => s
  | some P =>
    let (base, len) := areaRange off P
    if rangeBacked s base len then drainSq (modPart s p fun _ => P) p else refuseWrite s .service (0x880 + 16 * p + off)

/-- AREA_BASE_WRITE (R430, R184, R522): CSR 0x880 + 16 × partition + offset. -/
def execAreaBaseWrite (num : BitVec 12) (value : DWord) (s : State) : Host.Outcome State Fault Refusal :=
  finishEvent s do
    let n := num.toNat
    needs (0x880 ≤ n && n < 0x900)
    let P ← need (smGet? s.parts ((n - 0x880) / 16))
    let _ ← need (areaWrite (n % 16) value P)
    .ok (areaSet s ((n - 0x880) / 16) (n % 16) value)

/-! Registers without a behaviour of their own (R44). -/

/-- A host window register (R497): HWSEL and the windows are held once for the module. -/
def windowWrite (s : State) (i : Nat) (v : DWord) : State :=
  let sel := (dieCsr s 0 0xC00).toNat
  let w := bits sel 8 6 * 64 + bits sel 5 0
  let W := smGetD s.windows w ⟨0, 0, 0, 0⟩
  let W1 : Window := match i with
    | 0 => { W with vbase := v &&& 0x00FF_FFFF_FFFF_E000#64 }
    | 1 => { W with len := v &&& 0x7FF_FFFF_FFFF#64 }
    | 2 => { W with ctl := (v &&& 0xFF00#64) ||| BitVec.ofNat 64 (bits sel 8 6) }
    | _ => { W with check := v &&& 0x3FF_FFFF#64 }
  { s with windows := smSet s.windows w W1 }

/-- FBCMD acts (R430, R432). -/
def faultCommand (s : State) (p cmd : Nat) : State :=
  match cmd with
  | 1 => flushGen s p
  | 2 => replayAll s p
  | 3 => replayAll (flushGen s p) p
  | _ => s

/-- A partition's register of R430 and R184: an RO field takes nothing, a WO one acts (R7). -/
def partWrite (s : State) (p off : Nat) (v : DWord) : State :=
  match off with
  | 5 => if (smGet? s.parts p).isSome then faultCommand s p (v.toNat % 4) else s
  | 14 => callDone s p (v.toNat % 2 ^ 32)
  | 3 => modPart s p fun P => { P with fbrd := v &&& 0xFFFF_FFFF#64 }
  | 4 => modPart s p fun P => { P with fbgen := P.fbgen &&& ~~~(v &&& 0x10000#64) }
  | 12 =>
    drainSq (modPart s p fun P => { P with sqrd := v &&& 0xFFFF_FFFF#64 }) p
  | 13 => modPart s p fun P => { P with svcreply := v }
  | _ => areaSet s p off v

/-- Whether a register is reserved to Caltus (R503, R506, R509, R510). -/
def caltusOnly (n : Nat) : Bool := (0x900 ≤ n && n < 0x980) || (0xF00 ≤ n && n < 0xF13)

/-! Worlds (R503, R504). -/

/-- Whether Caltus may change what a cluster is assigned to: it belongs to no partition, or its partition has been halted
and reset (R504). -/
def clusterFree (s : State) (k : Nat) : Bool :=
  match partOfCluster s k with
  | none => true
  | some p => (smGet? s.parts p).any (·.clean)

/-- The clusters of a die whose assignment a write of a world register would change. -/
def worldChanges (num : Nat) (old new : DWord) : List Nat :=
  let ch := (List.range 64).filter fun i => (old ^^^ new).getLsbD i
  match num with
  | 0xF01 => ch.map (· / 4)
  | 0xF02 => ch.map fun i => 16 + i / 4
  | _ => ch

/-- The world of a partition is that of its clusters (R504). -/
def refreshWorlds (s : State) : State :=
  { s with parts := s.parts.map fun p =>
      (p.1, { p.2 with secure := (p.2.clusters.head?).any fun k => (dieCsr s (k / 25) 0xF00).getLsbD (k % 25) }) }

/-- Whether the clusters of every partition would have one world, those of the other die as they are (R504). -/
def oneWorld (s : State) (die : Nat) (v : DWord) : Bool :=
  s.parts.all fun p =>
    let l := p.2.clusters.map fun k => (if k / 25 == die then v else dieCsr s (k / 25) 0xF00).getLsbD (k % 25)
    l.all id || l.all (!·)

/-- SHA-512(M ‖ d) (R512). -/
def extendMreg (s : State) (die i : Nat) (d : List Byte) : State :=
  let m := smGetD s.mregs (die * 8 + i) 0
  { s with mregs := smPut 0 s.mregs (die * 8 + i) (BitVec.ofNat 512 (Sha.ofBE (Sha.digest (Sha.toBE 64 m.toNat ++ d)))) }

/-- The registers of R503 and R506 of a die, in the order of their numbers (DESIGN CHOICE, log entry 67). -/
def worldBytes (s : State) (die : Nat) : List Byte :=
  ((List.range 64).flatMap fun i =>
    let r := smGetD s.regions (die * 64 + i) ⟨0, 0, false⟩
    toBytes 8 r.rega.toNat ++ toBytes 8 r.regb.toNat) ++
    (List.range 4).flatMap fun i => toBytes 8 (dieCsr s die (0xF00 + i)).toNat

/-- Caltus extends MREG2 with the digest of the registers of R503 and R506 when it has changed them (R512). `s0` is the state before. -/
def measureWorlds (s0 s : State) (die : Nat) : State :=
  if worldBytes s0 die == worldBytes s die then s else extendMreg s die 2 (Sha.digest (worldBytes s die))

/-- A world register's value with its reserved bits 0 (R503). -/
def worldMask (n : Nat) (value : DWord) : DWord :=
  value &&& (match n with
    | 0xF01 => BitVec.allOnes 64
    | 0xF02 => 0xF_FFFF_FFFF#64
    | _ => 0x1FF_FFFF#64)

/-- Whether Caltus performs a write of a world register (R504). -/
def worldOk (s : State) (die n : Nat) (value : DWord) : Bool :=
  (worldChanges n (dieCsr s die n) (worldMask n value)).all (fun c => clusterFree s (25 * die + c)) &&
    (n != 0xF00 || oneWorld s die (worldMask n value))

/-- A world register is written. -/
def worldPut (s : State) (die n : Nat) (value : DWord) : State :=
  measureWorlds s (refreshWorlds (setDieCsr s die n (worldMask n value))) die

/-- A world register is written; Caltus refuses what R504 forbids. -/
def worldSet (s : State) (die n : Nat) (value : DWord) : State :=
  if worldOk s die n value then worldPut s die n value else refuseWrite s (.caltus die) n

/-- WORLD_WRITE (R503, R504): from another agent it has no effect and is counted. -/
def execWorldWrite (die : Nat) (by_ : Role) (num : BitVec 12) (value : DWord) (s : State) : Host.Outcome State Fault Refusal :=
  finishEvent s do
    let n := num.toNat
    needs (die < 2 && 0xF00 ≤ n && n < 0xF04)
    .ok (if by_.caltusOf die then worldSet s die n value else denyAccess s die)

/-! Regions (R506, R507). -/

/-- Whether two regions of a die overlap. -/
def regionsMeet (a b : Region) : Bool :=
  let f (r : Region) := (bits r.rega.toNat 50 48, bits r.rega.toNat 14 0, bits r.regb.toNat 14 0)
  let (sa, lo, hi) := f a
  let (sb, lo', hi') := f b
  sa == sb && lo ≤ hi' && lo' ≤ hi

/-- Whether a region covers a place. -/
def regionHolds (die : Nat) (r : Region) (p : Place) : Bool :=
  p.other.isNone && p.stack == 5 * die + bits r.rega.toNat 50 48 && bits r.rega.toNat 14 0 ≤ p.off / 2 ^ 21 &&
    p.off / 2 ^ 21 ≤ bits r.regb.toNat 14 0

/-- Whether a team of a partition that has not been halted and reset still translates into a region under the current
generation: then the procedure of R489 has not been followed (R507). -/
def regionInUse (s : State) (die : Nat) (r : Region) : Bool :=
  s.teams.any fun t => t.2.st != .ended && (smGet? s.parts t.2.part).any (fun P => !P.clean) &&
    t.2.ext.any fun e => e.kind == 1#2 && e.gen == (asidOf s t.2.asid).gen &&
      (List.range (4 * e.len)).any fun i => (place s (e.pbase + 2048 * i)).any (regionHolds die r)

/-- KEY and SEC of a byte of this module's memory, by its key in `State.mem` (R506). -/
def keyAt (s : State) (k : Nat) : Nat × Bool :=
  let r := regionOf s ⟨none, k / 2 ^ 36, k % 2 ^ 36, false⟩
  (r.1, r.2.1)

/-- The key and the world that a place of this module's memory is written and read under (R507, R509). -/
def tagAt (s : State) (k : Nat) : Option (BitVec 512) × Bool :=
  let r := keyAt s k
  (smGet? s.keys r.1, r.2)

/-- After a change of regions or keys: what was written under another key or in the other world is not read (R507, R509), and is read again
when they are in effect once more. Under a key nothing was written with, a byte reads as one that was never written (DESIGN CHOICE, log
entry 103). `s0` is the state before the change. -/
def reseal (s0 s : State) : State :=
  let same (k : Nat) : Bool := 10 * 2 ^ 36 ≤ k || tagAt s0 k == tagAt s k
  let back (c : Sealed) : Bool := !same c.at_ && (c.key, c.sec) == tagAt s c.at_
  let backG (c : SealedMark) : Bool := !same (16 * c.granule) && (c.key, c.sec) == tagAt s (16 * c.granule)
  let away := (s.mem.filter fun c => !same c.1).map fun c => (⟨c.1, (tagAt s0 c.1).1, (tagAt s0 c.1).2, c.2⟩ : Sealed)
  let awayG := (s.memPsn.filter fun g => !same (16 * g)).map fun g => (⟨g, (tagAt s0 (16 * g)).1, (tagAt s0 (16 * g)).2⟩ : SealedMark)
  { s with
    mem := (s.covered.filter back).foldl (fun m c => memSet m c.at_ c.byte) (s.mem.filter fun c => same c.1)
    memPsn := (s.coveredPsn.filter backG).foldl (fun m c => nsAdd m c.granule) (s.memPsn.filter fun g => same (16 * g))
    covered := (s.covered.filter fun c => !back c) ++ away
    coveredPsn := (s.coveredPsn.filter fun c => !backG c) ++ awayG }

/-- A region's entry as a write makes it (R506). -/
def regionNew (rega regb : DWord) : Region := ⟨rega &&& 0xFF87_0000_0000_7FFF#64, regb &&& 0x7FFF#64, false⟩

/-- The entry of region i, 64 × die + number. -/
def regionAt (s : State) (i : Nat) : Region := smGetD s.regions i ⟨0, 0, false⟩

/-- Whether Caltus refuses a write of a region's entry (R507). -/
def regionBad (s : State) (i : Nat) (rega regb : DWord) : Bool :=
  let new := regionNew rega regb
  let old := regionAt s i
  let valid := new.rega.getLsbD 63
  let others := s.regions.filter fun r => r.1 / 64 == i / 64 && r.1 != i && r.2.rega.getLsbD 63
  (valid && (others.any (fun r => regionsMeet new r.2) || (smGet? s.keys (bits new.rega.toNat 61 55)).isNone ||
      4 < bits new.rega.toNat 50 48 || bits new.regb.toNat 14 0 < bits new.rega.toNat 14 0)) ||
    (old.rega.getLsbD 63 && regionInUse s (i / 64) old) || (valid && regionInUse s (i / 64) new)

/-- Whether a write changes KEY or SEC of a valid region (R507). -/
def regionRekeys (s : State) (i : Nat) (rega : DWord) : Bool :=
  let old := (regionAt s i).rega
  rega.getLsbD 63 && old.getLsbD 63 && bits rega.toNat 62 55 != bits old.toNat 62 55

/-- A region's entry is written; a change of KEY or SEC closes the region (R507). -/
def regionPut (s : State) (i : Nat) (rega regb : DWord) : State :=
  measureWorlds s (reseal s { s with
    regions := smSet s.regions i { regionNew rega regb with closed := regionRekeys s i rega } }) (i / 64)

/-- A region's entry is written, or Caltus refuses it (R507); it takes no write of a region while it works on it. -/
def regionSet (s : State) (i : Nat) (rega regb : DWord) : State :=
  if (regionAt s i).closed || regionBad s i rega regb then refuseWrite s (.caltus (i / 64)) (0x900 + 2 * (i % 64))
  else regionPut s i rega regb

/-- REGION_WRITE (R506, R507): region i of both dies' 128, once Caltus is done with an earlier change of it. From another agent it has no
effect and is counted (R503). -/
def execRegionWrite (by_ : Role) (i : Nat) (rega regb : DWord) (s : State) : Host.Outcome State Fault Refusal :=
  finishEvent s do
    needs (i < 128 && !(regionAt s i).closed)
    .ok (if by_.caltusOf (i / 64) then regionSet s i rega regb else denyAccess s (i / 64))

/-- The keys in memory of a region's bytes. -/
def regionSpan (die : Nat) (r : Region) : Nat × Nat :=
  let base := (5 * die + bits r.rega.toNat 50 48) * 2 ^ 36
  (base + bits r.rega.toNat 14 0 * 2 ^ 21, base + (bits r.regb.toNat 14 0 + 1) * 2 ^ 21)

/-- REGION_REKEY_COMPLETE (R507): every byte of the region is zero, it opens, and Caltus reports the change complete. -/
def execRegionRekeyComplete (die i : Nat) (s : State) : Host.Outcome State Fault Refusal :=
  finishEvent s do
    let r ← need (smGet? s.regions (die * 64 + i))
    needs r.closed
    let (lo, hi) := regionSpan die r
    let out (k : Nat) : Bool := k < lo || hi ≤ k
    let s1 := { s with
      mem := s.mem.filter fun c => out c.1
      memPsn := s.memPsn.filter fun g => out (16 * g)
      covered := s.covered.filter fun c => out c.at_
      coveredPsn := s.coveredPsn.filter fun c => out (16 * c.granule)
      regions := smSet s.regions (die * 64 + i) { r with closed := false } }
    .ok (if s.caltusAt == some (die * 64 + i) then emitOut { s1 with caltusAt := none } (.caltusStatus true) else s1)

/-! Keys (R509). -/

/-- The key that KEYDAT0–7 of a die hold. -/
def keydatKey (s : State) (die : Nat) : BitVec 512 :=
  BitVec.ofNat 512 ((List.range 8).foldl (fun a j => a + (smGetD s.keydat (die * 8 + j) 0).toNat * 2 ^ (64 * j)) 0)

/-- The key of a die's KEYDAT goes into a slot of both dies, and that KEYDAT is cleared (R509). -/
def keyLoadSlot (s : State) (die slot : Nat) : State :=
  reseal s { s with keys := smSet s.keys slot (keydatKey s die), keydat := s.keydat.filter fun k => k.1 / 8 != die }

/-- Whether an erase of a slot is refused: a valid region names it, or it is slot 0 (R509). -/
def keyNamed (s : State) (slot : Nat) : Bool :=
  slot == 0 || s.regions.any fun r => r.2.rega.getLsbD 63 && bits r.2.rega.toNat 61 55 == slot

/-- A slot is erased, unless it may not be (R509). -/
def keyEraseSlot (s : State) (die slot : Nat) : State :=
  if keyNamed s slot then refuseWrite s (.caltus die) 0xF10 else { s with keys := smDel s.keys slot }

/-- A key command of Caltus on a die; another agent's has no effect and is counted (R503, R509, R510). -/
def keyBy (s : State) (r : KeyReq) (act : Nat → State) : State :=
  match r.by_ with
  | .caltus die => act die
  | _ => denyAccess s 0

/-- KEY_LOAD (R509, R510). -/
def execKeyLoad (r : KeyReq) (s : State) : Host.Outcome State Fault Refusal :=
  finishEvent s do
    needs (r.slot < 128)
    .ok (keyBy s r fun die => keyLoadSlot s die r.slot)

/-- KEY_ERASE (R509). -/
def execKeyErase (r : KeyReq) (s : State) : Host.Outcome State Fault Refusal :=
  finishEvent s do
    needs (r.slot < 128)
    .ok (keyBy s r fun die => keyEraseSlot s die r.slot)

/-- KEYCMD of a die acts (R509): other values of OP have no effect. -/
def keyCommand (s : State) (die v : Nat) : State :=
  match bits v 9 8 with
  | 1 => keyLoadSlot s die (bits v 6 0)
  | 2 => keyEraseSlot s die (bits v 6 0)
  | _ => s

/-! Every register by its number (R7, R8, R44). -/

/-- A register that only Caltus writes (R503, R506, R509). Half a region's entry is written at a time. -/
def caltusWrite (s : State) (die n : Nat) (v : DWord) : State :=
  if n < 0x980 then
    let i := die * 64 + (n - 0x900) / 2
    if n % 2 == 0 then regionSet s i v (regionAt s i).regb else regionSet s i (regionAt s i).rega v
  else if n < 0xF04 then worldSet s die n v
  else if 0xF08 ≤ n && n < 0xF10 then { s with keydat := smPut 0 s.keydat (die * 8 + (n - 0xF08)) v }
  else if n == 0xF10 then keyCommand s die v.toNat
  else s

/-- MGMT_CSR_WRITE (R7, R8, R44): an RO field and a reserved bit take nothing, a WO register acts; a number that names no register
takes nothing either. -/
def execMgmtCsrWrite (die : Nat) (by_ : Role) (num : BitVec 12) (value : DWord) (s : State) :
    Host.Outcome State Fault Refusal :=
  finishEvent s do
    let n := num.toNat
    needs (die < 2 && 0x800 ≤ n && by_ != .board)
    if caltusOnly n then .ok (if by_.caltusOf die then caltusWrite s die n value else denyAccess s die)
    else if n < 0x880 then .ok (if n % 16 == 0 then schcfgSet s ((n - 0x800) / 16) value else s)
    else if n < 0x900 then .ok (partWrite s ((n - 0x880) / 16) (n % 16) value)
    else if 0xB00 ≤ n && n < 0xB0A then
      .ok { s with hbm := modAt s.hbm (n - 0xB00) fun h => { h with en := value.getLsbD 61 } }
    else if n == 0xC00 then .ok (setDieCsr s 0 0xC00 (value &&& 0x1FF#64))
    else if 0xC01 ≤ n && n < 0xC05 then .ok (windowWrite s (n - 0xC01) value)
    else if 0xD00 ≤ n && n < 0xE00 then .ok (setDieCsr s die n value)
    else if 0xE00 ≤ n && n < 0xEC8 then
      .ok (modCore s (die * 200 + (n - 0xE00)) fun C => { C with waitth := value.toNat % 2 ^ 32 })
    else if n == 0xF20 then .ok (setDieCsr s die n (value &&& 0xFFFF#64))
    else .ok s

/-- A register of a partition as a read returns it (R430, R184, R392). -/
def Part.csr (P : Part) (off : Nat) : DWord :=
  match off with
  | 0 => P.fbbase
  | 1 => P.fbsize
  | 2 => P.fbwr
  | 3 => P.fbrd
  | 4 => P.fbgen
  | 6 => P.sabase
  | 7 => P.svbase
  | 8 => P.haltst
  | 9 => P.sqbase
  | 10 => P.sqsize
  | 11 => P.sqwr
  | 12 => P.sqrd
  | 13 => P.svcreply
  | _ => 0

/-- A host window's register, the one HWSEL names (R497). -/
def windowCsr (s : State) (i : Nat) : DWord :=
  let sel := (dieCsr s 0 0xC00).toNat
  let W := smGetD s.windows (bits sel 8 6 * 64 + bits sel 5 0) ⟨0, 0, 0, 0⟩
  match i with
  | 0 => W.vbase
  | 1 => W.len
  | 2 => (W.ctl &&& 0xFF00#64) ||| BitVec.ofNat 64 (bits sel 8 6)
  | _ => W.check

/-- The slots that hold a key, 64 of them from `lo` (R509). -/
def keyMap (s : State) (lo : Nat) : DWord :=
  BitVec.ofNat 64 (s.keys.foldl (fun a k => if lo ≤ k.1 && k.1 < lo + 64 then a + 2 ^ (k.1 - lo) else a) 0)

/-- The stretched cycles of a cluster are read and cleared (R518). -/
def readStretch (s : State) (cluster : Nat) (C : Cluster) : State :=
  modCluster (emitOut s (.csrValue (cluster / 25 * 4096 + 0xF40 + cluster) (BitVec.ofNat 64 C.stretch))) cluster
    fun C => { C with stretch := 0 }

/-- What a read of a management register returns (R7, R503): a WO register reads as 0, as does one of Caltus's to another. -/
def mgmtCsr (s : State) (die : Nat) (by_ : Role) (n : Nat) : DWord :=
  if caltusOnly n then
    if !by_.caltusOf die then 0
    else if n < 0x980 then
      let r := regionAt s (die * 64 + (n - 0x900) / 2)
      if n % 2 == 0 then r.rega else r.regb
    else if n < 0xF04 then dieCsr s die n
    else if n == 0xF11 then keyMap s 0
    else if n == 0xF12 then keyMap s 64
    else 0
  else if 0x800 ≤ n && n < 0x880 then (if n % 16 == 0 then (smGet? s.parts ((n - 0x800) / 16)).elim 0 (·.schcfg) else 0)
  else if 0x880 ≤ n && n < 0x900 then (smGet? s.parts ((n - 0x880) / 16)).elim 0 fun P => P.csr (n % 16)
  else if 0xB00 ≤ n && n < 0xB0A then
    (s.hbm[n - 0xB00]?).elim 0 fun h => (if h.en then 2 ^ 61 else 0) + BitVec.ofNat 64 (h.cap * 8192)
  else if n == 0xC00 then dieCsr s 0 0xC00
  else if 0xC01 ≤ n && n < 0xC05 then windowCsr s (n - 0xC01)
  else if 0xD00 ≤ n && n < 0xE00 then dieCsr s die n
  else if 0xE00 ≤ n && n < 0xEC8 then (core? s (die * 200 + (n - 0xE00))).elim 0 fun C => BitVec.ofNat 64 C.waitth
  else if n == 0xF20 then dieCsr s die n
  else if n == 0xF21 then smGetD s.energy (dieCsr s die 0xF20).toNat 0
  else 0

/-- What the board reads over I3C (R502, R517): HALTST, STKST and the energy counters. -/
def boardReads (n : Nat) : Bool :=
  (0x880 ≤ n && n < 0x900 && n % 16 == 8) || (0xB00 ≤ n && n < 0xB0A) || n == 0xF20 || n == 0xF21

/-- A read of a management register: a read-and-clear one is cleared (R7, R464, R518), and Caltus counts an access of another agent to
one of its own, which returns 0 (R503). -/
def mgmtRead (s : State) (die : Nat) (by_ : Role) (n : Nat) : State :=
  if by_ == .board && !boardReads n then s
  else if 0xA00 ≤ n && n < 0xAC8 then
    (core? s (die * 200 + (n - 0xA00))).elim s fun C => readMbdrop s (die * 200 + (n - 0xA00)) C
  else if 0xF40 ≤ n && n < 0xF72 then (smGet? s.clusters (n - 0xF40)).elim s fun C => readStretch s (n - 0xF40) C
  else emitOut (if caltusOnly n && !by_.caltusOf die then denyAccess s die else s) (.csrValue (die * 4096 + n) (mgmtCsr s die by_ n))

/-! Measurement (R512, R513). -/

/-- MREG_EXTEND (R512): service firmware may ask for MREG3–MREG7 only. -/
def execMregExtend (die : Nat) (by_ : Role) (i : Nat) (digest : BitVec 512) (s : State) : Host.Outcome State Fault Refusal :=
  finishEvent s do
    needs (die < 2 && i < 8)
    .ok (if by_.caltusOf die || (by_ == .service && 3 ≤ i) then extendMreg s die i (Sha.toBE 64 digest.toNat) else s)

/-- Bytes 0 to 623 of the report (R513). -/
def reportBody (s : State) (die : Nat) (nonce : List Byte) : List Byte :=
  let worlds := s.parts.foldl (fun a p => if p.2.secure && p.1 < 8 then a + 2 ^ p.1 else a) 0
  let used := s.keys.foldl (fun a k => if k.1 < 128 then a + 2 ^ k.1 else a) 0
  toBytes 4 0x4B514154 ++ toBytes 2 1 ++ toBytes 2 die ++ toBytes 8 s.fuses.devid.toNat ++ sliceB nonce 0 64 ++
    ((List.range 8).flatMap fun i => Sha.toBE 64 (smGetD s.mregs (die * 8 + i) 0).toNat) ++
    toBytes 1 worlds ++ toBytes 7 0 ++ toBytes 16 used ++ toBytes 4 s.fuses.version ++ toBytes 4 0

/-- ATTESTATION_REPORT (R513). -/
def execAttestationReport (die : Nat) (nonce : List Byte) (s : State) : Host.Outcome State Fault Refusal :=
  finishEvent s do
    needs (die < 2)
    let body := reportBody s die nonce
    .ok (emitOut s (.report (body ++ Sha.sign s.fuses.identity.n s.fuses.secretExp body)))

/-! The sideband (R502, R511). -/

/-- What a request signs (log entry 41): its number, its kind and its value. -/
def sideMessage (r : SideReq) : List Byte := toBytes 8 r.seq ++ toBytes 4 r.kind ++ r.value

/-- SIGNED_SIDEBAND_REQUEST (R511): kind 1 enrols the owner key's digest, kind 2 advances the fuse counter, kind 3 Caltus's
own counter. -/
def execSignedSidebandRequest (r : SideReq) (s : State) : Host.Outcome State Fault Refusal :=
  finishEvent s do
    let d := Sha.keyDigest r.key
    let v := ofBytes (sliceB r.value 0 4)
    let ok := s.sideSeq < r.seq && r.seq < 2 ^ 64 && (d == s.fuses.vendor || s.fuses.owner == some d) &&
      Sha.verify r.key (sideMessage r) r.sig
    let s1 := { s with sideSeq := r.seq }
    if !ok then .ok (emitOut s (.sideband false))
    else if r.kind == 1 then
      .ok (emitOut { s1 with fuses := { s.fuses with owner := some (BitVec.ofNat 512 (Sha.ofBE (sliceB r.value 0 64))) } } (.sideband true))
    else if r.kind == 2 then .ok (emitOut { s1 with fuses := { s.fuses with version := max s.fuses.version v } } (.sideband true))
    else if r.kind == 3 then .ok (emitOut { s1 with svcVersion := max s.svcVersion v } (.sideband true))
    else .ok (emitOut s (.sideband false))

/-! Energy and clocks (R514–R518). -/

/-- The sum of the allowances (R514). -/
def allowances (s : State) : Nat := s.parts.foldl (fun a q => a + q.2.allowance) 0

/-- Whether Caltus may set the budget: BUD within its limits, and the allowances not above BUD − STAT (R514). -/
def budgetOk (s : State) (b : Budget) : Bool := 1200 ≤ b.bud && b.bud ≤ 3000 && allowances s + b.stat ≤ b.bud

/-- BUDGET_SET (R510, R514): Caltus sets BUD and STAT; another agent's request has no effect. -/
def execBudgetSet (by_ : Role) (b : Budget) (s : State) : Host.Outcome State Fault Refusal :=
  finishEvent s (.ok (if by_.isCaltus && budgetOk s b then { s with budget := b.bud, reserve := b.stat } else refuseWrite s by_ 0))

/-- ALLOWANCE_WRITE (R514). -/
def execAllowanceWrite (p watts : Nat) (s : State) : Host.Outcome State Fault Refusal :=
  finishEvent s do
    let _ ← need (smGet? s.parts p)
    let sum := (s.parts.filter fun q => q.1 != p).foldl (fun a q => a + q.2.allowance) watts
    .ok (if sum + s.reserve ≤ s.budget then modPart s p fun P => { P with allowance := watts } else refuseWrite s .service 0)

/-- The indices of the energy counters (R517). -/
def energyIndices : List Nat :=
  (List.range 400).flatMap (fun c => [c, 0x400 + c, 0x800 + c]) ++ (List.range 50).flatMap (fun k => [0xC00 + k, 0xE00 + k]) ++
    (List.range 200).map (0xD00 + ·) ++ (List.range 10).map (0xF00 + ·) ++ [0xF10, 0xF11, 0xF30]

/-- What the counters attribute in a tick is measured: free (R517). -/
def tickEnergy (s : State) : State :=
  let e := ((List.range energyIndices.length).zip energyIndices).foldl (fun m p =>
    smPut 0 m p.2 (smGetD m p.2 0 + Config.freeEnergy (s.fresh + p.1))) s.energy
  { s with energy := e, fresh := s.fresh + energyIndices.length }

/-- ENERGY_REFILL (R514): each 1 µs the allowance is added to the account, up to its cap. -/
def execEnergyRefill (s : State) : Host.Outcome State Fault Refusal :=
  finishEvent s (.ok (tickEnergy { s with parts := s.parts.map fun p =>
    (p.1, { p.2 with account := BitVec.ofInt 64 (min (p.2.account.toInt + p.2.allowance) (1024 * p.2.allowance)) }) }))

/-- A cluster's clock is stretched over some cycles (R518): its cores fall behind by an amount the spec leaves open, so that no core's
count relates to another's (R3, R47). -/
def Cluster.stretched (C : Cluster) (cycles behind : Nat) : Cluster :=
  { C with stretch := (C.stretch + cycles) % 2 ^ 64, lag := C.lag + behind }

/-- CLOCK_STRETCH (R518): how far the cores fall behind is the turn's free choice. -/
def execClockStretch (cluster cycles : Nat) (s : State) : Host.Outcome State Fault Refusal :=
  finishEvent s do
    let _ ← need (smGet? s.clusters cluster)
    .ok (modCluster s cluster fun C => C.stretched cycles s.choice)

/-- POWER_LIMIT (R516, R502): every cluster's clock is stretched. The turn's choice says whether a thermal limit is the cause,
which raises an interrupt, and how far each cluster falls behind. -/
def execPowerLimit (cycles : Nat) (s : State) : Host.Outcome State Fault Refusal :=
  let s1 := { s with clusters := s.clusters.map fun k => (k.1, k.2.stretched cycles (s.choice / 2 ^ (16 * k.1 + 1) % 2 ^ 16)) }
  finishEvent s (.ok (if s.choice % 2 == 1 then emitOut s1 (.interrupt 4 0) else s1))

/-- STRETCH_COUNT_READ (R518): the count is read and cleared. -/
def execStretchCountRead (cluster : Nat) (s : State) : Host.Outcome State Fault Refusal :=
  finishEvent s do
    let C ← need (smGet? s.clusters cluster)
    .ok (readStretch s cluster C)

/-- STACK_FAIL (R502, R490, R522): the stack leaves service and its memory stops being backed. -/
def execStackFail (k : Nat) (s : State) : Host.Outcome State Fault Refusal :=
  finishEvent s do
    let h ← need s.hbm[k]?
    needs h.en
    .ok (emitOut { s with hbm := setAt s.hbm k { h with en := false } } (.interrupt 1 k))

/-! The request queue of service firmware to Caltus (R510). -/

/-- Service firmware puts a request into the queue. -/
def askMove (s : State) (r : CaltusReq) : State := { s with caltusQ := s.caltusQ ++ [r] }

/-- Whether a request obeys R503–R509, R512 and R514. -/
def caltusOk (s : State) (r : CaltusReq) : Bool :=
  match r with
  | .world die num value => die < 2 && 0xF00 ≤ num.toNat && num.toNat < 0xF04 && worldOk s die num.toNat value
  | .region i rega regb => i < 128 && !regionBad s i rega regb
  | .keyLoad die slot => die < 2 && slot < 128
  | .keyErase slot => slot < 128 && !keyNamed s slot
  | .budget b => budgetOk s b
  | .measure die i _ => die < 2 && 3 ≤ i && i < 8

/-- Caltus performs a request. -/
def caltusDo (s : State) (r : CaltusReq) : State :=
  match r with
  | .world die num value => worldPut s die num.toNat value
  | .region i rega regb => regionPut s i rega regb
  | .keyLoad die slot => keyLoadSlot s die slot
  | .keyErase slot => keyEraseSlot s 0 slot
  | .budget b => { s with budget := b.bud, reserve := b.stat }
  | .measure die i d => extendMreg s die i (Sha.toBE 64 d.toNat)

/-- Caltus takes the oldest request and answers it with a status (R510): that of a change of KEY or SEC comes when the region is open again
(R507), and a request for a region it works on waits. -/
def caltusMove (s : State) : State :=
  match s.caltusQ with
  | [] => s
  | r :: q =>
    let (busy, rekeys, at_) : Bool × Bool × Nat := match r with
      | .region i rega _ => ((regionAt s i).closed, regionRekeys s i rega, i)
      | _ => (false, false, 0)
    if s.caltusAt.isSome || busy then s
    else
      let s1 := { s with caltusQ := q }
      if !caltusOk s r then emitOut s1 (.caltusStatus false)
      else if rekeys then { caltusDo s1 r with caltusAt := some at_ }
      else emitOut (caltusDo s1 r) (.caltusStatus true)

/-! The board over I3C (R502). -/

/-- What an item reads as; what sensors measure is free. -/
def boardValue (s : State) (item : BoardItem) : State × BoardValue :=
  match item with
  | .temperature | .voltage | .power => ({ s with fresh := s.fresh + 1 }, .measured (BitVec.ofNat 64 (Config.freeEnergy s.fresh).toNat))
  | .gateway g => (s, (s.gateways[g]?).elim (.gateway [] []) fun G => .gateway G.modules G.retries)
  | .port k => (s, .port (nsHas s.ports k) (smGetD s.portRetries k 0))
  | .bootReason => (s, .boot s.bootWhy)
  | .mailbox => (s, .mailbox s.mailbox)

/-- The board reads an item. A module stopped in bring-up shows it why (R520). -/
def boardMove (s : State) (item : BoardItem) : State :=
  let (s1, v) := boardValue s item
  emitOut s1 (.board item v)

/-- The board, or Caltus, writes into the mailbox of 256 bytes between them (R502). -/
def mailboxMove (s : State) (by_ : Role) (off : Nat) (bs : List Byte) : State :=
  if by_ != .service && off + bs.length ≤ 256 then
    { s with mailbox := s.mailbox.take off ++ bs ++ s.mailbox.drop (off + bs.length) }
  else s

end Sys2Proof.Machine
end

