-- ==== Sys2Proof/Machine/Boot.lean ====
section
/-! DEFINITION. Module reset and bring-up (R2, R480, R483, R511, R512, R520), and the reset of a partition (R519). -/

namespace Sys2Proof.Machine

/-! Firmware images (R511). -/

/-- The key that KEYID selects, if it is the one whose digest the fuses hold. -/
def imageKey (f : Fuses) (b : Bringup) (keyid : Nat) : Option PubKey :=
  match keyid with
  | 0 => if Sha.keyDigest b.vendorKey == f.vendor then some b.vendorKey else none
  | 1 => if f.owner == some (Sha.keyDigest b.ownerKey) then some b.ownerKey else none
  | _ => none

/-- The part of an image that its signature covers: bytes 0 to 511 of the header, and the body. -/
def imageText (im : List Byte) : List Byte := im.take 512 ++ im.drop 1024

/-- Whether an image is accepted: its magic, kind, version and size, and its signature (R511). -/
def imageOk (f : Fuses) (b : Bringup) (kind version : Nat) (im : List Byte) : Bool :=
  fieldB im 0 4 == 0x4B514657 && fieldB im 4 2 == kind && version ≤ fieldB im 8 4 && fieldB im 16 8 == im.length - 1024 &&
    1024 ≤ im.length && fieldB im 16 8 % 8 == 0 && fieldB im 24 8 % 8192 == 0 && fieldB im 32 8 < max (fieldB im 16 8) 1 &&
    (imageKey f b (fieldB im 6 2)).any fun k => Sha.verify k (imageText im) (sliceB im 512 512)

/-- An accepted image is loaded and measured on both dies (R511, R512). -/
def loadImage (s : State) (i : Nat) (im : List Byte) : State :=
  let s1 := ownWrite s (fieldB im 24 8) (im.drop 1024)
  let d := Sha.digest (imageText im)
  extendMreg (extendMreg s1 0 i d) 1 i d

/-! The steps (R520). -/

/-- LSCAP as the fuses give it (R2, R46). -/
def lscapOf (stratus : Bool) : DWord :=
  BitVec.ofNat 64 (if stratus then 2 ^ 40 + 24576 * 2 ^ 16 + 512 else 12288 * 2 ^ 16 + 256)

/-- Step 1: every register at its reset value. What the board and the fuses hold stays, and what the module has sent out. -/
def bootReset (s : State) : State :=
  { State.reset with
    agenda := s.agenda
    choice := s.choice
    fresh := s.fresh
    now := s.now
    moduleNo := s.moduleNo
    fuses := s.fuses
    svcVersion := s.svcVersion
    sideSeq := s.sideSeq
    outbox := s.outbox }

/-- Whether the fuses of a die are read (R520). -/
def fuseOk (b : Bringup) (d : Nat) : Bool := b.fuseOk.getD d false

/-- Bring-up stops at a step, with an in-band interrupt (R502) and a reason the board can read (R520). -/
def bootStop (s : State) (n : Nat) (why : BootFail) : State :=
  emitOut { s with boot := .stopped n, bootWhy := s.bootWhy ++ [why] } (.interrupt 5 n)

/-- A die whose fuses fail to read stays in reset, and raises its interrupt (R520). -/
def dieStop (b : Bringup) (s : State) (d : Nat) : State :=
  if fuseOk b d then s else emitOut { s with bootWhy := s.bootWhy ++ [.fuses d] } (.interrupt 5 2)

/-- Step 2: the capacities of the dies whose fuses are read, and the units that come with them. -/
def bootFuses (b : Bringup) (s : State) : State :=
  let st (d : Nat) : Bool := b.stratus.getD d false
  let cap (s : State) (d : Nat) : State := if fuseOk b d then setDieCsr s d 0x029 (lscapOf (st d)) else s
  let s1 := cap (cap (dieStop b (dieStop b s 0) 1) 0) 1
  { s1 with
    boot := .fuses
    cores := ((List.range 400).filter fun c => fuseOk b (c / 200)).map fun c => (c, Core.blank (st (c / 200)))
    clusters := ((List.range 50).filter fun k => fuseOk b (k / 25)).map fun k => (k, Cluster.blank)
    ctxs := ((List.range 800).filter fun x => fuseOk b (x / 400)).map fun x => (x, Ctx.blank)
    ports := (List.range 128).filter fun p => fuseOk b (p / 64) }

/-- Step 3: a stack whose training fails has EN = 0 and CAP = 0, as have those of a die in reset. -/
def bootMemory (b : Bringup) (s : State) : State :=
  let cap (k : Nat) : Nat := if fuseOk b (k / 5) then b.caps.getD k 0 else 0
  { s with boot := .memory, hbm := (List.range 10).map fun k => ⟨cap k != 0, cap k, 0⟩ }

/-- Step 4: the modules of the five gateways, which join two dies that are out of reset. -/
def bootLinks (b : Bringup) (s : State) : State :=
  let up := fuseOk b 0 && fuseOk b 1
  { s with boot := .links, gateways := (List.range 5).map fun g =>
      ⟨(List.range 5).map fun m => up && (b.modules.getD g []).getD m false, List.replicate 5 0, false, 0, []⟩ }

/-- Step 5: Caltus, key slot 0, service firmware. -/
def bootFirmware (b : Bringup) (s : State) : State :=
  if !imageOk s.fuses b 1 s.fuses.version b.caltus then bootStop s 5 .caltusImage
  else
    let s1 := loadImage s 0 b.caltus
    let s2 := { s1 with boot := .firmware, keys := smSet s1.keys 0 b.random }
    if !imageOk s.fuses b 2 s.svcVersion b.service then bootStop s2 5 .serviceImage
    else { loadImage s2 1 b.service with boot := .up }

/-- MODULE_RESET (R520): the steps in order; each starts only when the one before it has succeeded. A die whose fuses fail stays in reset,
and the other, to which no gateway then joins, goes on to step 4. -/
def execModuleReset (b : Bringup) (s : State) : Host.Outcome State Fault Refusal :=
  let s1 := bootReset s
  let s2 := bootFuses b s1
  finishEvent s (.ok (
    if !(fuseOk b 0 || fuseOk b 1) then { s2 with boot := .stopped 2 }
    else
      let s4 := bootLinks b (bootMemory b s2)
      if !(List.range 5).any (gatewayUp s4) then bootStop s4 4 .links
      else bootFirmware b s4))

/-- Whether an event is a request from outside: of the host, the management cores, other modules. -/
def asked : Instr → Bool
  | .thieloData _ | .hostCommit _ _ _ | .rdmaWrite _ | .rdmaRead _ | .roceInvalidRequest _ _ | .flush _ | .replay _ | .flushThenReplay _
  | .force _ | .kill _ | .halt _ | .nodetab _ | .nodeon _ | .nodeoff _ | .asrec _ | .unknownOp _ | .svcdone _ _ | .keyLoad _ | .keyErase _
  | .regionWrite _ _ _ _ | .worldWrite _ _ _ _ | .schcfgWrite _ _ | .areaBaseWrite _ _ | .allowanceWrite _ _ | .budgetSet _ _
  | .mregExtend _ _ _ _ | .attestationReport _ _ | .mgmtCsrWrite _ _ _ _ | .partitionReset _ => true
  | _ => false

/-- Whether the module has stopped in bring-up. -/
def refuses (s : State) : Bool :=
  match s.boot with
  | .stopped _ => true
  | _ => false

/-- Whether the module takes an event: one stopped in bring-up takes no request but a signed sideband request (R520). -/
def takes (s : State) (i : Instr) : Bool := !(refuses s && asked i)

/-! A partition's reset (R519). -/

/-- A core after the reset: its banks, scratchpad and tiles are zero. Its counters stay. -/
def Core.afterReset (C : Core) : Core :=
  { Core.blank (C.phys.length == 16) with
    gen := C.gen
    ccyc := C.ccyc
    waitth := C.waitth
    mbdrop := C.mbdrop
    seq := C.seq }

/-- Whether a request is a partition's. -/
def reqOfPart (s : State) (p : Nat) (r : MemReq) : Bool := r.who != .own && r.part s == p

/-- Memory as it stood before: a partition reset does not change it (R519). -/
def keepMemory (s s1 : State) : State := { s1 with mem := s.mem, memPsn := s.memPsn, hbm := s.hbm }

/-- The teams of a partition end, and its launches (R519 leaves them no context). -/
def endPartTeams (s : State) (p : Nat) : State :=
  let mine := s.teams.filter fun q => q.2.part == p && q.2.st != .ended
  let s0 := mine.foldl (fun s q => settleKilled s q.1) s
  let s1 := mine.foldl (fun s q => releaseSlots (freeImage (setTeam s q.1 q.2.kill) p q.2.image) p (q.2.waves.flatMap (·.slots))) s0
  (s1.launches.filter fun l => l.2.part == p && !l.2.ended).foldl (fun s l =>
    answerKills (launchOver (modLaunch s l.1 fun L => { L with killed := true }) l.1) p l.1)
    (mine.foldl (fun s q => answerForces s p q.1) s1)

/-- Whether an agent may reset a partition: Caltus a secure one, service firmware another (R519). -/
def mayReset (P : Part) (by_ : Role) : Bool := if P.secure then by_.isCaltus else by_ == .service

/-- PARTITION_RESET (R519): of a halted partition, by the agent it falls to; another's request has no effect. -/
def execPartitionReset (q : ResetReq) (s : State) : Host.Outcome State Fault Refusal :=
  finishEvent s do
    let p := q.part
    let P ← need (smGet? s.parts p)
    needs (P.haltst.getLsbD 8)
    if !mayReset P q.by_ then .ok (refuseWrite s q.by_ 0)
    else
    let on (k : Nat) : Bool := nsHas P.clusters k
    let s0 := { s with
      reqs := s.reqs.filter fun r => !reqOfPart s p r
      mails := s.mails.filter fun m => !on (clusterOf m.toCore)
      jnet := s.jnet.filter fun f => !(f.dest < 400 && on (clusterOf f.dest))
      held := s.held.filter fun h => !on (clusterOf h.flit.dest)
      heldRed := s.heldRed.filter fun h => !h.parts.any fun q => (req? s q).any (reqOfPart s p)
      halos := s.halos.filter fun h => !on h.cluster
      far := s.far.filter fun l => requesterPart s l.who != p
      ctl := s.ctl.filter fun f => !(match f.cmd with
        | .replay q _ => q == p
        | _ => false) }
    let s1 := keepMemory s (endPartTeams s0 p)
    let s2 := { s1 with
      cores := s1.cores.map fun c => (c.1, if on (clusterOf c.1) then c.2.afterReset else c.2)
      clusters := s1.clusters.map fun k => (k.1, if on k.1 then { Cluster.blank with stretch := k.2.stretch, lag := k.2.lag } else k.2)
      ctxs := s1.ctxs.map fun x => (x.1, if on (x.1 / 16) then Ctx.blank else x.2) }
    .ok (modPart s2 p fun P => { P with
      fbwr := 0
      fbrd := 0
      haltst := 0
      halt := none
      calls := []
      fbLate := []
      clean := true })

end Sys2Proof.Machine
end

