-- ==== Sys2Proof/Machine/Control.lean ====
section
/-! DEFINITION. The meanings of the control instructions (R172–R182, R185): ILL to LOOP. -/

namespace Sys2Proof.Machine

/-- ILL (R119): ILLEGAL_ENC in every profile. -/
def execIll (_ : IWord) (s : State) : Host.Outcome State Fault Refusal :=
  issue 0x00 0#4 s (fun _ => .error (.trap .illegalEnc 0)) (fun _ => .error (.trap .illegalEnc 0))
    (fun _ => .error (.trap .illegalEnc 0))

/-- NOP (R179); the stream profile takes no guard (R110). -/
def execNop (f : NoneW) (s : State) : Host.Outcome State Fault Refusal :=
  issue 0x01 f.g s (fun c => .ok (c.retire c.W f.bnd))
    (fun c => do
      trapIf (f.g != 0#4) .illegalEnc
      .ok (c.retire c.X))
    (fun e => .ok e.next)

/-! Branches. -/

/-- The lanes of slice i in a lane mask. -/
def sliceLanes (m : LaneMask) (i : Nat) : BitVec 4 := (m >>> (4 * i)).truncate 4

/-- The lane mask of one slice's lanes. -/
def laneBits (i : Nat) (m : BitVec 4) : LaneMask := (m.zeroExtend 32) <<< (4 * i)

/-- Rpc (R172): the reconvergence pc, 0 for none. -/
def rpcOf (pc : BitVec 53) (rdist : BitVec 8) : BitVec 53 := if rdist == 0#8 then 0 else pc + rdist.zeroExtend 53

/-- A slice's branch on its taken lanes T (R172): nothing pushed when its lanes agree. -/
def Slice.branch (sl : Slice) (T : BitVec 4) (target dpc rpc : BitVec 53) : Slice :=
  if T == sl.lmask then sl.goto target true true
  else ({ sl with lmask := T, stack := ⟨sl.lmask &&& ~~~T, dpc, rpc⟩ :: sl.stack }).goto target true true

/-- The lowest slice of a gang that would overflow its deferral stack (R21, R172). -/
def firstOverflow (W : Wave) (g : BitVec 8) (parts : Nat → Bool) : Option Nat :=
  (slicesOf g).find? fun i => parts i && 8 ≤ (W.slice i).stack.length

/-- BRA on a wave (R172). -/
def braWave (f : BraW) (c : WCtx) : Except Stop State := do
  let taken (i : Nat) : BitVec 4 := sliceLanes c.lanes i &&& (c.W.slice i).lmask
  let splits (i : Nat) : Bool := taken i != 0 && taken i != (c.W.slice i).lmask
  match firstOverflow c.W c.gang splits with
  | some i => .error (.trap .divstackOvf (BitVec.ofNat 64 i))
  | none =>
    .ok (c.put (c.W.retireTo c.gang fun i sl =>
      if taken i == 0 then sl.goto (sl.pc + 1) false true
      else sl.branch (taken i) (sl.pc + f.off24.signExtend 53) (sl.pc + 1) (rpcOf sl.pc f.rdist)))

/-- BRA in a context (R110): always, on a non-zero register, on a zero register. -/
def braCtx (f : BraW) (c : KCtx) : Except Stop State := do
  trapIf (!(f.g == 0#4 || f.g == 1#4 || f.g == 9#4) || (f.g == 0#4 && f.rdist != 0#8)) .illegalEnc
  let srcs := if f.g == 0#4 then [] else [f.rdist]
  c.open srcs []
  c.checkPoison srcs
  let go := f.g == 0#4 || ((c.k f.rdist != 0) == (f.g == 1#4))
  .ok (if go then c.put (c.X.goTo (c.X.kpc + f.off24.signExtend 53))
    else c.retire c.X)

/-- BRA in a lane of a callable evaluation (R123): forward only. RDIST has no meaning there and is not looked at: the spec gives
it neither a use nor a required value in this profile (DESIGN CHOICE, log entry 81). -/
def braLane (f : BraW) (e : Eval) : Except Stop Eval := do
  trapIf (f.off24.toInt ≤ 0) .profile (profileArg 0x02 false)
  .ok (if e.guard f.g then { e with pc := e.pc + f.off24.signExtend 53 } else e.next)

/-- BRA (R172, R110, R123). -/
def execBra (f : BraW) (s : State) : Host.Outcome State Fault Refusal := issue 0x02 f.g s (braWave f) (braCtx f) (braLane f)

/-- BRX (R175): the target is each lane's own; lanes that differ from the lowest wait at the word itself. -/
def execBrx (f : BrxW) (s : State) : Host.Outcome State Fault Refusal :=
  issue 0x03 f.g s fun c0 => do
    let c ← c0.open [.pair f.a] [] false
    let tgt (l : Nat) : Nat := c.reg64 f.a l
    let first (i : Nat) : Nat := tgt (lowLane (laneBits i (c.W.slice i).lmask))
    let same (i : Nat) : BitVec 4 := sliceLanes (maskOf fun l =>
      l / 4 == i && (c.W.slice i).lmask.getLsbD (l % 4) && tgt l == first i) i
    match firstOverflow c.W c.gang fun i => same i != (c.W.slice i).lmask with
    | some i => .error (.trap .divstackOvf (BitVec.ofNat 64 i))
    | none =>
      match (lanesOf c.lanes).find? fun l => tgt l % 8 != 0 with
      | some l => .error (.trap .misalign (BitVec.ofNat 64 (tgt l)))
      | none => do
        c.checkPoison [.pair f.a]
        .ok (c.put (c.W.retireTo c.gang fun i sl =>
          sl.branch (same i) (BitVec.ofNat 53 (first i / 8)) sl.pc (rpcOf sl.pc f.rdist)))

/-! Calls and loops (R178). -/

/-- The byte address of a word. -/
def byteAddr (pc : BitVec 53) : Nat := pc.toNat * 8

/-- A gang goes to one target. -/
def WCtx.jump (c : WCtx) (W : Wave) (target : BitVec 53) : State :=
  c.put (W.retireTo c.gang fun _ sl => sl.goto target true true)

/-- A context goes to a target. -/
def KCtx.jump (c : KCtx) (X : Ctx) (target : BitVec 53) : State :=
  c.put (X.goTo target)

/-- The PC of the gang. -/
def WCtx.pc (c : WCtx) : BitVec 53 := (c.W.slice (lowSlice c.gang)).pc

/-- CALL (R178). z may stand as the link, as it may as the target of RET and the counter of LOOP: R106 asks for a uniform
register or pair, and names only vector registers as refused (DESIGN CHOICE, log entry 82). -/
def execCall (f : CallW) (s : State) : Host.Outcome State Fault Refusal :=
  issue 0x04 f.g s
    (fun c0 => do
      trapIf (isVector f.d) .illegalEnc
      let c ← c0.open [] [.pair f.d] true
      .ok (c.jump (c.W.putRegs f.d 2 0 (byteAddr (c.pc + 1))) (c.pc + f.off24.signExtend 53)))
    (fun c => do
      c.open [] [f.d]
      .ok (c.jump (c.X.putK f.d (byteAddr (c.X.kpc + 1))) (c.X.kpc + f.off24.signExtend 53)))

/-- CALLX (R178): the target is read before the link is written; not in the stream profile (R121). -/
def execCallx (f : CallxW) (s : State) : Host.Outcome State Fault Refusal :=
  issue 0x05 f.g s fun c0 => do
    trapIf (isVector f.d || isVector f.a) .illegalEnc
    let c ← c0.open [.pair f.a] [.pair f.d] true
    let t := c.reg64 f.a 0
    trapIf (t % 8 != 0) .misalign (BitVec.ofNat 64 t)
    c.checkPoison [.pair f.a]
    .ok (c.jump (c.W.putRegs f.d 2 0 (byteAddr (c.pc + 1))) (BitVec.ofNat 53 (t / 8)))

/-- RET (R178). -/
def execRet (f : CallxW) (s : State) : Host.Outcome State Fault Refusal :=
  issue 0x06 f.g s
    (fun c0 => do
      trapIf (isVector f.a) .illegalEnc
      let c ← c0.open [.pair f.a] [] true
      let t := c.reg64 f.a 0
      trapIf (t % 8 != 0) .misalign (BitVec.ofNat 64 t)
      c.checkPoison [.pair f.a]
      .ok (c.jump c.W (BitVec.ofNat 53 (t / 8))))
    (fun c => do
      c.open [f.a] []
      trapIf (c.k f.a % 8 != 0) .misalign (BitVec.ofNat 64 (c.k f.a))
      c.checkPoison [f.a]
      .ok (c.jump c.X (BitVec.ofNat 53 (c.k f.a / 8))))

/-- LOOP (R178). -/
def execLoop (f : CallW) (s : State) : Host.Outcome State Fault Refusal :=
  issue 0x0D f.g s
    (fun c0 => do
      trapIf (isVector f.d) .illegalEnc
      let c ← c0.open [.one f.d] [.one f.d] true
      c.checkPoison [.one f.d]
      let n := (c.reg f.d 0 + 2 ^ 32 - 1) % 2 ^ 32
      let W := c.W.putReg f.d 0 n
      .ok (if n != 0 then c.jump W (c.pc + f.off24.signExtend 53) else c.retire W true))
    (fun c => do
      c.open [f.d] [f.d]
      c.checkPoison [f.d]
      let n := (c.k f.d + 2 ^ 64 - 1) % 2 ^ 64
      let X := c.X.putK f.d n
      .ok (if n != 0 then c.jump X (c.X.kpc + f.off24.signExtend 53) else c.retire X))

/-! Gathering and ending. -/

/-- REGANG (R22, R179): the word retires, and its slices wait for the others of the wave. -/
def execRegang (f : NoneW) (s : State) : Host.Outcome State Fault Refusal :=
  issue 0x07 f.g s fun c =>
    let W := (c.W.holdGang c.gang .regang).endReplay c.gang
    let W1 := { W with wclock := W.wclock + BitVec.ofNat 64 (slicesOf c.gang).length, lastGang := BitVec.ofNat 3 (lowSlice c.gang) }
    .ok (c.put W1.joinRegang)

/-- The deferral entries a slice takes when its lanes have ended (R180): the PC, lanes and stack it comes to. -/
def exitStack : List Deferral → Option (BitVec 53 × BitVec 4 × List Deferral)
  | [] => none
  | e :: r =>
    if e.mask == 0#4 then exitStack r
    else if e.rpc != 0 && e.dpc != e.rpc then some (e.dpc, e.mask, ⟨0#4, e.rpc, e.rpc⟩ :: r)
    else some (e.dpc, e.mask, r)

/-- What EXIT does to a slice whose lanes E end (R180). -/
def Slice.exit (sl : Slice) (E : BitVec 4) : Slice :=
  let left := sl.lmask &&& ~~~E
  if left != 0#4 then ({ sl with lmask := left }).goto (sl.pc + 1) false true
  else match exitStack sl.stack with
    | some (pc, m, st) => ({ sl with lmask := m, stack := st }).goto pc true true
    | none => { sl with live := false, lmask := 0#4, stack := [], hold := .free }

/-- EXIT (R180). -/
def execExit (f : NoneW) (s : State) : Host.Outcome State Fault Refusal :=
  issue 0x08 f.g s fun c =>
    .ok (slicesEnded (c.put (c.W.retireTo c.gang fun i sl => sl.exit (sliceLanes c.lanes i))) c.t c.w)

/-- YIELD (R179, R398): every run that ends gives up the slot to the tail of the list; see `issueCore`. -/
def execYield (f : NoneW) (s : State) : Host.Outcome State Fault Refusal :=
  issue 0x09 f.g s fun c => .ok (c.retire c.W f.bnd)

/-! Traps and return. -/

/-- A word that retires and then traps (R182): WCLOCK counts it, and the gang's slices keep lanes and stacks. -/
def retireTrap (c : WCtx) (cause : Cause) (arg : DWord) (epc : DWord) : State :=
  takeTrapAt (c.put { c.W.endReplay c.gang with
    wclock := c.W.wclock + BitVec.ofNat 64 (slicesOf c.gang).length
    lastGang := BitVec.ofNat 3 (lowSlice c.gang) }) c.t c.w c.gang cause.code arg epc false

/-- TRAP (R182, R311). -/
def execTrap (f : ImmW) (s : State) : Host.Outcome State Fault Refusal :=
  issue 0x0A f.g s
    (fun c => .ok (if c.lanes == 0 then c.retire c.W f.bnd
      else retireTrap c .trap (f.imm.zeroExtend 64) (epcOf 0#5 (c.pc + 1))))
    (fun _ => do
      trapIf (f.g != 0#4) .illegalEnc
      .error (.trap .trap (f.imm.zeroExtend 64)))

/-- BKPT (R182). -/
def execBkpt (f : ImmW) (s : State) : Host.Outcome State Fault Refusal :=
  issue 0x0C f.g s fun c => .ok (if c.lanes == 0 then c.retire c.W f.bnd
    else retireTrap c .bkpt (f.imm.zeroExtend 64) (c.W.epcAt c.gang))

/-- ERET on a slice (R185, R116): PC and RUNPOS of WEPC. A reconvergence there starts a run of its own (R174). -/
def Slice.eret (sl : Slice) (epc : DWord) : Slice :=
  let pc : BitVec 53 := epc.extractLsb' 3 53
  let y := sl.goto pc true false
  if y.pc == pc && y.stack == sl.stack then { y with runpos := epc.extractLsb' 58 5 } else y

/-- ERET (R185). With lanes left in WPARK the word at WEPC.PC is performed for those lanes only (R427). -/
def execEret (f : NoneW) (s : State) : Host.Outcome State Fault Refusal :=
  issue 0x0B f.g s fun c => do
    trapIf (!c.W.intrap) .priv
    let W := c.W.retireTo c.gang fun _ sl => sl.eret c.W.wepc
    let again := c.W.wpark != 0
    .ok (makeReady (c.put { W with
      intrap := false
      trapGang := 0
      replay := again
      parked := again
      parkGang := if again then c.gang else W.parkGang }) c.t c.w)

end Sys2Proof.Machine
end

