-- ==== Sys2Proof/Machine/Convert.lean ====
section
/-! DEFINITION. The meanings of the conversions (R85–R87, R162–R165): CVT, CVTQ, CVTDQ, PACK, UNPK. -/

namespace Sys2Proof.Machine

/-- Registers a type of R96 takes (R133). -/
def typeRegs (t : Nat) : Nat := if t == 10 || t == 11 then 2 else 1

/-- The operand that holds X: a uniform register or z (R74). -/
def extraOk (c : BitVec 8) : Bool := isUniform c || c == 0xF8#8

/-- The environment of a conversion: the mode of R62. -/
def cvtEnv (f : AluW) (i : LaneIn) : Env := ⟨roundOverride i.rm f.h, i.ftz, f.sc, f.cl⟩

/-- CVT (R85, R162): types of R96, C the extra value of an fp4 source. -/
def execCvt (f : AluW) (s : State) : Host.Outcome State Fault Refusal :=
  let src := (f.b.extractLsb' 0 4).toNat
  let x := floatSpec f 1 fun i => cvt f.var.toNat src (f.b.getLsbD 4) (cvtEnv f i) f.ma i.a i.c
  runAlu 0x70 f false
    { x with
      a := some (f.a, typeRegs src)
      c := if src == 5 then some (f.c, 1) else none
      dst := some (f.d, typeRegs f.var.toNat)
      bad := src == 5 && !extraOk f.c } s

/-- Three operands of one register. -/
def cvt3 (f : AluW) (op : LaneIn → Nat × Exc) : AluSpec :=
  let x := floatSpec f 3 op
  { x with b := some (f.b, 1), c := some (f.c, 1) }

/-- CVTQ (R86, R163). -/
def execCvtq (f : AluW) (s : State) : Host.Outcome State Fault Refusal :=
  runAlu 0x71 f false (cvt3 f fun i => cvtq f.var.toNat i.ftz i.a i.b i.c) s

/-- CVTDQ (R87, R163). -/
def execCvtdq (f : AluW) (s : State) : Host.Outcome State Fault Refusal :=
  runAlu 0x72 f false (cvt3 f fun i => cvtdq f.var.toNat ⟨i.rm, i.ftz, 0#3, false⟩ i.a i.b i.c) s

/-- PACK (R164): c is not read when the elements are 16 bits wide. Its field then only has to name a source the word could have: nothing is
popped, awaited or checked for poison (R35; DESIGN CHOICE, log entry 109). -/
def execPack (f : AluW) (s : State) : Host.Outcome State Fault Refusal :=
  let t := f.var.toNat
  let x := cvt3 f fun i => fPack t (cvtEnv f i) (aluMods f) i.a i.b i.c
  runAlu 0x73 f false (if packWidth t == 16 then { x with c := none, idle := some f.c } else x) s

/-- UNPK (R165): in the immediate form X is +0. The index may come from lid, a queue or mb, which the rule's list leaves out
(DESIGN CHOICE, log entry 109). -/
def execUnpk (f : AluW) (s : State) : Host.Outcome State Fault Refusal :=
  let t := ty3 f.var
  let x := floatSpec f 2 fun i => fUnpk t i.ftz i.a i.b i.c
  let ex := t == 5 && !immFlag f.var
  runAlu 0x74 f false
    { x with
      c := if ex then some (f.c, 1) else none
      imm := f.imm.toNat
      bad := ex && !extraOk f.c } s

end Sys2Proof.Machine
end

