-- ==== Sys2Proof/Machine/CrossLane.lean ====
section
/-! DEFINITION. The meanings of the lane and cross-lane instructions (R151, R166–R171): RFL, RDLANE, WRLANE, SHFL, VOTE,
REDUX, SCAN, MATCH. Each reads the sources of all its lanes before it writes any. -/

namespace Sys2Proof.Machine

/-- Registers of a .b32 or .b64 operand. -/
def wideRegs (w : Bool) : Nat := if w then 2 else 1

/-- RFL (R151, R134). -/
def execRfl (f : AluW) (s : State) : Host.Outcome State Fault Refusal :=
  issue 0x47 f.g s fun c0 => do
    let n := wideRegs (f.var.getLsbD 0)
    let c ← c0.begin [.ofW f.a n] [.ofW f.d n] false
    .ok (c.finish f.bnd f.d n fun _ => c.regN f.a n (lowLane c.lanes))

/-- The lane number of RDLANE and WRLANE, which a vector operand may not give (R151). -/
def laneNumber (f : AluW) (c : WCtx) : Nat := (if immFlag f.var then f.imm.toNat else c.reg f.b (lowLane c.lanes)) % 32

/-- RDLANE (R151): the lane may be inactive. -/
def execRdlane (f : AluW) (s : State) : Host.Outcome State Fault Refusal :=
  issue 0x48 f.g s fun c0 => do
    let n := wideRegs (f.var.getLsbD 0)
    let b := if immFlag f.var then [] else [Regs.one f.b]
    trapIf (!(isUniform f.d && b.all fun r => uniformSrc r.code)) .illegalEnc
    let c ← c0.begin (.ofW f.a n :: b) [.ofW f.d n] false
    let l := laneNumber f c
    if c.lanes == 0 then .ok (c.retire c.W f.bnd)
    else do
      ({ c with lanes := maskOf (· == l) }).checkPoison [.ofW f.a n]
      .ok (c.finish f.bnd f.d n fun _ => c.regN f.a n l)

/-- WRLANE (R151). lid counts as uniform for a and b: the value in the lowest active lane is taken (DESIGN CHOICE, log entry 109). -/
def execWrlane (f : AluW) (s : State) : Host.Outcome State Fault Refusal :=
  issue 0x49 f.g s fun c0 => do
    let n := wideRegs (f.var.getLsbD 0)
    let srcs := Regs.ofW f.a n :: if immFlag f.var then [] else [Regs.one f.b]
    trapIf (!(isVector f.d && srcs.all fun r => uniformSrc r.code)) .illegalEnc
    let c ← c0.begin srcs [.ofW f.d n] false
    let l := laneNumber f c
    .ok (c.retire (if c.lanes.getLsbD l then c.W.putRegs f.d n l (c.regN f.a n (lowLane c.lanes)) else c.W) f.bnd)

/-- The source lane of SHFL (R167): mode, own lane, b. -/
def shflLane (mode i b : Nat) : Int :=
  match mode with
  | 0 => (b % 32 : Nat)
  | 1 => (i : Int) - b
  | 2 => (i : Int) + b
  | _ => (Nat.xor i (b % 32) : Nat)

/-- SHFL (R167). Its b and c may come from lid, a queue or mb, which the rule's list leaves out (DESIGN CHOICE, log entry 109). -/
def execShfl (f : AluW) (s : State) : Host.Outcome State Fault Refusal :=
  issue 0x75 f.g s fun c0 => do
    let n := wideRegs (f.var.getLsbD 2)
    let imm := immFlag f.var
    let srcs := Regs.ofW f.a n :: if imm then [] else [Regs.one f.b, Regs.ofW f.c n]
    let c ← c0.begin srcs [.ofW f.d n] (isUniform f.d)
    .ok (c.finish f.bnd f.d n fun i =>
      let j := shflLane (f.var.toNat % 4) i (if imm then f.imm.toNat else c.reg f.b i)
      if 0 ≤ j && j ≤ 31 && c.lanes.getLsbD j.toNat then c.regN f.a n j.toNat
      else if imm then 0
      else c.regN f.c n i)

/-- VOTE (R168): the register modes. -/
def voteVal (mode : Nat) (m : LaneMask) : Nat :=
  match mode with
  | 3 => m.toNat
  | 4 => (lanesOf m).length
  | _ => ((lanesOf m).head?).getD 0xFFFF_FFFF

/-- VOTE (R168): the predicate modes over the active lanes. -/
def votePred (mode : Nat) (m lanes : LaneMask) : Bool :=
  match mode with
  | 0 => m == lanes
  | 1 => m != 0
  | _ => m == lanes || m == 0

/-- VOTE (R168). -/
def execVote (f : AluW) (s : State) : Host.Outcome State Fault Refusal :=
  issue 0x76 f.g s fun c0 => do
    let mode := f.var.toNat % 8
    if mode < 3 then
      let m := c0.W.pred f.a.toNat &&& c0.lanes
      .ok (c0.retire (if c0.lanes == 0 then c0.W
        else c0.W.putPred f.d.toNat c0.lanes (if votePred mode m c0.lanes then BitVec.allOnes 32 else 0)) f.bnd)
    else do
      let c ← c0.begin [] [.one f.d] false
      .ok (c.finish f.bnd f.d 1 fun _ => voteVal mode (c.W.pred f.a.toNat &&& c.lanes))

/-! The reduction tree (R169, R170). -/

/-- A value below a node: an exact integer or a float code, the lanes below it, and the exceptions raised on the way,
each with the lanes it names. -/
structure RNode where
  val : Int
  lanes : LaneMask
  evs : List (LaneMask × Exc)

/-- Combine of R169: type (0 .i32, 1 .n32, 4 .f32), operation, mode. -/
def reduxOp (t op : Nat) (e : Env) (x y : Int) : Int × Exc :=
  if t == 4 then
    let r := match op with
      | 0 => fAdd .f32 e Mods.none x.toNat y.toNat
      | 1 => fMin .f32 e Mods.none x.toNat y.toNat
      | _ => fMax .f32 e Mods.none x.toNat y.toNat
    (r.1, r.2)
  else
    (match op with
      | 0 => x + y
      | 1 => if x ≤ y then x else y
      | 2 => if x ≤ y then y else x
      | 3 => (Nat.land x.toNat y.toNat : Nat)
      | 4 => (Nat.lor x.toNat y.toNat : Nat)
      | _ => (Nat.xor x.toNat y.toNat : Nat), Exc.none)

/-- A node of two children (R169). -/
def RNode.join (f : Int → Int → Int × Exc) : Option RNode → Option RNode → Option RNode
  | none, y => y
  | x, none => x
  | some x, some y =>
    let (v, k) := f x.val y.val
    let m := x.lanes ||| y.lanes
    some ⟨v, m, x.evs ++ y.evs ++ if k == 0 then [] else [(m, k)]⟩

/-- One level of the tree from the level below. -/
def pairUp (f : Int → Int → Int × Exc) : List (Option RNode) → List (Option RNode)
  | x :: y :: r => RNode.join f x y :: pairUp f r
  | r => r

/-- Levels 0 to 5 of the tree. -/
def treeLevels (f : Int → Int → Int × Exc) (n : Nat) (l : List (Option RNode)) : List (List (Option RNode)) :=
  match n with
  | 0 => [l]
  | n + 1 => l :: treeLevels f n (pairUp f l)

/-- The leaves: a as the type in each active lane. -/
def treeLeaves (t : Nat) (c : WCtx) (a : BitVec 8) : List (Option RNode) :=
  (List.range 32).map fun i =>
    if c.lanes.getLsbD i then
      some ⟨if t == 4 then ((c.reg a i : Nat) : Int) else intValue t (c.reg a i), maskOf (· == i), []⟩
    else none

/-- The result of a combination (R139, R169): saturated or modulo 2^32; a lone float is read and written as a float. -/
def treeResult (t op : Nat) (cl ftz : Bool) (x : RNode) : Nat × List (LaneMask × Exc) :=
  if t == 4 then
    if (lanesOf x.lanes).length == 1 then
      let (v, k) := fLone ftz x.val.toNat
      (v, if k == 0 then [] else [(x.lanes, k)])
    else (x.val.toNat, x.evs)
  else (intResult t (cl && op == 0) x.val, x.evs)

/-- The exceptions of each lane that an event names. -/
def evLanes (evs : List (LaneMask × Exc)) : List (Nat × Exc × Exc) :=
  (List.range 32).map fun l =>
    (l, evs.foldl (fun k e => if e.1.getLsbD l then k ||| e.2 else k) Exc.none, Exc.none)

/-- REDUX (R169, R134). -/
def execRedux (f : AluW) (s : State) : Host.Outcome State Fault Refusal :=
  issue 0x77 f.g s fun c0 => do
    let t := ty3 f.var
    let op := f.sc.toNat
    let c ← c0.begin [.one f.a] [.one f.d] false
    let g := reduxOp t op ⟨c.W.rm, c.W.ftz, 0#3, false⟩
    match ((treeLevels g 5 (treeLeaves t c f.a)).getLast?.bind (·.head?)).join with
    | none => .ok (c.retire c.W f.bnd)
    | some x => do
      let (v, evs) := treeResult t op f.cl c.W.ftz x
      let fp ← settleFlags c.W.fpctl (evLanes evs)
      .ok (({ c with W := { c.W with fpctl := fp } }).finish f.bnd f.d 1 fun _ => v)

/-- The fewest aligned blocks that cover lanes 0 to n − 1, as level and index, in ascending order (R170). -/
def scanBlocks (n : Nat) : List (Nat × Nat) :=
  [5, 4, 3, 2, 1, 0].filterMap fun l => if bit n l then some (l, n / 2 ^ (l + 1) * 2) else none

/-- The identity of an operation (R170). -/
def scanIdentity (t op : Nat) : Nat :=
  if t == 4 then (match op with
    | 0 => 0
    | 1 => 0x7F80_0000
    | _ => 0xFF80_0000)
  else match op with
    | 1 => intCode t (intMax t)
    | 2 => intCode t (intMin t)
    | 3 => 0xFFFF_FFFF
    | _ => 0

/-- SCAN (R170). -/
def execScan (f : AluW) (s : State) : Host.Outcome State Fault Refusal :=
  issue 0x78 f.g s fun c0 => do
    let t := ty3 f.var
    let op := f.sc.toNat
    trapIf (!isVector f.d) .illegalEnc
    let c ← c0.begin [.one f.a] [.one f.d] false
    let g := reduxOp t op ⟨c.W.rm, c.W.ftz, 0#3, false⟩
    let tree := treeLevels g 5 (treeLeaves t c f.a)
    let res : List (Nat × Nat × Exc) := (lanesOf c.lanes).map fun i =>
      let x := (scanBlocks (if immFlag f.var then i else i + 1)).foldl
        (fun x b => RNode.join g x (((tree[b.1]?).bind (·[b.2]?)).join)) none
      match x with
      | none => (i, scanIdentity t op, Exc.none)
      | some x =>
        let (v, evs) := treeResult t op f.cl c.W.ftz x
        (i, v, evs.foldl (fun k e => k ||| e.2) Exc.none)
    let fp ← settleFlags c.W.fpctl (res.map fun r => (r.1, r.2.2, Exc.none))
    .ok (({ c with W := { c.W with fpctl := fp } }).finish f.bnd f.d 1 fun i =>
      ((res.lookup i).map fun (r : Nat × Exc) => r.1).getD 0)

/-- MATCH (R171): group or lead. -/
def matchVal (lead : Bool) (grp : LaneMask) (i : Nat) : Nat :=
  if lead then lowLane grp + (lanesOf grp).length * 256 + (if lowLane grp == i then 32768 else 0) else grp.toNat

/-- MATCH (R171). -/
def execMatchl (f : AluW) (s : State) : Host.Outcome State Fault Refusal :=
  issue 0x79 f.g s fun c0 => do
    let n := wideRegs (f.var.getLsbD 0)
    trapIf (!isVector f.d) .illegalEnc
    let c ← c0.begin [.ofW f.a n] [.one f.d] false
    .ok (c.finish f.bnd f.d 1 fun i =>
      matchVal (f.var.getLsbD 1) (maskOf fun j => c.lanes.getLsbD j && c.regN f.a n j == c.regN f.a n i) i)

end Sys2Proof.Machine
end

