-- ==== Sys2Proof/Machine/FloatOps.lean ====
section
/-! DEFINITION. The meanings of the float instructions (R152–R161): FADD to FMED3. Each is its operation of one lane
handed to the datapath that runs it. -/

namespace Sys2Proof.Machine

/-- The format of a float word (R94). -/
def fmtOf (f : AluW) : FT := ftOf (ty3 f.var)

/-- A float word of two operands under its environment and modifiers. -/
def float2Spec (f : AluW) (op : FT → Env → Mods → Nat → Nat → Nat × Exc) : AluSpec :=
  floatSpec f 2 fun i => op (fmtOf f) (aluEnv f i) (aluMods f) i.a i.b

def float3Spec (f : AluW) (op : FT → Env → Mods → Nat → Nat → Nat → Nat × Exc) : AluSpec :=
  floatSpec f 3 fun i => op (fmtOf f) (aluEnv f i) (aluMods f) i.a i.b i.c

/-- A function of one operand (R153). -/
def float1Spec (f : AluW) (op : XV → XV × Exc) : AluSpec :=
  floatSpec f 1 fun i => float1 op (fmtOf f) (aluEnv f i) (aluMods f) i.a

/-- FFLOOR, FCEIL, FTRUNC (R157) in a fixed mode. -/
def roundSpec (f : AluW) (rm : RM) : AluSpec := floatSpec f 1 fun i => fIntegral (fmtOf f) i.ftz rm false f.ma i.a

/-- FADD (R153). -/
def execFadd (f : AluW) (s : State) : Host.Outcome State Fault Refusal :=
  runAlu 0x50 f false (float2Spec f fAdd) s

/-- FSUB (R153). -/
def execFsub (f : AluW) (s : State) : Host.Outcome State Fault Refusal :=
  runAlu 0x51 f false (float2Spec f fSub) s

/-- FMUL (R153). -/
def execFmul (f : AluW) (s : State) : Host.Outcome State Fault Refusal :=
  runAlu 0x52 f false (float2Spec f fMul) s

/-- FMA (R153). -/
def execFma (f : AluW) (s : State) : Host.Outcome State Fault Refusal :=
  runAlu 0x53 f false (float3Spec f fFma) s

/-- FMIN (R61, R154). -/
def execFmin (f : AluW) (s : State) : Host.Outcome State Fault Refusal :=
  runAlu 0x54 f false (float2Spec f fMin) s

/-- FMAX (R61, R154). -/
def execFmax (f : AluW) (s : State) : Host.Outcome State Fault Refusal :=
  runAlu 0x55 f false (float2Spec f fMax) s

/-- FCMP (R155): D names a predicate, bits 6:4 the condition. -/
def execFcmp (f : AluW) (s : State) : Host.Outcome State Fault Refusal :=
  let x := floatSpec f 2 fun _ => (0, Exc.none)
  runAlu 0x56 f false
    { x with
      dst := none
      pdst := some f.d
      op := fun i => LaneOut.ofPred (fCmp (fmtOf f) i.ftz (aluMods f) f.sc i.a i.b) } s

/-- FCLASS (R156). -/
def execFclass (f : AluW) (s : State) : Host.Outcome State Fault Refusal :=
  runAlu 0x57 f false (floatSpec f 1 fun i => (fClass (fmtOf f) i.a, Exc.none)) s

/-- FRCP (R65, R153). -/
def execFrcp (f : AluW) (s : State) : Host.Outcome State Fault Refusal :=
  runAlu 0x58 f false (float1Spec f xrcp) s

/-- FSQRT (R65, R153). -/
def execFsqrt (f : AluW) (s : State) : Host.Outcome State Fault Refusal :=
  runAlu 0x59 f false (float1Spec f xsqrt) s

/-- FRSQ (R65, R153). -/
def execFrsq (f : AluW) (s : State) : Host.Outcome State Fault Refusal :=
  runAlu 0x5A f false (float1Spec f xrsq) s

/-- FEXP2 (R65, R153). -/
def execFexp2 (f : AluW) (s : State) : Host.Outcome State Fault Refusal :=
  runAlu 0x5B f false (float1Spec f xexp2) s

/-- FLOG2 (R65, R153). -/
def execFlog2 (f : AluW) (s : State) : Host.Outcome State Fault Refusal :=
  runAlu 0x5C f false (float1Spec f xlog2) s

/-- FSINPI (R65, R153). -/
def execFsinpi (f : AluW) (s : State) : Host.Outcome State Fault Refusal :=
  runAlu 0x5D f false (float1Spec f xsinpi) s

/-- FCOSPI (R65, R153). -/
def execFcospi (f : AluW) (s : State) : Host.Outcome State Fault Refusal :=
  runAlu 0x5E f false (float1Spec f xcospi) s

/-- FDIV (R65, R153). -/
def execFdiv (f : AluW) (s : State) : Host.Outcome State Fault Refusal :=
  runAlu 0x5F f false (float2Spec f fDiv) s

/-- FFLOOR (R157). -/
def execFfloor (f : AluW) (s : State) : Host.Outcome State Fault Refusal :=
  runAlu 0x60 f false (roundSpec f RM.dn) s

/-- FCEIL (R157). -/
def execFceil (f : AluW) (s : State) : Host.Outcome State Fault Refusal :=
  runAlu 0x61 f false (roundSpec f RM.up) s

/-- FTRUNC (R157). -/
def execFtrunc (f : AluW) (s : State) : Host.Outcome State Fault Refusal :=
  runAlu 0x62 f false (roundSpec f RM.tz) s

/-- FRINT (R157, R62). -/
def execFrint (f : AluW) (s : State) : Host.Outcome State Fault Refusal :=
  runAlu 0x63 f false (floatSpec f 1 fun i => fIntegral (fmtOf f) i.ftz (roundOverride i.rm f.h) true f.ma i.a) s

/-- FFRAC (R158). -/
def execFfrac (f : AluW) (s : State) : Host.Outcome State Fault Refusal :=
  runAlu 0x64 f false (floatSpec f 1 fun i => fFrac (fmtOf f) (aluEnv f i) f.ma i.a) s

/-- FLDEXP (R159): b is a 32-bit signed integer, its immediate IMM16 sign-extended. -/
def execFldexp (f : AluW) (s : State) : Host.Outcome State Fault Refusal :=
  let x := floatSpec f 2 fun i => fLdexp (fmtOf f) (aluEnv f i) f.ma i.a (toSigned 32 i.b)
  runAlu 0x65 f false { x with imm := ofSigned 32 (toSigned 16 f.imm.toNat) } s

/-- FDOT2 (R84, R160). -/
def execFdot2 (f : AluW) (s : State) : Host.Outcome State Fault Refusal :=
  runAlu 0x66 f false (float3Spec f fDot2) s

/-- FDOT4 (R84, R160). -/
def execFdot4 (f : AluW) (s : State) : Host.Outcome State Fault Refusal :=
  runAlu 0x67 f false (floatSpec f 3 fun i => fDot4 (ty3 f.var) (aluEnv f i) (aluMods f) i.a i.b i.c) s

/-- HADD2 (R161). -/
def execHadd2 (f : AluW) (s : State) : Host.Outcome State Fault Refusal :=
  runAlu 0x68 f false (float2Spec f hAdd2) s

/-- HMUL2 (R161). -/
def execHmul2 (f : AluW) (s : State) : Host.Outcome State Fault Refusal :=
  runAlu 0x69 f false (float2Spec f hMul2) s

/-- HFMA2 (R161). -/
def execHfma2 (f : AluW) (s : State) : Host.Outcome State Fault Refusal :=
  runAlu 0x6A f false (float3Spec f hFma2) s

/-- FMED3 (R154). -/
def execFmed3 (f : AluW) (s : State) : Host.Outcome State Fault Refusal :=
  runAlu 0x6B f false (float3Spec f fMed3) s

end Sys2Proof.Machine
end

