-- ==== Sys2Proof/Machine/Graph.lean ====
section
/-! DEFINITION. The meanings of EMIT, EMITR, RECGET (R222–R224, R376, R378, R399–R401). -/

namespace Sys2Proof.Machine

/-- The address of a slot of a node's queue (R371). -/
def slotAddr (N : Node) (i : Nat) : Nat := N.qbase + 32 * N.rsize * i

/-- R400: the lower teams of the launch have ended, and the launches of earlier firings of the node. -/
def emitTurn (s : State) (T : Team) : Bool :=
  match smGet? s.launches T.launch with
  | none => true
  | some L =>
    (List.range T.index).all (nsHas L.endedTeams) &&
      s.launches.all fun p => p.2.part != L.part || p.2.node != L.node || L.firing ≤ p.2.firing || p.2.ended

/-- Whether a team may emit into a node (R376, R399, R400). -/
def mayEmit (T : Team) (from_ : Nat) (M : Node) : Bool :=
  M.on && !M.root && fieldB M.packet 30 1 == T.asid && (match M.prod with
    | some n => n == from_
    | none => !T.repro) && bit (fieldB M.packet 29 1) 0 == T.repro

/-- EMITR (R222, R376). -/
def execEmitr (f : SysW) (s : State) : Host.Outcome State Fault Refusal :=
  issue 0x9D f.g s fun c0 => do
    trapIf (!uniOrZ f.d || !uniOrZ f.a) .illegalEnc
    let c ← c0.open [.one f.a] [.pair f.d] true
    if c.lanes == 0 then .ok (c.retire c.W f.bnd)
    else do
      let i := c.reg f.a 0
      let arg : DWord := BitVec.ofNat 64 i
      let me := (smGet? c.s.launches c.T.launch).elim 0 (·.node)
      let succ := ((node? c.s c.T.part me).elim [] (·.succ))[i]?
      let M := succ.bind (node? c.s c.T.part)
      trapIf (8 ≤ c.W.slots.length || !(M.any (mayEmit c.T me))) .perm arg
      c.checkPoison [.one f.a]
      waitIf (c.T.repro && !emitTurn c.s c.T) .append c0.s
      match succ, M with
      | some n, some N =>
        match (List.range N.qcap).find? fun k => !nsHas N.used k && !nsHas N.reserved k with
        | none => .error (.wait .slot c0.s)
        | some k =>
          let W := { c.W.putRegs f.d 2 0 (slotAddr N k) with slots := c.W.slots ++ [n * 2 ^ 32 + k] }
          .ok (modNode (c.retire W f.bnd) c.T.part n fun N => { N with reserved := nsAdd N.reserved k })
      | _, _ => .error (.trap .perm arg)

/-- EMIT (R223, R400, R401): a release at domain scope. -/
def execEmit (f : SysW) (s : State) : Host.Outcome State Fault Refusal :=
  issue 0x9C f.g s fun c0 => do
    trapIf (!uniOrZ f.a) .illegalEnc
    let c ← c0.open [.pair f.a] [] true
    if c.lanes == 0 then .ok (c.retire c.W f.bnd)
    else do
      c.checkParted
      let a := c.reg64 f.a 0
      let hit := c.W.slots.find? fun x => (node? c.s c.T.part (x / 2 ^ 32)).any fun N => slotAddr N (x % 2 ^ 32) == a
      match hit with
      | none => .error (.trap .perm (BitVec.ofNat 64 a))
      | some x => do
        c.checkPoison [.pair f.a]
        waitIf (c.T.repro && !c.W.ordered && (!emitTurn c.s c.T || !c.isFirst)) .order c0.s
        waitIf (!c.W.storeQ.isEmpty || c.W.owc != 0 || readsPending c0.s (.wave c.t c.w)) .fence c0.issued.s
        let W := { c.W with slots := c.W.slots.filter fun y => y != x }
        let k := x % 2 ^ 32
        .ok (modNode (c.retire W f.bnd) c.T.part (x / 2 ^ 32) fun N => { N with
          reserved := nsDel N.reserved k
          used := nsAdd N.used k
          stream := N.stream ++ [k]
          committed := N.committed + 1 })

/-- The address of record i of a team's batch, 0 past its end (R224, R378). -/
def recordAddr (s : State) (T : Team) (i : Nat) : Nat :=
  match smGet? s.launches T.launch with
  | none => 0
  | some L => match L.batch[i]?, node? s L.part L.node with
    | some k, some N => slotAddr N k
    | _, _ => 0

/-- RECGET (R224): an acquire at domain scope (R363). -/
def execRecget (f : SysW) (s : State) : Host.Outcome State Fault Refusal :=
  issue 0x9E f.g s fun c0 => do
    trapIf (!(uniOrZ f.a || isVector f.a) || f.d == 0xFE#8) .illegalEnc
    let c ← c0.open [.one f.a] [.pair f.d] (isUniform f.d)
    c.checkPoison [.one f.a]
    let ls := if isUniform f.d then (lanesOf c.lanes).take 1 else lanesOf c.lanes
    let W := ls.foldl (fun W l => W.putRegs f.d 2 l (recordAddr c.s c.T (c.reg f.a l))) c.W
    let s1 := c.retire W f.bnd
    .ok (if c.lanes == 0 then s1 else invalidate s1 c.T.core)

/-- RECGET.count (R224). -/
def execRecgetCount (f : SysW) (s : State) : Host.Outcome State Fault Refusal :=
  issue 0x9E f.g s fun c0 => do
    trapIf (f.d == 0xFE#8) .illegalEnc
    let c ← c0.open [] [.one f.d] (isUniform f.d)
    let n := (smGet? c.s.launches c.T.launch).elim 0 fun L => L.batch.length
    let ls := if isUniform f.d then (lanesOf c.lanes).take 1 else lanesOf c.lanes
    let s1 := c.retire (ls.foldl (fun W l => W.putReg f.d l n) c.W) f.bnd
    .ok (if c.lanes == 0 then s1 else invalidate s1 c.T.core)

end Sys2Proof.Machine
end

