-- ==== Sys2Proof/Machine/Integer.lean ====
section
/-! DEFINITION. The meanings of the integer instructions (R138–R148): IADD to IREM. Each is its operation of one lane
handed to the datapath that runs it. -/

namespace Sys2Proof.Machine

/-- R139: the exact value of x op y, saturated or modulo 2^n. -/
def arithOp (f : AluW) (op : Int → Int → Int) (t : Nat) (i : LaneIn) : Nat :=
  intResult t f.cl (op (intSrc t f.ma i.a) (intSrc t f.mb i.b))

/-- IADD (R139). -/
def execIadd (f : AluW) (s : State) : Host.Outcome State Fault Refusal :=
  runAlu 0x20 f false (intSpec f 2 (intRegs (ty3 f.var)) (intSigned (ty3 f.var)) (arithOp f (· + ·))) s

/-- ISUB (R139). -/
def execIsub (f : AluW) (s : State) : Host.Outcome State Fault Refusal :=
  runAlu 0x21 f false (intSpec f 2 (intRegs (ty3 f.var)) (intSigned (ty3 f.var)) (arithOp f (· - ·))) s

/-- IADDC (R141): C names the carry, read and written. -/
def execIaddc (f : AluW) (s : State) : Host.Outcome State Fault Refusal :=
  let x := intSpec f 2 (intRegs (ty3 f.var)) false fun _ _ => 0
  runAlu 0x22 f false
    { x with
      psrc := some f.c
      pdst := some f.c
      carry := true
      op := fun i =>
        let r := iAddc (ty3 f.var) i.a i.b i.pin
        ⟨r.1, Exc.none, r.2⟩ } s

/-- IMUL (R139). -/
def execImul (f : AluW) (s : State) : Host.Outcome State Fault Refusal :=
  runAlu 0x23 f false (intSpec f 2 (intRegs (ty3 f.var)) (intSigned (ty3 f.var)) (arithOp f (· * ·))) s

/-- IMULH (R139). -/
def execImulh (f : AluW) (s : State) : Host.Outcome State Fault Refusal :=
  runAlu 0x24 f false (intSpec f 2 (intRegs (ty3 f.var)) (intSigned (ty3 f.var)) fun t i => iMulh t (intSrc t f.ma i.a) (intSrc t f.mb i.b)) s

/-- IMAD (R139). -/
def execImad (f : AluW) (s : State) : Host.Outcome State Fault Refusal :=
  runAlu 0x25 f false (intSpec f 3 (intRegs (ty3 f.var)) (intSigned (ty3 f.var)) fun t i =>
    intResult t f.cl (intSrc t f.ma i.a * intSrc t f.mb i.b + intSrc t f.mc i.c)) s

/-- IMIN (R139). -/
def execImin (f : AluW) (s : State) : Host.Outcome State Fault Refusal :=
  runAlu 0x26 f false (intSpec f 2 (intRegs (ty3 f.var)) (intSigned (ty3 f.var)) (arithOp f fun x y => if x ≤ y then x else y)) s

/-- IMAX (R139). -/
def execImax (f : AluW) (s : State) : Host.Outcome State Fault Refusal :=
  runAlu 0x27 f false (intSpec f 2 (intRegs (ty3 f.var)) (intSigned (ty3 f.var)) (arithOp f fun x y => if x ≤ y then y else x)) s

/-- IABSD (R139, R133: the result is unsigned). -/
def execIabsd (f : AluW) (s : State) : Host.Outcome State Fault Refusal :=
  runAlu 0x28 f false (intSpec f 2 (intRegs (ty3 f.var)) false fun t i => iAbsd t (intSrc t f.ma i.a) (intSrc t f.mb i.b)) s

/-- AND (R139). -/
def execAnd (f : AluW) (s : State) : Host.Outcome State Fault Refusal :=
  runAlu 0x29 f false (intSpec f 2 (intRegs (ty3 f.var)) false fun t i => iAnd t i.a i.b) s

/-- OR (R139). -/
def execOr (f : AluW) (s : State) : Host.Outcome State Fault Refusal :=
  runAlu 0x2A f false (intSpec f 2 (intRegs (ty3 f.var)) false fun t i => iOr t i.a i.b) s

/-- XOR (R139). -/
def execXor (f : AluW) (s : State) : Host.Outcome State Fault Refusal :=
  runAlu 0x2B f false (intSpec f 2 (intRegs (ty3 f.var)) false fun t i => iXor t i.a i.b) s

/-- ANDN (R139). -/
def execAndn (f : AluW) (s : State) : Host.Outcome State Fault Refusal :=
  runAlu 0x2C f false (intSpec f 2 (intRegs (ty3 f.var)) false fun t i => iAndn t i.a i.b) s

/-- SHL (R140). -/
def execShl (f : AluW) (s : State) : Host.Outcome State Fault Refusal :=
  runAlu 0x2D f false (intSpec f 2 1 false fun t i => iShl t i.a i.b) s

/-- SHR (R140). -/
def execShr (f : AluW) (s : State) : Host.Outcome State Fault Refusal :=
  runAlu 0x2E f false (intSpec f 2 1 false fun t i => iShr t i.a i.b) s

/-- SAR (R140). -/
def execSar (f : AluW) (s : State) : Host.Outcome State Fault Refusal :=
  runAlu 0x2F f false (intSpec f 2 1 true fun t i => iSar t i.a i.b) s

/-- ROTL (R140). -/
def execRotl (f : AluW) (s : State) : Host.Outcome State Fault Refusal :=
  runAlu 0x30 f false (intSpec f 2 1 false fun t i => iRotl t i.a i.b) s

/-- A count of a 64-bit operand is one register (R139). -/
def countSpec (f : AluW) (op : Nat → Nat → Nat) : AluSpec :=
  let x := intSpec f 1 1 false fun t i => op t i.a
  { x with dst := some (f.d, 1) }

/-- CLZ (R139). -/
def execClz (f : AluW) (s : State) : Host.Outcome State Fault Refusal :=
  runAlu 0x31 f false (countSpec f iClz) s

/-- POPC (R139). -/
def execPopc (f : AluW) (s : State) : Host.Outcome State Fault Refusal :=
  runAlu 0x32 f false (countSpec f iPopc) s

/-- BREV (R139). -/
def execBrev (f : AluW) (s : State) : Host.Outcome State Fault Refusal :=
  runAlu 0x33 f false (intSpec f 1 1 false fun t i => iBrev t i.a) s

/-- BFE (R142). -/
def execBfe (f : AluW) (s : State) : Host.Outcome State Fault Refusal :=
  runAlu 0x34 f false (intSpec f 2 1 (intSigned (ty3 f.var)) fun t i => iBfe t i.a i.b) s

/-- BFI (R142): the control is c, one register. -/
def execBfi (f : AluW) (s : State) : Host.Outcome State Fault Refusal :=
  let x := intSpec f 3 (intRegs (ty3 f.var)) false fun t i => iBfi t i.a i.b i.c
  runAlu 0x35 f false { x with c := some (f.c, 1) } s

/-- LEA (R143): A and D are pairs, bits 6:4 the shift. -/
def execLea (f : AluW) (s : State) : Host.Outcome State Fault Refusal :=
  let x := intSpec f 2 1 false fun t i => iLea t i.a i.b f.sc.toNat
  runAlu 0x36 f true { x with a := some (f.a, 2), dst := some (f.d, 2) } s

/-- ICMP (R148): D names a predicate. -/
def execIcmp (f : AluW) (s : State) : Host.Outcome State Fault Refusal :=
  let t := ty3 f.var
  let x := intSpec f 2 (intRegs t) false fun _ _ => 0
  runAlu 0x37 f true
    { x with
      dst := none
      pdst := some f.d
      op := fun i => LaneOut.ofPred (iCmp f.sc (intSrc t f.ma i.a) (intSrc t f.mb i.b), Exc.none) } s

/-- SEL (R148): C names the condition. -/
def execSel (f : AluW) (s : State) : Host.Outcome State Fault Refusal :=
  let x := intSpec f 2 (intRegs (ty3 f.var)) false fun t i => unsignedOf t (if i.pin then i.a else i.b)
  runAlu 0x38 f false { x with psrc := some f.c } s

/-- MOV (R147): in the immediate form A holds no operand. -/
def execMov (f : AluW) (s : State) : Host.Outcome State Fault Refusal :=
  let t := ty3 f.var
  let x := intSpec f 1 1 (intSigned t) fun t i => intCode t (intValue t (if immFlag f.var then i.b else i.a))
  runAlu 0x39 f false { x with a := if immFlag f.var then none else x.a, bad := immFlag f.var && f.a != 0 } s

/-- MOVL and MOVH (R147, R308): the other bits of d stay. -/
def movHalf (opc : Nat) (hi : Bool) (f : AluW) (s : State) : Host.Outcome State Fault Refusal :=
  let o := if hi then 16 else 0
  let x := intSpec f 1 1 false fun _ i => i.a - i.a / 2 ^ o % 65536 * 2 ^ o + f.imm.toNat * 2 ^ o
  runAlu opc f false { x with a := some (f.d, 1), dst := some (f.d, 1) } s

/-- MOVL (R147). -/
def execMovl (f : AluW) (s : State) : Host.Outcome State Fault Refusal := movHalf 0x3A false f s

/-- MOVH (R147). -/
def execMovh (f : AluW) (s : State) : Host.Outcome State Fault Refusal := movHalf 0x3B true f s

/-- PRMT (R144). -/
def execPrmt (f : AluW) (s : State) : Host.Outcome State Fault Refusal :=
  runAlu 0x3C f false (intSpec f 3 1 false fun _ i => iPrmt i.a i.b i.c) s

/-- IDOT4 (R145). -/
def execIdot4 (f : AluW) (s : State) : Host.Outcome State Fault Refusal :=
  runAlu 0x3D f false (intSpec f 3 1 false fun t i => iDot4 t f.cl i.a i.b i.c) s

/-- IDIV (R146). -/
def execIdiv (f : AluW) (s : State) : Host.Outcome State Fault Refusal :=
  runAlu 0x3E f false (intSpec f 2 (intRegs (ty3 f.var)) (intSigned (ty3 f.var)) fun t i => iDiv t (intSrc t f.ma i.a) (intSrc t f.mb i.b)) s

/-- IREM (R146). -/
def execIrem (f : AluW) (s : State) : Host.Outcome State Fault Refusal :=
  runAlu 0x3F f false (intSpec f 2 (intRegs (ty3 f.var)) (intSigned (ty3 f.var)) fun t i => iRem t (intSrc t f.ma i.a) (intSrc t f.mb i.b)) s

end Sys2Proof.Machine
end

