-- ==== Sys2Proof/Machine/Paired.lean ====
section
/-! DEFINITION. The meaning of a paired word (R111–R115). -/

namespace Sys2Proof.Machine

/-- Whether a short form reads its destination: FMAC, IMAC, HMAC2, FDOT2 (R115). -/
def readsDst (h : Half) : Bool := h.rop == 3#5 || h.rop == 9#5 || h.rop == 0x13#5 || h.rop == 0x14#5

/-- The source codes of a half. -/
def halfSrcs (h : Half) : List (BitVec 8) :=
  (if h.rop == 0x10#5 then [h.a] else [h.a, h.b]) ++ if readsDst h then [h.d] else []

/-- A pairing rule is broken (R115): banks, a destination that is the other half's source, one destination twice. -/
def badPair (h0 h1 : Half) : Bool :=
  let bank (lo : Nat) (h : Half) : Bool := (halfSrcs h).all fun c => match opndOf c with
    | .v n => n % 4 == lo || n % 4 == lo + 1
    | _ => true
  let live (d : BitVec 8) : Bool := d != 0xF8#8
  !(bank 0 h0 && bank 2 h1) || (live h0.d && (halfSrcs h1).contains h0.d) || (live h1.d && (halfSrcs h0).contains h1.d) ||
    (live h0.d && h0.d == h1.d)

/-- The effect of a short form on a, b and d (R112). -/
def halfOp (h : Half) (e : Env) (a b d : Nat) : Nat × Exc :=
  let t := h.t.toNat
  let int (x : Int) : Nat × Exc := (intResult t false x, Exc.none)
  let nat (x : Nat) : Nat × Exc := (x, Exc.none)
  let x := intValue t a
  let y := intValue t b
  let p : FT := if t == 0 then .f16 else .bf16
  match h.rop.toNat with
  | 0x00 => fAdd .f32 e Mods.none a b
  | 0x01 => fSub .f32 e Mods.none a b
  | 0x02 => fMul .f32 e Mods.none a b
  | 0x03 => fFma .f32 e Mods.none a b d
  | 0x04 => fMin .f32 e Mods.none a b
  | 0x05 => fMax .f32 e Mods.none a b
  | 0x06 => int (x + y)
  | 0x07 => int (x - y)
  | 0x08 => int (x * y)
  | 0x09 => int (x * y + intValue t d)
  | 0x0A => nat (iAnd 1 a b)
  | 0x0B => nat (iOr 1 a b)
  | 0x0C => nat (iXor 1 a b)
  | 0x0D => nat (iShl 1 a b)
  | 0x0E => nat (iShr 1 a b)
  | 0x0F => nat (iSar 0 a b)
  | 0x10 => nat (a % 2 ^ 32)
  | 0x11 => hAdd2 p e Mods.none a b
  | 0x12 => hMul2 p e Mods.none a b
  | 0x13 => hFma2 p e Mods.none a b d
  | _ => fDot2 p e Mods.none a b d

/-- The paired word on a wave: both halves read before either writes; the flags of both, or the trap (R113). -/
def pairedWave (f : PairW) (c0 : WCtx) : Except Stop State := do
  let srcs := (halfSrcs f.h0 ++ halfSrcs f.h1).map Regs.one
  let dsts := [Regs.one f.h0.d, Regs.one f.h1.d]
  trapIf (!(srcs.all (Regs.srcOk c0.T.nregs) && dsts.all (Regs.dstOk c0.T.nregs))) .illegalEnc
  trapIf (badPair f.h0 f.h1) .illegalPair
  let c ← c0.begin srcs dsts false
  let e : Env := ⟨c.W.rm, c.W.ftz, 0#3, false⟩
  let run (h : Half) (l : Nat) : Nat × Exc := halfOp h e (c.reg h.a l) (c.reg h.b l) (c.reg h.d l)
  let outs := (lanesOf c.lanes).map fun l => (l, run f.h0 l, run f.h1 l)
  let fp ← settleFlags c.W.fpctl (outs.map fun o => (o.1, o.2.1.2, o.2.2.2))
  let W := outs.foldl (fun W o => (W.putReg f.h0.d o.1 o.2.1.1).putReg f.h1.d o.1 o.2.2.1) { c.W with fpctl := fp }
  let mb := if f.h0.d == 0xFE#8 then some 0xFE#8 else if f.h1.d == 0xFE#8 then some 0xFE#8 else none
  .ok (c.done W f.bnd mb fun l => (run (if f.h0.d == 0xFE#8 then f.h0 else f.h1) l).1)

/-- The paired word in a lane of a callable evaluation (R121). -/
def pairedLane (f : PairW) (e : Eval) : Except Stop Eval := do
  let srcs := (halfSrcs f.h0 ++ halfSrcs f.h1).map Regs.one
  Eval.open srcs [.one f.h0.d, .one f.h1.d] false
  trapIf (badPair f.h0 f.h1) .illegalPair
  e.checkPoison srcs
  let v : Env := ⟨e.fpctl.extractLsb' 0 2, e.fpctl.getLsbD 2, 0#3, false⟩
  let run (h : Half) : Nat × Exc := halfOp h v (e.reg h.a) (e.reg h.b) (e.reg h.d)
  let x := run f.h0
  let y := run f.h1
  let fp ← settleFlags e.fpctl [(e.lane, x.2, y.2)]
  .ok ((({ e with fpctl := fp }).putReg f.h0.d x.1).putReg f.h1.d y.1).next

/-- A paired word (R111–R115); the stream profile has none (R121). -/
def execPairedWord (f : PairW) (s : State) : Host.Outcome State Fault Refusal :=
  match s.cur with
  | .none => .fault .noIssuer
  | .wave t w gang =>
    match wctx? s t w gang 0#4 with
    | none => .fault .noIssuer
    | some c => finishWave s t w gang (pairedWave f c)
  | .context x => finishCtx s x (.error (.trap .profile (profileArg 0 true)))
  | .lane k =>
    match laneOf s k with
    | none => .fault .noIssuer
    | some e => finishLane s k ((pairedLane f e).map fun e' => setLane s k e')

end Sys2Proof.Machine
end

