-- ==== Sys2Proof/Machine/Predicate.lean ====
section
/-! DEFINITION. The meanings of the predicate instructions (R149, R150). -/

namespace Sys2Proof.Machine

/-- R149: a predicate word writes a function of two predicates in each active lane. -/
def predWord (opc : Nat) (f : AluW) (op : Bool → Bool → Bool) (s : State) : Host.Outcome State Fault Refusal :=
  issue opc f.g s
    (wave := fun c => .ok (c.retire (c.W.putPred f.d.toNat c.lanes (maskOf fun l =>
      op ((c.W.pred f.a.toNat).getLsbD l) ((c.W.pred f.b.toNat).getLsbD l))) f.bnd))
    (lane := fun e =>
      .ok (if e.guard f.g then e.putPred f.d.toNat (op (e.pred f.a.toNat) (e.pred f.b.toNat)) else e).next)

/-- PAND (R149). -/
def execPand (f : AluW) (s : State) : Host.Outcome State Fault Refusal := predWord 0x40 f (fun a b => a && b) s

/-- POR (R149). -/
def execPor (f : AluW) (s : State) : Host.Outcome State Fault Refusal := predWord 0x41 f (fun a b => a || b) s

/-- PXOR (R149). -/
def execPxor (f : AluW) (s : State) : Host.Outcome State Fault Refusal := predWord 0x42 f (fun a b => a != b) s

/-- PNOT (R149). -/
def execPnot (f : AluW) (s : State) : Host.Outcome State Fault Refusal := predWord 0x43 f (fun a _ => !a) s

/-- PMOV (R149). -/
def execPmov (f : AluW) (s : State) : Host.Outcome State Fault Refusal := predWord 0x44 f (fun a _ => a) s

/-- PSET (R150): bit i of a uniform register or z, elsewhere whether the lane's own value is not 0. -/
def execPset (f : AluW) (s : State) : Host.Outcome State Fault Refusal :=
  runAlu 0x45 f false
    { a := some (f.a, 1)
      b := none
      c := none
      imm := 0
      dst := none
      pdst := some f.d
      psrc := none
      sgn := false
      carry := false
      bad := false
      idle := none
      op := fun i => LaneOut.ofPred (if isUniform f.a then bit i.a (i.lane % 32) else i.a != 0, Exc.none) } s

/-- PGET (R150, R134): pa over ActiveLanes(). In a callable evaluation the lane stands alone. -/
def execPget (f : AluW) (s : State) : Host.Outcome State Fault Refusal :=
  issue 0x46 f.g s
    (wave := fun c0 => do
      let c ← c0.begin [] [.one f.d] false
      .ok (c.finish f.bnd f.d 1 fun _ => (c.W.pred f.a.toNat &&& c.lanes).toNat))
    (lane := fun e => do
      Eval.open [] [.one f.d] false
      .ok (if e.guard f.g then e.putReg f.d (if e.pred f.a.toNat then 2 ^ (e.lane % 32) else 0) else e).next)

end Sys2Proof.Machine
end

