-- ==== Sys2Proof/Machine/Dispatch.lean ====
section
/-! DEFINITION. One arm per instruction and event: the call of its meaning. -/

namespace Sys2Proof.Machine

def exec (i : Instr) (s : State) : Host.Outcome State Fault Refusal :=
  match i with
  | .ill f => Sys2Proof.Machine.execIll f s
  | .nop f => Sys2Proof.Machine.execNop f s
  | .bra f => Sys2Proof.Machine.execBra f s
  | .brx f => Sys2Proof.Machine.execBrx f s
  | .call f => Sys2Proof.Machine.execCall f s
  | .callx f => Sys2Proof.Machine.execCallx f s
  | .ret f => Sys2Proof.Machine.execRet f s
  | .regang f => Sys2Proof.Machine.execRegang f s
  | .exit f => Sys2Proof.Machine.execExit f s
  | .yield f => Sys2Proof.Machine.execYield f s
  | .trap f => Sys2Proof.Machine.execTrap f s
  | .eret f => Sys2Proof.Machine.execEret f s
  | .bkpt f => Sys2Proof.Machine.execBkpt f s
  | .loop f => Sys2Proof.Machine.execLoop f s
  | .csrr f => Sys2Proof.Machine.execCsrr f s
  | .csrw f => Sys2Proof.Machine.execCsrw f s
  | .csrs f => Sys2Proof.Machine.execCsrs f s
  | .csrc f => Sys2Proof.Machine.execCsrc f s
  | .cinv f => Sys2Proof.Machine.execCinv f s
  | .cinvAll f => Sys2Proof.Machine.execCinvAll f s
  | .cwb f => Sys2Proof.Machine.execCwb f s
  | .pref f => Sys2Proof.Machine.execPref f s
  | .extq f => Sys2Proof.Machine.execExtq f s
  | .halloc f => Sys2Proof.Machine.execHalloc f s
  | .hfree f => Sys2Proof.Machine.execHfree f s
  | .setprio f => Sys2Proof.Machine.execSetprio f s
  | .svc f => Sys2Proof.Machine.execSvc f s
  | .iadd f => Sys2Proof.Machine.execIadd f s
  | .isub f => Sys2Proof.Machine.execIsub f s
  | .iaddc f => Sys2Proof.Machine.execIaddc f s
  | .imul f => Sys2Proof.Machine.execImul f s
  | .imulh f => Sys2Proof.Machine.execImulh f s
  | .imad f => Sys2Proof.Machine.execImad f s
  | .imin f => Sys2Proof.Machine.execImin f s
  | .imax f => Sys2Proof.Machine.execImax f s
  | .iabsd f => Sys2Proof.Machine.execIabsd f s
  | .and f => Sys2Proof.Machine.execAnd f s
  | .or f => Sys2Proof.Machine.execOr f s
  | .xor f => Sys2Proof.Machine.execXor f s
  | .andn f => Sys2Proof.Machine.execAndn f s
  | .shl f => Sys2Proof.Machine.execShl f s
  | .shr f => Sys2Proof.Machine.execShr f s
  | .sar f => Sys2Proof.Machine.execSar f s
  | .rotl f => Sys2Proof.Machine.execRotl f s
  | .clz f => Sys2Proof.Machine.execClz f s
  | .popc f => Sys2Proof.Machine.execPopc f s
  | .brev f => Sys2Proof.Machine.execBrev f s
  | .bfe f => Sys2Proof.Machine.execBfe f s
  | .bfi f => Sys2Proof.Machine.execBfi f s
  | .lea f => Sys2Proof.Machine.execLea f s
  | .icmp f => Sys2Proof.Machine.execIcmp f s
  | .sel f => Sys2Proof.Machine.execSel f s
  | .mov f => Sys2Proof.Machine.execMov f s
  | .movl f => Sys2Proof.Machine.execMovl f s
  | .movh f => Sys2Proof.Machine.execMovh f s
  | .prmt f => Sys2Proof.Machine.execPrmt f s
  | .idot4 f => Sys2Proof.Machine.execIdot4 f s
  | .idiv f => Sys2Proof.Machine.execIdiv f s
  | .irem f => Sys2Proof.Machine.execIrem f s
  | .pand f => Sys2Proof.Machine.execPand f s
  | .por f => Sys2Proof.Machine.execPor f s
  | .pxor f => Sys2Proof.Machine.execPxor f s
  | .pnot f => Sys2Proof.Machine.execPnot f s
  | .pmov f => Sys2Proof.Machine.execPmov f s
  | .pset f => Sys2Proof.Machine.execPset f s
  | .pget f => Sys2Proof.Machine.execPget f s
  | .rfl f => Sys2Proof.Machine.execRfl f s
  | .rdlane f => Sys2Proof.Machine.execRdlane f s
  | .wrlane f => Sys2Proof.Machine.execWrlane f s
  | .fadd f => Sys2Proof.Machine.execFadd f s
  | .fsub f => Sys2Proof.Machine.execFsub f s
  | .fmul f => Sys2Proof.Machine.execFmul f s
  | .fma f => Sys2Proof.Machine.execFma f s
  | .fmin f => Sys2Proof.Machine.execFmin f s
  | .fmax f => Sys2Proof.Machine.execFmax f s
  | .fcmp f => Sys2Proof.Machine.execFcmp f s
  | .fclass f => Sys2Proof.Machine.execFclass f s
  | .frcp f => Sys2Proof.Machine.execFrcp f s
  | .fsqrt f => Sys2Proof.Machine.execFsqrt f s
  | .frsq f => Sys2Proof.Machine.execFrsq f s
  | .fexp2 f => Sys2Proof.Machine.execFexp2 f s
  | .flog2 f => Sys2Proof.Machine.execFlog2 f s
  | .fsinpi f => Sys2Proof.Machine.execFsinpi f s
  | .fcospi f => Sys2Proof.Machine.execFcospi f s
  | .fdiv f => Sys2Proof.Machine.execFdiv f s
  | .ffloor f => Sys2Proof.Machine.execFfloor f s
  | .fceil f => Sys2Proof.Machine.execFceil f s
  | .ftrunc f => Sys2Proof.Machine.execFtrunc f s
  | .frint f => Sys2Proof.Machine.execFrint f s
  | .ffrac f => Sys2Proof.Machine.execFfrac f s
  | .fldexp f => Sys2Proof.Machine.execFldexp f s
  | .fdot2 f => Sys2Proof.Machine.execFdot2 f s
  | .fdot4 f => Sys2Proof.Machine.execFdot4 f s
  | .hadd2 f => Sys2Proof.Machine.execHadd2 f s
  | .hmul2 f => Sys2Proof.Machine.execHmul2 f s
  | .hfma2 f => Sys2Proof.Machine.execHfma2 f s
  | .fmed3 f => Sys2Proof.Machine.execFmed3 f s
  | .cvt f => Sys2Proof.Machine.execCvt f s
  | .cvtq f => Sys2Proof.Machine.execCvtq f s
  | .cvtdq f => Sys2Proof.Machine.execCvtdq f s
  | .pack f => Sys2Proof.Machine.execPack f s
  | .unpk f => Sys2Proof.Machine.execUnpk f s
  | .shfl f => Sys2Proof.Machine.execShfl f s
  | .vote f => Sys2Proof.Machine.execVote f s
  | .redux f => Sys2Proof.Machine.execRedux f s
  | .scan f => Sys2Proof.Machine.execScan f s
  | .matchl f => Sys2Proof.Machine.execMatchl f s
  | .ld f => Sys2Proof.Machine.execLd f s
  | .st f => Sys2Proof.Machine.execSt f s
  | .lds f => Sys2Proof.Machine.execLds f s
  | .sts f => Sys2Proof.Machine.execSts f s
  | .ldp f => Sys2Proof.Machine.execLdp f s
  | .stp f => Sys2Proof.Machine.execStp f s
  | .ldu f => Sys2Proof.Machine.execLdu f s
  | .stu f => Sys2Proof.Machine.execStu f s
  | .atom f => Sys2Proof.Machine.execAtom f s
  | .atoms f => Sys2Proof.Machine.execAtoms f s
  | .red f => Sys2Proof.Machine.execRed f s
  | .append f => Sys2Proof.Machine.execAppend f s
  | .decline f => Sys2Proof.Machine.execDecline f s
  | .fence f => Sys2Proof.Machine.execFence f s
  | .bar f => Sys2Proof.Machine.execBar f s
  | .cbinit f => Sys2Proof.Machine.execCbinit f s
  | .cbarv f => Sys2Proof.Machine.execCbarv f s
  | .cbwait f => Sys2Proof.Machine.execCbwait f s
  | .tlwait f => Sys2Proof.Machine.execTlwait f s
  | .tlread f => Sys2Proof.Machine.execTlread f s
  | .cpy f => Sys2Proof.Machine.execCpy f s
  | .mcast f => Sys2Proof.Machine.execMcast f s
  | .cexec f => Sys2Proof.Machine.execCexec f s
  | .ceqry f => Sys2Proof.Machine.execCeqry f s
  | .ceqryArg f => Sys2Proof.Machine.execCeqryArg f s
  | .iscfg f => Sys2Proof.Machine.execIscfg f s
  | .qclose f => Sys2Proof.Machine.execQclose f s
  | .emit f => Sys2Proof.Machine.execEmit f s
  | .emitr f => Sys2Proof.Machine.execEmitr f s
  | .recget f => Sys2Proof.Machine.execRecget f s
  | .recgetCount f => Sys2Proof.Machine.execRecgetCount f s
  | .mbtgt f => Sys2Proof.Machine.execMbtgt f s
  | .mxzero f => Sys2Proof.Machine.execMxzero f s
  | .mxldw f => Sys2Proof.Machine.execMxldw f s
  | .mxloop f => Sys2Proof.Machine.execMxloop f s
  | .mxspl f => Sys2Proof.Machine.execMxspl f s
  | .mxdrain f => Sys2Proof.Machine.execMxdrain f s
  | .mxfence f => Sys2Proof.Machine.execMxfence f s
  | .mxrd f => Sys2Proof.Machine.execMxrd f s
  | .mxrdStat f => Sys2Proof.Machine.execMxrdStat f s
  | .mxwr f => Sys2Proof.Machine.execMxwr f s
  | .mxmask f => Sys2Proof.Machine.execMxmask f s
  | .mxcfg f => Sys2Proof.Machine.execMxcfg f s
  | .jchain f => Sys2Proof.Machine.execJchain f s
  | .jsend f => Sys2Proof.Machine.execJsend f s
  | .jrecv f => Sys2Proof.Machine.execJrecv f s
  | .jclose f => Sys2Proof.Machine.execJclose f s
  | .jabort f => Sys2Proof.Machine.execJabort f s
  | .rtbox f => Sys2Proof.Machine.execRtbox f s
  | .rttri f => Sys2Proof.Machine.execRttri f s
  | .rtcrv f => Sys2Proof.Machine.execRtcrv f s
  | .rtrace f => Sys2Proof.Machine.execRtrace f s
  | .rng f => Sys2Proof.Machine.execRng f s
  | .rsvupd f => Sys2Proof.Machine.execRsvupd f s
  | .rsvmrg f => Sys2Proof.Machine.execRsvmrg f s
  | .rsvnrm f => Sys2Proof.Machine.execRsvnrm f s
  | .rsvld f => Sys2Proof.Machine.execRsvld f s
  | .rsvst f => Sys2Proof.Machine.execRsvst f s
  | .ltwalk f => Sys2Proof.Machine.execLtwalk f s
  | .reuse f => Sys2Proof.Machine.execReuse f s
  | .cparg f => Sys2Proof.Machine.execCparg f s
  | .cpret f => Sys2Proof.Machine.execCpret f s
  | .kld f => Sys2Proof.Machine.execKld f s
  | .kst f => Sys2Proof.Machine.execKst f s
  | .agset f => Sys2Proof.Machine.execAgset f s
  | .agstep f => Sys2Proof.Machine.execAgstep f s
  | .scopy f => Sys2Proof.Machine.execScopy f s
  | .sgath f => Sys2Proof.Machine.execSgath f s
  | .sscat f => Sys2Proof.Machine.execSscat f s
  | .smcast f => Sys2Proof.Machine.execSmcast f s
  | .cbload f => Sys2Proof.Machine.execCbload f s
  | .sdecode f => Sys2Proof.Machine.execSdecode f s
  | .qpush f => Sys2Proof.Machine.execQpush f s
  | .tlinc f => Sys2Proof.Machine.execTlinc f s
  | .swait f => Sys2Proof.Machine.execSwait f s
  | .stopc f => Sys2Proof.Machine.execStopc f s
  | .pairedWord f => Sys2Proof.Machine.execPairedWord f s
  | .moduleReset b => Sys2Proof.Machine.execModuleReset b s
  | .partitionReset r => Sys2Proof.Machine.execPartitionReset r s
  | .clockStretch cluster cycles => Sys2Proof.Machine.execClockStretch cluster cycles s
  | .powerLimit cycles => Sys2Proof.Machine.execPowerLimit cycles s
  | .energyRefill => Sys2Proof.Machine.execEnergyRefill s
  | .teamAdmit team => Sys2Proof.Machine.execTeamAdmit team s
  | .ucieModuleFail gw m => Sys2Proof.Machine.execUcieModuleFail gw m s
  | .fabricPortFail port => Sys2Proof.Machine.execFabricPortFail port s
  | .flitCrcFail port => Sys2Proof.Machine.execFlitCrcFail port s
  | .thieloData n => Sys2Proof.Machine.execThieloData n s
  | .e2eack n => Sys2Proof.Machine.execE2eack n s
  | .e2eRetransmit n port => Sys2Proof.Machine.execE2eRetransmit n port s
  | .fatalError p reason origin addr => Sys2Proof.Machine.execFatalError p reason origin addr s
  | .haltLineArrival p unit => Sys2Proof.Machine.execHaltLineArrival p unit s
  | .haltHeaderWrite p => Sys2Proof.Machine.execHaltHeaderWrite p s
  | .homeRequest rid => Sys2Proof.Machine.execHomeRequest rid s
  | .ackFlit rid => Sys2Proof.Machine.execAckFlit rid s
  | .nackFlit rid => Sys2Proof.Machine.execNackFlit rid s
  | .deferredPerm team wave => Sys2Proof.Machine.execDeferredPerm team wave s
  | .mingenRaiseComplete asid => Sys2Proof.Machine.execMingenRaiseComplete asid s
  | .onDemandTranslate who => Sys2Proof.Machine.execOnDemandTranslate who s
  | .gatewayAnchorData n => Sys2Proof.Machine.execGatewayAnchorData n s
  | .gatewayWindowEnd n => Sys2Proof.Machine.execGatewayWindowEnd n s
  | .gatewayReduction rid => Sys2Proof.Machine.execGatewayReduction rid s
  | .haloRequest cluster slot => Sys2Proof.Machine.execHaloRequest cluster slot s
  | .mail n => Sys2Proof.Machine.execMail n s
  | .mailacc n => Sys2Proof.Machine.execMailacc n s
  | .mailref n => Sys2Proof.Machine.execMailref n s
  | .mailSlotGrant team wave => Sys2Proof.Machine.execMailSlotGrant team wave s
  | .mailResendTimeout team wave => Sys2Proof.Machine.execMailResendTimeout team wave s
  | .mbdropRead core => Sys2Proof.Machine.execMbdropRead core s
  | .stretchCountRead cluster => Sys2Proof.Machine.execStretchCountRead cluster s
  | .reservationGrant core => Sys2Proof.Machine.execReservationGrant core s
  | .ready n => Sys2Proof.Machine.execReady n s
  | .arm n => Sys2Proof.Machine.execArm n s
  | .credit n => Sys2Proof.Machine.execCredit n s
  | .req n => Sys2Proof.Machine.execReq n s
  | .data n => Sys2Proof.Machine.execData n s
  | .datasat n => Sys2Proof.Machine.execDatasat n s
  | .endFlit n => Sys2Proof.Machine.execEndFlit n s
  | .abortFlit n => Sys2Proof.Machine.execAbortFlit n s
  | .refuse n => Sys2Proof.Machine.execRefuse n s
  | .revoke n => Sys2Proof.Machine.execRevoke n s
  | .copyBurst engine => Sys2Proof.Machine.execCopyBurst engine s
  | .copyComplete ctx num => Sys2Proof.Machine.execCopyComplete ctx num s
  | .waveCopyComplete team num => Sys2Proof.Machine.execWaveCopyComplete team num s
  | .tlincApply ctx => Sys2Proof.Machine.execTlincApply ctx s
  | .cbarvApply ctx => Sys2Proof.Machine.execCbarvApply ctx s
  | .contextFaulted ctx => Sys2Proof.Machine.execContextFaulted ctx s
  | .stopcComplete ctx => Sys2Proof.Machine.execStopcComplete ctx s
  | .streamFetch team q => Sys2Proof.Machine.execStreamFetch team q s
  | .matrixOpStart team => Sys2Proof.Machine.execMatrixOpStart team s
  | .clusterOpArrival team core => Sys2Proof.Machine.execClusterOpArrival team core s
  | .rowBlock team => Sys2Proof.Machine.execRowBlock team s
  | .matrixOpComplete team => Sys2Proof.Machine.execMatrixOpComplete team s
  | .rtraceStart core n => Sys2Proof.Machine.execRtraceStart core n s
  | .rayUnitComplete core n => Sys2Proof.Machine.execRayUnitComplete core n s
  | .passStart cluster slot => Sys2Proof.Machine.execPassStart cluster slot s
  | .passPixel cluster slot => Sys2Proof.Machine.execPassPixel cluster slot s
  | .visibilitySegment cluster slot => Sys2Proof.Machine.execVisibilitySegment cluster slot s
  | .passEnd cluster slot => Sys2Proof.Machine.execPassEnd cluster slot s
  | .hostCommit port qp msg => Sys2Proof.Machine.execHostCommit port qp msg s
  | .rdmaWrite r => Sys2Proof.Machine.execRdmaWrite r s
  | .rdmaRead r => Sys2Proof.Machine.execRdmaRead r s
  | .roceInvalidRequest port qp => Sys2Proof.Machine.execRoceInvalidRequest port qp s
  | .nodeFire p node => Sys2Proof.Machine.execNodeFire p node s
  | .drainComplete p node => Sys2Proof.Machine.execDrainComplete p node s
  | .teamReady team => Sys2Proof.Machine.execTeamReady team s
  | .teamResident core team => Sys2Proof.Machine.execTeamResident core team s
  | .bankSwap core => Sys2Proof.Machine.execBankSwap core s
  | .waitSwapTimeout core => Sys2Proof.Machine.execWaitSwapTimeout core s
  | .contextSaved team => Sys2Proof.Machine.execContextSaved team s
  | .claimComplete core => Sys2Proof.Machine.execClaimComplete core s
  | .teamEnd team energy => Sys2Proof.Machine.execTeamEnd team energy s
  | .launchEnd launch => Sys2Proof.Machine.execLaunchEnd launch s
  | .flush p => Sys2Proof.Machine.execFlush p s
  | .replay p => Sys2Proof.Machine.execReplay p s
  | .flushThenReplay p => Sys2Proof.Machine.execFlushThenReplay p s
  | .force m => Sys2Proof.Machine.execForce m s
  | .kill m => Sys2Proof.Machine.execKill m s
  | .halt m => Sys2Proof.Machine.execHalt m s
  | .nodetab m => Sys2Proof.Machine.execNodetab m s
  | .nodeon m => Sys2Proof.Machine.execNodeon m s
  | .nodeoff m => Sys2Proof.Machine.execNodeoff m s
  | .asrec m => Sys2Proof.Machine.execAsrec m s
  | .svcdone p ticket => Sys2Proof.Machine.execSvcdone p ticket s
  | .keyLoad r => Sys2Proof.Machine.execKeyLoad r s
  | .keyErase r => Sys2Proof.Machine.execKeyErase r s
  | .regionWrite by_ idx rega regb => Sys2Proof.Machine.execRegionWrite by_ idx rega regb s
  | .regionRekeyComplete die idx => Sys2Proof.Machine.execRegionRekeyComplete die idx s
  | .worldWrite die by_ num value => Sys2Proof.Machine.execWorldWrite die by_ num value s
  | .schcfgWrite p value => Sys2Proof.Machine.execSchcfgWrite p value s
  | .areaBaseWrite num value => Sys2Proof.Machine.execAreaBaseWrite num value s
  | .allowanceWrite p watts => Sys2Proof.Machine.execAllowanceWrite p watts s
  | .budgetSet by_ b => Sys2Proof.Machine.execBudgetSet by_ b s
  | .mregExtend die by_ idx digest => Sys2Proof.Machine.execMregExtend die by_ idx digest s
  | .attestationReport die nonce => Sys2Proof.Machine.execAttestationReport die nonce s
  | .signedSidebandRequest r => Sys2Proof.Machine.execSignedSidebandRequest r s
  | .mgmtCsrWrite die by_ num value => Sys2Proof.Machine.execMgmtCsrWrite die by_ num value s
  | .readDataResponse rid => Sys2Proof.Machine.execReadDataResponse rid s
  | .contextFillComplete core => Sys2Proof.Machine.execContextFillComplete core s
  | .releaseClearComplete core => Sys2Proof.Machine.execReleaseClearComplete core s
  | .gatewayReductionWindowEnd n => Sys2Proof.Machine.execGatewayReductionWindowEnd n s
  | .mailboxControlFlit n => Sys2Proof.Machine.execMailboxControlFlit n s
  | .unknownOp m => Sys2Proof.Machine.execUnknownOp m s
  | .stackFail k => Sys2Proof.Machine.execStackFail k s
  | .ucieLinkLevelRetry gw m => Sys2Proof.Machine.execUcieLinkLevelRetry gw m s

end Sys2Proof.Machine
end

