-- ==== Sys2Proof/Decode.lean ====
section
/-! DEFINITION. The decoder and the encoder of the instruction words (R88, R89, R101, R106, R108, R109, R111, R118).
`decode` is total: it answers none for a reserved opcode and for a word that breaks a check of R119 its own bits
decide. `encode` is written from the same layouts. -/

namespace Sys2Proof

/-- Bits 61:54, the major opcode (R89). -/
def opcOf (w : IWord) : BitVec 8 := w.extractLsb' 54 8

/-- Bit 62, P: a paired word (R88). -/
def pairedBit (w : IWord) : Bool := w.getLsbD 62

/-- Bit 63, B: the word ends its run (R88). -/
def bndBit (w : IWord) : Bool := w.getLsbD 63

/-- The full-word layout (R89). -/
def AluW.unpack (w : IWord) : AluW where
  bnd := w.getLsbD 63
  var := w.extractLsb' 50 4
  g := w.extractLsb' 46 4
  d := w.extractLsb' 38 8
  a := w.extractLsb' 30 8
  b := w.extractLsb' 22 8
  c := w.extractLsb' 14 8
  ma := w.extractLsb' 12 2
  mb := w.extractLsb' 10 2
  mc := w.extractLsb' 8 2
  cl := w.getLsbD 7
  sc := w.extractLsb' 4 3
  h := w.extractLsb' 2 2

def AluW.pack (f : AluW) (opc : BitVec 8) : IWord :=
  BitVec.ofBool f.bnd ++ 0#1 ++ opc ++ f.var ++ f.g ++ f.d ++ f.a ++ f.b ++ f.c ++ f.ma ++ f.mb ++ f.mc ++
    BitVec.ofBool f.cl ++ f.sc ++ f.h ++ 0#2

/-- The memory-class layout (R101). -/
def MemW.unpack (w : IWord) : MemW where
  bnd := w.getLsbD 63
  var := w.extractLsb' 50 4
  g := w.extractLsb' 46 4
  d := w.extractLsb' 38 8
  a := w.extractLsb' 30 8
  b := w.extractLsb' 22 8
  off8 := w.extractLsb' 14 8
  scope := w.extractLsb' 11 3
  ord := w.extractLsb' 9 2
  xs := w.extractLsb' 7 2
  aop := w.extractLsb' 4 3
  h := w.extractLsb' 2 2

def MemW.pack (f : MemW) (opc : BitVec 8) : IWord :=
  BitVec.ofBool f.bnd ++ 0#1 ++ opc ++ f.var ++ f.g ++ f.d ++ f.a ++ f.b ++ f.off8 ++ f.scope ++ f.ord ++ f.xs ++
    f.aop ++ f.h ++ 0#2

/-- BRA (R106): OFF24 in bits 45:22, RDIST in 21:14. -/
def BraW.unpack (w : IWord) : BraW where
  bnd := w.getLsbD 63
  g := w.extractLsb' 46 4
  off24 := w.extractLsb' 22 24
  rdist := w.extractLsb' 14 8
  h := w.extractLsb' 2 2

def BraW.pack (f : BraW) (opc : BitVec 8) : IWord :=
  BitVec.ofBool f.bnd ++ 0#1 ++ opc ++ 0#4 ++ f.g ++ f.off24 ++ f.rdist ++ 0#10 ++ f.h ++ 0#2

/-- BRX (R106, R175). -/
def BrxW.unpack (w : IWord) : BrxW where
  bnd := w.getLsbD 63
  g := w.extractLsb' 46 4
  a := w.extractLsb' 30 8
  rdist := w.extractLsb' 14 8
  h := w.extractLsb' 2 2

def BrxW.pack (f : BrxW) (opc : BitVec 8) : IWord :=
  BitVec.ofBool f.bnd ++ 0#1 ++ opc ++ 0#4 ++ f.g ++ 0#8 ++ f.a ++ 0#8 ++ f.rdist ++ 0#10 ++ f.h ++ 0#2

/-- CALL and LOOP (R106): OFF24 in bits 37:14. -/
def CallW.unpack (w : IWord) : CallW where
  bnd := w.getLsbD 63
  g := w.extractLsb' 46 4
  d := w.extractLsb' 38 8
  off24 := w.extractLsb' 14 24
  h := w.extractLsb' 2 2

def CallW.pack (f : CallW) (opc : BitVec 8) : IWord :=
  BitVec.ofBool f.bnd ++ 0#1 ++ opc ++ 0#4 ++ f.g ++ f.d ++ f.off24 ++ 0#10 ++ f.h ++ 0#2

/-- CALLX and RET (R106). -/
def CallxW.unpack (w : IWord) : CallxW where
  bnd := w.getLsbD 63
  g := w.extractLsb' 46 4
  d := w.extractLsb' 38 8
  a := w.extractLsb' 30 8

def CallxW.pack (f : CallxW) (opc : BitVec 8) : IWord :=
  BitVec.ofBool f.bnd ++ 0#1 ++ opc ++ 0#4 ++ f.g ++ f.d ++ f.a ++ 0#30

/-- CSR access (R108): the number in bits 25:14. -/
def CsrW.unpack (w : IWord) : CsrW where
  bnd := w.getLsbD 63
  var := w.extractLsb' 50 4
  g := w.extractLsb' 46 4
  d := w.extractLsb' 38 8
  a := w.extractLsb' 30 8
  num := w.extractLsb' 14 12

def CsrW.pack (f : CsrW) (opc : BitVec 8) : IWord :=
  BitVec.ofBool f.bnd ++ 0#1 ++ opc ++ f.var ++ f.g ++ f.d ++ f.a ++ 0#4 ++ f.num ++ 0#14

/-- Words with fields of their own in bits 13:2 (R109). -/
def SysW.unpack (w : IWord) : SysW where
  bnd := w.getLsbD 63
  var := w.extractLsb' 50 4
  g := w.extractLsb' 46 4
  d := w.extractLsb' 38 8
  a := w.extractLsb' 30 8
  b := w.extractLsb' 22 8
  c := w.extractLsb' 14 8
  x := w.extractLsb' 2 12

def SysW.pack (f : SysW) (opc : BitVec 8) : IWord :=
  BitVec.ofBool f.bnd ++ 0#1 ++ opc ++ f.var ++ f.g ++ f.d ++ f.a ++ f.b ++ f.c ++ f.x ++ 0#2

/-- TRAP, BKPT, SVC (R106): IMM16 in bits 29:14. -/
def ImmW.unpack (w : IWord) : ImmW where
  bnd := w.getLsbD 63
  g := w.extractLsb' 46 4
  imm := w.extractLsb' 14 16

def ImmW.pack (f : ImmW) (opc : BitVec 8) : IWord :=
  BitVec.ofBool f.bnd ++ 0#1 ++ opc ++ 0#4 ++ f.g ++ 0#16 ++ f.imm ++ 0#14

/-- NOP, REGANG, EXIT, YIELD, ERET (R106). -/
def NoneW.unpack (w : IWord) : NoneW where
  bnd := w.getLsbD 63
  g := w.extractLsb' 46 4

def NoneW.pack (f : NoneW) (opc : BitVec 8) : IWord :=
  BitVec.ofBool f.bnd ++ 0#1 ++ opc ++ 0#4 ++ f.g ++ 0#46

/-- A half at its low bit (R111). -/
def Half.unpack (w : IWord) (lo : Nat) : Half where
  rop := w.extractLsb' (lo + 26) 5
  d := w.extractLsb' (lo + 18) 8
  a := w.extractLsb' (lo + 10) 8
  b := w.extractLsb' (lo + 2) 8
  t := w.extractLsb' lo 2

def Half.pack (h : Half) : BitVec 31 := h.rop ++ h.d ++ h.a ++ h.b ++ h.t

/-- A paired word (R111). -/
def PairW.unpack (w : IWord) : PairW where
  bnd := w.getLsbD 63
  h0 := Half.unpack w 31
  h1 := Half.unpack w 0

def PairW.pack (f : PairW) : IWord := BitVec.ofBool f.bnd ++ 1#1 ++ f.h0.pack ++ f.h1.pack

/-- The rows of the opcodes 0x00 to 0x0F, by bits 57:54 (R118). -/
def row0 (lo : Nat) (w : IWord) : Option Instr :=
  match lo with
  | 0x0 => some (.ill w)
  | 0x1 => some (.nop (NoneW.unpack w))
  | 0x2 => some (.bra (BraW.unpack w))
  | 0x3 => some (.brx (BrxW.unpack w))
  | 0x4 => some (.call (CallW.unpack w))
  | 0x5 => some (.callx (CallxW.unpack w))
  | 0x6 => some (.ret (CallxW.unpack w))
  | 0x7 => some (.regang (NoneW.unpack w))
  | 0x8 => some (.exit (NoneW.unpack w))
  | 0x9 => some (.yield (NoneW.unpack w))
  | 0xA => some (.trap (ImmW.unpack w))
  | 0xB => some (.eret (NoneW.unpack w))
  | 0xC => some (.bkpt (ImmW.unpack w))
  | 0xD => some (.loop (CallW.unpack w))
  | _ => none

/-- The rows of the opcodes 0x10 to 0x1F, by bits 57:54 (R118). -/
def row1 (lo : Nat) (w : IWord) : Option Instr :=
  match lo with
  | 0x0 => some (.csrr (CsrW.unpack w))
  | 0x1 => some (.csrw (CsrW.unpack w))
  | 0x2 => some (.csrs (CsrW.unpack w))
  | 0x3 => some (.csrc (CsrW.unpack w))
  | 0x4 => some (if w.extractLsb' 50 4 == 1#4 then .cinvAll (MemW.unpack w) else .cinv (MemW.unpack w))
  | 0x5 => some (.cwb (MemW.unpack w))
  | 0x6 => some (.pref (MemW.unpack w))
  | 0x7 => some (.extq (SysW.unpack w))
  | 0x8 => some (.halloc (SysW.unpack w))
  | 0x9 => some (.hfree (SysW.unpack w))
  | 0xA => some (.setprio (SysW.unpack w))
  | 0xB => some (.svc (ImmW.unpack w))
  | _ => none

/-- The rows of the opcodes 0x20 to 0x2F, by bits 57:54 (R118). -/
def row2 (lo : Nat) (w : IWord) : Option Instr :=
  match lo with
  | 0x0 => some (.iadd (AluW.unpack w))
  | 0x1 => some (.isub (AluW.unpack w))
  | 0x2 => some (.iaddc (AluW.unpack w))
  | 0x3 => some (.imul (AluW.unpack w))
  | 0x4 => some (.imulh (AluW.unpack w))
  | 0x5 => some (.imad (AluW.unpack w))
  | 0x6 => some (.imin (AluW.unpack w))
  | 0x7 => some (.imax (AluW.unpack w))
  | 0x8 => some (.iabsd (AluW.unpack w))
  | 0x9 => some (.and (AluW.unpack w))
  | 0xA => some (.or (AluW.unpack w))
  | 0xB => some (.xor (AluW.unpack w))
  | 0xC => some (.andn (AluW.unpack w))
  | 0xD => some (.shl (AluW.unpack w))
  | 0xE => some (.shr (AluW.unpack w))
  | 0xF => some (.sar (AluW.unpack w))
  | _ => none

/-- The rows of the opcodes 0x30 to 0x3F, by bits 57:54 (R118). -/
def row3 (lo : Nat) (w : IWord) : Option Instr :=
  match lo with
  | 0x0 => some (.rotl (AluW.unpack w))
  | 0x1 => some (.clz (AluW.unpack w))
  | 0x2 => some (.popc (AluW.unpack w))
  | 0x3 => some (.brev (AluW.unpack w))
  | 0x4 => some (.bfe (AluW.unpack w))
  | 0x5 => some (.bfi (AluW.unpack w))
  | 0x6 => some (.lea (AluW.unpack w))
  | 0x7 => some (.icmp (AluW.unpack w))
  | 0x8 => some (.sel (AluW.unpack w))
  | 0x9 => some (.mov (AluW.unpack w))
  | 0xA => some (.movl (AluW.unpack w))
  | 0xB => some (.movh (AluW.unpack w))
  | 0xC => some (.prmt (AluW.unpack w))
  | 0xD => some (.idot4 (AluW.unpack w))
  | 0xE => some (.idiv (AluW.unpack w))
  | 0xF => some (.irem (AluW.unpack w))
  | _ => none

/-- The rows of the opcodes 0x40 to 0x4F, by bits 57:54 (R118). -/
def row4 (lo : Nat) (w : IWord) : Option Instr :=
  match lo with
  | 0x0 => some (.pand (AluW.unpack w))
  | 0x1 => some (.por (AluW.unpack w))
  | 0x2 => some (.pxor (AluW.unpack w))
  | 0x3 => some (.pnot (AluW.unpack w))
  | 0x4 => some (.pmov (AluW.unpack w))
  | 0x5 => some (.pset (AluW.unpack w))
  | 0x6 => some (.pget (AluW.unpack w))
  | 0x7 => some (.rfl (AluW.unpack w))
  | 0x8 => some (.rdlane (AluW.unpack w))
  | 0x9 => some (.wrlane (AluW.unpack w))
  | _ => none

/-- The rows of the opcodes 0x50 to 0x5F, by bits 57:54 (R118). -/
def row5 (lo : Nat) (w : IWord) : Option Instr :=
  match lo with
  | 0x0 => some (.fadd (AluW.unpack w))
  | 0x1 => some (.fsub (AluW.unpack w))
  | 0x2 => some (.fmul (AluW.unpack w))
  | 0x3 => some (.fma (AluW.unpack w))
  | 0x4 => some (.fmin (AluW.unpack w))
  | 0x5 => some (.fmax (AluW.unpack w))
  | 0x6 => some (.fcmp (AluW.unpack w))
  | 0x7 => some (.fclass (AluW.unpack w))
  | 0x8 => some (.frcp (AluW.unpack w))
  | 0x9 => some (.fsqrt (AluW.unpack w))
  | 0xA => some (.frsq (AluW.unpack w))
  | 0xB => some (.fexp2 (AluW.unpack w))
  | 0xC => some (.flog2 (AluW.unpack w))
  | 0xD => some (.fsinpi (AluW.unpack w))
  | 0xE => some (.fcospi (AluW.unpack w))
  | 0xF => some (.fdiv (AluW.unpack w))
  | _ => none

/-- The rows of the opcodes 0x60 to 0x6F, by bits 57:54 (R118). -/
def row6 (lo : Nat) (w : IWord) : Option Instr :=
  match lo with
  | 0x0 => some (.ffloor (AluW.unpack w))
  | 0x1 => some (.fceil (AluW.unpack w))
  | 0x2 => some (.ftrunc (AluW.unpack w))
  | 0x3 => some (.frint (AluW.unpack w))
  | 0x4 => some (.ffrac (AluW.unpack w))
  | 0x5 => some (.fldexp (AluW.unpack w))
  | 0x6 => some (.fdot2 (AluW.unpack w))
  | 0x7 => some (.fdot4 (AluW.unpack w))
  | 0x8 => some (.hadd2 (AluW.unpack w))
  | 0x9 => some (.hmul2 (AluW.unpack w))
  | 0xA => some (.hfma2 (AluW.unpack w))
  | 0xB => some (.fmed3 (AluW.unpack w))
  | _ => none

/-- The rows of the opcodes 0x70 to 0x7F, by bits 57:54 (R118). -/
def row7 (lo : Nat) (w : IWord) : Option Instr :=
  match lo with
  | 0x0 => some (.cvt (AluW.unpack w))
  | 0x1 => some (.cvtq (AluW.unpack w))
  | 0x2 => some (.cvtdq (AluW.unpack w))
  | 0x3 => some (.pack (AluW.unpack w))
  | 0x4 => some (.unpk (AluW.unpack w))
  | 0x5 => some (.shfl (AluW.unpack w))
  | 0x6 => some (.vote (AluW.unpack w))
  | 0x7 => some (.redux (AluW.unpack w))
  | 0x8 => some (.scan (AluW.unpack w))
  | 0x9 => some (.matchl (AluW.unpack w))
  | _ => none

/-- The rows of the opcodes 0x80 to 0x8F, by bits 57:54 (R118). -/
def row8 (lo : Nat) (w : IWord) : Option Instr :=
  match lo with
  | 0x0 => some (.ld (MemW.unpack w))
  | 0x1 => some (.st (MemW.unpack w))
  | 0x2 => some (.lds (MemW.unpack w))
  | 0x3 => some (.sts (MemW.unpack w))
  | 0x4 => some (.ldp (MemW.unpack w))
  | 0x5 => some (.stp (MemW.unpack w))
  | 0x6 => some (.ldu (MemW.unpack w))
  | 0x7 => some (.stu (MemW.unpack w))
  | 0x8 => some (.atom (MemW.unpack w))
  | 0x9 => some (.atoms (MemW.unpack w))
  | 0xA => some (.red (MemW.unpack w))
  | 0xB => some (.append (SysW.unpack w))
  | 0xC => some (.decline (SysW.unpack w))
  | 0xD => some (.fence (MemW.unpack w))
  | _ => none

/-- The rows of the opcodes 0x90 to 0x9F, by bits 57:54 (R118). -/
def row9 (lo : Nat) (w : IWord) : Option Instr :=
  match lo with
  | 0x0 => some (.bar (SysW.unpack w))
  | 0x1 => some (.cbinit (SysW.unpack w))
  | 0x2 => some (.cbarv (SysW.unpack w))
  | 0x3 => some (.cbwait (SysW.unpack w))
  | 0x4 => some (.tlwait (SysW.unpack w))
  | 0x5 => some (.tlread (SysW.unpack w))
  | 0x6 => some (.cpy (SysW.unpack w))
  | 0x7 => some (.mcast (SysW.unpack w))
  | 0x8 => some (.cexec (SysW.unpack w))
  | 0x9 => some (if w.extractLsb' 50 4 == 1#4 then .ceqryArg (SysW.unpack w) else .ceqry (SysW.unpack w))
  | 0xA => some (.iscfg (SysW.unpack w))
  | 0xB => some (.qclose (SysW.unpack w))
  | 0xC => some (.emit (SysW.unpack w))
  | 0xD => some (.emitr (SysW.unpack w))
  | 0xE => some (if w.extractLsb' 50 4 == 1#4 then .recgetCount (SysW.unpack w) else .recget (SysW.unpack w))
  | 0xF => some (.mbtgt (SysW.unpack w))
  | _ => none

/-- The rows of the opcodes 0xA0 to 0xAF, by bits 57:54 (R118). -/
def rowA (lo : Nat) (w : IWord) : Option Instr :=
  match lo with
  | 0x0 => some (.mxzero (SysW.unpack w))
  | 0x1 => some (.mxldw (SysW.unpack w))
  | 0x2 => some (.mxloop (SysW.unpack w))
  | 0x3 => some (.mxspl (SysW.unpack w))
  | 0x4 => some (.mxdrain (SysW.unpack w))
  | 0x5 => some (.mxfence (SysW.unpack w))
  | 0x6 => some (if w.extractLsb' 50 4 == 2#4 then .mxrdStat (SysW.unpack w) else .mxrd (SysW.unpack w))
  | 0x7 => some (.mxwr (SysW.unpack w))
  | 0x8 => some (.mxmask (SysW.unpack w))
  | 0x9 => some (.mxcfg (SysW.unpack w))
  | 0xA => some (.jchain (SysW.unpack w))
  | 0xB => some (.jsend (SysW.unpack w))
  | 0xC => some (.jrecv (SysW.unpack w))
  | 0xD => some (.jclose (SysW.unpack w))
  | 0xE => some (.jabort (SysW.unpack w))
  | _ => none

/-- The rows of the opcodes 0xB0 to 0xBF, by bits 57:54 (R118). -/
def rowB (lo : Nat) (w : IWord) : Option Instr :=
  match lo with
  | 0x0 => some (.rtbox (SysW.unpack w))
  | 0x1 => some (.rttri (SysW.unpack w))
  | 0x2 => some (.rtcrv (SysW.unpack w))
  | 0x3 => some (.rtrace (SysW.unpack w))
  | 0x4 => some (.rng (SysW.unpack w))
  | 0x5 => some (.rsvupd (SysW.unpack w))
  | 0x6 => some (.rsvmrg (SysW.unpack w))
  | 0x7 => some (.rsvnrm (SysW.unpack w))
  | 0x8 => some (.rsvld (SysW.unpack w))
  | 0x9 => some (.rsvst (SysW.unpack w))
  | 0xA => some (.ltwalk (SysW.unpack w))
  | 0xB => some (.reuse (SysW.unpack w))
  | _ => none

/-- The rows of the opcodes 0xC0 to 0xCF, by bits 57:54 (R118). -/
def rowC (lo : Nat) (w : IWord) : Option Instr :=
  match lo with
  | 0x0 => some (.cparg (SysW.unpack w))
  | 0x1 => some (.cpret (SysW.unpack w))
  | _ => none

/-- The rows of the opcodes 0xD0 to 0xDF, by bits 57:54 (R118). -/
def rowD (lo : Nat) (w : IWord) : Option Instr :=
  match lo with
  | 0x0 => some (.kld (SysW.unpack w))
  | 0x1 => some (.kst (SysW.unpack w))
  | 0x2 => some (.agset (SysW.unpack w))
  | 0x3 => some (.agstep (SysW.unpack w))
  | 0x4 => some (.scopy (SysW.unpack w))
  | 0x5 => some (.sgath (SysW.unpack w))
  | 0x6 => some (.sscat (SysW.unpack w))
  | 0x7 => some (.smcast (SysW.unpack w))
  | 0x8 => some (.cbload (SysW.unpack w))
  | 0x9 => some (.sdecode (SysW.unpack w))
  | 0xA => some (.qpush (SysW.unpack w))
  | 0xB => some (.tlinc (SysW.unpack w))
  | 0xC => some (.swait (SysW.unpack w))
  | 0xD => some (.stopc (SysW.unpack w))
  | _ => none

/-- The constructor a full word's opcode (and, for the opcodes with two rows, its VAR) names, its fields read by the
opcode's layout. A reserved opcode gives none (R118). -/
def unpackFull (w : IWord) : Option Instr :=
  let lo := (w.extractLsb' 54 4).toNat
  match (w.extractLsb' 58 4).toNat with
  | 0x0 => row0 lo w
  | 0x1 => row1 lo w
  | 0x2 => row2 lo w
  | 0x3 => row3 lo w
  | 0x4 => row4 lo w
  | 0x5 => row5 lo w
  | 0x6 => row6 lo w
  | 0x7 => row7 lo w
  | 0x8 => row8 lo w
  | 0x9 => row9 lo w
  | 0xA => rowA lo w
  | 0xB => rowB lo w
  | 0xC => rowC lo w
  | 0xD => rowD lo w
  | _ => none

/-- The word of an instruction; an event has none. -/
def encode : Instr → Option IWord
  | .ill w => some w
  | .nop f => some (f.pack 0x01#8)
  | .bra f => some (f.pack 0x02#8)
  | .brx f => some (f.pack 0x03#8)
  | .call f => some (f.pack 0x04#8)
  | .callx f => some (f.pack 0x05#8)
  | .ret f => some (f.pack 0x06#8)
  | .regang f => some (f.pack 0x07#8)
  | .exit f => some (f.pack 0x08#8)
  | .yield f => some (f.pack 0x09#8)
  | .trap f => some (f.pack 0x0A#8)
  | .eret f => some (f.pack 0x0B#8)
  | .bkpt f => some (f.pack 0x0C#8)
  | .loop f => some (f.pack 0x0D#8)
  | .csrr f => some (f.pack 0x10#8)
  | .csrw f => some (f.pack 0x11#8)
  | .csrs f => some (f.pack 0x12#8)
  | .csrc f => some (f.pack 0x13#8)
  | .cinv f => some (f.pack 0x14#8)
  | .cinvAll f => some (f.pack 0x14#8)
  | .cwb f => some (f.pack 0x15#8)
  | .pref f => some (f.pack 0x16#8)
  | .extq f => some (f.pack 0x17#8)
  | .halloc f => some (f.pack 0x18#8)
  | .hfree f => some (f.pack 0x19#8)
  | .setprio f => some (f.pack 0x1A#8)
  | .svc f => some (f.pack 0x1B#8)
  | .iadd f => some (f.pack 0x20#8)
  | .isub f => some (f.pack 0x21#8)
  | .iaddc f => some (f.pack 0x22#8)
  | .imul f => some (f.pack 0x23#8)
  | .imulh f => some (f.pack 0x24#8)
  | .imad f => some (f.pack 0x25#8)
  | .imin f => some (f.pack 0x26#8)
  | .imax f => some (f.pack 0x27#8)
  | .iabsd f => some (f.pack 0x28#8)
  | .and f => some (f.pack 0x29#8)
  | .or f => some (f.pack 0x2A#8)
  | .xor f => some (f.pack 0x2B#8)
  | .andn f => some (f.pack 0x2C#8)
  | .shl f => some (f.pack 0x2D#8)
  | .shr f => some (f.pack 0x2E#8)
  | .sar f => some (f.pack 0x2F#8)
  | .rotl f => some (f.pack 0x30#8)
  | .clz f => some (f.pack 0x31#8)
  | .popc f => some (f.pack 0x32#8)
  | .brev f => some (f.pack 0x33#8)
  | .bfe f => some (f.pack 0x34#8)
  | .bfi f => some (f.pack 0x35#8)
  | .lea f => some (f.pack 0x36#8)
  | .icmp f => some (f.pack 0x37#8)
  | .sel f => some (f.pack 0x38#8)
  | .mov f => some (f.pack 0x39#8)
  | .movl f => some (f.pack 0x3A#8)
  | .movh f => some (f.pack 0x3B#8)
  | .prmt f => some (f.pack 0x3C#8)
  | .idot4 f => some (f.pack 0x3D#8)
  | .idiv f => some (f.pack 0x3E#8)
  | .irem f => some (f.pack 0x3F#8)
  | .pand f => some (f.pack 0x40#8)
  | .por f => some (f.pack 0x41#8)
  | .pxor f => some (f.pack 0x42#8)
  | .pnot f => some (f.pack 0x43#8)
  | .pmov f => some (f.pack 0x44#8)
  | .pset f => some (f.pack 0x45#8)
  | .pget f => some (f.pack 0x46#8)
  | .rfl f => some (f.pack 0x47#8)
  | .rdlane f => some (f.pack 0x48#8)
  | .wrlane f => some (f.pack 0x49#8)
  | .fadd f => some (f.pack 0x50#8)
  | .fsub f => some (f.pack 0x51#8)
  | .fmul f => some (f.pack 0x52#8)
  | .fma f => some (f.pack 0x53#8)
  | .fmin f => some (f.pack 0x54#8)
  | .fmax f => some (f.pack 0x55#8)
  | .fcmp f => some (f.pack 0x56#8)
  | .fclass f => some (f.pack 0x57#8)
  | .frcp f => some (f.pack 0x58#8)
  | .fsqrt f => some (f.pack 0x59#8)
  | .frsq f => some (f.pack 0x5A#8)
  | .fexp2 f => some (f.pack 0x5B#8)
  | .flog2 f => some (f.pack 0x5C#8)
  | .fsinpi f => some (f.pack 0x5D#8)
  | .fcospi f => some (f.pack 0x5E#8)
  | .fdiv f => some (f.pack 0x5F#8)
  | .ffloor f => some (f.pack 0x60#8)
  | .fceil f => some (f.pack 0x61#8)
  | .ftrunc f => some (f.pack 0x62#8)
  | .frint f => some (f.pack 0x63#8)
  | .ffrac f => some (f.pack 0x64#8)
  | .fldexp f => some (f.pack 0x65#8)
  | .fdot2 f => some (f.pack 0x66#8)
  | .fdot4 f => some (f.pack 0x67#8)
  | .hadd2 f => some (f.pack 0x68#8)
  | .hmul2 f => some (f.pack 0x69#8)
  | .hfma2 f => some (f.pack 0x6A#8)
  | .fmed3 f => some (f.pack 0x6B#8)
  | .cvt f => some (f.pack 0x70#8)
  | .cvtq f => some (f.pack 0x71#8)
  | .cvtdq f => some (f.pack 0x72#8)
  | .pack f => some (f.pack 0x73#8)
  | .unpk f => some (f.pack 0x74#8)
  | .shfl f => some (f.pack 0x75#8)
  | .vote f => some (f.pack 0x76#8)
  | .redux f => some (f.pack 0x77#8)
  | .scan f => some (f.pack 0x78#8)
  | .matchl f => some (f.pack 0x79#8)
  | .ld f => some (f.pack 0x80#8)
  | .st f => some (f.pack 0x81#8)
  | .lds f => some (f.pack 0x82#8)
  | .sts f => some (f.pack 0x83#8)
  | .ldp f => some (f.pack 0x84#8)
  | .stp f => some (f.pack 0x85#8)
  | .ldu f => some (f.pack 0x86#8)
  | .stu f => some (f.pack 0x87#8)
  | .atom f => some (f.pack 0x88#8)
  | .atoms f => some (f.pack 0x89#8)
  | .red f => some (f.pack 0x8A#8)
  | .append f => some (f.pack 0x8B#8)
  | .decline f => some (f.pack 0x8C#8)
  | .fence f => some (f.pack 0x8D#8)
  | .bar f => some (f.pack 0x90#8)
  | .cbinit f => some (f.pack 0x91#8)
  | .cbarv f => some (f.pack 0x92#8)
  | .cbwait f => some (f.pack 0x93#8)
  | .tlwait f => some (f.pack 0x94#8)
  | .tlread f => some (f.pack 0x95#8)
  | .cpy f => some (f.pack 0x96#8)
  | .mcast f => some (f.pack 0x97#8)
  | .cexec f => some (f.pack 0x98#8)
  | .ceqry f => some (f.pack 0x99#8)
  | .ceqryArg f => some (f.pack 0x99#8)
  | .iscfg f => some (f.pack 0x9A#8)
  | .qclose f => some (f.pack 0x9B#8)
  | .emit f => some (f.pack 0x9C#8)
  | .emitr f => some (f.pack 0x9D#8)
  | .recget f => some (f.pack 0x9E#8)
  | .recgetCount f => some (f.pack 0x9E#8)
  | .mbtgt f => some (f.pack 0x9F#8)
  | .mxzero f => some (f.pack 0xA0#8)
  | .mxldw f => some (f.pack 0xA1#8)
  | .mxloop f => some (f.pack 0xA2#8)
  | .mxspl f => some (f.pack 0xA3#8)
  | .mxdrain f => some (f.pack 0xA4#8)
  | .mxfence f => some (f.pack 0xA5#8)
  | .mxrd f => some (f.pack 0xA6#8)
  | .mxrdStat f => some (f.pack 0xA6#8)
  | .mxwr f => some (f.pack 0xA7#8)
  | .mxmask f => some (f.pack 0xA8#8)
  | .mxcfg f => some (f.pack 0xA9#8)
  | .jchain f => some (f.pack 0xAA#8)
  | .jsend f => some (f.pack 0xAB#8)
  | .jrecv f => some (f.pack 0xAC#8)
  | .jclose f => some (f.pack 0xAD#8)
  | .jabort f => some (f.pack 0xAE#8)
  | .rtbox f => some (f.pack 0xB0#8)
  | .rttri f => some (f.pack 0xB1#8)
  | .rtcrv f => some (f.pack 0xB2#8)
  | .rtrace f => some (f.pack 0xB3#8)
  | .rng f => some (f.pack 0xB4#8)
  | .rsvupd f => some (f.pack 0xB5#8)
  | .rsvmrg f => some (f.pack 0xB6#8)
  | .rsvnrm f => some (f.pack 0xB7#8)
  | .rsvld f => some (f.pack 0xB8#8)
  | .rsvst f => some (f.pack 0xB9#8)
  | .ltwalk f => some (f.pack 0xBA#8)
  | .reuse f => some (f.pack 0xBB#8)
  | .cparg f => some (f.pack 0xC0#8)
  | .cpret f => some (f.pack 0xC1#8)
  | .kld f => some (f.pack 0xD0#8)
  | .kst f => some (f.pack 0xD1#8)
  | .agset f => some (f.pack 0xD2#8)
  | .agstep f => some (f.pack 0xD3#8)
  | .scopy f => some (f.pack 0xD4#8)
  | .sgath f => some (f.pack 0xD5#8)
  | .sscat f => some (f.pack 0xD6#8)
  | .smcast f => some (f.pack 0xD7#8)
  | .cbload f => some (f.pack 0xD8#8)
  | .sdecode f => some (f.pack 0xD9#8)
  | .qpush f => some (f.pack 0xDA#8)
  | .tlinc f => some (f.pack 0xDB#8)
  | .swait f => some (f.pack 0xDC#8)
  | .stopc f => some (f.pack 0xDD#8)
  | .pairedWord f => some f.pack
  | .moduleReset _ => none
  | .partitionReset _ => none
  | .clockStretch _ _ => none
  | .powerLimit _ => none
  | .energyRefill => none
  | .teamAdmit _ => none
  | .ucieModuleFail _ _ => none
  | .fabricPortFail _ => none
  | .flitCrcFail _ => none
  | .thieloData _ => none
  | .e2eack _ => none
  | .e2eRetransmit _ _ => none
  | .fatalError _ _ _ _ => none
  | .haltLineArrival _ _ => none
  | .haltHeaderWrite _ => none
  | .homeRequest _ => none
  | .ackFlit _ => none
  | .nackFlit _ => none
  | .deferredPerm _ _ => none
  | .mingenRaiseComplete _ => none
  | .onDemandTranslate _ => none
  | .gatewayAnchorData _ => none
  | .gatewayWindowEnd _ => none
  | .gatewayReduction _ => none
  | .haloRequest _ _ => none
  | .mail _ => none
  | .mailacc _ => none
  | .mailref _ => none
  | .mailSlotGrant _ _ => none
  | .mailResendTimeout _ _ => none
  | .mbdropRead _ => none
  | .stretchCountRead _ => none
  | .reservationGrant _ => none
  | .ready _ => none
  | .arm _ => none
  | .credit _ => none
  | .req _ => none
  | .data _ => none
  | .datasat _ => none
  | .endFlit _ => none
  | .abortFlit _ => none
  | .refuse _ => none
  | .revoke _ => none
  | .copyBurst _ => none
  | .copyComplete _ _ => none
  | .waveCopyComplete _ _ => none
  | .tlincApply _ => none
  | .cbarvApply _ => none
  | .contextFaulted _ => none
  | .stopcComplete _ => none
  | .streamFetch _ _ => none
  | .matrixOpStart _ => none
  | .clusterOpArrival _ _ => none
  | .rowBlock _ => none
  | .matrixOpComplete _ => none
  | .rtraceStart _ _ => none
  | .rayUnitComplete _ _ => none
  | .passStart _ _ => none
  | .passPixel _ _ => none
  | .visibilitySegment _ _ => none
  | .passEnd _ _ => none
  | .hostCommit _ _ _ => none
  | .rdmaWrite _ => none
  | .rdmaRead _ => none
  | .roceInvalidRequest _ _ => none
  | .nodeFire _ _ => none
  | .drainComplete _ _ => none
  | .teamReady _ => none
  | .teamResident _ _ => none
  | .bankSwap _ => none
  | .waitSwapTimeout _ => none
  | .contextSaved _ => none
  | .claimComplete _ => none
  | .teamEnd _ _ => none
  | .launchEnd _ => none
  | .flush _ => none
  | .replay _ => none
  | .flushThenReplay _ => none
  | .force _ => none
  | .kill _ => none
  | .halt _ => none
  | .nodetab _ => none
  | .nodeon _ => none
  | .nodeoff _ => none
  | .asrec _ => none
  | .svcdone _ _ => none
  | .keyLoad _ => none
  | .keyErase _ => none
  | .regionWrite _ _ _ _ => none
  | .regionRekeyComplete _ _ => none
  | .worldWrite _ _ _ _ => none
  | .schcfgWrite _ _ => none
  | .areaBaseWrite _ _ => none
  | .allowanceWrite _ _ => none
  | .budgetSet _ _ => none
  | .mregExtend _ _ _ _ => none
  | .attestationReport _ _ => none
  | .signedSidebandRequest _ => none
  | .mgmtCsrWrite _ _ _ _ => none
  | .readDataResponse _ => none
  | .contextFillComplete _ => none
  | .releaseClearComplete _ => none
  | .gatewayReductionWindowEnd _ => none
  | .mailboxControlFlit _ => none
  | .unknownOp _ => none
  | .stackFail _ => none
  | .ucieLinkLevelRetry _ _ => none

/-- The instruction of one word: its fields, when every bit the layout leaves unused is 0 (the word is the encoding of
those fields) and the entry accepts them (R93, R119). -/
def decode (w : IWord) : Option Instr :=
  let i? := if pairedBit w then some (.pairedWord (PairW.unpack w)) else unpackFull w
  match i? with
  | none => none
  | some i => if i.wf && encode i == some w then some i else none

/-- Eight bytes, the first at the lowest address, as a word (R4, R88). -/
def wordOfBytes (bs : List Byte) : Option IWord :=
  match bs with
  | [b0, b1, b2, b3, b4, b5, b6, b7] => some (b7 ++ b6 ++ b5 ++ b4 ++ b3 ++ b2 ++ b1 ++ b0)
  | _ => none

/-- Decoding from bytes: an instruction and the bytes after it. -/
def decodeBytes (bs : List Byte) : Option (Instr × List Byte) :=
  match wordOfBytes (bs.take 8) with
  | none => none
  | some w => (decode w).map fun i => (i, bs.drop 8)

/-- The bytes of a word in memory order (R4). -/
def bytesOfWord (w : IWord) : List Byte := (List.range 8).map fun i => w.extractLsb' (8 * i) 8

/-- What the decoder reads from an instruction numbered as the opcode table numbers its bits: one 64-bit word; bits
above `nbits` are 0. -/
def decodeTableWord (nbits w : Nat) : Option Instr :=
  (decodeBytes (bytesOfWord (BitVec.ofNat 64 (w % 2 ^ nbits)))).map fun p => p.1

end Sys2Proof
end

