-- ==== Sys2Proof/Machine/Fetch.lean ====
section
/-! DEFINITION. Issue: which gang of which wave issues (R14, R23, R27, R397), fetching its word (R176), the checks made
before a word's own (R26, R119–R121), and what the slot does after it. -/

namespace Sys2Proof.Machine

/-- A word about to issue: the instruction and the state in which it issues, or a move that is over. -/
inductive Pick where
  | run (i : Instr) (w : IWord) (s : State)
  | done (s : State)

/-- OPC values R118 reserves. -/
def reservedOpc (opc : Nat) : Bool :=
  opc == 0x0E || opc == 0x0F || (0x1C ≤ opc && opc ≤ 0x1F) || (0x4A ≤ opc && opc ≤ 0x4F) || (0x6C ≤ opc && opc ≤ 0x6F) ||
    (0x7A ≤ opc && opc ≤ 0x7F) || opc == 0x8E || opc == 0x8F || opc == 0xAF || (0xBC ≤ opc && opc ≤ 0xBF) ||
    (0xC2 ≤ opc && opc ≤ 0xCF) || 0xDE ≤ opc

/-- What the fetch of a word answers. -/
inductive Fetched where
  | word (w : IWord) (s : State)
  | trap (c : Cause)
  | park (code idx : Nat) (s : State)
  | world (pa : Nat)
  | far (s : State)

/-- The eight bytes of a word, in a line of another module that has come. -/
def farWord (s : State) (who : Requester) (pa : Nat) : IWord :=
  BitVec.ofNat 64 (ofBytes ((List.range 8).map fun i => (byteAt s who (pa + i)).1))

/-- Eight bytes at a physical address, after the checks of the home (R350, R488, R490); `r` is the request, with the world of an
engine (R505). -/
def fetchAt (s : State) (r : MemReq) : Fetched :=
  match homeCheck s r.pa r.asid r.gen r.key r.sec (r.eng.elim false (·.2)) r.eng.isSome with
  | .perform =>
    if !remote s r.pa then .word (BitVec.ofNat 64 (physNum s r.pa 8)) s
    else if (farLine? s r.who r.pa).isSome then .word (farWord s r.who r.pa) (useFar s r.who r.pa)
    else .far (askLine s r)
  | .discard => let (bs, s1) := freeBytes (countDiscard s r.pa) 8; .word (BitVec.ofNat 64 (ofBytes bs)) s1
  | .nack => .park 0x42 0xFF (if stackOut s r.pa then countDiscard s r.pa else s)
  | .refuse => .trap .perm
  | .world => .world r.pa

/-- A fetch of a wave or context by its team's extents with X (R176, R348). -/
def fetchFor (s : State) (who : Requester) (g : BitVec 8) (eng : Option (Nat × Bool)) (T : Team) (va : Nat) : Fetched :=
  match teamTr s T .fetch va with
  | .miss => .trap .extentMiss
  | .perm => .trap .perm
  | .park code idx => .park code idx s
  | .ok pa key sec gen =>
    let b := MemReq.blank ⟨s.moduleNo, 0, 0, 0, 0⟩ who
    fetchAt s { b with gang := g, asid := T.asid, gen := gen, key := key, sec := sec, va := va, pa := pa, eng := eng }

/-- The words a profile allows (R121): the compute and the callable profile have paired words, and a callable BRA goes
forward only (R123). -/
def computeWord (w : IWord) : Bool := pairedBit w || computeAllows (opcOf w).toNat
def streamWord (w : IWord) : Bool := !pairedBit w && streamAllows (opcOf w).toNat
def callableWord (w : IWord) : Bool :=
  pairedBit w || (callableAllows (opcOf w).toNat && !(opcOf w == 0x02#8 && (w.extractLsb' 22 24).toInt ≤ 0))

/-- The checks that come before an instruction's own, in the order of R423: a reserved OPC, the profile, the encoding, the
length of the run (R26). -/
def checkWord (w : IWord) (allows : IWord → Bool) (lastOfRun : Bool) : Except Stop Instr := do
  let opc := (opcOf w).toNat
  trapIf (!pairedBit w && reservedOpc opc) .illegalEnc
  trapIf (!allows w) .profile (profileArg opc (pairedBit w))
  match decode w with
  | none => .error (.trap .illegalEnc 0)
  | some i => do
    trapIf (lastOfRun && !bndBit w) .illegalEnc
    .ok i

/-! Waves. -/

/-- The gang a wave issues next (R23): ready, in ascending GANGID after the one that issued last. -/
def Wave.nextGang (W : Wave) : Option (BitVec 8) :=
  let ids := W.gangIds.filter fun i => W.gangReady (W.gangOf i)
  match ids.find? fun i => W.lastGang.toNat < i with
  | some i => some (W.gangOf i)
  | none => (ids.head?).map W.gangOf

/-- Puts a wave out of its slot, back on the ready list when it is ready (R397). -/
def leaveSlot (s : State) (t w core : Nat) : State :=
  makeReady (modCore s core fun C => { C with
    slot := modAt C.slot (octantOf w) fun x => if x == some w then none else x }) t w

/-- The wave that holds an octant's slot, or the head of its ready list, which takes it (R397). The flag says that a run
goes on. -/
def takeSlot (s : State) (core o : Nat) : Option (State × Nat × Bool) :=
  match core? s core with
  | none => none
  | some C =>
    match C.slot.getD o none with
    | some w => some (s, w, true)
    | none =>
      match C.ready.getD o [] with
      | [] => none
      | w :: r => some (modCore s core fun C => { C with
          slot := setAt C.slot o (some w), ready := setAt C.ready o r }, w, false)

/-- The lanes of a gang that wait for its word's page. -/
def fetchLanes (W : Wave) (g : BitVec 8) (va code idx : Nat) : List ParkLane :=
  let m := W.gangLanes g
  (lanesOf (if m == 0 then BitVec.ofNat 32 (2 ^ (4 * lowSlice g)) else m)).map fun l => ⟨l, va, code, idx⟩

/-- A gang fetches and checks its word. -/
def pickGang (s : State) (core t w : Nat) (T : Team) (W : Wave) (g : BitVec 8) : Pick :=
  let sl := W.slice (lowSlice g)
  let va := sl.pc.toNat * 8
  match fetchFor s (.wave t w) g none T va with
  | .trap c => .done (leaveSlot (takeTrap s t w g c (BitVec.ofNat 64 va)) t w core)
  | .park code idx s1 => .done (leaveSlot (parkWave s1 t w g .fetch (fetchLanes W g va code idx)) t w core)
  | .far s1 => .done (leaveSlot s1 t w core)
  | .world _ => .done s
  | .word x s1 =>
    match checkWord x computeWord (W.lastOfRun g) with
    | .ok i => .run i x { s1 with cur := .wave t w g }
    | .error (.trap c arg) => .done (leaveSlot (takeTrap s1 t w g c arg) t w core)
    | .error _ => .done s1

/-- One core cycle of an octant (R14, R27): the next word of the run that holds the slot, or the first word of the run that
wins it. A core that stopped, or whose octant has nothing ready, issues nothing. -/
def pickIssue (s : State) (core o : Nat) : Pick :=
  match core? s core with
  | none => .done s
  | some C =>
    match C.active with
    | none => .done s
    | some t =>
      if C.stopped || C.swapping then .done s
      else
        match takeSlot s core o with
        | none => .done s
        | some (s1, w, cont) =>
          match team? s1 t with
          | none => .done s1
          | some T =>
            match T.waves[w]? with
            | none => .done s1
            | some W =>
              let last := W.gangOf W.lastGang.toNat
              match if cont && W.gangReady last then some last else W.nextGang with
              | none => .done (leaveSlot s1 t w core)
              | some g => pickGang s1 core t w T W g

/-- Opcodes of the cross-lane words, which suspend the run (R27, R137, R166): RFL, RDLANE, WRLANE, SHFL, VOTE, REDUX, SCAN,
MATCH. -/
def crossLane (opc : Nat) : Bool := (0x47 ≤ opc && opc ≤ 0x49) || (0x75 ≤ opc && opc ≤ 0x79)

/-- After a word of a wave: its run goes on when the word had B = 0 (or was a YIELD that gave up nothing, R179), the gang
is whole and came to the next word, and nothing suspends it; otherwise the slot is free (R27, R397). A word's own trap gives the slot
up, and a deferred PERM, taken between words, does not: R27 and R397 say neither (DESIGN CHOICE, log entry 90). -/
def afterWord (s0 s : State) (x : IWord) (t w : Nat) (g : BitVec 8) : State :=
  match wave? s0 t w, wave? s t w, (team? s t).map (·.core) with
  | some W0, some W, some core =>
    let opc := (opcOf x).toNat
    let next (i : Nat) : Bool := (W.slice i).runpos == (W0.slice i).runpos + 1
    let idle := !pairedBit x && opc == 0x09 && (W0.gangLanes g &&& W0.guard (x.extractLsb' 46 4)) == 0
    let goes := (idle || !bndBit x) && W.gangOf (lowSlice g) == g && W.gangReady g && W.intrap == W0.intrap &&
      (idle || (slicesOf g).all next) && !(!pairedBit x && crossLane opc) &&
      W.lastGang.toNat == lowSlice g
    if goes then s else leaveSlot s t w core
  | _, _, _ => s

/-! Contexts and lanes. -/

/-- One word of a context (R307): only a Running context issues, and none whose acquire waits for its value. -/
def pickContext (s : State) (x : Nat) : Pick :=
  match smGet? s.ctxs x with
  | none => .done s
  | some X =>
    if X.st != .running || X.wait == some .order || unitStopped s X.part (ctxUnit x) then .done s
    else
      let va := X.kpc.toNat * 8
      match ctxTeam s X with
      | none => .done s
      | some T =>
        match fetchFor s (.context x) 0 (some (ctxUnit x, X.secure)) T va with
        | .trap c => .done (faultCtx s x c.code 0 va)
        | .park code idx s1 => .done (parkCtx s1 x .fetch [⟨0, va, code, idx⟩])
        | .far s1 => .done s1
        | .world pa => .done (raiseHalt s X.part 3 (ctxUnit x) pa)
        | .word w s1 =>
          match checkWord w streamWord false with
          | .ok i => .run i w { s1 with cur := .context x }
          | .error (.trap c _) => .done (faultCtx s1 x c.code 0 0)
          | .error _ => .done s1

/-- The contexts of a Contrail engine that may issue, in ascending number after the one that issued last (R307). A context whose word
waits tries it again in its turn, and gives the turn up when it still cannot proceed. -/
def contrailOrder (s : State) (engine : Nat) : List Nat :=
  let last := ((smGet? s.clusters (engine / 4)).bind fun C => C.issued[engine % 4]?).getD 3
  ((List.range 4).map fun i => engine * 4 + (last + 1 + i) % 4).filter fun x =>
    (smGet? s.ctxs x).any fun X => X.st == .running && X.wait != some .order && !unitStopped s X.part (ctxUnit x)

/-- The engine has issued a word of a context. -/
def noteIssued (s : State) (x : Nat) : State :=
  modCluster s (x / 16) fun C => { C with issued := setAt C.issued (x / 4 % 4) (x % 4) }

/-- Whether a context's word could not proceed. -/
def stillWaits (s : State) (x : Nat) : Bool :=
  (smGet? s.ctxs x).any fun X => X.st == .running && X.wait.isSome && X.wait != some .order

/-- One word of an evaluator lane (R299): the lanes at the lowest PC run its word one after the other. Word 256 past the entry raises PROFILE (R123). A page that is not there, or a line of
another module that has not come, holds the lane where it is (R302, R484). -/
def pickLane (s : State) (k : Nat) : Pick :=
  match (smGet? s.clusters k).bind fun C => C.lane?.bind fun e => C.passes[e.slot]?.map fun p => (e, p) with
  | none => .done s
  | some (e, P) =>
    if unitStopped s P.part (phUnit k) then .done s
    else
      let stop (c : Cause) : State := setLane s k { e with done := true, cause := some c }
      let va := e.pc.toNat * 8
      if e.entry.toNat + 256 ≤ e.pc.toNat then .done (stop .profile)
      else
        match judge s (passEng s P k e.slot) .fetch va with
        | .bad (.trap c _) => .done (stop c)
        | .bad _ => .done (setLane s k { e with parkAt := some va })
        | .go pa =>
          if atHand s (.pass k e.slot) pa 8 then check s k stop (farWord s (.pass k e.slot) pa) s
          else .done (setLane s k { e with parkAt := some va })
        | .discard pa =>
          let (bs, s1) := freeBytes (countDiscard s pa) 8
          check s1 k stop (BitVec.ofNat 64 (ofBytes bs)) s1
where
  check (s : State) (k : Nat) (stop : Cause → State) (w : IWord) (s1 : State) : Pick :=
    match checkWord w callableWord false with
    | .ok i => .run i w { s with cur := .lane k }
    | .error (.trap c _) => .done (stop c)
    | .error _ => .done s1

end Sys2Proof.Machine
end

