-- ==== Sys2Proof/Machine/Retry.lean ====
section
/-! DEFINITION. Whether a waiting wave of a team in the shadow bank is ready (R31, R395): its word, compared again (R228), would
proceed. -/

namespace Sys2Proof.Machine

/-- Whether the word of a waiting gang would proceed if its team were active: it is tried on a copy of the state. A word that would make
a claim none of its team's has made yet proceeds to that. -/
def wouldGo (s : State) (t w : Nat) (g : BitVec 8) : Bool :=
  match team? s t with
  | none => false
  | some T =>
    let s1 := modWave s t w fun W => W.holdGang g .free
    match (wave? s1 t w).map fun W => (W, pickGang s1 T.core t w T W g) with
    | none => false
    | some (_, .done _) => true
    | some (_, .run i _ s2) =>
      match exec i s2 with
      | .next s3 => !((wave? s3 t w).any fun W => match (W.slice (lowSlice g)).hold with
          | .wait .claim => (core? s T.core).any fun C => C.claims.any fun c => c.team == t
          | .wait _ => true
          | _ => false)
      | _ => false

/-- A wave tries the words it waits at again: at once in an active bank. In the shadow bank a gang whose word would proceed becomes
ready, and the others stay as they are. -/
def wakeMove (s : State) (t w : Nat) : State :=
  match team? s t with
  | none => s
  | some T =>
    if T.st == .active then wakeWave s t w
    else
      match T.waves[w]? with
      | none => s
      | some W =>
        let waits (g : BitVec 8) : Bool := match (W.slice (lowSlice g)).hold with
          | .wait _ => true
          | _ => false
        let gs := (W.gangIds.map W.gangOf).filter fun g => waits g && wouldGo s t w g
        gs.foldl (fun s g => modWave s t w fun W => W.holdGang g .free) s

end Sys2Proof.Machine
end

