-- ==== Sys2Proof/Machine/Step.lean ====
section
/-! DEFINITION. One step of the module: the head of the agenda moves (log entry 1). A wave, context or evaluator lane
fetches its word and issues it; a store queue drains; a wave tries again; an event of the opcode table happens. -/

namespace Sys2Proof.Machine

/-- The cycles a core counts while `n` pass for the module: those of its own clock, fewer where its cluster's clock was stretched
(R3, R47). -/
def ownCycles (s : State) (core n : Nat) : Nat := n - min n ((smGet? s.clusters (clusterOf core)).elim 0 (·.lag))

/-- The turn begins: its choice is set, its cycles pass. -/
def beginTurn (s : State) (t : Turn) (r : List Turn) : State :=
  let s1 := noteWaits s
  { s1 with
    agenda := r
    choice := t.choice
    cur := .none
    now := s1.now + t.cycles
    cores := s1.cores.map fun p => (p.1, { p.2 with ccyc := p.2.ccyc + ownCycles s1 p.1 t.cycles })
    clusters := s1.clusters.map fun p => (p.1, { p.2 with lag := p.2.lag - min t.cycles p.2.lag }) }

/-- What follows a word's meaning. -/
def endTurn (s0 s : State) (w : IWord) : State :=
  match s0.cur with
  | .wave t k g => { afterWord s0 s w t k g with cur := .none }
  | _ => { s with cur := .none }

/-- A word that was picked runs. -/
def runPick (p : Pick) : Host.Outcome State Fault Refusal :=
  match p with
  | .done s => .next s
  | .run i w s =>
    match exec i s with
    | .next s' => .next (endTurn s s' w)
    | .fault f => .fault f
    | .refused r => .refused r

/-- A Contrail engine issues at most one word (R307): the first of its contexts, in their order, whose word proceeds. -/
def contrailTurn : List Nat → State → Host.Outcome State Fault Refusal
  | [], s => .next s
  | x :: r, s =>
    match runPick (pickContext s x) with
    | .next s1 => if stillWaits s1 x then contrailTurn r s1 else .next (noteIssued s1 x)
    | o => o

/-- The move of an agent. -/
def move (m : Mover) (s : State) : Host.Outcome State Fault Refusal :=
  match m with
  | .issue core o => runPick (pickIssue s core o)
  | .contrail e => contrailTurn (contrailOrder s e) s
  | .lane k => runPick (pickLane s k)
  | .drain t w => .next (drainWave s t w)
  | .drainCtx x => .next (drainCtx s x)
  | .wake t w => .next (wakeMove s t w)
  | .records p => .next (arriveFaults s p)
  | .upset u => .next (upsetMove s u)
  | .read die by_ n => .next (if refuses s then s else mgmtRead s die by_ n)
  | .stackCount n => .next (if refuses s then s else emitOut s (.stackCount n ((s.hbm[n]?).elim 0 (·.discarded))))
  | .arrive f => .next (if refuses s then s else arriveMove s f)
  | .cross rid => .next (crossMove s rid)
  | .control n => .next (controlMove s n)
  | .halo n => .next (haloMove s n)
  | .ask r => .next (if refuses s then s else askMove s r)
  | .caltus => .next (if refuses s then s else caltusMove s)
  | .board i => .next (if refuses s && i != .bootReason then s else boardMove s i)
  | .mailbox by_ o bs => .next (if refuses s then s else mailboxMove s by_ o bs)
  | .event i => if takes s i then exec i s else .next s

/-- One step. With an empty agenda nothing moves. -/
def step (s : State) : Host.Outcome State Fault Refusal :=
  match s.agenda with
  | [] => .next s
  | t :: r => move t.who (beginTurn s t r)

/-- The state with an instruction of `nbits` bits placed where the next step fetches (log entry 9). -/
def State.withFetchWord (s : State) (nbits w : Nat) : State :=
  let x : IWord := BitVec.ofNat 64 (w % 2 ^ nbits)
  placeWord s (bytesOfWord x) (opcOf x).toNat (pairedBit x)

end Sys2Proof.Machine
end

