-- ==== Sys2Proof/Safety.lean ====
section
/-! DEFINITION. A safe run: no step of it stops. -/

namespace Sys2Proof

/-- Every one of the next n steps from a state answers a next state. -/
def SafeFor : Nat → Machine.State → Prop
  | 0, _ => True
  | n + 1, s =>
    match Machine.step s with
    | .next s' => SafeFor n s'
    | .fault _ => False
    | .refused _ => False

end Sys2Proof
end

