-- ==== Sys2Proof/Certificates/Slice0/Obligations.lean ====
section
/-! DEFINITION. The statements for the provers, each a proposition about the model that names the rules of spec/ it
formalises. They are written over a few shared readings of the state: the gang that issues a word once the checks made
before its effect have passed (`ready`), the operands of a word as that gang reads them (`opA`, `opB`, `opC`), the
register it writes (`Gives`). -/

namespace Sys2Proof.Claims

open Sys2Proof Sys2Proof.Machine

/-! Words of a wave. -/

/-- The gang that issues a word of a wave, its guard taken (R90), once `check`, the tests the word makes before its own
effect, has passed. -/
def ready (s : State) (g : BitVec 4) (check : WCtx → Except Stop WCtx) : Option WCtx :=
  match s.cur with
  | .wave t w gang => (wctx? s t w gang g).bind fun c => (check c).toOption
  | _ => none

/-- A context that runs a word, once `check` has passed (R307). -/
def readyCtx (s : State) (check : KCtx → Except Stop Unit) : Option KCtx :=
  match s.cur with
  | .context x => (kctx? s x).bind fun c => ((check c).toOption).map fun _ => c
  | _ => none

/-- The lane of a callable evaluation that runs a word (R299): its cluster and itself. -/
def readyLane (s : State) (check : Eval → Except Stop Unit) : Option (Nat × Eval) :=
  match s.cur with
  | .lane k => (laneOf s k).bind fun e => ((check e).toOption).map fun _ => (k, e)
  | _ => none

/-- Operand A, B and C of a word in a lane, `w` registers wide (R33, R95). -/
def opA (f : AluW) (w : Nat) (c : WCtx) (l : Nat) : Nat := c.regN f.a w l
def opB (f : AluW) (w imm : Nat) (c : WCtx) (l : Nat) : Nat := if immFlag f.var then imm else c.regN f.b w l
def opC (f : AluW) (w : Nat) (c : WCtx) (l : Nat) : Nat := c.regN f.c w l

/-- The registers a word of one, two or three operands reads (R95: B stands aside for an immediate). -/
def srcs1 (f : AluW) (wa : Nat) : List Regs := [Regs.ofW f.a wa]
def srcs2 (f : AluW) (wa wb : Nat) : List Regs := Regs.ofW f.a wa :: if immFlag f.var then [] else [Regs.ofW f.b wb]
def srcs3 (f : AluW) (wa wb wc : Nat) : List Regs := srcs2 f wa wb ++ [Regs.ofW f.c wc]

/-- A word that computes one value in each lane completes: whenever its checks pass, the next state writes those values
to D (a message when D is mb, one value when D is uniform) and changes nothing else but the place of the gang. -/
def Gives (i : Instr) (f : AluW) (s : State) (srcs : List Regs) (n : Nat) (val : WCtx → Nat → Nat) : Prop :=
  i.wf = true → ∀ c, ready s f.g (fun c => c.begin srcs [Regs.ofW f.d n] (isUniform f.d)) = some c →
    exec i s = .next (c.finish f.bnd f.d n (val c))

/-- The lanes whose predicate bit a word sets. -/
def lanesWhere (c : WCtx) (p : Nat → Bool) : LaneMask := maskOf fun l => c.lanes.getLsbD l && p l

/-- A word that decides one predicate bit in each lane completes: D's bits of the active lanes take the decisions, p0
discarding them. -/
def Decides (i : Instr) (f : AluW) (s : State) (srcs : List Regs) (p : WCtx → Nat → Bool) : Prop :=
  i.wf = true → ∀ c, ready s f.g (fun c => c.begin srcs [] false) = some c →
    exec i s = .next (c.retire (c.W.putPred f.d.toNat c.lanes (lanesWhere c (p c))) f.bnd)

/-- PRMT's value (R144): byte k as selector k of the control says. -/
def permuted (a b ctl : Nat) : Nat :=
  let source (q : Nat) : Nat := (a % 2 ^ 32 + b % 2 ^ 32 * 2 ^ 32) / 256 ^ (q % 8) % 256
  let byte (q : Nat) : Nat :=
    if q / 8 = 0 then source q else if q / 8 = 1 then 0
    else if q / 8 = 2 then (if 128 ≤ source q then 255 else 0) else if source q % 2 = 1 then 255 else 0
  byte (ctl % 32) + byte (ctl / 32 % 32) * 256 + byte (ctl / 32 ^ 2 % 32) * 256 ^ 2 + byte (ctl / 32 ^ 3 % 32) * 256 ^ 3

/-- IDOT4's value (R145): the exact sum, clamped to the 32-bit type under CL and taken modulo 2^32 otherwise. -/
def dotted (signed cl : Bool) (a b c : Nat) : Nat :=
  let num (n v : Nat) : Int := if signed && decide (2 ^ (n - 1) ≤ v) then (v : Int) - 2 ^ n else v
  let byte (x k : Nat) : Int := num 8 (x / 256 ^ k % 256)
  let e := num 32 (c % 2 ^ 32) + byte a 0 * byte b 0 + byte a 1 * byte b 1 + byte a 2 * byte b 2 + byte a 3 * byte b 3
  let low : Int := if signed then -2 ^ 31 else 0
  let high : Int := if signed then 2 ^ 31 - 1 else 2 ^ 32 - 1
  ((if cl then max low (min high e) else e) % 2 ^ 32).toNat

/-- Exceptions are off: no enable of FPCTL is set. -/
def quiet (c : WCtx) : Prop := c.W.fpctl.extractLsb' 4 5 = 0#5

/-- The lanes a word computes in: all the active ones, for a uniform D the lowest (R35). -/
def worksIn (f : AluW) (c : WCtx) : List Nat := if isUniform f.d then (lanesOf c.lanes).take 1 else lanesOf c.lanes

/-- The gang after the exceptions `k` of its lanes have been ORed into FPCTL (R68). -/
def flagged (c : WCtx) (ls : List Nat) (k : Nat → Exc) : WCtx :=
  { c with W := { c.W with fpctl := c.W.fpctl ||| BitVec.ofNat 64 ((ls.foldl (fun a l => a ||| k l) Exc.none).toNat * 2 ^ 9) } }

/-- A word that computes one value with its exceptions in each lane completes when no exception is enabled: the flags
are ORed into FPCTL and the values written. -/
def GivesF (i : Instr) (f : AluW) (s : State) (srcs : List Regs) (n : Nat) (val : WCtx → Nat → Nat × Exc) : Prop :=
  i.wf = true → ∀ c, ready s f.g (fun c => c.begin srcs [Regs.ofW f.d n] (isUniform f.d)) = some c → quiet c →
    exec i s = .next ((flagged c (worksIn f c) fun l => (val c l).2).finish f.bnd f.d n fun l => (val c l).1)

/-- The environment of a float word: FPCTL's mode and FTZ, the word's scale and clamp (R60, R62, R69). -/
def envOf (f : AluW) (c : WCtx) : Env := ⟨c.W.rm, c.W.ftz, f.sc, f.cl⟩

/-- The lanes of slice i of a gang that a word's guard selects (R172). -/
def takenIn (c : WCtx) (i : Nat) : BitVec 4 := sliceLanes c.lanes i &&& (c.W.slice i).lmask

/-- A gang's word has retired: its wave counts the slices in WCLOCK and has taken no trap (R50). -/
def retired (s s' : State) (t w : Nat) (gang : BitVec 8) : Prop :=
  ∃ W W', wave? s t w = some W ∧ wave? s' t w = some W' ∧
    W'.wclock = W.wclock + BitVec.ofNat 64 (slicesOf gang).length ∧ W'.cause = W.cause ∧ W'.intrap = W.intrap

/-- A word that computes one value from at most three operands, whoever runs it: the operands it reads with their widths, the
immediate that stands for B, the registers of D, whether a context extends the result by sign, whether bits 6:4 keep their own
meaning in a context, and the value, under the environment, of what it reads. -/
structure Row where
  i : Instr
  a : Option (BitVec 8 × Nat) := none
  b : Option (BitVec 8 × Nat) := none
  c : Option (BitVec 8 × Nat) := none
  imm : Nat := 0
  n : Nat := 1
  sgn : Bool := false
  own : Bool := false
  val : Env → Nat → Nat → Nat → Nat × Exc

/-- What a word reads, and what it computes where `rd` reads an operand. -/
def Row.srcs (x : Row) : List (BitVec 8 × Nat) := x.a.toList ++ x.b.toList ++ x.c.toList
def Row.at (x : Row) (e : Env) (rd : BitVec 8 × Nat → Nat) : Nat × Exc := x.val e (x.a.elim 0 rd) (x.b.elim x.imm rd) (x.c.elim 0 rd)

/-- The integer words but IDOT4 (R139, R140, R142–R144, R146, R147). -/
def intRows (f : AluW) : List Row :=
  let t := ty3 f.var
  let w := intRegs t
  let n := intBits t
  let imm := immFlag f.var
  let x (v : Nat) : Int := intSrc t f.ma v
  let y (v : Nat) : Int := intSrc t f.mb v
  let z (v : Nat) : Int := intSrc t f.mc v
  let bv (v : Nat) : BitVec n := BitVec.ofNat n v
  let low : Int := if intSigned t then -2 ^ (n - 1) else 0
  let high : Int := if intSigned t then 2 ^ (n - 1) - 1 else 2 ^ n - 1
  let code (v : Int) : Nat :=
    if intSigned t then ((BitVec.ofInt n v).signExtend (if n = 64 then 64 else 32)).toNat else (BitVec.ofInt n v).toNat
  let sat (e : Int) : Nat := code (if f.cl then max low (min high e) else e)
  let off (k : Nat) : Nat := k % 256
  let top (k : Nat) : Nat := min (off k + k / 256 % 256) n
  let empty (k : Nat) : Bool := k / 256 % 256 == 0 || decide (n ≤ off k)
  let field (k : Nat) : BitVec n := BitVec.ofNat n (2 ^ top k - 2 ^ off k)
  let index (b : Nat) : BitVec 64 := if t = 0 then (BitVec.ofNat 32 b).signExtend 64 else (BitVec.ofNat 32 b).setWidth 64
  let word (i : Instr) (sgn : Bool) (wb : Nat) (v : Nat → Nat → Nat) : Row :=
    { i := i, a := some (f.a, w), b := if imm then none else some (f.b, wb), imm := intImm t f.imm, n := w, sgn := sgn,
      val := fun _ a b _ => (v a b, Exc.none) }
  let three (i : Instr) (sgn : Bool) (wb wc : Nat) (v : Nat → Nat → Nat → Nat) : Row :=
    { word i sgn wb (fun _ _ => 0) with c := some (f.c, wc), val := fun _ a b c => (v a b c, Exc.none) }
  let one (i : Instr) (k : Nat) (v : Nat → Nat) : Row :=
    { i := i, a := some (f.a, w), n := k, val := fun _ a _ _ => (v a, Exc.none) }
  let half (i : Instr) (v : Nat → Nat) : Row := { i := i, a := some (f.d, 1), val := fun _ a _ _ => (v a, Exc.none) }
  let s := intSigned t
  [word (.iadd f) s w fun a b => sat (x a + y b), word (.isub f) s w fun a b => sat (x a - y b),
   word (.imul f) s w fun a b => sat (x a * y b), word (.imulh f) s w fun a b => code (x a * y b / 2 ^ n),
   three (.imad f) s w w fun a b c => sat (x a * y b + z c), word (.imin f) s w fun a b => sat (min (x a) (y b)),
   word (.imax f) s w fun a b => sat (max (x a) (y b)), word (.iabsd f) false w fun a b => (x a - y b).natAbs % 2 ^ n,
   word (.idiv f) s w fun a b => code (if y b = 0 then -1 else Int.tdiv (x a) (y b)),
   word (.irem f) s w fun a b => code (if y b = 0 then x a else Int.tmod (x a) (y b)),
   word (.and f) false w fun a b => (bv a &&& bv b).toNat, word (.or f) false w fun a b => (bv a ||| bv b).toNat,
   word (.xor f) false w fun a b => (bv a ^^^ bv b).toNat, word (.andn f) false w fun a b => (bv a &&& ~~~ bv b).toNat,
   one (.popc f) 1 fun a => (List.range n).countP (bv a).getLsbD,
   one (.clz f) 1 fun a => ((List.range n).takeWhile fun i => !(bv a).getLsbD (n - 1 - i)).length,
   one (.brev f) w fun a => (bv a).reverse.toNat,
   word (.shl f) false 1 fun a b => (bv a <<< (b % 2 ^ 32)).toNat, word (.shr f) false 1 fun a b => (bv a >>> (b % 2 ^ 32)).toNat,
   word (.sar f) true 1 fun a b => ((bv a).sshiftRight (b % 2 ^ 32)).toNat,
   word (.rotl f) false 1 fun a b => ((bv a).rotateLeft (b % 2 ^ 32)).toNat,
   word (.bfe f) s 1 fun a k =>
     if empty k then 0
     else if s then (BitVec.signExtend n (BitVec.ofNat (top k - off k) ((bv a).toNat / 2 ^ off k))).toNat
     else (bv a).toNat / 2 ^ off k % 2 ^ (top k - off k),
   three (.bfi f) false w 1 fun a b k => if empty k then (bv b).toNat else ((bv b &&& ~~~field k) ||| ((bv a <<< off k) &&& field k)).toNat,
   { word (.lea f) false 1 (fun a b => (BitVec.ofNat 64 a + (index b <<< f.sc.toNat)).toNat) with a := some (f.a, 2), n := 2, own := true },
   { i := .mov f, a := if imm then none else some (f.a, w), imm := intImm t f.imm, n := w, sgn := s,
     val := fun _ a b _ => (intCode t (intValue t (if imm then b else a)), Exc.none) },
   half (.movl f) fun a => a - a % 65536 + f.imm.toNat,
   half (.movh f) fun a => a - a / 65536 % 65536 * 65536 + f.imm.toNat * 65536,
   three (.prmt f) false 1 w fun a b c => permuted a b c]

/-- The words that a lane of a callable evaluation has beside them (R121): IDOT4, the float words, the conversions, RNG. -/
def laneRows (f : AluW) : List Row :=
  let t := ty3 f.var
  let p := ftOf t
  let m : Mods := ⟨f.ma, f.mb, f.mc⟩
  let imm := immFlag f.var
  let src := (f.b.extractLsb' 0 4).toNat
  let mode (e : Env) : Env := ⟨roundOverride e.rm f.h, e.ftz, f.sc, f.cl⟩
  let word (i : Instr) (v : Env → Nat → Nat → Nat × Exc) : Row :=
    { i := i, a := some (f.a, 1), b := if imm then none else some (f.b, 1), imm := floatImm t f.imm, val := fun e a b _ => v e a b }
  let three (i : Instr) (v : Env → Nat → Nat → Nat → Nat × Exc) : Row :=
    { word i (fun _ _ _ => (0, Exc.none)) with c := some (f.c, 1), val := v }
  let one (i : Instr) (v : Env → Nat → Nat × Exc) : Row := { i := i, a := some (f.a, 1), val := fun e a _ _ => v e a }
  let all (i : Instr) (v : Env → Nat → Nat → Nat → Nat × Exc) : Row :=
    { i := i, a := some (f.a, 1), b := some (f.b, 1), c := some (f.c, 1), val := v }
  [{ three (.idot4 f) (fun _ a b c => (dotted (t = 6) f.cl a b c, Exc.none)) with imm := intImm t f.imm },
   word (.fadd f) fun e => fAdd p e m, word (.fsub f) fun e => fSub p e m, word (.fmul f) fun e => fMul p e m,
   three (.fma f) fun e => fFma p e m, word (.fmin f) fun e => fMin p e m, word (.fmax f) fun e => fMax p e m,
   one (.frcp f) fun e => float1 xrcp p e m, one (.fsqrt f) fun e => float1 xsqrt p e m, one (.frsq f) fun e => float1 xrsq p e m,
   one (.fexp2 f) fun e => float1 xexp2 p e m, one (.flog2 f) fun e => float1 xlog2 p e m,
   one (.fsinpi f) fun e => float1 xsinpi p e m, one (.fcospi f) fun e => float1 xcospi p e m, word (.fdiv f) fun e => fDiv p e m,
   one (.ffloor f) fun e => fIntegral p e.ftz RM.dn false f.ma, one (.fceil f) fun e => fIntegral p e.ftz RM.up false f.ma,
   one (.ftrunc f) fun e => fIntegral p e.ftz RM.tz false f.ma,
   one (.frint f) fun e => fIntegral p e.ftz (roundOverride e.rm f.h) true f.ma, one (.ffrac f) fun e => fFrac p e f.ma,
   { word (.fldexp f) (fun e a b => fLdexp p e f.ma a (toSigned 32 b)) with imm := ofSigned 32 (toSigned 16 f.imm.toNat) },
   one (.fclass f) fun _ a => (fClass p a, Exc.none), three (.fdot2 f) fun e => fDot2 p e m, three (.fdot4 f) fun e => fDot4 t e m,
   word (.hadd2 f) fun e => hAdd2 p e m, word (.hmul2 f) fun e => hMul2 p e m, three (.hfma2 f) fun e => hFma2 p e m,
   three (.fmed3 f) fun e => fMed3 p e m,
   { i := .cvt f, a := some (f.a, typeRegs src), c := if src == 5 then some (f.c, 1) else none, n := typeRegs f.var.toNat,
     val := fun e a _ c => cvt f.var.toNat src (f.b.getLsbD 4) (mode e) f.ma a c },
   all (.cvtq f) fun e a b c => cvtq f.var.toNat e.ftz a b c,
   all (.cvtdq f) fun e a b c => cvtdq f.var.toNat ⟨e.rm, e.ftz, 0#3, false⟩ a b c,
   { all (.pack f) (fun e a b c => fPack f.var.toNat (mode e) m a b c) with
     c := if packWidth f.var.toNat == 16 then none else some (f.c, 1) },
   { i := .unpk f, a := some (f.a, 1), b := if imm then none else some (f.b, 1), imm := f.imm.toNat,
     c := if t == 5 && !imm then some (f.c, 1) else none, val := fun e a b c => fUnpk t e.ftz a b c }]

/-- Where a word holds in C an operand that must exist once for the gang, or that only has to be a name (R74, R164). -/
def namedC (f : AluW) : Instr → Bool
  | .cvt _ => (f.b.extractLsb' 0 4).toNat != 5 || isUniform f.c || f.c == 0xF8#8
  | .unpk _ => !(ty3 f.var == 5 && !immFlag f.var) || isUniform f.c || f.c == 0xF8#8
  | .pack _ => (Regs.one f.c).laneOk
  | _ => true

/-- Two nodes of the reduction tree joined (R169), with their exceptions. -/
def joined (comb : Nat → Nat → Nat × Exc) : Option (Nat × Exc) → Option (Nat × Exc) → Option (Nat × Exc)
  | none, y => y
  | x, none => x
  | some x, some y => some ((comb x.1 y.1).1, x.2 ||| y.2 ||| (comb x.1 y.1).2)

/-- Node i of a level of the tree over the active lanes: absent where none is below it (R169). -/
def node (comb : Nat → Nat → Nat × Exc) (leaf : Nat → Nat) (on : LaneMask) : Nat → Nat → Option (Nat × Exc)
  | 0, i => if on.getLsbD i then some (leaf i, Exc.none) else none
  | k + 1, i => joined comb (node comb leaf on k (2 * i)) (node comb leaf on k (2 * i + 1))

/-- The lanes below n by the fewest aligned blocks, joined in ascending order (R170). -/
def below (comb : Nat → Nat → Nat × Exc) (leaf : Nat → Nat) (on : LaneMask) (n : Nat) : Option (Nat × Exc) :=
  ([5, 4, 3, 2, 1, 0].filter fun k => n.testBit k).foldl
    (fun x k => joined comb x (node comb leaf on k (n / 2 ^ (k + 1) * 2))) none

/-- The integer combination of lanes' values, each of 32 bits (R169, R170): the exact sum, the least, the greatest, or the
bitwise operation; of no lane at all the operation's identity. -/
def combined (t : Nat) (op : BitVec 3) (cl : Bool) (ls : List Nat) (a : Nat → Nat) (v : Nat) : Prop :=
  let val (l : Nat) : Int := intValue t (a l)
  match op.toNat with
  | 0 => v = intResult t cl (ls.foldl (fun e l => e + val l) 0)
  | 1 => (ls = [] → v = if t = 0 then 0x7FFFFFFF else 0xFFFFFFFF) ∧
      (ls ≠ [] → ∃ l ∈ ls, (∀ j ∈ ls, val l ≤ val j) ∧ v = (val l % 2 ^ 32).toNat)
  | 2 => (ls = [] → v = if t = 0 then 0x80000000 else 0) ∧
      (ls ≠ [] → ∃ l ∈ ls, (∀ j ∈ ls, val j ≤ val l) ∧ v = (val l % 2 ^ 32).toNat)
  | 3 => v < 2 ^ 32 ∧ ∀ b, b < 32 → v.testBit b = ls.all fun l => (a l).testBit b
  | 4 => v < 2 ^ 32 ∧ ∀ b, b < 32 → v.testBit b = ls.any fun l => (a l).testBit b
  | _ => v < 2 ^ 32 ∧ ∀ b, b < 32 → v.testBit b = (ls.countP (fun l => (a l).testBit b) % 2 == 1)

/-- How the word of a gang that reaches memory ends, once its lanes' accesses have left the state `s1`: with a lane that parks
the wave parks (R199); an acquire that waits for its value holds the gang (R354); else it retires, an acquire at cluster scope
or wider emptying the load cache. -/
def accessEnds (i : Instr) (s : State) (t w : Nat) (gang : BitVec 8) (bnd : Bool) (acc : Acc) (acq : Bool) (scope core : Nat)
    (plan : LanePlan) (s1 : State) : Prop :=
  (plan.parked ≠ [] → exec i s = .next (parkWave s1 t w gang acc plan.parked)) ∧
  (plan.parked = [] → acq = true → plan.ok ≠ [] →
    exec i s = .next (holdAt s1 t w gang (.async 0 bnd (.result (acquiresOf s1 (.wave t w)))))) ∧
  (plan.parked = [] → (acq = true → plan.ok = []) →
    let s' := modWave (if acq && decide (2 ≤ scope) then invalidate s1 core else s1) t w fun W => W.retire gang bnd
    exec i s = .next s' ∧ retired s s' t w gang)

/-- With no lane active, a word whose checks pass only retires (R28, R90). -/
def Idle (i : Instr) (s : State) (g : BitVec 4) (bnd legal : Bool) (check : WCtx → Except Stop WCtx) : Prop :=
  i.wf = true → legal = true → ∀ c, ready s g check = some c → c.lanes = 0 → exec i s = .next (c.retire c.W bnd)

/-- The checks of a word that reads the operands `srcs` and may write `dsts`: legal names, no result to come, no poison. -/
def opened (srcs dsts : List Regs) (uni : Bool) (c : WCtx) : Except Stop WCtx := do
  let d ← c.open srcs dsts uni
  d.checkPoison srcs
  .ok d

end Sys2Proof.Claims

open Sys2Proof Sys2Proof.Machine Sys2Proof.Claims

/-! Integer, predicate, float, conversion, cross-lane and paired words. -/

/-- R139 (with R132–R135, and IDIV and IREM of R146): the arithmetic words compute the exact value of their sources read as the type, clamped to
the type's range under CL and taken modulo 2^n otherwise, in every active lane, and write it at its width: a pair for 64 bits, and for 8 and 16 bits
extended to 32 by the type's sign (IABSD always by zero). The bitwise words, POPC, CLZ and BREV act on the n bits.

Completes: iadd, isub, imul, imulh, imad, imin, imax, iabsd, and, or, xor, andn, clz, popc, brev, idiv, irem. -/
def Obligations.IntegerArithmeticCompletes : Prop :=
  ∀ (s : State) (f : AluW),
    let t := ty3 f.var
    let w := intRegs t
    let n := intBits t
    let x (c : WCtx) (l : Nat) : Int := intSrc t f.ma (opA f w c l)
    let y (c : WCtx) (l : Nat) : Int := intSrc t f.mb (opB f w (intImm t f.imm) c l)
    let z (c : WCtx) (l : Nat) : Int := intSrc t f.mc (opC f w c l)
    let a (c : WCtx) (l : Nat) : BitVec n := BitVec.ofNat n (opA f w c l)
    let b (c : WCtx) (l : Nat) : BitVec n := BitVec.ofNat n (opB f w (intImm t f.imm) c l)
    let low : Int := if intSigned t then -2 ^ (n - 1) else 0
    let high : Int := if intSigned t then 2 ^ (n - 1) - 1 else 2 ^ n - 1
    let code (v : Int) : Nat :=
      if intSigned t then ((BitVec.ofInt n v).signExtend (if n = 64 then 64 else 32)).toNat else (BitVec.ofInt n v).toNat
    let sat (e : Int) : Nat := code (if f.cl then max low (min high e) else e)
    Gives (.iadd f) f s (srcs2 f w w) w (fun c l => sat (x c l + y c l)) ∧
    Gives (.isub f) f s (srcs2 f w w) w (fun c l => sat (x c l - y c l)) ∧
    Gives (.imul f) f s (srcs2 f w w) w (fun c l => sat (x c l * y c l)) ∧
    Gives (.imulh f) f s (srcs2 f w w) w (fun c l => code (x c l * y c l / 2 ^ n)) ∧
    Gives (.imad f) f s (srcs3 f w w w) w (fun c l => sat (x c l * y c l + z c l)) ∧
    Gives (.imin f) f s (srcs2 f w w) w (fun c l => sat (min (x c l) (y c l))) ∧
    Gives (.imax f) f s (srcs2 f w w) w (fun c l => sat (max (x c l) (y c l))) ∧
    Gives (.iabsd f) f s (srcs2 f w w) w (fun c l => (x c l - y c l).natAbs % 2 ^ n) ∧
    Gives (.idiv f) f s (srcs2 f w w) w (fun c l => code (if y c l = 0 then -1 else Int.tdiv (x c l) (y c l))) ∧
    Gives (.irem f) f s (srcs2 f w w) w (fun c l => code (if y c l = 0 then x c l else Int.tmod (x c l) (y c l))) ∧
    Gives (.and f) f s (srcs2 f w w) w (fun c l => (a c l &&& b c l).toNat) ∧
    Gives (.or f) f s (srcs2 f w w) w (fun c l => (a c l ||| b c l).toNat) ∧
    Gives (.xor f) f s (srcs2 f w w) w (fun c l => (a c l ^^^ b c l).toNat) ∧
    Gives (.andn f) f s (srcs2 f w w) w (fun c l => (a c l &&& ~~~ b c l).toNat) ∧
    Gives (.popc f) f s (srcs1 f w) 1 (fun c l => (List.range n).countP (a c l).getLsbD) ∧
    Gives (.clz f) f s (srcs1 f w) 1 (fun c l => ((List.range n).takeWhile fun i => !(a c l).getLsbD (n - 1 - i)).length) ∧
    Gives (.brev f) f s (srcs1 f w) w (fun c l => (a c l).reverse.toNat)

/-- R140 (shifts and ROTL: n bits, the count an unsigned number, 0 or copies of the sign past n), R142 (BFE and BFI), R143 (LEA: a pair plus the index,
by its type's sign, times 2^sh, modulo 2^64), R144 (PRMT: each byte the one its
selector names of the eight of A and B, 0, or eight copies of that byte's bit 7 or 0), R145 (IDOT4: C plus the products of the bytes, exact, then
clamped or modulo 2^32), R147 (MOV, MOVL, MOVH), R148 (SEL).

Completes: shl, shr, sar, rotl, bfe, bfi, lea, sel, mov, movl, movh, prmt, idot4. -/
def Obligations.BitwiseWordsComplete : Prop :=
  ∀ (s : State) (f : AluW),
    let t := ty3 f.var
    let w := intRegs t
    let n := intBits t
    let a (c : WCtx) (l : Nat) : BitVec n := BitVec.ofNat n (opA f w c l)
    let b (c : WCtx) (l : Nat) : BitVec n := BitVec.ofNat n (opB f w (intImm t f.imm) c l)
    let b1 (c : WCtx) (l : Nat) : Nat := opB f 1 (intImm t f.imm) c l
    let shift (c : WCtx) (l : Nat) : Nat := b1 c l % 2 ^ 32
    let index (c : WCtx) (l : Nat) : BitVec 64 :=
      if t = 0 then (BitVec.ofNat 32 (b1 c l)).signExtend 64 else (BitVec.ofNat 32 (b1 c l)).setWidth 64
    let off (k : Nat) : Nat := k % 256
    let top (k : Nat) : Nat := min (off k + k / 256 % 256) n
    let empty (k : Nat) : Bool := k / 256 % 256 == 0 || decide (n ≤ off k)
    let field (k : Nat) : BitVec n := BitVec.ofNat n (2 ^ top k - 2 ^ off k)
    Gives (.shl f) f s (srcs2 f w 1) w (fun c l => (a c l <<< shift c l).toNat) ∧
    Gives (.shr f) f s (srcs2 f w 1) w (fun c l => (a c l >>> shift c l).toNat) ∧
    Gives (.sar f) f s (srcs2 f w 1) w (fun c l => ((a c l).sshiftRight (shift c l)).toNat) ∧
    Gives (.rotl f) f s (srcs2 f w 1) w (fun c l => ((a c l).rotateLeft (shift c l)).toNat) ∧
    Gives (.bfe f) f s (srcs2 f w 1) w (fun c l =>
      let k := b1 c l
      if empty k then 0
      else if intSigned t then (BitVec.signExtend n (BitVec.ofNat (top k - off k) ((a c l).toNat / 2 ^ off k))).toNat
      else (a c l).toNat / 2 ^ off k % 2 ^ (top k - off k)) ∧
    Gives (.bfi f) f s (srcs3 f w w 1) w (fun c l =>
      let k := opC f 1 c l
      if empty k then (b c l).toNat else ((b c l &&& ~~~ field k) ||| ((a c l <<< off k) &&& field k)).toNat) ∧
    Gives (.lea f) f s (srcs2 f 2 1) 2 (fun c l => (BitVec.ofNat 64 (opA f 2 c l) + (index c l <<< f.sc.toNat)).toNat) ∧
    Gives (.mov f) f s (if immFlag f.var then [] else srcs1 f w) w
      (fun c l => intCode t (intValue t (if immFlag f.var then intImm t f.imm else opA f w c l))) ∧
    Gives (.movl f) f s [Regs.ofW f.d 1] 1
      (fun c l => c.regN f.d 1 l - c.regN f.d 1 l % 65536 + f.imm.toNat) ∧
    Gives (.movh f) f s [Regs.ofW f.d 1] 1
      (fun c l => c.regN f.d 1 l - c.regN f.d 1 l / 65536 % 65536 * 65536 + f.imm.toNat * 65536) ∧
    Gives (.prmt f) f s (srcs3 f w 1 w) w (fun c l => permuted (opA f w c l) (b1 c l) (opC f w c l)) ∧
    Gives (.idot4 f) f s (srcs3 f w 1 w) w (fun c l => dotted (t = 6) f.cl (opA f w c l) (b1 c l) (opC f w c l)) ∧
    (predCode f.c = true → Gives (.sel f) f s (srcs2 f w w) w
      (fun c l => ((if (c.W.pred f.c.toNat).getLsbD l then a c l else b c l)).toNat))

/-- R141, R148–R150: the words that write predicates. IADDC adds the carry named by C and writes the carry out to it: in
each active lane its own, from a uniform D that of the one sum.

Completes: iaddc, icmp, pand, por, pxor, pnot, pmov, pset, pget. -/
def Obligations.PredicateWordsComplete : Prop :=
  ∀ (s : State) (f : AluW),
    let t := ty3 f.var
    let w := intRegs t
    let x (c : WCtx) (l : Nat) : Int := intSrc t f.ma (opA f w c l)
    let y (c : WCtx) (l : Nat) : Int := intSrc t f.mb (opB f w (intImm t f.imm) c l)
    let pr (c : WCtx) (n : BitVec 8) (l : Nat) : Bool := (c.W.pred n.toNat).getLsbD l
    let sum (c : WCtx) (l : Nat) : Nat :=
      opA f w c l % 2 ^ intBits t + opB f w (intImm t f.imm) c l % 2 ^ intBits t + (pr c f.c l).toNat
    let two (i : Instr) (op : Bool → Bool → Bool) : Prop :=
      i.wf = true → ∀ c, ready s f.g .ok = some c →
        exec i s = .next (c.retire (c.W.putPred f.d.toNat c.lanes (maskOf fun l => op (pr c f.a l) (pr c f.b l))) f.bnd)
    (predCode f.d = true → Decides (.icmp f) f s (srcs2 f w w) (fun c l => iCmp f.sc (x c l) (y c l))) ∧
    Decides (.pset f) f s [Regs.ofW f.a 1] (fun c l => if isUniform f.a then bit (opA f 1 c l) (l % 32) else opA f 1 c l != 0) ∧
    two (.pand f) (fun p q => p && q) ∧ two (.por f) (fun p q => p || q) ∧ two (.pxor f) (fun p q => p != q) ∧
    two (.pnot f) (fun p _ => !p) ∧ two (.pmov f) (fun p _ => p) ∧
    ((Instr.pget f).wf = true → ∀ c, ready s f.g (fun c => c.begin [] [.one f.d] false) = some c →
      exec (.pget f) s = .next (c.finish f.bnd f.d 1 fun _ => (c.W.pred f.a.toNat &&& c.lanes).toNat)) ∧
    ((Instr.iaddc f).wf = true → predCode f.c = true → ∀ c, ready s f.g (fun c => c.begin (srcs2 f w w) [Regs.ofW f.d w] (isUniform f.d)) = some c →
      let W1 := (worksIn f c).foldl (fun W l => W.putRegs f.d w l (sum c l % 2 ^ intBits t)) c.W
      let out : LaneMask :=
        if isUniform f.d then (if c.lanes != 0 && 2 ^ intBits t ≤ sum c (lowLane c.lanes) then BitVec.allOnes 32 else 0)
        else lanesWhere c fun l => 2 ^ intBits t ≤ sum c l
      exec (.iaddc f) s = .next (c.done (W1.putPred f.c.toNat c.lanes out) f.bnd (some f.d) fun l =>
        if c.lanes.getLsbD l then sum c l % 2 ^ intBits t else 0))

/-- R153–R161, R67: the float words deliver their result in every active lane and OR the exceptions of those lanes into FPCTL
when none of them is enabled. The results are given through the operations of the number formats (R55–R66, R84).

Completes: fadd, fsub, fmul, fma, fmin, fmax, fcmp, fclass, frcp, fsqrt, frsq, fexp2, flog2, fsinpi, fcospi, fdiv, ffloor,
fceil, ftrunc, frint, ffrac, fldexp, fdot2, fdot4, hadd2, hmul2, hfma2, fmed3. -/
def Obligations.FloatWordsComplete : Prop :=
  ∀ (s : State) (f : AluW),
    let p := ftOf (ty3 f.var)
    let m : Mods := ⟨f.ma, f.mb, f.mc⟩
    let a (c : WCtx) (l : Nat) : Nat := opA f 1 c l
    let b (c : WCtx) (l : Nat) : Nat := opB f 1 (floatImm (ty3 f.var) f.imm) c l
    let z (c : WCtx) (l : Nat) : Nat := opC f 1 c l
    let one (i : Instr) (op : XV → XV × Exc) : Prop :=
      GivesF i f s (srcs1 f 1) 1 fun c l => float1 op p (envOf f c) m (a c l)
    let two (i : Instr) (op : FT → Env → Mods → Nat → Nat → Nat × Exc) : Prop :=
      GivesF i f s (srcs2 f 1 1) 1 fun c l => op p (envOf f c) m (a c l) (b c l)
    let three (i : Instr) (op : FT → Env → Mods → Nat → Nat → Nat → Nat × Exc) : Prop :=
      GivesF i f s (srcs3 f 1 1 1) 1 fun c l => op p (envOf f c) m (a c l) (b c l) (z c l)
    let whole (i : Instr) (rm : RM → RM) (rint : Bool) : Prop :=
      GivesF i f s (srcs1 f 1) 1 fun c l => fIntegral p c.W.ftz (rm c.W.rm) rint f.ma (a c l)
    two (.fadd f) fAdd ∧ two (.fsub f) fSub ∧ two (.fmul f) fMul ∧ three (.fma f) fFma ∧ two (.fmin f) fMin ∧
    two (.fmax f) fMax ∧ one (.frcp f) xrcp ∧ one (.fsqrt f) xsqrt ∧ one (.frsq f) xrsq ∧ one (.fexp2 f) xexp2 ∧
    one (.flog2 f) xlog2 ∧ one (.fsinpi f) xsinpi ∧ one (.fcospi f) xcospi ∧ two (.fdiv f) fDiv ∧
    whole (.ffloor f) (fun _ => RM.dn) false ∧ whole (.fceil f) (fun _ => RM.up) false ∧
    whole (.ftrunc f) (fun _ => RM.tz) false ∧ whole (.frint f) (fun r => roundOverride r f.h) true ∧
    GivesF (.ffrac f) f s (srcs1 f 1) 1 (fun c l => fFrac p (envOf f c) f.ma (a c l)) ∧
    GivesF (.fldexp f) f s (srcs2 f 1 1) 1 (fun c l => fLdexp p (envOf f c) f.ma (a c l)
      (toSigned 32 (opB f 1 (ofSigned 32 (toSigned 16 f.imm.toNat)) c l))) ∧
    GivesF (.fclass f) f s (srcs1 f 1) 1 (fun c l => (fClass p (a c l), Exc.none)) ∧
    three (.fdot2 f) fDot2 ∧
    GivesF (.fdot4 f) f s (srcs3 f 1 1 1) 1 (fun c l => fDot4 (ty3 f.var) (envOf f c) m (a c l) (b c l) (z c l)) ∧
    two (.hadd2 f) hAdd2 ∧ two (.hmul2 f) hMul2 ∧ three (.hfma2 f) hFma2 ∧ three (.fmed3 f) fMed3 ∧
    ((Instr.fcmp f).wf = true → predCode f.d = true → ∀ c, ready s f.g (fun c => c.begin (srcs2 f 1 1) [] false) = some c → quiet c →
      let r (l : Nat) : Bool × Exc := fCmp p c.W.ftz m f.sc (a c l) (b c l)
      let d := flagged c (lanesOf c.lanes) fun l => (r l).2
      exec (.fcmp f) s = .next (d.retire (d.W.putPred f.d.toNat c.lanes (lanesWhere c fun l => (r l).1)) f.bnd))

/-- R68, R181, R423: with an enabled exception raised, a float word writes nothing: the gang takes the trap of the lowest
cause among the exceptions raised and enabled (R68), with the lanes that raised it, the enabled exceptions raised and whether half 1
raised it as the argument. Stated of FADD, FMUL, FMA and FDIV. -/
def Obligations.EnabledFloatExceptionTraps : Prop :=
  ∀ (s : State) (t w : Nat) (gang : BitVec 8) (f : AluW) (c : WCtx),
    s.cur = .wave t w gang →
    let p := ftOf (ty3 f.var)
    let m : Mods := ⟨f.ma, f.mb, f.mc⟩
    let a (l : Nat) : Nat := opA f 1 c l
    let b (l : Nat) : Nat := opB f 1 (floatImm (ty3 f.var) f.imm) c l
    let traps (i : Instr) (srcs : List Regs) (k : Nat → Exc) : Prop :=
      i.wf = true → ready s f.g (fun c => c.begin srcs [Regs.ofW f.d 1] (isUniform f.d)) = some c →
      let ls := worksIn f c
      let on := (ls.foldl (fun e l => e ||| k l) Exc.none) &&& c.W.fpctl.extractLsb' 4 5
      ∀ n, (List.range 5).find? (fun n => on.getLsbD n) = some n →
        exec i s = .next (takeTrap s t w gang (fpCause n)
          (BitVec.ofNat 64 ((maskOf fun l => ls.contains l && (k l).getLsbD n).toNat + on.toNat * 2 ^ 32)))
    traps (.fadd f) (srcs2 f 1 1) (fun l => (fAdd p (envOf f c) m (a l) (b l)).2) ∧
    traps (.fmul f) (srcs2 f 1 1) (fun l => (fMul p (envOf f c) m (a l) (b l)).2) ∧
    traps (.fma f) (srcs3 f 1 1 1) (fun l => (fFma p (envOf f c) m (a l) (b l) (opC f 1 c l)).2) ∧
    traps (.fdiv f) (srcs2 f 1 1) (fun l => (fDiv p (envOf f c) m (a l) (b l)).2)

/-- R85–R87, R162–R165: the conversions.

Completes: cvt, cvtq, cvtdq, pack, unpk. -/
def Obligations.ConversionWordsComplete : Prop :=
  ∀ (s : State) (f : AluW),
    let t := ty3 f.var
    let src := (f.b.extractLsb' 0 4).toNat
    let m : Mods := ⟨f.ma, f.mb, f.mc⟩
    let env (c : WCtx) : Env := ⟨roundOverride c.W.rm f.h, c.W.ftz, f.sc, f.cl⟩
    let all3 : List Regs := [Regs.ofW f.a 1, Regs.ofW f.b 1, Regs.ofW f.c 1]
    ((src == 5) = true → (isUniform f.c || f.c == 0xF8#8) = true →
      GivesF (.cvt f) f s [Regs.ofW f.a (typeRegs src), Regs.ofW f.c 1] (typeRegs f.var.toNat)
        fun c l => cvt f.var.toNat src (f.b.getLsbD 4) (env c) f.ma (opA f (typeRegs src) c l) (opC f 1 c l)) ∧
    ((src == 5) = false →
      GivesF (.cvt f) f s [Regs.ofW f.a (typeRegs src)] (typeRegs f.var.toNat)
        fun c l => cvt f.var.toNat src (f.b.getLsbD 4) (env c) f.ma (opA f (typeRegs src) c l) 0) ∧
    GivesF (.cvtq f) f s all3 1 (fun c l => cvtq f.var.toNat c.W.ftz (opA f 1 c l) (c.regN f.b 1 l) (opC f 1 c l)) ∧
    GivesF (.cvtdq f) f s all3 1 (fun c l =>
      cvtdq f.var.toNat ⟨c.W.rm, c.W.ftz, 0#3, false⟩ (opA f 1 c l) (c.regN f.b 1 l) (opC f 1 c l)) ∧
    ((packWidth f.var.toNat == 16) = false →
      GivesF (.pack f) f s all3 1 fun c l => fPack f.var.toNat (env c) m (opA f 1 c l) (c.regN f.b 1 l) (opC f 1 c l)) ∧
    ((packWidth f.var.toNat == 16) = true → (∀ c, ready s f.g .ok = some c → (Regs.one f.c).srcOk c.T.nregs = true) →
      GivesF (.pack f) f s [Regs.ofW f.a 1, Regs.ofW f.b 1] 1
        fun c l => fPack f.var.toNat (env c) m (opA f 1 c l) (c.regN f.b 1 l) 0) ∧
    ((t == 5 && !immFlag f.var) = true → (isUniform f.c || f.c == 0xF8#8) = true →
      GivesF (.unpk f) f s (srcs3 f 1 1 1) 1 fun c l => fUnpk t c.W.ftz (opA f 1 c l) (opB f 1 f.imm.toNat c l) (opC f 1 c l)) ∧
    ((t == 5 && !immFlag f.var) = false →
      GivesF (.unpk f) f s (srcs2 f 1 1) 1 fun c l => fUnpk t c.W.ftz (opA f 1 c l) (opB f 1 f.imm.toNat c l) 0)

/-- R151, R167, R168, R171: the lane moves, VOTE and MATCH read every lane before they write any.

R169, R170: REDUX and SCAN complete when no exception is enabled, over the active lanes' values (for SCAN those up to the
lane, in the exclusive form below it). An integer operation delivers their exact sum, saturated under CL and modulo 2^32
otherwise, their least, their greatest or their bitwise combination, whatever the shape of the tree; a float one what the tree
of R169 gives, a lone value read and written as a float, and the flags of all its nodes are ORed into FPCTL. With no lane
below, SCAN delivers the identity.

Completes: rfl, rdlane, wrlane, shfl, vote, redux, scan, matchl. -/
def Obligations.LaneWordsComplete : Prop :=
  (∀ (s : State) (f : AluW),
      let n := wideRegs (f.var.getLsbD 0)
      let nb : List Regs := if immFlag f.var then [] else [Regs.one f.b]
      let num (c : WCtx) : Nat := (if immFlag f.var then f.imm.toNat else c.reg f.b (lowLane c.lanes)) % 32
      let votes (c : WCtx) : LaneMask := c.W.pred f.a.toNat &&& c.lanes
      ((Instr.rfl f).wf = true → ∀ c, ready s f.g (fun c => c.begin [.ofW f.a n] [.ofW f.d n] false) = some c →
        exec (.rfl f) s = .next (c.finish f.bnd f.d n fun _ => c.regN f.a n (lowLane c.lanes))) ∧
      ((Instr.rdlane f).wf = true → isUniform f.d = true → (nb.all fun r => uniformSrc r.code) = true →
        ∀ c, ready s f.g (fun c => c.begin (.ofW f.a n :: nb) [.ofW f.d n] false) = some c → c.lanes ≠ 0 →
        ({ c with lanes := maskOf (· == num c) }).poisonLanes (.ofW f.a n) = 0#32 →
        exec (.rdlane f) s = .next (c.finish f.bnd f.d n fun _ => c.regN f.a n (num c))) ∧
      ((Instr.wrlane f).wf = true → isVector f.d = true → ((Regs.ofW f.a n :: nb).all fun r => uniformSrc r.code) = true →
        ∀ c, ready s f.g (fun c => c.begin (.ofW f.a n :: nb) [.ofW f.d n] false) = some c →
        exec (.wrlane f) s = .next (c.retire (if c.lanes.getLsbD (num c)
          then c.W.putRegs f.d n (num c) (c.regN f.a n (lowLane c.lanes)) else c.W) f.bnd)) ∧
      ((Instr.shfl f).wf = true →
        let k := wideRegs (f.var.getLsbD 2)
        ∀ c, ready s f.g (fun c => c.begin (Regs.ofW f.a k :: if immFlag f.var then [] else [Regs.one f.b, Regs.ofW f.c k])
          [.ofW f.d k] (isUniform f.d)) = some c →
        exec (.shfl f) s = .next (c.finish f.bnd f.d k fun l =>
          let j := shflLane (f.var.toNat % 4) l (if immFlag f.var then f.imm.toNat else c.reg f.b l)
          if 0 ≤ j && j ≤ 31 && c.lanes.getLsbD j.toNat then c.regN f.a k j.toNat
          else if immFlag f.var then 0 else c.regN f.c k l)) ∧
      ((Instr.vote f).wf = true → f.var.toNat % 8 < 3 → ∀ c, ready s f.g .ok = some c → c.lanes ≠ 0 →
        let yes := match f.var.toNat % 8 with
          | 0 => votes c == c.lanes
          | 1 => votes c != 0
          | _ => votes c == c.lanes || votes c == 0
        exec (.vote f) s = .next (c.retire
          (c.W.putPred f.d.toNat c.lanes (if yes then BitVec.allOnes 32 else 0)) f.bnd)) ∧
      ((Instr.vote f).wf = true → 3 ≤ f.var.toNat % 8 → ∀ c, ready s f.g (fun c => c.begin [] [.one f.d] false) = some c →
        exec (.vote f) s = .next (c.finish f.bnd f.d 1 fun _ => match f.var.toNat % 8 with
          | 3 => (votes c).toNat
          | 4 => (lanesOf (votes c)).length
          | _ => ((lanesOf (votes c)).head?).getD 0xFFFF_FFFF)) ∧
      ((Instr.matchl f).wf = true → isVector f.d = true →
        ∀ c, ready s f.g (fun c => c.begin [.ofW f.a n] [.one f.d] false) = some c →
        exec (.matchl f) s = .next (c.finish f.bnd f.d 1 fun l =>
          let grp := maskOf fun j => c.lanes.getLsbD j && c.regN f.a n j == c.regN f.a n l
          if f.var.getLsbD 1 then lowLane grp + (lanesOf grp).length * 256 + (if lowLane grp == l then 32768 else 0)
          else grp.toNat))) ∧
  (∀ (s : State) (f : AluW),
      let t := ty3 f.var
      let comb (c : WCtx) : Nat → Nat → Nat × Exc :=
        (if f.sc = 0#3 then fAdd else if f.sc = 1#3 then fMin else fMax) .f32 ⟨c.W.rm, c.W.ftz, 0#3, false⟩ ⟨0#2, 0#2, 0#2⟩
      let single (c : WCtx) (ls : List Nat) (r : Nat × Exc) : Nat × Exc := if ls.length = 1 then fLone c.W.ftz r.1 else r
      ((Instr.redux f).wf = true → ∀ c, ready s f.g (fun c => c.begin [.one f.a] [.one f.d] false) = some c → quiet c →
        c.lanes ≠ 0 →
        ∃ (v : Nat) (fp : DWord), exec (.redux f) s = .next (({ c with W := { c.W with fpctl := fp } }).finish f.bnd f.d 1 fun _ => v) ∧
          (t ≠ 4 → fp = c.W.fpctl ∧ combined t f.sc f.cl (lanesOf c.lanes) (c.reg f.a) v) ∧
          (t = 4 → ∀ r, node (comb c) (c.reg f.a) c.lanes 5 0 = some r →
            let o := single c (lanesOf c.lanes) r
            v = o.1 ∧ fp = (flagged c [0] fun _ => o.2).W.fpctl)) ∧
      ((Instr.scan f).wf = true → isVector f.d = true →
        ∀ c, ready s f.g (fun c => c.begin [.one f.a] [.one f.d] false) = some c → quiet c →
        let under (l : Nat) : List Nat := (lanesOf c.lanes).filter fun j => j < l || (j == l && !immFlag f.var)
        ∃ (v : Nat → Nat) (fp : DWord), exec (.scan f) s = .next (({ c with W := { c.W with fpctl := fp } }).finish f.bnd f.d 1 v) ∧
          (t ≠ 4 → fp = c.W.fpctl ∧ ∀ l, c.lanes.getLsbD l = true → combined t f.sc f.cl (under l) (c.reg f.a) (v l)) ∧
          (t = 4 →
            let o (l : Nat) : Nat × Exc := match below (comb c) (c.reg f.a) c.lanes (if immFlag f.var then l else l + 1) with
              | some r => single c (under l) r
              | none => (if f.sc = 0#3 then 0 else if f.sc = 1#3 then 0x7F800000 else 0xFF800000, Exc.none)
            fp = (flagged c (lanesOf c.lanes) fun l => (o l).2).W.fpctl ∧ ∀ l, c.lanes.getLsbD l = true → v l = (o l).1)))

/-- R111–R113: both halves of a paired word read before either writes, their flags go to FPCTL together, and D0 and D1 take
their results; a half whose D is mb sends its own.

Completes: pairedWord. -/
def Obligations.PairedWordCompletes : Prop :=
  ∀ (s : State) (f : PairW), (Instr.pairedWord f).wf = true → badPair f.h0 f.h1 = false →
    ∀ c, ready s 0#4 (fun c => c.begin ((halfSrcs f.h0 ++ halfSrcs f.h1).map Regs.one) [Regs.one f.h0.d, Regs.one f.h1.d] false) =
      some c → quiet c →
    let e : Env := ⟨c.W.rm, c.W.ftz, 0#3, false⟩
    let r0 (l : Nat) : Nat × Exc := halfOp f.h0 e (c.reg f.h0.a l) (c.reg f.h0.b l) (c.reg f.h0.d l)
    let r1 (l : Nat) : Nat × Exc := halfOp f.h1 e (c.reg f.h1.a l) (c.reg f.h1.b l) (c.reg f.h1.d l)
    let d := flagged c (lanesOf c.lanes) fun l => (r0 l).2 ||| (r1 l).2
    let mb (h : Half) : Bool := h.d == 0xFE#8
    exec (.pairedWord f) s = .next (d.done
      ((lanesOf c.lanes).foldl (fun W l => (W.putReg f.h0.d l (r0 l).1).putReg f.h1.d l (r1 l).1) d.W) f.bnd
      (if mb f.h0 || mb f.h1 then some 0xFE#8 else none) fun l => (if mb f.h0 then r0 l else r1 l).1)

/-- R27, R33–R35, R38, R445: what a computing word of a wave does before its effect. With no pop, no message and every
check passed it changes nothing; a register it may not name, or a source that does not exist once for the gang on the
uniform datapath, raises ILLEGAL_ENC; a result still to come holds it; poison in an active lane raises POISON with the
operand code of the first source that is poisoned in the lowest such lane, and that source's lanes.

R28, R90: with no lane active, the words that act once for their gang, or once for each lane, retire and do nothing else. -/
def Obligations.OperandChecks : Prop :=
  (∀ (c : WCtx) (srcs dsts : List Regs) (uni : Bool),
    let named := srcs.all (Regs.srcOk c.T.nregs) && dsts.all (Regs.dstOk c.T.nregs)
    let once := !uni || srcs.all fun r => uniformSrc r.code
    let plain := (srcs.all fun r => popCodes [r] == []) && dsts.all fun r => r.code != 0xFE#8
    (named = false → c.begin srcs dsts uni = .error (.trap .illegalEnc 0)) ∧
    (named = true → once = false → c.begin srcs dsts uni = .error (.trap .illegalEnc 0)) ∧
    (named = true → once = true → c.W.busyAny (srcs ++ dsts) = true → c.begin srcs dsts uni = .error (.wait (.result (c.W.busyOn (srcs ++ dsts))) c.s)) ∧
    (named = true → once = true → c.W.busyAny (srcs ++ dsts) = false → plain = true →
      ((∀ r ∈ srcs, c.poisonLanes r = 0) → c.begin srcs dsts uni = .ok c) ∧
      (∀ r l, (∀ q ∈ srcs, ∀ k, k < l → (c.poisonLanes q).getLsbD k = false) →
        srcs.find? (fun r => (c.poisonLanes r).getLsbD l) = some r → c.begin srcs dsts uni =
          .error (.trap .poison (BitVec.ofNat 64 ((c.poisonLanes r).toNat + r.code.toNat * 2 ^ 32)))))) ∧
  (∀ (s : State) (f : SysW),
    let u (l : List (BitVec 8)) : Bool := l.all uniOrZ
    let imm := immFlag f.var
    let idle (i : Instr) (uni : List (BitVec 8)) (srcs dsts : List Regs) (once : Bool) : Prop :=
      Idle i s f.g f.bnd (u uni) fun c => c.open srcs dsts once
    let matrix (i : Instr) (uni : List (BitVec 8)) (srcs dsts : List Regs) : Prop :=
      Idle i s f.g f.bnd (u uni) fun c => do
        let d ← c.open srcs dsts false
        trapIf (d.T.naccs ≤ SysW.tile f) .illegalEnc
        .ok d
    let ray (i : Instr) (uni : List (BitVec 8)) (srcs dsts : List Regs) : Prop :=
      Idle i s f.g f.bnd (u uni && ((srcs ++ dsts).filter fun r => 3 ≤ r.n).all fun r => isVector r.code) fun c => c.open srcs dsts false
    idle (.halloc f) [f.d, f.a] [.one f.a] [.pair f.d] true ∧ idle (.hfree f) [f.a] [.pair f.a] [] true ∧
    idle (.cbinit f) (f.a :: if imm then [] else [f.b]) (cbSrcs f) [] true ∧ idle (.cbarv f) (f.d :: f.a :: if imm then [] else [f.b]) (cbSrcs f) [.one f.d] true ∧
    idle (.cbwait f) (f.a :: if imm then [] else [f.b]) (cbSrcs f) [] true ∧
    idle (.tlwait f) [f.a, f.b] [.one f.a, .pair f.b] [] true ∧ idle (.tlread f) [f.a, f.d] [.one f.a] [.pair f.d] true ∧
    idle (.cpy f) [f.d, f.a, f.b, f.c] [if f.var = 2#4 then .one f.a else .pair f.a, .one f.b, .one f.c] [.pair f.d] true ∧
    idle (.mcast f) [f.d, f.a, f.b, f.c] [.pair f.a, .one f.b, .one f.c] [.pair f.d] true ∧
    idle (.cexec f) [f.d, f.a, f.b] [.pair f.a, .one f.b, .block f.c 8 1] [.one f.d] true ∧
    idle (.ceqry f) [f.d, f.a] [.one f.a] [.pair f.d] true ∧ idle (.ceqryArg f) [f.d, f.a] [.one f.a] [.pair f.d] true ∧
    idle (.iscfg f) [] [.block f.a 8 1] [] true ∧ Idle (.qclose f) s f.g f.bnd true .ok ∧
    idle (.emitr f) [f.d, f.a] [.one f.a] [.pair f.d] true ∧ idle (.emit f) [f.a] [.pair f.a] [] true ∧ idle (.decline f) [] [.one f.a] [] true ∧
    idle (.mxldw f) [f.a, f.b, f.c] [sourceRegs (f.var.getLsbD 3) f.a, .quad f.b, .one f.c] [] false ∧ matrix (.mxzero f) [] [] [] ∧ matrix (.mxrdStat f) [f.d] [] [.one f.d] ∧
    matrix (.mxloop f) [f.d, f.a, f.b, f.c] [sourceRegs (f.var.getLsbD 3) f.d, .one f.a, .pair f.b, .quad f.c] [] ∧
    matrix (.mxspl f) [f.d, f.a, f.b, f.c] [sourceRegs (f.var.getLsbD 3) f.d, .one f.a, .quad f.b, .quad f.c] [] ∧
    matrix (.mxdrain f) [f.d, f.a, f.b] (drainSrcs f) [] ∧ matrix (.jchain f) [f.d, f.a] [.pair f.a] [.one f.d] ∧
    idle (.mxfence f) [f.d] [] [.pair f.d] false ∧ idle (.jsend f) [f.d, f.a] [.one f.a] [.pair f.d] false ∧
    idle (.jrecv f) [f.d, f.a] [.one f.a] [.pair f.d] false ∧ idle (.jclose f) [f.a] [.one f.a] [] false ∧ idle (.jabort f) [f.a] [.one f.a] [] false ∧
    ray (.rtbox f) [] [.block f.a 8 8, .pair f.b] [.block f.d 9 4] ∧ ray (.rttri f) [] [.block f.a 8 8, .pair f.b] [.block f.d 4 4] ∧
    ray (.rtcrv f) [] [.block f.a 8 8, .pair f.b] [.block f.d 4 4] ∧
    ray (.rtrace f) (f.a :: if imm then [] else [f.b]) ([.block f.d 24 8, .pair f.a] ++ if imm then [] else [.one f.b]) [.block f.d 24 8] ∧
    ray (.ltwalk f) [f.b] [.block f.a 4 4, .pair f.b, .one f.c] [.block f.d 3 4] ∧
    Idle (.rsvld f) s f.g f.bnd (isVector f.d && uniOrZ f.b) (fun c => c.open [.one f.a, .quad f.b] [.block f.d 8 8] false) ∧
    Idle (.rsvst f) s f.g f.bnd (isVector f.d && uniOrZ f.b) (fun c => c.open [.one f.a, .quad f.b, .block f.d 8 8] [] false) ∧
    idle (.reuse f) [f.a, f.d] [.pair f.a] [.quad f.d] true)

/-- R39, R227, R354: a word that names mb once reads the oldest message of its wave: lane l gets the sender's value where
the message carries one and 0 elsewhere, the message leaves the FIFO, and with no message the word waits. Stated of a
team outside reproducible mode. -/
def Obligations.ReceiveTakesOldestMessage : Prop :=
  ∀ (c : WCtx), c.T.repro = false → c.pops = [] →
    (c.W.mbox = [] → c.open [Regs.one 0xFE#8] [] false = .error (.wait .mailbox c.s)) ∧
    (∀ m r, c.W.mbox = m :: r → ∃ d, c.open [Regs.one 0xFE#8] [] false = .ok d ∧ d.W = { c.W with mbox := r } ∧
      ∀ l, l < 32 → d.reg 0xFE#8 l = if m.mask.getLsbD l then (m.vals.getD l 0).toNat else 0)

/-- R110, R308: an integer word of a context acts on whole k registers: the result of R139–R147 at the word's type, extended to
64 bits, by sign for the signed types and by zero otherwise (`intRows`: every one but IDOT4); a comparison gives 1 or 0; IADDC
takes its carry from bit 0 of a k register and writes it there as 1 or 0; NOP goes on; BRA is taken always, where its register
is not 0, or where it is; CSRR reads the context's own registers.

R299, R122: in a lane of a callable evaluation each word of R121 that computes (`intRows`, `laneRows`: the integer and float
words, the conversions, RNG) writes its own lane's registers and FPCTL alone, and a word that writes a predicate its own
lane's, the guard deciding whether; the lane then stands at the next word. CSRR reads its FPCTL,
and LDU delivers what the engine's read answers. -/
def Obligations.OtherProfilesComplete : Prop :=
  (∀ (s : State) (f : AluW),
      let t := ty3 f.var
      let kb (c : KCtx) : Nat := if immFlag f.var then intImm t f.imm else c.k f.b
      let x (c : KCtx) : Int := intSrc t 0#2 (c.k f.a)
      let y (c : KCtx) : Int := intSrc t 0#2 (kb c)
      let srcs : List (BitVec 8) := f.a :: if immFlag f.var then [] else [f.b]
      let wide (sgn : Bool) (v : Nat) : Nat :=
        if intRegs t == 1 && sgn then ofSigned 64 (toSigned 32 v) else v
      let gives (i : Instr) (srcs : List (BitVec 8)) (v : KCtx → Nat) (sc : Bool := false) : Prop :=
        i.wf = true → aluStreamOk f sc = true → ∀ c, readyCtx s (fun c => do c.open srcs [f.d]; c.checkPoison srcs) = some c →
          exec i s = .next (c.retire (c.X.putK f.d (v c)))
      gives (.iadd f) srcs (fun c => wide (intSigned t) (intResult t false (x c + y c))) ∧
      gives (.isub f) srcs (fun c => wide (intSigned t) (intResult t false (x c - y c))) ∧
      gives (.imul f) srcs (fun c => wide (intSigned t) (intResult t false (x c * y c))) ∧
      gives (.imin f) srcs (fun c => wide (intSigned t) (intResult t false (if x c ≤ y c then x c else y c))) ∧
      gives (.imax f) srcs (fun c => wide (intSigned t) (intResult t false (if x c ≤ y c then y c else x c))) ∧
      gives (.and f) srcs (fun c => iAnd t (c.k f.a) (kb c)) ∧ gives (.or f) srcs (fun c => iOr t (c.k f.a) (kb c)) ∧
      gives (.xor f) srcs (fun c => iXor t (c.k f.a) (kb c)) ∧ gives (.shl f) srcs (fun c => iShl t (c.k f.a) (kb c)) ∧
      gives (.shr f) srcs (fun c => iShr t (c.k f.a) (kb c)) ∧
      gives (.sar f) srcs (fun c => wide true (iSar t (c.k f.a) (kb c))) ∧
      gives (.idiv f) srcs (fun c => wide (intSigned t) (intCode t (if y c = 0 then -1 else Int.tdiv (x c) (y c)))) ∧
      gives (.sel f) (srcs ++ [f.c]) (fun c => unsignedOf t (if c.k f.c != 0 then c.k f.a else kb c)) ∧
      gives (.icmp f) srcs (fun c => (iCmp f.sc (x c) (y c)).toNat) true ∧
      (∀ r ∈ intRows f, r.i.wf = true → aluStreamOk f r.own = true →
        ∀ c, readyCtx s (fun c => do c.open (r.srcs.map (·.1)) [f.d]; c.checkPoison (r.srcs.map (·.1))) = some c →
          let v := (r.at ⟨RM.ne, false, 0#3, false⟩ fun p => c.k p.1).1
          exec r.i s = .next (c.retire (c.X.putK f.d (if r.n = 1 ∧ r.sgn = true then ofSigned 64 (toSigned 32 v) else v)))) ∧
      ((Instr.iaddc f).wf = true → aluStreamOk f false = true →
        ∀ c, readyCtx s (fun c => do c.open (srcs ++ [f.c]) [f.d, f.c]; c.checkPoison (srcs ++ [f.c])) = some c →
          let n := intBits t
          let sum := c.k f.a % 2 ^ n + kb c % 2 ^ n + c.k f.c % 2
          exec (.iaddc f) s = .next (c.retire ((c.X.putK f.d (sum % 2 ^ n)).putK f.c (if 2 ^ n ≤ sum then 1 else 0))))) ∧
  (∀ (s : State) (c : KCtx),
      (∀ h, (Instr.nop h).wf = true → h.g = 0#4 → readyCtx s (fun _ => .ok ()) = some c → exec (.nop h) s = .next (c.retire c.X)) ∧
      (∀ (h : BraW), (Instr.bra h).wf = true → ((h.g = 0#4 ∧ h.rdist = 0#8) ∨ h.g = 1#4 ∨ h.g = 9#4) →
        let srcs := if h.g = 0#4 then [] else [h.rdist]
        readyCtx s (fun c => do c.open srcs []; c.checkPoison srcs) = some c →
        exec (.bra h) s = .next (if h.g = 0#4 ∨ (h.g = 1#4 ∧ c.k h.rdist ≠ 0) ∨ (h.g = 9#4 ∧ c.k h.rdist = 0)
          then c.put (c.X.goTo (c.X.kpc + h.off24.signExtend 53)) else c.retire c.X)) ∧
      (∀ (h : CsrW) (v : Nat), (Instr.csrr h).wf = true → h.g = 0#4 → h.var = 1#4 → readyCtx s (fun c => c.open [] [h.d]) = some c →
        ((h.num = 0x101#12 ∧ v = c.X.kpc.toNat * 8) ∨ (h.num = 0x102#12 ∧ v = c.X.ktl.toNat) ∨ (h.num = 0x103#12 ∧ v = c.X.kout) ∨
          (h.num = 0x104#12 ∧ v = c.X.ktag.toNat)) →
        exec (.csrr h) s = .next (c.retire (c.X.putK h.d v)))) ∧
  (∀ (s : State) (f : AluW) (k : Nat) (e : Eval),
      let t := ty3 f.var
      let w := intRegs t
      let rd (n : Nat) (c : BitVec 8) : Nat := if n == 1 then e.reg c else e.reg64 c
      let env : Env := ⟨e.fpctl.extractLsb' 0 2, e.fpctl.getLsbD 2, f.sc, f.cl⟩
      let sum := fAdd (ftOf t) env ⟨f.ma, f.mb, f.mc⟩ (rd 1 f.a) (if immFlag f.var then floatImm t f.imm else rd 1 f.b)
      let isum := intResult t f.cl (intSrc t f.ma (rd w f.a) + intSrc t f.mb (if immFlag f.var then intImm t f.imm else rd w f.b))
      let after (e : Eval) : State := setLane s k e
      let legal (n : Nat) (e : Eval) : Except Stop Unit := do
        Eval.open (srcs2 f n n) [Regs.ofW f.d n] (isUniform f.d)
        e.checkPoison (srcs2 f n n)
      ((Instr.iadd f).wf = true → readyLane s (legal w) = some (k, e) →
        exec (.iadd f) s = .next (after (if e.guard f.g then (e.putRegs f.d w isum).next else e.next))) ∧
      ((Instr.fadd f).wf = true → readyLane s (legal 1) = some (k, e) → e.fpctl.extractLsb' 4 5 = 0#5 →
        exec (.fadd f) s = .next (after (if e.guard f.g
          then (({ e with fpctl := e.fpctl ||| BitVec.ofNat 64 (sum.2.toNat * 2 ^ 9) }).putRegs f.d 1 sum.1).next else e.next))) ∧
      let lane (i : Instr) (g : BitVec 4) (srcs : List Regs) (dsts : List Regs) (uni : Bool) (eff : Eval) : Prop :=
        i.wf = true → readyLane s (fun _ => Eval.open srcs dsts uni) = some (k, e) →
          (e.guard g = false → exec i s = .next (after e.next)) ∧
          (e.guard g = true → e.checkPoison srcs = .ok () → e.fpctl.extractLsb' 4 5 = 0#5 → exec i s = .next (after eff.next))
      let flags (x : Exc) : Eval := { e with fpctl := e.fpctl ||| BitVec.ofNat 64 (x.toNat * 2 ^ 9) }
      let read (p : BitVec 8 × Nat) : Nat := rd p.2 p.1
      let b (v : Nat) (n : Nat) : Nat := if immFlag f.var then v else rd n f.b
      (∀ r ∈ intRows f ++ laneRows f, namedC f r.i = true →
        let v := r.at env read
        lane r.i f.g (r.srcs.map fun p => Regs.ofW p.1 p.2) [Regs.ofW f.d r.n] (isUniform f.d) ((flags v.2).putRegs f.d r.n v.1)) ∧
      (predCode f.c = true → lane (.sel f) f.g (srcs2 f w w) [Regs.ofW f.d w] (isUniform f.d)
        (e.putRegs f.d w ((if e.pred f.c.toNat then rd w f.a else b (intImm t f.imm) w) % 2 ^ intBits t))) ∧
      (predCode f.d = true → lane (.icmp f) f.g (srcs2 f w w) [] false
        (e.putPred f.d.toNat (iCmp f.sc (intSrc t f.ma (rd w f.a)) (intSrc t f.mb (b (intImm t f.imm) w))))) ∧
      (predCode f.d = true →
        let r := fCmp (ftOf t) env.ftz ⟨f.ma, f.mb, f.mc⟩ f.sc (rd 1 f.a) (b (floatImm t f.imm) 1)
        lane (.fcmp f) f.g (srcs2 f 1 1) [] false ((flags r.2).putPred f.d.toNat r.1)) ∧
      (predCode f.c = true →
        let sum := rd w f.a % 2 ^ intBits t + b (intImm t f.imm) w % 2 ^ intBits t + (e.pred f.c.toNat).toNat
        lane (.iaddc f) f.g (srcs2 f w w) [Regs.ofW f.d w] (isUniform f.d)
          ((e.putRegs f.d w (sum % 2 ^ intBits t)).putPred f.c.toNat (decide (2 ^ intBits t ≤ sum)))) ∧
      (predCode f.d = true → lane (.pset f) f.g [Regs.ofW f.a 1] [] false
        (e.putPred f.d.toNat (if isUniform f.a then bit (rd 1 f.a) (e.lane % 32) else rd 1 f.a != 0))) ∧
      lane (.pget f) f.g [] [Regs.one f.d] false (e.putReg f.d (if e.pred f.a.toNat then 2 ^ (e.lane % 32) else 0)) ∧
      (let p := e.pred f.a.toNat
        let q := e.pred f.b.toNat
        lane (.pand f) f.g [] [] false (e.putPred f.d.toNat (p && q)) ∧ lane (.por f) f.g [] [] false (e.putPred f.d.toNat (p || q)) ∧
        lane (.pxor f) f.g [] [] false (e.putPred f.d.toNat (p != q)) ∧ lane (.pnot f) f.g [] [] false (e.putPred f.d.toNat !p) ∧
        lane (.pmov f) f.g [] [] false (e.putPred f.d.toNat p)) ∧
      (∀ (h : SysW), uniOrZ h.a = true →
        let o := rngOut (rd 2 h.a) (rd 1 h.b) (rd 1 h.c)
        lane (.rng h) h.g [Regs.ofW h.a 2, Regs.ofW h.b 1, Regs.ofW h.c 1] [Regs.ofW h.d 1] (isUniform h.d)
          (e.putRegs h.d 1 (if h.var.getLsbD 0 then rngUnif o else o))) ∧
      (∀ (h : NoneW), (Instr.nop h).wf = true → readyLane s (fun _ => .ok ()) = some (k, e) → exec (.nop h) s = .next (after e.next)) ∧
      (∀ (h : BraW), (Instr.bra h).wf = true → 0 < h.off24.toInt → readyLane s (fun _ => .ok ()) = some (k, e) →
        exec (.bra h) s = .next (after (if e.guard h.g then { e with pc := e.pc + h.off24.signExtend 53 } else e.next))) ∧
      (∀ (h : CsrW), h.num = 0x020#12 → uniOrZ h.d = true → lane (.csrr h) h.g [] [Regs.ofW h.d (csrRegs h.var.toNat)] false
        (e.putRegs h.d (csrRegs h.var.toNat) (if h.var = 0#4 then e.fpctl.toNat % 2 ^ 32 else if h.var = 1#4 then e.fpctl.toNat
          else e.fpctl.toNat / 2 ^ 32))) ∧
      (∀ (h : MemW) (bs : List (Byte × Bool)), (Instr.ldu h).wf = true → h.ord = 0#2 → (uniOrZ h.d && uniOrZ h.a && uniOrZ h.b) = true →
        let n := accRegs h.var.toNat
        let size := accSize h.var.toNat
        let va := effAddr 64 (rd 2 h.a) (rd 1 h.b) h.xs.toNat h.off8.toNat size
        readyLane s (fun e => do Eval.open [.pair h.a, .one h.b] [.ofW h.d n] false; e.checkPoison [.pair h.a, .one h.b]) = some (k, e) →
        e.guard h.g = true → va % size = 0 → evalRead s k e.slot va size = .ok (some bs) → engMarked bs = false →
        exec (.ldu h) s = .next (after (({ e with parkAt := none }).putRegs h.d n (loadExt h.var.toNat (engBytes bs))).next)))

/-! Control. -/

/-- R172, R175, R178, R179: the control words set the PCs of the slices of their gang: NOP and YIELD the next word; BRA its
target where every lane takes it, the next word where none does, a deferral entry where they differ (with room on the
stack); BRX the target of each slice's lowest lane; CALL, CALLX and RET their target, the calls writing the link; LOOP
its target until the counter comes to 0. The model's choices, not the spec's: z as link, target or counter is accepted (log
entry 82), and bits 63:56 of a target are dropped (log entry 22).

Completes: nop, bra, brx, call, callx, ret, yield, loop. -/
def Obligations.ControlWordsComplete : Prop :=
  ∀ (s : State),
    (∀ f c, (Instr.nop f).wf = true → ready s f.g .ok = some c → exec (.nop f) s = .next (c.retire c.W f.bnd)) ∧
    (∀ f c, (Instr.yield f).wf = true → ready s f.g .ok = some c → exec (.yield f) s = .next (c.retire c.W f.bnd)) ∧
    (∀ f c, (Instr.bra f).wf = true → ready s f.g .ok = some c →
      (∀ i, i ∈ slicesOf c.gang → takenIn c i ≠ 0 → takenIn c i ≠ (c.W.slice i).lmask → (c.W.slice i).stack.length < 8) →
      exec (.bra f) s = .next (c.put (c.W.retireTo c.gang fun i sl =>
        if takenIn c i == 0 then sl.goto (sl.pc + 1) false true
        else sl.branch (takenIn c i) (sl.pc + f.off24.signExtend 53) (sl.pc + 1) (rpcOf sl.pc f.rdist)))) ∧
    (∀ (f : BrxW) c, (Instr.brx f).wf = true →
      ready s f.g (fun c => do
        let d ← c.open [.pair f.a] [] false
        d.checkPoison [.pair f.a]
        .ok d) = some c →
      (∀ l, c.lanes.getLsbD l = true → c.reg64 f.a l % 8 = 0) →
      let first (i : Nat) : Nat := c.reg64 f.a (lowLane (laneBits i (c.W.slice i).lmask))
      let same (i : Nat) : BitVec 4 := sliceLanes (maskOf fun l =>
        l / 4 == i && (c.W.slice i).lmask.getLsbD (l % 4) && c.reg64 f.a l == first i) i
      (∀ i, i ∈ slicesOf c.gang → same i ≠ (c.W.slice i).lmask → (c.W.slice i).stack.length < 8) →
      exec (.brx f) s = .next (c.put (c.W.retireTo c.gang fun i sl =>
        sl.branch (same i) (BitVec.ofNat 53 (first i / 8)) sl.pc (rpcOf sl.pc f.rdist)))) ∧
    (∀ (f : CallW) c, (Instr.call f).wf = true → isVector f.d = false →
      ready s f.g (fun c => c.open [] [.pair f.d] true) = some c →
      exec (.call f) s = .next (c.jump (c.W.putRegs f.d 2 0 (byteAddr (c.pc + 1))) (c.pc + f.off24.signExtend 53))) ∧
    (∀ (f : CallxW) c, (Instr.callx f).wf = true → isVector f.d = false → isVector f.a = false →
      ready s f.g (fun c => do
        let d ← c.open [.pair f.a] [.pair f.d] true
        d.checkPoison [.pair f.a]
        .ok d) = some c → c.reg64 f.a 0 % 8 = 0 →
      exec (.callx f) s = .next (c.jump (c.W.putRegs f.d 2 0 (byteAddr (c.pc + 1))) (BitVec.ofNat 53 (c.reg64 f.a 0 / 8)))) ∧
    (∀ (f : CallxW) c, (Instr.ret f).wf = true → isVector f.a = false →
      ready s f.g (fun c => do
        let d ← c.open [.pair f.a] [] true
        d.checkPoison [.pair f.a]
        .ok d) = some c → c.reg64 f.a 0 % 8 = 0 →
      exec (.ret f) s = .next (c.jump c.W (BitVec.ofNat 53 (c.reg64 f.a 0 / 8)))) ∧
    (∀ (f : CallW) c, (Instr.loop f).wf = true → isVector f.d = false →
      ready s f.g (fun c => do
        let d ← c.open [.one f.d] [.one f.d] true
        d.checkPoison [.one f.d]
        .ok d) = some c →
      let n := (c.reg f.d 0 + (2 ^ 32 - 1)) % 2 ^ 32
      exec (.loop f) s = .next (if n ≠ 0 then c.jump (c.W.putReg f.d 0 n) (c.pc + f.off24.signExtend 53)
        else c.retire (c.W.putReg f.d 0 n) true))

/-- R172: what a branch does to one slice whose lanes disagree, where the target is not the reconvergence pc: it pushes the
lanes that do not take the branch with the fall-through PC and Rpc, and goes on with the others at the target in a run
of its own.

R174: coming to the RPC of the top entry. The first path to arrive waits and the slice takes the entry's path, unless
that path stands at an RPC of its own entry; the second joins the waiting lanes and the check goes on with the next
entry; at any other PC, and for an entry without RPC, nothing happens. -/
def Obligations.DivergenceAndReconvergence : Prop :=
  (∀ (sl : Slice) (T : BitVec 4) (target dpc : BitVec 53) (rdist : BitVec 8),
      T ≠ sl.lmask → (rdist = 0#8 ∨ target ≠ sl.pc + rdist.zeroExtend 53) →
      let r := sl.branch T target dpc (rpcOf sl.pc rdist)
      r.lmask = T ∧ r.pc = target ∧ r.runpos = 0 ∧ r.live = sl.live ∧ r.gangid = sl.gangid ∧
      r.stack = ⟨sl.lmask &&& ~~~T, dpc, if rdist = 0#8 then 0 else sl.pc + rdist.zeroExtend 53⟩ :: sl.stack) ∧
  (∀ (pc : BitVec 53) (m : BitVec 4) (e : Deferral) (r : List Deferral),
      (e.rpc = 0 → reconvergeStack pc m (e :: r) = (pc, m, e :: r, false)) ∧
      (e.rpc ≠ pc → reconvergeStack pc m (e :: r) = (pc, m, e :: r, false)) ∧
      (e.rpc = pc → pc ≠ 0 → e.dpc ≠ pc → reconvergeStack pc m (e :: r) = (e.dpc, e.mask, ⟨m, pc, pc⟩ :: r, true)) ∧
      (e.rpc = pc → pc ≠ 0 → e.dpc = pc →
        let q := reconvergeStack pc (m ||| e.mask) r
        reconvergeStack pc m (e :: r) = (q.1, q.2.1, q.2.2.1, true)) ∧
      (reconvergeStack pc m [] = (pc, m, [], false)))

/-- R22, R180, R185, R182, R119: REGANG holds the slices of its gang until every live slice of the wave waits there; EXIT
ends the lanes of its gang, a slice going on with its next deferred lanes while it has any; ERET in a handler goes to
WEPC and clears INTRAP; TRAP and BKPT retire and then take their trap, TRAP with the next word in WEPC and BKPT with its
own, and do nothing where the guard selects no lane; ILL raises ILLEGAL_ENC.

Completes: trap, ill, regang, exit, eret, bkpt. -/
def Obligations.EndingWordsComplete : Prop :=
  ∀ (s : State) (t w : Nat) (gang : BitVec 8) (c : WCtx), s.cur = .wave t w gang →
    let counted (W : Wave) : Wave := { W with
      wclock := W.wclock + BitVec.ofNat 64 (slicesOf gang).length, lastGang := BitVec.ofNat 3 (lowSlice gang) }
    let trapped (f : ImmW) (cause : Cause) (epc : DWord) : Host.Outcome State Fault Refusal :=
      .next (if c.lanes = 0 then c.retire c.W f.bnd
        else takeTrapAt (c.put (counted (c.W.endReplay gang))) t w gang cause.code (f.imm.zeroExtend 64) epc false)
    (∀ f, (Instr.regang f).wf = true → ready s f.g .ok = some c →
      exec (.regang f) s = .next (c.put (counted ((c.W.holdGang gang .regang).endReplay gang)).joinRegang)) ∧
    (∀ f, (Instr.exit f).wf = true → ready s f.g .ok = some c →
      exec (.exit f) s = .next (slicesEnded (c.put (c.W.retireTo gang fun i sl => sl.exit (sliceLanes c.lanes i))) t w)) ∧
    (∀ f, (Instr.eret f).wf = true → ready s f.g .ok = some c → c.W.intrap = true → c.W.wpark = 0 →
      let W := c.W.retireTo gang fun _ sl => sl.eret c.W.wepc
      exec (.eret f) s = .next (makeReady (c.put { W with intrap := false, trapGang := 0, replay := false, parked := false }) t w)) ∧
    (∀ f, (Instr.trap f).wf = true → ready s f.g .ok = some c →
      exec (.trap f) s = trapped f .trap (epcOf 0#5 ((c.W.slice (lowSlice gang)).pc + 1))) ∧
    (∀ f, (Instr.bkpt f).wf = true → ready s f.g .ok = some c →
      exec (.bkpt f) s = trapped f .bkpt (epcOf (c.W.slice (lowSlice gang)).runpos (c.W.slice (lowSlice gang)).pc)) ∧
    (∀ x, (Instr.ill x).wf = true → ready s 0#4 .ok = some c →
      exec (.ill x) s = .next (takeTrap s t w gang .illegalEnc 0))

/-- R181: entry to a handler. With WHANDLER valid and INTRAP clear, a trap of a gang writes WCAUSE, WEPC and WTRAPARG, sets
INTRAP and leaves every register, FPCTL, MBDEST, WCLOCK and memory as they were; each slice of the gang keeps its lanes'
stack and stands at WHANDLER.BASE with RUNPOS 0 (a BASE that is the RPC of its top entry apart).

R49, R425: a trap that finds no handler to enter (WHANDLER invalid, or INTRAP set) ends every team of the launch: the
wave's team stands Ended and the launch is marked killed. -/
def Obligations.TrapEntersHandlerOrKills : Prop :=
  (∀ (s : State) (t w : Nat) (T : Team) (W : Wave) (g : BitVec 8) (cause : Nat) (arg epc : DWord) (df : Bool),
      team? s t = some T → T.waves[w]? = some W → W.whandler.getLsbD 0 = true → W.intrap = false →
      ∃ V, takeTrapAt s t w g cause arg epc df = setTeam s t (T.setWave w V) ∧
        V.cause = BitVec.ofNat 8 cause ∧ V.wepc = epc ∧ V.wtraparg = arg ∧ V.intrap = true ∧ V.trapGang = g ∧
        V.v = W.v ∧ V.s = W.s ∧ V.p = W.p ∧ V.fpctl = W.fpctl ∧ V.mbdest = W.mbdest ∧ V.wclock = W.wclock ∧
        V.whandler = W.whandler ∧ V.slices.length = W.slices.length ∧
        ∀ i sl, W.slices[i]? = some sl → i < 8 →
          (g.getLsbD i = false → V.slices[i]? = some sl) ∧
          (g.getLsbD i = true → (∀ e, sl.stack.head? = some e → e.rpc ≠ W.whandler.extractLsb' 3 53) →
            ∃ sl', V.slices[i]? = some sl' ∧ sl'.pc = W.whandler.extractLsb' 3 53 ∧ sl'.runpos = 0 ∧ sl'.lmask = sl.lmask ∧
              sl'.stack = sl.stack)) ∧
  (∀ (s : State) (t w : Nat) (T : Team) (W : Wave) (L : Launch) (g : BitVec 8) (cause : Nat) (arg epc : DWord) (df : Bool),
      team? s t = some T → T.waves[w]? = some W → (W.whandler.getLsbD 0 = false ∨ W.intrap = true) → T.st ≠ .ended →
      smGet? s.launches T.launch = some L → L.ended = false → L.killed = false →
      ∃ T' L', team? (takeTrapAt s t w g cause arg epc df) t = some T' ∧ T'.st = .ended ∧ T'.killed = true ∧
        smGet? (takeTrapAt s t w g cause arg epc df).launches T.launch = some L' ∧ L'.killed = true ∧ L'.ended = true)


/-- R36, R38, R135, R445: the frame of every word that ends by writing its result (the arithmetic, float, conversion and
lane words, CSRR, PGET, EXTQ). Its wave alone changes, and in it: the slices of the gang, WCLOCK by their number, and the
n registers of D in the active lanes (in a uniform D once, from the lowest active lane). Every other register of every
lane reads as before, with z nothing is written, no mark is set, and memory is untouched.

R28, R35, R90: a word whose guard selects no lane writes no register: a computing word then only takes its gang to
the next word. Stated of a result of any width in any D but a message. -/
def Obligations.ResultFrame : Prop :=
  (∀ (c : WCtx) (bnd : Bool) (d : BitVec 8) (n : Nat) (vals : Nat → Nat),
      (n = 1 ∨ n = 2 ∨ n = 4) → (Regs.ofW d n).dstOk 192 = true → (d = 0xFE#8 → c.lanes = 0) →
      ∃ V : Wave, c.finish bnd d n vals = setTeam c.s c.t (c.T.setWave c.w V) ∧
        (c.finish bnd d n vals).mem = c.s.mem ∧ (c.finish bnd d n vals).memPsn = c.s.memPsn ∧
        V.cause = c.W.cause ∧ V.wepc = c.W.wepc ∧ V.wtraparg = c.W.wtraparg ∧ V.whandler = c.W.whandler ∧
        V.intrap = c.W.intrap ∧ V.cte = c.W.cte ∧ V.fpctl = c.W.fpctl ∧ V.mbdest = c.W.mbdest ∧ V.p = c.W.p ∧
        V.mbox = c.W.mbox ∧ V.storeQ = c.W.storeQ ∧ V.owc = c.W.owc ∧
        V.wclock = c.W.wclock + BitVec.ofNat 64 (slicesOf c.gang).length ∧
        (∀ k, nsHas V.vpoison k = true → nsHas c.W.vpoison k = true) ∧
        (∀ k, nsHas V.spoison k = true → nsHas c.W.spoison k = true) ∧
        (∀ code l, l < 32 →
          ((∀ i, i < n → code ≠ codeAt d i) ∨ (isVector d = true ∧ c.lanes.getLsbD l = false) ∨ c.lanes = 0 ∨ d = 0xF8#8) →
          ({ c with W := V }).reg code l = c.reg code l) ∧
        (isVector d = true → ∀ i l, i < n → c.lanes.getLsbD l = true →
          ({ c with W := V }).reg (codeAt d i) l = vals l / 2 ^ (32 * i) % 2 ^ 32) ∧
        (isUniform d = true → c.lanes ≠ 0 → ∀ i l, i < n →
          ({ c with W := V }).reg (codeAt d i) l = vals (lowLane c.lanes) / 2 ^ (32 * i) % 2 ^ 32)) ∧
  (∀ (c : WCtx) (bnd : Bool) (d : BitVec 8) (n : Nat) (vals : Nat → Nat),
      c.lanes = 0 → c.finish bnd d n vals = c.retire c.W bnd)

/-! System words. -/

/-- R43–R46, R186, R225: CSR access by a wave. CSRR delivers the part of the register its width selects; CSRW, CSRS and
CSRC change the register's writable bits only (in FPCTL the mode, FTZ and the enables, and a flag is cleared by writing
1), and with no lane selected nothing; numbers from 0x800 are the service firmware's and raise PRIV with the number;
MBTGT writes MBDEST.

R44, R45, R66: what a CSR write leaves in FPCTL: bits 1:0, 2 and 8:4 take the operand's, a flag of bits 13:9 stays
set unless the operand's bit is 1, every other bit stays; and in WEPC, where bits 2:0, the bits from 56 to 57 and bit 63
stay.

Completes: csrr, csrw, csrs, csrc, mbtgt. -/
def Obligations.CsrWordsComplete : Prop :=
  (∀ (s : State) (t w : Nat) (gang : BitVec 8) (f : CsrW), s.cur = .wave t w gang →
      let num := f.num.toNat
      let var := f.var.toNat
      let uz (c : BitVec 8) : Bool := isUniform c || c == 0xF8#8
      let src : Regs := Regs.ofW f.a (csrRegs var)
      let checks (c : WCtx) : Except Stop WCtx := do
        let d ← c.open [src] [] false
        d.checkPoison [src]
        .ok d
      let changes (i : Instr) (op : CsrOp) : Prop :=
        i.wf = true → uz f.a = true → ∀ c v, ready s f.g checks = some c → waveCsr c f.bnd num = some v →
          let new := csrNew op num var v (BitVec.ofNat 64 (c.regN f.a (csrRegs var) 0))
          (c.lanes ≠ 0 → num = 0x021 → mbDestOk c.s c.T new = true) →
          exec i s = .next (c.retire (if c.lanes = 0 then c.W else setWaveCsr c.W num new) f.bnd)
      let privileged (i : Instr) (c : BitVec 8) (srcs dsts : List Regs) : Prop :=
        i.wf = true → uz c = true → 0x800 ≤ num → (ready s f.g fun c => c.open srcs dsts false).isSome = true →
          exec i s = .next (takeTrap s t w gang .priv (BitVec.ofNat 64 num))
      ((Instr.csrr f).wf = true → uz f.d = true → ∀ c v,
        ready s f.g (fun c => c.open [] [.ofW f.d (csrRegs var)] false) = some c → waveCsr c f.bnd num = some v →
        exec (.csrr f) s = .next (c.finish f.bnd f.d (csrRegs var) fun _ =>
          if var = 0 then v.toNat % 2 ^ 32 else if var = 1 then v.toNat else v.toNat / 2 ^ 32)) ∧
      changes (.csrw f) .write ∧ changes (.csrs f) .setBits ∧ changes (.csrc f) .clearBits ∧
      privileged (.csrr f) f.d [] [.ofW f.d (csrRegs var)] ∧ privileged (.csrw f) f.a [src] [] ∧
      privileged (.csrs f) f.a [src] [] ∧ privileged (.csrc f) f.a [src] [] ∧
      (∀ (g : SysW), (Instr.mbtgt g).wf = true → ∀ c, ready s g.g (fun c => do
          let d ← c.open [.one g.a] [] true
          d.checkPoison [.one g.a]
          .ok d) = some c →
        let new := csrNew .write 0x021 0 c.W.mbdest (BitVec.ofNat 64 (c.reg g.a (lowLane c.lanes)))
        (c.lanes ≠ 0 → mbDestOk c.s c.T new = true) →
        exec (.mbtgt g) s = .next (c.retire (if c.lanes = 0 then c.W else { c.W with mbdest := new }) g.bnd))) ∧
  (∀ (old a : DWord) (i : Nat), i < 64 →
      (csrNew .write 0x020 1 old a).getLsbD i =
        (if i ≤ 2 ∨ (4 ≤ i ∧ i ≤ 8) then a.getLsbD i
          else if 9 ≤ i ∧ i ≤ 13 then old.getLsbD i && !a.getLsbD i else old.getLsbD i) ∧
      (csrNew .write 0x001 1 old a).getLsbD i =
        (if (3 ≤ i ∧ i ≤ 55) ∨ (58 ≤ i ∧ i ≤ 62) then a.getLsbD i else old.getLsbD i))

/-- R188–R193, R354: the cache and extent words, the arena and SETPRIO. CINV drops from the core's load cache the lines of
the active lanes' addresses and CINV.all every line; CWB changes no memory; PREF fills no register; EXTQ reads the extent
table; HALLOC takes the lowest free run of granules or answers 0; HFREE gives a block back; SETPRIO sets the base
priority, at most the launch's.

R384: the arena of team t starts at VBASE + t × ARENA of the heap declaration; a launch without one has no arena. R190:
the run HALLOC takes lies inside the arena, touches no block in use, and no lower granule could have started one.

Completes: cinv, cinvAll, cwb, pref, extq, halloc, hfree, setprio. -/
def Obligations.SystemWordsComplete : Prop :=
  (∀ (s : State) (t w : Nat) (gang : BitVec 8), s.cur = .wave t w gang →
      let uz (c : BitVec 8) : Bool := isUniform c || c == 0xF8#8
      let addr (f : MemW) (c : WCtx) : Except Stop WCtx := do
        let d ← c.open [Regs.pair f.a, Regs.one f.b] [] false
        d.checkPoison [Regs.pair f.a, Regs.one f.b]
        .ok d
      (∀ f c, (Instr.cinv f).wf = true → ready s f.g (addr f) = some c →
        ∃ s', exec (.cinv f) s = .next s' ∧ retired s s' t w gang ∧ s'.mem = s.mem ∧
          ∀ C', core? s' c.T.core = some C' → ∀ l, l ∈ (c.linePas f).map (fun pa => loc c.s pa / 128) → smGet? C'.lcache l = none) ∧
      (∀ f c, (Instr.cinvAll f).wf = true → ready s f.g .ok = some c → c.lanes ≠ 0 →
        ∃ s', exec (.cinvAll f) s = .next s' ∧ retired s s' t w gang ∧ s'.mem = s.mem ∧
          ∀ C', core? s' c.T.core = some C' → C'.lcache = []) ∧
      (∀ f c, (Instr.cwb f).wf = true → ready s f.g (addr f) = some c → exec (.cwb f) s = .next (c.retire c.W f.bnd)) ∧
      (∀ f c, (Instr.pref f).wf = true → ready s f.g (addr f) = some c →
        ∃ s', exec (.pref f) s = .next s' ∧ retired s s' t w gang ∧ s'.mem = s.mem ∧ s'.teams = (c.retire c.W f.bnd).teams) ∧
      (∀ f c, (Instr.extq f).wf = true → ready s f.g (fun c => c.begin [.pair f.a] [.one f.d] (isUniform f.d)) = some c →
        exec (.extq f) s = .next (c.finish f.bnd f.d 1 fun l => extqVal c.s c.T (c.reg64 f.a l))) ∧
      (∀ f c, (Instr.halloc f).wf = true → uz f.d = true → uz f.a = true → ready s f.g (fun c => do
          let d ← c.open [.one f.a] [.pair f.d] true
          d.checkPoison [.one f.a]
          .ok d) = some c → c.lanes ≠ 0 → c.T.repro = false →
        let n := (c.reg f.a 0 + 255) / 256
        (arenaOf c.s c.T = none ∨ n = 0 → exec (.halloc f) s = .next (c.retire (c.W.putRegs f.d 2 0 0) f.bnd)) ∧
        (∀ b size, arenaOf c.s c.T = some (b, size) → n ≠ 0 →
          (arenaFind c.T.arena n (size / 256) = none → exec (.halloc f) s = .next (c.retire (c.W.putRegs f.d 2 0 0) f.bnd)) ∧
          (∀ g, arenaFind c.T.arena n (size / 256) = some g → exec (.halloc f) s = .next (setTeam c.s c.t
            (({ c.T with arena := c.T.arena ++ [(g, n)] }).setWave c.w ((c.W.putRegs f.d 2 0 (b + 256 * g)).retire gang f.bnd)))))) ∧
      (∀ f c, (Instr.hfree f).wf = true → uz f.a = true → ready s f.g (fun c => do
          let d ← c.open [.pair f.a] [] true
          d.checkPoison [.pair f.a]
          .ok d) = some c → c.lanes ≠ 0 → c.T.repro = false →
        ∀ b size blk, arenaOf c.s c.T = some (b, size) → c.T.arena.find? (fun x => b + 256 * x.1 == c.reg64 f.a 0) = some blk →
        exec (.hfree f) s = .next (setTeam c.s c.t
          (({ c.T with arena := c.T.arena.filter (fun x => x != blk) }).setWave c.w (c.W.retire gang f.bnd)))) ∧
      (∀ f c, (Instr.setprio f).wf = true → (immFlag f.var || uz f.a) = true → ready s f.g (fun c => do
          let d ← c.open (if immFlag f.var then [] else [Regs.one f.a]) [] true
          d.checkPoison (if immFlag f.var then [] else [Regs.one f.a])
          .ok d) = some c → c.lanes ≠ 0 →
        let v := if immFlag f.var then (SysW.imm f).toNat else c.reg f.a 0
        let prio := (smGet? c.s.launches c.T.launch).elim 0 (·.prio)
        exec (.setprio f) s = .next (setTeam c.s c.t (({ c.T with base := min v prio }).setWave c.w (c.W.retire gang f.bnd))))) ∧
  ((∀ (s : State) (T : Team) (L : Launch), smGet? s.launches T.launch = some L →
      (L.heap = none ∨ L.arena = 0 → arenaOf s T = none) ∧
      (∀ i d, L.heap = some i → L.exts[i]? = some d → L.arena ≠ 0 →
        arenaOf s T = some ((d.1 + T.index * L.arena) % 2 ^ 56, L.arena))) ∧
    (∀ (blocks : List (Nat × Nat)) (n size g : Nat), arenaFind blocks n size = some g →
      g + n ≤ size ∧ (∀ b ∈ blocks, g + n ≤ b.1 ∨ b.1 + b.2 ≤ g) ∧
      ∀ h, h < g → ∃ b ∈ blocks, b.1 < h + n ∧ h < b.1 + b.2))

/-- R183, R184: SVC retires, takes the partition's next ticket, queues a 64-byte record whose last fields are s0–s7 and the
ticket, and holds its gang until the reply; in a team of another world than the queue's it takes PERM.

Completes: svc. -/
def Obligations.ServiceCall : Prop :=
  ∀ (s : State) (t w : Nat) (gang : BitVec 8) (f : ImmW) (c : WCtx) (P : Part),
    s.cur = .wave t w gang → (Instr.svc f).wf = true → ready s f.g .ok = some c →
    c.W.busyAny [Regs.block 0xC0#8 8 1] = false → smGet? s.parts c.T.part = some P →
    (P.secure ≠ c.T.secure → exec (.svc f) s = .next (takeTrap s t w gang .perm 0)) ∧
    (P.secure = c.T.secure → c.poisonLanes (Regs.block 0xC0#8 8 1) = 0 →
      ∃ s' P' rec, exec (.svc f) s = .next s' ∧ smGet? s'.parts c.T.part = some P' ∧ rec.length = 64 ∧
        P'.nextTicket = (P.nextTicket + 1) % 2 ^ 32 ∧ (⟨P.nextTicket, t, w, gang⟩ : Call) ∈ P'.calls ∧
        fieldB rec 56 4 = P.nextTicket % 2 ^ 32 ∧ (∀ i, i < 8 → fieldB rec (24 + 4 * i) 4 = (smGetD c.W.s i 0).toNat) ∧
        s' = sqPush (modPart (c.put { (c.W.holdGang gang (.svc P.nextTicket)).endReplay gang with
          wclock := c.W.wclock + BitVec.ofNat 64 (slicesOf gang).length, lastGang := BitVec.ofNat 3 (lowSlice gang) })
          c.T.part fun Q => { Q with
            nextTicket := (Q.nextTicket + 1) % 2 ^ 32, calls := Q.calls ++ [⟨P.nextTicket, t, w, gang⟩] }) c.T.part rec)

/-! Memory words. -/

/-- R194, R198–R200, R353, R358: a load whose lanes all translate retires at issue and touches no memory; with nothing of the
wave queued before it and the load cache not used, every lane that translates has a read of its own address and size on its
way to the home, and D waits for it. A load with acquire holds its gang until its values have come; a lane whose page is not
there parks the wave, the other lanes' reads being on their way; and while an acquire of another gang of the wave is out the
load waits (R354, R359).

Completes: ld, ldu. -/
def Obligations.LoadWordsComplete : Prop :=
  ∀ (s : State) (t w : Nat) (gang : BitVec 8) (f : MemW), s.cur = .wave t w gang →
    let n := accRegs f.var.toNat
    let size := accSize f.var.toNat
    let uz (c : BitVec 8) : Bool := isUniform c || c == 0xF8#8
    let load (i : Instr) (uni : Bool) (named : Bool) : Prop :=
      i.wf = true → named = true →
      ∀ c plan, ready s f.g (opened [Regs.pair f.a, Regs.one f.b] [Regs.ofW f.d n] false) = some c →
        planLanes c.s c.T .read size (c.addrs uni (c.gAddr f size)) = .ok plan →
        (acquireOut s t w gang = true →
          exec i s = .next (holdAt s t w gang (.wait (.result (acquiresOf s (.wave t w)))))) ∧
        (acquireOut s t w gang = false → ∃ s1 W1, s1.mem = s.mem ∧ s1.memPsn = s.memPsn ∧ wave? s1 t w = some W1 ∧
          (f.ord ≠ 1#2 → accessEnds i s t w gang f.bnd .read false f.scope.toNat c.T.core plan s1) ∧
          (c.W.storeQ = [] → (c.s.choice % 2 = 1 ∨ cachedLoad f = false) →
            accessEnds i s t w gang f.bnd .read (f.ord == 1#2) f.scope.toNat c.T.core plan s1 ∧
            ∀ x ∈ plan.ok, ∃ r ∈ s1.reqs, r.who = .wave t w ∧ r.gang = gang ∧ r.kind = .read ∧ r.st = .flight ∧ r.lane = x.lane ∧
              r.va = x.va ∧ r.pa = x.pa ∧ r.size = size ∧ r.ord = f.ord ∧ r.d = f.d.toNat ∧
              ∀ k ∈ (Regs.block f.d n 1).keys, (k, BusySrc.req r.rid) ∈ W1.busy))
    load (.ld f) false (isVector f.d || f.d == 0xF8#8) ∧ load (.ldu f) true (uz f.d && uz f.a && uz f.b)

/-- R194, R200, R201, R310, R358: a store, an atomic and a reduction whose lanes all translate retire at issue; an atomic with
acquire holds its gang until its values have come, and a lane whose page is not there parks the wave (R199, R354). The request
of each lane that translates, with the address that R348 gives its effective address, its size, its bytes and its
operation, stands in the wave's store queue in ascending lane order; memory is untouched, every register reads as before
(an atomic's D waits), and nothing has left the queue.

Completes: st, stu, atom, red. -/
def Obligations.StoreWordsComplete : Prop :=
  ∀ (s : State) (t w : Nat) (gang : BitVec 8) (f : MemW), s.cur = .wave t w gang →
    let n := accRegs f.var.toNat
    let a := atomRegs f
    let vz (c : BitVec 8) : Bool := isVector c || c == 0xF8#8
    let uz (c : BitVec 8) : Bool := isUniform c || c == 0xF8#8
    let queues (i : Instr) (kind : ReqKind) (acc : Acc) (uni named : Bool) (size : Nat) (src dst : List Regs)
        (data cmp : WCtx → Nat → List Byte) : Prop :=
      i.wf = true → named = true →
      ∀ c plan, ready s f.g (opened (Regs.pair f.a :: Regs.one f.b :: src) dst false) = some c →
        planLanes c.s c.T acc size (c.addrs uni (c.gAddr f size)) = .ok plan →
        ∃ (s' : State) (W' : Wave) (rids : List Rid),
          accessEnds i s t w gang f.bnd acc (kind == .atomic && f.ord.getLsbD 0) f.scope.toNat c.T.core plan s' ∧
          s'.mem = s.mem ∧ s'.memPsn = s.memPsn ∧ wave? s' t w = some W' ∧ W'.v = c.W.v ∧ W'.s = c.W.s ∧ W'.p = c.W.p ∧ W'.fpctl = c.W.fpctl ∧
          W'.storeQ = c.W.storeQ ++ rids.map StoreE.global ∧ rids.length = plan.ok.length ∧
          ∀ (k : Nat) (x : OkLane), plan.ok[k]? = some x → ∃ r ∈ s'.reqs, rids[k]? = some r.rid ∧ r.who = .wave t w ∧ r.kind = kind ∧
            r.st = .queued ∧ r.lane = x.lane ∧ r.va = x.va ∧ r.pa = x.pa ∧ r.size = size ∧ r.data = data c x.lane ∧
            r.cmp = cmp c x.lane ∧ r.aop = f.aop ∧ r.ty = f.var ∧ r.ord = f.ord ∧ r.scope = f.scope
    let stored (c : WCtx) (l : Nat) : List Byte := toBytes (accSize f.var.toNat) (c.regN f.d n l)
    let value (c : WCtx) (l : Nat) : List Byte := toBytes (atomicSize f.var.toNat) (c.regN f.d a l)
    let compare (c : WCtx) (l : Nat) : List Byte :=
      if f.aop == 7#3 then toBytes (atomicSize f.var.toNat) (c.regN (codeAt f.d a) a l) else []
    queues (.st f) .write .write false (vz f.d || isUniform f.d) (accSize f.var.toNat) [Regs.ofW f.d n] [] stored (fun _ _ => []) ∧
    queues (.stu f) .write .write true (uz f.d && uz f.a && uz f.b) (accSize f.var.toNat) [Regs.ofW f.d n] [] stored (fun _ _ => []) ∧
    queues (.atom f) .atomic .atomic false (vz f.d) (atomicSize f.var.toNat) [atomD f] [Regs.block f.d a a] value compare ∧
    queues (.red f) .reduction .atomic false (vz f.d || isUniform f.d) (atomicSize f.var.toNat) [atomD f] [] value compare

/-- R198: what a lane's address makes a global access do before anything else: a misaligned lane raises MISALIGN; with all
aligned, one outside every extent and declaration raises EXTENT_MISS; with none of those, one whose extent does not allow
the access raises PERM; each with the address of the lowest such lane. Otherwise the lanes proceed, or park where the page
is not there.

R102: the effective address: base plus the sign-extended index times its scale plus the sign-extended OFF8 times the
access size, modulo 2^64. -/
def Obligations.AddressTrapsInOrder : Prop :=
  (∀ (s : State) (T : Team) (a : Acc) (size : Nat) (ls : List (Nat × Nat)), size ≠ 0 →
      let bad (va : Nat) : Bool := va % size != 0
      let miss (va : Nat) : Bool := teamTr s T a va == .miss
      let perm (va : Nat) : Bool := teamTr s T a va == .perm
      (∀ p, ls.find? (fun p => bad p.2) = some p → planLanes s T a size ls = .error (.trap .misalign (BitVec.ofNat 64 p.2))) ∧
      (∀ p, (∀ q ∈ ls, bad q.2 = false) → ls.find? (fun p => miss p.2) = some p →
        planLanes s T a size ls = .error (.trap .extentMiss (BitVec.ofNat 64 p.2))) ∧
      (∀ p, (∀ q ∈ ls, bad q.2 = false ∧ miss q.2 = false) → ls.find? (fun p => perm p.2) = some p →
        planLanes s T a size ls = .error (.trap .perm (BitVec.ofNat 64 p.2))) ∧
      ((∀ q ∈ ls, bad q.2 = false ∧ miss q.2 = false ∧ perm q.2 = false) →
        ∃ plan, planLanes s T a size ls = .ok plan ∧
          plan.ok.length + plan.parked.length = ls.length ∧
          (∀ x ∈ plan.ok, (x.lane, x.va) ∈ ls ∧ teamTr s T a x.va = .ok x.pa x.key x.sec x.gen) ∧
          ∀ x ∈ plan.parked, (x.lane, x.va) ∈ ls ∧ teamTr s T a x.va = .park x.code x.idx)) ∧
  (∀ (base : BitVec 64) (index : BitVec 32) (xs : Nat) (off : BitVec 8) (size : Nat),
      effAddr 64 base.toNat index.toNat xs off.toNat size =
        (base + index.signExtend 64 * BitVec.ofNat 64 (2 ^ xs) + off.signExtend 64 * BitVec.ofNat 64 size).toNat)

/-- R194–R197, R200, R437, R439: the scratchpad words. With every region of the team's own that the word touches present (and
no region of another team under way to or from its image), a load reads the team's bytes with the wave's own queued
stores before them, a store queues each lane's bytes under its offset; global memory is untouched.

R104, R201, R202: ATOMS performs its lanes one after another in ascending order on the team's own scratchpad: each takes
the old value into D and leaves the operation's result, with every region present and nothing of the wave under way.

R51, R52: in reproducible mode ATOMS of a gang that is not all the wave's live slices raises SYNC_PARTED with both masks, and
one whose wave's turn has not come waits.

Completes: lds, sts, ldp, stp, atoms. -/
def Obligations.ScratchWordsComplete : Prop :=
  (∀ (s : State) (t w : Nat) (gang : BitVec 8) (f : MemW), s.cur = .wave t w gang →
      let n := accRegs f.var.toNat
      let size := accSize f.var.toNat
      let vz (c : BitVec 8) : Bool := isVector c || c == 0xF8#8
      let ls (c : WCtx) : List (Nat × Nat) := (lanesOf c.lanes).map fun l => (l, c.sAddr f size l)
      let here (c : WCtx) (o : Nat) : Prop := ∀ i ∈ regionsOf o size, c.T.unitSt false i = .present
      let peer (c : WCtx) (a : Nat) : Option (Nat × Team) := peerTeam c.s c.T a
      let reach (c : WCtx) (a : Nat) : Prop := ∀ u U, peer c a = some (u, U) →
        if u = t then here c (a % 2 ^ 19) else outsideWaits U (a % 2 ^ 19) size = false
      let quietReads (c : WCtx) : Prop := readsPending s (.wave c.t c.w) = false
      (∀ c, (Instr.lds f).wf = true → vz f.d = true → ready s f.g (opened [Regs.one f.a, Regs.one f.b] [Regs.ofW f.d n] false) = some c →
        checkOffs c.T size (ls c) = .ok () → quietReads c → (∀ p ∈ ls c, here c p.2) →
        ∃ s', exec (.lds f) s = .next s' ∧ s'.mem = s.mem ∧ s'.reqs = c.s.reqs ∧
          wave? s' t w = some (((ls c).foldl (fun W l =>
            W.load f.d n l.1 (loadExt f.var.toNat (c.ownRead (c.put c.W) l.2 size).1) (c.ownRead (c.put c.W) l.2 size).2) c.W).retire
            gang f.bnd)) ∧
      (∀ c, (Instr.sts f).wf = true → (vz f.d || isUniform f.d) = true →
        ready s f.g (opened [Regs.one f.a, Regs.one f.b, Regs.ofW f.d n] [] false) = some c →
        checkOffs c.T size (ls c) = .ok () → (∀ p ∈ ls c, here c p.2) →
        ∃ s', exec (.sts f) s = .next s' ∧ s'.mem = s.mem ∧ s'.reqs = c.s.reqs ∧
          let q : List StoreE := (ls c).map fun l => StoreE.scratch l.2 (toBytes size (c.regN f.d n l.1)) (f.ord == 2#2) (undoneReads c.s (.wave c.t c.w))
          wave? s' t w = some (({ c.W with storeQ := c.W.storeQ ++ q }).retire gang f.bnd)) ∧
      (∀ c, (Instr.ldp f).wf = true → vz f.d = true → ready s f.g (opened [Regs.one f.a, Regs.one f.b] [Regs.ofW f.d n] false) = some c →
        checkPeers c.s c.T size (ls c) = .ok () → quietReads c → (∀ p ∈ ls c, reach c p.2) → c.W.storeQ = [] →
        (∀ p ∈ ls c, peerInFlight s c.T.core ((peer c p.2).elim t (·.1)) (p.2 % 2 ^ 19) size = false) →
        ∃ s', exec (.ldp f) s = .next s' ∧ s'.mem = s.mem ∧
          wave? s' t w = some (((ls c).foldl (fun W l =>
            let v := match peer c l.2 with
              | some (u, U) => if u = t then c.ownRead (c.put c.W) (l.2 % 2 ^ 19) size
                  else outsideRead (c.put c.W) U (l.2 % 2 ^ 19) size
              | none => ([], false)
            W.load f.d n l.1 (loadExt f.var.toNat v.1) v.2) c.W).retire gang f.bnd)) ∧
      (∀ c, (Instr.stp f).wf = true → (vz f.d || isUniform f.d) = true →
        ready s f.g (opened [Regs.one f.a, Regs.one f.b, Regs.ofW f.d n] [] false) = some c →
        checkPeers c.s c.T size (ls c) = .ok () → (∀ p ∈ ls c, ∀ U, peer c p.2 = some (t, U) → here c (p.2 % 2 ^ 19)) →
        ∃ s', exec (.stp f) s = .next s' ∧ s'.mem = s.mem ∧
          let q : List StoreE := (ls c).map fun l =>
            StoreE.peer ((peer c l.2).elim t (·.1)) (l.2 % 2 ^ 19) (toBytes size (c.regN f.d n l.1)) (f.ord == 2#2) (undoneReads c.s (.wave c.t c.w))
          wave? s' t w = some (({ c.W with storeQ := c.W.storeQ ++ q }).retire gang f.bnd))) ∧
  (∀ (s : State) (t w : Nat) (gang : BitVec 8) (f : MemW) (c : WCtx), s.cur = .wave t w gang → (Instr.atoms f).wf = true →
      (isVector f.d || f.d == 0xF8#8) = true →
      let a := atomRegs f
      let size := atomicSize f.var.toNat
      let ls : List (Nat × Nat) := (lanesOf c.lanes).map fun l => (l, c.sAddr f size l)
      ready s f.g (opened [Regs.one f.a, Regs.one f.b, atomD f] [Regs.block f.d a a] false) = some c →
      (c.T.repro = true → gang ≠ c.W.live → exec (.atoms f) s = .next (takeTrap s t w gang .syncParted
        (BitVec.ofNat 64 (c.W.live.toNat + gang.toNat * 256)))) ∧
      (checkOffs c.T size ls = .ok () → c.T.repro = true → gang = c.W.live → c.W.ordered = false → c.isFirst = false →
        exec (.atoms f) s = .next (holdAt s t w gang (.wait .order))) ∧
      ((c.T.repro = true → gang = c.W.live ∧ (c.W.ordered = true ∨ c.isFirst = true)) →
      checkOffs c.T size ls = .ok () → (∀ p ∈ ls, ∀ i ∈ regionsOf p.2 size, c.T.unitSt false i = .present) →
      c.W.storeQ = [] → c.W.owc = 0 → readsPending s (.wave t w) = false →
      let res := ls.foldl (fun (a' : Team × Wave) l =>
        let old := ofBytes (scratchGet a'.1 l.2 size)
        let cmp := if f.aop == 7#3 then c.regN (codeAt f.d a) a l.1 else 0
        let new := atomicOp f.var.toNat f.aop.toNat old (c.regN f.d a l.1 % 2 ^ (8 * size)) (cmp % 2 ^ (8 * size))
        (scratchSet a'.1 l.2 (toBytes size new), a'.2.load f.d a l.1 old (scratchMarked a'.1 l.2 size))) (c.T.setWave w c.W, c.W)
      ∃ s', exec (.atoms f) s = .next s' ∧ s'.mem = s.mem ∧ team? s' t = some (res.1.setWave w (res.2.retire gang f.bnd))))

/-- R203, R204: APPEND in a team whose turn it is gives each active lane the counter plus what the lower active lanes append
and adds the sum to the counter of the launch, modulo 2^32; with a count that exists once for the gang, D takes the counter
and the count is added once; DECLINE closes the counter for its team.

R51, R52: in reproducible mode APPEND of a gang that is not all the wave's live slices raises SYNC_PARTED with both masks,
one whose wave's turn has not come waits, and one whose turn has come does as outside that mode.

Completes: append, decline. -/
def Obligations.OrderedAppend : Prop :=
  ∀ (s : State) (t w : Nat) (gang : BitVec 8) (f : SysW) (c : WCtx) (L : Launch), s.cur = .wave t w gang →
    c.lanes ≠ 0 → smGet? s.launches c.T.launch = some L →
    let k := c.reg f.a (lowLane c.lanes)
    let checked : Prop := (isUniform f.a || f.a == 0xF8#8 || f.a == 0xF9#8) = true ∧
      (if isVector f.b then isVector f.d else isUniform f.d) = true ∧
      ready s f.g (opened [Regs.one f.a, Regs.one f.b] [Regs.one f.d] (!isVector f.b)) = some c
    let turn : Prop := c.T.repro = true → gang = c.W.live ∧ (c.W.ordered = true ∨ c.isFirst = true)
    ((Instr.append f).wf = true → checked → c.T.repro = true → gang ≠ c.W.live →
      exec (.append f) s = .next (takeTrap s t w gang .syncParted (BitVec.ofNat 64 (c.W.live.toNat + gang.toNat * 256)))) ∧
    ((Instr.append f).wf = true → checked → c.T.repro = true → gang = c.W.live → c.W.ordered = false → c.isFirst = false →
      k ≤ 15 → nsHas c.T.closed k = false → exec (.append f) s = .next (holdAt s t w gang (.wait .order))) ∧
    ((Instr.append f).wf = true → checked → turn → isVector f.b = false → (Regs.one f.d).dstOk 192 = true →
      k ≤ 15 → nsHas c.T.closed k = false → lowerClosed c.s c.T k = true →
      let n := (smGetD L.counters k 0).toNat
      ∃ s' W' L', exec (.append f) s = .next s' ∧ retired s s' t w gang ∧ s'.mem = s.mem ∧ wave? s' t w = some W' ∧
        (∀ l, ({ c with W := W' }).reg f.d l = n) ∧
        smGet? s'.launches c.T.launch = some L' ∧ (smGetD L'.counters k 0).toNat = (n + c.reg f.b (lowLane c.lanes)) % 2 ^ 32 ∧
        ∀ j, j ≠ k → smGetD L'.counters j 0 = smGetD L.counters j 0) ∧
    ((Instr.append f).wf = true → checked → turn → isVector f.b = true →
      (Regs.one f.d).dstOk 192 = true →
      k ≤ 15 → nsHas c.T.closed k = false → lowerClosed c.s c.T k = true →
      let sum (l : Nat) : Nat := ((lanesOf c.lanes).filter (· < l)).foldl (fun e j => e + c.reg f.b j) (smGetD L.counters k 0).toNat
      ∃ s' W' L', exec (.append f) s = .next s' ∧ retired s s' t w gang ∧ s'.mem = s.mem ∧ wave? s' t w = some W' ∧
        (∀ l, c.lanes.getLsbD l = true → ({ c with W := W' }).reg f.d l = sum l % 2 ^ 32) ∧
        smGet? s'.launches c.T.launch = some L' ∧ (smGetD L'.counters k 0).toNat = sum 32 % 2 ^ 32 ∧
        ∀ j, j ≠ k → smGetD L'.counters j 0 = smGetD L.counters j 0) ∧
    ((Instr.decline f).wf = true → ready s f.g (opened [Regs.one f.a] [] true) = some c → k ≤ 15 →
      ∃ s' T', exec (.decline f) s = .next s' ∧ retired s s' t w gang ∧ s'.mem = s.mem ∧ team? s' t = some T' ∧
        nsHas T'.closed k = true ∧ ∀ j, j ≠ k → nsHas T'.closed j = nsHas c.T.closed j)

/-- R206, R361, R354: a fence completes when the writes of its wave are acknowledged (for a release) and its reads answered,
and an acquire at cluster scope or wider empties the load cache; before that it waits. That a release-only fence, too, waits
while reads are open is the model's reading (log entry 13).

Completes: fence. -/
def Obligations.FenceWaitsForAccesses : Prop :=
  ∀ (s : State) (t w : Nat) (gang : BitVec 8) (f : MemW) (c : WCtx), s.cur = .wave t w gang → (Instr.fence f).wf = true →
    ready s f.g .ok = some c → c.lanes ≠ 0 →
    let rel := f.ord == 0#2 || f.ord.getLsbD 1
    let acq := f.ord == 0#2 || f.ord.getLsbD 0
    let held := exec (.fence f) s = .next (holdAt s t w gang (.wait .fence))
    ((rel = true → c.W.storeQ = [] ∧ c.W.owc = 0) → readsOpen s (.wave t w) = false →
      exec (.fence f) s = .next (if acq = true ∧ 2 ≤ f.scope.toNat then invalidate (c.retire c.W f.bnd) c.T.core else c.retire c.W f.bnd)) ∧
    (rel = true → (c.W.storeQ ≠ [] ∨ c.W.owc ≠ 0) → held) ∧
    (readsOpen s (.wave t w) = true → held)

/-! Barriers, timelines, copies, streams, records, mailboxes. -/

/-- R207: BAR holds its gang until every live slice of the team's live waves waits at a BAR and what those waves wrote is
complete. Where the word is the last to arrive, and no write is outstanding, the barrier completes with it: every wave
leaves, and what waits in the team tries again. A wave that leaves retires each of its gangs; with one wave, whose live
slices are the gang, that gang retires.

Completes: bar. -/
def Obligations.Barrier : Prop :=
  ∀ (s : State) (t w : Nat) (gang : BitVec 8) (f : SysW) (c : WCtx), s.cur = .wave t w gang → (Instr.bar f).wf = true →
    ready s f.g .ok = some c →
    let held : State := c.put (((c.W.holdGang gang (.bar f.bnd)).endReplay gang).setLast gang)
    exec (.bar f) s = .next (tryBar held t) ∧
    (∀ T, team? held t = some T →
      (∀ W ∈ T.waves, W.live = 0 ∨ (W.storeQ = [] ∧ W.owc = 0 ∧ ∀ sl ∈ W.slices, sl.live = true → ∃ b, sl.hold = .bar b)) →
      exec (.bar f) s = .next (wakeTeam (setTeam held t { T with waves := T.waves.map Wave.leaveBar }) t)) ∧
    (∀ (W : Wave) i b, W.gangIds = [i] → (W.slice (lowSlice (W.gangOf i))).hold = .bar b → W.leaveBar = W.retire (W.gangOf i) b) ∧
    (∀ (T : Team) (i : Nat) (W : Wave) (k : Nat) (sl : Slice), team? held t = some T → T.waves[i]? = some W → W.live ≠ 0 → W.slices[k]? = some sl → sl.live = true →
      (∀ b, sl.hold ≠ Hold.bar b) → exec (.bar f) s = .next held) ∧
    (c.T.waves = [c.W] → w = 0 → c.W.gangIds = [lowSlice gang] → c.W.gangOf (lowSlice gang) = gang → c.W.live = gang →
      c.W.slices.length = 8 → c.W.storeQ = [] → c.W.owc = 0 → ∃ s', exec (.bar f) s = .next s' ∧ retired s s' t w gang)

/-- R208, R209: the counted barriers on an object of the team's own scratchpad or, with VAR[0] = 1, of the scratchpad of a team
of the cluster that its address names, the object's region present and the wave's earlier accesses performed. CBINIT writes COUNT 0, EXPECT at least 1 and PHASE 0; CBARV adds its operand to COUNT, each EXPECT arrivals
advancing PHASE, and answers the PHASE before; CBWAIT goes on where PHASE differs from its operand and waits where it is
the same. The object's bytes alone change.

Completes: cbinit, cbarv, cbwait. -/
def Obligations.CountedBarrierWordsComplete : Prop :=
  ∀ (s : State) (t w : Nat) (gang : BitVec 8) (f : SysW) (c : WCtx), s.cur = .wave t w gang → c.lanes ≠ 0 →
    let peer := f.var.getLsbD 0
    let uz (c : BitVec 8) : Bool := isUniform c || c == 0xF8#8
    let srcs : List Regs := [Regs.one f.a] ++ if immFlag f.var then [] else [Regs.one f.b]
    let addr := c.reg f.a (lowLane c.lanes)
    let a := if peer then addr % 2 ^ 19 else addr
    let b := if immFlag f.var then (SysW.imm f).toNat else c.reg f.b (lowLane c.lanes)
    ready s f.g (opened srcs [] true) = some c → uz f.a = true → (immFlag f.var || uz f.b) = true →
    (if peer then checkPeers c.s c.T 16 [(lowLane c.lanes, addr)] else checkOffs c.T 16 [(lowLane c.lanes, addr)]) = .ok () →
    ∀ u U, (if peer then peerTeam c.s c.T addr else some (t, c.T)) = some (u, U) → team? s u = some U →
    (u ≠ t → peerInFlight s c.T.core u a 16 = false) → (∀ i ∈ regionsOf a 16, U.unitSt false i = .present) →
    readsPending s (.wave t w) = false →
    let field (T : Team) (o : Nat) : Nat := ofBytes (scratchGet T (a + o) 4)
    let count := field U 0
    let expect := max (field U 4) 1
    let phase := field U 8
    let others (T : Team) : Prop := ∀ k, (k < a ∨ a + 12 ≤ k) → scratchGet T k 1 = scratchGet U k 1
    ((Instr.cbinit f).wf = true → c.W.storeQ = [] → c.W.owc = 0 →
      ∃ s' T', exec (.cbinit f) s = .next s' ∧ retired s s' t w gang ∧ s'.mem = s.mem ∧ team? s' u = some T' ∧
        field T' 0 = 0 ∧ field T' 4 = max b 1 % 2 ^ 32 ∧ field T' 8 = 0 ∧ others T') ∧
    ((Instr.cbarv f).wf = true → uz f.d = true → (Regs.one f.d).dstOk c.T.nregs = true → c.W.busyAny [.one f.d] = false →
      c.W.storeQ = [] → c.W.owc = 0 →
      ∃ s' T' W', exec (.cbarv f) s = .next s' ∧ retired s s' t w gang ∧ s'.mem = s.mem ∧ team? s' u = some T' ∧
        wave? s' t w = some W' ∧ field T' 0 = (count + b) % expect ∧ field T' 4 = field U 4 ∧
        field T' 8 = (phase + (count + b) / expect) % 2 ^ 32 ∧ others T' ∧
        (isUniform f.d = true → ({ c with W := W' }).reg f.d 0 = phase)) ∧
    ((Instr.cbwait f).wf = true → objectQueued c.W.storeQ t u a = false → phase ≠ b →
      ∃ s' T', exec (.cbwait f) s = .next s' ∧ retired s s' t w gang ∧ s'.mem = s.mem ∧ team? s' u = some T' ∧
        T'.scratch = U.scratch) ∧
    ((Instr.cbwait f).wf = true → objectQueued c.W.storeQ t u a = true → exec (.cbwait f) s = .next (holdAt s t w gang (.wait .fence))) ∧
    ((Instr.cbwait f).wf = true → objectQueued c.W.storeQ t u a = false → phase = b → exec (.cbwait f) s = .next (holdAt s t w gang (.wait .barrier)))

/-- R210, R211, R354, R363: TLWAIT goes on once the timeline its handle names has reached its operand, emptying the load cache of
its core where the increments cover writes at cluster scope or wider, and waits before that; TLREAD delivers the timeline;
a handle that names none of the team's raises PERM.

Completes: tlwait, tlread. -/
def Obligations.TimelineWordsComplete : Prop :=
  ∀ (s : State) (t w : Nat) (gang : BitVec 8) (f : SysW) (c : WCtx), s.cur = .wave t w gang → c.lanes ≠ 0 →
    let uz (c : BitVec 8) : Bool := isUniform c || c == 0xF8#8
    let h := c.reg f.a 0
    let v := timeline? c.s c.t c.T (clusterOf c.T.core) h
    ((Instr.tlwait f).wf = true → uz f.a = true → uz f.b = true → ready s f.g (opened [Regs.one f.a, Regs.pair f.b] [] true) = some c →
      (∀ n, v = some n → c.reg64 f.b 0 ≤ n → exec (.tlwait f) s = .next (
        if timelineOut c.s c.T (clusterOf c.T.core) h (c.reg64 f.b 0) = true then invalidate (c.retire c.W f.bnd) c.T.core
        else c.retire c.W f.bnd)) ∧
      (∀ n, v = some n → n < c.reg64 f.b 0 → exec (.tlwait f) s = .next (holdAt s t w gang (.wait .counter))) ∧
      (v = none → exec (.tlwait f) s = .next (takeTrap s t w gang .perm (BitVec.ofNat 64 h)))) ∧
    ((Instr.tlread f).wf = true → uz f.a = true → uz f.d = true → ready s f.g (opened [Regs.one f.a] [Regs.pair f.d] true) = some c →
      (∀ n, v = some n → exec (.tlread f) s = .next (c.retire (c.W.putRegs f.d 2 0 n) f.bnd)) ∧
      (v = none → exec (.tlread f) s = .next (takeTrap s t w gang .perm (BitVec.ofNat 64 h))))

/-- R212–R216: CPY and MCAST with aligned operands inside the allocation, translated, the wave's earlier writes performed, and
room in the copy queue (which no team without a copy in flight lacks): the word retires, the copy takes the next number of
the team and joins its copies with the operands of the word, and D's pair waits for its status. No byte has moved yet.

Completes: cpy, mcast. -/
def Obligations.CopyWordsComplete : Prop :=
  ∀ (s : State) (t w : Nat) (gang : BitVec 8) (f : SysW) (c : WCtx), s.cur = .wave t w gang → c.lanes ≠ 0 →
    let uz (c : BitVec 8) : Bool := isUniform c || c == 0xF8#8
    let local_ := f.var == 2#4
    let srcs (pair : Bool) : List Regs := [if pair then Regs.pair f.a else Regs.one f.a, Regs.one f.b, Regs.one f.c]
    let b := c.reg f.b 0
    let n := c.reg f.c 0
    (uz f.d && uz f.a && uz f.b && uz f.c) = true → c.W.storeQ = [] → c.W.owc = 0 → readsPending s (.wave t w) = false →
    b % 16 = 0 → n % 16 = 0 → n ≤ 524288 → b + n ≤ c.T.scratchSize → (c.T.copies = [] ∨ bit s.choice 61 = false) →
    let copied (i : Instr) (ok : WCopy → Prop) : Prop :=
      ∃ s' T' W' k, exec i s = .next s' ∧ retired s s' t w gang ∧ s'.mem = s.mem ∧ team? s' t = some T' ∧ wave? s' t w = some W' ∧
        T'.copyNum = c.T.copyNum + 1 ∧ T'.copies = c.T.copies ++ [k] ∧ k.num = c.T.copyNum + 1 ∧ k.wave = w ∧ k.d = f.d.toNat ∧
        k.len = n ∧ k.pos = 0 ∧ k.code = 0 ∧ T'.scratch = c.T.scratch ∧ ok k ∧
        ∀ r ∈ (Regs.pair f.d).keys, (r, BusySrc.copy (c.T.copyNum + 1)) ∈ W'.busy
    let a := c.reg64 f.a 0
    ((Instr.cpy f).wf = true → local_ = false → ready s f.g (opened (srcs true) [Regs.pair f.d] true) = some c → a % 16 = 0 →
      rangeTrap c.s c.T (if f.var = 0#4 then .read else .write) a n = .ok () →
      copied (.cpy f) fun k => k.toScratch = (f.var == 0#4) ∧ k.fromScratch = (f.var == 1#4) ∧
        k.src = (if f.var = 0#4 then a else b) ∧ k.dst = (if f.var = 0#4 then b else a)) ∧
    ((Instr.cpy f).wf = true → local_ = true → ready s f.g (opened (srcs false) [Regs.pair f.d] true) = some c →
      c.reg f.a 0 % 16 = 0 → c.reg f.a 0 + n ≤ c.T.scratchSize →
      copied (.cpy f) fun k => k.toScratch = true ∧ k.fromScratch = true ∧ k.src = b ∧ k.dst = c.reg f.a 0) ∧
    ((Instr.mcast f).wf = true → ready s f.g (opened (srcs true) [Regs.pair f.d] true) = some c → a % 16 = 0 →
      rangeTrap c.s c.T .read a n = .ok () →
      copied (.mcast f) fun k => k.toScratch = true ∧ k.fromScratch = false ∧ k.src = a ∧ k.dst = b ∧
        k.dests.length = ((List.range 8).filter fun i => bit (SysW.mask8 f) i).length)

/-- R217, R218, R303, R304: CEXEC takes the context its operand names, or with bit 4 set the lowest free one of the cluster,
where it is stopped or faulted; starts it at its entry with the octet in k0–k7, and answers its handle, 0x1000_0000 plus its
number times 0x1_0000. With none to take it waits; a context of an engine of the other world raises PERM with the selector, an
entry that is no multiple of 8 MISALIGN. CEQRY and CEQRY.arg deliver a context's status and argument.

Completes: cexec, ceqry, ceqryArg. -/
def Obligations.ContextWordsComplete : Prop :=
  ∀ (s : State) (t w : Nat) (gang : BitVec 8) (f : SysW) (c : WCtx), s.cur = .wave t w gang → c.lanes ≠ 0 →
    let uz (c : BitVec 8) : Bool := isUniform c || c == 0xF8#8
    let cl := clusterOf c.T.core
    let h := c.reg f.a 0
    let X := smGet? c.s.ctxs (cl * 16 + bits h 19 16)
    let query (i : Instr) (val : Ctx → Nat) : Prop :=
      i.wf = true → uz f.d = true → uz f.a = true → ready s f.g (opened [Regs.one f.a] [Regs.pair f.d] true) = some c →
      ∀ x, bits h 31 28 = 1 → handleClean h = true → X = some x →
        exec i s = .next (c.retire (c.W.putRegs f.d 2 0 (val x)) f.bnd)
    let sel := c.reg f.b 0
    let any := bit sel 4
    let named := cl * 16 + sel % 16
    let free (x : Nat) : Bool := (smGet? s.ctxs x).any fun X => X.st == .stopped || X.st == .faulted
    let takes (x : Nat) : Prop :=
      if any = true then cl * 16 ≤ x ∧ x < cl * 16 + 16 ∧ free x = true ∧ ∀ y, cl * 16 ≤ y → y < x → free y = false
      else x = named ∧ free x = true
    ((Instr.cexec f).wf = true → (uz f.d && uz f.a && uz f.b) = true →
      ready s f.g (opened [Regs.pair f.a, Regs.one f.b, Regs.block f.c 8 1] [Regs.one f.d] true) = some c →
      (c.reg64 f.a 0 % 8 ≠ 0 → exec (.cexec f) s = .next (takeTrap s t w gang .misalign (BitVec.ofNat 64 (c.reg64 f.a 0)))) ∧
      (c.reg64 f.a 0 % 8 = 0 → ∀ x, (takes x ∨ (any = false ∧ x = named)) → contrailSecure s cl (x % 16 / 4) ≠ c.T.secure →
        exec (.cexec f) s = .next (takeTrap s t w gang .perm (BitVec.ofNat 64 sel))) ∧
      (c.reg64 f.a 0 % 8 = 0 → (∀ x, ¬ takes x) → (any = false → contrailSecure s cl (named % 16 / 4) = c.T.secure) →
        exec (.cexec f) s = .next (holdAt s t w gang (.wait .context))) ∧
      ∀ x, takes x → c.reg64 f.a 0 % 8 = 0 → contrailSecure s cl (x % 16 / 4) = c.T.secure →
        c.W.storeQ = [] → c.W.owc = 0 → readsPending s (.wave t w) = false →
        ∃ s' x' W', exec (.cexec f) s = .next s' ∧ retired s s' t w gang ∧ s'.mem = s.mem ∧ smGet? s'.ctxs x = some x' ∧
          wave? s' t w = some W' ∧ (isUniform f.d = true → ({ c with W := W' }).reg f.d 0 = 0x10000000 + x % 16 * 0x10000) ∧
          x'.st = .running ∧ x'.kpc = BitVec.ofNat 53 (c.reg64 f.a 0 / 8) ∧ x'.team = c.T.serial ∧ x'.ktl = 0 ∧ x'.kout = 0 ∧
          x'.kcause = 0 ∧ (∀ i, i < 8 → (smGetD x'.k i 0).toNat = c.reg (codeAt f.c i) 0) ∧
          (∀ i, 8 ≤ i → smGetD x'.k i 0 = 0) ∧ ∀ y, y ≠ x → smGet? s'.ctxs y = smGet? s.ctxs y) ∧
    query (.ceqry f) (fun x => ctxStatus x c.T.tag) ∧
    query (.ceqryArg f) (fun x => if x.ktag.toNat = c.T.tag then x.karg.toNat else 0)

/-- R219–R221, R328: ISCFG sets up an idle or closed FIFO with the octet's base, index, count, stride and offset, closed at
once where the count is 0; QCLOSE empties and closes it.

Completes: iscfg, qclose. -/
def Obligations.StreamSetupWordsComplete : Prop :=
  ∀ (s : State) (t w : Nat) (gang : BitVec 8) (f : SysW) (c : WCtx), s.cur = .wave t w gang → c.lanes ≠ 0 →
    let n := f.var.toNat % 4
    let r (i : Nat) : Nat := c.reg (codeAt f.a i) 0
    n < c.T.fifos.length →
    ((Instr.iscfg f).wf = true → ready s f.g (opened [Regs.block f.a 8 1] [] true) = some c → r 5 % 4 = 0 → r 6 % 4 = 0 →
      (∀ q, c.T.fifos[n]? = some q → q.st ≠ .streaming ∧ q.st ≠ .pushing) → c.W.storeQ = [] → c.W.owc = 0 →
      readsPending s (.wave t w) = false →
      ∃ s' T' q, exec (.iscfg f) s = .next s' ∧ retired s s' t w gang ∧ s'.mem = s.mem ∧ team? s' t = some T' ∧
        T'.fifos[n]? = some q ∧ q.st = (if r 4 = 0 then .closed else .streaming) ∧
        q.stream = some ⟨r 0 + r 1 * 2 ^ 32, r 2 + r 3 * 2 ^ 32, r 4, r 5, r 6, 0, none, none⟩ ∧
        ∀ k, k ≠ n → T'.fifos[k]? = c.T.fifos[k]?) ∧
    ((Instr.qclose f).wf = true → ready s f.g .ok = some c →
      ∃ s' T', exec (.qclose f) s = .next s' ∧ retired s s' t w gang ∧ s'.mem = s.mem ∧ team? s' t = some T' ∧
        T'.fifos[n]? = some ⟨.closed, [], none⟩ ∧ ∀ k, k ≠ n → T'.fifos[k]? = c.T.fifos[k]?)

/-- R222–R224, R376, R378, R354, R363: EMITR reserves the lowest free slot of a successor's queue and answers its address; EMIT commits a
reserved slot behind the records before it; RECGET delivers the addresses of records of the team's batch and RECGET.count
their number, emptying the load cache of the core; that RECGET.count does so too is the model's reading (log entry 15).

Completes: emit, emitr, recget, recgetCount. -/
def Obligations.RecordWordsComplete : Prop :=
  ∀ (s : State) (t w : Nat) (gang : BitVec 8) (f : SysW) (c : WCtx), s.cur = .wave t w gang → c.lanes ≠ 0 →
    let uz (c : BitVec 8) : Bool := isUniform c || c == 0xF8#8
    let me := (smGet? c.s.launches c.T.launch).elim 0 (·.node)
    let p := c.T.part
    ((Instr.emitr f).wf = true → uz f.d = true → uz f.a = true → ready s f.g (opened [Regs.one f.a] [Regs.pair f.d] true) = some c →
      c.T.repro = false → c.W.slots.length < 8 →
      ∀ n N k, (((node? c.s p me).elim [] (·.succ))[c.reg f.a 0]?) = some n → node? c.s p n = some N → mayEmit c.T me N = true →
        (List.range N.qcap).find? (fun k => !nsHas N.used k && !nsHas N.reserved k) = some k →
        ∃ s' N' W', exec (.emitr f) s = .next s' ∧ retired s s' t w gang ∧ wave? s' t w = some W' ∧ node? s' p n = some N' ∧
          N'.reserved = nsAdd N.reserved k ∧ N'.used = N.used ∧ N'.committed = N.committed ∧
          W'.slots = c.W.slots ++ [n * 2 ^ 32 + k] ∧ W'.s = (c.W.putRegs f.d 2 0 (N.qbase + 32 * N.rsize * k)).s) ∧
    ((Instr.emit f).wf = true → uz f.a = true → ready s f.g (opened [Regs.pair f.a] [] true) = some c → c.T.repro = false →
      c.W.storeQ = [] → c.W.owc = 0 → readsPending s (.wave t w) = false →
      ∀ x N, c.W.slots.find? (fun x => (node? c.s p (x / 2 ^ 32)).any fun N => slotAddr N (x % 2 ^ 32) == c.reg64 f.a 0) = some x →
        node? c.s p (x / 2 ^ 32) = some N →
        ∃ s' N' W', exec (.emit f) s = .next s' ∧ retired s s' t w gang ∧ wave? s' t w = some W' ∧
          node? s' p (x / 2 ^ 32) = some N' ∧ N'.stream = N.stream ++ [x % 2 ^ 32] ∧ N'.committed = N.committed + 1 ∧
          nsHas N'.used (x % 2 ^ 32) = true ∧ nsHas N'.reserved (x % 2 ^ 32) = false ∧ x ∉ W'.slots) ∧
    ((Instr.recget f).wf = true → (uz f.a || isVector f.a) = true → f.d ≠ 0xFE#8 →
      ready s f.g (opened [Regs.one f.a] [Regs.pair f.d] (isUniform f.d)) = some c →
      let ls := if isUniform f.d then (lanesOf c.lanes).take 1 else lanesOf c.lanes
      exec (.recget f) s = .next (invalidate (c.retire
        (ls.foldl (fun W l => W.putRegs f.d 2 l (recordAddr c.s c.T (c.reg f.a l))) c.W) f.bnd) c.T.core)) ∧
    ((Instr.recgetCount f).wf = true → f.d ≠ 0xFE#8 → ready s f.g (fun c => c.open [] [Regs.one f.d] (isUniform f.d)) = some c →
      let n := (smGet? c.s.launches c.T.launch).elim 0 fun L => L.batch.length
      let ls := if isUniform f.d then (lanesOf c.lanes).take 1 else lanesOf c.lanes
      exec (.recgetCount f) s = .next (invalidate (c.retire (ls.foldl (fun W l => W.putReg f.d l n) c.W) f.bnd) c.T.core))

/-- R461–R464: the mailbox network. A MAIL whose target wave has room takes its place in the FIFO and is acknowledged; one
without a target is counted and dropped, and acknowledged; one without room is refused, the sender being listed once and
while the list of the core has room. MAILACC lets the sending word retire; MAILREF leaves it waiting. A flit for another
module leaves by the fabric and not on this module's network (R451, R492).

R456: the flits of one unit to one unit arrive in the order sent; a slot signal that overtakes MAILREF waits for it.

R462, R464, R228: a receiver with room reserves a slot for the first listed sender and tells it; a refused sender that was
not listed sends again 1,024 mc (512 cc) after, while its team is active; the management cores' read of MBDROP answers the
count and clears it.

Completes: mail, mailacc, mailref, mailSlotGrant, mailResendTimeout, mbdropRead, mailboxControlFlit. -/
def Obligations.MailboxFlits : Prop :=
  (∀ (s : State) (f : MailFlit), (postMail s f).teams = s.teams ∧ (postMail s f).mem = s.mem ∧
      (postMail s f).mails = if (if f.kind = .mail then f.toMod else f.fromMod) = s.moduleNo then s.mails ++ [f] else s.mails) ∧
  (∀ (s : State) (n : Nat) (f : MailFlit), s.mails[n]? = some f → mailNext s n f = true →
      let rest := s.mails.eraseIdx n
      let back (g : MailFlit) : List MailFlit := if f.fromMod = s.moduleNo then rest ++ [g] else rest
      (∀ C, f.kind = .mail → core? s f.toCore = some C → C.stopped = false →
        (mailTarget s f = none → ∃ s' C', exec (.mail n) s = .next s' ∧ s'.mails = back { f with kind := .acc } ∧
          core? s' f.toCore = some C' ∧ C'.mbdrop = min (C.mbdrop + 1) (2 ^ 32 - 1) ∧ s'.teams = s.teams) ∧
        (∀ t T W, mailTarget s f = some (t, W) → team? s t = some T → T.waves[f.toWave]? = some W → f.granted = false → W.mboxRoom = true →
          C.mbRefused.any (sameTarget f) = false →
          ∃ s' W', exec (.mail n) s = .next s' ∧ s'.mails = back { f with kind := .acc } ∧
            wave? s' t f.toWave = some W' ∧ W'.mbox = W.mbox ++ [f.msg] ∧ (T.st ≠ .saved → s'.mem = s.mem)) ∧
        (∀ t W, mailTarget s f = some (t, W) → f.granted = false → W.mboxRoom = false →
          let known : Bool := C.mbRefused.any fun g => sameTarget g f && sameSender g f
          ∃ s' C', exec (.mail n) s = .next s' ∧ core? s' f.toCore = some C' ∧ s'.teams = s.teams ∧
            C'.mbRefused = (if known = false ∧ C.mbRefused.length < 16 then C.mbRefused ++ [f] else C.mbRefused) ∧
            s'.mails = back { f with kind := .ref, listed := known || decide (C.mbRefused.length < 16) })) ∧
      (∀ W, f.kind = .acc → coreStopped s f.fromCore = false → mailSender s f = some W →
        ∃ s' W', exec (.mailacc n) s = .next s' ∧ s'.mails = rest ∧ wave? s' f.fromTeam f.fromWave = some W' ∧
          W'.sending = none ∧ W'.resendAt = none) ∧
      (∀ W, f.kind = .ref → coreStopped s f.fromCore = false → mailSender s f = some W →
        ∃ s' W', exec (.mailref n) s = .next s' ∧ s'.mails = rest ∧ wave? s' f.fromTeam f.fromWave = some W' ∧
          W'.sending = W.sending ∧ W'.refused = true ∧ W'.resendAt = (if f.listed then W.resendAt else some s.now)) ∧
      (f.kind = .control → coreStopped s f.fromCore = false →
        (∀ W m, mailSender s f = some W → W.sending = some m → m.kind = .mail → sameTarget f m = true → senderActive s f = true → W.refused = false →
          exec (.mailboxControlFlit n) s = .next s) ∧
        (∀ W m, mailSender s f = some W → W.sending = some m → m.kind = .mail → sameTarget f m = true → W.refused = true → senderActive s f = true →
          ∃ s', exec (.mailboxControlFlit n) s = .next s' ∧
            s'.mails = if m.toMod = s.moduleNo then rest ++ [{ m with granted := true }] else rest) ∧
        (((∀ W m, mailSender s f = some W → W.sending = some m → sameTarget f m = false) ∨ senderActive s f = false) →
          ∃ s', exec (.mailboxControlFlit n) s = .next s' ∧ s'.mails = rest))) ∧
  (∀ (s : State) (t w : Nat),
      (∀ T C i f W, team? s t = some T → core? s T.core = some C → C.stopped = false →
        C.mbRefused.findIdx? (fun f => f.launch == T.launch && f.toWave == w) = some i → C.mbRefused[i]? = some f →
        mailTarget s f = some (t, W) → wave? s t w = some W → W.mboxRoom = true →
        ∃ s' C' W', exec (.mailSlotGrant t w) s = .next s' ∧ core? s' T.core = some C' ∧ wave? s' t w = some W' ∧
          C'.mbRefused = C.mbRefused.eraseIdx i ∧ W'.mbReserved = W.mbReserved + 1 ∧
          s'.mails = if f.fromMod = s.moduleNo then s.mails ++ [{ f with kind := .control }] else s.mails) ∧
      (∀ T W t0 m, team? s t = some T → T.waves[w]? = some W → W.resendAt = some t0 → W.sending = some m →
        m.kind = .mail → coreStopped s T.core = false →
        (t0 + 512 ≤ s.now → senderActive s m = true →
          ∃ s', exec (.mailResendTimeout t w) s = .next s' ∧
            s'.mails = if m.toMod = s.moduleNo then s.mails ++ [{ m with granted := false }] else s.mails) ∧
        (s.now < t0 + 512 → exec (.mailResendTimeout t w) s = .next s)) ∧
      (∀ core C, core? s core = some C → ∃ s' C', exec (.mbdropRead core) s = .next s' ∧ core? s' core = some C' ∧ C'.mbdrop = 0 ∧
        s'.outbox = s.outbox ++ [.csrValue (dieOf core * 4096 + 0xA00 + core % 200) (BitVec.ofNat 64 C.mbdrop)] ∧ s'.teams = s.teams))


/-! Matrix and Jetstream words, the ray unit, reservoirs. -/

/-- R232, R241–R252, R255–R257: a matrix word whose checks pass, with room in the team's matrix queue and the wave's earlier
accesses performed, retires with its operation at the end of the queue, its operands captured; no cell, mask or byte has
changed, and a register the operation writes waits for it. MXMASK sets its edge mask and MXFENCE numbers a batch at once.

Completes: mxzero, mxldw, mxloop, mxspl, mxdrain, mxfence, mxrd, mxrdStat, mxwr, mxmask, mxcfg. -/
def Obligations.MatrixWordsComplete : Prop :=
  ∀ (s : State) (t w : Nat) (gang : BitVec 8) (f : SysW) (c : WCtx), s.cur = .wave t w gang → c.lanes ≠ 0 →
    let free : Prop := c.T.mxq.length < 16 ∧ c.W.storeQ = [] ∧ c.W.owc = 0 ∧ readsPending s (.wave t w) = false
    let uni (l : List (BitVec 8)) : Prop := l.all uniOrZ = true
    let th := f.var.getLsbD 3
    let queued (i : Instr) (srcs dsts : List Regs) (kind : MxKind) : Prop :=
      i.wf = true → ready s f.g (opened srcs dsts false) = some c → SysW.tile f < c.T.naccs → free →
      ∃ s' T' W' o, exec i s = .next s' ∧ retired s s' t w gang ∧ s'.mem = s.mem ∧ team? s' t = some T' ∧ wave? s' t w = some W' ∧
        T'.mxq = c.T.mxq ++ [o] ∧ o.kind = kind ∧ o.id = c.T.mxNext ∧ o.batch = c.T.mxBatch + 1 ∧ o.started = false ∧
        o.targets = chooseTargets c.s t c.T.launch c.T.core kind.mask ∧ T'.mxNext = c.T.mxNext + 1 ∧ T'.tiles = c.T.tiles ∧ T'.mp = c.T.mp ∧ T'.np = c.T.np ∧ T'.scratch = c.T.scratch ∧
        W'.v = c.W.v ∧ W'.s = c.W.s ∧ ∀ r ∈ dsts.flatMap Regs.keys, (r, BusySrc.matrix c.T.mxNext) ∈ W'.busy
    (checkMask f c = .ok () → checkPeersHere f c = .ok () → checkLent c (SysW.tile f) = .ok () → checkTargets f c = .ok () →
      queued (.mxzero f) [] [] (.zero (SysW.tile f) (SysW.cmask f))) ∧
    (let a48 := f.var.extractLsb' 0 2 == 2#2
      let srcs := if a48 then [Regs.quad f.a] else []
      uni [f.a] → (a48 = true → bits (c.reg f.a 0) 15 10 = 0 ∧ bits (c.reg (codeAt f.a 1) 0) 15 10 = 0) →
      queued (.mxcfg f) srcs [] (.cfg (SysW.tile f) (if f.var.extractLsb' 0 2 == 0#2 then .xf48 else if a48 then .a48 else .i48)
        (if a48 then BitVec.ofNat 10 (c.reg (codeAt f.a 1) 0) else 0) (f.var.getLsbD 2))) ∧
    (let v := c.reg f.a 0
      let raw := f.var.getLsbD 0
      let dst := if raw then Regs.pair f.d else Regs.one f.d
      uni [f.a] → vecOrZ f.d = true → bit v 7 = false → v < 2 ^ 10 →
      queued (.mxrd f) [.one f.a] [dst] (.rd (SysW.tile f) raw f.d.toNat (v % 128) (32 * (v / 256)) c.lanes c.w)) ∧
    (uni [f.d] → queued (.mxrdStat f) [] [.one f.d] (.stat (SysW.tile f) f.d.toNat c.w)) ∧
    (let v := c.reg f.b 0
      let raw := f.var.getLsbD 0
      uni [f.b] → vecOrZ f.a = true → bit v 7 = false → v < 2 ^ 10 → checkLent c (SysW.tile f) = .ok () →
      queued (.mxwr f) [if raw then Regs.pair f.a else Regs.one f.a, .one f.b] [] (.wr (SysW.tile f) raw (v % 128) (32 * (v / 256))
        ((lanesOf c.lanes).map fun l => (l, BitVec.ofNat 64 (if raw then c.reg64 f.a l else c.reg f.a l))))) ∧
    (∀ p, uni [f.a, f.b, f.c] → ldwPlan f c = .ok p → (Instr.mxldw f).wf = true →
      ready s f.g (opened [sourceRegs th f.a, .quad f.b, .one f.c] [] false) = some c → free →
      ∃ s' T' o, exec (.mxldw f) s = .next s' ∧ retired s s' t w gang ∧ s'.mem = s.mem ∧ team? s' t = some T' ∧
        T'.mxq = c.T.mxq ++ [o] ∧ o.kind = .ldw p (SysW.cmask f) ∧ o.id = c.T.mxNext ∧ o.started = false ∧
        T'.issuedPlane = some p ∧ T'.plane = c.T.plane ∧ T'.tiles = c.T.tiles) ∧
    (∀ k, uni [f.d, f.a, f.b, f.c] → loopPlan f false c = .ok k →
      queued (.mxloop f) [sourceRegs th f.d, .one f.a, .pair f.b, .quad f.c] [] k) ∧
    (∀ k, uni [f.d, f.a, f.b, f.c] → loopPlan f true c = .ok k →
      queued (.mxspl f) [sourceRegs th f.d, .one f.a, .quad f.b, .quad f.c] [] k) ∧
    (∀ k, uni [f.d, f.a, f.b] → drainPlan f c = .ok k → queued (.mxdrain f) (drainSrcs f) [] k) ∧
    (let imm := immFlag f.var
      let quad := f.var.getLsbD 1
      let i := (f.x.extractLsb' 9 3).toNat
      let srcs := if imm then [] else if quad then [Regs.quad f.a] else [Regs.one f.a]
      let n := if imm then (SysW.imm f).toNat else c.reg f.a 0
      (Instr.mxmask f).wf = true → (imm = false → uni [f.a]) → ready s f.g (opened srcs [] false) = some c →
      c.T.mp.length = 4 → c.T.np.length = 8 →
      ∃ s' T', exec (.mxmask f) s = .next s' ∧ retired s s' t w gang ∧ team? s' t = some T' ∧ T'.mxq = c.T.mxq ∧
        (∀ k j, j < 128 → (if f.var.getLsbD 0 then T'.np else T'.mp)[k]?.map (fun m => m.getLsbD j) =
          if k = i then some (if quad then (c.regN f.a 4 0).testBit j else decide (j < n))
          else (if f.var.getLsbD 0 then c.T.np else c.T.mp)[k]?.map fun m => m.getLsbD j) ∧
        (if f.var.getLsbD 0 then T'.mp = c.T.mp else T'.np = c.T.np)) ∧
    ((Instr.mxfence f).wf = true → uni [f.d] → ready s f.g (fun c => c.open [] [.pair f.d] false) = some c →
      ∃ s' T' W', exec (.mxfence f) s = .next s' ∧ retired s s' t w gang ∧ team? s' t = some T' ∧ wave? s' t w = some W' ∧
        T'.mxBatch = c.T.mxBatch + 1 ∧ T'.mxq = c.T.mxq ∧ W'.s = (c.W.putRegs f.d 2 0 (c.T.mxBatch + 1)).s ∧
        (c.T.mxq = [] → T'.mxTl = BitVec.ofNat 64 (c.T.mxBatch + 1)))

/-- R260, R262, R265, R266, R268: JCHAIN with a well-formed pair, JSEND and JRECV put their operation at the end of the
matrix queue and hold their gang until it is done; JCLOSE, once no transfer of its chain is queued, closes the chain and
gives its landing buffer back; JABORT aborts it with reason 1, telling every member it knows; both name a chain of the
team, or PERM is raised; that a handle no JCHAIN ever opened raises it, too, is the model's reading (log entry 35).

Completes: jchain, jsend, jrecv, jclose, jabort. -/
def Obligations.JetstreamWordsComplete : Prop :=
  ∀ (s : State) (t w : Nat) (gang : BitVec 8) (f : SysW) (c : WCtx), s.cur = .wave t w gang → c.lanes ≠ 0 →
    let free : Prop := c.T.mxq.length < 16 ∧ c.W.storeQ = [] ∧ c.W.owc = 0 ∧ readsPending s (.wave t w) = false
    let uni (l : List (BitVec 8)) : Prop := l.all uniOrZ = true
    let held (i : Instr) (srcs dsts : List Regs) (kind : MxKind) : Prop :=
      i.wf = true → ready s f.g (opened srcs dsts false) = some c → free →
      exec i s = .next (setTeam c.s t { c.T.setWave w ((c.W.holdGang gang (.async c.T.mxNext f.bnd .chain)).setLast gang) with
        mxNext := c.T.mxNext + 1, mxq := c.T.mxq ++ [.fresh c.T.mxNext (c.T.mxBatch + 1) kind [(c.T.core % 8, t)]] })
    let p0 := c.reg f.a 0
    let p1 := c.reg (codeAt f.a 1) 0
    let h := c.reg f.a 0
    (uni [f.d, f.a] → SysW.tile f < c.T.naccs → 2 ≤ bits p0 27 20 → bits p0 19 12 < bits p0 27 20 → bits p0 31 28 = 0 →
      bit p1 31 = (bits p0 19 12 + 1 == bits p0 27 20) → bits p1 30 9 = 0 →
      (if bit p1 31 then bits p1 8 0 = 0 else bits p1 8 0 < 400 ∧ partOfCore c.s (bits p1 8 0) = some c.T.part) →
      held (.jchain f) [.pair f.a] [.one f.d]
        (.chain (SysW.tile f) (f.var.getLsbD 0) f.d.toNat (BitVec.ofNat 32 p0) (BitVec.ofNat 32 p1) w)) ∧
    (uni [f.d, f.a] → held (.jsend f) [.one f.a] [.pair f.d]
      (.send f.d.toNat h (c.T.mp.getD (f.x.extractLsb' 8 2).toNat 0) (c.T.np.getD (f.x.extractLsb' 5 3).toNat 0) w)) ∧
    (uni [f.d, f.a] → held (.jrecv f) [.one f.a] [.pair f.d] (.recv f.d.toNat h w)) ∧
    ((Instr.jclose f).wf = true → uni [f.a] → ready s f.g (opened [.one f.a] [] false) = some c →
      (∀ ch, handleChain c.T h = some ch → (∀ o ∈ c.T.mxq, o.kind.onChain ch.id = false) →
        ∃ s' T', exec (.jclose f) s = .next s' ∧ retired s s' t w gang ∧ team? s' t = some T' ∧
          (∀ d, chain? T' ch.id = some d → d.st = .closed ∧ d.inbox = []) ∧ (chain? T' ch.id).isSome = true ∧
          (∀ C', core? s' c.T.core = some C' → ∀ r ∈ C'.reservations, r.chain ≠ ch.id ∨ r.team ≠ t)) ∧
      (handleChain c.T h = none → exec (.jclose f) s = .next (takeTrap s t w gang .perm (BitVec.ofNat 64 h)))) ∧
    ((Instr.jabort f).wf = true → uni [f.a] → ready s f.g (opened [.one f.a] [] false) = some c →
      (∀ ch, handleChain c.T h = some ch → ch.isOpen = true →
        ∃ s' T', exec (.jabort f) s = .next s' ∧ retired s s' t w gang ∧ team? s' t = some T' ∧
          (∃ d, chain? T' ch.id = some d ∧ d.st = .aborted ∧ d.why = 1) ∧
          s'.jnet = s.jnet ++ ch.known.map fun m => ch.flit .abort c.T.core m 1) ∧
      (handleChain c.T h = none → exec (.jabort f) s = .next (takeTrap s t w gang .perm (BitVec.ofNat 64 h))))

/-- R270, R275–R282, R293, R415: a ray-unit word whose checks pass, with room in the request queue of its core, enters it with
the operands read at issue and holds its gang; before that, a lane whose first record lies outside every extent raises
EXTENT_MISS with the record's address (R198). RNG delivers its value at once.

R282, R415, R417: RTRACE_START takes a traversal slot for each lane of its entry, while the core has them; a ray-unit entry
whose lanes all finish writes each lane's results to its block (and RTRACE's predicate bit), marked where the data was
poisoned, leaves the queue, and its gang goes on. A lane that traps ends the entry with the trap and writes nothing.

Completes: rtbox, rttri, rtcrv, rtrace, rng, ltwalk, rtraceStart, rayUnitComplete. -/
def Obligations.RayWordsComplete : Prop :=
  (∀ (s : State) (t w : Nat) (gang : BitVec 8) (f : SysW) (c : WCtx), s.cur = .wave t w gang →
      let enters (i : Instr) (op : BitVec 8) (srcs dsts : List Regs) (uni : List (BitVec 8)) (align : Nat) (addr : WCtx → Nat → Nat)
          (reads : WCtx → Nat → List (Nat × Nat)) (vals : WCtx → Nat → List Nat) : Prop :=
        i.wf = true → (((srcs ++ dsts).filter fun r => 3 ≤ r.n).all fun r => isVector r.code) = true → uni.all uniOrZ = true →
        ready s f.g (opened srcs dsts false) = some c → c.lanes ≠ 0 → (∀ l, c.lanes.getLsbD l = true → addr c l % align = 0) →
        let meets (bad : Tr) (r : Nat × Nat) : Bool := recordIs c.s c.T bad r
        (∀ l r, c.lanes.getLsbD l = true → (∀ k, k < l → c.lanes.getLsbD k = true → ∀ q ∈ reads c k, meets .miss q = false) →
          (reads c l).find? (meets .miss) = some r → exec i s = .next (takeTrap s t w gang .extentMiss (BitVec.ofNat 64 r.1))) ∧
        ((∀ l, c.lanes.getLsbD l = true → ∀ r ∈ reads c l, meets .miss r = false ∧ meets .perm r = false) → ∀ C, core? c.s c.T.core = some C → C.rays.length < 16 →
          ∃ s' C' r, exec i s = .next s' ∧ s'.mem = s.mem ∧ core? s' c.T.core = some C' ∧ C'.rays = C.rays ++ [r] ∧
            (∀ q ∈ C.rays, q.id < r.id) ∧ r.team = t ∧ r.wave = w ∧ r.gang = gang ∧ r.word = f ∧ r.op = op ∧ r.lanes = c.lanes ∧
            r.vals = (lanesOf c.lanes).map (fun l => (l, vals c l)) ∧ r.started = false ∧
            wave? s' t w = some ((c.W.holdGang gang (.async r.id f.bnd .unit)).setLast gang))
      let imm := immFlag f.var
      let b : List Regs := if imm then [] else [Regs.one f.b]
      enters (.rtbox f) 0xB0#8 [.block f.a 8 8, .pair f.b] [.block f.d 9 4] [] 128 (fun c l => c.reg64 f.b l)
        (fun c l => [(c.reg64 f.b l, 128)]) (fun c l => [c.reg64 f.b l]) ∧
      enters (.rttri f) 0xB1#8 [.block f.a 8 8, .pair f.b] [.block f.d 4 4] [] 16 (fun c l => c.reg64 f.b l)
        (fun c l => [(c.reg64 f.b l, 48)]) (fun c l => [c.reg64 f.b l]) ∧
      enters (.rtcrv f) 0xB2#8 [.block f.a 8 8, .pair f.b] [.block f.d 4 4] [] 16 (fun c l => c.reg64 f.b l)
        (fun c l => [(c.reg64 f.b l, 32)]) (fun c l => [c.reg64 f.b l]) ∧
      enters (.rtrace f) 0xB3#8 ([.block f.d 24 8, .pair f.a] ++ b) [.block f.d 24 8] ([f.a] ++ if imm then [] else [f.b]) 128
        (fun c l => c.reg64 f.a l)
        (fun c l => traceFirst (c.reg64 f.a l) (Trav.ofRegs 0 (c.W.block f.d 24 l) none).start
          (min 4096 (if imm then (SysW.imm f).toNat else c.reg f.b l)))
        (fun c l => [c.reg64 f.a l, min 4096 (if imm then (SysW.imm f).toNat else c.reg f.b l)]) ∧
      enters (.ltwalk f) 0xBA#8 [.block f.a 4 4, .pair f.b, .one f.c] [.block f.d 3 4] [f.b] 1 (fun _ _ => 0)
        (fun c l => if bit (c.reg f.c l) 31 then [] else [((c.reg64 f.b l + 32 * (c.reg f.c l % 2 ^ 31)) % 2 ^ 64, 32)])
        (fun c l => [c.reg64 f.b l, c.reg f.c l]) ∧
      ((Instr.rng f).wf = true → uniOrZ f.a = true →
        ready s f.g (fun c => c.begin [.ofW f.a 2, .ofW f.b 1, .ofW f.c 1] [.ofW f.d 1] (isUniform f.d)) = some c →
        exec (.rng f) s = .next (c.finish f.bnd f.d 1 fun l =>
          let o := rngOut (c.regN f.a 2 l) (c.regN f.b 1 l) (c.regN f.c 1 l)
          if f.var.getLsbD 0 then rngUnif o else o))) ∧
  (∀ (s : State) (core n : Nat) (C : Core) (r : RayOp) (W : Wave), core? s core = some C → C.rays[n]? = some r →
      wave? s r.team r.wave = some W → C.stopped = false →
      let k := (lanesOf r.lanes).length
      (r.op = 0xB3#8 → r.started = false → C.swapping = false → C.active = some r.team → slotsUsed s core C + k ≤ 64 →
        ∃ s' C', exec (.rtraceStart core n) s = .next s' ∧ core? s' core = some C' ∧ s'.teams = s.teams ∧ s'.mem = s.mem ∧
          C'.rays[n]? = some { r with started := true, taken := k }) ∧
      ((r.op = 0xB3#8 → r.started = true) →
        let run := rayLanes s r W r.vals s
        let out (s : State) : State := modCore s core fun C => { C with rays := C.rays.filter fun q => q.id != r.id }
        (∀ res : List (Nat × RayOut), run.1 = res.map (fun x => (x.1, .ok x.2)) →
          exec (.rayUnitComplete core n) s = .next (wakeTeam (retireHeld
            (modWave (out run.2) r.team r.wave fun W => res.foldl (fun W x => putRay r.word r.op W x.1 x.2) W)
            r.team r.wave r.gang r.word.bnd) r.team)) ∧
        (∀ cause va, rayTrap run.1 = some (cause, va) →
          exec (.rayUnitComplete core n) s = .next (takeTrap (out run.2) r.team r.wave r.gang cause (BitVec.ofNat 64 va)))))

/-- R285–R291: RSVUPD, RSVMRG and RSVNRM write the words of D that their rules name, in every active lane, and leave the rest
of the block; RSVLD gives a pixel outside its view the null record and asks the home for the 32 bytes of every other,
holding its gang till they come where it acquires, and waits while an acquire of another gang of its wave is out (R354);
RSVST queues 32 bytes for every pixel inside the view and nothing for one outside. A lane that parks parks the wave.

R286–R288: what the reservoir update, merge and normalisation do to M and to FLAGS, of any record.

Completes: rsvupd, rsvmrg, rsvnrm, rsvld, rsvst. -/
def Obligations.ReservoirWordsComplete : Prop :=
  (∀ (s : State) (t w : Nat) (gang : BitVec 8) (f : SysW) (c : WCtx), s.cur = .wave t w gang →
      let d := Regs.block f.d 8 8
      let updates (i : Instr) (srcs : List Regs) (parts : List (BitVec 8 × List Nat)) (op : Nat → List (Nat × Nat)) : Prop :=
        i.wf = true → ((d :: srcs).all fun r => r.n != 8 || isVector r.code) = true →
        ready s f.g (fun c => do
          let c ← c.open (d :: srcs) [d] false
          c.checkParts parts
          .ok c) = some c →
        exec i s = .next (c.retire ((lanesOf c.lanes).foldl
          (fun W l => (op l).foldl (fun W p => W.putReg (codeAt f.d p.1) l p.2) W) c.W) f.bnd)
      let w0 := c.reg f.b 0
      let w1 := c.reg (codeAt f.b 1) 0
      let base := c.reg64 (codeAt f.b 2) 0
      let v := View.ofWords w0 w1 base
      let px := (lanesOf c.lanes).map fun l => (l, bits (c.reg f.a l) 15 0, bits (c.reg f.a l) 31 16)
      let m := SysW.memWord f
      updates (.rsvupd f) [.block f.a 8 8, .one f.b, .one f.c] [(f.d, [2, 4]), (f.a, [0, 1, 5, 6, 7]), (f.b, [0]), (f.c, [0])]
        (fun l => (rsvUpd (c.rec8 f.d l) (c.rec8 f.a l) (c.reg f.b l) (c.reg f.c l)).writes) ∧
      updates (.rsvmrg f) [.block f.a 8 8, .one f.b, .one f.c] [(f.d, [2, 4]), (f.a, [0, 3, 4, 5, 6, 7]), (f.b, [0]), (f.c, [0])]
        (fun l => (rsvMrg (c.rec8 f.d l) (c.rec8 f.a l) (c.reg f.b l) (c.reg f.c l) (if f.x == 0#12 then 65535 else f.x.toNat)).writes) ∧
      updates (.rsvnrm f) [] [(f.d, [1, 2, 4])] (fun l => rsvNrm (c.rec8 f.d l)) ∧
      ((Instr.rsvld f).wf = true → isVector f.d = true → uniOrZ f.b = true → c.lanes ≠ 0 →
        ready s f.g (opened [.one f.a, .quad f.b] [d] false) = some c → viewBad w0 w1 base = none → SysW.layer f ≤ v.layers →
        ∀ plan, planLanes c.s c.T .read 32 (v.inside (SysW.layer f) px) = .ok plan →
        (acquireOut s t w gang = true → exec (.rsvld f) s = .next (holdAt s t w gang (.wait (.result (acquiresOf s (.wave t w)))))) ∧
        (c.W.storeQ = [] → acquireOut s t w gang = false → ∃ s' W', accessEnds (.rsvld f) s t w gang f.bnd .read (m.ord == 1#2) m.scope.toNat c.T.core plan s' ∧
          s'.mem = s.mem ∧ wave? s' t w = some W' ∧
          (∀ l, c.lanes.getLsbD l = true → v.holds (bits (c.reg f.a l) 15 0) (bits (c.reg f.a l) 31 16) = false →
            (List.range 8).map (fun i => ({ c with W := W' }).reg (codeAt f.d i) l) = nullRecord) ∧
          ∀ x ∈ plan.ok, ∃ r ∈ s'.reqs, r.who = .wave t w ∧ r.kind = .read ∧ r.st = .flight ∧ r.lane = x.lane ∧ r.pa = x.pa ∧
            r.size = 32 ∧ r.d = f.d.toNat ∧ ∀ k ∈ (Regs.block f.d 8 1).keys, (k, BusySrc.req r.rid) ∈ W'.busy)) ∧
      ((Instr.rsvst f).wf = true → isVector f.d = true → uniOrZ f.b = true → c.lanes ≠ 0 →
        ready s f.g (opened [.one f.a, .quad f.b, d] [] false) = some c → viewBad w0 w1 base = none → SysW.layer f ≤ v.layers →
        ∀ plan, planLanes c.s c.T .write 32 (v.inside (SysW.layer f) px) = .ok plan →
        ∃ (s' : State) (W' : Wave) (rids : List Rid),
          accessEnds (.rsvst f) s t w gang f.bnd .write false m.scope.toNat c.T.core plan s' ∧ s'.mem = s.mem ∧
          wave? s' t w = some W' ∧ W'.storeQ = c.W.storeQ ++ rids.map StoreE.global ∧ rids.length = plan.ok.length ∧
          ∀ (k : Nat) (x : OkLane), plan.ok[k]? = some x → ∃ r ∈ s'.reqs, rids[k]? = some r.rid ∧ r.who = .wave t w ∧
            r.kind = .write ∧ r.st = .queued ∧ r.lane = x.lane ∧ r.pa = x.pa ∧ r.size = 32 ∧ r.ord = m.ord ∧ r.scope = m.scope ∧
            r.data = (c.rec8 f.d x.lane).flatMap (toBytes 4))) ∧
  (∀ (r q : List Nat) (w u p cap : Nat), r.length = 8 →
      let after (ws : List (Nat × Nat)) : List Nat := putWords r ws
      let kept (ws : List (Nat × Nat)) : Prop := ∀ i, i = 0 ∨ i = 1 ∨ 5 ≤ i → rw (after ws) i = rw r i
      (rwM (after (rsvUpd r q w u).writes) = min (rwM r + 1) 65535 ∧
        bit (rwFlags (after (rsvUpd r q w u).writes)) 0 = false ∧ rw (after (rsvUpd r q w u).writes) 3 = rw r 3 ∧
        ((rsvUpd r q w u).sample = none → kept (rsvUpd r q w u).writes)) ∧
      (rwM (after (rsvMrg r q p u cap).writes) = min (rwM r + min (rwM q) cap) 65535 ∧
        bit (rwFlags (after (rsvMrg r q p u cap).writes)) 0 = false ∧ rw (after (rsvMrg r q p u cap).writes) 3 = rw r 3 ∧
        ((rsvMrg r q p u cap).sample = none → kept (rsvMrg r q p u cap).writes)) ∧
      (rwM (after (rsvNrm r)) = rwM r ∧ bit (rwFlags (after (rsvNrm r))) 0 = true ∧ rw (after (rsvNrm r)) 2 = rw r 2 ∧
        (rwM r = 0 → rw (after (rsvNrm r)) 0 = 0xFFFFFFFF ∧ rw (after (rsvNrm r)) 3 = 0 ∧ rwNull (after (rsvNrm r)) = true)))


/-! Stream words, reuse passes and the matrix engine. -/

/-- R316–R318, R329, R331, R333, R305: the stream profile's own words that are not copies. KLD and KST act on the scratchpad a
reference names; AGSET loads a generator and AGSTEP steps it and answers its address and what is left; QPUSH appends the
elements it reads to its FIFO, from the scratchpad or from memory; TLINC is kept until the copies before it are over;
SWAIT goes on while no more than its operand of copies are outstanding and waits otherwise; STOPC begins the stop.

R318: one step of a generator of n dimensions counts its positions as one number of mixed radix, the first dimension
fastest: the number goes up by one, or, from the last, every position returns to 0 and the generator is done.

Completes: kld, kst, agset, agstep, qpush, tlinc, swait, stopc. -/
def Obligations.StreamWordsComplete : Prop :=
  (∀ (s : State) (f : SysW),
      let n := kSize f.var.toNat
      let ref (c : KCtx) := useRef c.s c.x c.X (c.k f.a) (c.kRef f) n n
      let stored (c : KCtx) : Prop := c.X.storeQ = [] ∧ c.X.owc = 0 ∧ readsPending c.s (.context c.x) = false
      let opens (srcs dsts : List (BitVec 8)) (c : KCtx) : Except Stop Unit := do
        c.open srcs dsts
        c.checkPoison srcs
      let blockRegs : List (BitVec 8) := (List.range (SysW.dims f + 1)).map fun i => f.a + BitVec.ofNat 8 i
      let imm := immFlag f.var
      let one : List (BitVec 8) := if imm then [] else [f.a]
      let v (c : KCtx) : Nat := if imm then (SysW.imm f).toNat else c.k f.a
      let pushed (i : Instr) (c : KCtx) (s1 : State) (X : Ctx) (xs : List (Word × Bool)) : Prop :=
        let k := f.var.toNat % 4
        (ctxTeam s1 c.X = none ∨ (∃ T, ctxTeam s1 c.X = some T ∧ T.heldState = false) ∨
          (∃ T q, ctxTeam s1 c.X = some T ∧ T.fifos[k]? = some q ∧ (q.st = .streaming ∨ q.st = .closed)) →
          ∃ s' X', exec i s = .next s' ∧ s'.mem = s.mem ∧ s'.teams = s.teams ∧ smGet? s'.ctxs c.x = some X' ∧
            smGetD X'.k f.d.toNat 0 = 0 ∧ X'.kpc = c.X.kpc + 1) ∧
        ∀ T q, ctxTeam s1 c.X = some T → T.heldState = true → T.key = teamKey c.X.part c.X.team →
          T.fifos[k]? = some q → (q.st = .idle ∨ q.st = .pushing) → q.elems.length + xs.length ≤ 256 →
          ∃ s' T' X', exec i s = .next s' ∧ s'.mem = s.mem ∧ team? s' T.key = some T' ∧ smGet? s'.ctxs c.x = some X' ∧
            T'.fifos[k]? = some { q with st := if f.var.getLsbD 3 then .closed else .pushing, elems := q.elems ++ xs } ∧
            (smGetD X'.k f.d.toNat 0).toNat = xs.length ∧ X'.kpc = c.X.kpc + 1 ∧
            X'.bind = setAt X.bind (T.core % 8) (bindEntry s1 c.x X (T.core % 8))
      ((Instr.kld f).wf = true → ∀ c, readyCtx s (opens [f.a] [f.d]) = some c → ∀ X t T off, ref c = .ok (X, t, T, off) →
        readsPending s (.context c.x) = false → outsideWaits T off n = false →
        let r := outsideRead s T off n
        let y := X.putK f.d (if f.var.getLsbD 0 then ofSigned 64 (toSigned (8 * n) (ofBytes r.1)) else ofBytes r.1)
        exec (.kld f) s = .next (c.retire (if r.2 then { y with kpoison := nsAdd y.kpoison f.d.toNat } else y))) ∧
      ((Instr.kst f).wf = true → ∀ c, readyCtx s (opens [f.a, f.d] []) = some c → ∀ X t T off, ref c = .ok (X, t, T, off) →
        stored c → outsideWaits T off n = false →
        exec (.kst f) s = .next (outsideWrite (c.retire { X with outNow := X.outNow || t != teamKey X.part X.team }) t off
          (toBytes n (c.k f.d)) false)) ∧
      ((Instr.agset f).wf = true → ∀ c, readyCtx s (opens blockRegs []) = some c → c.X.ags.length = 4 →
        let m := SysW.dims f
        let w (i : Nat) : Nat := c.k (f.a + BitVec.ofNat 8 (i + 1))
        ∃ g, exec (.agset f) s = .next (c.retire { c.X with ags := setAt c.X.ags (f.var.toNat % 4) g }) ∧
          g.base = BitVec.ofNat 64 (c.k f.a) ∧ g.addr = g.base ∧ g.dims = m ∧ g.pos = [0, 0, 0, 0, 0] ∧
          (∀ i, i < m → i < 5 → g.counts[i]? = some (w i % 2 ^ 32) ∧ g.strides[i]? = some (toSigned 32 (w i / 2 ^ 32))) ∧
          (g.done = true ↔ ∃ i, i < m ∧ i < 5 ∧ w i % 2 ^ 32 = 0)) ∧
      ((Instr.agstep f).wf = true → ∀ c, readyCtx s (fun c => c.open [] [f.d, f.b]) = some c →
        let k := f.var.toNat % 4
        let g := c.X.ags.getD k AddrGen.blank
        exec (.agstep f) s = .next (c.retire (if g.done then (c.X.putK f.d 0).putK f.b 0
          else ({ c.X with ags := setAt c.X.ags k g.step }.putK f.d g.addr.toNat).putK f.b g.step.left))) ∧
      ((Instr.qpush f).wf = true → ∀ c, readyCtx s (opens [f.a, f.b] [f.d]) = some c → c.k f.a % 4 = 0 → 1 ≤ c.k f.b → c.k f.b ≤ 256 →
        stored c →
        (∀ X t T off, f.var.getLsbD 2 = true → useRef s c.x c.X (c.k f.a) (c.k f.a) (4 * c.k f.b) 4 = .ok (X, t, T, off) →
          outsideWaits T off (4 * c.k f.b) = false → pushed (.qpush f) c s X (scratchElems s T off (c.k f.b))) ∧
        (∀ s1 bs, f.var.getLsbD 2 = false → globalSides c [⟨false, c.k f.a, 4 * c.k f.b, .read⟩] = .ok () → engRead s (ctxEng s c.x c.X) (c.k f.a) (4 * c.k f.b) = (s1, .ok bs) →
          pushed (.qpush f) c (dropFar s1 (.context c.x)) c.X (elemsOf bs))) ∧
      ((Instr.tlinc f).wf = true → ∀ c, readyCtx s (opens one []) = some c → v c ≠ 0 →
        exec (.tlinc f) s = .next (c.retire { c.X with
          deferred := c.X.deferred ++ [.tlinc (BitVec.ofNat 64 (v c)) c.X.issued (undoneReads c.s (.context c.x)) c.X.outNow], outNow := false })) ∧
      ((Instr.swait f).wf = true → ∀ c, readyCtx s (opens one []) = some c →
        exec (.swait f) s = .next (if c.X.kout ≤ v c then c.retire c.X else modCtx s c.x fun X => { X with wait := some .unit })) ∧
      (∀ c, (Instr.stopc f).wf = true → readyCtx s (fun c => c.open [] []) = some c →
        (c.X.copyFail = false → exec (.stopc f) s = .next (c.put { c.X with st := .stopping, wait := none })) ∧
        (c.X.copyFail = true → exec (.stopc f) s = .next (c.put { c.X with
          st := .faulting, kcause := 0x1A#8, karg := 0, faultVa := 0, copyFail := false })))) ∧
  (∀ (ns ps : List Nat), ns.length = ps.length → (∀ (i n p : Nat), ns[i]? = some n → ps[i]? = some p → p < n) →
      let number (qs : List Nat) : Nat := (ns.zip qs).foldr (fun x a => x.2 + x.1 * a) 0
      let r := agNext ns ps
      r.1.length = ns.length ∧
      (number ps + 1 < ns.foldl (· * ·) 1 → r.2 = false ∧ number r.1 = number ps + 1) ∧
      (number ps + 1 = ns.foldl (· * ·) 1 → r.2 = true ∧ ∀ p ∈ r.1, p = 0))

/-- R318: AGSTEP. A generator that is done yields 0 twice and stays as it is. Otherwise k[D] is its ADDR and the positions count on, dimension 0
fastest: a position whose lower dimensions all return to 0 goes up by one, or returns to 0 where that is its count; the generator is done when it
has dimensions and all of them return. ADDR is the base plus the positions times their strides modulo 2^64; LEFT falls by one but stays at 2^64 - 1; k[B] is the new LEFT. No
memory is read or written and no fault arises. D and B the same: ILLEGAL_ENC. Stated of the generators that AGSET makes: five counts, strides and
positions, at most five dimensions, and, of one that is not done, LEFT not yet 0.

Completes: agstep. -/
def Obligations.AddressGeneratorSteps : Prop :=
  (∀ (s : State) (f : SysW) (c : KCtx) (g : AddrGen), (Instr.agstep f).wf = true →
      readyCtx s (fun c => c.open [] [f.d, f.b]) = some c → c.X.ags[f.var.toNat % 4]? = some g →
      g.counts.length = 5 → g.strides.length = 5 → g.pos.length = 5 → g.dims ≤ 5 → g.left < 2 ^ 64 →
      let P (i : Nat) : Nat := g.pos.getD i 0
      let N (i : Nat) : Nat := g.counts.getD i 0
      let returns (i : Nat) : Prop := ∀ j, j < i → N j ≤ P j + 1
      ∃ s' X', exec (.agstep f) s = .next s' ∧ s'.mem = s.mem ∧ s'.reqs = s.reqs ∧ s'.teams = s.teams ∧
        smGet? s'.ctxs c.x = some X' ∧ X'.kpc = c.X.kpc + 1 ∧
        (∀ r, r ≠ f.d.toNat → r ≠ f.b.toNat → smGetD X'.k r 0 = smGetD c.X.k r 0) ∧
        (g.done = true → smGetD X'.k f.d.toNat 0 = 0 ∧ smGetD X'.k f.b.toNat 0 = 0 ∧ X'.ags = c.X.ags) ∧
        (g.done = false → 1 ≤ g.left → smGetD X'.k f.d.toNat 0 = g.addr ∧ (∀ j, j ≠ f.var.toNat % 4 → X'.ags[j]? = c.X.ags[j]?) ∧
          ∃ h, X'.ags[f.var.toNat % 4]? = some h ∧ h.base = g.base ∧ h.counts = g.counts ∧ h.strides = g.strides ∧ h.dims = g.dims ∧
            (∀ i, i < g.dims → (returns i → h.pos[i]? = some (if P i + 1 < N i then P i + 1 else 0)) ∧ (¬ returns i → h.pos[i]? = some (P i))) ∧
            (h.done = true ↔ 0 < g.dims ∧ returns g.dims) ∧
            h.addr = BitVec.ofInt 64 ((g.base.toNat : Int) +
              ((List.range g.dims).map fun i => (h.pos.getD i 0 : Int) * g.strides.getD i 0).foldl (· + ·) 0) ∧
            h.left = (if g.left = 2 ^ 64 - 1 then g.left else g.left - 1) ∧ (smGetD X'.k f.b.toNat 0).toNat = h.left)) ∧
  (∀ (s : State) (e k ch n : Nat) (r : List Turn) (rest : List Nat) (X : Ctx) (T : Team) (s1 : State) (x : IWord),
    s.agenda = ⟨.contrail e, ch, n⟩ :: r →
    let s0 := beginTurn s ⟨.contrail e, ch, n⟩ r
    contrailOrder s0 e = k :: rest → smGet? s0.ctxs k = some X → ctxTeam s0 X = some T → 
    fetchFor s0 (.context k) 0 (some (ctxUnit k, X.secure)) T (X.kpc.toNat * 8) = .word x s1 →
    pairedBit x = false → opcOf x = 0xD3#8 → x.extractLsb' 38 8 = x.extractLsb' 22 8 →
    step s = .next (noteIssued (faultCtx s1 k Cause.illegalEnc.code 0 0) k))

/-- R319, R320, R323–R327, R335: a copy word of a context whose operands are aligned and translate, with its references bound,
room for one more copy and its earlier writes acknowledged, goes on at once: the copy takes the next number and joins the
copies with what its word names, KOUT counts it, and without .ns its status register waits. No byte has moved. CBLOAD
takes its codebook slot as well; SDECODE takes the table as it stands.

Completes: scopy, sgath, sscat, smcast, cbload, sdecode. -/
def Obligations.StreamCopyWordsComplete : Prop :=
  ∀ (s : State) (f : SysW) (c : KCtx),
    let stored : Prop := c.X.storeQ = [] ∧ c.X.owc = 0 ∧ readsPending c.s (.context c.x) = false ∧ c.X.kout < 64
    let opens (srcs : List (BitVec 8)) (c : KCtx) : Except Stop Unit := do
      c.open srcs (SysW.statusRegs f)
      c.checkPoison srcs
    let a := c.k f.a
    let b := c.k f.b
    let n := c.k f.c
    let issued (i : Instr) (X : Ctx) (kind : CopyKind) : Prop :=
      ∃ s' X' p, exec i s = .next s' ∧ s'.mem = s.mem ∧ s'.teams = s.teams ∧ smGet? s'.ctxs c.x = some X' ∧
        X'.copies = X.copies ++ [p] ∧ p.num = X.issued + 1 ∧ p.kind = kind ∧ p.ns = SysW.ns f ∧ p.d = f.d.toNat ∧ p.pos = 0 ∧
        p.fin = false ∧ p.code = 0 ∧ X'.issued = X.issued + 1 ∧ X'.kout = X.kout + 1 ∧ X'.kpc = X.kpc + 1 ∧ X'.k = X.k ∧
        (SysW.ns f = false → X'.kbusy = X.kbusy ++ [(f.d.toNat, X.issued + 1)])
    let linear (i : Instr) (srcs : List (BitVec 8)) (sps : List SideSpec) (kind : List Loc → CopyKind) : Prop :=
      readyCtx s (opens srcs) = some c → i.wf = true → stored → ∀ X sides, openSides c c.X sps = .ok (X, sides) → sideCode sides = none →
        issued i X (kind (sides.map Side.loc))
    let c1 : BitVec 8 := f.c + 1
    let rows := c.k c1 % 2 ^ 32
    let r := c.k c1 / 2 ^ 32
    let at_ (l : List Loc) (i : Nat) : Loc := l.getD i (.global 0)
    let indexed (i : Instr) (ga : Bool) (kind : Loc → Loc → Loc → CopyKind) : Prop :=
      a % 16 = 0 → b % 16 = 0 → n % 16 = 0 → r % 16 = 0 → 1 ≤ r → r ≤ 4096 → 1 ≤ rows → rows ≤ 65535 →
      linear i [f.a, f.b, f.c, c1]
        [⟨f.var.getLsbD 0, a, if ga then rows * r else 0, .write⟩, ⟨f.var.getLsbD 1, b, if ga then 0 else rows * r, .read⟩,
          ⟨f.var.getLsbD 2, n, 4 * rows, .read⟩] fun l => kind (at_ l 0) (at_ l 1) (at_ l 2)
    (a % 16 = 0 → b % 16 = 0 → n % 16 = 0 → n ≤ 2 ^ 24 → 1 ≤ n →
      linear (.scopy f) [f.a, f.b, f.c] [⟨f.var.getLsbD 0, a, n, .write⟩, ⟨f.var.getLsbD 1, b, n, .read⟩]
        fun l => .linear (at_ l 0) (at_ l 1) n) ∧
    indexed (.sgath f) true (fun x y z => .gather x y z rows r) ∧
    indexed (.sscat f) false (fun x y z => .scatter x y z rows r) ∧
    (a % 16 = 0 → b % 16 = 0 → n % 16 = 0 → n ≤ 524288 → 1 ≤ n → refBad a = false → refCore a = 0 →
      readyCtx s (opens [f.a, f.b, f.c]) = some c → (Instr.smcast f).wf = true → stored →
      globalSides c [⟨false, b, n, .read⟩] = .ok () →
      ∀ X ds, openSides c c.X (((List.range 8).filter fun j => bit (SysW.mask8 f) j).map fun j => ⟨true, a + j * 2 ^ 29, n, .write⟩) = .ok (X, ds) →
        (∀ d ∈ ds, ∃ l, d = .at l) → ds ≠ [] → issued (.smcast f) X (.mcast (ds.map fun d => (d.loc, 1)) b n)) ∧
    (a % 256 = 0 → readyCtx s (opens [f.a]) = some c → (Instr.cbload f).wf = true → stored →
      globalSides c [⟨false, a, 16384, .read⟩] = .ok () →
      ∀ i C, bookSlot s (c.x / 16) c.X.ktag.toNat = some i → smGet? s.clusters (c.x / 16) = some C → i < C.codebooks.length →
        issued (.cbload f) c.X (.cbload i a) ∧ ∃ s' C' k, exec (.cbload f) s = .next s' ∧ smGet? s'.clusters (c.x / 16) = some C' ∧
          C'.codebooks[i]? = some k ∧ k.tag = some c.X.ktag.toNat ∧ k.loading = true ∧
          ∀ j, j ≠ i → C'.codebooks[j]? = C.codebooks[j]?) ∧
    (∀ k, a % 16 = 0 → 1 ≤ n → n ≤ 2 ^ 20 → ((smGet? s.clusters (c.x / 16)).elim [] (·.codebooks)).find? (fun k => k.tag == some c.X.ktag.toNat) = some k →
      k.loading = false →
      let cb := (f.x.extractLsb' 10 2).toNat
      linear (.sdecode f) [f.a, f.b, f.c] [⟨f.var.getLsbD 0, a, 16 * n, .write⟩, ⟨f.var.getLsbD 1, b, n, .read⟩] fun l =>
        .decode (at_ l 0) (at_ l 1) n ((k.bytes.filter fun p => p.1 / 4096 == cb).map fun p => (p.1 % 4096, p.2))
          ((k.psn.filter fun g => g / 256 == cb).map fun g => g % 256))

/-- R319, R322, R326, R330–R332, R336, R305, R215: the events of the Contrail datapath. A burst moves the pieces of the copy that
the turn's choice takes; a copy that is over takes its status and leaves, a failed one without a status register faulting its context once the running word has finished; TLINC and CBARV apply in their order once the
copies before them are over and the writes acknowledged; a faulting or stopping context with nothing outstanding is
Faulted or Stopped; a stream reads one index and one element, and closes with its last.

Completes: copyBurst, copyComplete, waveCopyComplete, tlincApply, cbarvApply, contextFaulted, stopcComplete, streamFetch. -/
def Obligations.DatapathEvents : Prop :=
  ∀ (s : State),
    (∀ e x X c, (burstClients s e)[s.choice % (burstClients s e).length]? = some (.ctx x c) → smGet? s.ctxs x = some X →
      let r := copyPieces x X { ctxEng s x X with who := .scopy x c.num } 32 16 s c
      exec (.copyBurst e) s = .next (modCtx (modCluster r.1 (x / 16) fun C => { C with
          served := setAt C.served (x / 4 % 4) (x % 4)
          owed := modAt C.owed (x / 4 % 4) fun k => k - 1 }) x fun X => { X with copies := X.copies.map fun d => if d.num == c.num then r.2 else d })) ∧
    (∀ e t T c, (burstClients s e)[s.choice % (burstClients s e).length]? = some (.wave t c) → team? s t = some T →
      let r := wavePieces t T { teamEng s T (ctxUnit (e * 4)) with who := .copy t c.num } 16 s c
      exec (.copyBurst e) s = .next (modTeam r.1 t fun T => { T with copies := T.copies.map fun d => if d.num == c.num then r.2 else d })) ∧
    (∀ x X c, smGet? s.ctxs x = some X → X.copies.find? (fun d => d.num == c.num) = some c → c.fin = true →
      engOwc s (.scopy x c.num) = 0 → unitStopped s X.part (ctxUnit x) = false →
      ∃ s' X', exec (.copyComplete x c.num) s = .next s' ∧ s'.mem = s.mem ∧ smGet? s'.ctxs x = some X' ∧ X'.kout = X.kout - 1 ∧
        X'.copies = X.copies.filter (fun d => d.num != c.num) ∧
        (c.ns = false → (∀ ds y n, c.kind ≠ .mcast ds y n) →
          smGetD X'.k c.d 0 = BitVec.ofNat 64 (c.num % 2 ^ 48 * 2 ^ 16 + max 1 c.code) ∧ X'.st = X.st) ∧
        (∀ ds y n, c.ns = false → c.kind = .mcast ds y n →
          smGetD X'.k c.d 0 = BitVec.ofNat 64 (c.num % 2 ^ 48 * 2 ^ 16 + (ds.map (·.2)).foldl max (max 1 c.code)) ∧ X'.st = X.st) ∧
        (c.ns = true → 1 < c.code →
          (X.st = .running → X.wait = none → X.redo = false → X'.st = .faulting ∧ X'.kcause = 0x1A#8) ∧
          (X.st = .stopping → X'.st = .faulting ∧ X'.kcause = 0x1A#8) ∧
          ((X.st = .parked ∨ (X.st = .running ∧ (X.wait ≠ none ∨ X.redo = true))) → X'.st = X.st ∧ X'.copyFail = true))) ∧
    (∀ t T c, team? s t = some T → T.copies.find? (fun d => d.num == c.num) = some c → c.over_ = true → c.park = none →
      engOwc s (.copy t c.num) = 0 → unitStopped s T.part (ctxUnit (T.core / 2 * 4)) = false →
      ∃ s' T', exec (.waveCopyComplete t c.num) s = .next s' ∧ s'.mem = s.mem ∧ team? s' t = some T' ∧
        T'.copies = T.copies.filter (fun d => d.num != c.num) ∧
        ∀ W, wave? s t c.wave = some W → ∃ W', wave? s' t c.wave = some W' ∧ (∀ k ∈ W'.busy, k.2 ≠ BusySrc.copy c.num) ∧
          (0xC0 ≤ c.d → c.d < 0xF8 →
            let v := BitVec.ofNat 64 (c.num % 2 ^ 48 * 2 ^ 16 + (if c.toScratch then c.dests.map (·.2.2) else []).foldl max (max 1 c.code))
            smGetD W'.s (c.d - 0xC0) 0 = v.extractLsb' 0 32 ∧ smGetD W'.s (c.d - 0xC0 + 1) 0 = v.extractLsb' 32 32)) ∧
    (∀ x X m after reads out rest, smGet? s.ctxs x = some X → X.deferred = .tlinc m after reads out :: rest →
      deferredFree s x X after reads = true →
      ∃ s' X', exec (.tlincApply x) s = .next s' ∧ s'.mem = s.mem ∧ smGet? s'.ctxs x = some X' ∧ X'.ktl = X.ktl + m ∧
        X'.deferred = rest) ∧
    (∀ x X d serial gen off m after reads rest t T, smGet? s.ctxs x = some X → X.deferred = .cbarv d serial gen off m after reads :: rest →
      deferredFree s x X after reads = true → boundTeam s X.part serial gen = some (t, T) → outsideWaits T off 16 = false →
      ∃ s' X', exec (.cbarvApply x) s = .next s' ∧ smGet? s'.ctxs x = some X' ∧ X'.deferred = rest ∧
        (d < 256 → (smGetD X'.k d 0).toNat = fieldB (outsideRead s T off 16).1 8 4)) ∧
    (∀ x X, smGet? s.ctxs x = some X → X.kout = 0 → X.deferred = [] → unitStopped s X.part (ctxUnit x) = false →
      (X.st = .faulting → ∃ s' X', exec (.contextFaulted x) s = .next s' ∧ s'.mem = s.mem ∧ smGet? s'.ctxs x = some X' ∧
        X' = { X with st := .faulted }) ∧
      (X.st = .stopping → ∃ s' X', exec (.stopcComplete x) s = .next s' ∧ s'.mem = s.mem ∧ smGet? s'.ctxs x = some X' ∧
        X' = { X with st := .stopped })) ∧
    (∀ t T q f st s1 el, team? s t = some T → T.fifos[q]? = some f → f.st = .streaming → f.stream = some st → st.park = none →
      f.elems.length < 256 → T.st ≠ .ended → unitStopped s T.part (ctxUnit (T.core / 2 * 4)) = false →
      fetchTurn s T.core = true → streamElem s { teamEng s T (ctxUnit (T.core / 2 * 4)) with who := .stream t q } st = (s1, .inr el) →
      ∃ s' T', exec (.streamFetch t q) s = .next s' ∧ s'.mem = s.mem ∧ team? s' t = some T' ∧ T'.fifos[q]? = some
        { f with elems := f.elems ++ [el], stream := some { st with next := st.next + 1 },
                 st := if st.next + 1 = st.count then .closed else .streaming })

/-- R294–R302, R419–R421, R478: REUSE with a legal descriptor takes the lowest free pass slot of its cluster and answers its
handle and the number its timeline will have; one that waited for a slot keeps the descriptor it read. CPARG reads a field of the
candidate; CPRET ends the lane's evaluation; a pass starts with the pixels of its engine, asks for the records across the split (at most 32
columns of a tile row, the one it waits for first),
writes the record of a pixel whose candidates are all merged, lends a visibility segment a slot and settles it, and ends by
advancing its timeline.

Completes: reuse, cparg, cpret, haloRequest, passStart, passPixel, visibilitySegment, passEnd. -/
def Obligations.PassesComplete : Prop :=
  ∀ (s : State),
    (∀ t w gang (f : SysW) c, s.cur = .wave t w gang → (Instr.reuse f).wf = true → uniOrZ f.a = true → uniOrZ f.d = true →
      ready s f.g (opened [.pair f.a] [.quad f.d] true) = some c → c.lanes ≠ 0 →
      let k := clusterOf c.T.core
      let granted (d : List Byte) : Prop := ∀ i P, (List.range 4).find? (fun i => (pass? s k i).any fun P => P.st == .free) = some i →
        pass? s k i = some P →
        ∃ s' P' W', exec (.reuse f) s = .next s' ∧ retired s s' t w gang ∧ s'.mem = s.mem ∧ pass? s' k i = some P' ∧
          P'.st = .granted ∧ P'.team = t ∧ P'.desc = d ∧ P'.timeline = P.timeline ∧ P'.pixels = 0 ∧
          wave? s' t w = some W' ∧ (isUniform f.d = true → ({ c with W := W' }).reg f.d 0 = 2 ^ 29 + i * 2 ^ 16 ∧
            ({ c with W := W' }).reg64 (codeAt f.d 2) 0 = (P.timeline.toNat + 1) % 2 ^ 64)
      (∀ q, c.W.descs.find? (fun q => q.1 == lowSlice c.gang) = some q → granted q.2) ∧
      (c.W.descs.find? (fun q => q.1 == lowSlice c.gang) = none →
        passSecure s k = c.T.secure → c.W.storeQ = [] → c.W.owc = 0 → readsPending s (.wave t w) = false →
        ∀ s1 bs, readDesc c.s (.wave t w) c.T (c.reg64 f.a 0) = .ok (s1, .inl bs) → engMarked bs = false → descOk (engBytes bs) = true →
          descClash (engBytes bs) = false → granted (engBytes bs))) ∧
    (∀ (f : SysW) k e, (Instr.cparg f).wf = true → vecOrZ f.d = true → (readyLane s fun _ => Eval.open [] [.one f.d] false) = some (k, e) →
      ∃ e', exec (.cparg f) s = .next (setLane s k e') ∧ e'.pc = e.pc + 1 ∧ e'.done = e.done ∧ e'.lane = e.lane ∧
        (e.guard f.g = false → e' = e.next) ∧
        (e.guard f.g = true → isVector f.d = true → e'.reg f.d = (e.args.getD (SysW.imm f).toNat 0).toNat)) ∧
    (∀ (f : SysW) k e, (Instr.cpret f).wf = true → (f.var.getLsbD 0 = true → isVector f.b = true) →
      let block := if f.var.getLsbD 0 then [Regs.block f.b 6 2] else []
      (readyLane s fun _ => Eval.open ([Regs.one f.a] ++ block) [] false) = some (k, e) →
      let on := f.var.getLsbD 0 && (pass? s k e.slot).any (fun P => dMode P.desc 2) && xlt (.zero false) (fv (e.reg f.a))
      (e.guard f.g = false → exec (.cpret f) s = .next (setLane s k e.next)) ∧
      (e.guard f.g = true → e.checkPoison ([Regs.one f.a] ++ if on then [Regs.block f.b 6 2] else []) = .ok () →
        exec (.cpret f) s = .next (setLane s k { e with
          done := true
          phat := BitVec.ofNat 32 (e.reg f.a)
          vis := if on then some ((List.range 6).map fun i => BitVec.ofNat 32 (e.reg (codeAt f.b i))) else none }))) ∧
    (∀ k slot C P, smGet? s.clusters k = some C → C.passes[slot]? = some P → C.phStopped = false →
      (P.st = .granted → exec (.passStart k slot) s = .next (modPass s k slot fun P => { P with st := .running, work := passWork s k P }) ∧
        ∀ x y, (x, y) ∈ passWork s k P → x < (dIn P.desc).width ∧ y < (dIn P.desc).height) ∧
      (P.st = .running → P.park = none →
        let P1 : Pass := { P with px := P.px.map fun p => P.mergeAll p p.cands }
        let s0 := modPass s k slot fun _ => P1
        ∀ p s1, P1.px.head? = some p → p.ready = true →
        let r := putWords p.acc (rsvNrm p.acc)
        let v := dOut P.desc
        engWrite s0 (passEng s0 P1 k slot) (v.addr v.parity (dLayerOut P.desc) p.x p.y) (r.flatMap (toBytes 4)) p.accPsn = (s1, .ok []) →
        exec (.passPixel k slot) s = .next (modPass s1 k slot fun P => { P with
          px := P.px.filter fun q => !(q.x == p.x && q.y == p.y), pixels := P.pixels + 1 })) ∧
      (∀ x y rest s1 par qx qy b, P.park = none → P.work = (x, y) :: rest → P.halo = true →
        (∀ h ∈ s.halos, h.cluster = k → h.slot ≠ slot) → (itemPlace k slot P x y).run s = (.ok (some (par, qx, qy), b), s1) →
        ∃ s' h, exec (.haloRequest k slot) s = .next s' ∧ s'.mem = s1.mem ∧ s'.halos = s1.halos ++ [h] ∧
          h.cluster = k ∧ h.slot = slot ∧ h.parity = par ∧ h.layer = dLayerIn P.desc ∧ h.row = qy / 16 ∧
          h.gw = crossing s1 (k % 25 / 5) ∧ h.cols.length ≤ 32 ∧ h.todo.head? = some (qx, qy) ∧
          (∀ z ∈ h.cols, z / 32 = qx / 32 ∧ z < (dIn P.desc).width) ∧ (∀ z ∈ h.todo, z.2 / 16 = qy / 16 ∨ z = (qx, qy)) ∧
          pass? s' k slot = pass? s1 k slot) ∧
      (∀ g core, P.park = none → P.segments.find? (fun g => g.2.2.core.isNone) = some g → lender s k C = some core →
        (s.choice % 2 = 0 ∨ ∀ h ∈ P.segments, h.2.2.core = none) →
        exec (.visibilitySegment k slot) s = .next (modCluster (modPass s k slot fun P =>
          P.modCand g.1 g.2.1 fun c => { c with seg := some { g.2.2 with core := some core } }) k fun C => { C with lentCore := core % 8 })) ∧
      (∀ g s1 y, P.park = none → (∀ h ∈ P.segments, h.2.2.core ≠ none) → P.segments[s.choice / 2 % P.segments.length]? = some g →
        fieldB P.desc 56 8 % 128 = 0 →
        (Trav.run (passReader k slot 16) ⟨0, fun _ _ => pure (), fun _ => pure none⟩ (fieldB P.desc 56 8) (travTurns 65536) 65536
          (segmentTrav P g.2.2.block).start).run s = (.ok y, s1) →
        let err := y.err != 0 || !y.done
        exec (.visibilitySegment k slot) s =
          .next (wakeOn (modPass s1 k slot fun P => P.traced g.1 g.2.1 g.2.2 (err || y.hit) err) k)) ∧
      (∀ s1, P.park = none → P.px = [] → engOwc s (.pass k slot) = 0 → (P.st = .ending ∨ (P.st = .running ∧ P.work = [])) →
        engWrite (pruneLanes s k slot) (passEng s P k slot) (fieldB P.desc 120 8) P.status false = (s1, .ok []) →
        ∃ s' P', exec (.passEnd k slot) s = .next s' ∧ s'.mem = s1.mem ∧ pass? s' k slot = some P' ∧ P'.st = .free ∧
          P'.timeline = P.timeline + 1))

/-- R404, R408, R239, R257, R251, R437: the matrix engine. The head of an active team's queue enters the arrival buffer of a
target, enters the target's engine where it is the first arrival that has not, starts when it has entered every engine it
needs (that this is when it starts, `mayStart`, is the model's reading, log entry 91) and stands between their operations, performs its row blocks with its tiles claimed, and completes; MXZERO, MXCFG,
MXRD and MXWR act on their tiles as they start; what completes leaves the queue and frees its registers.

Completes: matrixOpStart, clusterOpArrival, rowBlock, matrixOpComplete. -/
def Obligations.MatrixEngineEvents : Prop :=
  ∀ (s : State) (t : Nat) (T : Team) (C : Core) (op : MxOp), mxHead s t = .ok (T, C, op) →
    (∀ core D, core? s core = some D → op.done = false → op.cut = false → clusterOf core = clusterOf T.core → core ≠ T.core →
      op.kind.mask.getLsbD (core % 8) = true → D.arrivals.length < 4 → (D.arrivals.any fun a => a.team == t && a.op == op.id) = false →
      ∃ s' D', exec (.clusterOpArrival t core) s = .next s' ∧ s'.teams = s.teams ∧ s'.mem = s.mem ∧ core? s' core = some D' ∧
        D'.arrivals = D.arrivals ++ [⟨t, op.id, false⟩]) ∧
    (op.done = false → op.cut = false → op.started = false → op.park = none → op.kind.multiplies = false → mayStart s t T op = false →
      (targetCores T op).any (mayEnter s t op.id) = true → exec (.matrixOpStart t) s = .next (enterTargets s t T op)) ∧
    (op.done = false → op.cut = false → op.started = false → op.park = none → mayStart s t T op = true →
      (∀ p ∈ op.targets, ∃ U, team? s p.2 = some U ∧ ∀ i ∈ opTile T op.kind, U.unitSt true i = .present) →
      (∀ i m, op.kind = .zero i m →
        ∃ s', exec (.matrixOpStart t) s = .next s' ∧ ∀ p ∈ op.targets, ∀ U x, team? s p.2 = some U → U.tiles[i]? = some x →
          ∃ U', team? s' p.2 = some U' ∧ U'.tiles[i]? = some { x with
            cells := [], psn := [], ovf := false, abt := false, dsat := false, ecause := 0 } ∧
            ∀ j, j ≠ i → U'.tiles[j]? = U.tiles[j]?) ∧
      (∀ i mode anchor lend x, op.kind = .cfg i mode anchor lend → T.tiles[i]? = some x →
        ∃ s' T', exec (.matrixOpStart t) s = .next s' ∧ team? s' t = some T' ∧ T'.tiles[i]? = some { x with
          cells := [], psn := [], ovf := false, abt := false, dsat := false, ecause := 0, mode := mode, anchor := anchor, lent := lend }) ∧
      (∀ i raw d row col lanes w x W, op.kind = .rd i raw d row col lanes w → T.tiles[i]? = some x → T.waves[w]? = some W →
        ∃ s' W', exec (.matrixOpStart t) s = .next s' ∧ wave? s' t w = some W' ∧ W' = readCells W x raw d row col lanes) ∧
      (∀ i d w x W, op.kind = .stat i d w → T.tiles[i]? = some x → T.waves[w]? = some W →
        ∃ s' W', exec (.matrixOpStart t) s = .next s' ∧ wave? s' t w = some W' ∧ W' = W.putReg (BitVec.ofNat 8 d) 0 x.flags) ∧
      (∀ i raw row col vals x, op.kind = .wr i raw row col vals → T.tiles[i]? = some x →
        ∃ s' T', exec (.matrixOpStart t) s = .next s' ∧ team? s' t = some T' ∧
          T'.tiles[i]? = some (writeCells x raw row col vals))) ∧
    (∀ tile x m n da db dm rows cols sparse mask p s1, op.kind = .loop tile x m n da db dm rows cols sparse mask → op.started = true →
      op.done = false → op.cut = false → op.park = none → T.plane = some p → bookLoading s T [x, p.op] = false →
      ((x.handle = false ∧ p.op.handle = false) ∨ fetchTurn s T.core = true) →
      (claimTiles s T op).2 = true → rowBlock (claimTiles s T op).1 t op p tile x m n da db dm rows cols mask = .ok s1 →
      exec (.rowBlock t) s = .next s1) ∧
    ((op.done = true ∨ op.cut = true) → engOwc s (.matrix t) = 0 → (∀ d h r q w, op.kind ≠ .send d h r q w) → (∀ d h w, op.kind ≠ .recv d h w) →
      ∃ s' T', exec (.matrixOpComplete t) s = .next s' ∧ s'.mem = s.mem ∧ team? s' t = some T' ∧
        T'.mxq = T.mxq.filter (fun o => o.id != op.id) ∧ T'.tiles = T.tiles ∧
        ∀ W ∈ T'.waves, ∀ b ∈ W.busy, b.2 ≠ BusySrc.matrix op.id)

/-! The networks and the homes. -/

/-- R260–R263, R266, R468, R469, R471–R473: a Jetstream flit that arrives at the member it is for. READY records its sender, and
a LINE root whose predecessor has reported arms it; ARM arms a granted member and goes on up the line; CREDIT and REQ count;
DATA waits in the landing buffer or, at a root whose JRECV is in progress, is added into the tile, which returns the row's
credit; END waits behind the data; ABORT and REFUSE abort the member; REVOKE takes its sender's READY back. A header that
differs from the member's declaration, whatever the flit's type, or an unexpected source, aborts the chain with reason 4.
That REVOKE turns an armed member back to granted is the model's reading (log entry 35).

Completes: ready, arm, credit, req, data, datasat, endFlit, abortFlit, refuse, revoke. -/
def Obligations.JetstreamFlitsArrive : Prop :=
  ∀ (s : State) (n : Nat) (f : JFlit) (t : Nat) (T : Team) (c : Chain), s.jnet[n]? = some f → f.dest < 400 →
    inOrder s n f = true → crossesGateway f = false → (∀ p, partOfCore s f.dest = some p → unitStopped s p (routerUnit (clusterOf f.dest)) = false) →
    (partOfCore s f.dest).isSome = true → chainAt s f.dest f.chain = some (t, T, c) → team? s t = some T → c.st ≠ .aborted →
    let rest := s.jnet.eraseIdx n
    let gets (i : Instr) (ok : State → Team → Chain → Prop) : Prop :=
      ∃ s' T' d, exec i s = .next s' ∧ s'.mem = s.mem ∧ team? s' t = some T' ∧ chain? T' c.id = some d ∧ ok s' T' d
    let kept (i : Instr) (ok : State → Team → Chain → Prop) : Prop := headerOk c f = true → T.mxq = [] → gets i ok
    let abort4 (i : Instr) : Prop := gets i fun _ _ d => d.st = .aborted ∧ d.why = 4
    (headerOk c f = false →
      (f.type = .ready → abort4 (.ready n)) ∧ (f.type = .arm → abort4 (.arm n)) ∧ (f.type = .credit → abort4 (.credit n)) ∧
      (f.type = .req → abort4 (.req n)) ∧ (f.type = .data → abort4 (.data n)) ∧ (f.type = .datasat → abort4 (.datasat n)) ∧
      (f.type = .fin → abort4 (.endFlit n)) ∧ (f.type = .revoke → abort4 (.revoke n)) ∧
      (f.type = .abort → abort4 (.abortFlit n)) ∧ (f.type = .refuse → abort4 (.refuse n))) ∧
    (f.type = .ready → headerOk c f = true →
      let expected : Prop := if c.anchorMode = true then c.root = true ∧ f.rank + 1 < c.count else f.rank + 1 = c.rank
      let other : Prop := ∃ r ∈ c.ready, r.1 = f.rank ∧ r.2 ≠ f.src
      ((¬ expected ∨ other) → abort4 (.ready n)) ∧
      (expected → ¬ other → gets (.ready n) fun _ _ d => (f.rank, f.src) ∈ d.ready) ∧
      (expected → c.anchorMode = false → c.root = true → c.st = .granted → c.ready = [] →
        gets (.ready n) fun s' _ d => d.st = .armed ∧ s'.jnet = rest ++ [c.flit .arm T.core f.src 0])) ∧
    (f.type = .arm → c.st = .granted → kept (.arm n) fun s' _ d => d.st = .armed ∧ d.credits = (if c.anchorMode then 0 else 8) ∧
      s'.jnet = rest ++ if c.anchorMode then [] else c.ready.map fun r => c.flit .arm T.core r.2 0) ∧
    (f.type = .credit → kept (.credit n) fun _ _ d => d.credits = c.credits + f.arg ∧ d.asked = c.asked - f.arg) ∧
    (f.type = .req →
      (c.free = 0 → kept (.req n) fun s' _ d => (f.rank, f.src, f.arg) ∈ d.requests ∧ s'.jnet = rest) ∧
      (c.free ≠ 0 → c.requests = [] → f.arg = 1 → kept (.req n) fun s' _ d =>
        d.free = c.free - 1 ∧ d.lastServed = f.rank ∧ s'.jnet = rest ++ [c.flit .credit T.core f.src 1])) ∧
    (∀ sat : Bool, f.type = (if sat then .datasat else .data) →
      let i : Instr := if sat then .datasat n else .data n
      let known : Prop := f.src < 400 → (f.rank, f.src) ∈ c.ready
      (known → kept i fun _ T' d => d.inbox = c.inbox ++ [f] ∧ T'.tiles = T.tiles) ∧
      (headerOk c f = true → ¬ known → abort4 i) ∧
      (∀ op x d h w r, headerOk c f = true → known → T.mxq = op :: r → op.kind = .recv d h w → bits h 27 16 = c.id → op.started = true → op.done = false →
        c.st = .armed → c.inbox = [] → c.anchorMode = false → T.tiles[c.tile]? = some x →
        gets i fun s' T' d => T'.tiles[c.tile]? = some (addFlit x c.cmode f) ∧ d.inbox = [] ∧
          s'.jnet = rest ++ if f.last = 0 then [] else c.ready.map fun r => c.flit .credit T.core r.2 f.last)) ∧
    (f.type = .fin → kept (.endFlit n) fun _ _ d => d.inbox = c.inbox ++ [f]) ∧
    (f.type = .abort → headerOk c f = true → gets (.abortFlit n) fun _ _ d => d.st = .aborted ∧ d.why = f.arg) ∧
    (f.type = .refuse → headerOk c f = true → gets (.refuse n) fun _ _ d => d.st = .aborted ∧ d.why = 3) ∧
    (f.type = .revoke → headerOk c f = true → gets (.revoke n) fun _ _ d => d.ready = c.ready.filter (fun r => r.1 != f.rank) ∧
      d.credits = 0 ∧ d.st = if c.st = .armed then .granted else c.st)

/-- R261, R469, R473: RESERVATION_GRANT serves the waiting request of the lowest chain identity while the core has room for it
and fewer than four chains are open there; a sum for a chain its core does not hold is refused; READY, ABORT and REVOKE for
such a chain are refused where its member is gone and kept for the member that has still to come; ARM and CREDIT, which
carry no rows, are dropped. What becomes of the flits of an absent chain, END and REQ among them, is the model's reading (log
entry 34).

Completes: reservationGrant. -/
def Obligations.ReservationsAndRefusals : Prop :=
  ∀ (s : State),
    (∀ core C r, core? s core = some C → C.stopped = false → r ∈ C.reservations → r.granted = false →
      (C.active = some r.team ∨ ((team? s r.team).bind fun T => chain? T r.chain).isSome = true) →
      (∀ q ∈ C.reservations, q.granted = false → q ≠ r → r.chain < q.chain) → (openHere s core).length < 4 →
      (C.reservations.filter (·.granted)).foldl (fun a q => a + q.size) 0 + r.size ≤ 32768 →
      ∃ s' C', exec (.reservationGrant core) s = .next s' ∧ s'.mem = s.mem ∧ core? s' core = some C' ∧
        { r with granted := true } ∈ C'.reservations) ∧
    (∀ n f, s.jnet[n]? = some f → f.dest < 400 → inOrder s n f = true → crossesGateway f = false →
      (∀ p, partOfCore s f.dest = some p → unitStopped s p (routerUnit (clusterOf f.dest)) = false) → (partOfCore s f.dest).isSome = true →
      chainAt s f.dest f.chain = none →
      let back := exec (match f.type with
        | .data => .data n
        | .datasat => .datasat n
        | .fin => .endFlit n
        | _ => .req n) s
      let rest : State := { s with jnet := s.jnet.eraseIdx n }
      let early (rest : State) : State := if memberGone rest f then refuseFlit rest f else modCore rest f.dest fun C => { C with early := C.early ++ [f] }
      (f.type = .data ∨ f.type = .datasat ∨ f.type = .fin ∨ f.type = .req →
        back = .next { s with jnet := s.jnet.eraseIdx n ++ [{ f with type := .refuse, dest := f.src, src := f.dest, arg := 0, cells := [] }] }) ∧
      (f.type = .ready → exec (.ready n) s = .next (early rest)) ∧
      (f.type = .abort → exec (.abortFlit n) s = .next (early { rest with held := s.held.filter fun h =>
        !(f.crosses && h.gw == gatewayOf s f.dest && h.flit.chain == f.chain && partOfCore s h.flit.dest == partOfCore s f.dest) })) ∧
      (f.type = .revoke → exec (.revoke n) s = .next (early rest)) ∧ (f.type = .arm → exec (.arm n) s = .next rest) ∧
      (f.type = .credit → exec (.credit n) s = .next rest))

/-- R341, R350, R356, R364, R445, R458, R488: a home that performs a request answers a read with the bytes that stand there,
writes a write's bytes and acknowledges it, and does an atomic or reduction as one read and write; a generation older than
MINGEN is rejected, a region of another KEY or world refused, with memory as it was; at a stack out of service a write is discarded and
acknowledged, and a read brings data that is marked whole (R490). A write to another core's scratchpad is
performed there and acknowledged.

R341, R364: whatever a home makes of a request, the bytes of memory outside those the request names read as before: the
request's own bytes are those at its physical address, up to its size.

Completes: homeRequest. -/
def Obligations.HomePerformsRequests : Prop :=
  (∀ (s : State) (rid : Rid) (r : MemReq), req? s rid = some r → r.st = .flight → homeBlocked s r = false → heldAtGateway s rid = false →
      (∀ q, r.who ≠ .request q) → (∀ g, forwarder s r = some g → windowRoom s g (r.part s) = true) →
      (∀ u off s1, r.peer = some (u, off) → performPeer s u off r.data r.bad = some s1 →
        ∃ s' r', exec (.homeRequest rid) s = .next s' ∧ s'.mem = s1.mem ∧ s'.teams = s1.teams ∧
          (req? s1 rid = some r → req? s' rid = some r' ∧ r'.st = .acked ∧ r'.rid = rid)) ∧
      (r.peer = none → remote s r.pa = false →
      let verdict := homeVerdict s r
      let served := homeCheck s r.pa r.asid r.gen r.key r.sec (r.eng.elim false (·.2)) r.eng.isSome
      (r.rid.unit ≠ 31 → verdict = served) ∧
      let old := physGet s r.pa r.size
      let new (cmp : Nat) : List Byte := toBytes r.size (atomicOp r.ty.toNat r.aop.toNat (ofBytes old) (ofBytes r.data) cmp)
      let ends (mem : List Host.Cell) (st : ReqSt) : Prop :=
        ∃ s' r', exec (.homeRequest rid) s = .next s' ∧ s'.mem = mem ∧ req? s' rid = some r' ∧ r'.st = st ∧ r'.rid = rid ∧
          s'.teams = s.teams ∧ s'.reqs.length = s.reqs.length
      (verdict = .perform →
        (r.kind = .read → ends s.mem (.answered old (psnMask s r.pa r.size))) ∧
        (r.kind = .write → ends (physSet s r.pa r.data).mem .acked) ∧
        (r.kind = .atomic → ends (physSet s r.pa (new (ofBytes r.cmp))).mem (.answered old (psnMask s r.pa r.size))) ∧
        (r.kind = .reduction → ends (physSet s r.pa (new 0)).mem .acked)) ∧
      (verdict = .nack → ends s.mem .nacked) ∧ (verdict = .refuse → ends s.mem .refused) ∧
      (verdict = .discard → (r.kind = .write ∨ r.kind = .reduction → ends s.mem .acked) ∧
        (r.kind = .read ∨ r.kind = .atomic → ∃ bs, ends s.mem (.answered bs 0xFF#8))))) ∧
  (∀ (s s' : State) (rid : Rid) (r : MemReq), req? s rid = some r → r.peer = none → r.data.length ≤ r.size → exec (.homeRequest rid) s = .next s' →
      ∀ a, (∀ i, i < r.size → loc s (r.pa + i) ≠ loc s a) → physGet s' a 1 = physGet s a 1)

/-- R456, R458, R27, R352, R428, R488, R351: what comes back to a requester, the answers of one unit in the order sent. ACK takes one from its wave's outstanding writes; a data
response writes the register lane that waited; a NACK whose new translation permits the access sends the request again
under its own identity; a context's refusal faults the context with PERM; a refused access of a wave becomes a deferred
PERM at a word boundary; a raise of MINGEN reaches each tile by a flit, which empties the load caches of the tile's cores, and ends
when every tile has it; a line of 128 bytes that a requester asked of another module is kept for it.

Completes: ackFlit, nackFlit, deferredPerm, mingenRaiseComplete, onDemandTranslate, readDataResponse. -/
def Obligations.AnswersReturn : Prop :=
  ∀ (s : State) (rid : Rid),
    (∀ r t w W, req? s rid = some r → answerNext s r = true → r.st = .acked → r.who = .wave t w → wave? s t w = some W →
      ∃ s' W', exec (.ackFlit rid) s = .next s' ∧ s'.mem = s.mem ∧ req? s' rid = none ∧ wave? s' t w = some W' ∧
        W'.owc = W.owc - 1 ∧ W'.v = W.v ∧ W'.s = W.s) ∧
    (∀ r bs psn, req? s rid = some r → answerNext s r = true → r.st = .answered bs psn → r.kind = .read → r.size = 128 →
      ∃ s' l, exec (.readDataResponse rid) s = .next s' ∧ s'.mem = s.mem ∧ farLine? s' r.who r.pa = some l ∧ l.bytes = bs ∧ l.psn = psn) ∧
    (∀ r t w W bs psn, req? s rid = some r → answerNext s r = true → r.st = .answered bs psn → r.who = .wave t w → wave? s t w = some W →
      (r.kind ≠ .read ∨ r.size ≠ 128) →
      let x := r.result bs psn
      let v := if r.kind == .read && r.size ≤ 4 then loadExt r.ty.toNat x.1 else ofBytes x.1
      let loaded := W.load (BitVec.ofNat 8 r.d) (max 1 (r.size / 4)) r.lane v x.2
      ∃ s' W', exec (.readDataResponse rid) s = .next s' ∧ s'.mem = s.mem ∧ wave? s' t w = some W' ∧ W'.v = loaded.v ∧
        W'.s = loaded.s ∧ W'.vpoison = loaded.vpoison ∧ ∀ b ∈ W'.busy, b.2 ≠ BusySrc.req r.rid) ∧
    (∀ r t s1 T pa key sec gen, req? s rid = some r → answerNext s r = true → r.st = .nacked → requesterTeam s r.who = some t →
      resolveVa s t r.va r.access = (s1, .ok) → team? s1 t = some T → teamTr s1 T r.access r.va = .ok pa key sec gen →
      ∃ s' r', exec (.nackFlit rid) s = .next s' ∧ s'.mem = s.mem ∧ req? s' rid = some r' ∧
        r' = { r with pa := pa, key := key, sec := sec, gen := gen, st := .flight, sent := false }) ∧
    (∀ r x X, req? s rid = some r → answerNext s r = true → r.st = .refused → r.who = .context x → smGet? s.ctxs x = some X →
      let on : Prop := (X.st = .running ∨ X.st = .parked ∨ X.st = .stopping) ∧ r.gang = 0
      ∃ s' X', exec (.nackFlit rid) s = .next s' ∧ s'.mem = s.mem ∧ req? s' rid = none ∧ smGet? s'.ctxs x = some X' ∧
        (on → X'.st = .faulting ∧ X'.kcause = 0x0A#8 ∧ X'.faultVa = r.va) ∧
        (¬ on → X'.st = X.st ∧ X'.kcause = X.kcause ∧ X'.faultVa = X.faultVa)) ∧
    (∀ t w r T W, s.reqs.find? (fun r => r.who == .wave t w && r.st == .refused) = some r → r.kind = .read → r.ord ≠ 1#2 →
      team? s t = some T → T.waves[w]? = some W → W.whandler.getLsbD 0 = true → W.intrap = false → W.parked = false →
      (∀ sl ∈ W.slices, sl.hold = .free) → (∃ i, i < 8 ∧ r.gang.getLsbD i = true ∧ (W.slice i).live = true) →
      ∃ s' W', exec (.deferredPerm t w) s = .next s' ∧ s'.mem = s.mem ∧ wave? s' t w = some W' ∧ W'.cause = 0x0A#8 ∧
        W'.wtraparg = BitVec.ofNat 64 r.va ∧ W'.intrap = true ∧ W'.defer = decide (r.size ≠ 128)) ∧
    (∀ asid k, (asidOf s asid).raising = some k →
      ((asidOf s asid).homes ≠ [] → exec (.mingenRaiseComplete asid) s = .next s) ∧
      ((asidOf s asid).homes = [] → ∃ s', exec (.mingenRaiseComplete asid) s = .next s' ∧ s'.mem = s.mem ∧ (asidOf s' asid).raising = none ∧
        (asidOf s' asid).dw0 = (asidOf s asid).dw0 ∧ (asidOf s' asid).dw1 = (asidOf s asid).dw1 ∧
        ∀ p P', smGet? s'.parts p = some P' → P'.pend.any (Pending.ofAsid asid) = false)) ∧
    (∀ n f asid v, s.ctl[n]? = some f → f.cmd = .mingen asid v → ((s.ctl.take n).any fun g => g.tile == f.tile) = false →
      gatewayHolds s f.tile = false →
      (controlMove s n).mem = s.mem ∧ mingenAt (controlMove s n) f.tile asid = v ∧
      (∀ k, k ≠ f.tile → mingenAt (controlMove s n) k asid = mingenAt s k asid) ∧
      ∀ core C', core / 8 = f.tile → core? (controlMove s n) core = some C' → C'.lcache = []) ∧
    (∀ r stamp, req? s rid = some r → r.st = .waiting stamp false → exec (.onDemandTranslate (.request rid)) s = .next (resolveReq s r)) ∧
    (∀ t w s1, resolveWave s t w = .ok s1 → exec (.onDemandTranslate (.wave t w)) s = .next s1)

/-- R455, R475, R476: the combining gateways. An ANCHOR flit for the other die is held at the gateway of its row, or added to the
flit held there for the same root, row and segment; a held flit goes on under the gateway's own identity when its window
ends. A reduction for the other die is held the same way, at the gateway at which it crosses; one alone goes on as it is, several as one whose operand combines
theirs. That only requests of equal translation combine (`alike`, log entry 71) and that the gateway at which one crosses is
free (`crossedAt`, log entry 97) are the model's choices.

Completes: gatewayAnchorData, gatewayWindowEnd, gatewayReduction, gatewayReductionWindowEnd. -/
def Obligations.GatewaysCombine : Prop :=
  ∀ (s : State) (n : Nat),
    (∀ f, s.jnet[n]? = some f → crossesGateway f = true →
      ((s.jnet.take n).any fun g => behind s f g) = false →
      let gw := gatewayOf s f.dest
      (∀ p, partOfCore s f.dest = some p → unitStopped s p (gwUnit (dieOf f.src) gw) = false) →
      let fits (h : HeldFlit) : Bool :=
        h.gw == gw && h.die == dieOf f.src && h.flit.dest == f.dest && h.flit.chain == f.chain && h.flit.row == f.row &&
          h.flit.seg == f.seg && h.flit.arg + f.arg ≤ 127 && s.now ≤ h.since + 64
      (s.held.any fits = false → exec (.gatewayAnchorData n) s = .next { s with
        jnet := s.jnet.eraseIdx n, held := s.held ++ [⟨gw, dieOf f.src, f, [f.src], s.now⟩] }) ∧
      (∀ h, s.held = [h] → fits h = true → exec (.gatewayAnchorData n) s = .next { s with
        jnet := s.jnet.eraseIdx n, held := [{ h with flit := addFlits h.flit f, srcs := nsAdd h.srcs f.src }] })) ∧
    (∀ h, s.held[n]? = some h →
      ((s.held.take n).any fun g => g.gw == h.gw && g.die == h.die && g.srcs.any fun c => h.srcs.contains c) = false →
      ∃ s', exec (.gatewayWindowEnd n) s = .next s' ∧ s'.held = s.held.eraseIdx n ∧ s'.mem = s.mem ∧
        { h.flit with src := 400 + 5 * h.die + h.gw } ∈ s'.jnet ∧ s'.jnet.length = s.jnet.length + 1) ∧
    (∀ rid r gw, req? s rid = some r → combinable s r = true → heldAtGateway s rid = false → homeBlocked s r = false → crossedAt s = some gw →
      windowRoom s gw (r.part s) = true → unitStopped s (r.part s) (gwUnit rid.die gw) = false →
      (s.heldRed = [] → ∃ s' h, exec (.gatewayReduction rid) s = .next s' ∧ s'.mem = s.mem ∧ s'.reqs = s.reqs ∧ s'.heldRed = [h] ∧
        h.parts = [rid] ∧ h.since = s.now ∧ h.die = rid.die ∧ h.gw = gw ∧
        ∃ G, s'.gateways[gw]? = some G ∧ (r.part s, rid, none) ∈ G.window) ∧
      (∀ h q, s.heldRed = [h] → h.gw = gw → h.die = rid.die → s.now ≤ h.since + 32 → req? s h.rid = none →
        (∃ p ∈ h.parts, req? s p = some q) → alike q r = true →
        ∃ s', exec (.gatewayReduction rid) s = .next s' ∧ s'.mem = s.mem ∧ s'.reqs = s.reqs ∧
          s'.heldRed = [{ h with parts := h.parts ++ [rid] }])) ∧
    (∀ h, s.heldRed[n]? = some h → req? s h.rid = none →
      (∀ r, h.parts.filterMap (req? s) = [r] → ∃ s', exec (.gatewayReductionWindowEnd n) s = .next s' ∧ s'.reqs = s.reqs ∧
        s'.mem = s.mem ∧ ∀ g ∈ s'.heldRed, g.rid ≠ h.rid) ∧
      (∀ a b, h.parts.filterMap (req? s) = [a, b] → ∃ s' q, exec (.gatewayReductionWindowEnd n) s = .next s' ∧ s'.mem = s.mem ∧
        s'.reqs = s.reqs ++ [q] ∧ q.rid = h.rid ∧ q.pa = a.pa ∧
        q.data = toBytes a.size (atomicOp b.ty.toNat b.aop.toNat (ofBytes a.data) (ofBytes b.data) 0)))

/-- R480, R481, R490, R491, R494, R502: links. A flit that fails its CRC counts against its port, and a port that has had
retries may leave service; a duplicate Thielo flit changes no request and no memory, and a copy of a
request whose identity has aged out of a window is held (R477); E2EACK releases every flit of its flow
up to its number; a flit unacknowledged for 8,192 cc goes again; a UCIe module that has had retries may leave service; a
stack that fails has EN 0 and raises its interrupt. That one retry is enough for a port or module to be able to leave service
is the model's reading of a limit the spec does not give (log entry 53).

Completes: ucieModuleFail, fabricPortFail, flitCrcFail, thieloData, e2eack, e2eRetransmit, stackFail, ucieLinkLevelRetry. -/
def Obligations.LinksWork : Prop :=
  ∀ (s : State) (n : Nat),
    (nsHas s.ports n = true → exec (.flitCrcFail n) s = .next { s with portRetries := smPut 0 s.portRetries n (smGetD s.portRetries n 0 + 1) }) ∧
    (nsHas s.ports n = true → smGetD s.portRetries n 0 ≠ 0 →
      ∃ s', exec (.fabricPortFail n) s = .next s' ∧ s'.ports = nsDel s.ports n ∧ s'.mem = s.mem ∧ s'.teams = s.teams) ∧
    (∀ f, s.fabIn[n]? = some f → f.type = .data → f.dmod = s.moduleNo → (recvOf s f).take f.seq = none →
      (∀ q, f.vc = vcRequest → f.req = some q → s.aged.contains q.rid = false) →
      ∃ s', exec (.thieloData n) s = .next s' ∧ s'.fabIn = s.fabIn.eraseIdx n ∧ s'.reqs = s.reqs ∧ s'.mem = s.mem ∧ s'.parts = s.parts) ∧
    (∀ f r q, s.fabIn[n]? = some f → f.type = .data → f.dmod = s.moduleNo → (recvOf s f).take f.seq = some r → f.stop = none →
      f.req = some q → f.vc = vcRequest →
      (s.aged.contains q.rid = true → exec (.thieloData n) s = .next s) ∧
      (s.aged.contains q.rid = false → s.dup = [] → (∀ G ∈ s.gateways, ∀ x ∈ G.window, x.2.1 ≠ q.rid) → req? s q.rid = none → remote s q.pa = false →
      ∃ s', exec (.thieloData n) s = .next s' ∧ s'.mem = s.mem ∧ s'.reqs = s.reqs ++
        [{ q with who := .request q.rid, lane := f.part, st := .flight, sent := false, via := f.port / 64 % 2, place := s.places }])) ∧
    (∀ f, s.fabIn[n]? = some f → f.type = .e2eack → f.dmod = s.moduleNo →
      ∃ s', exec (.e2eack n) s = .next s' ∧ s'.mem = s.mem ∧ s'.fabIn = s.fabIn.eraseIdx n ∧
        ∀ h, h ∈ s'.fabSent ↔ h ∈ s.fabSent ∧ ¬ (h.flit.part = f.part ∧ h.flit.dmod = f.smod ∧ h.flit.vc = f.vc ∧
          seqDist f.seq h.flit.seq < 2 ^ 23)) ∧
    (∀ h port, s.fabSent[n]? = some h → h.sentAt + 8192 ≤ s.now → h.tries < 7 → port ∈ portsTo s 0 h.flit.dmod →
      ∃ s', exec (.e2eRetransmit n port) s = .next s' ∧ s'.fabSent[n]? = some { h with sentAt := s.now, tries := h.tries + 1 } ∧
        s'.outbox = s.outbox ++ [.fabric port { h.flit with port := port }]) ∧
    (∀ h port, s.fabSent[n]? = some h → s.now < h.sentAt + 8192 → exec (.e2eRetransmit n port) s = .next s) ∧
    (∀ gw m G, s.gateways[gw]? = some G → G.modules.getD m false = true →
      exec (.ucieLinkLevelRetry gw m) s = .next { s with gateways := setAt s.gateways gw { G with retries := modAt G.retries m (· + 1) } } ∧
      (G.retries.getD m 0 ≠ 0 → ∃ s' G', exec (.ucieModuleFail gw m) s = .next s' ∧ s'.gateways[gw]? = some G' ∧
        G'.modules = setAt G.modules m false ∧ s'.mem = s.mem)) ∧
    (∀ h, s.hbm[n]? = some h → h.en = true → ∃ s', exec (.stackFail n) s = .next s' ∧ s'.hbm[n]? = some { h with en := false } ∧
      s'.outbox = s.outbox ++ [.interrupt 1 n] ∧ s'.mem = s.mem)

/-- R373–R375, R496–R499: the host's side. A write with immediate over the queue of a root node is performed and commits: a commit of
the next COUNT records of an enabled root appends their slots to its stream; one that does not fit is counted as refused and takes
nothing, as is one for a node that has never been enabled; anywhere else it is an invalid request. RDMA inside a window its key names
writes or reads the bytes of its pages, and outside is refused with the queue pair in error; an invalid request puts the pair in error.
That a refusal counts 1 for a node that has never been enabled is the model's reading (log entries 85 and 56).

Completes: hostCommit, rdmaWrite, rdmaRead, roceInvalidRequest. -/
def Obligations.HostRequestsComplete : Prop :=
  ∀ (s : State) (r : RdmaReq) (Q : Qp), rdmaQp s r.port r.qp = some Q →
    (∀ (imm : Word) ps, rdmaPieces s Q r r.data.length true = .ok (some ps) →
      let node := imm.toNat / 2 ^ 20
      let count := imm.toNat % 2 ^ 11
      (overRoot s Q.part r.key.toNat = false →
        exec (.hostCommit r.port r.qp ⟨r.key, r.va, r.data, imm⟩) s = .next (emitOut (failQp s r.port r.qp) (.roceError r.port r.qp))) ∧
      (overRoot s Q.part r.key.toNat = true → ∀ N, node? s Q.part node = some N →
        (N.on = true → N.root = true → bits imm.toNat 18 11 = 0 → count ≤ 1024 → N.committed - N.freed + count ≤ N.qcap → bit imm.toNat 19 = false →
          ∃ s' N', exec (.hostCommit r.port r.qp ⟨r.key, r.va, r.data, imm⟩) s = .next s' ∧ node? s' Q.part node = some N' ∧
            N'.committed = N.committed + count ∧ N'.stream = N.stream ++ (List.range count).map (fun i => (N.committed + i) % N.qcap) ∧
            N'.drainReq = N.drainReq ∧ N'.due = N.due ∧ N'.refused = N.refused) ∧
        (N.on = true → N.root = true → bits imm.toNat 18 11 = 0 → count ≤ 1024 → N.committed - N.freed + count ≤ N.qcap →
          bit imm.toNat 19 = true → N.due = [] → 0 < N.coalesce →
          let loose := N.stream.length + count
          let full := N.stream.length / N.coalesce
          ∃ s' N', exec (.hostCommit r.port r.qp ⟨r.key, r.va, r.data, imm⟩) s = .next s' ∧ node? s' Q.part node = some N' ∧
            N'.committed = N.committed + count ∧ N'.refused = N.refused ∧
            (loose ≠ 0 → (N.stopping = true ∨ N.roomLive = false) → N'.drains = N.drains ∧
              N'.stream = N.stream ++ (List.range count).map (fun i => (N.committed + i) % N.qcap) ∧
              N'.due = List.replicate full (N.coalesce, false) ++ [(loose - full * N.coalesce, true)]) ∧
            (loose = 0 → halted s Q.part = false → N'.drains = (N.drains + 1) % 2 ^ 16 ∧ N'.stream = [] ∧ N'.due = [])) ∧
        ((N.on = false ∨ N.root = false ∨ bits imm.toNat 18 11 ≠ 0 ∨ 1024 < count ∨ N.qcap < N.committed - N.freed + count) →
          ∃ s' N', exec (.hostCommit r.port r.qp ⟨r.key, r.va, r.data, imm⟩) s = .next s' ∧ node? s' Q.part node = some N' ∧
            N' = { N with refused := (N.refused + 1) % 2 ^ 32 })) ∧
      (overRoot s Q.part r.key.toNat = true → node? s Q.part node = none →
        ∃ s' N', exec (.hostCommit r.port r.qp ⟨r.key, r.va, r.data, imm⟩) s = .next s' ∧ node? s' Q.part node = some N' ∧ N'.on = false ∧
          N'.refused = 1 ∧ N'.stream = []) ∧
      exec (.rdmaWrite r) s = .next (rdmaPut s r ps)) ∧
    (∀ ps, rdmaPieces s Q r r.len false = .ok (some ps) →
      let who : Requester := .host r.port r.qp
      ((∀ p ∈ ps, rangeBacked s p.2.2 p.2.1 = true) → (∀ p ∈ ps, atHand s who p.2.2 p.2.1 = true) →
        exec (.rdmaRead r) s = .next (emitOut (dropFar s who) (.rdmaData r.port r.qp
          (ps.flatMap fun p => (List.range p.2.1).map fun i => (byteAt s who (p.2.2 + i)).1)))) ∧
      ((∃ p ∈ ps, atHand s who p.2.2 p.2.1 = false) → exec (.rdmaRead r) s = .next (hostAsk s who ps))) ∧
    (∀ (who : Requester) (pa : Nat), remote s pa = false → (byteAt s who pa).1 = (physGet s pa 1).headD 0) ∧
    (rdmaPieces s Q r r.data.length true = .ok none → exec (.rdmaWrite r) s = .next (rdmaRefuse s r) ∧
      ∀ imm, exec (.hostCommit r.port r.qp ⟨r.key, r.va, r.data, imm⟩) s = .next (rdmaRefuse s r)) ∧
    (rdmaPieces s Q r r.len false = .ok none → exec (.rdmaRead r) s = .next (rdmaRefuse s r)) ∧
    (exec (.roceInvalidRequest r.port r.qp) s = .next (emitOut (failQp s r.port r.qp) (.roceError r.port r.qp)) ∧
      ∀ q ∈ (failQp s r.port r.qp).qps, q.port = r.port → q.num = r.qp → q.error = true)

/-! The scheduler, commands, management, halt and reset. -/

/-- R377, R379, R386, R387, R389, R390, R393, R394, R515: a node with COALESCE records in its stream fires with them and one more
firing is counted; a drain counts once its producers have drained; a team whose dependences hold becomes Ready; a chosen
team is admitted once, charged its estimate; it enters the free shadow bank of its core, created there with its waves at
the entry and its registers clear; a launch whose teams have all ended advances its counter and LIVE falls.

Completes: teamAdmit, nodeFire, drainComplete, teamReady, teamResident, launchEnd. -/
def Obligations.LaunchesProceed : Prop :=
  ∀ (s : State),
    (∀ p n N, node? s p n = some N → halted s p = false → N.on = true → N.stopping = false → N.coalesce ≤ N.stream.length →
      N.roomLive = true → N.due = [] → exec (.nodeFire p n) s = .next (wakePart (fireNode s p n N.coalesce) p) ∧
        ∃ s' N' L, exec (.nodeFire p n) s = .next s' ∧ node? s' p n = some N' ∧ N'.firings = N.firings + 1 ∧
          N'.stream = N.stream.drop N.coalesce ∧ smGet? s'.launches s.nextLaunch = some L ∧ L.node = n ∧ L.part = p ∧
          L.batch = N.stream.take N.coalesce ∧ L.firing = N.firings) ∧
    (∀ p n P N, smGet? s.parts p = some P → node? s p n = some N → halted s p = false → N.on = true → n ∉ N.succ →
      (N.root = false → N.drainReq = true → (∀ q ∈ producers P n, nsHas N.drainedBy q.1 = true ∧ q.2.live = 0) → N.stream = [] →
        ∃ s' N', exec (.drainComplete p n) s = .next s' ∧ node? s' p n = some N' ∧ N'.drainReq = false ∧
          N'.drains = (N.drains + 1) % 2 ^ 16 ∧ N'.drainedBy = []) ∧
      (N.root = true → ∀ k last rest, N.due = (k, last) :: rest → k = 0 ∨ (N.stopping = false ∧ N.roomLive = true) →
        ∃ s' N', exec (.drainComplete p n) s = .next s' ∧ node? s' p n = some N' ∧ N'.due = rest ∧
          N'.stream = N.stream.drop k ∧ N'.firings = N.firings + (if k = 0 then 0 else 1) ∧
          N'.drains = if last then (N.drains + 1) % 2 ^ 16 else N.drains)) ∧
    (∀ t T L, team? s t = some T → smGet? s.launches T.launch = some L → T.st = .waiting → L.ended = false → L.killed = false →
      halted s T.part = false →
      (dependenceReady s L T.index = true → exec (.teamReady t) s = .next (modTeam s t fun T => { T with st := .ready, since := s.now })) ∧
      (dependenceReady s L T.index = false → exec (.teamReady t) s = .next s)) ∧
    (∀ t T P L, team? s t = some T → smGet? s.parts T.part = some P → smGet? s.launches T.launch = some L → halted s T.part = false →
      let waiting := (chosenTeams s T.part P).filter fun q => !(q.2.charged && (q.2.st == .ready || 0 ≤ P.account.toInt))
      (∀ q ∈ waiting, q.1 = t ∨ chosenBefore s P T q.2 = true) → T.charged = false → (∃ q ∈ waiting, q.1 = t) →
      ((L.energy : Int) ≤ P.account.toInt → ∃ s' T' P', exec (.teamAdmit t) s = .next s' ∧ team? s' t = some T' ∧ T' = { T with charged := true } ∧
        smGet? s'.parts T.part = some P' ∧ P'.account = P.account - BitVec.ofNat 64 L.energy) ∧
      (P.account.toInt < (L.energy : Int) → exec (.teamAdmit t) s = .next s)) ∧
    (∀ core t T P C, team? s t = some T → smGet? s.parts T.part = some P → core? s core = some C → halted s T.part = false →
      (chosenFor s T.part P core).any (fun q => q.1 == t) = true → bankFor s core T = true → T.charged = true → T.st = .ready →
      T.created = false → genInUse s core ((C.gen + 1) % 256) = false → declsClosed s T = false → C.shadow = none →
      ∃ s' T' C', exec (.teamResident core t) s = .next s' ∧ s'.mem = s.mem ∧ core? s' core = some C' ∧ C'.shadow = some t ∧
        C'.gen = (C.gen + 1) % 256 ∧ team? s' t = some T' ∧ T'.st = .resident ∧ T'.created = true ∧ T'.core = core ∧
        T'.waves.length = T.nwaves ∧ ∀ W ∈ T'.waves, W.cause = 0 ∧ W.intrap = false ∧ W.fpctl = 0 ∧ W.v = [] ∧ W.p = []) ∧
    (∀ l L, smGet? s.launches l = some L → halted s L.part = false → L.ended = false → L.killed = false →
      L.endedTeams.length = L.grid →
      ∃ s' L', exec (.launchEnd l) s = .next s' ∧ smGet? s'.launches l = some L' ∧ L'.ended = true ∧
        (L.doneAddr = 0 → ∀ N, node? s L.part L.node = some N → N.stopping = false → N.root = false →
          ∃ N', node? s' L.part L.node = some N' ∧ N'.live = N.live - 1 ∧ N'.freed = N.freed + L.batch.length))

/-- R30, R31, R388, R395, R434–R438, R441, R515: banks, claims and the end of a team. BANK_SWAP with the active bank empty, or
holding a team of lower priority, brings the filled shadow team in as the active one and puts the other in the shadow
bank; WAIT_SWAP_TIMEOUT does so when every live wave has been blocked on long waits for longer than the threshold; a
shadow team's context is filled and saved, once no claim of the active team waits; a claim gives its team the unit; a released unit is free once cleared, when nothing else waits; a team
that is done ends and gives back what it held.

Completes: bankSwap, waitSwapTimeout, contextSaved, claimComplete, teamEnd, contextFillComplete, releaseClearComplete. -/
def Obligations.BanksAndTeamsProceed : Prop :=
  ∀ (s : State) (core : Nat) (C : Core), core? s core = some C →
    let swaps (i : Instr) (a b : Option Nat) : Prop :=
      ∃ s' C', exec i s = .next s' ∧ core? s' core = some C' ∧ C'.active = b ∧ C'.shadow = a ∧ C'.swapping = false ∧
        (∀ t, b = some t → ∃ T', team? s' t = some T' ∧ T'.st = .active) ∧ (∀ t, a = some t → ∃ T', team? s' t = some T' ∧ T'.st = .resident)
    (∀ b B, coreRuns s core C = true → C.swapping = false → C.active = none → C.idle = false → C.shadow = some b → team? s b = some B → B.filled = true →
      B.st = .resident → B.forced = false → swaps (.bankSwap core) none (some b)) ∧
    (∀ a A b B, coreRuns s core C = true → C.swapping = false → C.active = some a → C.shadow = some b → a ≠ b → team? s a = some A → team? s b = some B →
      A.st = .active → A.pinned = false → A.image.isSome = true → C.rays = [] → shadowReady s C true = true →
      (A.base < B.base → swaps (.bankSwap core) (some a) (some b)) ∧
      (teamBlocked s a A = true →
        swaps (.waitSwapTimeout core) (some a) (some b))) ∧
    (∀ a A, C.active = some a → team? s a = some A → (teamBlocked s a A = false ∨ A.pinned = true) →
      exec (.waitSwapTimeout core) s = .next s) ∧
    (∀ a A, team? s a = some A → (teamBlocked s a A = true ↔ (∃ W ∈ A.waves, W.live ≠ 0) ∧ ∀ (w : Nat) (W : Wave), A.waves[w]? = some W →
      W.live = 0 ∨ (W.inLongWait (rejectedOf s a w) = true ∧ ∃ t0, W.blockedAt = some t0 ∧ t0 + W.blockTh < s.now))) ∧
    (∀ b B, C.shadow = some b → team? s b = some B → B.st = .resident → C.stopped = false → claimWaits C = false →
      (B.filled = false →
        let bs := (imageBase s B).elim B.saved fun a => physGet s (a + 0x100040) B.saved.length
        ∃ s' B', exec (.contextFillComplete core) s = .next s' ∧ s'.mem = s.mem ∧ team? s' b = some B' ∧
          B' = { (if bs = B.saved then B else B.restored bs) with filled := true }) ∧
      (B.core = core → B.forced = false → B.image.isSome = true → (imageBase s B).isSome = true → B.ctxSaved = false → contextQuiet s b B = true →
        ∃ s' B', exec (.contextSaved b) s = .next s' ∧ team? s' b = some B' ∧ B'.ctxSaved = true ∧ B'.st = .resident)) ∧
    (∀ c T, C.claims = [c] → C.stopped = false → team? s c.team = some T → c.victim = none → T.unitSt c.tile c.idx = .fresh →
      (if c.tile then c.idx < T.tileSt.length else c.idx < T.regSt.length) →
      ∃ s' C' T', exec (.claimComplete core) s = .next s' ∧ s'.mem = s.mem ∧ core? s' core = some C' ∧ C'.claims = [] ∧
        team? s' c.team = some T' ∧ T'.unitSt c.tile c.idx = .present ∧
        (c.unit < (C.units c.tile).length → (C'.units c.tile)[c.unit]? = some (.held c.team c.idx))) ∧
    (∀ u, C.phys.findIdx? (fun p => p == .clearing) = some u → (C.phys.filter fun p => p == .clearing).length = 1 → C.physTiles.contains .clearing = false →
      claimWaits C = false → contextWaits s C = false → (∀ b B, C.shadow = some b → team? s b = some B → B.st = .resident → B.filled = true) →
      ∃ s' C', exec (.releaseClearComplete core) s = .next s' ∧ s'.mem = s.mem ∧ core? s' core = some C' ∧
        C'.phys = setAt C.phys u .free ∧ C'.physTiles = C.physTiles) ∧
    (∀ t T L e, team? s t = some T → smGet? s.launches T.launch = some L → T.core = core → T.st = .ending → halted s T.part = false →
      teamDone s t T = true →
      ∃ s' T', exec (.teamEnd t e) s = .next s' ∧ team? s' t = some T' ∧ T'.st = .ended ∧ T'.arena = [] ∧ T'.image = none ∧
        (∀ C', core? s' core = some C' → C'.active ≠ some t ∧ C'.shadow ≠ some t ∧ ∀ i, Phys.held t i ∉ C'.phys) ∧
        (∀ P, smGet? s.parts T.part = some P → ∃ P', smGet? s'.parts T.part = some P' ∧ P'.account = P.account + BitVec.ofNat 64 (if T.charged then L.energy else 0) - BitVec.ofNat 64 e))

/-- R184, R345, R351, R368, R369, R430–R432, R442, R443, R446, R501: the management queue. NODETAB and NODEON are refused over
enabled nodes and otherwise set the table and read a node's descriptor; NODEOFF of an idle node disables it; FORCE of a
team in no bank and KILL are answered, KILL ending every team of the launch; HALT raises the halt line with reason 4;
ASREC writes an address-space record, waiting for its answer where MINGEN rises; an unknown operation is answered with
status 3; SVCDONE wakes the caller that holds its ticket; FLUSH advances GEN and clears nothing else. The model's readings (log
entry 58): status 1 for NODEON of an enabled node, 2 for a node from 4,096 up or an unknown serial, and the immediate answer to
FORCE of a team in no bank.

Completes: flush, replay, flushThenReplay, force, kill, halt, nodetab, nodeon, nodeoff, asrec, svcdone, unknownOp. -/
def Obligations.CommandsComplete : Prop :=
  ∀ (s : State) (m : MgmtMsg) (P : Part), served s m = .ok P →
    let answers (i : Instr) (status : Nat) (result : Nat) : Prop :=
      ∃ s', exec i s = .next s' ∧ s'.outbox = s.outbox ++ [.answer m.part m.port m.tag status (BitVec.ofNat 64 result)]
    let n := operand m 8 2
    (m.op = 0x0001#16 → (livingTeam s m.part (operand m 8 4) = none → exec (.force m) s = .next (reply s m 2)) ∧
      (∀ t T, livingTeam s m.part (operand m 8 4) = some (t, T) →
        ((T.st = .saved ∨ T.st = .waiting ∨ T.st = .ready) → answers (.force m) 0 0) ∧
        ((T.st = .resident ∨ T.st = .active) → team? s t = some T →
          ∃ s' T', exec (.force m) s = .next s' ∧ team? s' t = some T' ∧ T'.forced = true ∧ T'.st = T.st ∧ s'.outbox = s.outbox))) ∧
    (m.op = 0x0002#16 → (livingTeam s m.part (operand m 8 4) = none → exec (.kill m) s = .next (reply s m 2)) ∧
      (∀ t T L, livingTeam s m.part (operand m 8 4) = some (t, T) → team? s t = some T → T.st ≠ .ended → smGet? s.launches T.launch = some L →
        L.ended = false → L.killed = false →
        ∃ s' T' L', exec (.kill m) s = .next s' ∧ team? s' t = some T' ∧ T'.st = .ended ∧ T'.killed = true ∧
          smGet? s'.launches T.launch = some L' ∧ L'.killed = true ∧ L'.ended = true)) ∧
    (m.op = 0x0003#16 → (P.haltst.getLsbD 8 = true → exec (.halt m) s = .next (reply s m 0)) ∧
      (P.haltst.getLsbD 8 = false → P.halt = none → ∃ s' P', exec (.halt m) s = .next s' ∧ smGet? s'.parts m.part = some P' ∧
        P'.halt = some ⟨4, 0xFFFF, s.moduleNo, 0, [], 0⟩ ∧ s'.mem = s.mem)) ∧
    (m.op = 0x0010#16 →
      (operand m 8 8 % 4096 ≠ 0 → exec (.nodetab m) s = .next (reply s m 2)) ∧
      (operand m 8 8 % 4096 = 0 → (P.nodes.any (·.2.on)) = true → exec (.nodetab m) s = .next (reply s m 1)) ∧
      (operand m 8 8 % 4096 = 0 → (P.nodes.any (·.2.on)) = false → ∃ s' P', exec (.nodetab m) s = .next s' ∧
        smGet? s'.parts m.part = some P' ∧ P' = { P with
          nodetab := operand m 8 8
          nodes := P.nodes.map fun q => (q.1, { q.2 with addr := operand m 8 8 + 512 * q.1 }) })) ∧
    (m.op = 0x0011#16 →
      (4096 ≤ n → exec (.nodeon m) s = .next (reply s m 2)) ∧
      (n < 4096 → (smGet? P.nodes n).any (·.on) = true → exec (.nodeon m) s = .next (reply s m 1)) ∧
      (n < 4096 → (smGet? P.nodes n).any (·.on) = false →
        let d := physGet s (P.nodetab + 512 * n) 512
        (∀ off, nodeFault d = some off → exec (.nodeon m) s = .next (reply s m 1 off)) ∧
        (nodeFault d = none → ∃ s' N, exec (.nodeon m) s = .next s' ∧ node? s' m.part n = some N ∧ N.on = true ∧
          N.packet = d.take 256 ∧ N.coalesce = fieldB d 270 2 ∧ N.committed = 0 ∧ N.live = 0 ∧ N.stream = []))) ∧
    (m.op = 0x0012#16 →
      (4096 ≤ n → exec (.nodeoff m) s = .next (reply s m 2)) ∧
      (n < 4096 → ∀ N, smGet? P.nodes n = some N → N.on = true → N.live = 0 → P.pend = [] →
        ∃ s' N', exec (.nodeoff m) s = .next s' ∧ node? s' m.part n = some N' ∧ N'.on = false ∧ N'.stream = [] ∧
          s'.outbox = s.outbox ++ [.answer m.part m.port m.tag 0 0])) ∧
    (m.op = 0x0018#16 →
      let a := operand m 8 1
      let d1 := operand m 24 8 % 2 ^ 32
      (64 ≤ a → exec (.asrec m) s = .next (reply s m 2)) ∧
      (a < 64 → 32768 ≤ (d1 % 2 ^ 16 + 2 ^ 16 - d1 / 2 ^ 16) % 2 ^ 16 → exec (.asrec m) s = .next (reply s m 1)) ∧
      (a < 64 → (d1 % 2 ^ 16 + 2 ^ 16 - d1 / 2 ^ 16) % 2 ^ 16 < 32768 →
        ∃ s', exec (.asrec m) s = .next s' ∧ (asidOf s' a).gen = d1 % 2 ^ 16 ∧ (asidOf s' a).mingen = d1 / 2 ^ 16 ∧
          (asidOf s' a).valid = decide (operand m 16 8 % 2 = 1) ∧
          (d1 / 2 ^ 16 ≠ (asidOf s a).mingen → (asidOf s' a).raising = some (d1 / 2 ^ 16) ∧ s'.outbox = s.outbox ∧
            s'.ctl = s.ctl ++ (List.range 50).map (fun k => ⟨k, .mingen a (d1 / 2 ^ 16)⟩) ∧
            ∀ k, k < 50 → mingenAt s' k a = mingenAt s k a))) ∧
    ((m.op ∉ [0x0001#16, 0x0002#16, 0x0003#16, 0x0010#16, 0x0011#16, 0x0012#16, 0x0018#16]) → exec (.unknownOp m) s = .next (reply s m 3)) ∧
    (∀ ticket, (P.calls.find? (fun c => c.ticket % 2 ^ 32 == ticket.toNat) = none → exec (.svcdone m.part ticket) s = .next s) ∧
      (∀ c W, P.calls.find? (fun c => c.ticket % 2 ^ 32 == ticket.toNat) = some c → wave? s c.team c.wave = some W →
        ∃ s' W' P', exec (.svcdone m.part ticket) s = .next s' ∧ s'.mem = s.mem ∧ wave? s' c.team c.wave = some W' ∧
          W'.s = smPut 0 (smPut 0 W.s 0 (P.svcreply.extractLsb' 0 32)) 1 (P.svcreply.extractLsb' 32 32) ∧ W'.v = W.v ∧
          smGet? s'.parts m.part = some P' ∧ P'.calls = P.calls.filter fun d => d.ticket != c.ticket)) ∧
    (∃ s' P', exec (.flush m.part) s = .next s' ∧ smGet? s'.parts m.part = some P' ∧
      P'.fbgen.toNat % 2 ^ 16 = (P.fbgen.toNat % 2 ^ 16 + 1) % 2 ^ 16 ∧ P'.fbgen.getLsbD 16 = P.fbgen.getLsbD 16 ∧ s'.teams = s.teams ∧ s'.mem = s.mem) ∧
    exec (.replay m.part) s = .next { s with ctl := s.ctl ++ P.clusters.map fun k => ⟨k, .replay m.part (fbGen s m.part)⟩ } ∧
    (∃ s', exec (.flushThenReplay m.part) s = .next s' ∧ s'.teams = s.teams ∧ s'.mem = s.mem ∧
      s'.ctl = s.ctl ++ P.clusters.map fun k => ⟨k, .replay m.part ((fbGen s m.part + 1) % 2 ^ 16)⟩) ∧
    (∀ i f p gen, s.ctl[i]? = some f → f.cmd = .replay p gen → ((s.ctl.take i).any fun g => g.tile == f.tile) = false →
      tileClosed s f.tile p = false → controlMove s i = replayTile { s with ctl := s.ctl.eraseIdx i } f.tile p gen) ∧
    (∀ t w W T, team? s t = some T → T.part = m.part → T.waves[w]? = some W → W.parked = true → W.replay = false →
      olderThan W.stamp (fbGen s m.part) = true →
      ∃ W', wave? (replayParked m.part (fbGen s m.part) s (t, w)) t w = some W' ∧ W'.replay = true ∧ W'.parks = [])

/-- R7, R8, R44, R392, R430, R503–R514, R517, R518, R522: the management registers and what Caltus does. A write of a register keeps its
reserved bits 0, and one that its rule forbids changes nothing; an RO register takes nothing, a WO register acts and reads as 0; a world register from another agent than Caltus takes no
effect and is counted; a region that overlaps another, or names an empty key slot, is refused, and one that changes KEY or
SEC is closed until every byte of it is zero; keys load from KEYDAT and are erased unless a valid region names them; an
allowance keeps the sum within the budget; counters, clocks and reports. Each refused write is answered to its requester. The
model's choices: what a byte reads as under a key it was not written with (log entry 103), what a load over a slot in use does
(log entry 70), the amounts of energy and what a refused budget leaves (log entry 68), and the order in which MREG2 takes the registers (log entry 67).

Completes: clockStretch, powerLimit, energyRefill, stretchCountRead, keyLoad, keyErase, regionWrite, regionRekeyComplete,
worldWrite, schcfgWrite, areaBaseWrite, allowanceWrite, budgetSet, mregExtend, attestationReport, signedSidebandRequest,
mgmtCsrWrite. -/
def Obligations.ManagementCompletes : Prop :=
  ∀ (s : State),
    let extended (m : BitVec 512) (d : List Byte) : BitVec 512 := BitVec.ofNat 512 (Sha.ofBE (Sha.digest (Sha.toBE 64 m.toNat ++ d)))
    let measured (s s' : State) (die : Nat) : BitVec 512 :=
      let m := smGetD s.mregs (die * 8 + 2) 0
      if worldBytes s' die = worldBytes s die then m else extended m (Sha.digest (worldBytes s' die))
    let rekeyed (s s' : State) : Prop := ∀ k, memGet s'.mem k =
      if 10 * 2 ^ 36 ≤ k ∨ tagAt s' k = tagAt s k then memGet s.mem k else memDefault
    (∀ p P (v : DWord), smGet? s.parts p = some P →
      let mib := bits v.toNat 35 32
      let bad : Bool := (mib != bits P.schcfg.toNat 35 32 && s.launches.any fun q => q.2.part == p && !q.2.ended) ||
        partL2 s P < 2 * 1024 * mib || v.toNat % 2 ^ 32 == 0
      ∃ s' P', exec (.schcfgWrite p v) s = .next s' ∧ smGet? s'.parts p = some P' ∧ s'.mem = s.mem ∧
        P'.schcfg = (if bad then P.schcfg else v &&& 0xF_FFFF_FFFF#64) ∧
        s'.outbox = if bad then s.outbox ++ [.refusedWrite .service (0x800 + 16 * p)] else s.outbox) ∧
    (∀ (num : BitVec 12) (v : DWord) P P1, 0x880 ≤ num.toNat → num.toNat < 0x900 → smGet? s.parts ((num.toNat - 0x880) / 16) = some P →
      areaWrite (num.toNat % 16) v P = some P1 →
      let r := areaRange (num.toNat % 16) P1
      let p := (num.toNat - 0x880) / 16
      (rangeBacked s r.1 r.2 = false → exec (.areaBaseWrite num v) s = .next (emitOut s (.refusedWrite .service num.toNat))) ∧
      (rangeBacked s r.1 r.2 = true → exec (.areaBaseWrite num v) s = .next (drainSq (modPart s p fun _ => P1) p) ∧
        (P.sqPend = [] → ∃ s' P', exec (.areaBaseWrite num v) s = .next s' ∧ smGet? s'.parts p = some P' ∧ s'.mem = s.mem ∧ P' = P1))) ∧
    (∀ die role p (v : DWord) P, die < 2 → role ≠ .board → p < 8 → smGet? s.parts p = some P →
      let write (off : Nat) : Host.Outcome State Fault Refusal := exec (.mgmtCsrWrite die role (BitVec.ofNat 12 (0x880 + 16 * p + off)) v) s
      (∀ off ∈ [2, 8, 11, 15], write off = .next s) ∧
      write 5 = .next (match v.toNat % 4 with
        | 0 => s
        | 1 => flushGen s p
        | 2 => replayAll s p
        | _ => replayAll (flushGen s p) p) ∧
      write 14 = .next (callDone s p (v.toNat % 2 ^ 32)) ∧
      (∃ s' P', write 3 = .next s' ∧ s'.mem = s.mem ∧ smGet? s'.parts p = some P' ∧ P' = { P with fbrd := v &&& 0xFFFF_FFFF#64 }) ∧
      mgmtCsr s die role (0x880 + 16 * p + 5) = 0 ∧ mgmtCsr s die role (0x880 + 16 * p + 14) = 0) ∧
    (∀ die role (num : BitVec 12) v, die < 2 → 0xF00 ≤ num.toNat → num.toNat < 0xF04 → role ≠ .caltus die →
      exec (.worldWrite die role num v) s = .next (denyAccess s die)) ∧
    (∀ die (num : BitVec 12) (v : DWord), die < 2 → num.toNat = 0xF03 → (∀ k, k < 64 → clusterFree s (25 * die + k) = true) →
      ∃ s', exec (.worldWrite die (.caltus die) num v) s = .next s' ∧ s'.mem = s.mem ∧ dieCsr s' die 0xF03 = v &&& 0x1FF_FFFF#64 ∧
        (∀ k d, (d, k) ≠ (die, 0xF03) → k < 4096 → dieCsr s' d k = dieCsr s d k) ∧
        smGetD s'.mregs (die * 8 + 2) 0 = measured s s' die) ∧
    (∀ die (num : BitVec 12) (v : DWord) k, die < 2 → num.toNat = 0xF03 → k < 64 →
      (dieCsr s die 0xF03 ^^^ (v &&& 0x1FF_FFFF#64)).getLsbD k = true → clusterFree s (25 * die + k) = false →
      exec (.worldWrite die (.caltus die) num v) s = .next (emitOut s (.refusedWrite (.caltus die) 0xF03))) ∧
    (∀ die role (num : BitVec 12) v, die < 2 → role ≠ .board → caltusOnly num.toNat = true → 0x800 ≤ num.toNat → role ≠ .caltus die →
      exec (.mgmtCsrWrite die role num v) s = .next (denyAccess s die)) ∧
    (∀ core role C v, core? s core = some C → core < 400 → role ≠ .board → ∃ s' C', exec (.mgmtCsrWrite (core / 200) role (BitVec.ofNat 12 (0xE00 + core % 200)) v) s = .next s' ∧
      core? s' core = some C' ∧ C' = { C with waitth := v.toNat % 2 ^ 32 } ∧ s'.mem = s.mem) ∧
    (∀ i a b, i < 128 → (smGetD s.regions i ⟨0, 0, false⟩).closed = false →
      let die := i / 64
      let old := smGetD s.regions i ⟨0, 0, false⟩
      let new : Region := ⟨a &&& 0xFF87_0000_0000_7FFF#64, b &&& 0x7FFF#64, false⟩
      let valid (r : Region) : Bool := r.rega.getLsbD 63
      let slot := bits new.rega.toNat 61 55
      let legal : Prop :=
        (valid new = true → (∀ r ∈ s.regions, r.1 / 64 = die → r.1 ≠ i → valid r.2 = true → regionsMeet new r.2 = false) ∧
          (smGet? s.keys slot).isSome = true ∧ bits new.rega.toNat 50 48 ≤ 4 ∧ bits new.rega.toNat 14 0 ≤ bits new.regb.toNat 14 0 ∧
          regionInUse s die new = false) ∧ (valid old = true → regionInUse s die old = false)
      (∀ role, role ≠ .caltus die → exec (.regionWrite role i a b) s = .next (denyAccess s die)) ∧
      (¬ legal → exec (.regionWrite (.caltus die) i a b) s = .next (emitOut s (.refusedWrite (.caltus die) (0x900 + 2 * (i % 64))))) ∧
      (legal → ∃ s', exec (.regionWrite (.caltus die) i a b) s = .next s' ∧
        smGet? s'.regions i = some { new with
          closed := valid old && valid new && bits new.rega.toNat 62 55 != bits old.rega.toNat 62 55 } ∧
        (∀ j, j ≠ i → smGet? s'.regions j = smGet? s.regions j) ∧ smGetD s'.mregs (die * 8 + 2) 0 = measured s s' die ∧
        (s.covered = [] → rekeyed s s') ∧
        ∀ c, s.covered = [c] → c.at_ < 10 * 2 ^ 36 → tagAt s c.at_ ≠ tagAt s' c.at_ → tagAt s' c.at_ = (c.key, c.sec) →
          memGet s'.mem c.at_ = c.byte)) ∧
    (∀ die i r, smGet? s.regions (die * 64 + i) = some r → r.closed = true →
      ∃ s', exec (.regionRekeyComplete die i) s = .next s' ∧ smGet? s'.regions (die * 64 + i) = some { r with closed := false } ∧
        (s.caltusAt = some (die * 64 + i) → s'.outbox = s.outbox ++ [.caltusStatus true] ∧ s'.caltusAt = none) ∧
        ∀ k, memGet s'.mem k = if (regionSpan die r).1 ≤ k ∧ k < (regionSpan die r).2 then 0 else memGet s.mem k) ∧
    (∀ slot, slot < 128 →
      let named : Prop := slot = 0 ∨ (s.regions.any fun r => r.2.rega.getLsbD 63 && bits r.2.rega.toNat 61 55 == slot) = true
      (∀ die, ∃ s', exec (.keyLoad ⟨.caltus die, slot⟩) s = .next s' ∧ smGet? s'.keys slot = some (keydatKey s die) ∧
        (∀ j, j ≠ slot → smGet? s'.keys j = smGet? s.keys j) ∧ (∀ j, j < 8 → smGetD s'.keydat (die * 8 + j) 0 = 0) ∧
        (s.covered = [] → rekeyed s s')) ∧
      (∀ die, named → exec (.keyErase ⟨.caltus die, slot⟩) s = .next (emitOut s (.refusedWrite (.caltus die) 0xF10))) ∧
      (∀ die, ¬ named → ∃ s', exec (.keyErase ⟨.caltus die, slot⟩) s = .next s' ∧ smGet? s'.keys slot = none ∧
        ∀ j, j ≠ slot → smGet? s'.keys j = smGet? s.keys j) ∧
      (∀ role, (∀ die, role ≠ .caltus die) → exec (.keyLoad ⟨role, slot⟩) s = .next (denyAccess s 0) ∧
        exec (.keyErase ⟨role, slot⟩) s = .next (denyAccess s 0))) ∧
    (∀ p P w, smGet? s.parts p = some P → ∃ s' P', exec (.allowanceWrite p w) s = .next s' ∧ smGet? s'.parts p = some P' ∧
      P'.allowance = if (s.parts.filter fun q => q.1 != p).foldl (fun a q => a + q.2.allowance) w + s.reserve ≤ s.budget then w else P.allowance) ∧
    (∀ role (b : Budget), exec (.budgetSet role b) s = .next (
      if (role = .caltus 0 ∨ role = .caltus 1) ∧ 1200 ≤ b.bud ∧ b.bud ≤ 3000 ∧ s.parts.foldl (fun a q => a + q.2.allowance) 0 + b.stat ≤ b.bud
      then { s with budget := b.bud, reserve := b.stat } else emitOut s (.refusedWrite role 0))) ∧
    (∀ die role i d, die < 2 → i < 8 → ∃ s', exec (.mregExtend die role i d) s = .next s' ∧ s'.mem = s.mem ∧
      (role ≠ .caltus die → (role ≠ .service ∨ i < 3) → s' = s) ∧
      (role = .caltus die ∨ (role = .service ∧ 3 ≤ i) → smGetD s'.mregs (die * 8 + i) 0 =
        extended (smGetD s.mregs (die * 8 + i) 0) (Sha.toBE 64 d.toNat)) ∧ ∀ k, k ≠ die * 8 + i → smGetD s'.mregs k 0 = smGetD s.mregs k 0) ∧
    (∀ die nonce, die < 2 → ∃ s' r, exec (.attestationReport die nonce) s = .next s' ∧ s'.outbox = s.outbox ++ [.report r] ∧
      r.take 624 = reportBody s die nonce ∧ s'.mem = s.mem) ∧
    (∀ r, r.seq ≤ s.sideSeq → exec (.signedSidebandRequest r) s = .next (emitOut s (.sideband false))) ∧
    (∀ r, ∃ s', exec (.signedSidebandRequest r) s = .next s' ∧ s'.fuses.version ≥ s.fuses.version ∧ s'.svcVersion ≥ s.svcVersion ∧
      s'.sideSeq ≥ s.sideSeq ∧ s'.mem = s.mem) ∧
    (∃ s', exec .energyRefill s = .next s' ∧ s'.mem = s.mem ∧ s'.teams = s.teams ∧ ∀ p P, smGet? s.parts p = some P →
      ∃ P', smGet? s'.parts p = some P' ∧ P'.account = BitVec.ofInt 64 (min (P.account.toInt + P.allowance) (1024 * P.allowance))) ∧
    (∀ k C n, smGet? s.clusters k = some C →
      (∃ s' C', exec (.clockStretch k n) s = .next s' ∧ smGet? s'.clusters k = some C' ∧ C' = { C with stretch := (C.stretch + n) % 2 ^ 64, lag := C.lag + s.choice } ∧
        s'.teams = s.teams ∧ s'.mem = s.mem) ∧
      (∃ s' C', exec (.powerLimit n) s = .next s' ∧ smGet? s'.clusters k = some C' ∧ C'.stretch = (C.stretch + n) % 2 ^ 64 ∧ s'.mem = s.mem) ∧
      ∃ s' C', exec (.stretchCountRead k) s = .next s' ∧ smGet? s'.clusters k = some C' ∧ C'.stretch = 0 ∧
        s'.outbox = s.outbox ++ [.csrValue (k / 25 * 4096 + 0xF40 + k) (BitVec.ofNat 64 C.stretch)])

/-- R422, R446–R449, R519, R520: a fatal condition raises the halt line of its partition, the first one standing; each unit
stops as the line reaches it and its 64-byte record is written; once all have, HALTST holds the reason with HALTED and
nothing of the partition moves; a reset of the halted partition ends its teams and clears HALTST; module reset leaves no
team, eight partitions without clusters, and no byte of memory but those of the firmware; a die whose fuses cannot be read
stays down, and the module stops at step 2 where neither can (log entry 69; that memory is clear at module reset is log entry 6), at 4 where no gateway comes up, at 5 where an image is rejected; up, key slot 0 holds its key.

Completes: moduleReset, partitionReset, fatalError, haltLineArrival, haltHeaderWrite. -/
def Obligations.HaltAndReset : Prop :=
  ∀ (s : State), (∀ (p : Nat) (P : Part), smGet? s.parts p = some P →
    (∀ reason origin a, P.halt = none → P.haltst.getLsbD 8 = false → 1 ≤ reason → reason ≤ 3 →
      ∃ s' P', exec (.fatalError p reason origin a) s = .next s' ∧ s'.mem = s.mem ∧ smGet? s'.parts p = some P' ∧
        P'.halt = some ⟨reason, origin, s.moduleNo, a, [], 0⟩ ∧ halted s' p = true) ∧
    (∀ reason origin a, halted s p = true → exec (.fatalError p reason origin a) s = .next s) ∧
    (∀ h unit, P.halt = some h → (partUnits P).contains unit = true → nsHas h.arrived unit = false →
      ∃ s' P' h', exec (.haltLineArrival p unit) s = .next s' ∧ smGet? s'.parts p = some P' ∧ P'.halt = some h' ∧
        h'.arrived = nsAdd h.arrived unit ∧ h'.records = h.records + 1 ∧ h'.reason = h.reason ∧ h'.origin = h.origin ∧
        unitStopped s' p unit = true) ∧
    (∀ h, P.halt = some h → (∀ u ∈ partUnits P, nsHas h.arrived u = true) → h.reason < 256 →
      ∃ s' P', exec (.haltHeaderWrite p) s = .next s' ∧ smGet? s'.parts p = some P' ∧ P'.halt = none ∧
        P'.haltst = BitVec.ofNat 64 (2 ^ 8 + h.reason) ∧ (∀ u, unitStopped s' p u = true) ∧ .interrupt 0 p ∈ s'.outbox) ∧
    (∀ h u, P.halt = some h → u ∈ partUnits P → nsHas h.arrived u = false → exec (.haltHeaderWrite p) s = .next s) ∧
    (∀ role, P.haltst.getLsbD 8 = false → exec (.partitionReset ⟨role, p⟩) s = .next s) ∧
    (∀ role, P.haltst.getLsbD 8 = true → ¬ (if P.secure then role = .caltus 0 ∨ role = .caltus 1 else role = .service) →
      exec (.partitionReset ⟨role, p⟩) s = .next (emitOut s (.refusedWrite role 0))) ∧
    (∀ role, P.haltst.getLsbD 8 = true → (if P.secure then role = .caltus 0 ∨ role = .caltus 1 else role = .service) →
      ∃ s' P', exec (.partitionReset ⟨role, p⟩) s = .next s' ∧ s'.mem = s.mem ∧ smGet? s'.parts p = some P' ∧ P'.haltst = 0 ∧ P'.halt = none ∧ P'.fbwr = 0 ∧
        P'.fbrd = 0 ∧ (∀ t T, team? s t = some T → T.part = p → ∃ T', team? s' t = some T' ∧ T'.st = .ended) ∧
        ∀ core C', core? s' core = some C' → nsHas P.clusters (clusterOf core) = true → C'.active = none ∧ C'.shadow = none)) ∧
    (∀ b, ∃ s', exec (.moduleReset b) s = .next s' ∧ s'.teams = [] ∧ s'.launches = [] ∧
      ((∀ im ∈ [b.caltus, b.service], remote s' (fieldB im 24 8) = false) → s'.reqs = []) ∧ s'.regions = [] ∧ s'.asids = [] ∧
      (∀ p, p < 8 → smGet? s'.parts p = some (Part.blank [])) ∧
      (∀ core, core < 400 → b.fuseOk.getD (core / 200) false = true →
        ∃ C, core? s' core = some C ∧ C.active = none ∧ C.shadow = none ∧ C.waitth = 4096) ∧
      (∀ die, die < 2 → b.fuseOk.getD die false = false → .interrupt 5 2 ∈ s'.outbox ∧ BootFail.fuses die ∈ s'.bootWhy ∧ s'.mem = [] ∧
        (∀ core, core / 200 = die → core? s' core = none) ∧ (b.fuseOk.getD (1 - die) false = true → s'.boot = .stopped 4)) ∧
      (b.fuseOk.getD 0 false = false → b.fuseOk.getD 1 false = false → s'.boot = .stopped 2) ∧
      (∀ k, (∀ im ∈ [b.caltus, b.service], ∀ i, i < im.length - 1024 → loc s' (fieldB im 24 8 + i) ≠ k) → memGet s'.mem k = memDefault) ∧
      (let fused := b.fuseOk.getD 0 false && b.fuseOk.getD 1 false
       let linked := (List.range 5).any fun g => (List.range 5).any fun m => (b.modules.getD g []).getD m false
       (fused = true → linked = false → s'.boot = .stopped 4 ∧ BootFail.links ∈ s'.bootWhy) ∧
       (fused = true → linked = true → imageOk s.fuses b 1 s.fuses.version b.caltus = false → s'.boot = .stopped 5 ∧
         BootFail.caltusImage ∈ s'.bootWhy ∧ smGet? s'.keys 0 = none)) ∧
      (s'.boot = .up ∨ ∃ n ∈ [2, 4, 5], s'.boot = .stopped n) ∧ (s'.boot = .up → smGet? s'.keys 0 = some b.random))

/-! Decoding, the step, the memory and the reset. -/

/-- R14, R23, R88, R176, R299, R307, R397: a step runs the decoded word. When the head of the agenda (log entry 1) lets an
octant issue, and the word at the program counter of the gang that comes next is mapped, is performed by its home and
decodes to i, the step is exec of i for that gang; what follows the word is `endTurn`. The same for the word of the
context whose turn it is in its Contrail engine, where one whose word waits gives its turn to the next, and of the
evaluator lane whose turn it is; an event is its own meaning, and with nothing on the agenda nothing moves.

R520: a module stopped in bring-up takes no request of the host, a management core or another module, but a signed
sideband request. -/
def Obligations.StepRunsDecodedWord : Prop :=
  (∀ s, s.agenda = [] → step s = .next s) ∧
  (∀ (s : State) (core o ch n : Nat) (r : List Turn) (C : Core) (t w : Nat) (s1 : State) (cont : Bool) (T : Team) (W : Wave)
      (g : BitVec 8) (s3 : State) (x : IWord) (i : Instr),
    s.agenda = ⟨.issue core o, ch, n⟩ :: r →
    let s0 := beginTurn s ⟨.issue core o, ch, n⟩ r
    core? s0 core = some C → C.active = some t → (C.stopped || C.swapping) = false →
    takeSlot s0 core o = some (s1, w, cont) → team? s1 t = some T → T.waves[w]? = some W →
    (if cont && W.gangReady (W.gangOf W.lastGang.toNat) then some (W.gangOf W.lastGang.toNat) else W.nextGang) = some g →
    fetchFor s1 (.wave t w) g none T ((W.slice (lowSlice g)).pc.toNat * 8) = .word x s3 → decode x = some i →
    (pairedBit x || computeAllows (opcOf x).toNat) = true → (W.lastOfRun g = true → bndBit x = true) →
    let s2 := { s3 with cur := .wave t w g }
    i.wf = true ∧ step s = match exec i s2 with
      | .next s' => .next (endTurn s2 s' x)
      | .fault f => .fault f
      | .refused q => .refused q) ∧
  (∀ (s : State) (who : Requester) (g : BitVec 8) (eng : Option (Nat × Bool)) (T : Team) (va pa key gen : Nat) (sec : Bool),
    teamTr s T .fetch va = .ok pa key sec gen → homeCheck s pa T.asid gen key sec (eng.elim false (·.2)) eng.isSome = .perform →
    (remote s pa = false → fetchFor s who g eng T va = .word (BitVec.ofNat 64 (physNum s pa 8)) s) ∧
    (∀ l, remote s pa = true → farLine? s who pa = some l →
      fetchFor s who g eng T va = .word (farWord s who pa) (useFar s who pa)) ∧
    ((∀ i, i < 8 → remote s (pa + i) = false) → farWord s who pa = BitVec.ofNat 64 (physNum s pa 8))) ∧
  (∀ (s : State) (e k ch n : Nat) (r : List Turn) (rest : List Nat) (X : Ctx) (T : Team) (s1 : State) (x : IWord) (i : Instr),
    s.agenda = ⟨.contrail e, ch, n⟩ :: r →
    let s0 := beginTurn s ⟨.contrail e, ch, n⟩ r
    contrailOrder s0 e = k :: rest → smGet? s0.ctxs k = some X → ctxTeam s0 X = some T →
    fetchFor s0 (.context k) 0 (some (ctxUnit k, X.secure)) T (X.kpc.toNat * 8) = .word x s1 →
    decode x = some i → pairedBit x = false → streamAllows (opcOf x).toNat = true →
    let s2 := { s1 with cur := .context k }
    i.wf = true ∧ (∀ s', exec i s2 = .next s' →
      let s3 := endTurn s2 s' x
      (stillWaits s3 k = false → step s = .next (noteIssued s3 k)) ∧
      (stillWaits s3 k = true → rest = [] → step s = .next s3) ∧
      (stillWaits s3 k = true → step s = contrailTurn rest s3)) ∧
    (∀ f, exec i s2 = .fault f → step s = .fault f) ∧ (∀ q, exec i s2 = .refused q → step s = .refused q)) ∧
  (∀ (s : State) (k ch n : Nat) (r : List Turn) (e : Eval) (P : Pass) (C : Cluster) (pa : Nat) (x : IWord) (i : Instr),
    s.agenda = ⟨.lane k, ch, n⟩ :: r →
    let s0 := beginTurn s ⟨.lane k, ch, n⟩ r
    smGet? s0.clusters k = some C → laneOf s0 k = some e → C.passes[e.slot]? = some P →
    unitStopped s0 P.part (phUnit k) = false → e.pc.toNat < e.entry.toNat + 256 →
    judge s0 (passEng s0 P k e.slot) .fetch (e.pc.toNat * 8) = .go pa → atHand s0 (.pass k e.slot) pa 8 = true →
    x = farWord s0 (.pass k e.slot) pa →
    decode x = some i → callableWord x = true →
    let s2 := { s0 with cur := .lane k }
    i.wf = true ∧ step s = match exec i s2 with
      | .next s' => .next (endTurn s2 s' x)
      | .fault f => .fault f
      | .refused q => .refused q) ∧
  (∀ (s : State) (i : Instr) (ch n : Nat) (r : List Turn), s.agenda = ⟨.event i, ch, n⟩ :: r →
    let s0 := beginTurn s ⟨.event i, ch, n⟩ r
    (takes s0 i = true → step s = exec i s0) ∧ (takes s0 i = false → step s = .next s0) ∧
    (takes s0 i = false ↔ asked i = true ∧ ∃ n, s0.boot = .stopped n))

/-- R88–R93: decoding what encoding gives is the instruction again: for every well-formed instruction that has a word, with
every field at every value its layout admits, and no bit of its word dropped. -/
def Obligations.DecodeEncodeAgree : Prop :=
  ∀ (i : Instr) (w : IWord), i.wf = true → encode i = some w → decode w = some i ∧ decodeBytes (bytesOfWord w) = some (i, [])

/-- R88, R89, R101, R106, R111, R118: words written out from the worked examples of spec/ decode to the instructions they
stand for, and a word whose opcode is reserved decodes to none. -/
def Obligations.WordsDecode : Prop :=
  decode 0x9402_C101_4180_1880 =
    some (.fadd ⟨true, 0, 0xB, 4, 5, 6, 0, 1, 2, 0, true, 0, 0⟩) ∧
  decode 0x2010_0231_01C1_1300 =
    some (.ld ⟨false, 4, 0, 8, 0xC4, 7, 4, 2, 1, 2, 0, 0⟩) ∧
  decode 0x8080_BFFF_FEC1_8004 =
    some (.bra ⟨true, 2, 0xFFFFFB, 6, 1⟩) ∧
  decode 0x4600_0208_0C08_0C18 =
    some (.pairedWord ⟨false, ⟨3, 0, 1, 4, 0⟩, ⟨3, 2, 3, 6, 0⟩⟩) ∧
  decode 0x2880_3233_33B4_1000 =
    some (.mxloop ⟨false, 0, 0, 0xC8, 0xCC, 0xCE, 0xD0, 0x400⟩) ∧
  decode 0x3504_0240_8101_8000 =
    some (.scopy ⟨false, 1, 0, 9, 2, 4, 6, 0⟩) ∧
  (∀ w : IWord, pairedBit w = false → reservedOpc (opcOf w).toNat = true → decode w = none)

/-- R3, R341: memory keeps its canonical form at every step: from any state whose memory is a sorted list without entries
that equal what an unlisted byte reads as, a step gives a state whose memory is one. -/
def Obligations.StepKeepsMemoryForm : Prop :=
  ∀ s s', Memory.wf s.mem = true → step s = .next s' → Memory.wf s'.mem = true

/-- R10, R18, R37, R41, R46, R392, R514, R520: what reset leaves, and how waves, tiles and FIFOs stand at their creation. The
module holds eight partitions without clusters, 400 cores that hold nothing and no team, its measurements are 0, BUD and STAT are 2,400 W and 400 W, memory lists nothing (log
entry 6 says what it reads as). A new wave has its first slices live at the entry with all lanes, one gang, no deferral, every
register 0 but p0; a new team has every mask bit set, every FIFO idle and every cell 0 in XF48; WAITTH is 4,096, SCHCFG
0x40_0000. -/
def Obligations.ResetState : Prop :=
  State.reset.mem = [] ∧ Memory.wf State.reset.mem = true ∧ State.reset.teams = [] ∧
  (∀ p, p < 8 → smGet? State.reset.parts p = some (Part.blank [])) ∧
  (∀ core, core < 400 → ∃ C, core? State.reset core = some C ∧ C.active = none ∧ C.shadow = none ∧ C.waitth = 4096 ∧ C.ccyc = 0 ∧ C.mbdrop = 0) ∧
  (∀ i, smGetD State.reset.mregs i 0 = 0) ∧ State.reset.budget = 2400 ∧ State.reset.reserve = 400 ∧
  (∀ (n : Nat) (entry : BitVec 53) (i : Nat), i < 8 → let W := Wave.fresh n entry
    (i < n → W.slice i = ⟨true, entry, 0xF, 0, [], 0, .free⟩) ∧ (n ≤ i → (W.slice i).live = false)) ∧
  (∀ (n : Nat) (entry : BitVec 53) (k : Nat), let W := Wave.fresh n entry
    smGetD W.v k 0 = 0 ∧ smGetD W.s k 0 = 0 ∧ W.pred 0 = BitVec.allOnes 32 ∧ (k ≠ 0 → W.pred k = 0) ∧ W.fpctl = 0 ∧
      W.wclock = 0 ∧ W.whandler = 0 ∧ W.cause = 0 ∧ W.intrap = false) ∧
  (∀ (serial tag launch part index core : Nat) (i : Nat),
    let T := Team.blank serial tag launch part index core
    (i < 4 → T.mp[i]? = some (BitVec.allOnes 128) ∧ T.fifos[i]? = some ⟨.idle, [], none⟩) ∧
      (i < 8 → T.np[i]? = some (BitVec.allOnes 128))) ∧
  (∀ k, smGetD Tile.fresh.cells k 0 = 0 ∧ Tile.fresh.mode = .xf48) ∧
  (∀ b, (Core.blank b).waitth = 4096) ∧ (∀ cs, (Part.blank cs).schcfg = 0x40_0000)
end

