-- ==== Sys2Proof/Laws/Codec.lean ====
section
/-! SUPPORT. What the layouts of the instruction words give back: every field of a packed word is the field that was packed, and the
opcode and the bit P stand where R88 and R89 put them. -/

namespace Sys2Proof.Laws

open Sys2Proof

/-- A field that lies in the left part of a concatenation. -/
theorem extract_append_left {m n : Nat} (x : BitVec m) (y : BitVec n) (s len : Nat) (h : n ≤ s) :
    (x ++ y).extractLsb' s len = x.extractLsb' (s - n) len := by
  ext i hi
  simp only [BitVec.getElem_extractLsb', BitVec.getLsbD_append]
  have h1 : ¬ s + i < n := by omega
  have h2 : s + i - n = s - n + i := by omega
  simp [h1, h2]

/-- A field that lies in the right part of a concatenation. -/
theorem extract_append_right {m n : Nat} (x : BitVec m) (y : BitVec n) (s len : Nat) (h : s + len ≤ n) :
    (x ++ y).extractLsb' s len = y.extractLsb' s len := by
  ext i hi
  simp only [BitVec.getElem_extractLsb', BitVec.getLsbD_append]
  have : s + i < n := by omega
  simp [this]

theorem bit_append_left {m n : Nat} (x : BitVec m) (y : BitVec n) (s : Nat) (h : n ≤ s) :
    (x ++ y).getLsbD s = x.getLsbD (s - n) := by
  simp [BitVec.getLsbD_append, Nat.not_lt.mpr h]

theorem bit_append_right {m n : Nat} (x : BitVec m) (y : BitVec n) (s : Nat) (h : s < n) :
    (x ++ y).getLsbD s = y.getLsbD s := by
  simp [BitVec.getLsbD_append, h]

theorem alu_unpack_pack (f : AluW) (o : BitVec 8) : AluW.unpack (f.pack o) = f := by
  cases f
  simp only [AluW.unpack, AluW.pack]
  simp (disch := omega) only [extract_append_left, extract_append_right, bit_append_left, bit_append_right]
  simp

theorem alu_opc (f : AluW) (o : BitVec 8) : (f.pack o).extractLsb' 54 4 = o.extractLsb' 0 4 ∧
    (f.pack o).extractLsb' 58 4 = o.extractLsb' 4 4 ∧ pairedBit (f.pack o) = false := by
  simp only [pairedBit, AluW.pack]
  simp (disch := omega) only [extract_append_left, extract_append_right, bit_append_left, bit_append_right]
  simp

theorem mem_unpack_pack (f : MemW) (o : BitVec 8) : MemW.unpack (f.pack o) = f := by
  cases f
  simp only [MemW.unpack, MemW.pack]
  simp (disch := omega) only [extract_append_left, extract_append_right, bit_append_left]
  simp

theorem mem_opc (f : MemW) (o : BitVec 8) : (f.pack o).extractLsb' 54 4 = o.extractLsb' 0 4 ∧
    (f.pack o).extractLsb' 58 4 = o.extractLsb' 4 4 ∧ pairedBit (f.pack o) = false := by
  simp only [pairedBit, MemW.pack]
  simp (disch := omega) only [extract_append_left, extract_append_right, bit_append_left, bit_append_right]
  simp

theorem bra_unpack_pack (f : BraW) (o : BitVec 8) : BraW.unpack (f.pack o) = f := by
  cases f
  simp only [BraW.unpack, BraW.pack]
  simp (disch := omega) only [extract_append_left, extract_append_right, bit_append_left]
  simp

theorem bra_opc (f : BraW) (o : BitVec 8) : (f.pack o).extractLsb' 54 4 = o.extractLsb' 0 4 ∧
    (f.pack o).extractLsb' 58 4 = o.extractLsb' 4 4 ∧ pairedBit (f.pack o) = false := by
  simp only [pairedBit, BraW.pack]
  simp (disch := omega) only [extract_append_left, extract_append_right, bit_append_left, bit_append_right]
  simp

theorem brx_unpack_pack (f : BrxW) (o : BitVec 8) : BrxW.unpack (f.pack o) = f := by
  cases f
  simp only [BrxW.unpack, BrxW.pack]
  simp (disch := omega) only [extract_append_left, extract_append_right, bit_append_left]
  simp

theorem brx_opc (f : BrxW) (o : BitVec 8) : (f.pack o).extractLsb' 54 4 = o.extractLsb' 0 4 ∧
    (f.pack o).extractLsb' 58 4 = o.extractLsb' 4 4 ∧ pairedBit (f.pack o) = false := by
  simp only [pairedBit, BrxW.pack]
  simp (disch := omega) only [extract_append_left, extract_append_right, bit_append_left, bit_append_right]
  simp

theorem call_unpack_pack (f : CallW) (o : BitVec 8) : CallW.unpack (f.pack o) = f := by
  cases f
  simp only [CallW.unpack, CallW.pack]
  simp (disch := omega) only [extract_append_left, extract_append_right, bit_append_left]
  simp

theorem call_opc (f : CallW) (o : BitVec 8) : (f.pack o).extractLsb' 54 4 = o.extractLsb' 0 4 ∧
    (f.pack o).extractLsb' 58 4 = o.extractLsb' 4 4 ∧ pairedBit (f.pack o) = false := by
  simp only [pairedBit, CallW.pack]
  simp (disch := omega) only [extract_append_left, extract_append_right, bit_append_left, bit_append_right]
  simp

theorem callx_unpack_pack (f : CallxW) (o : BitVec 8) : CallxW.unpack (f.pack o) = f := by
  cases f
  simp only [CallxW.unpack, CallxW.pack]
  simp (disch := omega) only [extract_append_left, extract_append_right, bit_append_left]
  simp

theorem callx_opc (f : CallxW) (o : BitVec 8) : (f.pack o).extractLsb' 54 4 = o.extractLsb' 0 4 ∧
    (f.pack o).extractLsb' 58 4 = o.extractLsb' 4 4 ∧ pairedBit (f.pack o) = false := by
  simp only [pairedBit, CallxW.pack]
  simp (disch := omega) only [extract_append_left, extract_append_right, bit_append_left, bit_append_right]
  simp

theorem csr_unpack_pack (f : CsrW) (o : BitVec 8) : CsrW.unpack (f.pack o) = f := by
  cases f
  simp only [CsrW.unpack, CsrW.pack]
  simp (disch := omega) only [extract_append_left, extract_append_right, bit_append_left]
  simp

theorem csr_opc (f : CsrW) (o : BitVec 8) : (f.pack o).extractLsb' 54 4 = o.extractLsb' 0 4 ∧
    (f.pack o).extractLsb' 58 4 = o.extractLsb' 4 4 ∧ pairedBit (f.pack o) = false := by
  simp only [pairedBit, CsrW.pack]
  simp (disch := omega) only [extract_append_left, extract_append_right, bit_append_left, bit_append_right]
  simp

theorem sys_unpack_pack (f : SysW) (o : BitVec 8) : SysW.unpack (f.pack o) = f := by
  cases f
  simp only [SysW.unpack, SysW.pack]
  simp (disch := omega) only [extract_append_left, extract_append_right, bit_append_left]
  simp

theorem sys_opc (f : SysW) (o : BitVec 8) : (f.pack o).extractLsb' 54 4 = o.extractLsb' 0 4 ∧
    (f.pack o).extractLsb' 58 4 = o.extractLsb' 4 4 ∧ pairedBit (f.pack o) = false := by
  simp only [pairedBit, SysW.pack]
  simp (disch := omega) only [extract_append_left, extract_append_right, bit_append_left, bit_append_right]
  simp

theorem imm_unpack_pack (f : ImmW) (o : BitVec 8) : ImmW.unpack (f.pack o) = f := by
  cases f
  simp only [ImmW.unpack, ImmW.pack]
  simp (disch := omega) only [extract_append_left, extract_append_right, bit_append_left]
  simp

theorem imm_opc (f : ImmW) (o : BitVec 8) : (f.pack o).extractLsb' 54 4 = o.extractLsb' 0 4 ∧
    (f.pack o).extractLsb' 58 4 = o.extractLsb' 4 4 ∧ pairedBit (f.pack o) = false := by
  simp only [pairedBit, ImmW.pack]
  simp (disch := omega) only [extract_append_left, extract_append_right, bit_append_left, bit_append_right]
  simp

theorem none_unpack_pack (f : NoneW) (o : BitVec 8) : NoneW.unpack (f.pack o) = f := by
  cases f
  simp only [NoneW.unpack, NoneW.pack]
  simp (disch := omega) only [extract_append_left, extract_append_right, bit_append_left]
  simp

theorem none_opc (f : NoneW) (o : BitVec 8) : (f.pack o).extractLsb' 54 4 = o.extractLsb' 0 4 ∧
    (f.pack o).extractLsb' 58 4 = o.extractLsb' 4 4 ∧ pairedBit (f.pack o) = false := by
  simp only [pairedBit, NoneW.pack]
  simp (disch := omega) only [extract_append_left, extract_append_right, bit_append_left, bit_append_right]
  simp

theorem mem_var (f : MemW) (o : BitVec 8) : (f.pack o).extractLsb' 50 4 = f.var :=
  congrArg MemW.var (mem_unpack_pack f o)

theorem sys_var (f : SysW) (o : BitVec 8) : (f.pack o).extractLsb' 50 4 = f.var :=
  congrArg SysW.var (sys_unpack_pack f o)

theorem pair_unpack_pack (f : PairW) : PairW.unpack f.pack = f := by
  obtain ⟨b, ⟨r0, d0, a0, b0, t0⟩, ⟨r1, d1, a1, b1, t1⟩⟩ := f
  simp only [PairW.unpack, Half.unpack, PairW.pack, Half.pack]
  simp (disch := omega) only [extract_append_left, extract_append_right, bit_append_left]
  simp

theorem pair_bit (f : PairW) : pairedBit f.pack = true := by
  simp only [pairedBit, PairW.pack, Half.pack]
  simp (disch := omega) only [bit_append_left, bit_append_right]
  simp

end Sys2Proof.Laws
end

