-- ==== Sys2Proof/Laws/State.lean ====
section
/-! SUPPORT. Reading a field after an update of State, of a team, of a wave and of a context: one lemma for each field an update leaves
alone, and what it makes of the field it changes. -/

namespace Sys2Proof.Machine

/-! setTeam -/

@[simp] theorem setTeam_cur (s : State) (t : Nat) (T : Team) : (setTeam s t T).cur = s.cur := rfl
@[simp] theorem setTeam_agenda (s : State) (t : Nat) (T : Team) : (setTeam s t T).agenda = s.agenda := rfl
@[simp] theorem setTeam_choice (s : State) (t : Nat) (T : Team) : (setTeam s t T).choice = s.choice := rfl
@[simp] theorem setTeam_fresh (s : State) (t : Nat) (T : Team) : (setTeam s t T).fresh = s.fresh := rfl
@[simp] theorem setTeam_now (s : State) (t : Nat) (T : Team) : (setTeam s t T).now = s.now := rfl
@[simp] theorem setTeam_moduleNo (s : State) (t : Nat) (T : Team) : (setTeam s t T).moduleNo = s.moduleNo := rfl
@[simp] theorem setTeam_boot (s : State) (t : Nat) (T : Team) : (setTeam s t T).boot = s.boot := rfl
@[simp] theorem setTeam_mem (s : State) (t : Nat) (T : Team) : (setTeam s t T).mem = s.mem := rfl
@[simp] theorem setTeam_memPsn (s : State) (t : Nat) (T : Team) : (setTeam s t T).memPsn = s.memPsn := rfl
@[simp] theorem setTeam_teams (s : State) (t : Nat) (T : Team) : (setTeam s t T).teams = smSet s.teams t T := rfl
@[simp] theorem setTeam_cores (s : State) (t : Nat) (T : Team) : (setTeam s t T).cores = s.cores := rfl
@[simp] theorem setTeam_clusters (s : State) (t : Nat) (T : Team) : (setTeam s t T).clusters = s.clusters := rfl
@[simp] theorem setTeam_ctxs (s : State) (t : Nat) (T : Team) : (setTeam s t T).ctxs = s.ctxs := rfl
@[simp] theorem setTeam_launches (s : State) (t : Nat) (T : Team) : (setTeam s t T).launches = s.launches := rfl
@[simp] theorem setTeam_nextLaunch (s : State) (t : Nat) (T : Team) : (setTeam s t T).nextLaunch = s.nextLaunch := rfl
@[simp] theorem setTeam_parts (s : State) (t : Nat) (T : Team) : (setTeam s t T).parts = s.parts := rfl
@[simp] theorem setTeam_asids (s : State) (t : Nat) (T : Team) : (setTeam s t T).asids = s.asids := rfl
@[simp] theorem setTeam_reqs (s : State) (t : Nat) (T : Team) : (setTeam s t T).reqs = s.reqs := rfl
@[simp] theorem setTeam_places (s : State) (t : Nat) (T : Team) : (setTeam s t T).places = s.places := rfl
@[simp] theorem setTeam_served (s : State) (t : Nat) (T : Team) : (setTeam s t T).served = s.served := rfl
@[simp] theorem setTeam_dup (s : State) (t : Nat) (T : Team) : (setTeam s t T).dup = s.dup := rfl
@[simp] theorem setTeam_mails (s : State) (t : Nat) (T : Team) : (setTeam s t T).mails = s.mails := rfl
@[simp] theorem setTeam_ctl (s : State) (t : Nat) (T : Team) : (setTeam s t T).ctl = s.ctl := rfl
@[simp] theorem setTeam_halos (s : State) (t : Nat) (T : Team) : (setTeam s t T).halos = s.halos := rfl
@[simp] theorem setTeam_far (s : State) (t : Nat) (T : Team) : (setTeam s t T).far = s.far := rfl
@[simp] theorem setTeam_aged (s : State) (t : Nat) (T : Team) : (setTeam s t T).aged = s.aged := rfl
@[simp] theorem setTeam_caltusQ (s : State) (t : Nat) (T : Team) : (setTeam s t T).caltusQ = s.caltusQ := rfl
@[simp] theorem setTeam_caltusAt (s : State) (t : Nat) (T : Team) : (setTeam s t T).caltusAt = s.caltusAt := rfl
@[simp] theorem setTeam_mailbox (s : State) (t : Nat) (T : Team) : (setTeam s t T).mailbox = s.mailbox := rfl
@[simp] theorem setTeam_bootWhy (s : State) (t : Nat) (T : Team) : (setTeam s t T).bootWhy = s.bootWhy := rfl
@[simp] theorem setTeam_covered (s : State) (t : Nat) (T : Team) : (setTeam s t T).covered = s.covered := rfl
@[simp] theorem setTeam_coveredPsn (s : State) (t : Nat) (T : Team) : (setTeam s t T).coveredPsn = s.coveredPsn := rfl
@[simp] theorem setTeam_jnet (s : State) (t : Nat) (T : Team) : (setTeam s t T).jnet = s.jnet := rfl
@[simp] theorem setTeam_held (s : State) (t : Nat) (T : Team) : (setTeam s t T).held = s.held := rfl
@[simp] theorem setTeam_heldRed (s : State) (t : Nat) (T : Team) : (setTeam s t T).heldRed = s.heldRed := rfl
@[simp] theorem setTeam_gateways (s : State) (t : Nat) (T : Team) : (setTeam s t T).gateways = s.gateways := rfl
@[simp] theorem setTeam_ports (s : State) (t : Nat) (T : Team) : (setTeam s t T).ports = s.ports := rfl
@[simp] theorem setTeam_portRetries (s : State) (t : Nat) (T : Team) : (setTeam s t T).portRetries = s.portRetries := rfl
@[simp] theorem setTeam_fabIn (s : State) (t : Nat) (T : Team) : (setTeam s t T).fabIn = s.fabIn := rfl
@[simp] theorem setTeam_fabSent (s : State) (t : Nat) (T : Team) : (setTeam s t T).fabSent = s.fabSent := rfl
@[simp] theorem setTeam_fabRecv (s : State) (t : Nat) (T : Team) : (setTeam s t T).fabRecv = s.fabRecv := rfl
@[simp] theorem setTeam_fabNext (s : State) (t : Nat) (T : Team) : (setTeam s t T).fabNext = s.fabNext := rfl
@[simp] theorem setTeam_hbm (s : State) (t : Nat) (T : Team) : (setTeam s t T).hbm = s.hbm := rfl
@[simp] theorem setTeam_regions (s : State) (t : Nat) (T : Team) : (setTeam s t T).regions = s.regions := rfl
@[simp] theorem setTeam_qps (s : State) (t : Nat) (T : Team) : (setTeam s t T).qps = s.qps := rfl
@[simp] theorem setTeam_windows (s : State) (t : Nat) (T : Team) : (setTeam s t T).windows = s.windows := rfl
@[simp] theorem setTeam_csrs (s : State) (t : Nat) (T : Team) : (setTeam s t T).csrs = s.csrs := rfl
@[simp] theorem setTeam_keys (s : State) (t : Nat) (T : Team) : (setTeam s t T).keys = s.keys := rfl
@[simp] theorem setTeam_keydat (s : State) (t : Nat) (T : Team) : (setTeam s t T).keydat = s.keydat := rfl
@[simp] theorem setTeam_mregs (s : State) (t : Nat) (T : Team) : (setTeam s t T).mregs = s.mregs := rfl
@[simp] theorem setTeam_fuses (s : State) (t : Nat) (T : Team) : (setTeam s t T).fuses = s.fuses := rfl
@[simp] theorem setTeam_svcVersion (s : State) (t : Nat) (T : Team) : (setTeam s t T).svcVersion = s.svcVersion := rfl
@[simp] theorem setTeam_sideSeq (s : State) (t : Nat) (T : Team) : (setTeam s t T).sideSeq = s.sideSeq := rfl
@[simp] theorem setTeam_denied (s : State) (t : Nat) (T : Team) : (setTeam s t T).denied = s.denied := rfl
@[simp] theorem setTeam_budget (s : State) (t : Nat) (T : Team) : (setTeam s t T).budget = s.budget := rfl
@[simp] theorem setTeam_reserve (s : State) (t : Nat) (T : Team) : (setTeam s t T).reserve = s.reserve := rfl
@[simp] theorem setTeam_energy (s : State) (t : Nat) (T : Team) : (setTeam s t T).energy = s.energy := rfl
@[simp] theorem setTeam_outbox (s : State) (t : Nat) (T : Team) : (setTeam s t T).outbox = s.outbox := rfl

/-! modTeam -/

@[simp] theorem modTeam_cur (s : State) (t : Nat) (f : Team → Team) : (modTeam s t f).cur = s.cur := rfl
@[simp] theorem modTeam_agenda (s : State) (t : Nat) (f : Team → Team) : (modTeam s t f).agenda = s.agenda := rfl
@[simp] theorem modTeam_choice (s : State) (t : Nat) (f : Team → Team) : (modTeam s t f).choice = s.choice := rfl
@[simp] theorem modTeam_fresh (s : State) (t : Nat) (f : Team → Team) : (modTeam s t f).fresh = s.fresh := rfl
@[simp] theorem modTeam_now (s : State) (t : Nat) (f : Team → Team) : (modTeam s t f).now = s.now := rfl
@[simp] theorem modTeam_moduleNo (s : State) (t : Nat) (f : Team → Team) : (modTeam s t f).moduleNo = s.moduleNo := rfl
@[simp] theorem modTeam_boot (s : State) (t : Nat) (f : Team → Team) : (modTeam s t f).boot = s.boot := rfl
@[simp] theorem modTeam_mem (s : State) (t : Nat) (f : Team → Team) : (modTeam s t f).mem = s.mem := rfl
@[simp] theorem modTeam_memPsn (s : State) (t : Nat) (f : Team → Team) : (modTeam s t f).memPsn = s.memPsn := rfl
@[simp] theorem modTeam_teams (s : State) (t : Nat) (f : Team → Team) : (modTeam s t f).teams = smMod s.teams t f := rfl
@[simp] theorem modTeam_cores (s : State) (t : Nat) (f : Team → Team) : (modTeam s t f).cores = s.cores := rfl
@[simp] theorem modTeam_clusters (s : State) (t : Nat) (f : Team → Team) : (modTeam s t f).clusters = s.clusters := rfl
@[simp] theorem modTeam_ctxs (s : State) (t : Nat) (f : Team → Team) : (modTeam s t f).ctxs = s.ctxs := rfl
@[simp] theorem modTeam_launches (s : State) (t : Nat) (f : Team → Team) : (modTeam s t f).launches = s.launches := rfl
@[simp] theorem modTeam_nextLaunch (s : State) (t : Nat) (f : Team → Team) : (modTeam s t f).nextLaunch = s.nextLaunch := rfl
@[simp] theorem modTeam_parts (s : State) (t : Nat) (f : Team → Team) : (modTeam s t f).parts = s.parts := rfl
@[simp] theorem modTeam_asids (s : State) (t : Nat) (f : Team → Team) : (modTeam s t f).asids = s.asids := rfl
@[simp] theorem modTeam_reqs (s : State) (t : Nat) (f : Team → Team) : (modTeam s t f).reqs = s.reqs := rfl
@[simp] theorem modTeam_places (s : State) (t : Nat) (f : Team → Team) : (modTeam s t f).places = s.places := rfl
@[simp] theorem modTeam_served (s : State) (t : Nat) (f : Team → Team) : (modTeam s t f).served = s.served := rfl
@[simp] theorem modTeam_dup (s : State) (t : Nat) (f : Team → Team) : (modTeam s t f).dup = s.dup := rfl
@[simp] theorem modTeam_mails (s : State) (t : Nat) (f : Team → Team) : (modTeam s t f).mails = s.mails := rfl
@[simp] theorem modTeam_ctl (s : State) (t : Nat) (f : Team → Team) : (modTeam s t f).ctl = s.ctl := rfl
@[simp] theorem modTeam_halos (s : State) (t : Nat) (f : Team → Team) : (modTeam s t f).halos = s.halos := rfl
@[simp] theorem modTeam_far (s : State) (t : Nat) (f : Team → Team) : (modTeam s t f).far = s.far := rfl
@[simp] theorem modTeam_aged (s : State) (t : Nat) (f : Team → Team) : (modTeam s t f).aged = s.aged := rfl
@[simp] theorem modTeam_caltusQ (s : State) (t : Nat) (f : Team → Team) : (modTeam s t f).caltusQ = s.caltusQ := rfl
@[simp] theorem modTeam_caltusAt (s : State) (t : Nat) (f : Team → Team) : (modTeam s t f).caltusAt = s.caltusAt := rfl
@[simp] theorem modTeam_mailbox (s : State) (t : Nat) (f : Team → Team) : (modTeam s t f).mailbox = s.mailbox := rfl
@[simp] theorem modTeam_bootWhy (s : State) (t : Nat) (f : Team → Team) : (modTeam s t f).bootWhy = s.bootWhy := rfl
@[simp] theorem modTeam_covered (s : State) (t : Nat) (f : Team → Team) : (modTeam s t f).covered = s.covered := rfl
@[simp] theorem modTeam_coveredPsn (s : State) (t : Nat) (f : Team → Team) : (modTeam s t f).coveredPsn = s.coveredPsn := rfl
@[simp] theorem modTeam_jnet (s : State) (t : Nat) (f : Team → Team) : (modTeam s t f).jnet = s.jnet := rfl
@[simp] theorem modTeam_held (s : State) (t : Nat) (f : Team → Team) : (modTeam s t f).held = s.held := rfl
@[simp] theorem modTeam_heldRed (s : State) (t : Nat) (f : Team → Team) : (modTeam s t f).heldRed = s.heldRed := rfl
@[simp] theorem modTeam_gateways (s : State) (t : Nat) (f : Team → Team) : (modTeam s t f).gateways = s.gateways := rfl
@[simp] theorem modTeam_ports (s : State) (t : Nat) (f : Team → Team) : (modTeam s t f).ports = s.ports := rfl
@[simp] theorem modTeam_portRetries (s : State) (t : Nat) (f : Team → Team) : (modTeam s t f).portRetries = s.portRetries := rfl
@[simp] theorem modTeam_fabIn (s : State) (t : Nat) (f : Team → Team) : (modTeam s t f).fabIn = s.fabIn := rfl
@[simp] theorem modTeam_fabSent (s : State) (t : Nat) (f : Team → Team) : (modTeam s t f).fabSent = s.fabSent := rfl
@[simp] theorem modTeam_fabRecv (s : State) (t : Nat) (f : Team → Team) : (modTeam s t f).fabRecv = s.fabRecv := rfl
@[simp] theorem modTeam_fabNext (s : State) (t : Nat) (f : Team → Team) : (modTeam s t f).fabNext = s.fabNext := rfl
@[simp] theorem modTeam_hbm (s : State) (t : Nat) (f : Team → Team) : (modTeam s t f).hbm = s.hbm := rfl
@[simp] theorem modTeam_regions (s : State) (t : Nat) (f : Team → Team) : (modTeam s t f).regions = s.regions := rfl
@[simp] theorem modTeam_qps (s : State) (t : Nat) (f : Team → Team) : (modTeam s t f).qps = s.qps := rfl
@[simp] theorem modTeam_windows (s : State) (t : Nat) (f : Team → Team) : (modTeam s t f).windows = s.windows := rfl
@[simp] theorem modTeam_csrs (s : State) (t : Nat) (f : Team → Team) : (modTeam s t f).csrs = s.csrs := rfl
@[simp] theorem modTeam_keys (s : State) (t : Nat) (f : Team → Team) : (modTeam s t f).keys = s.keys := rfl
@[simp] theorem modTeam_keydat (s : State) (t : Nat) (f : Team → Team) : (modTeam s t f).keydat = s.keydat := rfl
@[simp] theorem modTeam_mregs (s : State) (t : Nat) (f : Team → Team) : (modTeam s t f).mregs = s.mregs := rfl
@[simp] theorem modTeam_fuses (s : State) (t : Nat) (f : Team → Team) : (modTeam s t f).fuses = s.fuses := rfl
@[simp] theorem modTeam_svcVersion (s : State) (t : Nat) (f : Team → Team) : (modTeam s t f).svcVersion = s.svcVersion := rfl
@[simp] theorem modTeam_sideSeq (s : State) (t : Nat) (f : Team → Team) : (modTeam s t f).sideSeq = s.sideSeq := rfl
@[simp] theorem modTeam_denied (s : State) (t : Nat) (f : Team → Team) : (modTeam s t f).denied = s.denied := rfl
@[simp] theorem modTeam_budget (s : State) (t : Nat) (f : Team → Team) : (modTeam s t f).budget = s.budget := rfl
@[simp] theorem modTeam_reserve (s : State) (t : Nat) (f : Team → Team) : (modTeam s t f).reserve = s.reserve := rfl
@[simp] theorem modTeam_energy (s : State) (t : Nat) (f : Team → Team) : (modTeam s t f).energy = s.energy := rfl
@[simp] theorem modTeam_outbox (s : State) (t : Nat) (f : Team → Team) : (modTeam s t f).outbox = s.outbox := rfl

/-! modWave -/

@[simp] theorem modWave_cur (s : State) (t w : Nat) (f : Wave → Wave) : (modWave s t w f).cur = s.cur := rfl
@[simp] theorem modWave_agenda (s : State) (t w : Nat) (f : Wave → Wave) : (modWave s t w f).agenda = s.agenda := rfl
@[simp] theorem modWave_choice (s : State) (t w : Nat) (f : Wave → Wave) : (modWave s t w f).choice = s.choice := rfl
@[simp] theorem modWave_fresh (s : State) (t w : Nat) (f : Wave → Wave) : (modWave s t w f).fresh = s.fresh := rfl
@[simp] theorem modWave_now (s : State) (t w : Nat) (f : Wave → Wave) : (modWave s t w f).now = s.now := rfl
@[simp] theorem modWave_moduleNo (s : State) (t w : Nat) (f : Wave → Wave) : (modWave s t w f).moduleNo = s.moduleNo := rfl
@[simp] theorem modWave_boot (s : State) (t w : Nat) (f : Wave → Wave) : (modWave s t w f).boot = s.boot := rfl
@[simp] theorem modWave_mem (s : State) (t w : Nat) (f : Wave → Wave) : (modWave s t w f).mem = s.mem := rfl
@[simp] theorem modWave_memPsn (s : State) (t w : Nat) (f : Wave → Wave) : (modWave s t w f).memPsn = s.memPsn := rfl
@[simp] theorem modWave_teams (s : State) (t w : Nat) (f : Wave → Wave) : (modWave s t w f).teams = smMod s.teams t fun T => { T with waves := modAt T.waves w f } := rfl
@[simp] theorem modWave_cores (s : State) (t w : Nat) (f : Wave → Wave) : (modWave s t w f).cores = s.cores := rfl
@[simp] theorem modWave_clusters (s : State) (t w : Nat) (f : Wave → Wave) : (modWave s t w f).clusters = s.clusters := rfl
@[simp] theorem modWave_ctxs (s : State) (t w : Nat) (f : Wave → Wave) : (modWave s t w f).ctxs = s.ctxs := rfl
@[simp] theorem modWave_launches (s : State) (t w : Nat) (f : Wave → Wave) : (modWave s t w f).launches = s.launches := rfl
@[simp] theorem modWave_nextLaunch (s : State) (t w : Nat) (f : Wave → Wave) : (modWave s t w f).nextLaunch = s.nextLaunch := rfl
@[simp] theorem modWave_parts (s : State) (t w : Nat) (f : Wave → Wave) : (modWave s t w f).parts = s.parts := rfl
@[simp] theorem modWave_asids (s : State) (t w : Nat) (f : Wave → Wave) : (modWave s t w f).asids = s.asids := rfl
@[simp] theorem modWave_reqs (s : State) (t w : Nat) (f : Wave → Wave) : (modWave s t w f).reqs = s.reqs := rfl
@[simp] theorem modWave_places (s : State) (t w : Nat) (f : Wave → Wave) : (modWave s t w f).places = s.places := rfl
@[simp] theorem modWave_served (s : State) (t w : Nat) (f : Wave → Wave) : (modWave s t w f).served = s.served := rfl
@[simp] theorem modWave_dup (s : State) (t w : Nat) (f : Wave → Wave) : (modWave s t w f).dup = s.dup := rfl
@[simp] theorem modWave_mails (s : State) (t w : Nat) (f : Wave → Wave) : (modWave s t w f).mails = s.mails := rfl
@[simp] theorem modWave_ctl (s : State) (t w : Nat) (f : Wave → Wave) : (modWave s t w f).ctl = s.ctl := rfl
@[simp] theorem modWave_halos (s : State) (t w : Nat) (f : Wave → Wave) : (modWave s t w f).halos = s.halos := rfl
@[simp] theorem modWave_far (s : State) (t w : Nat) (f : Wave → Wave) : (modWave s t w f).far = s.far := rfl
@[simp] theorem modWave_aged (s : State) (t w : Nat) (f : Wave → Wave) : (modWave s t w f).aged = s.aged := rfl
@[simp] theorem modWave_caltusQ (s : State) (t w : Nat) (f : Wave → Wave) : (modWave s t w f).caltusQ = s.caltusQ := rfl
@[simp] theorem modWave_caltusAt (s : State) (t w : Nat) (f : Wave → Wave) : (modWave s t w f).caltusAt = s.caltusAt := rfl
@[simp] theorem modWave_mailbox (s : State) (t w : Nat) (f : Wave → Wave) : (modWave s t w f).mailbox = s.mailbox := rfl
@[simp] theorem modWave_bootWhy (s : State) (t w : Nat) (f : Wave → Wave) : (modWave s t w f).bootWhy = s.bootWhy := rfl
@[simp] theorem modWave_covered (s : State) (t w : Nat) (f : Wave → Wave) : (modWave s t w f).covered = s.covered := rfl
@[simp] theorem modWave_coveredPsn (s : State) (t w : Nat) (f : Wave → Wave) : (modWave s t w f).coveredPsn = s.coveredPsn := rfl
@[simp] theorem modWave_jnet (s : State) (t w : Nat) (f : Wave → Wave) : (modWave s t w f).jnet = s.jnet := rfl
@[simp] theorem modWave_held (s : State) (t w : Nat) (f : Wave → Wave) : (modWave s t w f).held = s.held := rfl
@[simp] theorem modWave_heldRed (s : State) (t w : Nat) (f : Wave → Wave) : (modWave s t w f).heldRed = s.heldRed := rfl
@[simp] theorem modWave_gateways (s : State) (t w : Nat) (f : Wave → Wave) : (modWave s t w f).gateways = s.gateways := rfl
@[simp] theorem modWave_ports (s : State) (t w : Nat) (f : Wave → Wave) : (modWave s t w f).ports = s.ports := rfl
@[simp] theorem modWave_portRetries (s : State) (t w : Nat) (f : Wave → Wave) : (modWave s t w f).portRetries = s.portRetries := rfl
@[simp] theorem modWave_fabIn (s : State) (t w : Nat) (f : Wave → Wave) : (modWave s t w f).fabIn = s.fabIn := rfl
@[simp] theorem modWave_fabSent (s : State) (t w : Nat) (f : Wave → Wave) : (modWave s t w f).fabSent = s.fabSent := rfl
@[simp] theorem modWave_fabRecv (s : State) (t w : Nat) (f : Wave → Wave) : (modWave s t w f).fabRecv = s.fabRecv := rfl
@[simp] theorem modWave_fabNext (s : State) (t w : Nat) (f : Wave → Wave) : (modWave s t w f).fabNext = s.fabNext := rfl
@[simp] theorem modWave_hbm (s : State) (t w : Nat) (f : Wave → Wave) : (modWave s t w f).hbm = s.hbm := rfl
@[simp] theorem modWave_regions (s : State) (t w : Nat) (f : Wave → Wave) : (modWave s t w f).regions = s.regions := rfl
@[simp] theorem modWave_qps (s : State) (t w : Nat) (f : Wave → Wave) : (modWave s t w f).qps = s.qps := rfl
@[simp] theorem modWave_windows (s : State) (t w : Nat) (f : Wave → Wave) : (modWave s t w f).windows = s.windows := rfl
@[simp] theorem modWave_csrs (s : State) (t w : Nat) (f : Wave → Wave) : (modWave s t w f).csrs = s.csrs := rfl
@[simp] theorem modWave_keys (s : State) (t w : Nat) (f : Wave → Wave) : (modWave s t w f).keys = s.keys := rfl
@[simp] theorem modWave_keydat (s : State) (t w : Nat) (f : Wave → Wave) : (modWave s t w f).keydat = s.keydat := rfl
@[simp] theorem modWave_mregs (s : State) (t w : Nat) (f : Wave → Wave) : (modWave s t w f).mregs = s.mregs := rfl
@[simp] theorem modWave_fuses (s : State) (t w : Nat) (f : Wave → Wave) : (modWave s t w f).fuses = s.fuses := rfl
@[simp] theorem modWave_svcVersion (s : State) (t w : Nat) (f : Wave → Wave) : (modWave s t w f).svcVersion = s.svcVersion := rfl
@[simp] theorem modWave_sideSeq (s : State) (t w : Nat) (f : Wave → Wave) : (modWave s t w f).sideSeq = s.sideSeq := rfl
@[simp] theorem modWave_denied (s : State) (t w : Nat) (f : Wave → Wave) : (modWave s t w f).denied = s.denied := rfl
@[simp] theorem modWave_budget (s : State) (t w : Nat) (f : Wave → Wave) : (modWave s t w f).budget = s.budget := rfl
@[simp] theorem modWave_reserve (s : State) (t w : Nat) (f : Wave → Wave) : (modWave s t w f).reserve = s.reserve := rfl
@[simp] theorem modWave_energy (s : State) (t w : Nat) (f : Wave → Wave) : (modWave s t w f).energy = s.energy := rfl
@[simp] theorem modWave_outbox (s : State) (t w : Nat) (f : Wave → Wave) : (modWave s t w f).outbox = s.outbox := rfl

/-! modCore -/

@[simp] theorem modCore_cur (s : State) (k : Nat) (f : Core → Core) : (modCore s k f).cur = s.cur := rfl
@[simp] theorem modCore_agenda (s : State) (k : Nat) (f : Core → Core) : (modCore s k f).agenda = s.agenda := rfl
@[simp] theorem modCore_choice (s : State) (k : Nat) (f : Core → Core) : (modCore s k f).choice = s.choice := rfl
@[simp] theorem modCore_fresh (s : State) (k : Nat) (f : Core → Core) : (modCore s k f).fresh = s.fresh := rfl
@[simp] theorem modCore_now (s : State) (k : Nat) (f : Core → Core) : (modCore s k f).now = s.now := rfl
@[simp] theorem modCore_moduleNo (s : State) (k : Nat) (f : Core → Core) : (modCore s k f).moduleNo = s.moduleNo := rfl
@[simp] theorem modCore_boot (s : State) (k : Nat) (f : Core → Core) : (modCore s k f).boot = s.boot := rfl
@[simp] theorem modCore_mem (s : State) (k : Nat) (f : Core → Core) : (modCore s k f).mem = s.mem := rfl
@[simp] theorem modCore_memPsn (s : State) (k : Nat) (f : Core → Core) : (modCore s k f).memPsn = s.memPsn := rfl
@[simp] theorem modCore_teams (s : State) (k : Nat) (f : Core → Core) : (modCore s k f).teams = s.teams := rfl
@[simp] theorem modCore_cores (s : State) (k : Nat) (f : Core → Core) : (modCore s k f).cores = smMod s.cores k f := rfl
@[simp] theorem modCore_clusters (s : State) (k : Nat) (f : Core → Core) : (modCore s k f).clusters = s.clusters := rfl
@[simp] theorem modCore_ctxs (s : State) (k : Nat) (f : Core → Core) : (modCore s k f).ctxs = s.ctxs := rfl
@[simp] theorem modCore_launches (s : State) (k : Nat) (f : Core → Core) : (modCore s k f).launches = s.launches := rfl
@[simp] theorem modCore_nextLaunch (s : State) (k : Nat) (f : Core → Core) : (modCore s k f).nextLaunch = s.nextLaunch := rfl
@[simp] theorem modCore_parts (s : State) (k : Nat) (f : Core → Core) : (modCore s k f).parts = s.parts := rfl
@[simp] theorem modCore_asids (s : State) (k : Nat) (f : Core → Core) : (modCore s k f).asids = s.asids := rfl
@[simp] theorem modCore_reqs (s : State) (k : Nat) (f : Core → Core) : (modCore s k f).reqs = s.reqs := rfl
@[simp] theorem modCore_places (s : State) (k : Nat) (f : Core → Core) : (modCore s k f).places = s.places := rfl
@[simp] theorem modCore_served (s : State) (k : Nat) (f : Core → Core) : (modCore s k f).served = s.served := rfl
@[simp] theorem modCore_dup (s : State) (k : Nat) (f : Core → Core) : (modCore s k f).dup = s.dup := rfl
@[simp] theorem modCore_mails (s : State) (k : Nat) (f : Core → Core) : (modCore s k f).mails = s.mails := rfl
@[simp] theorem modCore_ctl (s : State) (k : Nat) (f : Core → Core) : (modCore s k f).ctl = s.ctl := rfl
@[simp] theorem modCore_halos (s : State) (k : Nat) (f : Core → Core) : (modCore s k f).halos = s.halos := rfl
@[simp] theorem modCore_far (s : State) (k : Nat) (f : Core → Core) : (modCore s k f).far = s.far := rfl
@[simp] theorem modCore_aged (s : State) (k : Nat) (f : Core → Core) : (modCore s k f).aged = s.aged := rfl
@[simp] theorem modCore_caltusQ (s : State) (k : Nat) (f : Core → Core) : (modCore s k f).caltusQ = s.caltusQ := rfl
@[simp] theorem modCore_caltusAt (s : State) (k : Nat) (f : Core → Core) : (modCore s k f).caltusAt = s.caltusAt := rfl
@[simp] theorem modCore_mailbox (s : State) (k : Nat) (f : Core → Core) : (modCore s k f).mailbox = s.mailbox := rfl
@[simp] theorem modCore_bootWhy (s : State) (k : Nat) (f : Core → Core) : (modCore s k f).bootWhy = s.bootWhy := rfl
@[simp] theorem modCore_covered (s : State) (k : Nat) (f : Core → Core) : (modCore s k f).covered = s.covered := rfl
@[simp] theorem modCore_coveredPsn (s : State) (k : Nat) (f : Core → Core) : (modCore s k f).coveredPsn = s.coveredPsn := rfl
@[simp] theorem modCore_jnet (s : State) (k : Nat) (f : Core → Core) : (modCore s k f).jnet = s.jnet := rfl
@[simp] theorem modCore_held (s : State) (k : Nat) (f : Core → Core) : (modCore s k f).held = s.held := rfl
@[simp] theorem modCore_heldRed (s : State) (k : Nat) (f : Core → Core) : (modCore s k f).heldRed = s.heldRed := rfl
@[simp] theorem modCore_gateways (s : State) (k : Nat) (f : Core → Core) : (modCore s k f).gateways = s.gateways := rfl
@[simp] theorem modCore_ports (s : State) (k : Nat) (f : Core → Core) : (modCore s k f).ports = s.ports := rfl
@[simp] theorem modCore_portRetries (s : State) (k : Nat) (f : Core → Core) : (modCore s k f).portRetries = s.portRetries := rfl
@[simp] theorem modCore_fabIn (s : State) (k : Nat) (f : Core → Core) : (modCore s k f).fabIn = s.fabIn := rfl
@[simp] theorem modCore_fabSent (s : State) (k : Nat) (f : Core → Core) : (modCore s k f).fabSent = s.fabSent := rfl
@[simp] theorem modCore_fabRecv (s : State) (k : Nat) (f : Core → Core) : (modCore s k f).fabRecv = s.fabRecv := rfl
@[simp] theorem modCore_fabNext (s : State) (k : Nat) (f : Core → Core) : (modCore s k f).fabNext = s.fabNext := rfl
@[simp] theorem modCore_hbm (s : State) (k : Nat) (f : Core → Core) : (modCore s k f).hbm = s.hbm := rfl
@[simp] theorem modCore_regions (s : State) (k : Nat) (f : Core → Core) : (modCore s k f).regions = s.regions := rfl
@[simp] theorem modCore_qps (s : State) (k : Nat) (f : Core → Core) : (modCore s k f).qps = s.qps := rfl
@[simp] theorem modCore_windows (s : State) (k : Nat) (f : Core → Core) : (modCore s k f).windows = s.windows := rfl
@[simp] theorem modCore_csrs (s : State) (k : Nat) (f : Core → Core) : (modCore s k f).csrs = s.csrs := rfl
@[simp] theorem modCore_keys (s : State) (k : Nat) (f : Core → Core) : (modCore s k f).keys = s.keys := rfl
@[simp] theorem modCore_keydat (s : State) (k : Nat) (f : Core → Core) : (modCore s k f).keydat = s.keydat := rfl
@[simp] theorem modCore_mregs (s : State) (k : Nat) (f : Core → Core) : (modCore s k f).mregs = s.mregs := rfl
@[simp] theorem modCore_fuses (s : State) (k : Nat) (f : Core → Core) : (modCore s k f).fuses = s.fuses := rfl
@[simp] theorem modCore_svcVersion (s : State) (k : Nat) (f : Core → Core) : (modCore s k f).svcVersion = s.svcVersion := rfl
@[simp] theorem modCore_sideSeq (s : State) (k : Nat) (f : Core → Core) : (modCore s k f).sideSeq = s.sideSeq := rfl
@[simp] theorem modCore_denied (s : State) (k : Nat) (f : Core → Core) : (modCore s k f).denied = s.denied := rfl
@[simp] theorem modCore_budget (s : State) (k : Nat) (f : Core → Core) : (modCore s k f).budget = s.budget := rfl
@[simp] theorem modCore_reserve (s : State) (k : Nat) (f : Core → Core) : (modCore s k f).reserve = s.reserve := rfl
@[simp] theorem modCore_energy (s : State) (k : Nat) (f : Core → Core) : (modCore s k f).energy = s.energy := rfl
@[simp] theorem modCore_outbox (s : State) (k : Nat) (f : Core → Core) : (modCore s k f).outbox = s.outbox := rfl

/-! modCluster -/

@[simp] theorem modCluster_cur (s : State) (k : Nat) (f : Cluster → Cluster) : (modCluster s k f).cur = s.cur := rfl
@[simp] theorem modCluster_agenda (s : State) (k : Nat) (f : Cluster → Cluster) : (modCluster s k f).agenda = s.agenda := rfl
@[simp] theorem modCluster_choice (s : State) (k : Nat) (f : Cluster → Cluster) : (modCluster s k f).choice = s.choice := rfl
@[simp] theorem modCluster_fresh (s : State) (k : Nat) (f : Cluster → Cluster) : (modCluster s k f).fresh = s.fresh := rfl
@[simp] theorem modCluster_now (s : State) (k : Nat) (f : Cluster → Cluster) : (modCluster s k f).now = s.now := rfl
@[simp] theorem modCluster_moduleNo (s : State) (k : Nat) (f : Cluster → Cluster) : (modCluster s k f).moduleNo = s.moduleNo := rfl
@[simp] theorem modCluster_boot (s : State) (k : Nat) (f : Cluster → Cluster) : (modCluster s k f).boot = s.boot := rfl
@[simp] theorem modCluster_mem (s : State) (k : Nat) (f : Cluster → Cluster) : (modCluster s k f).mem = s.mem := rfl
@[simp] theorem modCluster_memPsn (s : State) (k : Nat) (f : Cluster → Cluster) : (modCluster s k f).memPsn = s.memPsn := rfl
@[simp] theorem modCluster_teams (s : State) (k : Nat) (f : Cluster → Cluster) : (modCluster s k f).teams = s.teams := rfl
@[simp] theorem modCluster_cores (s : State) (k : Nat) (f : Cluster → Cluster) : (modCluster s k f).cores = s.cores := rfl
@[simp] theorem modCluster_clusters (s : State) (k : Nat) (f : Cluster → Cluster) : (modCluster s k f).clusters = smMod s.clusters k f := rfl
@[simp] theorem modCluster_ctxs (s : State) (k : Nat) (f : Cluster → Cluster) : (modCluster s k f).ctxs = s.ctxs := rfl
@[simp] theorem modCluster_launches (s : State) (k : Nat) (f : Cluster → Cluster) : (modCluster s k f).launches = s.launches := rfl
@[simp] theorem modCluster_nextLaunch (s : State) (k : Nat) (f : Cluster → Cluster) : (modCluster s k f).nextLaunch = s.nextLaunch := rfl
@[simp] theorem modCluster_parts (s : State) (k : Nat) (f : Cluster → Cluster) : (modCluster s k f).parts = s.parts := rfl
@[simp] theorem modCluster_asids (s : State) (k : Nat) (f : Cluster → Cluster) : (modCluster s k f).asids = s.asids := rfl
@[simp] theorem modCluster_reqs (s : State) (k : Nat) (f : Cluster → Cluster) : (modCluster s k f).reqs = s.reqs := rfl
@[simp] theorem modCluster_places (s : State) (k : Nat) (f : Cluster → Cluster) : (modCluster s k f).places = s.places := rfl
@[simp] theorem modCluster_served (s : State) (k : Nat) (f : Cluster → Cluster) : (modCluster s k f).served = s.served := rfl
@[simp] theorem modCluster_dup (s : State) (k : Nat) (f : Cluster → Cluster) : (modCluster s k f).dup = s.dup := rfl
@[simp] theorem modCluster_mails (s : State) (k : Nat) (f : Cluster → Cluster) : (modCluster s k f).mails = s.mails := rfl
@[simp] theorem modCluster_ctl (s : State) (k : Nat) (f : Cluster → Cluster) : (modCluster s k f).ctl = s.ctl := rfl
@[simp] theorem modCluster_halos (s : State) (k : Nat) (f : Cluster → Cluster) : (modCluster s k f).halos = s.halos := rfl
@[simp] theorem modCluster_far (s : State) (k : Nat) (f : Cluster → Cluster) : (modCluster s k f).far = s.far := rfl
@[simp] theorem modCluster_aged (s : State) (k : Nat) (f : Cluster → Cluster) : (modCluster s k f).aged = s.aged := rfl
@[simp] theorem modCluster_caltusQ (s : State) (k : Nat) (f : Cluster → Cluster) : (modCluster s k f).caltusQ = s.caltusQ := rfl
@[simp] theorem modCluster_caltusAt (s : State) (k : Nat) (f : Cluster → Cluster) : (modCluster s k f).caltusAt = s.caltusAt := rfl
@[simp] theorem modCluster_mailbox (s : State) (k : Nat) (f : Cluster → Cluster) : (modCluster s k f).mailbox = s.mailbox := rfl
@[simp] theorem modCluster_bootWhy (s : State) (k : Nat) (f : Cluster → Cluster) : (modCluster s k f).bootWhy = s.bootWhy := rfl
@[simp] theorem modCluster_covered (s : State) (k : Nat) (f : Cluster → Cluster) : (modCluster s k f).covered = s.covered := rfl
@[simp] theorem modCluster_coveredPsn (s : State) (k : Nat) (f : Cluster → Cluster) : (modCluster s k f).coveredPsn = s.coveredPsn := rfl
@[simp] theorem modCluster_jnet (s : State) (k : Nat) (f : Cluster → Cluster) : (modCluster s k f).jnet = s.jnet := rfl
@[simp] theorem modCluster_held (s : State) (k : Nat) (f : Cluster → Cluster) : (modCluster s k f).held = s.held := rfl
@[simp] theorem modCluster_heldRed (s : State) (k : Nat) (f : Cluster → Cluster) : (modCluster s k f).heldRed = s.heldRed := rfl
@[simp] theorem modCluster_gateways (s : State) (k : Nat) (f : Cluster → Cluster) : (modCluster s k f).gateways = s.gateways := rfl
@[simp] theorem modCluster_ports (s : State) (k : Nat) (f : Cluster → Cluster) : (modCluster s k f).ports = s.ports := rfl
@[simp] theorem modCluster_portRetries (s : State) (k : Nat) (f : Cluster → Cluster) : (modCluster s k f).portRetries = s.portRetries := rfl
@[simp] theorem modCluster_fabIn (s : State) (k : Nat) (f : Cluster → Cluster) : (modCluster s k f).fabIn = s.fabIn := rfl
@[simp] theorem modCluster_fabSent (s : State) (k : Nat) (f : Cluster → Cluster) : (modCluster s k f).fabSent = s.fabSent := rfl
@[simp] theorem modCluster_fabRecv (s : State) (k : Nat) (f : Cluster → Cluster) : (modCluster s k f).fabRecv = s.fabRecv := rfl
@[simp] theorem modCluster_fabNext (s : State) (k : Nat) (f : Cluster → Cluster) : (modCluster s k f).fabNext = s.fabNext := rfl
@[simp] theorem modCluster_hbm (s : State) (k : Nat) (f : Cluster → Cluster) : (modCluster s k f).hbm = s.hbm := rfl
@[simp] theorem modCluster_regions (s : State) (k : Nat) (f : Cluster → Cluster) : (modCluster s k f).regions = s.regions := rfl
@[simp] theorem modCluster_qps (s : State) (k : Nat) (f : Cluster → Cluster) : (modCluster s k f).qps = s.qps := rfl
@[simp] theorem modCluster_windows (s : State) (k : Nat) (f : Cluster → Cluster) : (modCluster s k f).windows = s.windows := rfl
@[simp] theorem modCluster_csrs (s : State) (k : Nat) (f : Cluster → Cluster) : (modCluster s k f).csrs = s.csrs := rfl
@[simp] theorem modCluster_keys (s : State) (k : Nat) (f : Cluster → Cluster) : (modCluster s k f).keys = s.keys := rfl
@[simp] theorem modCluster_keydat (s : State) (k : Nat) (f : Cluster → Cluster) : (modCluster s k f).keydat = s.keydat := rfl
@[simp] theorem modCluster_mregs (s : State) (k : Nat) (f : Cluster → Cluster) : (modCluster s k f).mregs = s.mregs := rfl
@[simp] theorem modCluster_fuses (s : State) (k : Nat) (f : Cluster → Cluster) : (modCluster s k f).fuses = s.fuses := rfl
@[simp] theorem modCluster_svcVersion (s : State) (k : Nat) (f : Cluster → Cluster) : (modCluster s k f).svcVersion = s.svcVersion := rfl
@[simp] theorem modCluster_sideSeq (s : State) (k : Nat) (f : Cluster → Cluster) : (modCluster s k f).sideSeq = s.sideSeq := rfl
@[simp] theorem modCluster_denied (s : State) (k : Nat) (f : Cluster → Cluster) : (modCluster s k f).denied = s.denied := rfl
@[simp] theorem modCluster_budget (s : State) (k : Nat) (f : Cluster → Cluster) : (modCluster s k f).budget = s.budget := rfl
@[simp] theorem modCluster_reserve (s : State) (k : Nat) (f : Cluster → Cluster) : (modCluster s k f).reserve = s.reserve := rfl
@[simp] theorem modCluster_energy (s : State) (k : Nat) (f : Cluster → Cluster) : (modCluster s k f).energy = s.energy := rfl
@[simp] theorem modCluster_outbox (s : State) (k : Nat) (f : Cluster → Cluster) : (modCluster s k f).outbox = s.outbox := rfl

/-! modCtx -/

@[simp] theorem modCtx_cur (s : State) (x : Nat) (f : Ctx → Ctx) : (modCtx s x f).cur = s.cur := rfl
@[simp] theorem modCtx_agenda (s : State) (x : Nat) (f : Ctx → Ctx) : (modCtx s x f).agenda = s.agenda := rfl
@[simp] theorem modCtx_choice (s : State) (x : Nat) (f : Ctx → Ctx) : (modCtx s x f).choice = s.choice := rfl
@[simp] theorem modCtx_fresh (s : State) (x : Nat) (f : Ctx → Ctx) : (modCtx s x f).fresh = s.fresh := rfl
@[simp] theorem modCtx_now (s : State) (x : Nat) (f : Ctx → Ctx) : (modCtx s x f).now = s.now := rfl
@[simp] theorem modCtx_moduleNo (s : State) (x : Nat) (f : Ctx → Ctx) : (modCtx s x f).moduleNo = s.moduleNo := rfl
@[simp] theorem modCtx_boot (s : State) (x : Nat) (f : Ctx → Ctx) : (modCtx s x f).boot = s.boot := rfl
@[simp] theorem modCtx_mem (s : State) (x : Nat) (f : Ctx → Ctx) : (modCtx s x f).mem = s.mem := rfl
@[simp] theorem modCtx_memPsn (s : State) (x : Nat) (f : Ctx → Ctx) : (modCtx s x f).memPsn = s.memPsn := rfl
@[simp] theorem modCtx_teams (s : State) (x : Nat) (f : Ctx → Ctx) : (modCtx s x f).teams = s.teams := rfl
@[simp] theorem modCtx_cores (s : State) (x : Nat) (f : Ctx → Ctx) : (modCtx s x f).cores = s.cores := rfl
@[simp] theorem modCtx_clusters (s : State) (x : Nat) (f : Ctx → Ctx) : (modCtx s x f).clusters = s.clusters := rfl
@[simp] theorem modCtx_ctxs (s : State) (x : Nat) (f : Ctx → Ctx) : (modCtx s x f).ctxs = smMod s.ctxs x f := rfl
@[simp] theorem modCtx_launches (s : State) (x : Nat) (f : Ctx → Ctx) : (modCtx s x f).launches = s.launches := rfl
@[simp] theorem modCtx_nextLaunch (s : State) (x : Nat) (f : Ctx → Ctx) : (modCtx s x f).nextLaunch = s.nextLaunch := rfl
@[simp] theorem modCtx_parts (s : State) (x : Nat) (f : Ctx → Ctx) : (modCtx s x f).parts = s.parts := rfl
@[simp] theorem modCtx_asids (s : State) (x : Nat) (f : Ctx → Ctx) : (modCtx s x f).asids = s.asids := rfl
@[simp] theorem modCtx_reqs (s : State) (x : Nat) (f : Ctx → Ctx) : (modCtx s x f).reqs = s.reqs := rfl
@[simp] theorem modCtx_places (s : State) (x : Nat) (f : Ctx → Ctx) : (modCtx s x f).places = s.places := rfl
@[simp] theorem modCtx_served (s : State) (x : Nat) (f : Ctx → Ctx) : (modCtx s x f).served = s.served := rfl
@[simp] theorem modCtx_dup (s : State) (x : Nat) (f : Ctx → Ctx) : (modCtx s x f).dup = s.dup := rfl
@[simp] theorem modCtx_mails (s : State) (x : Nat) (f : Ctx → Ctx) : (modCtx s x f).mails = s.mails := rfl
@[simp] theorem modCtx_ctl (s : State) (x : Nat) (f : Ctx → Ctx) : (modCtx s x f).ctl = s.ctl := rfl
@[simp] theorem modCtx_halos (s : State) (x : Nat) (f : Ctx → Ctx) : (modCtx s x f).halos = s.halos := rfl
@[simp] theorem modCtx_far (s : State) (x : Nat) (f : Ctx → Ctx) : (modCtx s x f).far = s.far := rfl
@[simp] theorem modCtx_aged (s : State) (x : Nat) (f : Ctx → Ctx) : (modCtx s x f).aged = s.aged := rfl
@[simp] theorem modCtx_caltusQ (s : State) (x : Nat) (f : Ctx → Ctx) : (modCtx s x f).caltusQ = s.caltusQ := rfl
@[simp] theorem modCtx_caltusAt (s : State) (x : Nat) (f : Ctx → Ctx) : (modCtx s x f).caltusAt = s.caltusAt := rfl
@[simp] theorem modCtx_mailbox (s : State) (x : Nat) (f : Ctx → Ctx) : (modCtx s x f).mailbox = s.mailbox := rfl
@[simp] theorem modCtx_bootWhy (s : State) (x : Nat) (f : Ctx → Ctx) : (modCtx s x f).bootWhy = s.bootWhy := rfl
@[simp] theorem modCtx_covered (s : State) (x : Nat) (f : Ctx → Ctx) : (modCtx s x f).covered = s.covered := rfl
@[simp] theorem modCtx_coveredPsn (s : State) (x : Nat) (f : Ctx → Ctx) : (modCtx s x f).coveredPsn = s.coveredPsn := rfl
@[simp] theorem modCtx_jnet (s : State) (x : Nat) (f : Ctx → Ctx) : (modCtx s x f).jnet = s.jnet := rfl
@[simp] theorem modCtx_held (s : State) (x : Nat) (f : Ctx → Ctx) : (modCtx s x f).held = s.held := rfl
@[simp] theorem modCtx_heldRed (s : State) (x : Nat) (f : Ctx → Ctx) : (modCtx s x f).heldRed = s.heldRed := rfl
@[simp] theorem modCtx_gateways (s : State) (x : Nat) (f : Ctx → Ctx) : (modCtx s x f).gateways = s.gateways := rfl
@[simp] theorem modCtx_ports (s : State) (x : Nat) (f : Ctx → Ctx) : (modCtx s x f).ports = s.ports := rfl
@[simp] theorem modCtx_portRetries (s : State) (x : Nat) (f : Ctx → Ctx) : (modCtx s x f).portRetries = s.portRetries := rfl
@[simp] theorem modCtx_fabIn (s : State) (x : Nat) (f : Ctx → Ctx) : (modCtx s x f).fabIn = s.fabIn := rfl
@[simp] theorem modCtx_fabSent (s : State) (x : Nat) (f : Ctx → Ctx) : (modCtx s x f).fabSent = s.fabSent := rfl
@[simp] theorem modCtx_fabRecv (s : State) (x : Nat) (f : Ctx → Ctx) : (modCtx s x f).fabRecv = s.fabRecv := rfl
@[simp] theorem modCtx_fabNext (s : State) (x : Nat) (f : Ctx → Ctx) : (modCtx s x f).fabNext = s.fabNext := rfl
@[simp] theorem modCtx_hbm (s : State) (x : Nat) (f : Ctx → Ctx) : (modCtx s x f).hbm = s.hbm := rfl
@[simp] theorem modCtx_regions (s : State) (x : Nat) (f : Ctx → Ctx) : (modCtx s x f).regions = s.regions := rfl
@[simp] theorem modCtx_qps (s : State) (x : Nat) (f : Ctx → Ctx) : (modCtx s x f).qps = s.qps := rfl
@[simp] theorem modCtx_windows (s : State) (x : Nat) (f : Ctx → Ctx) : (modCtx s x f).windows = s.windows := rfl
@[simp] theorem modCtx_csrs (s : State) (x : Nat) (f : Ctx → Ctx) : (modCtx s x f).csrs = s.csrs := rfl
@[simp] theorem modCtx_keys (s : State) (x : Nat) (f : Ctx → Ctx) : (modCtx s x f).keys = s.keys := rfl
@[simp] theorem modCtx_keydat (s : State) (x : Nat) (f : Ctx → Ctx) : (modCtx s x f).keydat = s.keydat := rfl
@[simp] theorem modCtx_mregs (s : State) (x : Nat) (f : Ctx → Ctx) : (modCtx s x f).mregs = s.mregs := rfl
@[simp] theorem modCtx_fuses (s : State) (x : Nat) (f : Ctx → Ctx) : (modCtx s x f).fuses = s.fuses := rfl
@[simp] theorem modCtx_svcVersion (s : State) (x : Nat) (f : Ctx → Ctx) : (modCtx s x f).svcVersion = s.svcVersion := rfl
@[simp] theorem modCtx_sideSeq (s : State) (x : Nat) (f : Ctx → Ctx) : (modCtx s x f).sideSeq = s.sideSeq := rfl
@[simp] theorem modCtx_denied (s : State) (x : Nat) (f : Ctx → Ctx) : (modCtx s x f).denied = s.denied := rfl
@[simp] theorem modCtx_budget (s : State) (x : Nat) (f : Ctx → Ctx) : (modCtx s x f).budget = s.budget := rfl
@[simp] theorem modCtx_reserve (s : State) (x : Nat) (f : Ctx → Ctx) : (modCtx s x f).reserve = s.reserve := rfl
@[simp] theorem modCtx_energy (s : State) (x : Nat) (f : Ctx → Ctx) : (modCtx s x f).energy = s.energy := rfl
@[simp] theorem modCtx_outbox (s : State) (x : Nat) (f : Ctx → Ctx) : (modCtx s x f).outbox = s.outbox := rfl

/-! modLaunch -/

@[simp] theorem modLaunch_cur (s : State) (l : Nat) (f : Launch → Launch) : (modLaunch s l f).cur = s.cur := rfl
@[simp] theorem modLaunch_agenda (s : State) (l : Nat) (f : Launch → Launch) : (modLaunch s l f).agenda = s.agenda := rfl
@[simp] theorem modLaunch_choice (s : State) (l : Nat) (f : Launch → Launch) : (modLaunch s l f).choice = s.choice := rfl
@[simp] theorem modLaunch_fresh (s : State) (l : Nat) (f : Launch → Launch) : (modLaunch s l f).fresh = s.fresh := rfl
@[simp] theorem modLaunch_now (s : State) (l : Nat) (f : Launch → Launch) : (modLaunch s l f).now = s.now := rfl
@[simp] theorem modLaunch_moduleNo (s : State) (l : Nat) (f : Launch → Launch) : (modLaunch s l f).moduleNo = s.moduleNo := rfl
@[simp] theorem modLaunch_boot (s : State) (l : Nat) (f : Launch → Launch) : (modLaunch s l f).boot = s.boot := rfl
@[simp] theorem modLaunch_mem (s : State) (l : Nat) (f : Launch → Launch) : (modLaunch s l f).mem = s.mem := rfl
@[simp] theorem modLaunch_memPsn (s : State) (l : Nat) (f : Launch → Launch) : (modLaunch s l f).memPsn = s.memPsn := rfl
@[simp] theorem modLaunch_teams (s : State) (l : Nat) (f : Launch → Launch) : (modLaunch s l f).teams = s.teams := rfl
@[simp] theorem modLaunch_cores (s : State) (l : Nat) (f : Launch → Launch) : (modLaunch s l f).cores = s.cores := rfl
@[simp] theorem modLaunch_clusters (s : State) (l : Nat) (f : Launch → Launch) : (modLaunch s l f).clusters = s.clusters := rfl
@[simp] theorem modLaunch_ctxs (s : State) (l : Nat) (f : Launch → Launch) : (modLaunch s l f).ctxs = s.ctxs := rfl
@[simp] theorem modLaunch_launches (s : State) (l : Nat) (f : Launch → Launch) : (modLaunch s l f).launches = smMod s.launches l f := rfl
@[simp] theorem modLaunch_nextLaunch (s : State) (l : Nat) (f : Launch → Launch) : (modLaunch s l f).nextLaunch = s.nextLaunch := rfl
@[simp] theorem modLaunch_parts (s : State) (l : Nat) (f : Launch → Launch) : (modLaunch s l f).parts = s.parts := rfl
@[simp] theorem modLaunch_asids (s : State) (l : Nat) (f : Launch → Launch) : (modLaunch s l f).asids = s.asids := rfl
@[simp] theorem modLaunch_reqs (s : State) (l : Nat) (f : Launch → Launch) : (modLaunch s l f).reqs = s.reqs := rfl
@[simp] theorem modLaunch_places (s : State) (l : Nat) (f : Launch → Launch) : (modLaunch s l f).places = s.places := rfl
@[simp] theorem modLaunch_served (s : State) (l : Nat) (f : Launch → Launch) : (modLaunch s l f).served = s.served := rfl
@[simp] theorem modLaunch_dup (s : State) (l : Nat) (f : Launch → Launch) : (modLaunch s l f).dup = s.dup := rfl
@[simp] theorem modLaunch_mails (s : State) (l : Nat) (f : Launch → Launch) : (modLaunch s l f).mails = s.mails := rfl
@[simp] theorem modLaunch_ctl (s : State) (l : Nat) (f : Launch → Launch) : (modLaunch s l f).ctl = s.ctl := rfl
@[simp] theorem modLaunch_halos (s : State) (l : Nat) (f : Launch → Launch) : (modLaunch s l f).halos = s.halos := rfl
@[simp] theorem modLaunch_far (s : State) (l : Nat) (f : Launch → Launch) : (modLaunch s l f).far = s.far := rfl
@[simp] theorem modLaunch_aged (s : State) (l : Nat) (f : Launch → Launch) : (modLaunch s l f).aged = s.aged := rfl
@[simp] theorem modLaunch_caltusQ (s : State) (l : Nat) (f : Launch → Launch) : (modLaunch s l f).caltusQ = s.caltusQ := rfl
@[simp] theorem modLaunch_caltusAt (s : State) (l : Nat) (f : Launch → Launch) : (modLaunch s l f).caltusAt = s.caltusAt := rfl
@[simp] theorem modLaunch_mailbox (s : State) (l : Nat) (f : Launch → Launch) : (modLaunch s l f).mailbox = s.mailbox := rfl
@[simp] theorem modLaunch_bootWhy (s : State) (l : Nat) (f : Launch → Launch) : (modLaunch s l f).bootWhy = s.bootWhy := rfl
@[simp] theorem modLaunch_covered (s : State) (l : Nat) (f : Launch → Launch) : (modLaunch s l f).covered = s.covered := rfl
@[simp] theorem modLaunch_coveredPsn (s : State) (l : Nat) (f : Launch → Launch) : (modLaunch s l f).coveredPsn = s.coveredPsn := rfl
@[simp] theorem modLaunch_jnet (s : State) (l : Nat) (f : Launch → Launch) : (modLaunch s l f).jnet = s.jnet := rfl
@[simp] theorem modLaunch_held (s : State) (l : Nat) (f : Launch → Launch) : (modLaunch s l f).held = s.held := rfl
@[simp] theorem modLaunch_heldRed (s : State) (l : Nat) (f : Launch → Launch) : (modLaunch s l f).heldRed = s.heldRed := rfl
@[simp] theorem modLaunch_gateways (s : State) (l : Nat) (f : Launch → Launch) : (modLaunch s l f).gateways = s.gateways := rfl
@[simp] theorem modLaunch_ports (s : State) (l : Nat) (f : Launch → Launch) : (modLaunch s l f).ports = s.ports := rfl
@[simp] theorem modLaunch_portRetries (s : State) (l : Nat) (f : Launch → Launch) : (modLaunch s l f).portRetries = s.portRetries := rfl
@[simp] theorem modLaunch_fabIn (s : State) (l : Nat) (f : Launch → Launch) : (modLaunch s l f).fabIn = s.fabIn := rfl
@[simp] theorem modLaunch_fabSent (s : State) (l : Nat) (f : Launch → Launch) : (modLaunch s l f).fabSent = s.fabSent := rfl
@[simp] theorem modLaunch_fabRecv (s : State) (l : Nat) (f : Launch → Launch) : (modLaunch s l f).fabRecv = s.fabRecv := rfl
@[simp] theorem modLaunch_fabNext (s : State) (l : Nat) (f : Launch → Launch) : (modLaunch s l f).fabNext = s.fabNext := rfl
@[simp] theorem modLaunch_hbm (s : State) (l : Nat) (f : Launch → Launch) : (modLaunch s l f).hbm = s.hbm := rfl
@[simp] theorem modLaunch_regions (s : State) (l : Nat) (f : Launch → Launch) : (modLaunch s l f).regions = s.regions := rfl
@[simp] theorem modLaunch_qps (s : State) (l : Nat) (f : Launch → Launch) : (modLaunch s l f).qps = s.qps := rfl
@[simp] theorem modLaunch_windows (s : State) (l : Nat) (f : Launch → Launch) : (modLaunch s l f).windows = s.windows := rfl
@[simp] theorem modLaunch_csrs (s : State) (l : Nat) (f : Launch → Launch) : (modLaunch s l f).csrs = s.csrs := rfl
@[simp] theorem modLaunch_keys (s : State) (l : Nat) (f : Launch → Launch) : (modLaunch s l f).keys = s.keys := rfl
@[simp] theorem modLaunch_keydat (s : State) (l : Nat) (f : Launch → Launch) : (modLaunch s l f).keydat = s.keydat := rfl
@[simp] theorem modLaunch_mregs (s : State) (l : Nat) (f : Launch → Launch) : (modLaunch s l f).mregs = s.mregs := rfl
@[simp] theorem modLaunch_fuses (s : State) (l : Nat) (f : Launch → Launch) : (modLaunch s l f).fuses = s.fuses := rfl
@[simp] theorem modLaunch_svcVersion (s : State) (l : Nat) (f : Launch → Launch) : (modLaunch s l f).svcVersion = s.svcVersion := rfl
@[simp] theorem modLaunch_sideSeq (s : State) (l : Nat) (f : Launch → Launch) : (modLaunch s l f).sideSeq = s.sideSeq := rfl
@[simp] theorem modLaunch_denied (s : State) (l : Nat) (f : Launch → Launch) : (modLaunch s l f).denied = s.denied := rfl
@[simp] theorem modLaunch_budget (s : State) (l : Nat) (f : Launch → Launch) : (modLaunch s l f).budget = s.budget := rfl
@[simp] theorem modLaunch_reserve (s : State) (l : Nat) (f : Launch → Launch) : (modLaunch s l f).reserve = s.reserve := rfl
@[simp] theorem modLaunch_energy (s : State) (l : Nat) (f : Launch → Launch) : (modLaunch s l f).energy = s.energy := rfl
@[simp] theorem modLaunch_outbox (s : State) (l : Nat) (f : Launch → Launch) : (modLaunch s l f).outbox = s.outbox := rfl

/-! modPart -/

@[simp] theorem modPart_cur (s : State) (p : Nat) (f : Part → Part) : (modPart s p f).cur = s.cur := rfl
@[simp] theorem modPart_agenda (s : State) (p : Nat) (f : Part → Part) : (modPart s p f).agenda = s.agenda := rfl
@[simp] theorem modPart_choice (s : State) (p : Nat) (f : Part → Part) : (modPart s p f).choice = s.choice := rfl
@[simp] theorem modPart_fresh (s : State) (p : Nat) (f : Part → Part) : (modPart s p f).fresh = s.fresh := rfl
@[simp] theorem modPart_now (s : State) (p : Nat) (f : Part → Part) : (modPart s p f).now = s.now := rfl
@[simp] theorem modPart_moduleNo (s : State) (p : Nat) (f : Part → Part) : (modPart s p f).moduleNo = s.moduleNo := rfl
@[simp] theorem modPart_boot (s : State) (p : Nat) (f : Part → Part) : (modPart s p f).boot = s.boot := rfl
@[simp] theorem modPart_mem (s : State) (p : Nat) (f : Part → Part) : (modPart s p f).mem = s.mem := rfl
@[simp] theorem modPart_memPsn (s : State) (p : Nat) (f : Part → Part) : (modPart s p f).memPsn = s.memPsn := rfl
@[simp] theorem modPart_teams (s : State) (p : Nat) (f : Part → Part) : (modPart s p f).teams = s.teams := rfl
@[simp] theorem modPart_cores (s : State) (p : Nat) (f : Part → Part) : (modPart s p f).cores = s.cores := rfl
@[simp] theorem modPart_clusters (s : State) (p : Nat) (f : Part → Part) : (modPart s p f).clusters = s.clusters := rfl
@[simp] theorem modPart_ctxs (s : State) (p : Nat) (f : Part → Part) : (modPart s p f).ctxs = s.ctxs := rfl
@[simp] theorem modPart_launches (s : State) (p : Nat) (f : Part → Part) : (modPart s p f).launches = s.launches := rfl
@[simp] theorem modPart_nextLaunch (s : State) (p : Nat) (f : Part → Part) : (modPart s p f).nextLaunch = s.nextLaunch := rfl
@[simp] theorem modPart_parts (s : State) (p : Nat) (f : Part → Part) : (modPart s p f).parts = smMod s.parts p f := rfl
@[simp] theorem modPart_asids (s : State) (p : Nat) (f : Part → Part) : (modPart s p f).asids = s.asids := rfl
@[simp] theorem modPart_reqs (s : State) (p : Nat) (f : Part → Part) : (modPart s p f).reqs = s.reqs := rfl
@[simp] theorem modPart_places (s : State) (p : Nat) (f : Part → Part) : (modPart s p f).places = s.places := rfl
@[simp] theorem modPart_served (s : State) (p : Nat) (f : Part → Part) : (modPart s p f).served = s.served := rfl
@[simp] theorem modPart_dup (s : State) (p : Nat) (f : Part → Part) : (modPart s p f).dup = s.dup := rfl
@[simp] theorem modPart_mails (s : State) (p : Nat) (f : Part → Part) : (modPart s p f).mails = s.mails := rfl
@[simp] theorem modPart_ctl (s : State) (p : Nat) (f : Part → Part) : (modPart s p f).ctl = s.ctl := rfl
@[simp] theorem modPart_halos (s : State) (p : Nat) (f : Part → Part) : (modPart s p f).halos = s.halos := rfl
@[simp] theorem modPart_far (s : State) (p : Nat) (f : Part → Part) : (modPart s p f).far = s.far := rfl
@[simp] theorem modPart_aged (s : State) (p : Nat) (f : Part → Part) : (modPart s p f).aged = s.aged := rfl
@[simp] theorem modPart_caltusQ (s : State) (p : Nat) (f : Part → Part) : (modPart s p f).caltusQ = s.caltusQ := rfl
@[simp] theorem modPart_caltusAt (s : State) (p : Nat) (f : Part → Part) : (modPart s p f).caltusAt = s.caltusAt := rfl
@[simp] theorem modPart_mailbox (s : State) (p : Nat) (f : Part → Part) : (modPart s p f).mailbox = s.mailbox := rfl
@[simp] theorem modPart_bootWhy (s : State) (p : Nat) (f : Part → Part) : (modPart s p f).bootWhy = s.bootWhy := rfl
@[simp] theorem modPart_covered (s : State) (p : Nat) (f : Part → Part) : (modPart s p f).covered = s.covered := rfl
@[simp] theorem modPart_coveredPsn (s : State) (p : Nat) (f : Part → Part) : (modPart s p f).coveredPsn = s.coveredPsn := rfl
@[simp] theorem modPart_jnet (s : State) (p : Nat) (f : Part → Part) : (modPart s p f).jnet = s.jnet := rfl
@[simp] theorem modPart_held (s : State) (p : Nat) (f : Part → Part) : (modPart s p f).held = s.held := rfl
@[simp] theorem modPart_heldRed (s : State) (p : Nat) (f : Part → Part) : (modPart s p f).heldRed = s.heldRed := rfl
@[simp] theorem modPart_gateways (s : State) (p : Nat) (f : Part → Part) : (modPart s p f).gateways = s.gateways := rfl
@[simp] theorem modPart_ports (s : State) (p : Nat) (f : Part → Part) : (modPart s p f).ports = s.ports := rfl
@[simp] theorem modPart_portRetries (s : State) (p : Nat) (f : Part → Part) : (modPart s p f).portRetries = s.portRetries := rfl
@[simp] theorem modPart_fabIn (s : State) (p : Nat) (f : Part → Part) : (modPart s p f).fabIn = s.fabIn := rfl
@[simp] theorem modPart_fabSent (s : State) (p : Nat) (f : Part → Part) : (modPart s p f).fabSent = s.fabSent := rfl
@[simp] theorem modPart_fabRecv (s : State) (p : Nat) (f : Part → Part) : (modPart s p f).fabRecv = s.fabRecv := rfl
@[simp] theorem modPart_fabNext (s : State) (p : Nat) (f : Part → Part) : (modPart s p f).fabNext = s.fabNext := rfl
@[simp] theorem modPart_hbm (s : State) (p : Nat) (f : Part → Part) : (modPart s p f).hbm = s.hbm := rfl
@[simp] theorem modPart_regions (s : State) (p : Nat) (f : Part → Part) : (modPart s p f).regions = s.regions := rfl
@[simp] theorem modPart_qps (s : State) (p : Nat) (f : Part → Part) : (modPart s p f).qps = s.qps := rfl
@[simp] theorem modPart_windows (s : State) (p : Nat) (f : Part → Part) : (modPart s p f).windows = s.windows := rfl
@[simp] theorem modPart_csrs (s : State) (p : Nat) (f : Part → Part) : (modPart s p f).csrs = s.csrs := rfl
@[simp] theorem modPart_keys (s : State) (p : Nat) (f : Part → Part) : (modPart s p f).keys = s.keys := rfl
@[simp] theorem modPart_keydat (s : State) (p : Nat) (f : Part → Part) : (modPart s p f).keydat = s.keydat := rfl
@[simp] theorem modPart_mregs (s : State) (p : Nat) (f : Part → Part) : (modPart s p f).mregs = s.mregs := rfl
@[simp] theorem modPart_fuses (s : State) (p : Nat) (f : Part → Part) : (modPart s p f).fuses = s.fuses := rfl
@[simp] theorem modPart_svcVersion (s : State) (p : Nat) (f : Part → Part) : (modPart s p f).svcVersion = s.svcVersion := rfl
@[simp] theorem modPart_sideSeq (s : State) (p : Nat) (f : Part → Part) : (modPart s p f).sideSeq = s.sideSeq := rfl
@[simp] theorem modPart_denied (s : State) (p : Nat) (f : Part → Part) : (modPart s p f).denied = s.denied := rfl
@[simp] theorem modPart_budget (s : State) (p : Nat) (f : Part → Part) : (modPart s p f).budget = s.budget := rfl
@[simp] theorem modPart_reserve (s : State) (p : Nat) (f : Part → Part) : (modPart s p f).reserve = s.reserve := rfl
@[simp] theorem modPart_energy (s : State) (p : Nat) (f : Part → Part) : (modPart s p f).energy = s.energy := rfl
@[simp] theorem modPart_outbox (s : State) (p : Nat) (f : Part → Part) : (modPart s p f).outbox = s.outbox := rfl

/-! emitOut -/

@[simp] theorem emitOut_cur (s : State) (o : Out) : (emitOut s o).cur = s.cur := rfl
@[simp] theorem emitOut_agenda (s : State) (o : Out) : (emitOut s o).agenda = s.agenda := rfl
@[simp] theorem emitOut_choice (s : State) (o : Out) : (emitOut s o).choice = s.choice := rfl
@[simp] theorem emitOut_fresh (s : State) (o : Out) : (emitOut s o).fresh = s.fresh := rfl
@[simp] theorem emitOut_now (s : State) (o : Out) : (emitOut s o).now = s.now := rfl
@[simp] theorem emitOut_moduleNo (s : State) (o : Out) : (emitOut s o).moduleNo = s.moduleNo := rfl
@[simp] theorem emitOut_boot (s : State) (o : Out) : (emitOut s o).boot = s.boot := rfl
@[simp] theorem emitOut_mem (s : State) (o : Out) : (emitOut s o).mem = s.mem := rfl
@[simp] theorem emitOut_memPsn (s : State) (o : Out) : (emitOut s o).memPsn = s.memPsn := rfl
@[simp] theorem emitOut_teams (s : State) (o : Out) : (emitOut s o).teams = s.teams := rfl
@[simp] theorem emitOut_cores (s : State) (o : Out) : (emitOut s o).cores = s.cores := rfl
@[simp] theorem emitOut_clusters (s : State) (o : Out) : (emitOut s o).clusters = s.clusters := rfl
@[simp] theorem emitOut_ctxs (s : State) (o : Out) : (emitOut s o).ctxs = s.ctxs := rfl
@[simp] theorem emitOut_launches (s : State) (o : Out) : (emitOut s o).launches = s.launches := rfl
@[simp] theorem emitOut_nextLaunch (s : State) (o : Out) : (emitOut s o).nextLaunch = s.nextLaunch := rfl
@[simp] theorem emitOut_parts (s : State) (o : Out) : (emitOut s o).parts = s.parts := rfl
@[simp] theorem emitOut_asids (s : State) (o : Out) : (emitOut s o).asids = s.asids := rfl
@[simp] theorem emitOut_reqs (s : State) (o : Out) : (emitOut s o).reqs = s.reqs := rfl
@[simp] theorem emitOut_places (s : State) (o : Out) : (emitOut s o).places = s.places := rfl
@[simp] theorem emitOut_served (s : State) (o : Out) : (emitOut s o).served = s.served := rfl
@[simp] theorem emitOut_dup (s : State) (o : Out) : (emitOut s o).dup = s.dup := rfl
@[simp] theorem emitOut_mails (s : State) (o : Out) : (emitOut s o).mails = s.mails := rfl
@[simp] theorem emitOut_ctl (s : State) (o : Out) : (emitOut s o).ctl = s.ctl := rfl
@[simp] theorem emitOut_halos (s : State) (o : Out) : (emitOut s o).halos = s.halos := rfl
@[simp] theorem emitOut_far (s : State) (o : Out) : (emitOut s o).far = s.far := rfl
@[simp] theorem emitOut_aged (s : State) (o : Out) : (emitOut s o).aged = s.aged := rfl
@[simp] theorem emitOut_caltusQ (s : State) (o : Out) : (emitOut s o).caltusQ = s.caltusQ := rfl
@[simp] theorem emitOut_caltusAt (s : State) (o : Out) : (emitOut s o).caltusAt = s.caltusAt := rfl
@[simp] theorem emitOut_mailbox (s : State) (o : Out) : (emitOut s o).mailbox = s.mailbox := rfl
@[simp] theorem emitOut_bootWhy (s : State) (o : Out) : (emitOut s o).bootWhy = s.bootWhy := rfl
@[simp] theorem emitOut_covered (s : State) (o : Out) : (emitOut s o).covered = s.covered := rfl
@[simp] theorem emitOut_coveredPsn (s : State) (o : Out) : (emitOut s o).coveredPsn = s.coveredPsn := rfl
@[simp] theorem emitOut_jnet (s : State) (o : Out) : (emitOut s o).jnet = s.jnet := rfl
@[simp] theorem emitOut_held (s : State) (o : Out) : (emitOut s o).held = s.held := rfl
@[simp] theorem emitOut_heldRed (s : State) (o : Out) : (emitOut s o).heldRed = s.heldRed := rfl
@[simp] theorem emitOut_gateways (s : State) (o : Out) : (emitOut s o).gateways = s.gateways := rfl
@[simp] theorem emitOut_ports (s : State) (o : Out) : (emitOut s o).ports = s.ports := rfl
@[simp] theorem emitOut_portRetries (s : State) (o : Out) : (emitOut s o).portRetries = s.portRetries := rfl
@[simp] theorem emitOut_fabIn (s : State) (o : Out) : (emitOut s o).fabIn = s.fabIn := rfl
@[simp] theorem emitOut_fabSent (s : State) (o : Out) : (emitOut s o).fabSent = s.fabSent := rfl
@[simp] theorem emitOut_fabRecv (s : State) (o : Out) : (emitOut s o).fabRecv = s.fabRecv := rfl
@[simp] theorem emitOut_fabNext (s : State) (o : Out) : (emitOut s o).fabNext = s.fabNext := rfl
@[simp] theorem emitOut_hbm (s : State) (o : Out) : (emitOut s o).hbm = s.hbm := rfl
@[simp] theorem emitOut_regions (s : State) (o : Out) : (emitOut s o).regions = s.regions := rfl
@[simp] theorem emitOut_qps (s : State) (o : Out) : (emitOut s o).qps = s.qps := rfl
@[simp] theorem emitOut_windows (s : State) (o : Out) : (emitOut s o).windows = s.windows := rfl
@[simp] theorem emitOut_csrs (s : State) (o : Out) : (emitOut s o).csrs = s.csrs := rfl
@[simp] theorem emitOut_keys (s : State) (o : Out) : (emitOut s o).keys = s.keys := rfl
@[simp] theorem emitOut_keydat (s : State) (o : Out) : (emitOut s o).keydat = s.keydat := rfl
@[simp] theorem emitOut_mregs (s : State) (o : Out) : (emitOut s o).mregs = s.mregs := rfl
@[simp] theorem emitOut_fuses (s : State) (o : Out) : (emitOut s o).fuses = s.fuses := rfl
@[simp] theorem emitOut_svcVersion (s : State) (o : Out) : (emitOut s o).svcVersion = s.svcVersion := rfl
@[simp] theorem emitOut_sideSeq (s : State) (o : Out) : (emitOut s o).sideSeq = s.sideSeq := rfl
@[simp] theorem emitOut_denied (s : State) (o : Out) : (emitOut s o).denied = s.denied := rfl
@[simp] theorem emitOut_budget (s : State) (o : Out) : (emitOut s o).budget = s.budget := rfl
@[simp] theorem emitOut_reserve (s : State) (o : Out) : (emitOut s o).reserve = s.reserve := rfl
@[simp] theorem emitOut_energy (s : State) (o : Out) : (emitOut s o).energy = s.energy := rfl
@[simp] theorem emitOut_outbox (s : State) (o : Out) : (emitOut s o).outbox = s.outbox ++ [o] := rfl

/-! jput -/

@[simp] theorem jput_cur (s : State) (f : JFlit) : (jput s f).cur = s.cur := rfl
@[simp] theorem jput_agenda (s : State) (f : JFlit) : (jput s f).agenda = s.agenda := rfl
@[simp] theorem jput_choice (s : State) (f : JFlit) : (jput s f).choice = s.choice := rfl
@[simp] theorem jput_fresh (s : State) (f : JFlit) : (jput s f).fresh = s.fresh := rfl
@[simp] theorem jput_now (s : State) (f : JFlit) : (jput s f).now = s.now := rfl
@[simp] theorem jput_moduleNo (s : State) (f : JFlit) : (jput s f).moduleNo = s.moduleNo := rfl
@[simp] theorem jput_boot (s : State) (f : JFlit) : (jput s f).boot = s.boot := rfl
@[simp] theorem jput_mem (s : State) (f : JFlit) : (jput s f).mem = s.mem := rfl
@[simp] theorem jput_memPsn (s : State) (f : JFlit) : (jput s f).memPsn = s.memPsn := rfl
@[simp] theorem jput_teams (s : State) (f : JFlit) : (jput s f).teams = s.teams := rfl
@[simp] theorem jput_cores (s : State) (f : JFlit) : (jput s f).cores = s.cores := rfl
@[simp] theorem jput_clusters (s : State) (f : JFlit) : (jput s f).clusters = s.clusters := rfl
@[simp] theorem jput_ctxs (s : State) (f : JFlit) : (jput s f).ctxs = s.ctxs := rfl
@[simp] theorem jput_launches (s : State) (f : JFlit) : (jput s f).launches = s.launches := rfl
@[simp] theorem jput_nextLaunch (s : State) (f : JFlit) : (jput s f).nextLaunch = s.nextLaunch := rfl
@[simp] theorem jput_parts (s : State) (f : JFlit) : (jput s f).parts = s.parts := rfl
@[simp] theorem jput_asids (s : State) (f : JFlit) : (jput s f).asids = s.asids := rfl
@[simp] theorem jput_reqs (s : State) (f : JFlit) : (jput s f).reqs = s.reqs := rfl
@[simp] theorem jput_places (s : State) (f : JFlit) : (jput s f).places = s.places := rfl
@[simp] theorem jput_served (s : State) (f : JFlit) : (jput s f).served = s.served := rfl
@[simp] theorem jput_dup (s : State) (f : JFlit) : (jput s f).dup = s.dup := rfl
@[simp] theorem jput_mails (s : State) (f : JFlit) : (jput s f).mails = s.mails := rfl
@[simp] theorem jput_ctl (s : State) (f : JFlit) : (jput s f).ctl = s.ctl := rfl
@[simp] theorem jput_halos (s : State) (f : JFlit) : (jput s f).halos = s.halos := rfl
@[simp] theorem jput_far (s : State) (f : JFlit) : (jput s f).far = s.far := rfl
@[simp] theorem jput_aged (s : State) (f : JFlit) : (jput s f).aged = s.aged := rfl
@[simp] theorem jput_caltusQ (s : State) (f : JFlit) : (jput s f).caltusQ = s.caltusQ := rfl
@[simp] theorem jput_caltusAt (s : State) (f : JFlit) : (jput s f).caltusAt = s.caltusAt := rfl
@[simp] theorem jput_mailbox (s : State) (f : JFlit) : (jput s f).mailbox = s.mailbox := rfl
@[simp] theorem jput_bootWhy (s : State) (f : JFlit) : (jput s f).bootWhy = s.bootWhy := rfl
@[simp] theorem jput_covered (s : State) (f : JFlit) : (jput s f).covered = s.covered := rfl
@[simp] theorem jput_coveredPsn (s : State) (f : JFlit) : (jput s f).coveredPsn = s.coveredPsn := rfl
@[simp] theorem jput_jnet (s : State) (f : JFlit) : (jput s f).jnet = s.jnet ++ [f] := rfl
@[simp] theorem jput_held (s : State) (f : JFlit) : (jput s f).held = s.held := rfl
@[simp] theorem jput_heldRed (s : State) (f : JFlit) : (jput s f).heldRed = s.heldRed := rfl
@[simp] theorem jput_gateways (s : State) (f : JFlit) : (jput s f).gateways = s.gateways := rfl
@[simp] theorem jput_ports (s : State) (f : JFlit) : (jput s f).ports = s.ports := rfl
@[simp] theorem jput_portRetries (s : State) (f : JFlit) : (jput s f).portRetries = s.portRetries := rfl
@[simp] theorem jput_fabIn (s : State) (f : JFlit) : (jput s f).fabIn = s.fabIn := rfl
@[simp] theorem jput_fabSent (s : State) (f : JFlit) : (jput s f).fabSent = s.fabSent := rfl
@[simp] theorem jput_fabRecv (s : State) (f : JFlit) : (jput s f).fabRecv = s.fabRecv := rfl
@[simp] theorem jput_fabNext (s : State) (f : JFlit) : (jput s f).fabNext = s.fabNext := rfl
@[simp] theorem jput_hbm (s : State) (f : JFlit) : (jput s f).hbm = s.hbm := rfl
@[simp] theorem jput_regions (s : State) (f : JFlit) : (jput s f).regions = s.regions := rfl
@[simp] theorem jput_qps (s : State) (f : JFlit) : (jput s f).qps = s.qps := rfl
@[simp] theorem jput_windows (s : State) (f : JFlit) : (jput s f).windows = s.windows := rfl
@[simp] theorem jput_csrs (s : State) (f : JFlit) : (jput s f).csrs = s.csrs := rfl
@[simp] theorem jput_keys (s : State) (f : JFlit) : (jput s f).keys = s.keys := rfl
@[simp] theorem jput_keydat (s : State) (f : JFlit) : (jput s f).keydat = s.keydat := rfl
@[simp] theorem jput_mregs (s : State) (f : JFlit) : (jput s f).mregs = s.mregs := rfl
@[simp] theorem jput_fuses (s : State) (f : JFlit) : (jput s f).fuses = s.fuses := rfl
@[simp] theorem jput_svcVersion (s : State) (f : JFlit) : (jput s f).svcVersion = s.svcVersion := rfl
@[simp] theorem jput_sideSeq (s : State) (f : JFlit) : (jput s f).sideSeq = s.sideSeq := rfl
@[simp] theorem jput_denied (s : State) (f : JFlit) : (jput s f).denied = s.denied := rfl
@[simp] theorem jput_budget (s : State) (f : JFlit) : (jput s f).budget = s.budget := rfl
@[simp] theorem jput_reserve (s : State) (f : JFlit) : (jput s f).reserve = s.reserve := rfl
@[simp] theorem jput_energy (s : State) (f : JFlit) : (jput s f).energy = s.energy := rfl
@[simp] theorem jput_outbox (s : State) (f : JFlit) : (jput s f).outbox = s.outbox := rfl

/-! physSet -/

@[simp] theorem physSet_cur (s : State) (pa : Nat) (bs : List Byte) : (physSet s pa bs).cur = s.cur := rfl
@[simp] theorem physSet_agenda (s : State) (pa : Nat) (bs : List Byte) : (physSet s pa bs).agenda = s.agenda := rfl
@[simp] theorem physSet_choice (s : State) (pa : Nat) (bs : List Byte) : (physSet s pa bs).choice = s.choice := rfl
@[simp] theorem physSet_fresh (s : State) (pa : Nat) (bs : List Byte) : (physSet s pa bs).fresh = s.fresh := rfl
@[simp] theorem physSet_now (s : State) (pa : Nat) (bs : List Byte) : (physSet s pa bs).now = s.now := rfl
@[simp] theorem physSet_moduleNo (s : State) (pa : Nat) (bs : List Byte) : (physSet s pa bs).moduleNo = s.moduleNo := rfl
@[simp] theorem physSet_boot (s : State) (pa : Nat) (bs : List Byte) : (physSet s pa bs).boot = s.boot := rfl
@[simp] theorem physSet_teams (s : State) (pa : Nat) (bs : List Byte) : (physSet s pa bs).teams = s.teams := rfl
@[simp] theorem physSet_cores (s : State) (pa : Nat) (bs : List Byte) : (physSet s pa bs).cores = s.cores := rfl
@[simp] theorem physSet_clusters (s : State) (pa : Nat) (bs : List Byte) : (physSet s pa bs).clusters = s.clusters := rfl
@[simp] theorem physSet_ctxs (s : State) (pa : Nat) (bs : List Byte) : (physSet s pa bs).ctxs = s.ctxs := rfl
@[simp] theorem physSet_launches (s : State) (pa : Nat) (bs : List Byte) : (physSet s pa bs).launches = s.launches := rfl
@[simp] theorem physSet_nextLaunch (s : State) (pa : Nat) (bs : List Byte) : (physSet s pa bs).nextLaunch = s.nextLaunch := rfl
@[simp] theorem physSet_parts (s : State) (pa : Nat) (bs : List Byte) : (physSet s pa bs).parts = s.parts := rfl
@[simp] theorem physSet_asids (s : State) (pa : Nat) (bs : List Byte) : (physSet s pa bs).asids = s.asids := rfl
@[simp] theorem physSet_reqs (s : State) (pa : Nat) (bs : List Byte) : (physSet s pa bs).reqs = s.reqs := rfl
@[simp] theorem physSet_places (s : State) (pa : Nat) (bs : List Byte) : (physSet s pa bs).places = s.places := rfl
@[simp] theorem physSet_served (s : State) (pa : Nat) (bs : List Byte) : (physSet s pa bs).served = s.served := rfl
@[simp] theorem physSet_dup (s : State) (pa : Nat) (bs : List Byte) : (physSet s pa bs).dup = s.dup := rfl
@[simp] theorem physSet_mails (s : State) (pa : Nat) (bs : List Byte) : (physSet s pa bs).mails = s.mails := rfl
@[simp] theorem physSet_ctl (s : State) (pa : Nat) (bs : List Byte) : (physSet s pa bs).ctl = s.ctl := rfl
@[simp] theorem physSet_halos (s : State) (pa : Nat) (bs : List Byte) : (physSet s pa bs).halos = s.halos := rfl
@[simp] theorem physSet_far (s : State) (pa : Nat) (bs : List Byte) : (physSet s pa bs).far = s.far := rfl
@[simp] theorem physSet_aged (s : State) (pa : Nat) (bs : List Byte) : (physSet s pa bs).aged = s.aged := rfl
@[simp] theorem physSet_caltusQ (s : State) (pa : Nat) (bs : List Byte) : (physSet s pa bs).caltusQ = s.caltusQ := rfl
@[simp] theorem physSet_caltusAt (s : State) (pa : Nat) (bs : List Byte) : (physSet s pa bs).caltusAt = s.caltusAt := rfl
@[simp] theorem physSet_mailbox (s : State) (pa : Nat) (bs : List Byte) : (physSet s pa bs).mailbox = s.mailbox := rfl
@[simp] theorem physSet_bootWhy (s : State) (pa : Nat) (bs : List Byte) : (physSet s pa bs).bootWhy = s.bootWhy := rfl
@[simp] theorem physSet_jnet (s : State) (pa : Nat) (bs : List Byte) : (physSet s pa bs).jnet = s.jnet := rfl
@[simp] theorem physSet_held (s : State) (pa : Nat) (bs : List Byte) : (physSet s pa bs).held = s.held := rfl
@[simp] theorem physSet_heldRed (s : State) (pa : Nat) (bs : List Byte) : (physSet s pa bs).heldRed = s.heldRed := rfl
@[simp] theorem physSet_gateways (s : State) (pa : Nat) (bs : List Byte) : (physSet s pa bs).gateways = s.gateways := rfl
@[simp] theorem physSet_ports (s : State) (pa : Nat) (bs : List Byte) : (physSet s pa bs).ports = s.ports := rfl
@[simp] theorem physSet_portRetries (s : State) (pa : Nat) (bs : List Byte) : (physSet s pa bs).portRetries = s.portRetries := rfl
@[simp] theorem physSet_fabIn (s : State) (pa : Nat) (bs : List Byte) : (physSet s pa bs).fabIn = s.fabIn := rfl
@[simp] theorem physSet_fabSent (s : State) (pa : Nat) (bs : List Byte) : (physSet s pa bs).fabSent = s.fabSent := rfl
@[simp] theorem physSet_fabRecv (s : State) (pa : Nat) (bs : List Byte) : (physSet s pa bs).fabRecv = s.fabRecv := rfl
@[simp] theorem physSet_fabNext (s : State) (pa : Nat) (bs : List Byte) : (physSet s pa bs).fabNext = s.fabNext := rfl
@[simp] theorem physSet_hbm (s : State) (pa : Nat) (bs : List Byte) : (physSet s pa bs).hbm = s.hbm := rfl
@[simp] theorem physSet_regions (s : State) (pa : Nat) (bs : List Byte) : (physSet s pa bs).regions = s.regions := rfl
@[simp] theorem physSet_qps (s : State) (pa : Nat) (bs : List Byte) : (physSet s pa bs).qps = s.qps := rfl
@[simp] theorem physSet_windows (s : State) (pa : Nat) (bs : List Byte) : (physSet s pa bs).windows = s.windows := rfl
@[simp] theorem physSet_csrs (s : State) (pa : Nat) (bs : List Byte) : (physSet s pa bs).csrs = s.csrs := rfl
@[simp] theorem physSet_keys (s : State) (pa : Nat) (bs : List Byte) : (physSet s pa bs).keys = s.keys := rfl
@[simp] theorem physSet_keydat (s : State) (pa : Nat) (bs : List Byte) : (physSet s pa bs).keydat = s.keydat := rfl
@[simp] theorem physSet_mregs (s : State) (pa : Nat) (bs : List Byte) : (physSet s pa bs).mregs = s.mregs := rfl
@[simp] theorem physSet_fuses (s : State) (pa : Nat) (bs : List Byte) : (physSet s pa bs).fuses = s.fuses := rfl
@[simp] theorem physSet_svcVersion (s : State) (pa : Nat) (bs : List Byte) : (physSet s pa bs).svcVersion = s.svcVersion := rfl
@[simp] theorem physSet_sideSeq (s : State) (pa : Nat) (bs : List Byte) : (physSet s pa bs).sideSeq = s.sideSeq := rfl
@[simp] theorem physSet_denied (s : State) (pa : Nat) (bs : List Byte) : (physSet s pa bs).denied = s.denied := rfl
@[simp] theorem physSet_budget (s : State) (pa : Nat) (bs : List Byte) : (physSet s pa bs).budget = s.budget := rfl
@[simp] theorem physSet_reserve (s : State) (pa : Nat) (bs : List Byte) : (physSet s pa bs).reserve = s.reserve := rfl
@[simp] theorem physSet_energy (s : State) (pa : Nat) (bs : List Byte) : (physSet s pa bs).energy = s.energy := rfl
@[simp] theorem physSet_outbox (s : State) (pa : Nat) (bs : List Byte) : (physSet s pa bs).outbox = s.outbox := rfl

/-! physMark -/

@[simp] theorem physMark_cur (s : State) (pa n : Nat) (b : Bool) : (physMark s pa n b).cur = s.cur := rfl
@[simp] theorem physMark_agenda (s : State) (pa n : Nat) (b : Bool) : (physMark s pa n b).agenda = s.agenda := rfl
@[simp] theorem physMark_choice (s : State) (pa n : Nat) (b : Bool) : (physMark s pa n b).choice = s.choice := rfl
@[simp] theorem physMark_fresh (s : State) (pa n : Nat) (b : Bool) : (physMark s pa n b).fresh = s.fresh := rfl
@[simp] theorem physMark_now (s : State) (pa n : Nat) (b : Bool) : (physMark s pa n b).now = s.now := rfl
@[simp] theorem physMark_moduleNo (s : State) (pa n : Nat) (b : Bool) : (physMark s pa n b).moduleNo = s.moduleNo := rfl
@[simp] theorem physMark_boot (s : State) (pa n : Nat) (b : Bool) : (physMark s pa n b).boot = s.boot := rfl
@[simp] theorem physMark_mem (s : State) (pa n : Nat) (b : Bool) : (physMark s pa n b).mem = s.mem := rfl
@[simp] theorem physMark_teams (s : State) (pa n : Nat) (b : Bool) : (physMark s pa n b).teams = s.teams := rfl
@[simp] theorem physMark_cores (s : State) (pa n : Nat) (b : Bool) : (physMark s pa n b).cores = s.cores := rfl
@[simp] theorem physMark_clusters (s : State) (pa n : Nat) (b : Bool) : (physMark s pa n b).clusters = s.clusters := rfl
@[simp] theorem physMark_ctxs (s : State) (pa n : Nat) (b : Bool) : (physMark s pa n b).ctxs = s.ctxs := rfl
@[simp] theorem physMark_launches (s : State) (pa n : Nat) (b : Bool) : (physMark s pa n b).launches = s.launches := rfl
@[simp] theorem physMark_nextLaunch (s : State) (pa n : Nat) (b : Bool) : (physMark s pa n b).nextLaunch = s.nextLaunch := rfl
@[simp] theorem physMark_parts (s : State) (pa n : Nat) (b : Bool) : (physMark s pa n b).parts = s.parts := rfl
@[simp] theorem physMark_asids (s : State) (pa n : Nat) (b : Bool) : (physMark s pa n b).asids = s.asids := rfl
@[simp] theorem physMark_reqs (s : State) (pa n : Nat) (b : Bool) : (physMark s pa n b).reqs = s.reqs := rfl
@[simp] theorem physMark_places (s : State) (pa n : Nat) (b : Bool) : (physMark s pa n b).places = s.places := rfl
@[simp] theorem physMark_served (s : State) (pa n : Nat) (b : Bool) : (physMark s pa n b).served = s.served := rfl
@[simp] theorem physMark_dup (s : State) (pa n : Nat) (b : Bool) : (physMark s pa n b).dup = s.dup := rfl
@[simp] theorem physMark_mails (s : State) (pa n : Nat) (b : Bool) : (physMark s pa n b).mails = s.mails := rfl
@[simp] theorem physMark_ctl (s : State) (pa n : Nat) (b : Bool) : (physMark s pa n b).ctl = s.ctl := rfl
@[simp] theorem physMark_halos (s : State) (pa n : Nat) (b : Bool) : (physMark s pa n b).halos = s.halos := rfl
@[simp] theorem physMark_far (s : State) (pa n : Nat) (b : Bool) : (physMark s pa n b).far = s.far := rfl
@[simp] theorem physMark_aged (s : State) (pa n : Nat) (b : Bool) : (physMark s pa n b).aged = s.aged := rfl
@[simp] theorem physMark_caltusQ (s : State) (pa n : Nat) (b : Bool) : (physMark s pa n b).caltusQ = s.caltusQ := rfl
@[simp] theorem physMark_caltusAt (s : State) (pa n : Nat) (b : Bool) : (physMark s pa n b).caltusAt = s.caltusAt := rfl
@[simp] theorem physMark_mailbox (s : State) (pa n : Nat) (b : Bool) : (physMark s pa n b).mailbox = s.mailbox := rfl
@[simp] theorem physMark_bootWhy (s : State) (pa n : Nat) (b : Bool) : (physMark s pa n b).bootWhy = s.bootWhy := rfl
@[simp] theorem physMark_covered (s : State) (pa n : Nat) (b : Bool) : (physMark s pa n b).covered = s.covered := rfl
@[simp] theorem physMark_coveredPsn (s : State) (pa n : Nat) (b : Bool) : (physMark s pa n b).coveredPsn = s.coveredPsn := rfl
@[simp] theorem physMark_jnet (s : State) (pa n : Nat) (b : Bool) : (physMark s pa n b).jnet = s.jnet := rfl
@[simp] theorem physMark_held (s : State) (pa n : Nat) (b : Bool) : (physMark s pa n b).held = s.held := rfl
@[simp] theorem physMark_heldRed (s : State) (pa n : Nat) (b : Bool) : (physMark s pa n b).heldRed = s.heldRed := rfl
@[simp] theorem physMark_gateways (s : State) (pa n : Nat) (b : Bool) : (physMark s pa n b).gateways = s.gateways := rfl
@[simp] theorem physMark_ports (s : State) (pa n : Nat) (b : Bool) : (physMark s pa n b).ports = s.ports := rfl
@[simp] theorem physMark_portRetries (s : State) (pa n : Nat) (b : Bool) : (physMark s pa n b).portRetries = s.portRetries := rfl
@[simp] theorem physMark_fabIn (s : State) (pa n : Nat) (b : Bool) : (physMark s pa n b).fabIn = s.fabIn := rfl
@[simp] theorem physMark_fabSent (s : State) (pa n : Nat) (b : Bool) : (physMark s pa n b).fabSent = s.fabSent := rfl
@[simp] theorem physMark_fabRecv (s : State) (pa n : Nat) (b : Bool) : (physMark s pa n b).fabRecv = s.fabRecv := rfl
@[simp] theorem physMark_fabNext (s : State) (pa n : Nat) (b : Bool) : (physMark s pa n b).fabNext = s.fabNext := rfl
@[simp] theorem physMark_hbm (s : State) (pa n : Nat) (b : Bool) : (physMark s pa n b).hbm = s.hbm := rfl
@[simp] theorem physMark_regions (s : State) (pa n : Nat) (b : Bool) : (physMark s pa n b).regions = s.regions := rfl
@[simp] theorem physMark_qps (s : State) (pa n : Nat) (b : Bool) : (physMark s pa n b).qps = s.qps := rfl
@[simp] theorem physMark_windows (s : State) (pa n : Nat) (b : Bool) : (physMark s pa n b).windows = s.windows := rfl
@[simp] theorem physMark_csrs (s : State) (pa n : Nat) (b : Bool) : (physMark s pa n b).csrs = s.csrs := rfl
@[simp] theorem physMark_keys (s : State) (pa n : Nat) (b : Bool) : (physMark s pa n b).keys = s.keys := rfl
@[simp] theorem physMark_keydat (s : State) (pa n : Nat) (b : Bool) : (physMark s pa n b).keydat = s.keydat := rfl
@[simp] theorem physMark_mregs (s : State) (pa n : Nat) (b : Bool) : (physMark s pa n b).mregs = s.mregs := rfl
@[simp] theorem physMark_fuses (s : State) (pa n : Nat) (b : Bool) : (physMark s pa n b).fuses = s.fuses := rfl
@[simp] theorem physMark_svcVersion (s : State) (pa n : Nat) (b : Bool) : (physMark s pa n b).svcVersion = s.svcVersion := rfl
@[simp] theorem physMark_sideSeq (s : State) (pa n : Nat) (b : Bool) : (physMark s pa n b).sideSeq = s.sideSeq := rfl
@[simp] theorem physMark_denied (s : State) (pa n : Nat) (b : Bool) : (physMark s pa n b).denied = s.denied := rfl
@[simp] theorem physMark_budget (s : State) (pa n : Nat) (b : Bool) : (physMark s pa n b).budget = s.budget := rfl
@[simp] theorem physMark_reserve (s : State) (pa n : Nat) (b : Bool) : (physMark s pa n b).reserve = s.reserve := rfl
@[simp] theorem physMark_energy (s : State) (pa n : Nat) (b : Bool) : (physMark s pa n b).energy = s.energy := rfl
@[simp] theorem physMark_outbox (s : State) (pa n : Nat) (b : Bool) : (physMark s pa n b).outbox = s.outbox := rfl

/-! modReq -/

@[simp] theorem modReq_cur (s : State) (rid : Rid) (f : MemReq → MemReq) : (modReq s rid f).cur = s.cur := rfl
@[simp] theorem modReq_agenda (s : State) (rid : Rid) (f : MemReq → MemReq) : (modReq s rid f).agenda = s.agenda := rfl
@[simp] theorem modReq_choice (s : State) (rid : Rid) (f : MemReq → MemReq) : (modReq s rid f).choice = s.choice := rfl
@[simp] theorem modReq_fresh (s : State) (rid : Rid) (f : MemReq → MemReq) : (modReq s rid f).fresh = s.fresh := rfl
@[simp] theorem modReq_now (s : State) (rid : Rid) (f : MemReq → MemReq) : (modReq s rid f).now = s.now := rfl
@[simp] theorem modReq_moduleNo (s : State) (rid : Rid) (f : MemReq → MemReq) : (modReq s rid f).moduleNo = s.moduleNo := rfl
@[simp] theorem modReq_boot (s : State) (rid : Rid) (f : MemReq → MemReq) : (modReq s rid f).boot = s.boot := rfl
@[simp] theorem modReq_mem (s : State) (rid : Rid) (f : MemReq → MemReq) : (modReq s rid f).mem = s.mem := rfl
@[simp] theorem modReq_memPsn (s : State) (rid : Rid) (f : MemReq → MemReq) : (modReq s rid f).memPsn = s.memPsn := rfl
@[simp] theorem modReq_teams (s : State) (rid : Rid) (f : MemReq → MemReq) : (modReq s rid f).teams = s.teams := rfl
@[simp] theorem modReq_cores (s : State) (rid : Rid) (f : MemReq → MemReq) : (modReq s rid f).cores = s.cores := rfl
@[simp] theorem modReq_clusters (s : State) (rid : Rid) (f : MemReq → MemReq) : (modReq s rid f).clusters = s.clusters := rfl
@[simp] theorem modReq_ctxs (s : State) (rid : Rid) (f : MemReq → MemReq) : (modReq s rid f).ctxs = s.ctxs := rfl
@[simp] theorem modReq_launches (s : State) (rid : Rid) (f : MemReq → MemReq) : (modReq s rid f).launches = s.launches := rfl
@[simp] theorem modReq_nextLaunch (s : State) (rid : Rid) (f : MemReq → MemReq) : (modReq s rid f).nextLaunch = s.nextLaunch := rfl
@[simp] theorem modReq_parts (s : State) (rid : Rid) (f : MemReq → MemReq) : (modReq s rid f).parts = s.parts := rfl
@[simp] theorem modReq_asids (s : State) (rid : Rid) (f : MemReq → MemReq) : (modReq s rid f).asids = s.asids := rfl
@[simp] theorem modReq_places (s : State) (rid : Rid) (f : MemReq → MemReq) : (modReq s rid f).places = s.places := rfl
@[simp] theorem modReq_served (s : State) (rid : Rid) (f : MemReq → MemReq) : (modReq s rid f).served = s.served := rfl
@[simp] theorem modReq_dup (s : State) (rid : Rid) (f : MemReq → MemReq) : (modReq s rid f).dup = s.dup := rfl
@[simp] theorem modReq_mails (s : State) (rid : Rid) (f : MemReq → MemReq) : (modReq s rid f).mails = s.mails := rfl
@[simp] theorem modReq_ctl (s : State) (rid : Rid) (f : MemReq → MemReq) : (modReq s rid f).ctl = s.ctl := rfl
@[simp] theorem modReq_halos (s : State) (rid : Rid) (f : MemReq → MemReq) : (modReq s rid f).halos = s.halos := rfl
@[simp] theorem modReq_far (s : State) (rid : Rid) (f : MemReq → MemReq) : (modReq s rid f).far = s.far := rfl
@[simp] theorem modReq_aged (s : State) (rid : Rid) (f : MemReq → MemReq) : (modReq s rid f).aged = s.aged := rfl
@[simp] theorem modReq_caltusQ (s : State) (rid : Rid) (f : MemReq → MemReq) : (modReq s rid f).caltusQ = s.caltusQ := rfl
@[simp] theorem modReq_caltusAt (s : State) (rid : Rid) (f : MemReq → MemReq) : (modReq s rid f).caltusAt = s.caltusAt := rfl
@[simp] theorem modReq_mailbox (s : State) (rid : Rid) (f : MemReq → MemReq) : (modReq s rid f).mailbox = s.mailbox := rfl
@[simp] theorem modReq_bootWhy (s : State) (rid : Rid) (f : MemReq → MemReq) : (modReq s rid f).bootWhy = s.bootWhy := rfl
@[simp] theorem modReq_covered (s : State) (rid : Rid) (f : MemReq → MemReq) : (modReq s rid f).covered = s.covered := rfl
@[simp] theorem modReq_coveredPsn (s : State) (rid : Rid) (f : MemReq → MemReq) : (modReq s rid f).coveredPsn = s.coveredPsn := rfl
@[simp] theorem modReq_jnet (s : State) (rid : Rid) (f : MemReq → MemReq) : (modReq s rid f).jnet = s.jnet := rfl
@[simp] theorem modReq_held (s : State) (rid : Rid) (f : MemReq → MemReq) : (modReq s rid f).held = s.held := rfl
@[simp] theorem modReq_heldRed (s : State) (rid : Rid) (f : MemReq → MemReq) : (modReq s rid f).heldRed = s.heldRed := rfl
@[simp] theorem modReq_gateways (s : State) (rid : Rid) (f : MemReq → MemReq) : (modReq s rid f).gateways = s.gateways := rfl
@[simp] theorem modReq_ports (s : State) (rid : Rid) (f : MemReq → MemReq) : (modReq s rid f).ports = s.ports := rfl
@[simp] theorem modReq_portRetries (s : State) (rid : Rid) (f : MemReq → MemReq) : (modReq s rid f).portRetries = s.portRetries := rfl
@[simp] theorem modReq_fabIn (s : State) (rid : Rid) (f : MemReq → MemReq) : (modReq s rid f).fabIn = s.fabIn := rfl
@[simp] theorem modReq_fabSent (s : State) (rid : Rid) (f : MemReq → MemReq) : (modReq s rid f).fabSent = s.fabSent := rfl
@[simp] theorem modReq_fabRecv (s : State) (rid : Rid) (f : MemReq → MemReq) : (modReq s rid f).fabRecv = s.fabRecv := rfl
@[simp] theorem modReq_fabNext (s : State) (rid : Rid) (f : MemReq → MemReq) : (modReq s rid f).fabNext = s.fabNext := rfl
@[simp] theorem modReq_hbm (s : State) (rid : Rid) (f : MemReq → MemReq) : (modReq s rid f).hbm = s.hbm := rfl
@[simp] theorem modReq_regions (s : State) (rid : Rid) (f : MemReq → MemReq) : (modReq s rid f).regions = s.regions := rfl
@[simp] theorem modReq_qps (s : State) (rid : Rid) (f : MemReq → MemReq) : (modReq s rid f).qps = s.qps := rfl
@[simp] theorem modReq_windows (s : State) (rid : Rid) (f : MemReq → MemReq) : (modReq s rid f).windows = s.windows := rfl
@[simp] theorem modReq_csrs (s : State) (rid : Rid) (f : MemReq → MemReq) : (modReq s rid f).csrs = s.csrs := rfl
@[simp] theorem modReq_keys (s : State) (rid : Rid) (f : MemReq → MemReq) : (modReq s rid f).keys = s.keys := rfl
@[simp] theorem modReq_keydat (s : State) (rid : Rid) (f : MemReq → MemReq) : (modReq s rid f).keydat = s.keydat := rfl
@[simp] theorem modReq_mregs (s : State) (rid : Rid) (f : MemReq → MemReq) : (modReq s rid f).mregs = s.mregs := rfl
@[simp] theorem modReq_fuses (s : State) (rid : Rid) (f : MemReq → MemReq) : (modReq s rid f).fuses = s.fuses := rfl
@[simp] theorem modReq_svcVersion (s : State) (rid : Rid) (f : MemReq → MemReq) : (modReq s rid f).svcVersion = s.svcVersion := rfl
@[simp] theorem modReq_sideSeq (s : State) (rid : Rid) (f : MemReq → MemReq) : (modReq s rid f).sideSeq = s.sideSeq := rfl
@[simp] theorem modReq_denied (s : State) (rid : Rid) (f : MemReq → MemReq) : (modReq s rid f).denied = s.denied := rfl
@[simp] theorem modReq_budget (s : State) (rid : Rid) (f : MemReq → MemReq) : (modReq s rid f).budget = s.budget := rfl
@[simp] theorem modReq_reserve (s : State) (rid : Rid) (f : MemReq → MemReq) : (modReq s rid f).reserve = s.reserve := rfl
@[simp] theorem modReq_energy (s : State) (rid : Rid) (f : MemReq → MemReq) : (modReq s rid f).energy = s.energy := rfl
@[simp] theorem modReq_outbox (s : State) (rid : Rid) (f : MemReq → MemReq) : (modReq s rid f).outbox = s.outbox := rfl

/-! delReq -/

@[simp] theorem delReq_cur (s : State) (rid : Rid) : (delReq s rid).cur = s.cur := rfl
@[simp] theorem delReq_agenda (s : State) (rid : Rid) : (delReq s rid).agenda = s.agenda := rfl
@[simp] theorem delReq_choice (s : State) (rid : Rid) : (delReq s rid).choice = s.choice := rfl
@[simp] theorem delReq_fresh (s : State) (rid : Rid) : (delReq s rid).fresh = s.fresh := rfl
@[simp] theorem delReq_now (s : State) (rid : Rid) : (delReq s rid).now = s.now := rfl
@[simp] theorem delReq_moduleNo (s : State) (rid : Rid) : (delReq s rid).moduleNo = s.moduleNo := rfl
@[simp] theorem delReq_boot (s : State) (rid : Rid) : (delReq s rid).boot = s.boot := rfl
@[simp] theorem delReq_mem (s : State) (rid : Rid) : (delReq s rid).mem = s.mem := rfl
@[simp] theorem delReq_memPsn (s : State) (rid : Rid) : (delReq s rid).memPsn = s.memPsn := rfl
@[simp] theorem delReq_teams (s : State) (rid : Rid) : (delReq s rid).teams = s.teams := rfl
@[simp] theorem delReq_cores (s : State) (rid : Rid) : (delReq s rid).cores = s.cores := rfl
@[simp] theorem delReq_clusters (s : State) (rid : Rid) : (delReq s rid).clusters = s.clusters := rfl
@[simp] theorem delReq_ctxs (s : State) (rid : Rid) : (delReq s rid).ctxs = s.ctxs := rfl
@[simp] theorem delReq_launches (s : State) (rid : Rid) : (delReq s rid).launches = s.launches := rfl
@[simp] theorem delReq_nextLaunch (s : State) (rid : Rid) : (delReq s rid).nextLaunch = s.nextLaunch := rfl
@[simp] theorem delReq_parts (s : State) (rid : Rid) : (delReq s rid).parts = s.parts := rfl
@[simp] theorem delReq_asids (s : State) (rid : Rid) : (delReq s rid).asids = s.asids := rfl
@[simp] theorem delReq_reqs (s : State) (rid : Rid) : (delReq s rid).reqs = s.reqs.filter fun r => r.rid != rid := rfl
@[simp] theorem delReq_places (s : State) (rid : Rid) : (delReq s rid).places = s.places := rfl
@[simp] theorem delReq_served (s : State) (rid : Rid) : (delReq s rid).served = s.served := rfl
@[simp] theorem delReq_dup (s : State) (rid : Rid) : (delReq s rid).dup = s.dup := rfl
@[simp] theorem delReq_mails (s : State) (rid : Rid) : (delReq s rid).mails = s.mails := rfl
@[simp] theorem delReq_ctl (s : State) (rid : Rid) : (delReq s rid).ctl = s.ctl := rfl
@[simp] theorem delReq_halos (s : State) (rid : Rid) : (delReq s rid).halos = s.halos := rfl
@[simp] theorem delReq_far (s : State) (rid : Rid) : (delReq s rid).far = s.far := rfl
@[simp] theorem delReq_aged (s : State) (rid : Rid) : (delReq s rid).aged = s.aged := rfl
@[simp] theorem delReq_caltusQ (s : State) (rid : Rid) : (delReq s rid).caltusQ = s.caltusQ := rfl
@[simp] theorem delReq_caltusAt (s : State) (rid : Rid) : (delReq s rid).caltusAt = s.caltusAt := rfl
@[simp] theorem delReq_mailbox (s : State) (rid : Rid) : (delReq s rid).mailbox = s.mailbox := rfl
@[simp] theorem delReq_bootWhy (s : State) (rid : Rid) : (delReq s rid).bootWhy = s.bootWhy := rfl
@[simp] theorem delReq_covered (s : State) (rid : Rid) : (delReq s rid).covered = s.covered := rfl
@[simp] theorem delReq_coveredPsn (s : State) (rid : Rid) : (delReq s rid).coveredPsn = s.coveredPsn := rfl
@[simp] theorem delReq_jnet (s : State) (rid : Rid) : (delReq s rid).jnet = s.jnet := rfl
@[simp] theorem delReq_held (s : State) (rid : Rid) : (delReq s rid).held = s.held := rfl
@[simp] theorem delReq_heldRed (s : State) (rid : Rid) : (delReq s rid).heldRed = s.heldRed := rfl
@[simp] theorem delReq_gateways (s : State) (rid : Rid) : (delReq s rid).gateways = s.gateways := rfl
@[simp] theorem delReq_ports (s : State) (rid : Rid) : (delReq s rid).ports = s.ports := rfl
@[simp] theorem delReq_portRetries (s : State) (rid : Rid) : (delReq s rid).portRetries = s.portRetries := rfl
@[simp] theorem delReq_fabIn (s : State) (rid : Rid) : (delReq s rid).fabIn = s.fabIn := rfl
@[simp] theorem delReq_fabSent (s : State) (rid : Rid) : (delReq s rid).fabSent = s.fabSent := rfl
@[simp] theorem delReq_fabRecv (s : State) (rid : Rid) : (delReq s rid).fabRecv = s.fabRecv := rfl
@[simp] theorem delReq_fabNext (s : State) (rid : Rid) : (delReq s rid).fabNext = s.fabNext := rfl
@[simp] theorem delReq_hbm (s : State) (rid : Rid) : (delReq s rid).hbm = s.hbm := rfl
@[simp] theorem delReq_regions (s : State) (rid : Rid) : (delReq s rid).regions = s.regions := rfl
@[simp] theorem delReq_qps (s : State) (rid : Rid) : (delReq s rid).qps = s.qps := rfl
@[simp] theorem delReq_windows (s : State) (rid : Rid) : (delReq s rid).windows = s.windows := rfl
@[simp] theorem delReq_csrs (s : State) (rid : Rid) : (delReq s rid).csrs = s.csrs := rfl
@[simp] theorem delReq_keys (s : State) (rid : Rid) : (delReq s rid).keys = s.keys := rfl
@[simp] theorem delReq_keydat (s : State) (rid : Rid) : (delReq s rid).keydat = s.keydat := rfl
@[simp] theorem delReq_mregs (s : State) (rid : Rid) : (delReq s rid).mregs = s.mregs := rfl
@[simp] theorem delReq_fuses (s : State) (rid : Rid) : (delReq s rid).fuses = s.fuses := rfl
@[simp] theorem delReq_svcVersion (s : State) (rid : Rid) : (delReq s rid).svcVersion = s.svcVersion := rfl
@[simp] theorem delReq_sideSeq (s : State) (rid : Rid) : (delReq s rid).sideSeq = s.sideSeq := rfl
@[simp] theorem delReq_denied (s : State) (rid : Rid) : (delReq s rid).denied = s.denied := rfl
@[simp] theorem delReq_budget (s : State) (rid : Rid) : (delReq s rid).budget = s.budget := rfl
@[simp] theorem delReq_reserve (s : State) (rid : Rid) : (delReq s rid).reserve = s.reserve := rfl
@[simp] theorem delReq_energy (s : State) (rid : Rid) : (delReq s rid).energy = s.energy := rfl
@[simp] theorem delReq_outbox (s : State) (rid : Rid) : (delReq s rid).outbox = s.outbox := rfl

/-! WCtx.put -/

@[simp] theorem WCtx.put_cur (c : WCtx) (W : Wave) : (c.put W).cur = c.s.cur := rfl
@[simp] theorem WCtx.put_agenda (c : WCtx) (W : Wave) : (c.put W).agenda = c.s.agenda := rfl
@[simp] theorem WCtx.put_choice (c : WCtx) (W : Wave) : (c.put W).choice = c.s.choice := rfl
@[simp] theorem WCtx.put_fresh (c : WCtx) (W : Wave) : (c.put W).fresh = c.s.fresh := rfl
@[simp] theorem WCtx.put_now (c : WCtx) (W : Wave) : (c.put W).now = c.s.now := rfl
@[simp] theorem WCtx.put_moduleNo (c : WCtx) (W : Wave) : (c.put W).moduleNo = c.s.moduleNo := rfl
@[simp] theorem WCtx.put_boot (c : WCtx) (W : Wave) : (c.put W).boot = c.s.boot := rfl
@[simp] theorem WCtx.put_mem (c : WCtx) (W : Wave) : (c.put W).mem = c.s.mem := rfl
@[simp] theorem WCtx.put_memPsn (c : WCtx) (W : Wave) : (c.put W).memPsn = c.s.memPsn := rfl
@[simp] theorem WCtx.put_teams (c : WCtx) (W : Wave) : (c.put W).teams = smSet c.s.teams c.t (c.T.setWave c.w W) := rfl
@[simp] theorem WCtx.put_cores (c : WCtx) (W : Wave) : (c.put W).cores = c.s.cores := rfl
@[simp] theorem WCtx.put_clusters (c : WCtx) (W : Wave) : (c.put W).clusters = c.s.clusters := rfl
@[simp] theorem WCtx.put_ctxs (c : WCtx) (W : Wave) : (c.put W).ctxs = c.s.ctxs := rfl
@[simp] theorem WCtx.put_launches (c : WCtx) (W : Wave) : (c.put W).launches = c.s.launches := rfl
@[simp] theorem WCtx.put_nextLaunch (c : WCtx) (W : Wave) : (c.put W).nextLaunch = c.s.nextLaunch := rfl
@[simp] theorem WCtx.put_parts (c : WCtx) (W : Wave) : (c.put W).parts = c.s.parts := rfl
@[simp] theorem WCtx.put_asids (c : WCtx) (W : Wave) : (c.put W).asids = c.s.asids := rfl
@[simp] theorem WCtx.put_reqs (c : WCtx) (W : Wave) : (c.put W).reqs = c.s.reqs := rfl
@[simp] theorem WCtx.put_places (c : WCtx) (W : Wave) : (c.put W).places = c.s.places := rfl
@[simp] theorem WCtx.put_served (c : WCtx) (W : Wave) : (c.put W).served = c.s.served := rfl
@[simp] theorem WCtx.put_dup (c : WCtx) (W : Wave) : (c.put W).dup = c.s.dup := rfl
@[simp] theorem WCtx.put_mails (c : WCtx) (W : Wave) : (c.put W).mails = c.s.mails := rfl
@[simp] theorem WCtx.put_ctl (c : WCtx) (W : Wave) : (c.put W).ctl = c.s.ctl := rfl
@[simp] theorem WCtx.put_halos (c : WCtx) (W : Wave) : (c.put W).halos = c.s.halos := rfl
@[simp] theorem WCtx.put_far (c : WCtx) (W : Wave) : (c.put W).far = c.s.far := rfl
@[simp] theorem WCtx.put_aged (c : WCtx) (W : Wave) : (c.put W).aged = c.s.aged := rfl
@[simp] theorem WCtx.put_caltusQ (c : WCtx) (W : Wave) : (c.put W).caltusQ = c.s.caltusQ := rfl
@[simp] theorem WCtx.put_caltusAt (c : WCtx) (W : Wave) : (c.put W).caltusAt = c.s.caltusAt := rfl
@[simp] theorem WCtx.put_mailbox (c : WCtx) (W : Wave) : (c.put W).mailbox = c.s.mailbox := rfl
@[simp] theorem WCtx.put_bootWhy (c : WCtx) (W : Wave) : (c.put W).bootWhy = c.s.bootWhy := rfl
@[simp] theorem WCtx.put_covered (c : WCtx) (W : Wave) : (c.put W).covered = c.s.covered := rfl
@[simp] theorem WCtx.put_coveredPsn (c : WCtx) (W : Wave) : (c.put W).coveredPsn = c.s.coveredPsn := rfl
@[simp] theorem WCtx.put_jnet (c : WCtx) (W : Wave) : (c.put W).jnet = c.s.jnet := rfl
@[simp] theorem WCtx.put_held (c : WCtx) (W : Wave) : (c.put W).held = c.s.held := rfl
@[simp] theorem WCtx.put_heldRed (c : WCtx) (W : Wave) : (c.put W).heldRed = c.s.heldRed := rfl
@[simp] theorem WCtx.put_gateways (c : WCtx) (W : Wave) : (c.put W).gateways = c.s.gateways := rfl
@[simp] theorem WCtx.put_ports (c : WCtx) (W : Wave) : (c.put W).ports = c.s.ports := rfl
@[simp] theorem WCtx.put_portRetries (c : WCtx) (W : Wave) : (c.put W).portRetries = c.s.portRetries := rfl
@[simp] theorem WCtx.put_fabIn (c : WCtx) (W : Wave) : (c.put W).fabIn = c.s.fabIn := rfl
@[simp] theorem WCtx.put_fabSent (c : WCtx) (W : Wave) : (c.put W).fabSent = c.s.fabSent := rfl
@[simp] theorem WCtx.put_fabRecv (c : WCtx) (W : Wave) : (c.put W).fabRecv = c.s.fabRecv := rfl
@[simp] theorem WCtx.put_fabNext (c : WCtx) (W : Wave) : (c.put W).fabNext = c.s.fabNext := rfl
@[simp] theorem WCtx.put_hbm (c : WCtx) (W : Wave) : (c.put W).hbm = c.s.hbm := rfl
@[simp] theorem WCtx.put_regions (c : WCtx) (W : Wave) : (c.put W).regions = c.s.regions := rfl
@[simp] theorem WCtx.put_qps (c : WCtx) (W : Wave) : (c.put W).qps = c.s.qps := rfl
@[simp] theorem WCtx.put_windows (c : WCtx) (W : Wave) : (c.put W).windows = c.s.windows := rfl
@[simp] theorem WCtx.put_csrs (c : WCtx) (W : Wave) : (c.put W).csrs = c.s.csrs := rfl
@[simp] theorem WCtx.put_keys (c : WCtx) (W : Wave) : (c.put W).keys = c.s.keys := rfl
@[simp] theorem WCtx.put_keydat (c : WCtx) (W : Wave) : (c.put W).keydat = c.s.keydat := rfl
@[simp] theorem WCtx.put_mregs (c : WCtx) (W : Wave) : (c.put W).mregs = c.s.mregs := rfl
@[simp] theorem WCtx.put_fuses (c : WCtx) (W : Wave) : (c.put W).fuses = c.s.fuses := rfl
@[simp] theorem WCtx.put_svcVersion (c : WCtx) (W : Wave) : (c.put W).svcVersion = c.s.svcVersion := rfl
@[simp] theorem WCtx.put_sideSeq (c : WCtx) (W : Wave) : (c.put W).sideSeq = c.s.sideSeq := rfl
@[simp] theorem WCtx.put_denied (c : WCtx) (W : Wave) : (c.put W).denied = c.s.denied := rfl
@[simp] theorem WCtx.put_budget (c : WCtx) (W : Wave) : (c.put W).budget = c.s.budget := rfl
@[simp] theorem WCtx.put_reserve (c : WCtx) (W : Wave) : (c.put W).reserve = c.s.reserve := rfl
@[simp] theorem WCtx.put_energy (c : WCtx) (W : Wave) : (c.put W).energy = c.s.energy := rfl
@[simp] theorem WCtx.put_outbox (c : WCtx) (W : Wave) : (c.put W).outbox = c.s.outbox := rfl

/-! WCtx.retire -/

@[simp] theorem WCtx.retire_cur (c : WCtx) (W : Wave) (b : Bool) : (c.retire W b).cur = c.s.cur := rfl
@[simp] theorem WCtx.retire_agenda (c : WCtx) (W : Wave) (b : Bool) : (c.retire W b).agenda = c.s.agenda := rfl
@[simp] theorem WCtx.retire_choice (c : WCtx) (W : Wave) (b : Bool) : (c.retire W b).choice = c.s.choice := rfl
@[simp] theorem WCtx.retire_fresh (c : WCtx) (W : Wave) (b : Bool) : (c.retire W b).fresh = c.s.fresh := rfl
@[simp] theorem WCtx.retire_now (c : WCtx) (W : Wave) (b : Bool) : (c.retire W b).now = c.s.now := rfl
@[simp] theorem WCtx.retire_moduleNo (c : WCtx) (W : Wave) (b : Bool) : (c.retire W b).moduleNo = c.s.moduleNo := rfl
@[simp] theorem WCtx.retire_boot (c : WCtx) (W : Wave) (b : Bool) : (c.retire W b).boot = c.s.boot := rfl
@[simp] theorem WCtx.retire_mem (c : WCtx) (W : Wave) (b : Bool) : (c.retire W b).mem = c.s.mem := rfl
@[simp] theorem WCtx.retire_memPsn (c : WCtx) (W : Wave) (b : Bool) : (c.retire W b).memPsn = c.s.memPsn := rfl
@[simp] theorem WCtx.retire_teams (c : WCtx) (W : Wave) (b : Bool) : (c.retire W b).teams = smSet c.s.teams c.t (c.T.setWave c.w (W.retire c.gang b)) := rfl
@[simp] theorem WCtx.retire_cores (c : WCtx) (W : Wave) (b : Bool) : (c.retire W b).cores = c.s.cores := rfl
@[simp] theorem WCtx.retire_clusters (c : WCtx) (W : Wave) (b : Bool) : (c.retire W b).clusters = c.s.clusters := rfl
@[simp] theorem WCtx.retire_ctxs (c : WCtx) (W : Wave) (b : Bool) : (c.retire W b).ctxs = c.s.ctxs := rfl
@[simp] theorem WCtx.retire_launches (c : WCtx) (W : Wave) (b : Bool) : (c.retire W b).launches = c.s.launches := rfl
@[simp] theorem WCtx.retire_nextLaunch (c : WCtx) (W : Wave) (b : Bool) : (c.retire W b).nextLaunch = c.s.nextLaunch := rfl
@[simp] theorem WCtx.retire_parts (c : WCtx) (W : Wave) (b : Bool) : (c.retire W b).parts = c.s.parts := rfl
@[simp] theorem WCtx.retire_asids (c : WCtx) (W : Wave) (b : Bool) : (c.retire W b).asids = c.s.asids := rfl
@[simp] theorem WCtx.retire_reqs (c : WCtx) (W : Wave) (b : Bool) : (c.retire W b).reqs = c.s.reqs := rfl
@[simp] theorem WCtx.retire_places (c : WCtx) (W : Wave) (b : Bool) : (c.retire W b).places = c.s.places := rfl
@[simp] theorem WCtx.retire_served (c : WCtx) (W : Wave) (b : Bool) : (c.retire W b).served = c.s.served := rfl
@[simp] theorem WCtx.retire_dup (c : WCtx) (W : Wave) (b : Bool) : (c.retire W b).dup = c.s.dup := rfl
@[simp] theorem WCtx.retire_mails (c : WCtx) (W : Wave) (b : Bool) : (c.retire W b).mails = c.s.mails := rfl
@[simp] theorem WCtx.retire_ctl (c : WCtx) (W : Wave) (b : Bool) : (c.retire W b).ctl = c.s.ctl := rfl
@[simp] theorem WCtx.retire_halos (c : WCtx) (W : Wave) (b : Bool) : (c.retire W b).halos = c.s.halos := rfl
@[simp] theorem WCtx.retire_far (c : WCtx) (W : Wave) (b : Bool) : (c.retire W b).far = c.s.far := rfl
@[simp] theorem WCtx.retire_aged (c : WCtx) (W : Wave) (b : Bool) : (c.retire W b).aged = c.s.aged := rfl
@[simp] theorem WCtx.retire_caltusQ (c : WCtx) (W : Wave) (b : Bool) : (c.retire W b).caltusQ = c.s.caltusQ := rfl
@[simp] theorem WCtx.retire_caltusAt (c : WCtx) (W : Wave) (b : Bool) : (c.retire W b).caltusAt = c.s.caltusAt := rfl
@[simp] theorem WCtx.retire_mailbox (c : WCtx) (W : Wave) (b : Bool) : (c.retire W b).mailbox = c.s.mailbox := rfl
@[simp] theorem WCtx.retire_bootWhy (c : WCtx) (W : Wave) (b : Bool) : (c.retire W b).bootWhy = c.s.bootWhy := rfl
@[simp] theorem WCtx.retire_covered (c : WCtx) (W : Wave) (b : Bool) : (c.retire W b).covered = c.s.covered := rfl
@[simp] theorem WCtx.retire_coveredPsn (c : WCtx) (W : Wave) (b : Bool) : (c.retire W b).coveredPsn = c.s.coveredPsn := rfl
@[simp] theorem WCtx.retire_jnet (c : WCtx) (W : Wave) (b : Bool) : (c.retire W b).jnet = c.s.jnet := rfl
@[simp] theorem WCtx.retire_held (c : WCtx) (W : Wave) (b : Bool) : (c.retire W b).held = c.s.held := rfl
@[simp] theorem WCtx.retire_heldRed (c : WCtx) (W : Wave) (b : Bool) : (c.retire W b).heldRed = c.s.heldRed := rfl
@[simp] theorem WCtx.retire_gateways (c : WCtx) (W : Wave) (b : Bool) : (c.retire W b).gateways = c.s.gateways := rfl
@[simp] theorem WCtx.retire_ports (c : WCtx) (W : Wave) (b : Bool) : (c.retire W b).ports = c.s.ports := rfl
@[simp] theorem WCtx.retire_portRetries (c : WCtx) (W : Wave) (b : Bool) : (c.retire W b).portRetries = c.s.portRetries := rfl
@[simp] theorem WCtx.retire_fabIn (c : WCtx) (W : Wave) (b : Bool) : (c.retire W b).fabIn = c.s.fabIn := rfl
@[simp] theorem WCtx.retire_fabSent (c : WCtx) (W : Wave) (b : Bool) : (c.retire W b).fabSent = c.s.fabSent := rfl
@[simp] theorem WCtx.retire_fabRecv (c : WCtx) (W : Wave) (b : Bool) : (c.retire W b).fabRecv = c.s.fabRecv := rfl
@[simp] theorem WCtx.retire_fabNext (c : WCtx) (W : Wave) (b : Bool) : (c.retire W b).fabNext = c.s.fabNext := rfl
@[simp] theorem WCtx.retire_hbm (c : WCtx) (W : Wave) (b : Bool) : (c.retire W b).hbm = c.s.hbm := rfl
@[simp] theorem WCtx.retire_regions (c : WCtx) (W : Wave) (b : Bool) : (c.retire W b).regions = c.s.regions := rfl
@[simp] theorem WCtx.retire_qps (c : WCtx) (W : Wave) (b : Bool) : (c.retire W b).qps = c.s.qps := rfl
@[simp] theorem WCtx.retire_windows (c : WCtx) (W : Wave) (b : Bool) : (c.retire W b).windows = c.s.windows := rfl
@[simp] theorem WCtx.retire_csrs (c : WCtx) (W : Wave) (b : Bool) : (c.retire W b).csrs = c.s.csrs := rfl
@[simp] theorem WCtx.retire_keys (c : WCtx) (W : Wave) (b : Bool) : (c.retire W b).keys = c.s.keys := rfl
@[simp] theorem WCtx.retire_keydat (c : WCtx) (W : Wave) (b : Bool) : (c.retire W b).keydat = c.s.keydat := rfl
@[simp] theorem WCtx.retire_mregs (c : WCtx) (W : Wave) (b : Bool) : (c.retire W b).mregs = c.s.mregs := rfl
@[simp] theorem WCtx.retire_fuses (c : WCtx) (W : Wave) (b : Bool) : (c.retire W b).fuses = c.s.fuses := rfl
@[simp] theorem WCtx.retire_svcVersion (c : WCtx) (W : Wave) (b : Bool) : (c.retire W b).svcVersion = c.s.svcVersion := rfl
@[simp] theorem WCtx.retire_sideSeq (c : WCtx) (W : Wave) (b : Bool) : (c.retire W b).sideSeq = c.s.sideSeq := rfl
@[simp] theorem WCtx.retire_denied (c : WCtx) (W : Wave) (b : Bool) : (c.retire W b).denied = c.s.denied := rfl
@[simp] theorem WCtx.retire_budget (c : WCtx) (W : Wave) (b : Bool) : (c.retire W b).budget = c.s.budget := rfl
@[simp] theorem WCtx.retire_reserve (c : WCtx) (W : Wave) (b : Bool) : (c.retire W b).reserve = c.s.reserve := rfl
@[simp] theorem WCtx.retire_energy (c : WCtx) (W : Wave) (b : Bool) : (c.retire W b).energy = c.s.energy := rfl
@[simp] theorem WCtx.retire_outbox (c : WCtx) (W : Wave) (b : Bool) : (c.retire W b).outbox = c.s.outbox := rfl

/-! KCtx.put -/

@[simp] theorem KCtx.put_cur (c : KCtx) (X : Ctx) : (c.put X).cur = c.s.cur := rfl
@[simp] theorem KCtx.put_agenda (c : KCtx) (X : Ctx) : (c.put X).agenda = c.s.agenda := rfl
@[simp] theorem KCtx.put_choice (c : KCtx) (X : Ctx) : (c.put X).choice = c.s.choice := rfl
@[simp] theorem KCtx.put_fresh (c : KCtx) (X : Ctx) : (c.put X).fresh = c.s.fresh := rfl
@[simp] theorem KCtx.put_now (c : KCtx) (X : Ctx) : (c.put X).now = c.s.now := rfl
@[simp] theorem KCtx.put_moduleNo (c : KCtx) (X : Ctx) : (c.put X).moduleNo = c.s.moduleNo := rfl
@[simp] theorem KCtx.put_boot (c : KCtx) (X : Ctx) : (c.put X).boot = c.s.boot := rfl
@[simp] theorem KCtx.put_mem (c : KCtx) (X : Ctx) : (c.put X).mem = c.s.mem := rfl
@[simp] theorem KCtx.put_memPsn (c : KCtx) (X : Ctx) : (c.put X).memPsn = c.s.memPsn := rfl
@[simp] theorem KCtx.put_teams (c : KCtx) (X : Ctx) : (c.put X).teams = c.s.teams := rfl
@[simp] theorem KCtx.put_cores (c : KCtx) (X : Ctx) : (c.put X).cores = c.s.cores := rfl
@[simp] theorem KCtx.put_clusters (c : KCtx) (X : Ctx) : (c.put X).clusters = c.s.clusters := rfl
@[simp] theorem KCtx.put_ctxs (c : KCtx) (X : Ctx) : (c.put X).ctxs = smSet c.s.ctxs c.x X := rfl
@[simp] theorem KCtx.put_launches (c : KCtx) (X : Ctx) : (c.put X).launches = c.s.launches := rfl
@[simp] theorem KCtx.put_nextLaunch (c : KCtx) (X : Ctx) : (c.put X).nextLaunch = c.s.nextLaunch := rfl
@[simp] theorem KCtx.put_parts (c : KCtx) (X : Ctx) : (c.put X).parts = c.s.parts := rfl
@[simp] theorem KCtx.put_asids (c : KCtx) (X : Ctx) : (c.put X).asids = c.s.asids := rfl
@[simp] theorem KCtx.put_reqs (c : KCtx) (X : Ctx) : (c.put X).reqs = c.s.reqs := rfl
@[simp] theorem KCtx.put_places (c : KCtx) (X : Ctx) : (c.put X).places = c.s.places := rfl
@[simp] theorem KCtx.put_served (c : KCtx) (X : Ctx) : (c.put X).served = c.s.served := rfl
@[simp] theorem KCtx.put_dup (c : KCtx) (X : Ctx) : (c.put X).dup = c.s.dup := rfl
@[simp] theorem KCtx.put_mails (c : KCtx) (X : Ctx) : (c.put X).mails = c.s.mails := rfl
@[simp] theorem KCtx.put_ctl (c : KCtx) (X : Ctx) : (c.put X).ctl = c.s.ctl := rfl
@[simp] theorem KCtx.put_halos (c : KCtx) (X : Ctx) : (c.put X).halos = c.s.halos := rfl
@[simp] theorem KCtx.put_far (c : KCtx) (X : Ctx) : (c.put X).far = c.s.far := rfl
@[simp] theorem KCtx.put_aged (c : KCtx) (X : Ctx) : (c.put X).aged = c.s.aged := rfl
@[simp] theorem KCtx.put_caltusQ (c : KCtx) (X : Ctx) : (c.put X).caltusQ = c.s.caltusQ := rfl
@[simp] theorem KCtx.put_caltusAt (c : KCtx) (X : Ctx) : (c.put X).caltusAt = c.s.caltusAt := rfl
@[simp] theorem KCtx.put_mailbox (c : KCtx) (X : Ctx) : (c.put X).mailbox = c.s.mailbox := rfl
@[simp] theorem KCtx.put_bootWhy (c : KCtx) (X : Ctx) : (c.put X).bootWhy = c.s.bootWhy := rfl
@[simp] theorem KCtx.put_covered (c : KCtx) (X : Ctx) : (c.put X).covered = c.s.covered := rfl
@[simp] theorem KCtx.put_coveredPsn (c : KCtx) (X : Ctx) : (c.put X).coveredPsn = c.s.coveredPsn := rfl
@[simp] theorem KCtx.put_jnet (c : KCtx) (X : Ctx) : (c.put X).jnet = c.s.jnet := rfl
@[simp] theorem KCtx.put_held (c : KCtx) (X : Ctx) : (c.put X).held = c.s.held := rfl
@[simp] theorem KCtx.put_heldRed (c : KCtx) (X : Ctx) : (c.put X).heldRed = c.s.heldRed := rfl
@[simp] theorem KCtx.put_gateways (c : KCtx) (X : Ctx) : (c.put X).gateways = c.s.gateways := rfl
@[simp] theorem KCtx.put_ports (c : KCtx) (X : Ctx) : (c.put X).ports = c.s.ports := rfl
@[simp] theorem KCtx.put_portRetries (c : KCtx) (X : Ctx) : (c.put X).portRetries = c.s.portRetries := rfl
@[simp] theorem KCtx.put_fabIn (c : KCtx) (X : Ctx) : (c.put X).fabIn = c.s.fabIn := rfl
@[simp] theorem KCtx.put_fabSent (c : KCtx) (X : Ctx) : (c.put X).fabSent = c.s.fabSent := rfl
@[simp] theorem KCtx.put_fabRecv (c : KCtx) (X : Ctx) : (c.put X).fabRecv = c.s.fabRecv := rfl
@[simp] theorem KCtx.put_fabNext (c : KCtx) (X : Ctx) : (c.put X).fabNext = c.s.fabNext := rfl
@[simp] theorem KCtx.put_hbm (c : KCtx) (X : Ctx) : (c.put X).hbm = c.s.hbm := rfl
@[simp] theorem KCtx.put_regions (c : KCtx) (X : Ctx) : (c.put X).regions = c.s.regions := rfl
@[simp] theorem KCtx.put_qps (c : KCtx) (X : Ctx) : (c.put X).qps = c.s.qps := rfl
@[simp] theorem KCtx.put_windows (c : KCtx) (X : Ctx) : (c.put X).windows = c.s.windows := rfl
@[simp] theorem KCtx.put_csrs (c : KCtx) (X : Ctx) : (c.put X).csrs = c.s.csrs := rfl
@[simp] theorem KCtx.put_keys (c : KCtx) (X : Ctx) : (c.put X).keys = c.s.keys := rfl
@[simp] theorem KCtx.put_keydat (c : KCtx) (X : Ctx) : (c.put X).keydat = c.s.keydat := rfl
@[simp] theorem KCtx.put_mregs (c : KCtx) (X : Ctx) : (c.put X).mregs = c.s.mregs := rfl
@[simp] theorem KCtx.put_fuses (c : KCtx) (X : Ctx) : (c.put X).fuses = c.s.fuses := rfl
@[simp] theorem KCtx.put_svcVersion (c : KCtx) (X : Ctx) : (c.put X).svcVersion = c.s.svcVersion := rfl
@[simp] theorem KCtx.put_sideSeq (c : KCtx) (X : Ctx) : (c.put X).sideSeq = c.s.sideSeq := rfl
@[simp] theorem KCtx.put_denied (c : KCtx) (X : Ctx) : (c.put X).denied = c.s.denied := rfl
@[simp] theorem KCtx.put_budget (c : KCtx) (X : Ctx) : (c.put X).budget = c.s.budget := rfl
@[simp] theorem KCtx.put_reserve (c : KCtx) (X : Ctx) : (c.put X).reserve = c.s.reserve := rfl
@[simp] theorem KCtx.put_energy (c : KCtx) (X : Ctx) : (c.put X).energy = c.s.energy := rfl
@[simp] theorem KCtx.put_outbox (c : KCtx) (X : Ctx) : (c.put X).outbox = c.s.outbox := rfl

/-! KCtx.retire -/

@[simp] theorem KCtx.retire_cur (c : KCtx) (X : Ctx) : (c.retire X).cur = c.s.cur := rfl
@[simp] theorem KCtx.retire_agenda (c : KCtx) (X : Ctx) : (c.retire X).agenda = c.s.agenda := rfl
@[simp] theorem KCtx.retire_choice (c : KCtx) (X : Ctx) : (c.retire X).choice = c.s.choice := rfl
@[simp] theorem KCtx.retire_fresh (c : KCtx) (X : Ctx) : (c.retire X).fresh = c.s.fresh := rfl
@[simp] theorem KCtx.retire_now (c : KCtx) (X : Ctx) : (c.retire X).now = c.s.now := rfl
@[simp] theorem KCtx.retire_moduleNo (c : KCtx) (X : Ctx) : (c.retire X).moduleNo = c.s.moduleNo := rfl
@[simp] theorem KCtx.retire_boot (c : KCtx) (X : Ctx) : (c.retire X).boot = c.s.boot := rfl
@[simp] theorem KCtx.retire_mem (c : KCtx) (X : Ctx) : (c.retire X).mem = c.s.mem := rfl
@[simp] theorem KCtx.retire_memPsn (c : KCtx) (X : Ctx) : (c.retire X).memPsn = c.s.memPsn := rfl
@[simp] theorem KCtx.retire_teams (c : KCtx) (X : Ctx) : (c.retire X).teams = c.s.teams := rfl
@[simp] theorem KCtx.retire_cores (c : KCtx) (X : Ctx) : (c.retire X).cores = c.s.cores := rfl
@[simp] theorem KCtx.retire_clusters (c : KCtx) (X : Ctx) : (c.retire X).clusters = c.s.clusters := rfl
@[simp] theorem KCtx.retire_launches (c : KCtx) (X : Ctx) : (c.retire X).launches = c.s.launches := rfl
@[simp] theorem KCtx.retire_nextLaunch (c : KCtx) (X : Ctx) : (c.retire X).nextLaunch = c.s.nextLaunch := rfl
@[simp] theorem KCtx.retire_parts (c : KCtx) (X : Ctx) : (c.retire X).parts = c.s.parts := rfl
@[simp] theorem KCtx.retire_asids (c : KCtx) (X : Ctx) : (c.retire X).asids = c.s.asids := rfl
@[simp] theorem KCtx.retire_reqs (c : KCtx) (X : Ctx) : (c.retire X).reqs = c.s.reqs := rfl
@[simp] theorem KCtx.retire_places (c : KCtx) (X : Ctx) : (c.retire X).places = c.s.places := rfl
@[simp] theorem KCtx.retire_served (c : KCtx) (X : Ctx) : (c.retire X).served = c.s.served := rfl
@[simp] theorem KCtx.retire_dup (c : KCtx) (X : Ctx) : (c.retire X).dup = c.s.dup := rfl
@[simp] theorem KCtx.retire_mails (c : KCtx) (X : Ctx) : (c.retire X).mails = c.s.mails := rfl
@[simp] theorem KCtx.retire_ctl (c : KCtx) (X : Ctx) : (c.retire X).ctl = c.s.ctl := rfl
@[simp] theorem KCtx.retire_halos (c : KCtx) (X : Ctx) : (c.retire X).halos = c.s.halos := rfl
@[simp] theorem KCtx.retire_far (c : KCtx) (X : Ctx) : (c.retire X).far = c.s.far := rfl
@[simp] theorem KCtx.retire_aged (c : KCtx) (X : Ctx) : (c.retire X).aged = c.s.aged := rfl
@[simp] theorem KCtx.retire_caltusQ (c : KCtx) (X : Ctx) : (c.retire X).caltusQ = c.s.caltusQ := rfl
@[simp] theorem KCtx.retire_caltusAt (c : KCtx) (X : Ctx) : (c.retire X).caltusAt = c.s.caltusAt := rfl
@[simp] theorem KCtx.retire_mailbox (c : KCtx) (X : Ctx) : (c.retire X).mailbox = c.s.mailbox := rfl
@[simp] theorem KCtx.retire_bootWhy (c : KCtx) (X : Ctx) : (c.retire X).bootWhy = c.s.bootWhy := rfl
@[simp] theorem KCtx.retire_covered (c : KCtx) (X : Ctx) : (c.retire X).covered = c.s.covered := rfl
@[simp] theorem KCtx.retire_coveredPsn (c : KCtx) (X : Ctx) : (c.retire X).coveredPsn = c.s.coveredPsn := rfl
@[simp] theorem KCtx.retire_jnet (c : KCtx) (X : Ctx) : (c.retire X).jnet = c.s.jnet := rfl
@[simp] theorem KCtx.retire_held (c : KCtx) (X : Ctx) : (c.retire X).held = c.s.held := rfl
@[simp] theorem KCtx.retire_heldRed (c : KCtx) (X : Ctx) : (c.retire X).heldRed = c.s.heldRed := rfl
@[simp] theorem KCtx.retire_gateways (c : KCtx) (X : Ctx) : (c.retire X).gateways = c.s.gateways := rfl
@[simp] theorem KCtx.retire_ports (c : KCtx) (X : Ctx) : (c.retire X).ports = c.s.ports := rfl
@[simp] theorem KCtx.retire_portRetries (c : KCtx) (X : Ctx) : (c.retire X).portRetries = c.s.portRetries := rfl
@[simp] theorem KCtx.retire_fabIn (c : KCtx) (X : Ctx) : (c.retire X).fabIn = c.s.fabIn := rfl
@[simp] theorem KCtx.retire_fabSent (c : KCtx) (X : Ctx) : (c.retire X).fabSent = c.s.fabSent := rfl
@[simp] theorem KCtx.retire_fabRecv (c : KCtx) (X : Ctx) : (c.retire X).fabRecv = c.s.fabRecv := rfl
@[simp] theorem KCtx.retire_fabNext (c : KCtx) (X : Ctx) : (c.retire X).fabNext = c.s.fabNext := rfl
@[simp] theorem KCtx.retire_hbm (c : KCtx) (X : Ctx) : (c.retire X).hbm = c.s.hbm := rfl
@[simp] theorem KCtx.retire_regions (c : KCtx) (X : Ctx) : (c.retire X).regions = c.s.regions := rfl
@[simp] theorem KCtx.retire_qps (c : KCtx) (X : Ctx) : (c.retire X).qps = c.s.qps := rfl
@[simp] theorem KCtx.retire_windows (c : KCtx) (X : Ctx) : (c.retire X).windows = c.s.windows := rfl
@[simp] theorem KCtx.retire_csrs (c : KCtx) (X : Ctx) : (c.retire X).csrs = c.s.csrs := rfl
@[simp] theorem KCtx.retire_keys (c : KCtx) (X : Ctx) : (c.retire X).keys = c.s.keys := rfl
@[simp] theorem KCtx.retire_keydat (c : KCtx) (X : Ctx) : (c.retire X).keydat = c.s.keydat := rfl
@[simp] theorem KCtx.retire_mregs (c : KCtx) (X : Ctx) : (c.retire X).mregs = c.s.mregs := rfl
@[simp] theorem KCtx.retire_fuses (c : KCtx) (X : Ctx) : (c.retire X).fuses = c.s.fuses := rfl
@[simp] theorem KCtx.retire_svcVersion (c : KCtx) (X : Ctx) : (c.retire X).svcVersion = c.s.svcVersion := rfl
@[simp] theorem KCtx.retire_sideSeq (c : KCtx) (X : Ctx) : (c.retire X).sideSeq = c.s.sideSeq := rfl
@[simp] theorem KCtx.retire_denied (c : KCtx) (X : Ctx) : (c.retire X).denied = c.s.denied := rfl
@[simp] theorem KCtx.retire_budget (c : KCtx) (X : Ctx) : (c.retire X).budget = c.s.budget := rfl
@[simp] theorem KCtx.retire_reserve (c : KCtx) (X : Ctx) : (c.retire X).reserve = c.s.reserve := rfl
@[simp] theorem KCtx.retire_energy (c : KCtx) (X : Ctx) : (c.retire X).energy = c.s.energy := rfl
@[simp] theorem KCtx.retire_outbox (c : KCtx) (X : Ctx) : (c.retire X).outbox = c.s.outbox := rfl

/-! Team.setWave -/

@[simp] theorem Team.setWave_serial (T : Team) (w : Nat) (W : Wave) : (T.setWave w W).serial = T.serial := rfl
@[simp] theorem Team.setWave_tag (T : Team) (w : Nat) (W : Wave) : (T.setWave w W).tag = T.tag := rfl
@[simp] theorem Team.setWave_launch (T : Team) (w : Nat) (W : Wave) : (T.setWave w W).launch = T.launch := rfl
@[simp] theorem Team.setWave_part (T : Team) (w : Nat) (W : Wave) : (T.setWave w W).part = T.part := rfl
@[simp] theorem Team.setWave_index (T : Team) (w : Nat) (W : Wave) : (T.setWave w W).index = T.index := rfl
@[simp] theorem Team.setWave_core (T : Team) (w : Nat) (W : Wave) : (T.setWave w W).core = T.core := rfl
@[simp] theorem Team.setWave_st (T : Team) (w : Nat) (W : Wave) : (T.setWave w W).st = T.st := rfl
@[simp] theorem Team.setWave_created (T : Team) (w : Nat) (W : Wave) : (T.setWave w W).created = T.created := rfl
@[simp] theorem Team.setWave_base (T : Team) (w : Nat) (W : Wave) : (T.setWave w W).base = T.base := rfl
@[simp] theorem Team.setWave_since (T : Team) (w : Nat) (W : Wave) : (T.setWave w W).since = T.since := rfl
@[simp] theorem Team.setWave_charged (T : Team) (w : Nat) (W : Wave) : (T.setWave w W).charged = T.charged := rfl
@[simp] theorem Team.setWave_nregs (T : Team) (w : Nat) (W : Wave) : (T.setWave w W).nregs = T.nregs := rfl
@[simp] theorem Team.setWave_nslices (T : Team) (w : Nat) (W : Wave) : (T.setWave w W).nslices = T.nslices := rfl
@[simp] theorem Team.setWave_nwaves (T : Team) (w : Nat) (W : Wave) : (T.setWave w W).nwaves = T.nwaves := rfl
@[simp] theorem Team.setWave_naccs (T : Team) (w : Nat) (W : Wave) : (T.setWave w W).naccs = T.naccs := rfl
@[simp] theorem Team.setWave_regions (T : Team) (w : Nat) (W : Wave) : (T.setWave w W).regions = T.regions := rfl
@[simp] theorem Team.setWave_secure (T : Team) (w : Nat) (W : Wave) : (T.setWave w W).secure = T.secure := rfl
@[simp] theorem Team.setWave_repro (T : Team) (w : Nat) (W : Wave) : (T.setWave w W).repro = T.repro := rfl
@[simp] theorem Team.setWave_asid (T : Team) (w : Nat) (W : Wave) : (T.setWave w W).asid = T.asid := rfl
@[simp] theorem Team.setWave_waves (T : Team) (w : Nat) (W : Wave) : (T.setWave w W).waves = setAt T.waves w W := rfl
@[simp] theorem Team.setWave_mp (T : Team) (w : Nat) (W : Wave) : (T.setWave w W).mp = T.mp := rfl
@[simp] theorem Team.setWave_np (T : Team) (w : Nat) (W : Wave) : (T.setWave w W).np = T.np := rfl
@[simp] theorem Team.setWave_fifos (T : Team) (w : Nat) (W : Wave) : (T.setWave w W).fifos = T.fifos := rfl
@[simp] theorem Team.setWave_tiles (T : Team) (w : Nat) (W : Wave) : (T.setWave w W).tiles = T.tiles := rfl
@[simp] theorem Team.setWave_tileSt (T : Team) (w : Nat) (W : Wave) : (T.setWave w W).tileSt = T.tileSt := rfl
@[simp] theorem Team.setWave_mxq (T : Team) (w : Nat) (W : Wave) : (T.setWave w W).mxq = T.mxq := rfl
@[simp] theorem Team.setWave_mxNext (T : Team) (w : Nat) (W : Wave) : (T.setWave w W).mxNext = T.mxNext := rfl
@[simp] theorem Team.setWave_mxBatch (T : Team) (w : Nat) (W : Wave) : (T.setWave w W).mxBatch = T.mxBatch := rfl
@[simp] theorem Team.setWave_mxTl (T : Team) (w : Nat) (W : Wave) : (T.setWave w W).mxTl = T.mxTl := rfl
@[simp] theorem Team.setWave_mxOut (T : Team) (w : Nat) (W : Wave) : (T.setWave w W).mxOut = T.mxOut := rfl
@[simp] theorem Team.setWave_issuedPlane (T : Team) (w : Nat) (W : Wave) : (T.setWave w W).issuedPlane = T.issuedPlane := rfl
@[simp] theorem Team.setWave_plane (T : Team) (w : Nat) (W : Wave) : (T.setWave w W).plane = T.plane := rfl
@[simp] theorem Team.setWave_planeData (T : Team) (w : Nat) (W : Wave) : (T.setWave w W).planeData = T.planeData := rfl
@[simp] theorem Team.setWave_copies (T : Team) (w : Nat) (W : Wave) : (T.setWave w W).copies = T.copies := rfl
@[simp] theorem Team.setWave_copyNum (T : Team) (w : Nat) (W : Wave) : (T.setWave w W).copyNum = T.copyNum := rfl
@[simp] theorem Team.setWave_copyTl (T : Team) (w : Nat) (W : Wave) : (T.setWave w W).copyTl = T.copyTl := rfl
@[simp] theorem Team.setWave_copyOut (T : Team) (w : Nat) (W : Wave) : (T.setWave w W).copyOut = T.copyOut := rfl
@[simp] theorem Team.setWave_chains (T : Team) (w : Nat) (W : Wave) : (T.setWave w W).chains = T.chains := rfl
@[simp] theorem Team.setWave_scratch (T : Team) (w : Nat) (W : Wave) : (T.setWave w W).scratch = T.scratch := rfl
@[simp] theorem Team.setWave_scratchPsn (T : Team) (w : Nat) (W : Wave) : (T.setWave w W).scratchPsn = T.scratchPsn := rfl
@[simp] theorem Team.setWave_regSt (T : Team) (w : Nat) (W : Wave) : (T.setWave w W).regSt = T.regSt := rfl
@[simp] theorem Team.setWave_ext (T : Team) (w : Nat) (W : Wave) : (T.setWave w W).ext = T.ext := rfl
@[simp] theorem Team.setWave_arena (T : Team) (w : Nat) (W : Wave) : (T.setWave w W).arena = T.arena := rfl
@[simp] theorem Team.setWave_closed (T : Team) (w : Nat) (W : Wave) : (T.setWave w W).closed = T.closed := rfl
@[simp] theorem Team.setWave_allocGen (T : Team) (w : Nat) (W : Wave) : (T.setWave w W).allocGen = T.allocGen := rfl
@[simp] theorem Team.setWave_image (T : Team) (w : Nat) (W : Wave) : (T.setWave w W).image = T.image := rfl
@[simp] theorem Team.setWave_ctxSaved (T : Team) (w : Nat) (W : Wave) : (T.setWave w W).ctxSaved = T.ctxSaved := rfl
@[simp] theorem Team.setWave_saved (T : Team) (w : Nat) (W : Wave) : (T.setWave w W).saved = T.saved := rfl
@[simp] theorem Team.setWave_filled (T : Team) (w : Nat) (W : Wave) : (T.setWave w W).filled = T.filled := rfl
@[simp] theorem Team.setWave_savedAt (T : Team) (w : Nat) (W : Wave) : (T.setWave w W).savedAt = T.savedAt := rfl
@[simp] theorem Team.setWave_killed (T : Team) (w : Nat) (W : Wave) : (T.setWave w W).killed = T.killed := rfl
@[simp] theorem Team.setWave_forced (T : Team) (w : Nat) (W : Wave) : (T.setWave w W).forced = T.forced := rfl

/-! Team.modChain -/

@[simp] theorem Team.modChain_serial (T : Team) (id : Nat) (f : Chain → Chain) : (T.modChain id f).serial = T.serial := rfl
@[simp] theorem Team.modChain_tag (T : Team) (id : Nat) (f : Chain → Chain) : (T.modChain id f).tag = T.tag := rfl
@[simp] theorem Team.modChain_launch (T : Team) (id : Nat) (f : Chain → Chain) : (T.modChain id f).launch = T.launch := rfl
@[simp] theorem Team.modChain_part (T : Team) (id : Nat) (f : Chain → Chain) : (T.modChain id f).part = T.part := rfl
@[simp] theorem Team.modChain_index (T : Team) (id : Nat) (f : Chain → Chain) : (T.modChain id f).index = T.index := rfl
@[simp] theorem Team.modChain_core (T : Team) (id : Nat) (f : Chain → Chain) : (T.modChain id f).core = T.core := rfl
@[simp] theorem Team.modChain_st (T : Team) (id : Nat) (f : Chain → Chain) : (T.modChain id f).st = T.st := rfl
@[simp] theorem Team.modChain_created (T : Team) (id : Nat) (f : Chain → Chain) : (T.modChain id f).created = T.created := rfl
@[simp] theorem Team.modChain_base (T : Team) (id : Nat) (f : Chain → Chain) : (T.modChain id f).base = T.base := rfl
@[simp] theorem Team.modChain_since (T : Team) (id : Nat) (f : Chain → Chain) : (T.modChain id f).since = T.since := rfl
@[simp] theorem Team.modChain_charged (T : Team) (id : Nat) (f : Chain → Chain) : (T.modChain id f).charged = T.charged := rfl
@[simp] theorem Team.modChain_nregs (T : Team) (id : Nat) (f : Chain → Chain) : (T.modChain id f).nregs = T.nregs := rfl
@[simp] theorem Team.modChain_nslices (T : Team) (id : Nat) (f : Chain → Chain) : (T.modChain id f).nslices = T.nslices := rfl
@[simp] theorem Team.modChain_nwaves (T : Team) (id : Nat) (f : Chain → Chain) : (T.modChain id f).nwaves = T.nwaves := rfl
@[simp] theorem Team.modChain_naccs (T : Team) (id : Nat) (f : Chain → Chain) : (T.modChain id f).naccs = T.naccs := rfl
@[simp] theorem Team.modChain_regions (T : Team) (id : Nat) (f : Chain → Chain) : (T.modChain id f).regions = T.regions := rfl
@[simp] theorem Team.modChain_secure (T : Team) (id : Nat) (f : Chain → Chain) : (T.modChain id f).secure = T.secure := rfl
@[simp] theorem Team.modChain_repro (T : Team) (id : Nat) (f : Chain → Chain) : (T.modChain id f).repro = T.repro := rfl
@[simp] theorem Team.modChain_asid (T : Team) (id : Nat) (f : Chain → Chain) : (T.modChain id f).asid = T.asid := rfl
@[simp] theorem Team.modChain_waves (T : Team) (id : Nat) (f : Chain → Chain) : (T.modChain id f).waves = T.waves := rfl
@[simp] theorem Team.modChain_mp (T : Team) (id : Nat) (f : Chain → Chain) : (T.modChain id f).mp = T.mp := rfl
@[simp] theorem Team.modChain_np (T : Team) (id : Nat) (f : Chain → Chain) : (T.modChain id f).np = T.np := rfl
@[simp] theorem Team.modChain_fifos (T : Team) (id : Nat) (f : Chain → Chain) : (T.modChain id f).fifos = T.fifos := rfl
@[simp] theorem Team.modChain_tiles (T : Team) (id : Nat) (f : Chain → Chain) : (T.modChain id f).tiles = T.tiles := rfl
@[simp] theorem Team.modChain_tileSt (T : Team) (id : Nat) (f : Chain → Chain) : (T.modChain id f).tileSt = T.tileSt := rfl
@[simp] theorem Team.modChain_mxq (T : Team) (id : Nat) (f : Chain → Chain) : (T.modChain id f).mxq = T.mxq := rfl
@[simp] theorem Team.modChain_mxNext (T : Team) (id : Nat) (f : Chain → Chain) : (T.modChain id f).mxNext = T.mxNext := rfl
@[simp] theorem Team.modChain_mxBatch (T : Team) (id : Nat) (f : Chain → Chain) : (T.modChain id f).mxBatch = T.mxBatch := rfl
@[simp] theorem Team.modChain_mxTl (T : Team) (id : Nat) (f : Chain → Chain) : (T.modChain id f).mxTl = T.mxTl := rfl
@[simp] theorem Team.modChain_mxOut (T : Team) (id : Nat) (f : Chain → Chain) : (T.modChain id f).mxOut = T.mxOut := rfl
@[simp] theorem Team.modChain_issuedPlane (T : Team) (id : Nat) (f : Chain → Chain) : (T.modChain id f).issuedPlane = T.issuedPlane := rfl
@[simp] theorem Team.modChain_plane (T : Team) (id : Nat) (f : Chain → Chain) : (T.modChain id f).plane = T.plane := rfl
@[simp] theorem Team.modChain_planeData (T : Team) (id : Nat) (f : Chain → Chain) : (T.modChain id f).planeData = T.planeData := rfl
@[simp] theorem Team.modChain_copies (T : Team) (id : Nat) (f : Chain → Chain) : (T.modChain id f).copies = T.copies := rfl
@[simp] theorem Team.modChain_copyNum (T : Team) (id : Nat) (f : Chain → Chain) : (T.modChain id f).copyNum = T.copyNum := rfl
@[simp] theorem Team.modChain_copyTl (T : Team) (id : Nat) (f : Chain → Chain) : (T.modChain id f).copyTl = T.copyTl := rfl
@[simp] theorem Team.modChain_copyOut (T : Team) (id : Nat) (f : Chain → Chain) : (T.modChain id f).copyOut = T.copyOut := rfl
@[simp] theorem Team.modChain_scratch (T : Team) (id : Nat) (f : Chain → Chain) : (T.modChain id f).scratch = T.scratch := rfl
@[simp] theorem Team.modChain_scratchPsn (T : Team) (id : Nat) (f : Chain → Chain) : (T.modChain id f).scratchPsn = T.scratchPsn := rfl
@[simp] theorem Team.modChain_regSt (T : Team) (id : Nat) (f : Chain → Chain) : (T.modChain id f).regSt = T.regSt := rfl
@[simp] theorem Team.modChain_ext (T : Team) (id : Nat) (f : Chain → Chain) : (T.modChain id f).ext = T.ext := rfl
@[simp] theorem Team.modChain_arena (T : Team) (id : Nat) (f : Chain → Chain) : (T.modChain id f).arena = T.arena := rfl
@[simp] theorem Team.modChain_closed (T : Team) (id : Nat) (f : Chain → Chain) : (T.modChain id f).closed = T.closed := rfl
@[simp] theorem Team.modChain_allocGen (T : Team) (id : Nat) (f : Chain → Chain) : (T.modChain id f).allocGen = T.allocGen := rfl
@[simp] theorem Team.modChain_image (T : Team) (id : Nat) (f : Chain → Chain) : (T.modChain id f).image = T.image := rfl
@[simp] theorem Team.modChain_ctxSaved (T : Team) (id : Nat) (f : Chain → Chain) : (T.modChain id f).ctxSaved = T.ctxSaved := rfl
@[simp] theorem Team.modChain_saved (T : Team) (id : Nat) (f : Chain → Chain) : (T.modChain id f).saved = T.saved := rfl
@[simp] theorem Team.modChain_filled (T : Team) (id : Nat) (f : Chain → Chain) : (T.modChain id f).filled = T.filled := rfl
@[simp] theorem Team.modChain_savedAt (T : Team) (id : Nat) (f : Chain → Chain) : (T.modChain id f).savedAt = T.savedAt := rfl
@[simp] theorem Team.modChain_killed (T : Team) (id : Nat) (f : Chain → Chain) : (T.modChain id f).killed = T.killed := rfl
@[simp] theorem Team.modChain_forced (T : Team) (id : Nat) (f : Chain → Chain) : (T.modChain id f).forced = T.forced := rfl

/-! Wave.mapGang -/

@[simp] theorem Wave.mapGang_v (W : Wave) (g : BitVec 8) (f : Nat → Slice → Slice) : (W.mapGang g f).v = W.v := rfl
@[simp] theorem Wave.mapGang_s (W : Wave) (g : BitVec 8) (f : Nat → Slice → Slice) : (W.mapGang g f).s = W.s := rfl
@[simp] theorem Wave.mapGang_p (W : Wave) (g : BitVec 8) (f : Nat → Slice → Slice) : (W.mapGang g f).p = W.p := rfl
@[simp] theorem Wave.mapGang_vpoison (W : Wave) (g : BitVec 8) (f : Nat → Slice → Slice) : (W.mapGang g f).vpoison = W.vpoison := rfl
@[simp] theorem Wave.mapGang_spoison (W : Wave) (g : BitVec 8) (f : Nat → Slice → Slice) : (W.mapGang g f).spoison = W.spoison := rfl
@[simp] theorem Wave.mapGang_cause (W : Wave) (g : BitVec 8) (f : Nat → Slice → Slice) : (W.mapGang g f).cause = W.cause := rfl
@[simp] theorem Wave.mapGang_wepc (W : Wave) (g : BitVec 8) (f : Nat → Slice → Slice) : (W.mapGang g f).wepc = W.wepc := rfl
@[simp] theorem Wave.mapGang_wpark (W : Wave) (g : BitVec 8) (f : Nat → Slice → Slice) : (W.mapGang g f).wpark = W.wpark := rfl
@[simp] theorem Wave.mapGang_wtraparg (W : Wave) (g : BitVec 8) (f : Nat → Slice → Slice) : (W.mapGang g f).wtraparg = W.wtraparg := rfl
@[simp] theorem Wave.mapGang_whandler (W : Wave) (g : BitVec 8) (f : Nat → Slice → Slice) : (W.mapGang g f).whandler = W.whandler := rfl
@[simp] theorem Wave.mapGang_cte (W : Wave) (g : BitVec 8) (f : Nat → Slice → Slice) : (W.mapGang g f).cte = W.cte := rfl
@[simp] theorem Wave.mapGang_intrap (W : Wave) (g : BitVec 8) (f : Nat → Slice → Slice) : (W.mapGang g f).intrap = W.intrap := rfl
@[simp] theorem Wave.mapGang_defer (W : Wave) (g : BitVec 8) (f : Nat → Slice → Slice) : (W.mapGang g f).defer = W.defer := rfl
@[simp] theorem Wave.mapGang_wclock (W : Wave) (g : BitVec 8) (f : Nat → Slice → Slice) : (W.mapGang g f).wclock = W.wclock := rfl
@[simp] theorem Wave.mapGang_fpctl (W : Wave) (g : BitVec 8) (f : Nat → Slice → Slice) : (W.mapGang g f).fpctl = W.fpctl := rfl
@[simp] theorem Wave.mapGang_mbdest (W : Wave) (g : BitVec 8) (f : Nat → Slice → Slice) : (W.mapGang g f).mbdest = W.mbdest := rfl
@[simp] theorem Wave.mapGang_trapGang (W : Wave) (g : BitVec 8) (f : Nat → Slice → Slice) : (W.mapGang g f).trapGang = W.trapGang := rfl
@[simp] theorem Wave.mapGang_parkGang (W : Wave) (g : BitVec 8) (f : Nat → Slice → Slice) : (W.mapGang g f).parkGang = W.parkGang := rfl
@[simp] theorem Wave.mapGang_parked (W : Wave) (g : BitVec 8) (f : Nat → Slice → Slice) : (W.mapGang g f).parked = W.parked := rfl
@[simp] theorem Wave.mapGang_replay (W : Wave) (g : BitVec 8) (f : Nat → Slice → Slice) : (W.mapGang g f).replay = W.replay := rfl
@[simp] theorem Wave.mapGang_parks (W : Wave) (g : BitVec 8) (f : Nat → Slice → Slice) : (W.mapGang g f).parks = W.parks := rfl
@[simp] theorem Wave.mapGang_parkAcc (W : Wave) (g : BitVec 8) (f : Nat → Slice → Slice) : (W.mapGang g f).parkAcc = W.parkAcc := rfl
@[simp] theorem Wave.mapGang_stamp (W : Wave) (g : BitVec 8) (f : Nat → Slice → Slice) : (W.mapGang g f).stamp = W.stamp := rfl
@[simp] theorem Wave.mapGang_lastGang (W : Wave) (g : BitVec 8) (f : Nat → Slice → Slice) : (W.mapGang g f).lastGang = W.lastGang := rfl
@[simp] theorem Wave.mapGang_blockedAt (W : Wave) (g : BitVec 8) (f : Nat → Slice → Slice) : (W.mapGang g f).blockedAt = W.blockedAt := rfl
@[simp] theorem Wave.mapGang_blockTh (W : Wave) (g : BitVec 8) (f : Nat → Slice → Slice) : (W.mapGang g f).blockTh = W.blockTh := rfl
@[simp] theorem Wave.mapGang_mbox (W : Wave) (g : BitVec 8) (f : Nat → Slice → Slice) : (W.mapGang g f).mbox = W.mbox := rfl
@[simp] theorem Wave.mapGang_mbReserved (W : Wave) (g : BitVec 8) (f : Nat → Slice → Slice) : (W.mapGang g f).mbReserved = W.mbReserved := rfl
@[simp] theorem Wave.mapGang_storeQ (W : Wave) (g : BitVec 8) (f : Nat → Slice → Slice) : (W.mapGang g f).storeQ = W.storeQ := rfl
@[simp] theorem Wave.mapGang_owc (W : Wave) (g : BitVec 8) (f : Nat → Slice → Slice) : (W.mapGang g f).owc = W.owc := rfl
@[simp] theorem Wave.mapGang_busy (W : Wave) (g : BitVec 8) (f : Nat → Slice → Slice) : (W.mapGang g f).busy = W.busy := rfl
@[simp] theorem Wave.mapGang_slots (W : Wave) (g : BitVec 8) (f : Nat → Slice → Slice) : (W.mapGang g f).slots = W.slots := rfl
@[simp] theorem Wave.mapGang_sending (W : Wave) (g : BitVec 8) (f : Nat → Slice → Slice) : (W.mapGang g f).sending = W.sending := rfl
@[simp] theorem Wave.mapGang_resendAt (W : Wave) (g : BitVec 8) (f : Nat → Slice → Slice) : (W.mapGang g f).resendAt = W.resendAt := rfl
@[simp] theorem Wave.mapGang_refused (W : Wave) (g : BitVec 8) (f : Nat → Slice → Slice) : (W.mapGang g f).refused = W.refused := rfl
@[simp] theorem Wave.mapGang_descs (W : Wave) (g : BitVec 8) (f : Nat → Slice → Slice) : (W.mapGang g f).descs = W.descs := rfl
@[simp] theorem Wave.mapGang_taken (W : Wave) (g : BitVec 8) (f : Nat → Slice → Slice) : (W.mapGang g f).taken = W.taken := rfl
@[simp] theorem Wave.mapGang_late (W : Wave) (g : BitVec 8) (f : Nat → Slice → Slice) : (W.mapGang g f).late = W.late := rfl
@[simp] theorem Wave.mapGang_ordered (W : Wave) (g : BitVec 8) (f : Nat → Slice → Slice) : (W.mapGang g f).ordered = W.ordered := rfl

/-! Wave.regroup -/

@[simp] theorem Wave.regroup_v (W : Wave) (g : BitVec 8) : (W.regroup g).v = W.v := rfl
@[simp] theorem Wave.regroup_s (W : Wave) (g : BitVec 8) : (W.regroup g).s = W.s := rfl
@[simp] theorem Wave.regroup_p (W : Wave) (g : BitVec 8) : (W.regroup g).p = W.p := rfl
@[simp] theorem Wave.regroup_vpoison (W : Wave) (g : BitVec 8) : (W.regroup g).vpoison = W.vpoison := rfl
@[simp] theorem Wave.regroup_spoison (W : Wave) (g : BitVec 8) : (W.regroup g).spoison = W.spoison := rfl
@[simp] theorem Wave.regroup_cause (W : Wave) (g : BitVec 8) : (W.regroup g).cause = W.cause := rfl
@[simp] theorem Wave.regroup_wepc (W : Wave) (g : BitVec 8) : (W.regroup g).wepc = W.wepc := rfl
@[simp] theorem Wave.regroup_wpark (W : Wave) (g : BitVec 8) : (W.regroup g).wpark = W.wpark := rfl
@[simp] theorem Wave.regroup_wtraparg (W : Wave) (g : BitVec 8) : (W.regroup g).wtraparg = W.wtraparg := rfl
@[simp] theorem Wave.regroup_whandler (W : Wave) (g : BitVec 8) : (W.regroup g).whandler = W.whandler := rfl
@[simp] theorem Wave.regroup_cte (W : Wave) (g : BitVec 8) : (W.regroup g).cte = W.cte := rfl
@[simp] theorem Wave.regroup_intrap (W : Wave) (g : BitVec 8) : (W.regroup g).intrap = W.intrap := rfl
@[simp] theorem Wave.regroup_defer (W : Wave) (g : BitVec 8) : (W.regroup g).defer = W.defer := rfl
@[simp] theorem Wave.regroup_wclock (W : Wave) (g : BitVec 8) : (W.regroup g).wclock = W.wclock := rfl
@[simp] theorem Wave.regroup_fpctl (W : Wave) (g : BitVec 8) : (W.regroup g).fpctl = W.fpctl := rfl
@[simp] theorem Wave.regroup_mbdest (W : Wave) (g : BitVec 8) : (W.regroup g).mbdest = W.mbdest := rfl
@[simp] theorem Wave.regroup_trapGang (W : Wave) (g : BitVec 8) : (W.regroup g).trapGang = W.trapGang := rfl
@[simp] theorem Wave.regroup_parkGang (W : Wave) (g : BitVec 8) : (W.regroup g).parkGang = W.parkGang := rfl
@[simp] theorem Wave.regroup_parked (W : Wave) (g : BitVec 8) : (W.regroup g).parked = W.parked := rfl
@[simp] theorem Wave.regroup_replay (W : Wave) (g : BitVec 8) : (W.regroup g).replay = W.replay := rfl
@[simp] theorem Wave.regroup_parks (W : Wave) (g : BitVec 8) : (W.regroup g).parks = W.parks := rfl
@[simp] theorem Wave.regroup_parkAcc (W : Wave) (g : BitVec 8) : (W.regroup g).parkAcc = W.parkAcc := rfl
@[simp] theorem Wave.regroup_stamp (W : Wave) (g : BitVec 8) : (W.regroup g).stamp = W.stamp := rfl
@[simp] theorem Wave.regroup_lastGang (W : Wave) (g : BitVec 8) : (W.regroup g).lastGang = W.lastGang := rfl
@[simp] theorem Wave.regroup_blockedAt (W : Wave) (g : BitVec 8) : (W.regroup g).blockedAt = W.blockedAt := rfl
@[simp] theorem Wave.regroup_blockTh (W : Wave) (g : BitVec 8) : (W.regroup g).blockTh = W.blockTh := rfl
@[simp] theorem Wave.regroup_mbox (W : Wave) (g : BitVec 8) : (W.regroup g).mbox = W.mbox := rfl
@[simp] theorem Wave.regroup_mbReserved (W : Wave) (g : BitVec 8) : (W.regroup g).mbReserved = W.mbReserved := rfl
@[simp] theorem Wave.regroup_storeQ (W : Wave) (g : BitVec 8) : (W.regroup g).storeQ = W.storeQ := rfl
@[simp] theorem Wave.regroup_owc (W : Wave) (g : BitVec 8) : (W.regroup g).owc = W.owc := rfl
@[simp] theorem Wave.regroup_busy (W : Wave) (g : BitVec 8) : (W.regroup g).busy = W.busy := rfl
@[simp] theorem Wave.regroup_slots (W : Wave) (g : BitVec 8) : (W.regroup g).slots = W.slots := rfl
@[simp] theorem Wave.regroup_sending (W : Wave) (g : BitVec 8) : (W.regroup g).sending = W.sending := rfl
@[simp] theorem Wave.regroup_resendAt (W : Wave) (g : BitVec 8) : (W.regroup g).resendAt = W.resendAt := rfl
@[simp] theorem Wave.regroup_refused (W : Wave) (g : BitVec 8) : (W.regroup g).refused = W.refused := rfl
@[simp] theorem Wave.regroup_descs (W : Wave) (g : BitVec 8) : (W.regroup g).descs = W.descs := rfl
@[simp] theorem Wave.regroup_taken (W : Wave) (g : BitVec 8) : (W.regroup g).taken = W.taken := rfl
@[simp] theorem Wave.regroup_late (W : Wave) (g : BitVec 8) : (W.regroup g).late = W.late := rfl
@[simp] theorem Wave.regroup_ordered (W : Wave) (g : BitVec 8) : (W.regroup g).ordered = W.ordered := rfl

/-! Wave.holdGang -/

@[simp] theorem Wave.holdGang_v (W : Wave) (g : BitVec 8) (h : Hold) : (W.holdGang g h).v = W.v := rfl
@[simp] theorem Wave.holdGang_s (W : Wave) (g : BitVec 8) (h : Hold) : (W.holdGang g h).s = W.s := rfl
@[simp] theorem Wave.holdGang_p (W : Wave) (g : BitVec 8) (h : Hold) : (W.holdGang g h).p = W.p := rfl
@[simp] theorem Wave.holdGang_vpoison (W : Wave) (g : BitVec 8) (h : Hold) : (W.holdGang g h).vpoison = W.vpoison := rfl
@[simp] theorem Wave.holdGang_spoison (W : Wave) (g : BitVec 8) (h : Hold) : (W.holdGang g h).spoison = W.spoison := rfl
@[simp] theorem Wave.holdGang_cause (W : Wave) (g : BitVec 8) (h : Hold) : (W.holdGang g h).cause = W.cause := rfl
@[simp] theorem Wave.holdGang_wepc (W : Wave) (g : BitVec 8) (h : Hold) : (W.holdGang g h).wepc = W.wepc := rfl
@[simp] theorem Wave.holdGang_wpark (W : Wave) (g : BitVec 8) (h : Hold) : (W.holdGang g h).wpark = W.wpark := rfl
@[simp] theorem Wave.holdGang_wtraparg (W : Wave) (g : BitVec 8) (h : Hold) : (W.holdGang g h).wtraparg = W.wtraparg := rfl
@[simp] theorem Wave.holdGang_whandler (W : Wave) (g : BitVec 8) (h : Hold) : (W.holdGang g h).whandler = W.whandler := rfl
@[simp] theorem Wave.holdGang_cte (W : Wave) (g : BitVec 8) (h : Hold) : (W.holdGang g h).cte = W.cte := rfl
@[simp] theorem Wave.holdGang_intrap (W : Wave) (g : BitVec 8) (h : Hold) : (W.holdGang g h).intrap = W.intrap := rfl
@[simp] theorem Wave.holdGang_defer (W : Wave) (g : BitVec 8) (h : Hold) : (W.holdGang g h).defer = W.defer := rfl
@[simp] theorem Wave.holdGang_wclock (W : Wave) (g : BitVec 8) (h : Hold) : (W.holdGang g h).wclock = W.wclock := rfl
@[simp] theorem Wave.holdGang_fpctl (W : Wave) (g : BitVec 8) (h : Hold) : (W.holdGang g h).fpctl = W.fpctl := rfl
@[simp] theorem Wave.holdGang_mbdest (W : Wave) (g : BitVec 8) (h : Hold) : (W.holdGang g h).mbdest = W.mbdest := rfl
@[simp] theorem Wave.holdGang_trapGang (W : Wave) (g : BitVec 8) (h : Hold) : (W.holdGang g h).trapGang = W.trapGang := rfl
@[simp] theorem Wave.holdGang_parkGang (W : Wave) (g : BitVec 8) (h : Hold) : (W.holdGang g h).parkGang = W.parkGang := rfl
@[simp] theorem Wave.holdGang_parked (W : Wave) (g : BitVec 8) (h : Hold) : (W.holdGang g h).parked = W.parked := rfl
@[simp] theorem Wave.holdGang_replay (W : Wave) (g : BitVec 8) (h : Hold) : (W.holdGang g h).replay = W.replay := rfl
@[simp] theorem Wave.holdGang_parks (W : Wave) (g : BitVec 8) (h : Hold) : (W.holdGang g h).parks = W.parks := rfl
@[simp] theorem Wave.holdGang_parkAcc (W : Wave) (g : BitVec 8) (h : Hold) : (W.holdGang g h).parkAcc = W.parkAcc := rfl
@[simp] theorem Wave.holdGang_stamp (W : Wave) (g : BitVec 8) (h : Hold) : (W.holdGang g h).stamp = W.stamp := rfl
@[simp] theorem Wave.holdGang_lastGang (W : Wave) (g : BitVec 8) (h : Hold) : (W.holdGang g h).lastGang = W.lastGang := rfl
@[simp] theorem Wave.holdGang_blockedAt (W : Wave) (g : BitVec 8) (h : Hold) : (W.holdGang g h).blockedAt = W.blockedAt := rfl
@[simp] theorem Wave.holdGang_blockTh (W : Wave) (g : BitVec 8) (h : Hold) : (W.holdGang g h).blockTh = W.blockTh := rfl
@[simp] theorem Wave.holdGang_mbox (W : Wave) (g : BitVec 8) (h : Hold) : (W.holdGang g h).mbox = W.mbox := rfl
@[simp] theorem Wave.holdGang_mbReserved (W : Wave) (g : BitVec 8) (h : Hold) : (W.holdGang g h).mbReserved = W.mbReserved := rfl
@[simp] theorem Wave.holdGang_storeQ (W : Wave) (g : BitVec 8) (h : Hold) : (W.holdGang g h).storeQ = W.storeQ := rfl
@[simp] theorem Wave.holdGang_owc (W : Wave) (g : BitVec 8) (h : Hold) : (W.holdGang g h).owc = W.owc := rfl
@[simp] theorem Wave.holdGang_busy (W : Wave) (g : BitVec 8) (h : Hold) : (W.holdGang g h).busy = W.busy := rfl
@[simp] theorem Wave.holdGang_slots (W : Wave) (g : BitVec 8) (h : Hold) : (W.holdGang g h).slots = W.slots := rfl
@[simp] theorem Wave.holdGang_sending (W : Wave) (g : BitVec 8) (h : Hold) : (W.holdGang g h).sending = W.sending := rfl
@[simp] theorem Wave.holdGang_resendAt (W : Wave) (g : BitVec 8) (h : Hold) : (W.holdGang g h).resendAt = W.resendAt := rfl
@[simp] theorem Wave.holdGang_refused (W : Wave) (g : BitVec 8) (h : Hold) : (W.holdGang g h).refused = W.refused := rfl
@[simp] theorem Wave.holdGang_descs (W : Wave) (g : BitVec 8) (h : Hold) : (W.holdGang g h).descs = W.descs := rfl
@[simp] theorem Wave.holdGang_taken (W : Wave) (g : BitVec 8) (h : Hold) : (W.holdGang g h).taken = W.taken := rfl
@[simp] theorem Wave.holdGang_late (W : Wave) (g : BitVec 8) (h : Hold) : (W.holdGang g h).late = W.late := rfl
@[simp] theorem Wave.holdGang_ordered (W : Wave) (g : BitVec 8) (h : Hold) : (W.holdGang g h).ordered = W.ordered := rfl

/-! Wave.retireTo -/

@[simp] theorem Wave.retireTo_v (W : Wave) (g : BitVec 8) (f : Nat → Slice → Slice) : (W.retireTo g f).v = W.v := rfl
@[simp] theorem Wave.retireTo_s (W : Wave) (g : BitVec 8) (f : Nat → Slice → Slice) : (W.retireTo g f).s = W.s := rfl
@[simp] theorem Wave.retireTo_p (W : Wave) (g : BitVec 8) (f : Nat → Slice → Slice) : (W.retireTo g f).p = W.p := rfl
@[simp] theorem Wave.retireTo_vpoison (W : Wave) (g : BitVec 8) (f : Nat → Slice → Slice) : (W.retireTo g f).vpoison = W.vpoison := rfl
@[simp] theorem Wave.retireTo_spoison (W : Wave) (g : BitVec 8) (f : Nat → Slice → Slice) : (W.retireTo g f).spoison = W.spoison := rfl
@[simp] theorem Wave.retireTo_cause (W : Wave) (g : BitVec 8) (f : Nat → Slice → Slice) : (W.retireTo g f).cause = W.cause := rfl
@[simp] theorem Wave.retireTo_wepc (W : Wave) (g : BitVec 8) (f : Nat → Slice → Slice) : (W.retireTo g f).wepc = W.wepc := rfl
@[simp] theorem Wave.retireTo_wtraparg (W : Wave) (g : BitVec 8) (f : Nat → Slice → Slice) : (W.retireTo g f).wtraparg = W.wtraparg := rfl
@[simp] theorem Wave.retireTo_whandler (W : Wave) (g : BitVec 8) (f : Nat → Slice → Slice) : (W.retireTo g f).whandler = W.whandler := rfl
@[simp] theorem Wave.retireTo_cte (W : Wave) (g : BitVec 8) (f : Nat → Slice → Slice) : (W.retireTo g f).cte = W.cte := rfl
@[simp] theorem Wave.retireTo_intrap (W : Wave) (g : BitVec 8) (f : Nat → Slice → Slice) : (W.retireTo g f).intrap = W.intrap := rfl
@[simp] theorem Wave.retireTo_defer (W : Wave) (g : BitVec 8) (f : Nat → Slice → Slice) : (W.retireTo g f).defer = W.defer := rfl
@[simp] theorem Wave.retireTo_wclock (W : Wave) (g : BitVec 8) (f : Nat → Slice → Slice) : (W.retireTo g f).wclock = W.wclock + BitVec.ofNat 64 (slicesOf g).length := rfl
@[simp] theorem Wave.retireTo_fpctl (W : Wave) (g : BitVec 8) (f : Nat → Slice → Slice) : (W.retireTo g f).fpctl = W.fpctl := rfl
@[simp] theorem Wave.retireTo_mbdest (W : Wave) (g : BitVec 8) (f : Nat → Slice → Slice) : (W.retireTo g f).mbdest = W.mbdest := rfl
@[simp] theorem Wave.retireTo_trapGang (W : Wave) (g : BitVec 8) (f : Nat → Slice → Slice) : (W.retireTo g f).trapGang = W.trapGang := rfl
@[simp] theorem Wave.retireTo_parkGang (W : Wave) (g : BitVec 8) (f : Nat → Slice → Slice) : (W.retireTo g f).parkGang = W.parkGang := rfl
@[simp] theorem Wave.retireTo_parks (W : Wave) (g : BitVec 8) (f : Nat → Slice → Slice) : (W.retireTo g f).parks = W.parks := rfl
@[simp] theorem Wave.retireTo_parkAcc (W : Wave) (g : BitVec 8) (f : Nat → Slice → Slice) : (W.retireTo g f).parkAcc = W.parkAcc := rfl
@[simp] theorem Wave.retireTo_stamp (W : Wave) (g : BitVec 8) (f : Nat → Slice → Slice) : (W.retireTo g f).stamp = W.stamp := rfl
@[simp] theorem Wave.retireTo_lastGang (W : Wave) (g : BitVec 8) (f : Nat → Slice → Slice) : (W.retireTo g f).lastGang = BitVec.ofNat 3 (lowSlice g) := rfl
@[simp] theorem Wave.retireTo_blockedAt (W : Wave) (g : BitVec 8) (f : Nat → Slice → Slice) : (W.retireTo g f).blockedAt = none := rfl
@[simp] theorem Wave.retireTo_blockTh (W : Wave) (g : BitVec 8) (f : Nat → Slice → Slice) : (W.retireTo g f).blockTh = W.blockTh := rfl
@[simp] theorem Wave.retireTo_mbox (W : Wave) (g : BitVec 8) (f : Nat → Slice → Slice) : (W.retireTo g f).mbox = W.mbox := rfl
@[simp] theorem Wave.retireTo_mbReserved (W : Wave) (g : BitVec 8) (f : Nat → Slice → Slice) : (W.retireTo g f).mbReserved = W.mbReserved := rfl
@[simp] theorem Wave.retireTo_storeQ (W : Wave) (g : BitVec 8) (f : Nat → Slice → Slice) : (W.retireTo g f).storeQ = W.storeQ := rfl
@[simp] theorem Wave.retireTo_owc (W : Wave) (g : BitVec 8) (f : Nat → Slice → Slice) : (W.retireTo g f).owc = W.owc := rfl
@[simp] theorem Wave.retireTo_busy (W : Wave) (g : BitVec 8) (f : Nat → Slice → Slice) : (W.retireTo g f).busy = W.busy := rfl
@[simp] theorem Wave.retireTo_slots (W : Wave) (g : BitVec 8) (f : Nat → Slice → Slice) : (W.retireTo g f).slots = W.slots := rfl
@[simp] theorem Wave.retireTo_sending (W : Wave) (g : BitVec 8) (f : Nat → Slice → Slice) : (W.retireTo g f).sending = W.sending := rfl
@[simp] theorem Wave.retireTo_resendAt (W : Wave) (g : BitVec 8) (f : Nat → Slice → Slice) : (W.retireTo g f).resendAt = W.resendAt := rfl
@[simp] theorem Wave.retireTo_refused (W : Wave) (g : BitVec 8) (f : Nat → Slice → Slice) : (W.retireTo g f).refused = W.refused := rfl
@[simp] theorem Wave.retireTo_descs (W : Wave) (g : BitVec 8) (f : Nat → Slice → Slice) : (W.retireTo g f).descs = W.descs := rfl
@[simp] theorem Wave.retireTo_taken (W : Wave) (g : BitVec 8) (f : Nat → Slice → Slice) : (W.retireTo g f).taken = W.taken := rfl
@[simp] theorem Wave.retireTo_late (W : Wave) (g : BitVec 8) (f : Nat → Slice → Slice) : (W.retireTo g f).late = W.late := rfl
@[simp] theorem Wave.retireTo_ordered (W : Wave) (g : BitVec 8) (f : Nat → Slice → Slice) : (W.retireTo g f).ordered = false := rfl

/-! Wave.retire -/

@[simp] theorem Wave.retire_v (W : Wave) (g : BitVec 8) (b : Bool) : (W.retire g b).v = W.v := rfl
@[simp] theorem Wave.retire_s (W : Wave) (g : BitVec 8) (b : Bool) : (W.retire g b).s = W.s := rfl
@[simp] theorem Wave.retire_p (W : Wave) (g : BitVec 8) (b : Bool) : (W.retire g b).p = W.p := rfl
@[simp] theorem Wave.retire_vpoison (W : Wave) (g : BitVec 8) (b : Bool) : (W.retire g b).vpoison = W.vpoison := rfl
@[simp] theorem Wave.retire_spoison (W : Wave) (g : BitVec 8) (b : Bool) : (W.retire g b).spoison = W.spoison := rfl
@[simp] theorem Wave.retire_cause (W : Wave) (g : BitVec 8) (b : Bool) : (W.retire g b).cause = W.cause := rfl
@[simp] theorem Wave.retire_wepc (W : Wave) (g : BitVec 8) (b : Bool) : (W.retire g b).wepc = W.wepc := rfl
@[simp] theorem Wave.retire_wtraparg (W : Wave) (g : BitVec 8) (b : Bool) : (W.retire g b).wtraparg = W.wtraparg := rfl
@[simp] theorem Wave.retire_whandler (W : Wave) (g : BitVec 8) (b : Bool) : (W.retire g b).whandler = W.whandler := rfl
@[simp] theorem Wave.retire_cte (W : Wave) (g : BitVec 8) (b : Bool) : (W.retire g b).cte = W.cte := rfl
@[simp] theorem Wave.retire_intrap (W : Wave) (g : BitVec 8) (b : Bool) : (W.retire g b).intrap = W.intrap := rfl
@[simp] theorem Wave.retire_defer (W : Wave) (g : BitVec 8) (b : Bool) : (W.retire g b).defer = W.defer := rfl
@[simp] theorem Wave.retire_wclock (W : Wave) (g : BitVec 8) (b : Bool) : (W.retire g b).wclock = W.wclock + BitVec.ofNat 64 (slicesOf g).length := rfl
@[simp] theorem Wave.retire_fpctl (W : Wave) (g : BitVec 8) (b : Bool) : (W.retire g b).fpctl = W.fpctl := rfl
@[simp] theorem Wave.retire_mbdest (W : Wave) (g : BitVec 8) (b : Bool) : (W.retire g b).mbdest = W.mbdest := rfl
@[simp] theorem Wave.retire_trapGang (W : Wave) (g : BitVec 8) (b : Bool) : (W.retire g b).trapGang = W.trapGang := rfl
@[simp] theorem Wave.retire_parkGang (W : Wave) (g : BitVec 8) (b : Bool) : (W.retire g b).parkGang = W.parkGang := rfl
@[simp] theorem Wave.retire_parks (W : Wave) (g : BitVec 8) (b : Bool) : (W.retire g b).parks = W.parks := rfl
@[simp] theorem Wave.retire_parkAcc (W : Wave) (g : BitVec 8) (b : Bool) : (W.retire g b).parkAcc = W.parkAcc := rfl
@[simp] theorem Wave.retire_stamp (W : Wave) (g : BitVec 8) (b : Bool) : (W.retire g b).stamp = W.stamp := rfl
@[simp] theorem Wave.retire_lastGang (W : Wave) (g : BitVec 8) (b : Bool) : (W.retire g b).lastGang = BitVec.ofNat 3 (lowSlice g) := rfl
@[simp] theorem Wave.retire_blockedAt (W : Wave) (g : BitVec 8) (b : Bool) : (W.retire g b).blockedAt = none := rfl
@[simp] theorem Wave.retire_blockTh (W : Wave) (g : BitVec 8) (b : Bool) : (W.retire g b).blockTh = W.blockTh := rfl
@[simp] theorem Wave.retire_mbox (W : Wave) (g : BitVec 8) (b : Bool) : (W.retire g b).mbox = W.mbox := rfl
@[simp] theorem Wave.retire_mbReserved (W : Wave) (g : BitVec 8) (b : Bool) : (W.retire g b).mbReserved = W.mbReserved := rfl
@[simp] theorem Wave.retire_storeQ (W : Wave) (g : BitVec 8) (b : Bool) : (W.retire g b).storeQ = W.storeQ := rfl
@[simp] theorem Wave.retire_owc (W : Wave) (g : BitVec 8) (b : Bool) : (W.retire g b).owc = W.owc := rfl
@[simp] theorem Wave.retire_busy (W : Wave) (g : BitVec 8) (b : Bool) : (W.retire g b).busy = W.busy := rfl
@[simp] theorem Wave.retire_slots (W : Wave) (g : BitVec 8) (b : Bool) : (W.retire g b).slots = W.slots := rfl
@[simp] theorem Wave.retire_sending (W : Wave) (g : BitVec 8) (b : Bool) : (W.retire g b).sending = W.sending := rfl
@[simp] theorem Wave.retire_resendAt (W : Wave) (g : BitVec 8) (b : Bool) : (W.retire g b).resendAt = W.resendAt := rfl
@[simp] theorem Wave.retire_refused (W : Wave) (g : BitVec 8) (b : Bool) : (W.retire g b).refused = W.refused := rfl
@[simp] theorem Wave.retire_descs (W : Wave) (g : BitVec 8) (b : Bool) : (W.retire g b).descs = W.descs := rfl
@[simp] theorem Wave.retire_taken (W : Wave) (g : BitVec 8) (b : Bool) : (W.retire g b).taken = W.taken := rfl
@[simp] theorem Wave.retire_late (W : Wave) (g : BitVec 8) (b : Bool) : (W.retire g b).late = W.late := rfl
@[simp] theorem Wave.retire_ordered (W : Wave) (g : BitVec 8) (b : Bool) : (W.retire g b).ordered = false := rfl

/-! Wave.putV -/

@[simp] theorem Wave.putV_slices (W : Wave) (n lane x : Nat) : (W.putV n lane x).slices = W.slices := rfl
@[simp] theorem Wave.putV_v (W : Wave) (n lane x : Nat) : (W.putV n lane x).v = smPut 0 W.v (32 * n + lane) (BitVec.ofNat 32 x) := rfl
@[simp] theorem Wave.putV_s (W : Wave) (n lane x : Nat) : (W.putV n lane x).s = W.s := rfl
@[simp] theorem Wave.putV_p (W : Wave) (n lane x : Nat) : (W.putV n lane x).p = W.p := rfl
@[simp] theorem Wave.putV_vpoison (W : Wave) (n lane x : Nat) : (W.putV n lane x).vpoison = nsDel W.vpoison (32 * n + lane) := rfl
@[simp] theorem Wave.putV_spoison (W : Wave) (n lane x : Nat) : (W.putV n lane x).spoison = W.spoison := rfl
@[simp] theorem Wave.putV_cause (W : Wave) (n lane x : Nat) : (W.putV n lane x).cause = W.cause := rfl
@[simp] theorem Wave.putV_wepc (W : Wave) (n lane x : Nat) : (W.putV n lane x).wepc = W.wepc := rfl
@[simp] theorem Wave.putV_wpark (W : Wave) (n lane x : Nat) : (W.putV n lane x).wpark = W.wpark := rfl
@[simp] theorem Wave.putV_wtraparg (W : Wave) (n lane x : Nat) : (W.putV n lane x).wtraparg = W.wtraparg := rfl
@[simp] theorem Wave.putV_whandler (W : Wave) (n lane x : Nat) : (W.putV n lane x).whandler = W.whandler := rfl
@[simp] theorem Wave.putV_cte (W : Wave) (n lane x : Nat) : (W.putV n lane x).cte = W.cte := rfl
@[simp] theorem Wave.putV_intrap (W : Wave) (n lane x : Nat) : (W.putV n lane x).intrap = W.intrap := rfl
@[simp] theorem Wave.putV_defer (W : Wave) (n lane x : Nat) : (W.putV n lane x).defer = W.defer := rfl
@[simp] theorem Wave.putV_wclock (W : Wave) (n lane x : Nat) : (W.putV n lane x).wclock = W.wclock := rfl
@[simp] theorem Wave.putV_fpctl (W : Wave) (n lane x : Nat) : (W.putV n lane x).fpctl = W.fpctl := rfl
@[simp] theorem Wave.putV_mbdest (W : Wave) (n lane x : Nat) : (W.putV n lane x).mbdest = W.mbdest := rfl
@[simp] theorem Wave.putV_trapGang (W : Wave) (n lane x : Nat) : (W.putV n lane x).trapGang = W.trapGang := rfl
@[simp] theorem Wave.putV_parkGang (W : Wave) (n lane x : Nat) : (W.putV n lane x).parkGang = W.parkGang := rfl
@[simp] theorem Wave.putV_parked (W : Wave) (n lane x : Nat) : (W.putV n lane x).parked = W.parked := rfl
@[simp] theorem Wave.putV_replay (W : Wave) (n lane x : Nat) : (W.putV n lane x).replay = W.replay := rfl
@[simp] theorem Wave.putV_parks (W : Wave) (n lane x : Nat) : (W.putV n lane x).parks = W.parks := rfl
@[simp] theorem Wave.putV_parkAcc (W : Wave) (n lane x : Nat) : (W.putV n lane x).parkAcc = W.parkAcc := rfl
@[simp] theorem Wave.putV_stamp (W : Wave) (n lane x : Nat) : (W.putV n lane x).stamp = W.stamp := rfl
@[simp] theorem Wave.putV_lastGang (W : Wave) (n lane x : Nat) : (W.putV n lane x).lastGang = W.lastGang := rfl
@[simp] theorem Wave.putV_blockedAt (W : Wave) (n lane x : Nat) : (W.putV n lane x).blockedAt = W.blockedAt := rfl
@[simp] theorem Wave.putV_blockTh (W : Wave) (n lane x : Nat) : (W.putV n lane x).blockTh = W.blockTh := rfl
@[simp] theorem Wave.putV_mbox (W : Wave) (n lane x : Nat) : (W.putV n lane x).mbox = W.mbox := rfl
@[simp] theorem Wave.putV_mbReserved (W : Wave) (n lane x : Nat) : (W.putV n lane x).mbReserved = W.mbReserved := rfl
@[simp] theorem Wave.putV_storeQ (W : Wave) (n lane x : Nat) : (W.putV n lane x).storeQ = W.storeQ := rfl
@[simp] theorem Wave.putV_owc (W : Wave) (n lane x : Nat) : (W.putV n lane x).owc = W.owc := rfl
@[simp] theorem Wave.putV_busy (W : Wave) (n lane x : Nat) : (W.putV n lane x).busy = W.busy := rfl
@[simp] theorem Wave.putV_slots (W : Wave) (n lane x : Nat) : (W.putV n lane x).slots = W.slots := rfl
@[simp] theorem Wave.putV_sending (W : Wave) (n lane x : Nat) : (W.putV n lane x).sending = W.sending := rfl
@[simp] theorem Wave.putV_resendAt (W : Wave) (n lane x : Nat) : (W.putV n lane x).resendAt = W.resendAt := rfl
@[simp] theorem Wave.putV_refused (W : Wave) (n lane x : Nat) : (W.putV n lane x).refused = W.refused := rfl
@[simp] theorem Wave.putV_descs (W : Wave) (n lane x : Nat) : (W.putV n lane x).descs = W.descs := rfl
@[simp] theorem Wave.putV_taken (W : Wave) (n lane x : Nat) : (W.putV n lane x).taken = W.taken := rfl
@[simp] theorem Wave.putV_late (W : Wave) (n lane x : Nat) : (W.putV n lane x).late = W.late := rfl
@[simp] theorem Wave.putV_ordered (W : Wave) (n lane x : Nat) : (W.putV n lane x).ordered = W.ordered := rfl

/-! Wave.putS -/

@[simp] theorem Wave.putS_slices (W : Wave) (n x : Nat) : (W.putS n x).slices = W.slices := rfl
@[simp] theorem Wave.putS_v (W : Wave) (n x : Nat) : (W.putS n x).v = W.v := rfl
@[simp] theorem Wave.putS_s (W : Wave) (n x : Nat) : (W.putS n x).s = smPut 0 W.s n (BitVec.ofNat 32 x) := rfl
@[simp] theorem Wave.putS_p (W : Wave) (n x : Nat) : (W.putS n x).p = W.p := rfl
@[simp] theorem Wave.putS_vpoison (W : Wave) (n x : Nat) : (W.putS n x).vpoison = W.vpoison := rfl
@[simp] theorem Wave.putS_spoison (W : Wave) (n x : Nat) : (W.putS n x).spoison = nsDel W.spoison n := rfl
@[simp] theorem Wave.putS_cause (W : Wave) (n x : Nat) : (W.putS n x).cause = W.cause := rfl
@[simp] theorem Wave.putS_wepc (W : Wave) (n x : Nat) : (W.putS n x).wepc = W.wepc := rfl
@[simp] theorem Wave.putS_wpark (W : Wave) (n x : Nat) : (W.putS n x).wpark = W.wpark := rfl
@[simp] theorem Wave.putS_wtraparg (W : Wave) (n x : Nat) : (W.putS n x).wtraparg = W.wtraparg := rfl
@[simp] theorem Wave.putS_whandler (W : Wave) (n x : Nat) : (W.putS n x).whandler = W.whandler := rfl
@[simp] theorem Wave.putS_cte (W : Wave) (n x : Nat) : (W.putS n x).cte = W.cte := rfl
@[simp] theorem Wave.putS_intrap (W : Wave) (n x : Nat) : (W.putS n x).intrap = W.intrap := rfl
@[simp] theorem Wave.putS_defer (W : Wave) (n x : Nat) : (W.putS n x).defer = W.defer := rfl
@[simp] theorem Wave.putS_wclock (W : Wave) (n x : Nat) : (W.putS n x).wclock = W.wclock := rfl
@[simp] theorem Wave.putS_fpctl (W : Wave) (n x : Nat) : (W.putS n x).fpctl = W.fpctl := rfl
@[simp] theorem Wave.putS_mbdest (W : Wave) (n x : Nat) : (W.putS n x).mbdest = W.mbdest := rfl
@[simp] theorem Wave.putS_trapGang (W : Wave) (n x : Nat) : (W.putS n x).trapGang = W.trapGang := rfl
@[simp] theorem Wave.putS_parkGang (W : Wave) (n x : Nat) : (W.putS n x).parkGang = W.parkGang := rfl
@[simp] theorem Wave.putS_parked (W : Wave) (n x : Nat) : (W.putS n x).parked = W.parked := rfl
@[simp] theorem Wave.putS_replay (W : Wave) (n x : Nat) : (W.putS n x).replay = W.replay := rfl
@[simp] theorem Wave.putS_parks (W : Wave) (n x : Nat) : (W.putS n x).parks = W.parks := rfl
@[simp] theorem Wave.putS_parkAcc (W : Wave) (n x : Nat) : (W.putS n x).parkAcc = W.parkAcc := rfl
@[simp] theorem Wave.putS_stamp (W : Wave) (n x : Nat) : (W.putS n x).stamp = W.stamp := rfl
@[simp] theorem Wave.putS_lastGang (W : Wave) (n x : Nat) : (W.putS n x).lastGang = W.lastGang := rfl
@[simp] theorem Wave.putS_blockedAt (W : Wave) (n x : Nat) : (W.putS n x).blockedAt = W.blockedAt := rfl
@[simp] theorem Wave.putS_blockTh (W : Wave) (n x : Nat) : (W.putS n x).blockTh = W.blockTh := rfl
@[simp] theorem Wave.putS_mbox (W : Wave) (n x : Nat) : (W.putS n x).mbox = W.mbox := rfl
@[simp] theorem Wave.putS_mbReserved (W : Wave) (n x : Nat) : (W.putS n x).mbReserved = W.mbReserved := rfl
@[simp] theorem Wave.putS_storeQ (W : Wave) (n x : Nat) : (W.putS n x).storeQ = W.storeQ := rfl
@[simp] theorem Wave.putS_owc (W : Wave) (n x : Nat) : (W.putS n x).owc = W.owc := rfl
@[simp] theorem Wave.putS_busy (W : Wave) (n x : Nat) : (W.putS n x).busy = W.busy := rfl
@[simp] theorem Wave.putS_slots (W : Wave) (n x : Nat) : (W.putS n x).slots = W.slots := rfl
@[simp] theorem Wave.putS_sending (W : Wave) (n x : Nat) : (W.putS n x).sending = W.sending := rfl
@[simp] theorem Wave.putS_resendAt (W : Wave) (n x : Nat) : (W.putS n x).resendAt = W.resendAt := rfl
@[simp] theorem Wave.putS_refused (W : Wave) (n x : Nat) : (W.putS n x).refused = W.refused := rfl
@[simp] theorem Wave.putS_descs (W : Wave) (n x : Nat) : (W.putS n x).descs = W.descs := rfl
@[simp] theorem Wave.putS_taken (W : Wave) (n x : Nat) : (W.putS n x).taken = W.taken := rfl
@[simp] theorem Wave.putS_late (W : Wave) (n x : Nat) : (W.putS n x).late = W.late := rfl
@[simp] theorem Wave.putS_ordered (W : Wave) (n x : Nat) : (W.putS n x).ordered = W.ordered := rfl

/-! Wave.putReg -/

@[simp] theorem Wave.putReg_slices (W : Wave) (d : BitVec 8) (lane x : Nat) : (W.putReg d lane x).slices = W.slices := by unfold Wave.putReg; split <;> rfl
@[simp] theorem Wave.putReg_p (W : Wave) (d : BitVec 8) (lane x : Nat) : (W.putReg d lane x).p = W.p := by unfold Wave.putReg; split <;> rfl
@[simp] theorem Wave.putReg_cause (W : Wave) (d : BitVec 8) (lane x : Nat) : (W.putReg d lane x).cause = W.cause := by unfold Wave.putReg; split <;> rfl
@[simp] theorem Wave.putReg_wepc (W : Wave) (d : BitVec 8) (lane x : Nat) : (W.putReg d lane x).wepc = W.wepc := by unfold Wave.putReg; split <;> rfl
@[simp] theorem Wave.putReg_wpark (W : Wave) (d : BitVec 8) (lane x : Nat) : (W.putReg d lane x).wpark = W.wpark := by unfold Wave.putReg; split <;> rfl
@[simp] theorem Wave.putReg_wtraparg (W : Wave) (d : BitVec 8) (lane x : Nat) : (W.putReg d lane x).wtraparg = W.wtraparg := by unfold Wave.putReg; split <;> rfl
@[simp] theorem Wave.putReg_whandler (W : Wave) (d : BitVec 8) (lane x : Nat) : (W.putReg d lane x).whandler = W.whandler := by unfold Wave.putReg; split <;> rfl
@[simp] theorem Wave.putReg_cte (W : Wave) (d : BitVec 8) (lane x : Nat) : (W.putReg d lane x).cte = W.cte := by unfold Wave.putReg; split <;> rfl
@[simp] theorem Wave.putReg_intrap (W : Wave) (d : BitVec 8) (lane x : Nat) : (W.putReg d lane x).intrap = W.intrap := by unfold Wave.putReg; split <;> rfl
@[simp] theorem Wave.putReg_defer (W : Wave) (d : BitVec 8) (lane x : Nat) : (W.putReg d lane x).defer = W.defer := by unfold Wave.putReg; split <;> rfl
@[simp] theorem Wave.putReg_wclock (W : Wave) (d : BitVec 8) (lane x : Nat) : (W.putReg d lane x).wclock = W.wclock := by unfold Wave.putReg; split <;> rfl
@[simp] theorem Wave.putReg_fpctl (W : Wave) (d : BitVec 8) (lane x : Nat) : (W.putReg d lane x).fpctl = W.fpctl := by unfold Wave.putReg; split <;> rfl
@[simp] theorem Wave.putReg_mbdest (W : Wave) (d : BitVec 8) (lane x : Nat) : (W.putReg d lane x).mbdest = W.mbdest := by unfold Wave.putReg; split <;> rfl
@[simp] theorem Wave.putReg_trapGang (W : Wave) (d : BitVec 8) (lane x : Nat) : (W.putReg d lane x).trapGang = W.trapGang := by unfold Wave.putReg; split <;> rfl
@[simp] theorem Wave.putReg_parkGang (W : Wave) (d : BitVec 8) (lane x : Nat) : (W.putReg d lane x).parkGang = W.parkGang := by unfold Wave.putReg; split <;> rfl
@[simp] theorem Wave.putReg_parked (W : Wave) (d : BitVec 8) (lane x : Nat) : (W.putReg d lane x).parked = W.parked := by unfold Wave.putReg; split <;> rfl
@[simp] theorem Wave.putReg_replay (W : Wave) (d : BitVec 8) (lane x : Nat) : (W.putReg d lane x).replay = W.replay := by unfold Wave.putReg; split <;> rfl
@[simp] theorem Wave.putReg_parks (W : Wave) (d : BitVec 8) (lane x : Nat) : (W.putReg d lane x).parks = W.parks := by unfold Wave.putReg; split <;> rfl
@[simp] theorem Wave.putReg_parkAcc (W : Wave) (d : BitVec 8) (lane x : Nat) : (W.putReg d lane x).parkAcc = W.parkAcc := by unfold Wave.putReg; split <;> rfl
@[simp] theorem Wave.putReg_stamp (W : Wave) (d : BitVec 8) (lane x : Nat) : (W.putReg d lane x).stamp = W.stamp := by unfold Wave.putReg; split <;> rfl
@[simp] theorem Wave.putReg_lastGang (W : Wave) (d : BitVec 8) (lane x : Nat) : (W.putReg d lane x).lastGang = W.lastGang := by unfold Wave.putReg; split <;> rfl
@[simp] theorem Wave.putReg_blockedAt (W : Wave) (d : BitVec 8) (lane x : Nat) : (W.putReg d lane x).blockedAt = W.blockedAt := by unfold Wave.putReg; split <;> rfl
@[simp] theorem Wave.putReg_blockTh (W : Wave) (d : BitVec 8) (lane x : Nat) : (W.putReg d lane x).blockTh = W.blockTh := by unfold Wave.putReg; split <;> rfl
@[simp] theorem Wave.putReg_mbox (W : Wave) (d : BitVec 8) (lane x : Nat) : (W.putReg d lane x).mbox = W.mbox := by unfold Wave.putReg; split <;> rfl
@[simp] theorem Wave.putReg_mbReserved (W : Wave) (d : BitVec 8) (lane x : Nat) : (W.putReg d lane x).mbReserved = W.mbReserved := by unfold Wave.putReg; split <;> rfl
@[simp] theorem Wave.putReg_storeQ (W : Wave) (d : BitVec 8) (lane x : Nat) : (W.putReg d lane x).storeQ = W.storeQ := by unfold Wave.putReg; split <;> rfl
@[simp] theorem Wave.putReg_owc (W : Wave) (d : BitVec 8) (lane x : Nat) : (W.putReg d lane x).owc = W.owc := by unfold Wave.putReg; split <;> rfl
@[simp] theorem Wave.putReg_busy (W : Wave) (d : BitVec 8) (lane x : Nat) : (W.putReg d lane x).busy = W.busy := by unfold Wave.putReg; split <;> rfl
@[simp] theorem Wave.putReg_slots (W : Wave) (d : BitVec 8) (lane x : Nat) : (W.putReg d lane x).slots = W.slots := by unfold Wave.putReg; split <;> rfl
@[simp] theorem Wave.putReg_sending (W : Wave) (d : BitVec 8) (lane x : Nat) : (W.putReg d lane x).sending = W.sending := by unfold Wave.putReg; split <;> rfl
@[simp] theorem Wave.putReg_resendAt (W : Wave) (d : BitVec 8) (lane x : Nat) : (W.putReg d lane x).resendAt = W.resendAt := by unfold Wave.putReg; split <;> rfl
@[simp] theorem Wave.putReg_refused (W : Wave) (d : BitVec 8) (lane x : Nat) : (W.putReg d lane x).refused = W.refused := by unfold Wave.putReg; split <;> rfl
@[simp] theorem Wave.putReg_descs (W : Wave) (d : BitVec 8) (lane x : Nat) : (W.putReg d lane x).descs = W.descs := by unfold Wave.putReg; split <;> rfl
@[simp] theorem Wave.putReg_taken (W : Wave) (d : BitVec 8) (lane x : Nat) : (W.putReg d lane x).taken = W.taken := by unfold Wave.putReg; split <;> rfl
@[simp] theorem Wave.putReg_late (W : Wave) (d : BitVec 8) (lane x : Nat) : (W.putReg d lane x).late = W.late := by unfold Wave.putReg; split <;> rfl
@[simp] theorem Wave.putReg_ordered (W : Wave) (d : BitVec 8) (lane x : Nat) : (W.putReg d lane x).ordered = W.ordered := by unfold Wave.putReg; split <;> rfl

/-! Wave.putPred -/

@[simp] theorem Wave.putPred_slices (W : Wave) (p : Nat) (m v : LaneMask) : (W.putPred p m v).slices = W.slices := by unfold Wave.putPred; split <;> rfl
@[simp] theorem Wave.putPred_v (W : Wave) (p : Nat) (m v : LaneMask) : (W.putPred p m v).v = W.v := by unfold Wave.putPred; split <;> rfl
@[simp] theorem Wave.putPred_s (W : Wave) (p : Nat) (m v : LaneMask) : (W.putPred p m v).s = W.s := by unfold Wave.putPred; split <;> rfl
@[simp] theorem Wave.putPred_vpoison (W : Wave) (p : Nat) (m v : LaneMask) : (W.putPred p m v).vpoison = W.vpoison := by unfold Wave.putPred; split <;> rfl
@[simp] theorem Wave.putPred_spoison (W : Wave) (p : Nat) (m v : LaneMask) : (W.putPred p m v).spoison = W.spoison := by unfold Wave.putPred; split <;> rfl
@[simp] theorem Wave.putPred_cause (W : Wave) (p : Nat) (m v : LaneMask) : (W.putPred p m v).cause = W.cause := by unfold Wave.putPred; split <;> rfl
@[simp] theorem Wave.putPred_wepc (W : Wave) (p : Nat) (m v : LaneMask) : (W.putPred p m v).wepc = W.wepc := by unfold Wave.putPred; split <;> rfl
@[simp] theorem Wave.putPred_wpark (W : Wave) (p : Nat) (m v : LaneMask) : (W.putPred p m v).wpark = W.wpark := by unfold Wave.putPred; split <;> rfl
@[simp] theorem Wave.putPred_wtraparg (W : Wave) (p : Nat) (m v : LaneMask) : (W.putPred p m v).wtraparg = W.wtraparg := by unfold Wave.putPred; split <;> rfl
@[simp] theorem Wave.putPred_whandler (W : Wave) (p : Nat) (m v : LaneMask) : (W.putPred p m v).whandler = W.whandler := by unfold Wave.putPred; split <;> rfl
@[simp] theorem Wave.putPred_cte (W : Wave) (p : Nat) (m v : LaneMask) : (W.putPred p m v).cte = W.cte := by unfold Wave.putPred; split <;> rfl
@[simp] theorem Wave.putPred_intrap (W : Wave) (p : Nat) (m v : LaneMask) : (W.putPred p m v).intrap = W.intrap := by unfold Wave.putPred; split <;> rfl
@[simp] theorem Wave.putPred_defer (W : Wave) (p : Nat) (m v : LaneMask) : (W.putPred p m v).defer = W.defer := by unfold Wave.putPred; split <;> rfl
@[simp] theorem Wave.putPred_wclock (W : Wave) (p : Nat) (m v : LaneMask) : (W.putPred p m v).wclock = W.wclock := by unfold Wave.putPred; split <;> rfl
@[simp] theorem Wave.putPred_fpctl (W : Wave) (p : Nat) (m v : LaneMask) : (W.putPred p m v).fpctl = W.fpctl := by unfold Wave.putPred; split <;> rfl
@[simp] theorem Wave.putPred_mbdest (W : Wave) (p : Nat) (m v : LaneMask) : (W.putPred p m v).mbdest = W.mbdest := by unfold Wave.putPred; split <;> rfl
@[simp] theorem Wave.putPred_trapGang (W : Wave) (p : Nat) (m v : LaneMask) : (W.putPred p m v).trapGang = W.trapGang := by unfold Wave.putPred; split <;> rfl
@[simp] theorem Wave.putPred_parkGang (W : Wave) (p : Nat) (m v : LaneMask) : (W.putPred p m v).parkGang = W.parkGang := by unfold Wave.putPred; split <;> rfl
@[simp] theorem Wave.putPred_parked (W : Wave) (p : Nat) (m v : LaneMask) : (W.putPred p m v).parked = W.parked := by unfold Wave.putPred; split <;> rfl
@[simp] theorem Wave.putPred_replay (W : Wave) (p : Nat) (m v : LaneMask) : (W.putPred p m v).replay = W.replay := by unfold Wave.putPred; split <;> rfl
@[simp] theorem Wave.putPred_parks (W : Wave) (p : Nat) (m v : LaneMask) : (W.putPred p m v).parks = W.parks := by unfold Wave.putPred; split <;> rfl
@[simp] theorem Wave.putPred_parkAcc (W : Wave) (p : Nat) (m v : LaneMask) : (W.putPred p m v).parkAcc = W.parkAcc := by unfold Wave.putPred; split <;> rfl
@[simp] theorem Wave.putPred_stamp (W : Wave) (p : Nat) (m v : LaneMask) : (W.putPred p m v).stamp = W.stamp := by unfold Wave.putPred; split <;> rfl
@[simp] theorem Wave.putPred_lastGang (W : Wave) (p : Nat) (m v : LaneMask) : (W.putPred p m v).lastGang = W.lastGang := by unfold Wave.putPred; split <;> rfl
@[simp] theorem Wave.putPred_blockedAt (W : Wave) (p : Nat) (m v : LaneMask) : (W.putPred p m v).blockedAt = W.blockedAt := by unfold Wave.putPred; split <;> rfl
@[simp] theorem Wave.putPred_blockTh (W : Wave) (p : Nat) (m v : LaneMask) : (W.putPred p m v).blockTh = W.blockTh := by unfold Wave.putPred; split <;> rfl
@[simp] theorem Wave.putPred_mbox (W : Wave) (p : Nat) (m v : LaneMask) : (W.putPred p m v).mbox = W.mbox := by unfold Wave.putPred; split <;> rfl
@[simp] theorem Wave.putPred_mbReserved (W : Wave) (p : Nat) (m v : LaneMask) : (W.putPred p m v).mbReserved = W.mbReserved := by unfold Wave.putPred; split <;> rfl
@[simp] theorem Wave.putPred_storeQ (W : Wave) (p : Nat) (m v : LaneMask) : (W.putPred p m v).storeQ = W.storeQ := by unfold Wave.putPred; split <;> rfl
@[simp] theorem Wave.putPred_owc (W : Wave) (p : Nat) (m v : LaneMask) : (W.putPred p m v).owc = W.owc := by unfold Wave.putPred; split <;> rfl
@[simp] theorem Wave.putPred_busy (W : Wave) (p : Nat) (m v : LaneMask) : (W.putPred p m v).busy = W.busy := by unfold Wave.putPred; split <;> rfl
@[simp] theorem Wave.putPred_slots (W : Wave) (p : Nat) (m v : LaneMask) : (W.putPred p m v).slots = W.slots := by unfold Wave.putPred; split <;> rfl
@[simp] theorem Wave.putPred_sending (W : Wave) (p : Nat) (m v : LaneMask) : (W.putPred p m v).sending = W.sending := by unfold Wave.putPred; split <;> rfl
@[simp] theorem Wave.putPred_resendAt (W : Wave) (p : Nat) (m v : LaneMask) : (W.putPred p m v).resendAt = W.resendAt := by unfold Wave.putPred; split <;> rfl
@[simp] theorem Wave.putPred_refused (W : Wave) (p : Nat) (m v : LaneMask) : (W.putPred p m v).refused = W.refused := by unfold Wave.putPred; split <;> rfl
@[simp] theorem Wave.putPred_descs (W : Wave) (p : Nat) (m v : LaneMask) : (W.putPred p m v).descs = W.descs := by unfold Wave.putPred; split <;> rfl
@[simp] theorem Wave.putPred_taken (W : Wave) (p : Nat) (m v : LaneMask) : (W.putPred p m v).taken = W.taken := by unfold Wave.putPred; split <;> rfl
@[simp] theorem Wave.putPred_late (W : Wave) (p : Nat) (m v : LaneMask) : (W.putPred p m v).late = W.late := by unfold Wave.putPred; split <;> rfl
@[simp] theorem Wave.putPred_ordered (W : Wave) (p : Nat) (m v : LaneMask) : (W.putPred p m v).ordered = W.ordered := by unfold Wave.putPred; split <;> rfl

/-! Wave.setLast -/

@[simp] theorem Wave.setLast_slices (W : Wave) (g : BitVec 8) : (W.setLast g).slices = W.slices := rfl
@[simp] theorem Wave.setLast_v (W : Wave) (g : BitVec 8) : (W.setLast g).v = W.v := rfl
@[simp] theorem Wave.setLast_s (W : Wave) (g : BitVec 8) : (W.setLast g).s = W.s := rfl
@[simp] theorem Wave.setLast_p (W : Wave) (g : BitVec 8) : (W.setLast g).p = W.p := rfl
@[simp] theorem Wave.setLast_vpoison (W : Wave) (g : BitVec 8) : (W.setLast g).vpoison = W.vpoison := rfl
@[simp] theorem Wave.setLast_spoison (W : Wave) (g : BitVec 8) : (W.setLast g).spoison = W.spoison := rfl
@[simp] theorem Wave.setLast_cause (W : Wave) (g : BitVec 8) : (W.setLast g).cause = W.cause := rfl
@[simp] theorem Wave.setLast_wepc (W : Wave) (g : BitVec 8) : (W.setLast g).wepc = W.wepc := rfl
@[simp] theorem Wave.setLast_wpark (W : Wave) (g : BitVec 8) : (W.setLast g).wpark = W.wpark := rfl
@[simp] theorem Wave.setLast_wtraparg (W : Wave) (g : BitVec 8) : (W.setLast g).wtraparg = W.wtraparg := rfl
@[simp] theorem Wave.setLast_whandler (W : Wave) (g : BitVec 8) : (W.setLast g).whandler = W.whandler := rfl
@[simp] theorem Wave.setLast_cte (W : Wave) (g : BitVec 8) : (W.setLast g).cte = W.cte := rfl
@[simp] theorem Wave.setLast_intrap (W : Wave) (g : BitVec 8) : (W.setLast g).intrap = W.intrap := rfl
@[simp] theorem Wave.setLast_defer (W : Wave) (g : BitVec 8) : (W.setLast g).defer = W.defer := rfl
@[simp] theorem Wave.setLast_wclock (W : Wave) (g : BitVec 8) : (W.setLast g).wclock = W.wclock := rfl
@[simp] theorem Wave.setLast_fpctl (W : Wave) (g : BitVec 8) : (W.setLast g).fpctl = W.fpctl := rfl
@[simp] theorem Wave.setLast_mbdest (W : Wave) (g : BitVec 8) : (W.setLast g).mbdest = W.mbdest := rfl
@[simp] theorem Wave.setLast_trapGang (W : Wave) (g : BitVec 8) : (W.setLast g).trapGang = W.trapGang := rfl
@[simp] theorem Wave.setLast_parkGang (W : Wave) (g : BitVec 8) : (W.setLast g).parkGang = W.parkGang := rfl
@[simp] theorem Wave.setLast_parked (W : Wave) (g : BitVec 8) : (W.setLast g).parked = W.parked := rfl
@[simp] theorem Wave.setLast_replay (W : Wave) (g : BitVec 8) : (W.setLast g).replay = W.replay := rfl
@[simp] theorem Wave.setLast_parks (W : Wave) (g : BitVec 8) : (W.setLast g).parks = W.parks := rfl
@[simp] theorem Wave.setLast_parkAcc (W : Wave) (g : BitVec 8) : (W.setLast g).parkAcc = W.parkAcc := rfl
@[simp] theorem Wave.setLast_stamp (W : Wave) (g : BitVec 8) : (W.setLast g).stamp = W.stamp := rfl
@[simp] theorem Wave.setLast_lastGang (W : Wave) (g : BitVec 8) : (W.setLast g).lastGang = BitVec.ofNat 3 (lowSlice g) := rfl
@[simp] theorem Wave.setLast_blockedAt (W : Wave) (g : BitVec 8) : (W.setLast g).blockedAt = W.blockedAt := rfl
@[simp] theorem Wave.setLast_blockTh (W : Wave) (g : BitVec 8) : (W.setLast g).blockTh = W.blockTh := rfl
@[simp] theorem Wave.setLast_mbox (W : Wave) (g : BitVec 8) : (W.setLast g).mbox = W.mbox := rfl
@[simp] theorem Wave.setLast_mbReserved (W : Wave) (g : BitVec 8) : (W.setLast g).mbReserved = W.mbReserved := rfl
@[simp] theorem Wave.setLast_storeQ (W : Wave) (g : BitVec 8) : (W.setLast g).storeQ = W.storeQ := rfl
@[simp] theorem Wave.setLast_owc (W : Wave) (g : BitVec 8) : (W.setLast g).owc = W.owc := rfl
@[simp] theorem Wave.setLast_busy (W : Wave) (g : BitVec 8) : (W.setLast g).busy = W.busy := rfl
@[simp] theorem Wave.setLast_slots (W : Wave) (g : BitVec 8) : (W.setLast g).slots = W.slots := rfl
@[simp] theorem Wave.setLast_sending (W : Wave) (g : BitVec 8) : (W.setLast g).sending = W.sending := rfl
@[simp] theorem Wave.setLast_resendAt (W : Wave) (g : BitVec 8) : (W.setLast g).resendAt = W.resendAt := rfl
@[simp] theorem Wave.setLast_refused (W : Wave) (g : BitVec 8) : (W.setLast g).refused = W.refused := rfl
@[simp] theorem Wave.setLast_descs (W : Wave) (g : BitVec 8) : (W.setLast g).descs = W.descs := rfl
@[simp] theorem Wave.setLast_taken (W : Wave) (g : BitVec 8) : (W.setLast g).taken = W.taken := rfl
@[simp] theorem Wave.setLast_late (W : Wave) (g : BitVec 8) : (W.setLast g).late = W.late := rfl
@[simp] theorem Wave.setLast_ordered (W : Wave) (g : BitVec 8) : (W.setLast g).ordered = W.ordered := rfl

/-! Wave.await -/

@[simp] theorem Wave.await_slices (W : Wave) (r : Regs) (q : Rid) : (W.await r q).slices = W.slices := rfl
@[simp] theorem Wave.await_v (W : Wave) (r : Regs) (q : Rid) : (W.await r q).v = W.v := rfl
@[simp] theorem Wave.await_s (W : Wave) (r : Regs) (q : Rid) : (W.await r q).s = W.s := rfl
@[simp] theorem Wave.await_p (W : Wave) (r : Regs) (q : Rid) : (W.await r q).p = W.p := rfl
@[simp] theorem Wave.await_vpoison (W : Wave) (r : Regs) (q : Rid) : (W.await r q).vpoison = W.vpoison := rfl
@[simp] theorem Wave.await_spoison (W : Wave) (r : Regs) (q : Rid) : (W.await r q).spoison = W.spoison := rfl
@[simp] theorem Wave.await_cause (W : Wave) (r : Regs) (q : Rid) : (W.await r q).cause = W.cause := rfl
@[simp] theorem Wave.await_wepc (W : Wave) (r : Regs) (q : Rid) : (W.await r q).wepc = W.wepc := rfl
@[simp] theorem Wave.await_wpark (W : Wave) (r : Regs) (q : Rid) : (W.await r q).wpark = W.wpark := rfl
@[simp] theorem Wave.await_wtraparg (W : Wave) (r : Regs) (q : Rid) : (W.await r q).wtraparg = W.wtraparg := rfl
@[simp] theorem Wave.await_whandler (W : Wave) (r : Regs) (q : Rid) : (W.await r q).whandler = W.whandler := rfl
@[simp] theorem Wave.await_cte (W : Wave) (r : Regs) (q : Rid) : (W.await r q).cte = W.cte := rfl
@[simp] theorem Wave.await_intrap (W : Wave) (r : Regs) (q : Rid) : (W.await r q).intrap = W.intrap := rfl
@[simp] theorem Wave.await_defer (W : Wave) (r : Regs) (q : Rid) : (W.await r q).defer = W.defer := rfl
@[simp] theorem Wave.await_wclock (W : Wave) (r : Regs) (q : Rid) : (W.await r q).wclock = W.wclock := rfl
@[simp] theorem Wave.await_fpctl (W : Wave) (r : Regs) (q : Rid) : (W.await r q).fpctl = W.fpctl := rfl
@[simp] theorem Wave.await_mbdest (W : Wave) (r : Regs) (q : Rid) : (W.await r q).mbdest = W.mbdest := rfl
@[simp] theorem Wave.await_trapGang (W : Wave) (r : Regs) (q : Rid) : (W.await r q).trapGang = W.trapGang := rfl
@[simp] theorem Wave.await_parkGang (W : Wave) (r : Regs) (q : Rid) : (W.await r q).parkGang = W.parkGang := rfl
@[simp] theorem Wave.await_parked (W : Wave) (r : Regs) (q : Rid) : (W.await r q).parked = W.parked := rfl
@[simp] theorem Wave.await_replay (W : Wave) (r : Regs) (q : Rid) : (W.await r q).replay = W.replay := rfl
@[simp] theorem Wave.await_parks (W : Wave) (r : Regs) (q : Rid) : (W.await r q).parks = W.parks := rfl
@[simp] theorem Wave.await_parkAcc (W : Wave) (r : Regs) (q : Rid) : (W.await r q).parkAcc = W.parkAcc := rfl
@[simp] theorem Wave.await_stamp (W : Wave) (r : Regs) (q : Rid) : (W.await r q).stamp = W.stamp := rfl
@[simp] theorem Wave.await_lastGang (W : Wave) (r : Regs) (q : Rid) : (W.await r q).lastGang = W.lastGang := rfl
@[simp] theorem Wave.await_blockedAt (W : Wave) (r : Regs) (q : Rid) : (W.await r q).blockedAt = W.blockedAt := rfl
@[simp] theorem Wave.await_blockTh (W : Wave) (r : Regs) (q : Rid) : (W.await r q).blockTh = W.blockTh := rfl
@[simp] theorem Wave.await_mbox (W : Wave) (r : Regs) (q : Rid) : (W.await r q).mbox = W.mbox := rfl
@[simp] theorem Wave.await_mbReserved (W : Wave) (r : Regs) (q : Rid) : (W.await r q).mbReserved = W.mbReserved := rfl
@[simp] theorem Wave.await_storeQ (W : Wave) (r : Regs) (q : Rid) : (W.await r q).storeQ = W.storeQ := rfl
@[simp] theorem Wave.await_owc (W : Wave) (r : Regs) (q : Rid) : (W.await r q).owc = W.owc := rfl
@[simp] theorem Wave.await_busy (W : Wave) (r : Regs) (q : Rid) : (W.await r q).busy = W.busy ++ r.keys.map fun k => (k, .req q) := rfl
@[simp] theorem Wave.await_slots (W : Wave) (r : Regs) (q : Rid) : (W.await r q).slots = W.slots := rfl
@[simp] theorem Wave.await_sending (W : Wave) (r : Regs) (q : Rid) : (W.await r q).sending = W.sending := rfl
@[simp] theorem Wave.await_resendAt (W : Wave) (r : Regs) (q : Rid) : (W.await r q).resendAt = W.resendAt := rfl
@[simp] theorem Wave.await_refused (W : Wave) (r : Regs) (q : Rid) : (W.await r q).refused = W.refused := rfl
@[simp] theorem Wave.await_descs (W : Wave) (r : Regs) (q : Rid) : (W.await r q).descs = W.descs := rfl
@[simp] theorem Wave.await_taken (W : Wave) (r : Regs) (q : Rid) : (W.await r q).taken = W.taken := rfl
@[simp] theorem Wave.await_late (W : Wave) (r : Regs) (q : Rid) : (W.await r q).late = W.late := rfl
@[simp] theorem Wave.await_ordered (W : Wave) (r : Regs) (q : Rid) : (W.await r q).ordered = W.ordered := rfl

/-! Wave.wake -/

@[simp] theorem Wave.wake_v (W : Wave) : (W.wake).v = W.v := rfl
@[simp] theorem Wave.wake_s (W : Wave) : (W.wake).s = W.s := rfl
@[simp] theorem Wave.wake_p (W : Wave) : (W.wake).p = W.p := rfl
@[simp] theorem Wave.wake_vpoison (W : Wave) : (W.wake).vpoison = W.vpoison := rfl
@[simp] theorem Wave.wake_spoison (W : Wave) : (W.wake).spoison = W.spoison := rfl
@[simp] theorem Wave.wake_cause (W : Wave) : (W.wake).cause = W.cause := rfl
@[simp] theorem Wave.wake_wepc (W : Wave) : (W.wake).wepc = W.wepc := rfl
@[simp] theorem Wave.wake_wpark (W : Wave) : (W.wake).wpark = W.wpark := rfl
@[simp] theorem Wave.wake_wtraparg (W : Wave) : (W.wake).wtraparg = W.wtraparg := rfl
@[simp] theorem Wave.wake_whandler (W : Wave) : (W.wake).whandler = W.whandler := rfl
@[simp] theorem Wave.wake_cte (W : Wave) : (W.wake).cte = W.cte := rfl
@[simp] theorem Wave.wake_intrap (W : Wave) : (W.wake).intrap = W.intrap := rfl
@[simp] theorem Wave.wake_defer (W : Wave) : (W.wake).defer = W.defer := rfl
@[simp] theorem Wave.wake_wclock (W : Wave) : (W.wake).wclock = W.wclock := rfl
@[simp] theorem Wave.wake_fpctl (W : Wave) : (W.wake).fpctl = W.fpctl := rfl
@[simp] theorem Wave.wake_mbdest (W : Wave) : (W.wake).mbdest = W.mbdest := rfl
@[simp] theorem Wave.wake_trapGang (W : Wave) : (W.wake).trapGang = W.trapGang := rfl
@[simp] theorem Wave.wake_parkGang (W : Wave) : (W.wake).parkGang = W.parkGang := rfl
@[simp] theorem Wave.wake_parked (W : Wave) : (W.wake).parked = W.parked := rfl
@[simp] theorem Wave.wake_replay (W : Wave) : (W.wake).replay = W.replay := rfl
@[simp] theorem Wave.wake_parks (W : Wave) : (W.wake).parks = W.parks := rfl
@[simp] theorem Wave.wake_parkAcc (W : Wave) : (W.wake).parkAcc = W.parkAcc := rfl
@[simp] theorem Wave.wake_stamp (W : Wave) : (W.wake).stamp = W.stamp := rfl
@[simp] theorem Wave.wake_lastGang (W : Wave) : (W.wake).lastGang = W.lastGang := rfl
@[simp] theorem Wave.wake_blockedAt (W : Wave) : (W.wake).blockedAt = W.blockedAt := rfl
@[simp] theorem Wave.wake_blockTh (W : Wave) : (W.wake).blockTh = W.blockTh := rfl
@[simp] theorem Wave.wake_mbox (W : Wave) : (W.wake).mbox = W.mbox := rfl
@[simp] theorem Wave.wake_mbReserved (W : Wave) : (W.wake).mbReserved = W.mbReserved := rfl
@[simp] theorem Wave.wake_storeQ (W : Wave) : (W.wake).storeQ = W.storeQ := rfl
@[simp] theorem Wave.wake_owc (W : Wave) : (W.wake).owc = W.owc := rfl
@[simp] theorem Wave.wake_busy (W : Wave) : (W.wake).busy = W.busy := rfl
@[simp] theorem Wave.wake_slots (W : Wave) : (W.wake).slots = W.slots := rfl
@[simp] theorem Wave.wake_sending (W : Wave) : (W.wake).sending = W.sending := rfl
@[simp] theorem Wave.wake_resendAt (W : Wave) : (W.wake).resendAt = W.resendAt := rfl
@[simp] theorem Wave.wake_refused (W : Wave) : (W.wake).refused = W.refused := rfl
@[simp] theorem Wave.wake_descs (W : Wave) : (W.wake).descs = W.descs := rfl
@[simp] theorem Wave.wake_taken (W : Wave) : (W.wake).taken = W.taken := rfl
@[simp] theorem Wave.wake_late (W : Wave) : (W.wake).late = W.late := rfl
@[simp] theorem Wave.wake_ordered (W : Wave) : (W.wake).ordered = W.ordered := rfl

/-! Ctx.putK -/

@[simp] theorem Ctx.putK_st (X : Ctx) (n : BitVec 8) (v : Nat) : (X.putK n v).st = X.st := rfl
@[simp] theorem Ctx.putK_k (X : Ctx) (n : BitVec 8) (v : Nat) : (X.putK n v).k = smPut 0 X.k n.toNat (BitVec.ofNat 64 v) := rfl
@[simp] theorem Ctx.putK_kpoison (X : Ctx) (n : BitVec 8) (v : Nat) : (X.putK n v).kpoison = nsDel X.kpoison n.toNat := rfl
@[simp] theorem Ctx.putK_kbusy (X : Ctx) (n : BitVec 8) (v : Nat) : (X.putK n v).kbusy = X.kbusy := rfl
@[simp] theorem Ctx.putK_reqBusy (X : Ctx) (n : BitVec 8) (v : Nat) : (X.putK n v).reqBusy = X.reqBusy := rfl
@[simp] theorem Ctx.putK_ags (X : Ctx) (n : BitVec 8) (v : Nat) : (X.putK n v).ags = X.ags := rfl
@[simp] theorem Ctx.putK_kpc (X : Ctx) (n : BitVec 8) (v : Nat) : (X.putK n v).kpc = X.kpc := rfl
@[simp] theorem Ctx.putK_kcause (X : Ctx) (n : BitVec 8) (v : Nat) : (X.putK n v).kcause = X.kcause := rfl
@[simp] theorem Ctx.putK_karg (X : Ctx) (n : BitVec 8) (v : Nat) : (X.putK n v).karg = X.karg := rfl
@[simp] theorem Ctx.putK_ktl (X : Ctx) (n : BitVec 8) (v : Nat) : (X.putK n v).ktl = X.ktl := rfl
@[simp] theorem Ctx.putK_kout (X : Ctx) (n : BitVec 8) (v : Nat) : (X.putK n v).kout = X.kout := rfl
@[simp] theorem Ctx.putK_ktag (X : Ctx) (n : BitVec 8) (v : Nat) : (X.putK n v).ktag = X.ktag := rfl
@[simp] theorem Ctx.putK_team (X : Ctx) (n : BitVec 8) (v : Nat) : (X.putK n v).team = X.team := rfl
@[simp] theorem Ctx.putK_launch (X : Ctx) (n : BitVec 8) (v : Nat) : (X.putK n v).launch = X.launch := rfl
@[simp] theorem Ctx.putK_part (X : Ctx) (n : BitVec 8) (v : Nat) : (X.putK n v).part = X.part := rfl
@[simp] theorem Ctx.putK_asid (X : Ctx) (n : BitVec 8) (v : Nat) : (X.putK n v).asid = X.asid := rfl
@[simp] theorem Ctx.putK_cte (X : Ctx) (n : BitVec 8) (v : Nat) : (X.putK n v).cte = X.cte := rfl
@[simp] theorem Ctx.putK_secure (X : Ctx) (n : BitVec 8) (v : Nat) : (X.putK n v).secure = X.secure := rfl
@[simp] theorem Ctx.putK_bind (X : Ctx) (n : BitVec 8) (v : Nat) : (X.putK n v).bind = X.bind := rfl
@[simp] theorem Ctx.putK_copies (X : Ctx) (n : BitVec 8) (v : Nat) : (X.putK n v).copies = X.copies := rfl
@[simp] theorem Ctx.putK_issued (X : Ctx) (n : BitVec 8) (v : Nat) : (X.putK n v).issued = X.issued := rfl
@[simp] theorem Ctx.putK_deferred (X : Ctx) (n : BitVec 8) (v : Nat) : (X.putK n v).deferred = X.deferred := rfl
@[simp] theorem Ctx.putK_storeQ (X : Ctx) (n : BitVec 8) (v : Nat) : (X.putK n v).storeQ = X.storeQ := rfl
@[simp] theorem Ctx.putK_owc (X : Ctx) (n : BitVec 8) (v : Nat) : (X.putK n v).owc = X.owc := rfl
@[simp] theorem Ctx.putK_wait (X : Ctx) (n : BitVec 8) (v : Nat) : (X.putK n v).wait = X.wait := rfl
@[simp] theorem Ctx.putK_faultVa (X : Ctx) (n : BitVec 8) (v : Nat) : (X.putK n v).faultVa = X.faultVa := rfl
@[simp] theorem Ctx.putK_faultAcc (X : Ctx) (n : BitVec 8) (v : Nat) : (X.putK n v).faultAcc = X.faultAcc := rfl
@[simp] theorem Ctx.putK_stamp (X : Ctx) (n : BitVec 8) (v : Nat) : (X.putK n v).stamp = X.stamp := rfl
@[simp] theorem Ctx.putK_noted (X : Ctx) (n : BitVec 8) (v : Nat) : (X.putK n v).noted = X.noted := rfl
@[simp] theorem Ctx.putK_parks (X : Ctx) (n : BitVec 8) (v : Nat) : (X.putK n v).parks = X.parks := rfl
@[simp] theorem Ctx.putK_copyFail (X : Ctx) (n : BitVec 8) (v : Nat) : (X.putK n v).copyFail = X.copyFail := rfl
@[simp] theorem Ctx.putK_redo (X : Ctx) (n : BitVec 8) (v : Nat) : (X.putK n v).redo = X.redo := rfl
@[simp] theorem Ctx.putK_outNow (X : Ctx) (n : BitVec 8) (v : Nat) : (X.putK n v).outNow = X.outNow := rfl
@[simp] theorem Ctx.putK_outAt (X : Ctx) (n : BitVec 8) (v : Nat) : (X.putK n v).outAt = X.outAt := rfl
@[simp] theorem Ctx.putK_killed (X : Ctx) (n : BitVec 8) (v : Nat) : (X.putK n v).killed = X.killed := rfl
@[simp] theorem Ctx.putK_seq (X : Ctx) (n : BitVec 8) (v : Nat) : (X.putK n v).seq = X.seq := rfl

end Sys2Proof.Machine
end

