-- ==== Sys2Proof/Laws/Tables.lean ====
section
/-! SUPPORT. Sparse tables, sets of numbers, lists by index, lanes and byte strings: reading after writing. -/

namespace Sys2Proof.Machine

variable {α β : Type}

/-! Tables. -/

@[simp] theorem smGet?_nil (k : Nat) : smGet? ([] : SMap α) k = none := rfl

@[simp] theorem smGet?_smSet_self (m : SMap α) (k : Nat) (x : α) : smGet? (smSet m k x) k = some x := by
  induction m with
  | nil => simp [smSet, smGet?]
  | cons p r ih =>
    obtain ⟨j, y⟩ := p
    simp only [smSet]
    split
    · simp [smGet?]
    · split
      · simp [smGet?]
      · rename_i h _; simp [smGet?, h, ih]

theorem smGet?_smSet_ne (m : SMap α) {j k : Nat} (x : α) (h : j ≠ k) : smGet? (smSet m k x) j = smGet? m j := by
  induction m with
  | nil => simp [smSet, smGet?, h]
  | cons p r ih =>
    obtain ⟨i, y⟩ := p
    simp only [smSet]
    split
    · rename_i e; simp at e; subst e; simp [smGet?, h]
    · split
      · simp [smGet?, h]
      · simp [smGet?, ih]

theorem smGet?_smSet (m : SMap α) (j k : Nat) (x : α) : smGet? (smSet m k x) j = if j = k then some x else smGet? m j := by
  by_cases h : j = k
  · subst h; simp
  · simp [smGet?_smSet_ne m x h, h]

theorem smGet?_smDel (m : SMap α) (j k : Nat) : smGet? (smDel m k) j = if j = k then none else smGet? m j := by
  induction m with
  | nil => simp [smDel]
  | cons p r ih =>
    obtain ⟨i, y⟩ := p
    simp only [smDel] at ih
    by_cases hi : i = k
    · subst hi
      by_cases hj : j = i <;> simp_all [smDel, smGet?]
    · by_cases hj : j = i
      · subst hj; simp [smDel, smGet?, hi]
      · simp_all [smDel, smGet?]

theorem smGet?_smMod (m : SMap α) (j k : Nat) (f : α → α) :
    smGet? (smMod m k f) j = if j = k then (smGet? m j).map f else smGet? m j := by
  induction m with
  | nil => simp [smMod]
  | cons p r ih =>
    obtain ⟨i, y⟩ := p
    simp only [smMod] at ih
    by_cases hi : i = k
    · subst hi
      by_cases hj : j = i <;> simp_all [smMod, smGet?]
    · by_cases hj : j = i
      · subst hj; simp [smMod, smGet?, hi]
      · simp_all [smMod, smGet?]

@[simp] theorem smGet?_smMod_self (m : SMap α) (k : Nat) (f : α → α) : smGet? (smMod m k f) k = (smGet? m k).map f := by
  simp [smGet?_smMod]

theorem smGet?_smMod_ne (m : SMap α) {j k : Nat} (f : α → α) (h : j ≠ k) : smGet? (smMod m k f) j = smGet? m j := by
  simp [smGet?_smMod, h]

theorem smGetD_smPut [BEq α] [LawfulBEq α] (d : α) (m : SMap α) (j k : Nat) (x : α) :
    smGetD (smPut d m k x) j d = if j = k then x else smGetD m j d := by
  unfold smPut smGetD
  split
  · rename_i h
    simp at h
    subst h
    by_cases e : j = k <;> simp [smGet?_smDel, e]
  · by_cases e : j = k <;> simp [smGet?_smSet, e]

@[simp] theorem smGetD_smPut_self [BEq α] [LawfulBEq α] (d : α) (m : SMap α) (k : Nat) (x : α) : smGetD (smPut d m k x) k d = x := by
  simp [smGetD_smPut]

theorem smGetD_smPut_ne [BEq α] [LawfulBEq α] (d : α) (m : SMap α) {j k : Nat} (x : α) (h : j ≠ k) :
    smGetD (smPut d m k x) j d = smGetD m j d := by
  simp [smGetD_smPut, h]

/-! Sets. -/

theorem mem_nsAdd (m : NSet) (j k : Nat) : j ∈ nsAdd m k ↔ j = k ∨ j ∈ m := by
  induction m with
  | nil => simp [nsAdd]
  | cons i r ih =>
    simp only [nsAdd]
    split
    · rename_i h; simp at h; subst h; simp
    · split
      · simp
      · simp only [List.mem_cons, ih]; tauto

@[simp] theorem nsHas_nsAdd (m : NSet) (j k : Nat) : nsHas (nsAdd m k) j = (j == k || nsHas m j) := by
  rw [Bool.eq_iff_iff]
  simp [nsHas, mem_nsAdd]

@[simp] theorem nsHas_nsDel (m : NSet) (j k : Nat) : nsHas (nsDel m k) j = (j != k && nsHas m j) := by
  simp only [nsHas, nsDel]
  by_cases h : j = k
  · subst h; simp
  · by_cases e : j ∈ m <;> simp [h, e]

theorem nsHas_nsPut (m : NSet) (j k : Nat) (b : Bool) : nsHas (nsPut m k b) j = if j = k then b else nsHas m j := by
  cases b <;> by_cases h : j = k <;> simp [nsPut, h]

/-! Lists by index. -/

@[simp] theorem length_setAt (l : List α) (i : Nat) (x : α) : (setAt l i x).length = l.length := by
  induction l generalizing i with
  | nil => cases i <;> rfl
  | cons y r ih => cases i <;> simp [setAt, ih]

@[simp] theorem length_modAt (l : List α) (i : Nat) (f : α → α) : (modAt l i f).length = l.length := by
  induction l generalizing i with
  | nil => cases i <;> rfl
  | cons y r ih => cases i <;> simp [modAt, ih]

theorem getElem?_setAt (l : List α) (i j : Nat) (x : α) : (setAt l i x)[j]? = if j = i then l[j]?.map (fun _ => x) else l[j]? := by
  induction l generalizing i j with
  | nil => cases i <;> simp [setAt]
  | cons y r ih => cases i <;> cases j <;> simp [setAt, ih]

theorem getElem?_modAt (l : List α) (i j : Nat) (f : α → α) : (modAt l i f)[j]? = if j = i then l[j]?.map f else l[j]? := by
  induction l generalizing i j with
  | nil => cases i <;> simp [modAt]
  | cons y r ih => cases i <;> cases j <;> simp [modAt, ih]

/-! Lanes and slices. -/

theorem mem_lanesOf (m : LaneMask) (l : Nat) : l ∈ lanesOf m ↔ m.getLsbD l = true := by
  simp only [lanesOf, List.mem_filter, List.mem_range, and_iff_right_iff_imp]
  intro h
  by_contra e
  simp [BitVec.getLsbD_of_ge m l (by omega)] at h

theorem lanesOf_nodup (m : LaneMask) : (lanesOf m).Nodup := List.Nodup.filter _ List.nodup_range

theorem mem_slicesOf (g : BitVec 8) (i : Nat) : i ∈ slicesOf g ↔ g.getLsbD i = true := by
  simp only [slicesOf, List.mem_filter, List.mem_range, and_iff_right_iff_imp]
  intro h
  by_contra e
  simp [BitVec.getLsbD_of_ge g i (by omega)] at h

theorem lt_of_getLsbD_lane {m : LaneMask} {l : Nat} (h : m.getLsbD l = true) : l < 32 := by
  by_contra e
  simp [BitVec.getLsbD_of_ge m l (by omega)] at h

/-- The sum that builds a mask from the bits a test selects, as binary digits. -/
theorem foldl_bits (f : Nat → Bool) (n : Nat) :
    (List.range n).foldl (fun a i => if f i then a + 2 ^ i else a) 0 < 2 ^ n ∧
      ∀ l, ((List.range n).foldl (fun a i => if f i then a + 2 ^ i else a) 0).testBit l = (decide (l < n) && f l) := by
  induction n with
  | zero => simp
  | succ n ih =>
    obtain ⟨hlt, hb⟩ := ih
    rw [List.range_succ, List.foldl_append]
    simp only [List.foldl_cons, List.foldl_nil]
    generalize (List.range n).foldl (fun a i => if f i then a + 2 ^ i else a) 0 = x at *
    split
    · rename_i h
      refine ⟨by rw [Nat.pow_succ]; omega, fun l => ?_⟩
      rw [Nat.add_comm]
      by_cases e : l < n
      · rw [Nat.testBit_two_pow_add_gt e, hb]; simp [e, Nat.lt_succ_of_lt e]
      · by_cases e2 : l = n
        · subst e2; rw [Nat.testBit_two_pow_add_eq, hb]; simp [h]
        · have : 2 ^ n + x < 2 ^ l := by
            have : 2 ^ (n + 1) ≤ 2 ^ l := Nat.pow_le_pow_right (by omega) (by omega)
            rw [Nat.pow_succ] at this; omega
          rw [Nat.testBit_lt_two_pow this]; simp; omega
    · rename_i h
      refine ⟨by rw [Nat.pow_succ]; omega, fun l => ?_⟩
      rw [hb]
      by_cases e2 : l = n
      · subst e2; simp [h]
      · by_cases e : l < n
        · simp [e, Nat.lt_succ_of_lt e]
        · have : ¬ l < n + 1 := by omega
          simp [e, this]

@[simp] theorem getLsbD_maskOf (f : Nat → Bool) (l : Nat) : (maskOf f).getLsbD l = (decide (l < 32) && f l) := by
  simp only [maskOf, BitVec.getLsbD_ofNat, (foldl_bits f 32).2 l]
  cases decide (l < 32) <;> simp

/-! Byte strings. -/

@[simp] theorem length_toBytes (n x : Nat) : (toBytes n x).length = n := by simp [toBytes]

@[simp] theorem length_sliceB (bs : List Byte) (o n : Nat) : (sliceB bs o n).length = n := by simp [sliceB]

theorem toBytes_succ (n x : Nat) : toBytes (n + 1) x = BitVec.ofNat 8 x :: toBytes n (x / 256) := by
  simp only [toBytes, List.range_succ_eq_map, List.map_cons, List.map_map]
  refine congrArg₂ _ (by simp) (List.map_congr_left fun i _ => ?_)
  simp only [Function.comp, Nat.succ_eq_add_one]
  rw [Nat.div_div_eq_div_mul, Nat.mul_add, Nat.pow_add, Nat.mul_comm (2 ^ (8 * i))]

theorem ofBytes_toBytes (n x : Nat) : ofBytes (toBytes n x) = x % 256 ^ n := by
  induction n generalizing x with
  | zero => simp [toBytes, ofBytes, Nat.mod_one]
  | succ n ih =>
    have := ih (x / 256)
    simp only [ofBytes] at this
    rw [toBytes_succ]
    simp only [ofBytes, List.foldr_cons, this, BitVec.toNat_ofNat]
    rw [show 256 ^ (n + 1) = 256 * 256 ^ n from Nat.pow_succ', Nat.mod_mul]

theorem ofBytes_lt (bs : List Byte) : ofBytes bs < 256 ^ bs.length := by
  induction bs with
  | nil => simp [ofBytes]
  | cons b r ih =>
    simp only [ofBytes, List.foldr_cons, List.length_cons] at *
    have := b.isLt
    rw [Nat.pow_succ]
    omega

end Sys2Proof.Machine
end

