-- ==== Sys2Proof/Laws/Issue.lean ====
section
/-! SUPPORT. How a meaning begins and ends: the checks as steps of Except, the issuing gang, and what each outcome of a word does. -/

namespace Sys2Proof.Machine

/-! Except. -/

/-- A sequence succeeds exactly when both its parts do. -/
theorem except_bind_ok {ε α β : Type} {x : Except ε α} {f : α → Except ε β} {r : β} :
    x >>= f = .ok r ↔ ∃ a, x = .ok a ∧ f a = .ok r := by
  cases x <;> simp [bind, Except.bind]

/-- A sequence fails in its first part, or in its second. -/
theorem except_bind_error {ε α β : Type} {x : Except ε α} {f : α → Except ε β} {e : ε} :
    x >>= f = .error e ↔ x = .error e ∨ ∃ a, x = .ok a ∧ f a = .error e := by
  cases x <;> simp [bind, Except.bind]

@[simp] theorem trapIf_ok {b : Bool} {c : Cause} {arg : DWord} {u : Unit} : trapIf b c arg = .ok u ↔ b = false := by
  cases b <;> simp [trapIf]

@[simp] theorem waitIf_ok {b : Bool} {k : WaitKind} {s : State} {u : Unit} : waitIf b k s = .ok u ↔ b = false := by
  cases b <;> simp [waitIf]

@[simp] theorem needs_ok {b : Bool} {u : Unit} : needs b = .ok u ↔ b = true := by
  cases b <;> simp [needs]

@[simp] theorem need_ok {α : Type} {o : Option α} {x : α} : need o = .ok x ↔ o = some x := by
  cases o <;> simp [need]

/-! The issuing gang. -/

/-- What the gang that issues a word is: the team and wave of `cur` as they stand, the gang's live slices, its guarded lanes (R12,
R90), and nothing popped yet. -/
theorem wctx?_spec {s : State} {t w : Nat} {gang : BitVec 8} {g : BitVec 4} {c : WCtx} (h : wctx? s t w gang g = some c) :
    c.s = s ∧ c.t = t ∧ c.w = w ∧ c.gang = gang ∧ team? s t = some c.T ∧ c.T.waves[w]? = some c.W ∧ gang ≠ 0 ∧
      gang &&& ~~~c.W.live = 0 ∧ c.pops = [] ∧
      c.lanes = (let m := c.W.gangLanes gang &&& c.W.guard g
        if c.W.replay && gang == c.W.parkGang then m &&& c.W.wpark else m) := by
  unfold wctx? at h
  split at h
  · simp at h
  · rename_i T hT
    split at h
    · simp at h
    · rename_i W hW
      split at h
      · simp at h
      · rename_i hg
        injection h with h
        subst h
        simp only [Bool.or_eq_true, beq_iff_eq, bne_iff_ne, ne_eq, not_or, Decidable.not_not] at hg
        exact ⟨rfl, rfl, rfl, rfl, hT, hW, hg.1, hg.2, rfl, rfl⟩

/-- A word of a wave whose profile has it is its meaning for waves. -/
theorem issue_wave {opc : Nat} {g : BitVec 4} {s : State} {wave : WCtx → Except Stop State} {ctx : KCtx → Except Stop State}
    {lane : Eval → Except Stop Eval} {t w : Nat} {gang : BitVec 8} {c : WCtx} (hc : s.cur = .wave t w gang)
    (h : wctx? s t w gang g = some c) (ho : computeAllows opc = true) :
    issue opc g s wave ctx lane = finishWave s t w gang (wave c) := by
  simp [issue, hc, h, ho]

/-- A word of a context whose profile has it is its meaning for contexts. -/
theorem issue_context {opc : Nat} {g : BitVec 4} {s : State} {wave : WCtx → Except Stop State} {ctx : KCtx → Except Stop State}
    {lane : Eval → Except Stop Eval} {x : Nat} {c : KCtx} (hc : s.cur = .context x) (h : kctx? s x = some c)
    (ho : streamAllows opc = true) : issue opc g s wave ctx lane = finishCtx s x (ctx c) := by
  simp [issue, hc, h, ho]

/-! Outcomes. -/

@[simp] theorem finishWave_ok (s : State) (t w : Nat) (g : BitVec 8) (s' : State) : finishWave s t w g (.ok s') = .next s' := rfl

@[simp] theorem finishWave_trap (s : State) (t w : Nat) (g : BitVec 8) (c : Cause) (a : DWord) :
    finishWave s t w g (.error (.trap c a)) = .next (takeTrap s t w g c a) := rfl

@[simp] theorem finishWave_wait (s : State) (t w : Nat) (g : BitVec 8) (k : WaitKind) (s' : State) :
    finishWave s t w g (.error (.wait k s')) = .next (holdAt s' t w g (.wait k)) := rfl

@[simp] theorem finishCtx_ok (s : State) (x : Nat) (s' : State) : finishCtx s x (.ok s') = .next s' := rfl

/-- A word of a wave that answers a next state has completed, trapped, begun to wait, or is no word of this machine's
and left the state alone. -/
theorem finishWave_next {s : State} {t w : Nat} {g : BitVec 8} {r : Except Stop State} {s' : State}
    (h : finishWave s t w g r = .next s') :
    r = .ok s' ∨ (∃ c a, r = .error (.trap c a) ∧ s' = takeTrap s t w g c a) ∨
      (∃ k q, r = .error (.wait k q) ∧ s' = holdAt q t w g (.wait k)) ∨ r = .error .off ∧ s' = s := by
  unfold finishWave at h
  split at h
  · injection h with h; subst h; exact .inl rfl
  · injection h with h; exact .inr (.inl ⟨_, _, rfl, h.symm⟩)
  · injection h with h; exact .inr (.inr (.inl ⟨_, _, rfl, h.symm⟩))
  · injection h with h; exact .inr (.inr (.inr ⟨rfl, h.symm⟩))
  · simp at h

@[simp] theorem finishEvent_ok (s s' : State) : finishEvent s (.ok s') = .next s' := rfl

@[simp] theorem finishEvent_error (s : State) (e : Stop) : finishEvent s (.error e) = .next s := rfl

/-- An event always answers a next state: the one it makes, or, where it cannot happen, the one it met. -/
theorem finishEvent_total (s : State) (r : Except Stop State) :
    finishEvent s r = .next (match r with | .ok s' => s' | .error _ => s) := by
  cases r <;> rfl

end Sys2Proof.Machine
end

