-- ==== Sys2Proof/Laws/Memory.lean ====
section
/-! SUPPORT. The memory: every operation on it keeps the canonical form (Memory.wf), and a byte read after a write is the byte written
or the byte that stood there. -/

namespace Sys2Proof.Machine

/-- The canonical form as two facts: addresses strictly rising, no entry at the default. -/
theorem Memory.wf_iff (m : List Host.Cell) :
    Memory.wf m = true ↔ m.Pairwise (fun c d => c.1 < d.1) ∧ ∀ c ∈ m, c.2 ≠ memDefault := by
  induction m with
  | nil => simp [Memory.wf]
  | cons c r ih =>
    cases r with
    | nil => simp [Memory.wf]
    | cons d r =>
      simp only [Memory.wf, Bool.and_eq_true, bne_iff_ne, ne_eq, decide_eq_true_eq, ih, List.mem_cons, forall_eq_or_imp,
        List.pairwise_cons]
      constructor
      · rintro ⟨⟨h1, h2⟩, ⟨h3, h4⟩, h5, h6⟩
        exact ⟨⟨⟨h2, fun a ha => Nat.lt_trans h2 (h3 a ha)⟩, h3, h4⟩, h1, h5, h6⟩
      · rintro ⟨⟨⟨h2, _⟩, h3, h4⟩, h1, h5, h6⟩
        exact ⟨⟨h1, h2⟩, ⟨h3, h4⟩, h5, h6⟩

theorem mem_smSet {α : Type} {m : SMap α} {k : Nat} {x : α} {p : Nat × α} (h : p ∈ smSet m k x) : p = (k, x) ∨ p ∈ m := by
  induction m with
  | nil => simpa [smSet] using h
  | cons q r ih =>
    obtain ⟨j, y⟩ := q
    simp only [smSet] at h
    split at h
    · rcases List.mem_cons.1 h with h | h
      · exact .inl h
      · exact .inr (.tail _ h)
    · split at h
      · rcases List.mem_cons.1 h with h | h
        · exact .inl h
        · exact .inr h
      · rcases List.mem_cons.1 h with h | h
        · exact .inr (h ▸ .head _)
        · exact (ih h).imp id (.tail _)

/-- Setting an entry keeps the keys rising. -/
theorem smSet_sorted {α : Type} {m : SMap α} (k : Nat) (x : α) (h : m.Pairwise fun c d => c.1 < d.1) :
    (smSet m k x).Pairwise fun c d => c.1 < d.1 := by
  induction m with
  | nil => simp [smSet]
  | cons q r ih =>
    obtain ⟨j, y⟩ := q
    rw [List.pairwise_cons] at h
    simp only [smSet]
    split
    · rename_i e
      rw [List.pairwise_cons]
      exact ⟨by simpa [(beq_iff_eq.1 e)] using h.1, h.2⟩
    · split
      · rename_i _ e
        refine List.pairwise_cons.2 ⟨fun a ha => ?_, List.pairwise_cons.2 h⟩
        rcases List.mem_cons.1 ha with rfl | ha
        · exact e
        · exact Nat.lt_trans e (h.1 a ha)
      · rename_i e1 e2
        refine List.pairwise_cons.2 ⟨fun a ha => ?_, ih h.2⟩
        have : j ≠ k := fun e => e1 (by simp [e])
        rcases mem_smSet ha with rfl | ha
        · simp only; omega
        · exact h.1 a ha

/-- Removing entries keeps the canonical form. -/
theorem Memory.wf_filter {m : List Host.Cell} (f : Host.Cell → Bool) (h : Memory.wf m = true) : Memory.wf (m.filter f) = true := by
  rw [Memory.wf_iff] at *
  exact ⟨h.1.filter _, fun c hc => h.2 c (List.mem_filter.1 hc).1⟩

/-- Writing a byte keeps the canonical form. -/
theorem memSet_wf {m : List Host.Cell} (a : Nat) (b : Byte) (h : Memory.wf m = true) : Memory.wf (memSet m a b) = true := by
  unfold memSet smPut
  split
  · exact Memory.wf_filter _ h
  · rename_i e
    rw [Memory.wf_iff] at *
    refine ⟨smSet_sorted a b h.1, fun c hc => ?_⟩
    rcases mem_smSet hc with rfl | hc
    · simpa using e
    · exact h.2 c hc

/-- Writing bytes keeps the canonical form. -/
theorem memSets_wf {m : List Host.Cell} (a : Nat) (bs : List Byte) (h : Memory.wf m = true) : Memory.wf (memSets m a bs) = true := by
  induction bs generalizing m a with
  | nil => exact h
  | cons b r ih => exact ih (a + 1) (memSet_wf a b h)

/-- A byte after a write: the byte written at its own address, the old byte everywhere else. -/
theorem memGet_memSet (m : List Host.Cell) (a k : Nat) (b : Byte) : memGet (memSet m a b) k = if k = a then b else memGet m k :=
  smGetD_smPut memDefault m k a b

@[simp] theorem memGet_memSet_self (m : List Host.Cell) (a : Nat) (b : Byte) : memGet (memSet m a b) a = b := by simp [memGet_memSet]

theorem memGet_memSet_ne (m : List Host.Cell) {a k : Nat} (b : Byte) (h : k ≠ a) : memGet (memSet m a b) k = memGet m k := by
  simp [memGet_memSet, h]

/-- The memory after bytes are written through the map keeps the canonical form. -/
theorem foldl_memSet_wf {α : Type} (l : List α) (f : α → Nat) (g : α → Byte) {m : List Host.Cell} (h : Memory.wf m = true) :
    Memory.wf (l.foldl (fun m x => memSet m (f x) (g x)) m) = true := by
  induction l generalizing m with
  | nil => exact h
  | cons x r ih => exact ih (memSet_wf _ _ h)

/-- A location that none of the writes is at keeps its byte. -/
theorem memGet_foldl_memSet {α : Type} (l : List α) (f : α → Nat) (g : α → Byte) (m : List Host.Cell) (k : Nat)
    (h : ∀ x ∈ l, f x ≠ k) : memGet (l.foldl (fun m x => memSet m (f x) (g x)) m) k = memGet m k := by
  induction l generalizing m with
  | nil => rfl
  | cons x r ih =>
    rw [List.foldl_cons, ih _ fun y hy => h y (.tail _ hy)]
    exact memGet_memSet_ne m _ (Ne.symm (h x (.head _)))

/-- Writing physical bytes keeps the canonical form. -/
theorem physSet_wf {s : State} (pa : Nat) (bs : List Byte) (h : Memory.wf s.mem = true) : Memory.wf (physSet s pa bs).mem = true :=
  foldl_memSet_wf _ _ _ h

/-- A location outside the bytes written at a physical address keeps its byte. -/
theorem physSet_other (s : State) (pa : Nat) (bs : List Byte) (k : Nat) (h : ∀ i, i < bs.length → loc s (pa + i) ≠ k) :
    memGet (physSet s pa bs).mem k = memGet s.mem k := by
  refine memGet_foldl_memSet _ _ _ _ _ fun x hx => ?_
  exact h _ (List.mem_range.1 (List.of_mem_zip hx).1)

/-- What no step of a fold changes in memory, the fold does not change. -/
theorem foldl_keeps_mem {α : Type} (f : State → α → State) (h : ∀ s x, (f s x).mem = s.mem) (l : List α) (s : State) :
    (l.foldl f s).mem = s.mem := by
  induction l generalizing s with
  | nil => rfl
  | cons x r ih => exact (ih _).trans (h s x)

/-- A write of the module that goes as requests changes no memory yet. -/
theorem sendOwn_mem (s : State) (pa : Nat) (bs : List Byte) : (sendOwn s pa bs).mem = s.mem := by
  unfold sendOwn
  apply foldl_keeps_mem
  intros
  rfl

/-- An update of a structure in memory keeps the canonical form. -/
theorem ownWrite_wf {s : State} (pa : Nat) (bs : List Byte) (h : Memory.wf s.mem = true) : Memory.wf (ownWrite s pa bs).mem = true := by
  unfold ownWrite
  split
  · exact h
  · split
    · rw [sendOwn_mem]; exact h
    · split
      · exact physSet_wf pa bs h
      · exact h

/-- Memory after reset is in the canonical form. -/
theorem reset_mem_wf : Memory.wf State.reset.mem = true := rfl

/-- The map does not depend on memory: an update of memory moves no byte. -/
theorem place_congr {s s' : State} (h : s'.moduleNo = s.moduleNo) (pa : Nat) : place s' pa = place s pa := by
  simp [place, h]

theorem loc_congr {s s' : State} (h : s'.moduleNo = s.moduleNo) (pa : Nat) : loc s' pa = loc s pa := by
  simp [loc, place_congr h]

@[simp] theorem loc_physSet (s : State) (pa : Nat) (bs : List Byte) (a : Nat) : loc (physSet s pa bs) a = loc s a := loc_congr rfl a

@[simp] theorem loc_setTeam (s : State) (t : Nat) (T : Team) (a : Nat) : loc (setTeam s t T) a = loc s a := loc_congr rfl a

theorem length_physGet (s : State) (pa n : Nat) : (physGet s pa n).length = n := by simp [physGet]

end Sys2Proof.Machine
end

