-- ==== Sys2Proof/Laws/Frame.lean ====
section
/-! SUPPORT. What the shared operations leave of memory: most do not touch it, and those that write it (the service queue, the node
state blocks, a home, a kill, a trap without a handler) keep its canonical form. -/

namespace Sys2Proof.Machine

/-- A property every step of a fold keeps holds at its end. -/
theorem foldl_keeps {σ α : Type} (p : σ → Prop) (f : σ → α → σ) (hf : ∀ s x, p s → p (f s x)) (l : List α) (s : σ) (h : p s) :
    p (l.foldl f s) := by
  induction l generalizing s with
  | nil => exact h
  | cons x r ih => exact ih _ (hf s x h)

/-- A fold whose steps leave a reading alone leaves it alone. -/
theorem foldl_same {σ α β : Type} (g : σ → β) (f : σ → α → σ) (hf : ∀ s x, g (f s x) = g s) (l : List α) (s : σ) :
    g (l.foldl f s) = g s := by
  induction l generalizing s with
  | nil => rfl
  | cons x r ih => rw [List.foldl_cons, ih, hf]

/-! Operations that do not touch memory. -/

@[simp] theorem makeReady_mem (s : State) (t w : Nat) : (makeReady s t w).mem = s.mem := by
  unfold makeReady
  split
  · rfl
  · split
    · rfl
    · split <;> rfl

@[simp] theorem wakeWave_mem (s : State) (t w : Nat) : (wakeWave s t w).mem = s.mem := by
  unfold wakeWave; split <;> simp

@[simp] theorem wakeTeam_mem (s : State) (t : Nat) : (wakeTeam s t).mem = s.mem := by
  unfold wakeTeam
  split
  · rfl
  · exact foldl_same State.mem _ (fun s w => wakeWave_mem s t w) _ s

@[simp] theorem wakeLaunch_mem (s : State) (l : Nat) : (wakeLaunch s l).mem = s.mem := by
  unfold wakeLaunch
  exact foldl_same State.mem _ (fun s (p : Nat × Team) => wakeTeam_mem s p.1) _ s

@[simp] theorem wakePart_mem (s : State) (p : Nat) : (wakePart s p).mem = s.mem := by
  unfold wakePart
  exact foldl_same State.mem _ (fun s (p : Nat × Team) => wakeTeam_mem s p.1) _ s

@[simp] theorem dropLines_mem (s : State) (c : Nat) (f : Nat → Bool) : (dropLines s c f).mem = s.mem := rfl

@[simp] theorem invalidate_mem (s : State) (c : Nat) : (invalidate s c).mem = s.mem := rfl

@[simp] theorem answer_mem (s : State) (p port : Nat) (tag : Word) (st : Nat) (r : DWord) : (answer s p port tag st r).mem = s.mem := rfl

@[simp] theorem holdAt_mem (s : State) (t w : Nat) (g : BitVec 8) (h : Hold) : (holdAt s t w g h).mem = s.mem := rfl

@[simp] theorem faultCtx_mem (s : State) (x c a va : Nat) : (faultCtx s x c a va).mem = s.mem := rfl

@[simp] theorem transmit_mem (s : State) (f : FabFlit) (p : Option Nat) : (transmit s f p).mem = s.mem := by
  unfold transmit
  split <;> rfl

@[simp] theorem fabSend_mem (s : State) (die p m vc : Nat) (rid : Rid) (q : Option MemReq) (f : Option MailFlit)
    (st : Option (Nat × Nat × Nat × Nat)) : (fabSend s die p m vc rid q f st).mem = s.mem := by
  simp only [fabSend, transmit_mem]

@[simp] theorem abortChain_mem (s : State) (t id why : Nat) : (abortChain s t id why).mem = s.mem := by
  unfold abortChain
  split
  · rfl
  · split
    · rfl
    · simp only [wakeTeam_mem]
      exact foldl_same State.mem (fun s d => jput s _) (fun _ _ => rfl) _ _

@[simp] theorem cutOp_mem (s : State) (t : Nat) (op : MxOp) : (cutOp s t op).mem = s.mem := by
  unfold cutOp
  split
  · rfl
  · simp only []
    split
    · rfl
    · exact foldl_same State.mem _ (fun s (u : Nat) => modTeam_mem s u _) _ _

@[simp] theorem cutClusterOps_mem (s : State) (t : Nat) : (cutClusterOps s t).mem = s.mem := by
  unfold cutClusterOps
  split
  · rfl
  · exact foldl_same State.mem _ (fun s (h : Nat × MxOp) => cutOp_mem s h.1 h.2) _ s

@[simp] theorem releaseUnits_mem (s : State) (t core : Nat) : (releaseUnits s t core).mem = s.mem := by
  unfold releaseUnits
  simp only [modCore_mem]
  refine foldl_same State.mem _ (fun s c => ?_) _ s
  split <;> rfl

@[simp] theorem freeImage_mem (s : State) (p : Nat) (im : Option Nat) : (freeImage s p im).mem = s.mem := by
  unfold freeImage
  split <;> rfl

theorem foldl_answer_mem (hit : Pending → State → State) (h : ∀ q s, (hit q s).mem = s.mem) (l : List Pending) (s : State) :
    (l.foldl (fun s q => hit q s) s).mem = s.mem := foldl_same State.mem _ (fun s q => h q s) l s

@[simp] theorem answerKills_mem (s : State) (p l : Nat) : (answerKills s p l).mem = s.mem := by
  unfold answerKills
  split
  · rfl
  · simp only []
    rw [foldl_same State.mem]
    · rfl
    · intro s q
      split <;> rfl

@[simp] theorem answerForces_mem (s : State) (p t : Nat) : (answerForces s p t).mem = s.mem := by
  unfold answerForces
  split
  · rfl
  · simp only []
    rw [foldl_same State.mem]
    · rfl
    · intro s q
      split <;> rfl

@[simp] theorem nodeIdle_mem (s : State) (p n : Nat) : (nodeIdle s p n).mem = s.mem := by
  unfold nodeIdle
  split
  · rfl
  · split
    · rfl
    · simp only []
      rw [foldl_same State.mem]
      · rfl
      · intro s q
        split <;> rfl

@[simp] theorem settleEnergy_mem (s : State) (t : Nat) (a : DWord) : (settleEnergy s t a).mem = s.mem := by
  unfold settleEnergy
  split <;> rfl

@[simp] theorem settleKilled_mem (s : State) (t : Nat) : (settleKilled s t).mem = s.mem := by
  unfold settleKilled
  split
  · exact settleEnergy_mem { s with fresh := s.fresh + 1 } t _
  · exact settleEnergy_mem s t _

theorem freeBytes_mem (s : State) (n : Nat) : (freeBytes s n).2.mem = s.mem := rfl

@[simp] theorem discardReq_mem (s : State) (r : MemReq) : (discardReq s r).1.mem = s.mem := by
  have h : ∀ s1 : State, s1.mem = s.mem → ((match r.kind with
      | .read | .atomic =>
        let (bs, s2) := freeBytes s1 r.size
        (s2, { r with st := .answered bs 0xFF#8, fill := false })
      | _ => (s1, { r with st := .acked })) : State × MemReq).1.mem = s.mem := by
    intro s1 e
    cases r.kind <;> exact e
  unfold discardReq
  apply h
  split <;> rfl

/-! Operations that write memory. -/

/-- The canonical form of a state's memory. -/
abbrev MemOk (s : State) : Prop := Memory.wf s.mem = true

theorem modNode_ok {s : State} (p n : Nat) (f : Node → Node) (h : MemOk s) : MemOk (modNode s p n f) := by
  unfold modNode
  split
  · exact h
  · simp only []
    split
    · exact h
    · exact ownWrite_wf _ _ h

theorem sqWrite_ok {s : State} (p : Nat) (P : Part) (rec : List Byte) (h : MemOk s) : MemOk (sqWrite s p P rec) :=
  ownWrite_wf (s := s) _ _ h

theorem sqDrain_ok (p n : Nat) {s : State} (h : MemOk s) : MemOk (sqDrain p n s) := by
  induction n generalizing s with
  | zero => exact h
  | succ n ih =>
    unfold sqDrain
    split
    · exact h
    · split
      · exact h
      · split
        · refine ih ?_
          rw [MemOk, modPart_mem]
          exact sqWrite_ok _ _ _ h
        · exact h

theorem sqPush_ok {s : State} (p : Nat) (rec : List Byte) (h : MemOk s) : MemOk (sqPush s p rec) := by
  unfold sqPush
  simp only []
  split
  · exact h
  · exact sqDrain_ok _ _ h

@[simp] theorem dropArrivals_mem (s : State) (f : Arrival → Bool) : (dropArrivals s f).mem = s.mem := rfl

theorem releaseSlots_ok {s : State} (p : Nat) (l : List Nat) (h : MemOk s) : MemOk (releaseSlots s p l) := by
  unfold releaseSlots
  split
  · exact h
  · rw [MemOk, wakePart_mem]
    exact foldl_keeps MemOk _ (fun _ _ hs => modNode_ok _ _ _ hs) _ s h

/-- A write of a request, marked or not, keeps the canonical form. -/
theorem physSet_marked_ok {s : State} (pa n : Nat) (bs : List Byte) (b : Bool) (h : MemOk s) :
    MemOk (if b then physMark (physSet s pa bs) pa n true else physSet s pa bs) := by
  have k : MemOk (physSet s pa bs) := physSet_wf _ _ h
  split
  · rwa [MemOk, physMark_mem]
  · exact k

/-- A home that performs a request keeps the canonical form (R341). -/
theorem performReq_ok {s : State} (r : MemReq) (h : MemOk s) : MemOk (performReq s r).1 := by
  unfold performReq
  split
  · exact h
  · exact physSet_marked_ok _ _ _ _ h
  · exact physSet_marked_ok _ _ _ _ h
  · exact physSet_marked_ok _ _ _ _ h

theorem settleReqs_ok {s : State} (dead : MemReq → Bool) (h : MemOk s) : MemOk (settleReqs s dead) := by
  unfold settleReqs
  refine foldl_keeps (fun a : State × Nat => MemOk a.1) _ (fun a r ha => ?_) _ (s, 0) h
  simp only []
  split
  · split
    · exact performReq_ok r ha
    · exact ha
  · exact ha

theorem launchOver_ok {s : State} (l : Nat) (h : MemOk s) : MemOk (launchOver s l) := by
  unfold launchOver
  split
  · exact h
  · split
    · exact h
    · simp only []
      unfold MemOk
      rw [nodeIdle_mem]
      exact modNode_ok _ _ _ h

/-- A kill keeps the canonical form (R443). -/
theorem killLaunch_ok {s : State} (l t : Nat) (rec : Option (List Byte)) (h : MemOk s) : MemOk (killLaunch s l t rec) := by
  unfold killLaunch
  split
  · exact h
  · split
    · exact h
    · simp only []
      unfold MemOk
      rw [answerKills_mem, foldl_same State.mem _ (fun s u => answerForces_mem s _ u)]
      have step : ∀ s : State, MemOk s → ∀ ts : List Nat, MemOk (ts.foldl (fun s u =>
          cutClusterOps ((((team? s u).elim [] (·.chains)).map (·.id)).foldl (fun s id => abortChain s u id 2) s) u) s) := by
        intro s hs ts
        refine foldl_keeps MemOk _ (fun s u hs => ?_) _ s hs
        unfold MemOk
        rw [cutClusterOps_mem, foldl_same State.mem _ (fun s id => abortChain_mem s u id 2)]
        exact hs
      have team : ∀ s : State, MemOk s → ∀ ts : List Nat, MemOk (ts.foldl (fun s u =>
          match team? s u with
          | none => s
          | some T => releaseSlots (freeImage (setTeam (releaseUnits s u T.core) u T.kill) T.part T.image) T.part
              (T.waves.flatMap (·.slots))) s) := by
        intro s hs ts
        refine foldl_keeps MemOk _ (fun s u hs => ?_) _ s hs
        split
        · exact hs
        · exact releaseSlots_ok _ _ (by simpa [MemOk] using hs)
      have done : ∀ (s : State) (p : Nat) (f : Part → Part) (ts : List Nat), MemOk s →
          MemOk (launchOver (ts.foldl settleKilled (modPart s p f)) l) := by
        intro s p f ts hs
        refine launchOver_ok l ?_
        unfold MemOk
        rw [foldl_same State.mem _ settleKilled_mem]
        exact hs
      cases rec with
      | none =>
        refine sqPush_ok _ _ (done _ _ _ _ (team _ ?_ _))
        simp only [MemOk, dropArrivals_mem]
        exact settleReqs_ok _ (step (modLaunch s l _) h _)
      | some r =>
        refine done _ _ _ _ (team _ ?_ _)
        simp only [MemOk, dropArrivals_mem]
        exact settleReqs_ok _ (step (modLaunch (sqPush s _ r) l _) (sqPush_ok _ r h) _)

/-- A trap keeps the canonical form: entry to a handler touches no memory, without one the record and the kill keep it. -/
theorem takeTrapAt_ok {s : State} (t w : Nat) (g : BitVec 8) (cause : Nat) (arg epc : DWord) (df : Bool) (h : MemOk s) :
    MemOk (takeTrapAt s t w g cause arg epc df) := by
  unfold takeTrapAt
  split
  · exact h
  · split
    · exact h
    · split
      · exact h
      · exact killLaunch_ok _ _ _ h

theorem takeTrap_ok {s : State} (t w : Nat) (g : BitVec 8) (c : Cause) (a : DWord) (h : MemOk s) : MemOk (takeTrap s t w g c a) :=
  takeTrapAt_ok _ _ _ _ _ _ _ h

/-- A word of a wave keeps the canonical form when its completion and the state it waits in do. -/
theorem finishWave_memOk {s : State} {t w : Nat} {g : BitVec 8} {r : Except Stop State} {s' : State} (hs : MemOk s)
    (hok : ∀ q, r = .ok q → MemOk q) (hw : ∀ k q, r = .error (.wait k q) → MemOk q) (h : finishWave s t w g r = .next s') : MemOk s' := by
  rcases finishWave_next h with e | ⟨c, a, _, e⟩ | ⟨k, q, e, e'⟩ | ⟨_, e⟩
  · exact hok _ e
  · exact e ▸ takeTrap_ok _ _ _ _ _ hs
  · subst e'; exact hw k q e
  · exact e ▸ hs

end Sys2Proof.Machine
end

