-- ==== Sys2Proof/Laws/PerInstr.lean ====
section
/-! SUPPORT. The family Codec, one lemma per constructor of Instr: the reader of its layout gives a well-formed instruction back from the
word that encodes it (R88, R89, R93, R101, R106, R108, R109, R111, R118); an event has no word. -/

namespace Sys2Proof.Laws.Codec

open Sys2Proof Sys2Proof.Laws

/-- The fields as the decoder reads them, before it checks the word (R88, R118). -/
def read (w : IWord) : Option Instr := if pairedBit w then some (.pairedWord (PairW.unpack w)) else unpackFull w

/-- Reading what a well-formed instruction encodes to gives the instruction. -/
def Statement (i : Instr) : Prop := ∀ w, i.wf = true → encode i = some w → read w = some i

/-- A full word of the layout AluW is read by the row of its opcode. -/
theorem read_alu (f : AluW) (o : BitVec 8) : read (f.pack o) = unpackFull (f.pack o) := by
  simp [read, (alu_opc f o).2.2]

/-- A full word of the layout MemW is read by the row of its opcode. -/
theorem read_mem (f : MemW) (o : BitVec 8) : read (f.pack o) = unpackFull (f.pack o) := by
  simp [read, (mem_opc f o).2.2]

/-- A full word of the layout BraW is read by the row of its opcode. -/
theorem read_bra (f : BraW) (o : BitVec 8) : read (f.pack o) = unpackFull (f.pack o) := by
  simp [read, (bra_opc f o).2.2]

/-- A full word of the layout BrxW is read by the row of its opcode. -/
theorem read_brx (f : BrxW) (o : BitVec 8) : read (f.pack o) = unpackFull (f.pack o) := by
  simp [read, (brx_opc f o).2.2]

/-- A full word of the layout CallW is read by the row of its opcode. -/
theorem read_call (f : CallW) (o : BitVec 8) : read (f.pack o) = unpackFull (f.pack o) := by
  simp [read, (call_opc f o).2.2]

/-- A full word of the layout CallxW is read by the row of its opcode. -/
theorem read_callx (f : CallxW) (o : BitVec 8) : read (f.pack o) = unpackFull (f.pack o) := by
  simp [read, (callx_opc f o).2.2]

/-- A full word of the layout CsrW is read by the row of its opcode. -/
theorem read_csr (f : CsrW) (o : BitVec 8) : read (f.pack o) = unpackFull (f.pack o) := by
  simp [read, (csr_opc f o).2.2]

/-- A full word of the layout SysW is read by the row of its opcode. -/
theorem read_sys (f : SysW) (o : BitVec 8) : read (f.pack o) = unpackFull (f.pack o) := by
  simp [read, (sys_opc f o).2.2]

/-- A full word of the layout ImmW is read by the row of its opcode. -/
theorem read_imm (f : ImmW) (o : BitVec 8) : read (f.pack o) = unpackFull (f.pack o) := by
  simp [read, (imm_opc f o).2.2]

/-- A full word of the layout NoneW is read by the row of its opcode. -/
theorem read_none (f : NoneW) (o : BitVec 8) : read (f.pack o) = unpackFull (f.pack o) := by
  simp [read, (none_opc f o).2.2]

theorem ill (f : IWord) : Statement (.ill f) := by
  intro w h e
  cases e
  have h0 : f.extractLsb' 54 9 = 0#9 := by simpa [Instr.wf, Instr.legal, illWord] using h
  have h1 : ∀ s n, 54 ≤ s → s + n ≤ 63 → f.extractLsb' s n = 0#n := by
    intro s n hs hn
    ext i hi
    have := congrArg (fun x => x.getLsbD (s - 54 + i)) h0
    simp only [BitVec.getLsbD_extractLsb', BitVec.getLsbD_zero] at this
    have e : 54 + (s - 54 + i) = s + i := by omega
    have l : s - 54 + i < 9 := by omega
    simpa [e, l] using this
  have h2 : pairedBit f = false := by
    have := congrArg (fun x => x.getLsbD 8) h0
    simpa [pairedBit] using this
  simp only [read, h2, unpackFull, h1 54 4 (by omega) (by omega), h1 58 4 (by omega) (by omega)]
  rfl

theorem nop (f : NoneW) : Statement (.nop f) := by
  intro w _ e
  cases e
  rw [read_none]
  simp only [unpackFull, (none_opc f 0x01#8).1, (none_opc f 0x01#8).2.1]
  exact congrArg (fun x => some (Instr.nop x)) (none_unpack_pack f _)

theorem bra (f : BraW) : Statement (.bra f) := by
  intro w _ e
  cases e
  rw [read_bra]
  simp only [unpackFull, (bra_opc f 0x02#8).1, (bra_opc f 0x02#8).2.1]
  exact congrArg (fun x => some (Instr.bra x)) (bra_unpack_pack f _)

theorem brx (f : BrxW) : Statement (.brx f) := by
  intro w _ e
  cases e
  rw [read_brx]
  simp only [unpackFull, (brx_opc f 0x03#8).1, (brx_opc f 0x03#8).2.1]
  exact congrArg (fun x => some (Instr.brx x)) (brx_unpack_pack f _)

theorem call (f : CallW) : Statement (.call f) := by
  intro w _ e
  cases e
  rw [read_call]
  simp only [unpackFull, (call_opc f 0x04#8).1, (call_opc f 0x04#8).2.1]
  exact congrArg (fun x => some (Instr.call x)) (call_unpack_pack f _)

theorem callx (f : CallxW) : Statement (.callx f) := by
  intro w _ e
  cases e
  rw [read_callx]
  simp only [unpackFull, (callx_opc f 0x05#8).1, (callx_opc f 0x05#8).2.1]
  exact congrArg (fun x => some (Instr.callx x)) (callx_unpack_pack f _)

theorem ret (f : CallxW) : Statement (.ret f) := by
  intro w _ e
  cases e
  rw [read_callx]
  simp only [unpackFull, (callx_opc f 0x06#8).1, (callx_opc f 0x06#8).2.1]
  exact congrArg (fun x => some (Instr.ret x)) (callx_unpack_pack f _)

theorem regang (f : NoneW) : Statement (.regang f) := by
  intro w _ e
  cases e
  rw [read_none]
  simp only [unpackFull, (none_opc f 0x07#8).1, (none_opc f 0x07#8).2.1]
  exact congrArg (fun x => some (Instr.regang x)) (none_unpack_pack f _)

theorem exit (f : NoneW) : Statement (.exit f) := by
  intro w _ e
  cases e
  rw [read_none]
  simp only [unpackFull, (none_opc f 0x08#8).1, (none_opc f 0x08#8).2.1]
  exact congrArg (fun x => some (Instr.exit x)) (none_unpack_pack f _)

theorem yield (f : NoneW) : Statement (.yield f) := by
  intro w _ e
  cases e
  rw [read_none]
  simp only [unpackFull, (none_opc f 0x09#8).1, (none_opc f 0x09#8).2.1]
  exact congrArg (fun x => some (Instr.yield x)) (none_unpack_pack f _)

theorem trap (f : ImmW) : Statement (.trap f) := by
  intro w _ e
  cases e
  rw [read_imm]
  simp only [unpackFull, (imm_opc f 0x0A#8).1, (imm_opc f 0x0A#8).2.1]
  exact congrArg (fun x => some (Instr.trap x)) (imm_unpack_pack f _)

theorem eret (f : NoneW) : Statement (.eret f) := by
  intro w _ e
  cases e
  rw [read_none]
  simp only [unpackFull, (none_opc f 0x0B#8).1, (none_opc f 0x0B#8).2.1]
  exact congrArg (fun x => some (Instr.eret x)) (none_unpack_pack f _)

theorem bkpt (f : ImmW) : Statement (.bkpt f) := by
  intro w _ e
  cases e
  rw [read_imm]
  simp only [unpackFull, (imm_opc f 0x0C#8).1, (imm_opc f 0x0C#8).2.1]
  exact congrArg (fun x => some (Instr.bkpt x)) (imm_unpack_pack f _)

theorem loop (f : CallW) : Statement (.loop f) := by
  intro w _ e
  cases e
  rw [read_call]
  simp only [unpackFull, (call_opc f 0x0D#8).1, (call_opc f 0x0D#8).2.1]
  exact congrArg (fun x => some (Instr.loop x)) (call_unpack_pack f _)

theorem csrr (f : CsrW) : Statement (.csrr f) := by
  intro w _ e
  cases e
  rw [read_csr]
  simp only [unpackFull, (csr_opc f 0x10#8).1, (csr_opc f 0x10#8).2.1]
  exact congrArg (fun x => some (Instr.csrr x)) (csr_unpack_pack f _)

theorem csrw (f : CsrW) : Statement (.csrw f) := by
  intro w _ e
  cases e
  rw [read_csr]
  simp only [unpackFull, (csr_opc f 0x11#8).1, (csr_opc f 0x11#8).2.1]
  exact congrArg (fun x => some (Instr.csrw x)) (csr_unpack_pack f _)

theorem csrs (f : CsrW) : Statement (.csrs f) := by
  intro w _ e
  cases e
  rw [read_csr]
  simp only [unpackFull, (csr_opc f 0x12#8).1, (csr_opc f 0x12#8).2.1]
  exact congrArg (fun x => some (Instr.csrs x)) (csr_unpack_pack f _)

theorem csrc (f : CsrW) : Statement (.csrc f) := by
  intro w _ e
  cases e
  rw [read_csr]
  simp only [unpackFull, (csr_opc f 0x13#8).1, (csr_opc f 0x13#8).2.1]
  exact congrArg (fun x => some (Instr.csrc x)) (csr_unpack_pack f _)

theorem cinv (f : MemW) : Statement (.cinv f) := by
  intro w h e
  cases e
  rw [read_mem]
  simp only [unpackFull, (mem_opc f 0x14#8).1, (mem_opc f 0x14#8).2.1]
  show some (ite _ _ _) = _
  rw [mem_var, mem_unpack_pack]
  simp [Instr.wf, Instr.legal, cacheOk] at h
  simp [h]

theorem cinvAll (f : MemW) : Statement (.cinvAll f) := by
  intro w h e
  cases e
  rw [read_mem]
  simp only [unpackFull, (mem_opc f 0x14#8).1, (mem_opc f 0x14#8).2.1]
  show some (ite _ _ _) = _
  rw [mem_var, mem_unpack_pack]
  simp [Instr.wf, Instr.legal, cacheOk] at h
  simp [h]

theorem cwb (f : MemW) : Statement (.cwb f) := by
  intro w _ e
  cases e
  rw [read_mem]
  simp only [unpackFull, (mem_opc f 0x15#8).1, (mem_opc f 0x15#8).2.1]
  exact congrArg (fun x => some (Instr.cwb x)) (mem_unpack_pack f _)

theorem pref (f : MemW) : Statement (.pref f) := by
  intro w _ e
  cases e
  rw [read_mem]
  simp only [unpackFull, (mem_opc f 0x16#8).1, (mem_opc f 0x16#8).2.1]
  exact congrArg (fun x => some (Instr.pref x)) (mem_unpack_pack f _)

theorem extq (f : SysW) : Statement (.extq f) := by
  intro w _ e
  cases e
  rw [read_sys]
  simp only [unpackFull, (sys_opc f 0x17#8).1, (sys_opc f 0x17#8).2.1]
  exact congrArg (fun x => some (Instr.extq x)) (sys_unpack_pack f _)

theorem halloc (f : SysW) : Statement (.halloc f) := by
  intro w _ e
  cases e
  rw [read_sys]
  simp only [unpackFull, (sys_opc f 0x18#8).1, (sys_opc f 0x18#8).2.1]
  exact congrArg (fun x => some (Instr.halloc x)) (sys_unpack_pack f _)

theorem hfree (f : SysW) : Statement (.hfree f) := by
  intro w _ e
  cases e
  rw [read_sys]
  simp only [unpackFull, (sys_opc f 0x19#8).1, (sys_opc f 0x19#8).2.1]
  exact congrArg (fun x => some (Instr.hfree x)) (sys_unpack_pack f _)

theorem setprio (f : SysW) : Statement (.setprio f) := by
  intro w _ e
  cases e
  rw [read_sys]
  simp only [unpackFull, (sys_opc f 0x1A#8).1, (sys_opc f 0x1A#8).2.1]
  exact congrArg (fun x => some (Instr.setprio x)) (sys_unpack_pack f _)

theorem svc (f : ImmW) : Statement (.svc f) := by
  intro w _ e
  cases e
  rw [read_imm]
  simp only [unpackFull, (imm_opc f 0x1B#8).1, (imm_opc f 0x1B#8).2.1]
  exact congrArg (fun x => some (Instr.svc x)) (imm_unpack_pack f _)

theorem iadd (f : AluW) : Statement (.iadd f) := by
  intro w _ e
  cases e
  rw [read_alu]
  simp only [unpackFull, (alu_opc f 0x20#8).1, (alu_opc f 0x20#8).2.1]
  exact congrArg (fun x => some (Instr.iadd x)) (alu_unpack_pack f _)

theorem isub (f : AluW) : Statement (.isub f) := by
  intro w _ e
  cases e
  rw [read_alu]
  simp only [unpackFull, (alu_opc f 0x21#8).1, (alu_opc f 0x21#8).2.1]
  exact congrArg (fun x => some (Instr.isub x)) (alu_unpack_pack f _)

theorem iaddc (f : AluW) : Statement (.iaddc f) := by
  intro w _ e
  cases e
  rw [read_alu]
  simp only [unpackFull, (alu_opc f 0x22#8).1, (alu_opc f 0x22#8).2.1]
  exact congrArg (fun x => some (Instr.iaddc x)) (alu_unpack_pack f _)

theorem imul (f : AluW) : Statement (.imul f) := by
  intro w _ e
  cases e
  rw [read_alu]
  simp only [unpackFull, (alu_opc f 0x23#8).1, (alu_opc f 0x23#8).2.1]
  exact congrArg (fun x => some (Instr.imul x)) (alu_unpack_pack f _)

theorem imulh (f : AluW) : Statement (.imulh f) := by
  intro w _ e
  cases e
  rw [read_alu]
  simp only [unpackFull, (alu_opc f 0x24#8).1, (alu_opc f 0x24#8).2.1]
  exact congrArg (fun x => some (Instr.imulh x)) (alu_unpack_pack f _)

theorem imad (f : AluW) : Statement (.imad f) := by
  intro w _ e
  cases e
  rw [read_alu]
  simp only [unpackFull, (alu_opc f 0x25#8).1, (alu_opc f 0x25#8).2.1]
  exact congrArg (fun x => some (Instr.imad x)) (alu_unpack_pack f _)

theorem imin (f : AluW) : Statement (.imin f) := by
  intro w _ e
  cases e
  rw [read_alu]
  simp only [unpackFull, (alu_opc f 0x26#8).1, (alu_opc f 0x26#8).2.1]
  exact congrArg (fun x => some (Instr.imin x)) (alu_unpack_pack f _)

theorem imax (f : AluW) : Statement (.imax f) := by
  intro w _ e
  cases e
  rw [read_alu]
  simp only [unpackFull, (alu_opc f 0x27#8).1, (alu_opc f 0x27#8).2.1]
  exact congrArg (fun x => some (Instr.imax x)) (alu_unpack_pack f _)

theorem iabsd (f : AluW) : Statement (.iabsd f) := by
  intro w _ e
  cases e
  rw [read_alu]
  simp only [unpackFull, (alu_opc f 0x28#8).1, (alu_opc f 0x28#8).2.1]
  exact congrArg (fun x => some (Instr.iabsd x)) (alu_unpack_pack f _)

theorem and (f : AluW) : Statement (.and f) := by
  intro w _ e
  cases e
  rw [read_alu]
  simp only [unpackFull, (alu_opc f 0x29#8).1, (alu_opc f 0x29#8).2.1]
  exact congrArg (fun x => some (Instr.and x)) (alu_unpack_pack f _)

theorem or (f : AluW) : Statement (.or f) := by
  intro w _ e
  cases e
  rw [read_alu]
  simp only [unpackFull, (alu_opc f 0x2A#8).1, (alu_opc f 0x2A#8).2.1]
  exact congrArg (fun x => some (Instr.or x)) (alu_unpack_pack f _)

theorem xor (f : AluW) : Statement (.xor f) := by
  intro w _ e
  cases e
  rw [read_alu]
  simp only [unpackFull, (alu_opc f 0x2B#8).1, (alu_opc f 0x2B#8).2.1]
  exact congrArg (fun x => some (Instr.xor x)) (alu_unpack_pack f _)

theorem andn (f : AluW) : Statement (.andn f) := by
  intro w _ e
  cases e
  rw [read_alu]
  simp only [unpackFull, (alu_opc f 0x2C#8).1, (alu_opc f 0x2C#8).2.1]
  exact congrArg (fun x => some (Instr.andn x)) (alu_unpack_pack f _)

theorem shl (f : AluW) : Statement (.shl f) := by
  intro w _ e
  cases e
  rw [read_alu]
  simp only [unpackFull, (alu_opc f 0x2D#8).1, (alu_opc f 0x2D#8).2.1]
  exact congrArg (fun x => some (Instr.shl x)) (alu_unpack_pack f _)

theorem shr (f : AluW) : Statement (.shr f) := by
  intro w _ e
  cases e
  rw [read_alu]
  simp only [unpackFull, (alu_opc f 0x2E#8).1, (alu_opc f 0x2E#8).2.1]
  exact congrArg (fun x => some (Instr.shr x)) (alu_unpack_pack f _)

theorem sar (f : AluW) : Statement (.sar f) := by
  intro w _ e
  cases e
  rw [read_alu]
  simp only [unpackFull, (alu_opc f 0x2F#8).1, (alu_opc f 0x2F#8).2.1]
  exact congrArg (fun x => some (Instr.sar x)) (alu_unpack_pack f _)

theorem rotl (f : AluW) : Statement (.rotl f) := by
  intro w _ e
  cases e
  rw [read_alu]
  simp only [unpackFull, (alu_opc f 0x30#8).1, (alu_opc f 0x30#8).2.1]
  exact congrArg (fun x => some (Instr.rotl x)) (alu_unpack_pack f _)

theorem clz (f : AluW) : Statement (.clz f) := by
  intro w _ e
  cases e
  rw [read_alu]
  simp only [unpackFull, (alu_opc f 0x31#8).1, (alu_opc f 0x31#8).2.1]
  exact congrArg (fun x => some (Instr.clz x)) (alu_unpack_pack f _)

theorem popc (f : AluW) : Statement (.popc f) := by
  intro w _ e
  cases e
  rw [read_alu]
  simp only [unpackFull, (alu_opc f 0x32#8).1, (alu_opc f 0x32#8).2.1]
  exact congrArg (fun x => some (Instr.popc x)) (alu_unpack_pack f _)

theorem brev (f : AluW) : Statement (.brev f) := by
  intro w _ e
  cases e
  rw [read_alu]
  simp only [unpackFull, (alu_opc f 0x33#8).1, (alu_opc f 0x33#8).2.1]
  exact congrArg (fun x => some (Instr.brev x)) (alu_unpack_pack f _)

theorem bfe (f : AluW) : Statement (.bfe f) := by
  intro w _ e
  cases e
  rw [read_alu]
  simp only [unpackFull, (alu_opc f 0x34#8).1, (alu_opc f 0x34#8).2.1]
  exact congrArg (fun x => some (Instr.bfe x)) (alu_unpack_pack f _)

theorem bfi (f : AluW) : Statement (.bfi f) := by
  intro w _ e
  cases e
  rw [read_alu]
  simp only [unpackFull, (alu_opc f 0x35#8).1, (alu_opc f 0x35#8).2.1]
  exact congrArg (fun x => some (Instr.bfi x)) (alu_unpack_pack f _)

theorem lea (f : AluW) : Statement (.lea f) := by
  intro w _ e
  cases e
  rw [read_alu]
  simp only [unpackFull, (alu_opc f 0x36#8).1, (alu_opc f 0x36#8).2.1]
  exact congrArg (fun x => some (Instr.lea x)) (alu_unpack_pack f _)

theorem icmp (f : AluW) : Statement (.icmp f) := by
  intro w _ e
  cases e
  rw [read_alu]
  simp only [unpackFull, (alu_opc f 0x37#8).1, (alu_opc f 0x37#8).2.1]
  exact congrArg (fun x => some (Instr.icmp x)) (alu_unpack_pack f _)

theorem sel (f : AluW) : Statement (.sel f) := by
  intro w _ e
  cases e
  rw [read_alu]
  simp only [unpackFull, (alu_opc f 0x38#8).1, (alu_opc f 0x38#8).2.1]
  exact congrArg (fun x => some (Instr.sel x)) (alu_unpack_pack f _)

theorem mov (f : AluW) : Statement (.mov f) := by
  intro w _ e
  cases e
  rw [read_alu]
  simp only [unpackFull, (alu_opc f 0x39#8).1, (alu_opc f 0x39#8).2.1]
  exact congrArg (fun x => some (Instr.mov x)) (alu_unpack_pack f _)

theorem movl (f : AluW) : Statement (.movl f) := by
  intro w _ e
  cases e
  rw [read_alu]
  simp only [unpackFull, (alu_opc f 0x3A#8).1, (alu_opc f 0x3A#8).2.1]
  exact congrArg (fun x => some (Instr.movl x)) (alu_unpack_pack f _)

theorem movh (f : AluW) : Statement (.movh f) := by
  intro w _ e
  cases e
  rw [read_alu]
  simp only [unpackFull, (alu_opc f 0x3B#8).1, (alu_opc f 0x3B#8).2.1]
  exact congrArg (fun x => some (Instr.movh x)) (alu_unpack_pack f _)

theorem prmt (f : AluW) : Statement (.prmt f) := by
  intro w _ e
  cases e
  rw [read_alu]
  simp only [unpackFull, (alu_opc f 0x3C#8).1, (alu_opc f 0x3C#8).2.1]
  exact congrArg (fun x => some (Instr.prmt x)) (alu_unpack_pack f _)

theorem idot4 (f : AluW) : Statement (.idot4 f) := by
  intro w _ e
  cases e
  rw [read_alu]
  simp only [unpackFull, (alu_opc f 0x3D#8).1, (alu_opc f 0x3D#8).2.1]
  exact congrArg (fun x => some (Instr.idot4 x)) (alu_unpack_pack f _)

theorem idiv (f : AluW) : Statement (.idiv f) := by
  intro w _ e
  cases e
  rw [read_alu]
  simp only [unpackFull, (alu_opc f 0x3E#8).1, (alu_opc f 0x3E#8).2.1]
  exact congrArg (fun x => some (Instr.idiv x)) (alu_unpack_pack f _)

theorem irem (f : AluW) : Statement (.irem f) := by
  intro w _ e
  cases e
  rw [read_alu]
  simp only [unpackFull, (alu_opc f 0x3F#8).1, (alu_opc f 0x3F#8).2.1]
  exact congrArg (fun x => some (Instr.irem x)) (alu_unpack_pack f _)

theorem pand (f : AluW) : Statement (.pand f) := by
  intro w _ e
  cases e
  rw [read_alu]
  simp only [unpackFull, (alu_opc f 0x40#8).1, (alu_opc f 0x40#8).2.1]
  exact congrArg (fun x => some (Instr.pand x)) (alu_unpack_pack f _)

theorem por (f : AluW) : Statement (.por f) := by
  intro w _ e
  cases e
  rw [read_alu]
  simp only [unpackFull, (alu_opc f 0x41#8).1, (alu_opc f 0x41#8).2.1]
  exact congrArg (fun x => some (Instr.por x)) (alu_unpack_pack f _)

theorem pxor (f : AluW) : Statement (.pxor f) := by
  intro w _ e
  cases e
  rw [read_alu]
  simp only [unpackFull, (alu_opc f 0x42#8).1, (alu_opc f 0x42#8).2.1]
  exact congrArg (fun x => some (Instr.pxor x)) (alu_unpack_pack f _)

theorem pnot (f : AluW) : Statement (.pnot f) := by
  intro w _ e
  cases e
  rw [read_alu]
  simp only [unpackFull, (alu_opc f 0x43#8).1, (alu_opc f 0x43#8).2.1]
  exact congrArg (fun x => some (Instr.pnot x)) (alu_unpack_pack f _)

theorem pmov (f : AluW) : Statement (.pmov f) := by
  intro w _ e
  cases e
  rw [read_alu]
  simp only [unpackFull, (alu_opc f 0x44#8).1, (alu_opc f 0x44#8).2.1]
  exact congrArg (fun x => some (Instr.pmov x)) (alu_unpack_pack f _)

theorem pset (f : AluW) : Statement (.pset f) := by
  intro w _ e
  cases e
  rw [read_alu]
  simp only [unpackFull, (alu_opc f 0x45#8).1, (alu_opc f 0x45#8).2.1]
  exact congrArg (fun x => some (Instr.pset x)) (alu_unpack_pack f _)

theorem pget (f : AluW) : Statement (.pget f) := by
  intro w _ e
  cases e
  rw [read_alu]
  simp only [unpackFull, (alu_opc f 0x46#8).1, (alu_opc f 0x46#8).2.1]
  exact congrArg (fun x => some (Instr.pget x)) (alu_unpack_pack f _)

theorem rfl (f : AluW) : Statement (.rfl f) := by
  intro w _ e
  cases e
  rw [read_alu]
  simp only [unpackFull, (alu_opc f 0x47#8).1, (alu_opc f 0x47#8).2.1]
  exact congrArg (fun x => some (Instr.rfl x)) (alu_unpack_pack f _)

theorem rdlane (f : AluW) : Statement (.rdlane f) := by
  intro w _ e
  cases e
  rw [read_alu]
  simp only [unpackFull, (alu_opc f 0x48#8).1, (alu_opc f 0x48#8).2.1]
  exact congrArg (fun x => some (Instr.rdlane x)) (alu_unpack_pack f _)

theorem wrlane (f : AluW) : Statement (.wrlane f) := by
  intro w _ e
  cases e
  rw [read_alu]
  simp only [unpackFull, (alu_opc f 0x49#8).1, (alu_opc f 0x49#8).2.1]
  exact congrArg (fun x => some (Instr.wrlane x)) (alu_unpack_pack f _)

theorem fadd (f : AluW) : Statement (.fadd f) := by
  intro w _ e
  cases e
  rw [read_alu]
  simp only [unpackFull, (alu_opc f 0x50#8).1, (alu_opc f 0x50#8).2.1]
  exact congrArg (fun x => some (Instr.fadd x)) (alu_unpack_pack f _)

theorem fsub (f : AluW) : Statement (.fsub f) := by
  intro w _ e
  cases e
  rw [read_alu]
  simp only [unpackFull, (alu_opc f 0x51#8).1, (alu_opc f 0x51#8).2.1]
  exact congrArg (fun x => some (Instr.fsub x)) (alu_unpack_pack f _)

theorem fmul (f : AluW) : Statement (.fmul f) := by
  intro w _ e
  cases e
  rw [read_alu]
  simp only [unpackFull, (alu_opc f 0x52#8).1, (alu_opc f 0x52#8).2.1]
  exact congrArg (fun x => some (Instr.fmul x)) (alu_unpack_pack f _)

theorem fma (f : AluW) : Statement (.fma f) := by
  intro w _ e
  cases e
  rw [read_alu]
  simp only [unpackFull, (alu_opc f 0x53#8).1, (alu_opc f 0x53#8).2.1]
  exact congrArg (fun x => some (Instr.fma x)) (alu_unpack_pack f _)

theorem fmin (f : AluW) : Statement (.fmin f) := by
  intro w _ e
  cases e
  rw [read_alu]
  simp only [unpackFull, (alu_opc f 0x54#8).1, (alu_opc f 0x54#8).2.1]
  exact congrArg (fun x => some (Instr.fmin x)) (alu_unpack_pack f _)

theorem fmax (f : AluW) : Statement (.fmax f) := by
  intro w _ e
  cases e
  rw [read_alu]
  simp only [unpackFull, (alu_opc f 0x55#8).1, (alu_opc f 0x55#8).2.1]
  exact congrArg (fun x => some (Instr.fmax x)) (alu_unpack_pack f _)

theorem fcmp (f : AluW) : Statement (.fcmp f) := by
  intro w _ e
  cases e
  rw [read_alu]
  simp only [unpackFull, (alu_opc f 0x56#8).1, (alu_opc f 0x56#8).2.1]
  exact congrArg (fun x => some (Instr.fcmp x)) (alu_unpack_pack f _)

theorem fclass (f : AluW) : Statement (.fclass f) := by
  intro w _ e
  cases e
  rw [read_alu]
  simp only [unpackFull, (alu_opc f 0x57#8).1, (alu_opc f 0x57#8).2.1]
  exact congrArg (fun x => some (Instr.fclass x)) (alu_unpack_pack f _)

theorem frcp (f : AluW) : Statement (.frcp f) := by
  intro w _ e
  cases e
  rw [read_alu]
  simp only [unpackFull, (alu_opc f 0x58#8).1, (alu_opc f 0x58#8).2.1]
  exact congrArg (fun x => some (Instr.frcp x)) (alu_unpack_pack f _)

theorem fsqrt (f : AluW) : Statement (.fsqrt f) := by
  intro w _ e
  cases e
  rw [read_alu]
  simp only [unpackFull, (alu_opc f 0x59#8).1, (alu_opc f 0x59#8).2.1]
  exact congrArg (fun x => some (Instr.fsqrt x)) (alu_unpack_pack f _)

theorem frsq (f : AluW) : Statement (.frsq f) := by
  intro w _ e
  cases e
  rw [read_alu]
  simp only [unpackFull, (alu_opc f 0x5A#8).1, (alu_opc f 0x5A#8).2.1]
  exact congrArg (fun x => some (Instr.frsq x)) (alu_unpack_pack f _)

theorem fexp2 (f : AluW) : Statement (.fexp2 f) := by
  intro w _ e
  cases e
  rw [read_alu]
  simp only [unpackFull, (alu_opc f 0x5B#8).1, (alu_opc f 0x5B#8).2.1]
  exact congrArg (fun x => some (Instr.fexp2 x)) (alu_unpack_pack f _)

theorem flog2 (f : AluW) : Statement (.flog2 f) := by
  intro w _ e
  cases e
  rw [read_alu]
  simp only [unpackFull, (alu_opc f 0x5C#8).1, (alu_opc f 0x5C#8).2.1]
  exact congrArg (fun x => some (Instr.flog2 x)) (alu_unpack_pack f _)

theorem fsinpi (f : AluW) : Statement (.fsinpi f) := by
  intro w _ e
  cases e
  rw [read_alu]
  simp only [unpackFull, (alu_opc f 0x5D#8).1, (alu_opc f 0x5D#8).2.1]
  exact congrArg (fun x => some (Instr.fsinpi x)) (alu_unpack_pack f _)

theorem fcospi (f : AluW) : Statement (.fcospi f) := by
  intro w _ e
  cases e
  rw [read_alu]
  simp only [unpackFull, (alu_opc f 0x5E#8).1, (alu_opc f 0x5E#8).2.1]
  exact congrArg (fun x => some (Instr.fcospi x)) (alu_unpack_pack f _)

theorem fdiv (f : AluW) : Statement (.fdiv f) := by
  intro w _ e
  cases e
  rw [read_alu]
  simp only [unpackFull, (alu_opc f 0x5F#8).1, (alu_opc f 0x5F#8).2.1]
  exact congrArg (fun x => some (Instr.fdiv x)) (alu_unpack_pack f _)

theorem ffloor (f : AluW) : Statement (.ffloor f) := by
  intro w _ e
  cases e
  rw [read_alu]
  simp only [unpackFull, (alu_opc f 0x60#8).1, (alu_opc f 0x60#8).2.1]
  exact congrArg (fun x => some (Instr.ffloor x)) (alu_unpack_pack f _)

theorem fceil (f : AluW) : Statement (.fceil f) := by
  intro w _ e
  cases e
  rw [read_alu]
  simp only [unpackFull, (alu_opc f 0x61#8).1, (alu_opc f 0x61#8).2.1]
  exact congrArg (fun x => some (Instr.fceil x)) (alu_unpack_pack f _)

theorem ftrunc (f : AluW) : Statement (.ftrunc f) := by
  intro w _ e
  cases e
  rw [read_alu]
  simp only [unpackFull, (alu_opc f 0x62#8).1, (alu_opc f 0x62#8).2.1]
  exact congrArg (fun x => some (Instr.ftrunc x)) (alu_unpack_pack f _)

theorem frint (f : AluW) : Statement (.frint f) := by
  intro w _ e
  cases e
  rw [read_alu]
  simp only [unpackFull, (alu_opc f 0x63#8).1, (alu_opc f 0x63#8).2.1]
  exact congrArg (fun x => some (Instr.frint x)) (alu_unpack_pack f _)

theorem ffrac (f : AluW) : Statement (.ffrac f) := by
  intro w _ e
  cases e
  rw [read_alu]
  simp only [unpackFull, (alu_opc f 0x64#8).1, (alu_opc f 0x64#8).2.1]
  exact congrArg (fun x => some (Instr.ffrac x)) (alu_unpack_pack f _)

theorem fldexp (f : AluW) : Statement (.fldexp f) := by
  intro w _ e
  cases e
  rw [read_alu]
  simp only [unpackFull, (alu_opc f 0x65#8).1, (alu_opc f 0x65#8).2.1]
  exact congrArg (fun x => some (Instr.fldexp x)) (alu_unpack_pack f _)

theorem fdot2 (f : AluW) : Statement (.fdot2 f) := by
  intro w _ e
  cases e
  rw [read_alu]
  simp only [unpackFull, (alu_opc f 0x66#8).1, (alu_opc f 0x66#8).2.1]
  exact congrArg (fun x => some (Instr.fdot2 x)) (alu_unpack_pack f _)

theorem fdot4 (f : AluW) : Statement (.fdot4 f) := by
  intro w _ e
  cases e
  rw [read_alu]
  simp only [unpackFull, (alu_opc f 0x67#8).1, (alu_opc f 0x67#8).2.1]
  exact congrArg (fun x => some (Instr.fdot4 x)) (alu_unpack_pack f _)

theorem hadd2 (f : AluW) : Statement (.hadd2 f) := by
  intro w _ e
  cases e
  rw [read_alu]
  simp only [unpackFull, (alu_opc f 0x68#8).1, (alu_opc f 0x68#8).2.1]
  exact congrArg (fun x => some (Instr.hadd2 x)) (alu_unpack_pack f _)

theorem hmul2 (f : AluW) : Statement (.hmul2 f) := by
  intro w _ e
  cases e
  rw [read_alu]
  simp only [unpackFull, (alu_opc f 0x69#8).1, (alu_opc f 0x69#8).2.1]
  exact congrArg (fun x => some (Instr.hmul2 x)) (alu_unpack_pack f _)

theorem hfma2 (f : AluW) : Statement (.hfma2 f) := by
  intro w _ e
  cases e
  rw [read_alu]
  simp only [unpackFull, (alu_opc f 0x6A#8).1, (alu_opc f 0x6A#8).2.1]
  exact congrArg (fun x => some (Instr.hfma2 x)) (alu_unpack_pack f _)

theorem fmed3 (f : AluW) : Statement (.fmed3 f) := by
  intro w _ e
  cases e
  rw [read_alu]
  simp only [unpackFull, (alu_opc f 0x6B#8).1, (alu_opc f 0x6B#8).2.1]
  exact congrArg (fun x => some (Instr.fmed3 x)) (alu_unpack_pack f _)

theorem cvt (f : AluW) : Statement (.cvt f) := by
  intro w _ e
  cases e
  rw [read_alu]
  simp only [unpackFull, (alu_opc f 0x70#8).1, (alu_opc f 0x70#8).2.1]
  exact congrArg (fun x => some (Instr.cvt x)) (alu_unpack_pack f _)

theorem cvtq (f : AluW) : Statement (.cvtq f) := by
  intro w _ e
  cases e
  rw [read_alu]
  simp only [unpackFull, (alu_opc f 0x71#8).1, (alu_opc f 0x71#8).2.1]
  exact congrArg (fun x => some (Instr.cvtq x)) (alu_unpack_pack f _)

theorem cvtdq (f : AluW) : Statement (.cvtdq f) := by
  intro w _ e
  cases e
  rw [read_alu]
  simp only [unpackFull, (alu_opc f 0x72#8).1, (alu_opc f 0x72#8).2.1]
  exact congrArg (fun x => some (Instr.cvtdq x)) (alu_unpack_pack f _)

theorem pack (f : AluW) : Statement (.pack f) := by
  intro w _ e
  cases e
  rw [read_alu]
  simp only [unpackFull, (alu_opc f 0x73#8).1, (alu_opc f 0x73#8).2.1]
  exact congrArg (fun x => some (Instr.pack x)) (alu_unpack_pack f _)

theorem unpk (f : AluW) : Statement (.unpk f) := by
  intro w _ e
  cases e
  rw [read_alu]
  simp only [unpackFull, (alu_opc f 0x74#8).1, (alu_opc f 0x74#8).2.1]
  exact congrArg (fun x => some (Instr.unpk x)) (alu_unpack_pack f _)

theorem shfl (f : AluW) : Statement (.shfl f) := by
  intro w _ e
  cases e
  rw [read_alu]
  simp only [unpackFull, (alu_opc f 0x75#8).1, (alu_opc f 0x75#8).2.1]
  exact congrArg (fun x => some (Instr.shfl x)) (alu_unpack_pack f _)

theorem vote (f : AluW) : Statement (.vote f) := by
  intro w _ e
  cases e
  rw [read_alu]
  simp only [unpackFull, (alu_opc f 0x76#8).1, (alu_opc f 0x76#8).2.1]
  exact congrArg (fun x => some (Instr.vote x)) (alu_unpack_pack f _)

theorem redux (f : AluW) : Statement (.redux f) := by
  intro w _ e
  cases e
  rw [read_alu]
  simp only [unpackFull, (alu_opc f 0x77#8).1, (alu_opc f 0x77#8).2.1]
  exact congrArg (fun x => some (Instr.redux x)) (alu_unpack_pack f _)

theorem scan (f : AluW) : Statement (.scan f) := by
  intro w _ e
  cases e
  rw [read_alu]
  simp only [unpackFull, (alu_opc f 0x78#8).1, (alu_opc f 0x78#8).2.1]
  exact congrArg (fun x => some (Instr.scan x)) (alu_unpack_pack f _)

theorem matchl (f : AluW) : Statement (.matchl f) := by
  intro w _ e
  cases e
  rw [read_alu]
  simp only [unpackFull, (alu_opc f 0x79#8).1, (alu_opc f 0x79#8).2.1]
  exact congrArg (fun x => some (Instr.matchl x)) (alu_unpack_pack f _)

theorem ld (f : MemW) : Statement (.ld f) := by
  intro w _ e
  cases e
  rw [read_mem]
  simp only [unpackFull, (mem_opc f 0x80#8).1, (mem_opc f 0x80#8).2.1]
  exact congrArg (fun x => some (Instr.ld x)) (mem_unpack_pack f _)

theorem st (f : MemW) : Statement (.st f) := by
  intro w _ e
  cases e
  rw [read_mem]
  simp only [unpackFull, (mem_opc f 0x81#8).1, (mem_opc f 0x81#8).2.1]
  exact congrArg (fun x => some (Instr.st x)) (mem_unpack_pack f _)

theorem lds (f : MemW) : Statement (.lds f) := by
  intro w _ e
  cases e
  rw [read_mem]
  simp only [unpackFull, (mem_opc f 0x82#8).1, (mem_opc f 0x82#8).2.1]
  exact congrArg (fun x => some (Instr.lds x)) (mem_unpack_pack f _)

theorem sts (f : MemW) : Statement (.sts f) := by
  intro w _ e
  cases e
  rw [read_mem]
  simp only [unpackFull, (mem_opc f 0x83#8).1, (mem_opc f 0x83#8).2.1]
  exact congrArg (fun x => some (Instr.sts x)) (mem_unpack_pack f _)

theorem ldp (f : MemW) : Statement (.ldp f) := by
  intro w _ e
  cases e
  rw [read_mem]
  simp only [unpackFull, (mem_opc f 0x84#8).1, (mem_opc f 0x84#8).2.1]
  exact congrArg (fun x => some (Instr.ldp x)) (mem_unpack_pack f _)

theorem stp (f : MemW) : Statement (.stp f) := by
  intro w _ e
  cases e
  rw [read_mem]
  simp only [unpackFull, (mem_opc f 0x85#8).1, (mem_opc f 0x85#8).2.1]
  exact congrArg (fun x => some (Instr.stp x)) (mem_unpack_pack f _)

theorem ldu (f : MemW) : Statement (.ldu f) := by
  intro w _ e
  cases e
  rw [read_mem]
  simp only [unpackFull, (mem_opc f 0x86#8).1, (mem_opc f 0x86#8).2.1]
  exact congrArg (fun x => some (Instr.ldu x)) (mem_unpack_pack f _)

theorem stu (f : MemW) : Statement (.stu f) := by
  intro w _ e
  cases e
  rw [read_mem]
  simp only [unpackFull, (mem_opc f 0x87#8).1, (mem_opc f 0x87#8).2.1]
  exact congrArg (fun x => some (Instr.stu x)) (mem_unpack_pack f _)

theorem atom (f : MemW) : Statement (.atom f) := by
  intro w _ e
  cases e
  rw [read_mem]
  simp only [unpackFull, (mem_opc f 0x88#8).1, (mem_opc f 0x88#8).2.1]
  exact congrArg (fun x => some (Instr.atom x)) (mem_unpack_pack f _)

theorem atoms (f : MemW) : Statement (.atoms f) := by
  intro w _ e
  cases e
  rw [read_mem]
  simp only [unpackFull, (mem_opc f 0x89#8).1, (mem_opc f 0x89#8).2.1]
  exact congrArg (fun x => some (Instr.atoms x)) (mem_unpack_pack f _)

theorem red (f : MemW) : Statement (.red f) := by
  intro w _ e
  cases e
  rw [read_mem]
  simp only [unpackFull, (mem_opc f 0x8A#8).1, (mem_opc f 0x8A#8).2.1]
  exact congrArg (fun x => some (Instr.red x)) (mem_unpack_pack f _)

theorem append (f : SysW) : Statement (.append f) := by
  intro w _ e
  cases e
  rw [read_sys]
  simp only [unpackFull, (sys_opc f 0x8B#8).1, (sys_opc f 0x8B#8).2.1]
  exact congrArg (fun x => some (Instr.append x)) (sys_unpack_pack f _)

theorem decline (f : SysW) : Statement (.decline f) := by
  intro w _ e
  cases e
  rw [read_sys]
  simp only [unpackFull, (sys_opc f 0x8C#8).1, (sys_opc f 0x8C#8).2.1]
  exact congrArg (fun x => some (Instr.decline x)) (sys_unpack_pack f _)

theorem fence (f : MemW) : Statement (.fence f) := by
  intro w _ e
  cases e
  rw [read_mem]
  simp only [unpackFull, (mem_opc f 0x8D#8).1, (mem_opc f 0x8D#8).2.1]
  exact congrArg (fun x => some (Instr.fence x)) (mem_unpack_pack f _)

theorem bar (f : SysW) : Statement (.bar f) := by
  intro w _ e
  cases e
  rw [read_sys]
  simp only [unpackFull, (sys_opc f 0x90#8).1, (sys_opc f 0x90#8).2.1]
  exact congrArg (fun x => some (Instr.bar x)) (sys_unpack_pack f _)

theorem cbinit (f : SysW) : Statement (.cbinit f) := by
  intro w _ e
  cases e
  rw [read_sys]
  simp only [unpackFull, (sys_opc f 0x91#8).1, (sys_opc f 0x91#8).2.1]
  exact congrArg (fun x => some (Instr.cbinit x)) (sys_unpack_pack f _)

theorem cbarv (f : SysW) : Statement (.cbarv f) := by
  intro w _ e
  cases e
  rw [read_sys]
  simp only [unpackFull, (sys_opc f 0x92#8).1, (sys_opc f 0x92#8).2.1]
  exact congrArg (fun x => some (Instr.cbarv x)) (sys_unpack_pack f _)

theorem cbwait (f : SysW) : Statement (.cbwait f) := by
  intro w _ e
  cases e
  rw [read_sys]
  simp only [unpackFull, (sys_opc f 0x93#8).1, (sys_opc f 0x93#8).2.1]
  exact congrArg (fun x => some (Instr.cbwait x)) (sys_unpack_pack f _)

theorem tlwait (f : SysW) : Statement (.tlwait f) := by
  intro w _ e
  cases e
  rw [read_sys]
  simp only [unpackFull, (sys_opc f 0x94#8).1, (sys_opc f 0x94#8).2.1]
  exact congrArg (fun x => some (Instr.tlwait x)) (sys_unpack_pack f _)

theorem tlread (f : SysW) : Statement (.tlread f) := by
  intro w _ e
  cases e
  rw [read_sys]
  simp only [unpackFull, (sys_opc f 0x95#8).1, (sys_opc f 0x95#8).2.1]
  exact congrArg (fun x => some (Instr.tlread x)) (sys_unpack_pack f _)

theorem cpy (f : SysW) : Statement (.cpy f) := by
  intro w _ e
  cases e
  rw [read_sys]
  simp only [unpackFull, (sys_opc f 0x96#8).1, (sys_opc f 0x96#8).2.1]
  exact congrArg (fun x => some (Instr.cpy x)) (sys_unpack_pack f _)

theorem mcast (f : SysW) : Statement (.mcast f) := by
  intro w _ e
  cases e
  rw [read_sys]
  simp only [unpackFull, (sys_opc f 0x97#8).1, (sys_opc f 0x97#8).2.1]
  exact congrArg (fun x => some (Instr.mcast x)) (sys_unpack_pack f _)

theorem cexec (f : SysW) : Statement (.cexec f) := by
  intro w _ e
  cases e
  rw [read_sys]
  simp only [unpackFull, (sys_opc f 0x98#8).1, (sys_opc f 0x98#8).2.1]
  exact congrArg (fun x => some (Instr.cexec x)) (sys_unpack_pack f _)

theorem ceqry (f : SysW) : Statement (.ceqry f) := by
  intro w h e
  cases e
  rw [read_sys]
  simp only [unpackFull, (sys_opc f 0x99#8).1, (sys_opc f 0x99#8).2.1]
  show some (ite _ _ _) = _
  rw [sys_var, sys_unpack_pack]
  simp [Instr.wf, Instr.legal] at h
  simp [h]

theorem ceqryArg (f : SysW) : Statement (.ceqryArg f) := by
  intro w h e
  cases e
  rw [read_sys]
  simp only [unpackFull, (sys_opc f 0x99#8).1, (sys_opc f 0x99#8).2.1]
  show some (ite _ _ _) = _
  rw [sys_var, sys_unpack_pack]
  simp [Instr.wf, Instr.legal] at h
  simp [h]

theorem iscfg (f : SysW) : Statement (.iscfg f) := by
  intro w _ e
  cases e
  rw [read_sys]
  simp only [unpackFull, (sys_opc f 0x9A#8).1, (sys_opc f 0x9A#8).2.1]
  exact congrArg (fun x => some (Instr.iscfg x)) (sys_unpack_pack f _)

theorem qclose (f : SysW) : Statement (.qclose f) := by
  intro w _ e
  cases e
  rw [read_sys]
  simp only [unpackFull, (sys_opc f 0x9B#8).1, (sys_opc f 0x9B#8).2.1]
  exact congrArg (fun x => some (Instr.qclose x)) (sys_unpack_pack f _)

theorem emit (f : SysW) : Statement (.emit f) := by
  intro w _ e
  cases e
  rw [read_sys]
  simp only [unpackFull, (sys_opc f 0x9C#8).1, (sys_opc f 0x9C#8).2.1]
  exact congrArg (fun x => some (Instr.emit x)) (sys_unpack_pack f _)

theorem emitr (f : SysW) : Statement (.emitr f) := by
  intro w _ e
  cases e
  rw [read_sys]
  simp only [unpackFull, (sys_opc f 0x9D#8).1, (sys_opc f 0x9D#8).2.1]
  exact congrArg (fun x => some (Instr.emitr x)) (sys_unpack_pack f _)

theorem recget (f : SysW) : Statement (.recget f) := by
  intro w h e
  cases e
  rw [read_sys]
  simp only [unpackFull, (sys_opc f 0x9E#8).1, (sys_opc f 0x9E#8).2.1]
  show some (ite _ _ _) = _
  rw [sys_var, sys_unpack_pack]
  simp [Instr.wf, Instr.legal] at h
  simp [h]

theorem recgetCount (f : SysW) : Statement (.recgetCount f) := by
  intro w h e
  cases e
  rw [read_sys]
  simp only [unpackFull, (sys_opc f 0x9E#8).1, (sys_opc f 0x9E#8).2.1]
  show some (ite _ _ _) = _
  rw [sys_var, sys_unpack_pack]
  simp [Instr.wf, Instr.legal] at h
  simp [h]

theorem mbtgt (f : SysW) : Statement (.mbtgt f) := by
  intro w _ e
  cases e
  rw [read_sys]
  simp only [unpackFull, (sys_opc f 0x9F#8).1, (sys_opc f 0x9F#8).2.1]
  exact congrArg (fun x => some (Instr.mbtgt x)) (sys_unpack_pack f _)

theorem mxzero (f : SysW) : Statement (.mxzero f) := by
  intro w _ e
  cases e
  rw [read_sys]
  simp only [unpackFull, (sys_opc f 0xA0#8).1, (sys_opc f 0xA0#8).2.1]
  exact congrArg (fun x => some (Instr.mxzero x)) (sys_unpack_pack f _)

theorem mxldw (f : SysW) : Statement (.mxldw f) := by
  intro w _ e
  cases e
  rw [read_sys]
  simp only [unpackFull, (sys_opc f 0xA1#8).1, (sys_opc f 0xA1#8).2.1]
  exact congrArg (fun x => some (Instr.mxldw x)) (sys_unpack_pack f _)

theorem mxloop (f : SysW) : Statement (.mxloop f) := by
  intro w _ e
  cases e
  rw [read_sys]
  simp only [unpackFull, (sys_opc f 0xA2#8).1, (sys_opc f 0xA2#8).2.1]
  exact congrArg (fun x => some (Instr.mxloop x)) (sys_unpack_pack f _)

theorem mxspl (f : SysW) : Statement (.mxspl f) := by
  intro w _ e
  cases e
  rw [read_sys]
  simp only [unpackFull, (sys_opc f 0xA3#8).1, (sys_opc f 0xA3#8).2.1]
  exact congrArg (fun x => some (Instr.mxspl x)) (sys_unpack_pack f _)

theorem mxdrain (f : SysW) : Statement (.mxdrain f) := by
  intro w _ e
  cases e
  rw [read_sys]
  simp only [unpackFull, (sys_opc f 0xA4#8).1, (sys_opc f 0xA4#8).2.1]
  exact congrArg (fun x => some (Instr.mxdrain x)) (sys_unpack_pack f _)

theorem mxfence (f : SysW) : Statement (.mxfence f) := by
  intro w _ e
  cases e
  rw [read_sys]
  simp only [unpackFull, (sys_opc f 0xA5#8).1, (sys_opc f 0xA5#8).2.1]
  exact congrArg (fun x => some (Instr.mxfence x)) (sys_unpack_pack f _)

theorem mxrd (f : SysW) : Statement (.mxrd f) := by
  intro w h e
  cases e
  rw [read_sys]
  simp only [unpackFull, (sys_opc f 0xA6#8).1, (sys_opc f 0xA6#8).2.1]
  show some (ite _ _ _) = _
  rw [sys_var, sys_unpack_pack]
  simp [Instr.wf, Instr.legal] at h
  have : f.var ≠ 2#4 := fun e => by simp [e] at h
  simp [this]

theorem mxrdStat (f : SysW) : Statement (.mxrdStat f) := by
  intro w h e
  cases e
  rw [read_sys]
  simp only [unpackFull, (sys_opc f 0xA6#8).1, (sys_opc f 0xA6#8).2.1]
  show some (ite _ _ _) = _
  rw [sys_var, sys_unpack_pack]
  simp [Instr.wf, Instr.legal] at h
  simp [h]

theorem mxwr (f : SysW) : Statement (.mxwr f) := by
  intro w _ e
  cases e
  rw [read_sys]
  simp only [unpackFull, (sys_opc f 0xA7#8).1, (sys_opc f 0xA7#8).2.1]
  exact congrArg (fun x => some (Instr.mxwr x)) (sys_unpack_pack f _)

theorem mxmask (f : SysW) : Statement (.mxmask f) := by
  intro w _ e
  cases e
  rw [read_sys]
  simp only [unpackFull, (sys_opc f 0xA8#8).1, (sys_opc f 0xA8#8).2.1]
  exact congrArg (fun x => some (Instr.mxmask x)) (sys_unpack_pack f _)

theorem mxcfg (f : SysW) : Statement (.mxcfg f) := by
  intro w _ e
  cases e
  rw [read_sys]
  simp only [unpackFull, (sys_opc f 0xA9#8).1, (sys_opc f 0xA9#8).2.1]
  exact congrArg (fun x => some (Instr.mxcfg x)) (sys_unpack_pack f _)

theorem jchain (f : SysW) : Statement (.jchain f) := by
  intro w _ e
  cases e
  rw [read_sys]
  simp only [unpackFull, (sys_opc f 0xAA#8).1, (sys_opc f 0xAA#8).2.1]
  exact congrArg (fun x => some (Instr.jchain x)) (sys_unpack_pack f _)

theorem jsend (f : SysW) : Statement (.jsend f) := by
  intro w _ e
  cases e
  rw [read_sys]
  simp only [unpackFull, (sys_opc f 0xAB#8).1, (sys_opc f 0xAB#8).2.1]
  exact congrArg (fun x => some (Instr.jsend x)) (sys_unpack_pack f _)

theorem jrecv (f : SysW) : Statement (.jrecv f) := by
  intro w _ e
  cases e
  rw [read_sys]
  simp only [unpackFull, (sys_opc f 0xAC#8).1, (sys_opc f 0xAC#8).2.1]
  exact congrArg (fun x => some (Instr.jrecv x)) (sys_unpack_pack f _)

theorem jclose (f : SysW) : Statement (.jclose f) := by
  intro w _ e
  cases e
  rw [read_sys]
  simp only [unpackFull, (sys_opc f 0xAD#8).1, (sys_opc f 0xAD#8).2.1]
  exact congrArg (fun x => some (Instr.jclose x)) (sys_unpack_pack f _)

theorem jabort (f : SysW) : Statement (.jabort f) := by
  intro w _ e
  cases e
  rw [read_sys]
  simp only [unpackFull, (sys_opc f 0xAE#8).1, (sys_opc f 0xAE#8).2.1]
  exact congrArg (fun x => some (Instr.jabort x)) (sys_unpack_pack f _)

theorem rtbox (f : SysW) : Statement (.rtbox f) := by
  intro w _ e
  cases e
  rw [read_sys]
  simp only [unpackFull, (sys_opc f 0xB0#8).1, (sys_opc f 0xB0#8).2.1]
  exact congrArg (fun x => some (Instr.rtbox x)) (sys_unpack_pack f _)

theorem rttri (f : SysW) : Statement (.rttri f) := by
  intro w _ e
  cases e
  rw [read_sys]
  simp only [unpackFull, (sys_opc f 0xB1#8).1, (sys_opc f 0xB1#8).2.1]
  exact congrArg (fun x => some (Instr.rttri x)) (sys_unpack_pack f _)

theorem rtcrv (f : SysW) : Statement (.rtcrv f) := by
  intro w _ e
  cases e
  rw [read_sys]
  simp only [unpackFull, (sys_opc f 0xB2#8).1, (sys_opc f 0xB2#8).2.1]
  exact congrArg (fun x => some (Instr.rtcrv x)) (sys_unpack_pack f _)

theorem rtrace (f : SysW) : Statement (.rtrace f) := by
  intro w _ e
  cases e
  rw [read_sys]
  simp only [unpackFull, (sys_opc f 0xB3#8).1, (sys_opc f 0xB3#8).2.1]
  exact congrArg (fun x => some (Instr.rtrace x)) (sys_unpack_pack f _)

theorem rng (f : SysW) : Statement (.rng f) := by
  intro w _ e
  cases e
  rw [read_sys]
  simp only [unpackFull, (sys_opc f 0xB4#8).1, (sys_opc f 0xB4#8).2.1]
  exact congrArg (fun x => some (Instr.rng x)) (sys_unpack_pack f _)

theorem rsvupd (f : SysW) : Statement (.rsvupd f) := by
  intro w _ e
  cases e
  rw [read_sys]
  simp only [unpackFull, (sys_opc f 0xB5#8).1, (sys_opc f 0xB5#8).2.1]
  exact congrArg (fun x => some (Instr.rsvupd x)) (sys_unpack_pack f _)

theorem rsvmrg (f : SysW) : Statement (.rsvmrg f) := by
  intro w _ e
  cases e
  rw [read_sys]
  simp only [unpackFull, (sys_opc f 0xB6#8).1, (sys_opc f 0xB6#8).2.1]
  exact congrArg (fun x => some (Instr.rsvmrg x)) (sys_unpack_pack f _)

theorem rsvnrm (f : SysW) : Statement (.rsvnrm f) := by
  intro w _ e
  cases e
  rw [read_sys]
  simp only [unpackFull, (sys_opc f 0xB7#8).1, (sys_opc f 0xB7#8).2.1]
  exact congrArg (fun x => some (Instr.rsvnrm x)) (sys_unpack_pack f _)

theorem rsvld (f : SysW) : Statement (.rsvld f) := by
  intro w _ e
  cases e
  rw [read_sys]
  simp only [unpackFull, (sys_opc f 0xB8#8).1, (sys_opc f 0xB8#8).2.1]
  exact congrArg (fun x => some (Instr.rsvld x)) (sys_unpack_pack f _)

theorem rsvst (f : SysW) : Statement (.rsvst f) := by
  intro w _ e
  cases e
  rw [read_sys]
  simp only [unpackFull, (sys_opc f 0xB9#8).1, (sys_opc f 0xB9#8).2.1]
  exact congrArg (fun x => some (Instr.rsvst x)) (sys_unpack_pack f _)

theorem ltwalk (f : SysW) : Statement (.ltwalk f) := by
  intro w _ e
  cases e
  rw [read_sys]
  simp only [unpackFull, (sys_opc f 0xBA#8).1, (sys_opc f 0xBA#8).2.1]
  exact congrArg (fun x => some (Instr.ltwalk x)) (sys_unpack_pack f _)

theorem reuse (f : SysW) : Statement (.reuse f) := by
  intro w _ e
  cases e
  rw [read_sys]
  simp only [unpackFull, (sys_opc f 0xBB#8).1, (sys_opc f 0xBB#8).2.1]
  exact congrArg (fun x => some (Instr.reuse x)) (sys_unpack_pack f _)

theorem cparg (f : SysW) : Statement (.cparg f) := by
  intro w _ e
  cases e
  rw [read_sys]
  simp only [unpackFull, (sys_opc f 0xC0#8).1, (sys_opc f 0xC0#8).2.1]
  exact congrArg (fun x => some (Instr.cparg x)) (sys_unpack_pack f _)

theorem cpret (f : SysW) : Statement (.cpret f) := by
  intro w _ e
  cases e
  rw [read_sys]
  simp only [unpackFull, (sys_opc f 0xC1#8).1, (sys_opc f 0xC1#8).2.1]
  exact congrArg (fun x => some (Instr.cpret x)) (sys_unpack_pack f _)

theorem kld (f : SysW) : Statement (.kld f) := by
  intro w _ e
  cases e
  rw [read_sys]
  simp only [unpackFull, (sys_opc f 0xD0#8).1, (sys_opc f 0xD0#8).2.1]
  exact congrArg (fun x => some (Instr.kld x)) (sys_unpack_pack f _)

theorem kst (f : SysW) : Statement (.kst f) := by
  intro w _ e
  cases e
  rw [read_sys]
  simp only [unpackFull, (sys_opc f 0xD1#8).1, (sys_opc f 0xD1#8).2.1]
  exact congrArg (fun x => some (Instr.kst x)) (sys_unpack_pack f _)

theorem agset (f : SysW) : Statement (.agset f) := by
  intro w _ e
  cases e
  rw [read_sys]
  simp only [unpackFull, (sys_opc f 0xD2#8).1, (sys_opc f 0xD2#8).2.1]
  exact congrArg (fun x => some (Instr.agset x)) (sys_unpack_pack f _)

theorem agstep (f : SysW) : Statement (.agstep f) := by
  intro w _ e
  cases e
  rw [read_sys]
  simp only [unpackFull, (sys_opc f 0xD3#8).1, (sys_opc f 0xD3#8).2.1]
  exact congrArg (fun x => some (Instr.agstep x)) (sys_unpack_pack f _)

theorem scopy (f : SysW) : Statement (.scopy f) := by
  intro w _ e
  cases e
  rw [read_sys]
  simp only [unpackFull, (sys_opc f 0xD4#8).1, (sys_opc f 0xD4#8).2.1]
  exact congrArg (fun x => some (Instr.scopy x)) (sys_unpack_pack f _)

theorem sgath (f : SysW) : Statement (.sgath f) := by
  intro w _ e
  cases e
  rw [read_sys]
  simp only [unpackFull, (sys_opc f 0xD5#8).1, (sys_opc f 0xD5#8).2.1]
  exact congrArg (fun x => some (Instr.sgath x)) (sys_unpack_pack f _)

theorem sscat (f : SysW) : Statement (.sscat f) := by
  intro w _ e
  cases e
  rw [read_sys]
  simp only [unpackFull, (sys_opc f 0xD6#8).1, (sys_opc f 0xD6#8).2.1]
  exact congrArg (fun x => some (Instr.sscat x)) (sys_unpack_pack f _)

theorem smcast (f : SysW) : Statement (.smcast f) := by
  intro w _ e
  cases e
  rw [read_sys]
  simp only [unpackFull, (sys_opc f 0xD7#8).1, (sys_opc f 0xD7#8).2.1]
  exact congrArg (fun x => some (Instr.smcast x)) (sys_unpack_pack f _)

theorem cbload (f : SysW) : Statement (.cbload f) := by
  intro w _ e
  cases e
  rw [read_sys]
  simp only [unpackFull, (sys_opc f 0xD8#8).1, (sys_opc f 0xD8#8).2.1]
  exact congrArg (fun x => some (Instr.cbload x)) (sys_unpack_pack f _)

theorem sdecode (f : SysW) : Statement (.sdecode f) := by
  intro w _ e
  cases e
  rw [read_sys]
  simp only [unpackFull, (sys_opc f 0xD9#8).1, (sys_opc f 0xD9#8).2.1]
  exact congrArg (fun x => some (Instr.sdecode x)) (sys_unpack_pack f _)

theorem qpush (f : SysW) : Statement (.qpush f) := by
  intro w _ e
  cases e
  rw [read_sys]
  simp only [unpackFull, (sys_opc f 0xDA#8).1, (sys_opc f 0xDA#8).2.1]
  exact congrArg (fun x => some (Instr.qpush x)) (sys_unpack_pack f _)

theorem tlinc (f : SysW) : Statement (.tlinc f) := by
  intro w _ e
  cases e
  rw [read_sys]
  simp only [unpackFull, (sys_opc f 0xDB#8).1, (sys_opc f 0xDB#8).2.1]
  exact congrArg (fun x => some (Instr.tlinc x)) (sys_unpack_pack f _)

theorem swait (f : SysW) : Statement (.swait f) := by
  intro w _ e
  cases e
  rw [read_sys]
  simp only [unpackFull, (sys_opc f 0xDC#8).1, (sys_opc f 0xDC#8).2.1]
  exact congrArg (fun x => some (Instr.swait x)) (sys_unpack_pack f _)

theorem stopc (f : SysW) : Statement (.stopc f) := by
  intro w _ e
  cases e
  rw [read_sys]
  simp only [unpackFull, (sys_opc f 0xDD#8).1, (sys_opc f 0xDD#8).2.1]
  exact congrArg (fun x => some (Instr.stopc x)) (sys_unpack_pack f _)

theorem pairedWord (f : PairW) : Statement (.pairedWord f) := by
  intro w _ e
  cases e
  simp [read, pair_bit, pair_unpack_pack]

theorem moduleReset (b : Bringup) : Statement (.moduleReset b) := by
  intro w _ e
  cases e

theorem partitionReset (r : ResetReq) : Statement (.partitionReset r) := by
  intro w _ e
  cases e

theorem clockStretch (cluster cycles : Nat) : Statement (.clockStretch cluster cycles) := by
  intro w _ e
  cases e

theorem powerLimit (cycles : Nat) : Statement (.powerLimit cycles) := by
  intro w _ e
  cases e

theorem energyRefill : Statement (.energyRefill) := by
  intro w _ e
  cases e

theorem teamAdmit (team : Nat) : Statement (.teamAdmit team) := by
  intro w _ e
  cases e

theorem ucieModuleFail (gw m : Nat) : Statement (.ucieModuleFail gw m) := by
  intro w _ e
  cases e

theorem fabricPortFail (port : Nat) : Statement (.fabricPortFail port) := by
  intro w _ e
  cases e

theorem flitCrcFail (port : Nat) : Statement (.flitCrcFail port) := by
  intro w _ e
  cases e

theorem thieloData (n : Nat) : Statement (.thieloData n) := by
  intro w _ e
  cases e

theorem e2eack (n : Nat) : Statement (.e2eack n) := by
  intro w _ e
  cases e

theorem e2eRetransmit (n port : Nat) : Statement (.e2eRetransmit n port) := by
  intro w _ e
  cases e

theorem fatalError (p reason origin addr : Nat) : Statement (.fatalError p reason origin addr) := by
  intro w _ e
  cases e

theorem haltLineArrival (p unit : Nat) : Statement (.haltLineArrival p unit) := by
  intro w _ e
  cases e

theorem haltHeaderWrite (p : Nat) : Statement (.haltHeaderWrite p) := by
  intro w _ e
  cases e

theorem homeRequest (rid : Rid) : Statement (.homeRequest rid) := by
  intro w _ e
  cases e

theorem ackFlit (rid : Rid) : Statement (.ackFlit rid) := by
  intro w _ e
  cases e

theorem nackFlit (rid : Rid) : Statement (.nackFlit rid) := by
  intro w _ e
  cases e

theorem deferredPerm (team wave : Nat) : Statement (.deferredPerm team wave) := by
  intro w _ e
  cases e

theorem mingenRaiseComplete (asid : Nat) : Statement (.mingenRaiseComplete asid) := by
  intro w _ e
  cases e

theorem onDemandTranslate (who : Requester) : Statement (.onDemandTranslate who) := by
  intro w _ e
  cases e

theorem gatewayAnchorData (n : Nat) : Statement (.gatewayAnchorData n) := by
  intro w _ e
  cases e

theorem gatewayWindowEnd (n : Nat) : Statement (.gatewayWindowEnd n) := by
  intro w _ e
  cases e

theorem gatewayReduction (rid : Rid) : Statement (.gatewayReduction rid) := by
  intro w _ e
  cases e

theorem haloRequest (cluster slot : Nat) : Statement (.haloRequest cluster slot) := by
  intro w _ e
  cases e

theorem mail (n : Nat) : Statement (.mail n) := by
  intro w _ e
  cases e

theorem mailacc (n : Nat) : Statement (.mailacc n) := by
  intro w _ e
  cases e

theorem mailref (n : Nat) : Statement (.mailref n) := by
  intro w _ e
  cases e

theorem mailSlotGrant (team wave : Nat) : Statement (.mailSlotGrant team wave) := by
  intro w _ e
  cases e

theorem mailResendTimeout (team wave : Nat) : Statement (.mailResendTimeout team wave) := by
  intro w _ e
  cases e

theorem mbdropRead (core : Nat) : Statement (.mbdropRead core) := by
  intro w _ e
  cases e

theorem stretchCountRead (cluster : Nat) : Statement (.stretchCountRead cluster) := by
  intro w _ e
  cases e

theorem reservationGrant (core : Nat) : Statement (.reservationGrant core) := by
  intro w _ e
  cases e

theorem ready (n : Nat) : Statement (.ready n) := by
  intro w _ e
  cases e

theorem arm (n : Nat) : Statement (.arm n) := by
  intro w _ e
  cases e

theorem credit (n : Nat) : Statement (.credit n) := by
  intro w _ e
  cases e

theorem req (n : Nat) : Statement (.req n) := by
  intro w _ e
  cases e

theorem data (n : Nat) : Statement (.data n) := by
  intro w _ e
  cases e

theorem datasat (n : Nat) : Statement (.datasat n) := by
  intro w _ e
  cases e

theorem endFlit (n : Nat) : Statement (.endFlit n) := by
  intro w _ e
  cases e

theorem abortFlit (n : Nat) : Statement (.abortFlit n) := by
  intro w _ e
  cases e

theorem refuse (n : Nat) : Statement (.refuse n) := by
  intro w _ e
  cases e

theorem revoke (n : Nat) : Statement (.revoke n) := by
  intro w _ e
  cases e

theorem copyBurst (engine : Nat) : Statement (.copyBurst engine) := by
  intro w _ e
  cases e

theorem copyComplete (ctx num : Nat) : Statement (.copyComplete ctx num) := by
  intro w _ e
  cases e

theorem waveCopyComplete (team num : Nat) : Statement (.waveCopyComplete team num) := by
  intro w _ e
  cases e

theorem tlincApply (ctx : Nat) : Statement (.tlincApply ctx) := by
  intro w _ e
  cases e

theorem cbarvApply (ctx : Nat) : Statement (.cbarvApply ctx) := by
  intro w _ e
  cases e

theorem contextFaulted (ctx : Nat) : Statement (.contextFaulted ctx) := by
  intro w _ e
  cases e

theorem stopcComplete (ctx : Nat) : Statement (.stopcComplete ctx) := by
  intro w _ e
  cases e

theorem streamFetch (team q : Nat) : Statement (.streamFetch team q) := by
  intro w _ e
  cases e

theorem matrixOpStart (team : Nat) : Statement (.matrixOpStart team) := by
  intro w _ e
  cases e

theorem clusterOpArrival (team core : Nat) : Statement (.clusterOpArrival team core) := by
  intro w _ e
  cases e

theorem rowBlock (team : Nat) : Statement (.rowBlock team) := by
  intro w _ e
  cases e

theorem matrixOpComplete (team : Nat) : Statement (.matrixOpComplete team) := by
  intro w _ e
  cases e

theorem rtraceStart (core n : Nat) : Statement (.rtraceStart core n) := by
  intro w _ e
  cases e

theorem rayUnitComplete (core n : Nat) : Statement (.rayUnitComplete core n) := by
  intro w _ e
  cases e

theorem passStart (cluster slot : Nat) : Statement (.passStart cluster slot) := by
  intro w _ e
  cases e

theorem passPixel (cluster slot : Nat) : Statement (.passPixel cluster slot) := by
  intro w _ e
  cases e

theorem visibilitySegment (cluster slot : Nat) : Statement (.visibilitySegment cluster slot) := by
  intro w _ e
  cases e

theorem passEnd (cluster slot : Nat) : Statement (.passEnd cluster slot) := by
  intro w _ e
  cases e

theorem hostCommit (port qp : Nat) (msg : CommitMsg) : Statement (.hostCommit port qp msg) := by
  intro w _ e
  cases e

theorem rdmaWrite (r : RdmaReq) : Statement (.rdmaWrite r) := by
  intro w _ e
  cases e

theorem rdmaRead (r : RdmaReq) : Statement (.rdmaRead r) := by
  intro w _ e
  cases e

theorem roceInvalidRequest (port qp : Nat) : Statement (.roceInvalidRequest port qp) := by
  intro w _ e
  cases e

theorem nodeFire (p node : Nat) : Statement (.nodeFire p node) := by
  intro w _ e
  cases e

theorem drainComplete (p node : Nat) : Statement (.drainComplete p node) := by
  intro w _ e
  cases e

theorem teamReady (team : Nat) : Statement (.teamReady team) := by
  intro w _ e
  cases e

theorem teamResident (core team : Nat) : Statement (.teamResident core team) := by
  intro w _ e
  cases e

theorem bankSwap (core : Nat) : Statement (.bankSwap core) := by
  intro w _ e
  cases e

theorem waitSwapTimeout (core : Nat) : Statement (.waitSwapTimeout core) := by
  intro w _ e
  cases e

theorem contextSaved (team : Nat) : Statement (.contextSaved team) := by
  intro w _ e
  cases e

theorem claimComplete (core : Nat) : Statement (.claimComplete core) := by
  intro w _ e
  cases e

theorem teamEnd (team energy : Nat) : Statement (.teamEnd team energy) := by
  intro w _ e
  cases e

theorem launchEnd (launch : Nat) : Statement (.launchEnd launch) := by
  intro w _ e
  cases e

theorem flush (p : Nat) : Statement (.flush p) := by
  intro w _ e
  cases e

theorem replay (p : Nat) : Statement (.replay p) := by
  intro w _ e
  cases e

theorem flushThenReplay (p : Nat) : Statement (.flushThenReplay p) := by
  intro w _ e
  cases e

theorem force (m : MgmtMsg) : Statement (.force m) := by
  intro w _ e
  cases e

theorem kill (m : MgmtMsg) : Statement (.kill m) := by
  intro w _ e
  cases e

theorem halt (m : MgmtMsg) : Statement (.halt m) := by
  intro w _ e
  cases e

theorem nodetab (m : MgmtMsg) : Statement (.nodetab m) := by
  intro w _ e
  cases e

theorem nodeon (m : MgmtMsg) : Statement (.nodeon m) := by
  intro w _ e
  cases e

theorem nodeoff (m : MgmtMsg) : Statement (.nodeoff m) := by
  intro w _ e
  cases e

theorem asrec (m : MgmtMsg) : Statement (.asrec m) := by
  intro w _ e
  cases e

theorem svcdone (p : Nat) (ticket : Word) : Statement (.svcdone p ticket) := by
  intro w _ e
  cases e

theorem keyLoad (r : KeyReq) : Statement (.keyLoad r) := by
  intro w _ e
  cases e

theorem keyErase (r : KeyReq) : Statement (.keyErase r) := by
  intro w _ e
  cases e

theorem regionWrite (by_ : Role) (i : Nat) (rega regb : DWord) : Statement (.regionWrite by_ i rega regb) := by
  intro w _ e
  cases e

theorem regionRekeyComplete (die i : Nat) : Statement (.regionRekeyComplete die i) := by
  intro w _ e
  cases e

theorem worldWrite (die : Nat) (by_ : Role) (num : BitVec 12) (value : DWord) : Statement (.worldWrite die by_ num value) := by
  intro w _ e
  cases e

theorem schcfgWrite (p : Nat) (value : DWord) : Statement (.schcfgWrite p value) := by
  intro w _ e
  cases e

theorem areaBaseWrite (num : BitVec 12) (value : DWord) : Statement (.areaBaseWrite num value) := by
  intro w _ e
  cases e

theorem allowanceWrite (p watts : Nat) : Statement (.allowanceWrite p watts) := by
  intro w _ e
  cases e

theorem budgetSet (by_ : Role) (b : Budget) : Statement (.budgetSet by_ b) := by
  intro w _ e
  cases e

theorem mregExtend (die : Nat) (by_ : Role) (i : Nat) (digest : BitVec 512) : Statement (.mregExtend die by_ i digest) := by
  intro w _ e
  cases e

theorem attestationReport (die : Nat) (nonce : List Byte) : Statement (.attestationReport die nonce) := by
  intro w _ e
  cases e

theorem signedSidebandRequest (r : SideReq) : Statement (.signedSidebandRequest r) := by
  intro w _ e
  cases e

theorem mgmtCsrWrite (die : Nat) (by_ : Role) (num : BitVec 12) (value : DWord) : Statement (.mgmtCsrWrite die by_ num value) := by
  intro w _ e
  cases e

theorem readDataResponse (rid : Rid) : Statement (.readDataResponse rid) := by
  intro w _ e
  cases e

theorem contextFillComplete (core : Nat) : Statement (.contextFillComplete core) := by
  intro w _ e
  cases e

theorem releaseClearComplete (core : Nat) : Statement (.releaseClearComplete core) := by
  intro w _ e
  cases e

theorem gatewayReductionWindowEnd (n : Nat) : Statement (.gatewayReductionWindowEnd n) := by
  intro w _ e
  cases e

theorem mailboxControlFlit (n : Nat) : Statement (.mailboxControlFlit n) := by
  intro w _ e
  cases e

theorem unknownOp (m : MgmtMsg) : Statement (.unknownOp m) := by
  intro w _ e
  cases e

theorem stackFail (k : Nat) : Statement (.stackFail k) := by
  intro w _ e
  cases e

theorem ucieLinkLevelRetry (gw m : Nat) : Statement (.ucieLinkLevelRetry gw m) := by
  intro w _ e
  cases e

end Sys2Proof.Laws.Codec
end

