-- ==== Sys2Proof/Laws/Slices.lean ====
section
/-! SUPPORT. Slices and gangs: what a slice does when its PC changes, which slices an update of a gang reaches, and what a trap with a
handler makes of its wave. -/

namespace Sys2Proof.Machine

/-- A slice whose stack's top entry does not name the PC it comes to only moves there (R116, R174). -/
theorem reconvergeStack_plain (pc : BitVec 53) (m : BitVec 4) (st : List Deferral) (h : ∀ e ∈ st.head?, e.rpc = 0 ∨ e.rpc ≠ pc) :
    reconvergeStack pc m st = (pc, m, st, false) := by
  cases st with
  | nil => rfl
  | cons e r =>
    have := h e (by simp)
    have hf : (e.rpc != 0 && pc == e.rpc) = false := by
      rcases this with h0 | h1
      · simp [h0]
      · simp [Ne.symm h1]
    simp only [reconvergeStack, hf, Bool.false_eq_true, if_false]

/-- Where a slice stands after `goto`, when no entry is reached. -/
theorem Slice.goto_plain (sl : Slice) (pc : BitVec 53) (jump bnd : Bool) (h : ∀ e ∈ sl.stack.head?, e.rpc = 0 ∨ e.rpc ≠ pc) :
    sl.goto pc jump bnd = { sl with pc := pc, runpos := if jump || bnd then 0 else sl.runpos + 1, hold := .free } := by
  unfold Slice.goto
  rw [reconvergeStack_plain pc sl.lmask sl.stack h]
  simp

/-- What `goto` leaves alone whatever the stack holds: whether the slice lives, and its gang. -/
@[simp] theorem Slice.goto_live (sl : Slice) (pc : BitVec 53) (jump bnd : Bool) : (sl.goto pc jump bnd).live = sl.live := rfl
@[simp] theorem Slice.goto_gangid (sl : Slice) (pc : BitVec 53) (jump bnd : Bool) : (sl.goto pc jump bnd).gangid = sl.gangid := rfl
@[simp] theorem Slice.goto_hold (sl : Slice) (pc : BitVec 53) (jump bnd : Bool) : (sl.goto pc jump bnd).hold = .free := rfl

/-- A slice of a wave after an update of a gang: changed when the gang holds it, else as it was. -/
theorem Wave.mapGang_getElem? (W : Wave) (g : BitVec 8) (f : Nat → Slice → Slice) (i : Nat) :
    (W.mapGang g f).slices[i]? = (W.slices[i]?).map fun sl => if g.getLsbD i then f i sl else sl := by
  simp only [Wave.mapGang, List.getElem?_map]
  by_cases h : i < W.slices.length
  · rw [List.getElem?_eq_getElem (by simpa using h), List.getElem?_eq_getElem h]
    simp
  · rw [List.getElem?_eq_none (by simpa using h), List.getElem?_eq_none (by omega)]
    rfl

@[simp] theorem Wave.length_mapGang (W : Wave) (g : BitVec 8) (f : Nat → Slice → Slice) :
    (W.mapGang g f).slices.length = W.slices.length := by
  simp [Wave.mapGang]

@[simp] theorem Wave.length_regroup (W : Wave) (g : BitVec 8) : (W.regroup g).slices.length = W.slices.length :=
  Wave.length_mapGang ..

@[simp] theorem Wave.length_retireTo (W : Wave) (g : BitVec 8) (f : Nat → Slice → Slice) :
    (W.retireTo g f).slices.length = W.slices.length := by
  simp [Wave.retireTo, Wave.endReplay]

/-- A slice outside the gang is as it was after the gang retires (R50). -/
theorem Wave.retireTo_other (W : Wave) (g : BitVec 8) (f : Nat → Slice → Slice) (i : Nat) (h : g.getLsbD i = false) :
    (W.retireTo g f).slices[i]? = W.slices[i]? := by
  simp only [Wave.retireTo, Wave.endReplay, Wave.regroup, Wave.mapGang_getElem?, h]
  cases W.slices[i]? <;> simp

/-- A team and a wave read after they are written. -/
@[simp] theorem team?_setTeam (s : State) (t : Nat) (T : Team) : team? (setTeam s t T) t = some T := smGet?_smSet_self ..

theorem team?_setTeam_ne (s : State) {t u : Nat} (T : Team) (h : u ≠ t) : team? (setTeam s t T) u = team? s u :=
  smGet?_smSet_ne _ _ h

theorem setWave_getElem? (T : Team) (w i : Nat) (W : Wave) :
    (T.setWave w W).waves[i]? = if i = w then (T.waves[i]?).map (fun _ => W) else T.waves[i]? := getElem?_setAt ..

/-- The issuing wave of a state that a word leaves behind with `put`. -/
theorem wave?_put {c : WCtx} {V : Wave} (h : c.T.waves[c.w]? = some V) (W : Wave) : wave? (c.put W) c.t c.w = some W := by
  simp [wave?, WCtx.put, getElem?_setAt, h]

/-- A trap with a handler to enter changes the wave alone (R181). -/
theorem takeTrapAt_handler {s : State} {t w : Nat} {T : Team} {W : Wave} (g : BitVec 8) (cause : Nat) (arg epc : DWord) (df : Bool)
    (hT : team? s t = some T) (hW : T.waves[w]? = some W) (hv : W.whandler.getLsbD 0 = true) (hi : W.intrap = false) :
    takeTrapAt s t w g cause arg epc df = setTeam s t (T.setWave w (W.enter g cause arg epc df)) := by
  unfold takeTrapAt
  simp only [hT, hW, hv, hi, Bool.not_false, Bool.and_self, if_true]

/-- The registers, FPCTL, MBDEST and WCLOCK are as they were on entry to a handler (R181). -/
theorem Wave.enter_frame (W : Wave) (g : BitVec 8) (cause : Nat) (arg epc : DWord) (df : Bool) :
    let V := W.enter g cause arg epc df
    V.v = W.v ∧ V.s = W.s ∧ V.p = W.p ∧ V.fpctl = W.fpctl ∧ V.mbdest = W.mbdest ∧ V.wclock = W.wclock ∧ V.whandler = W.whandler ∧
      V.cause = BitVec.ofNat 8 cause ∧ V.wepc = epc ∧ V.wtraparg = arg ∧ V.intrap = true ∧ V.trapGang = g :=
  ⟨rfl, rfl, rfl, rfl, rfl, rfl, rfl, rfl, rfl, rfl, rfl, rfl⟩

end Sys2Proof.Machine
end

