-- ==== Sys2Proof/Tests/Slice0.lean ====
section
/-! SUPPORT. The tests of the model. The words and numbers are those of the worked examples and tables of spec/, or worked by hand from its
rules; each test says which. The theorems named witness_… show, for the statements of the certificates, states and operands that meet their
hypotheses together and on which the meaning answers a next state. -/

set_option Elab.async false

namespace Sys2Proof.Tests

open Sys2Proof Sys2Proof.Machine Sys2Proof.Claims

/-! States. -/

/-- Registers as (32 × number + lane, value). -/
def words (l : List (Nat × Nat)) : SMap Word := l.map fun p => (p.1, BitVec.ofNat 32 p.2)

/-- The word `w` where the next step fetches, the issuing wave (team 8, wave 0) holding vector registers `v`, uniform registers `u`
and predicates `p`, its slices enabling `m` lanes each. -/
def placed (w : Nat) (m : BitVec 4) (v u p : List (Nat × Nat)) : State :=
  modWave (State.reset.withFetchWord 64 w) 8 0 fun W =>
    { W with v := words v, s := words u, p := words p, slices := W.slices.map fun x => { x with lmask := m } }

/-- The wave after a step. -/
def waveOf (o : Host.Outcome State Fault Refusal) : Option Wave :=
  match o with
  | .next s => wave? s 8 0
  | _ => none

/-- A vector register of a lane, a uniform register, a predicate register after a step, beside the wave's WCLOCK. -/
def vOf (o : Host.Outcome State Fault Refusal) (n l : Nat) : Option (Nat × Nat) :=
  (waveOf o).map fun W => ((smGetD W.v (32 * n + l) 0).toNat, W.wclock.toNat)
def uOf (o : Host.Outcome State Fault Refusal) (n : Nat) : Option (Nat × Nat) :=
  (waveOf o).map fun W => ((smGetD W.s n 0).toNat, W.wclock.toNat)
def pOf (o : Host.Outcome State Fault Refusal) (n : Nat) : Option (Nat × Nat) :=
  (waveOf o).map fun W => ((W.pred n).toNat, W.wclock.toNat)

/-- The gang of all eight slices of that wave about to issue a word, with `m` lanes of each slice enabled. -/
def gang (m : BitVec 4) (v u p : List (Nat × Nat)) : State := { placed 0 m v u p with cur := .wave 8 0 0xFF#8 }

/-- The context of the placed state about to issue a word, its k registers given by number. -/
def ctx (k : List (Nat × Nat)) : State :=
  let s := State.reset.withFetchWord 64 (0xDD * 2 ^ 54)
  { modCtx s 0 fun X => { X with k := k.map fun p => (p.1, BitVec.ofNat 64 p.2) } with cur := .context 0 }

/-- The evaluator lane of the placed state about to run a word. -/
def lane : State := { State.reset.withFetchWord 64 (0xC1 * 2 ^ 54) with cur := .lane 0 }

/-- Whether an instruction answers a next state, one that differs, and that state. -/
def answers (i : Instr) (s : State) : Bool := match exec i s with | .next _ => true | _ => false
def nexts (i : Instr) (s : State) : Bool := match exec i s with | .next t => t != s | _ => false
def run (i : Instr) (s : State) : State := match exec i s with | .next t => t | _ => State.reset

/-- Words of the layouts, unnamed fields 0. -/
def aw (var d a b c : Nat) (sc : Nat := 0) : AluW :=
  ⟨false, BitVec.ofNat 4 var, 0, BitVec.ofNat 8 d, BitVec.ofNat 8 a, BitVec.ofNat 8 b, BitVec.ofNat 8 c, 0, 0, 0, false, BitVec.ofNat 3 sc, 0⟩
def mw (var d a b off scope ord aop : Nat) : MemW :=
  ⟨false, BitVec.ofNat 4 var, 0, BitVec.ofNat 8 d, BitVec.ofNat 8 a, BitVec.ofNat 8 b, BitVec.ofNat 8 off, BitVec.ofNat 3 scope,
    BitVec.ofNat 2 ord, 0, BitVec.ofNat 3 aop, 0⟩
def sw (var d a b c x : Nat) : SysW :=
  ⟨false, BitVec.ofNat 4 var, 0, BitVec.ofNat 8 d, BitVec.ofNat 8 a, BitVec.ofNat 8 b, BitVec.ofNat 8 c, BitVec.ofNat 12 x⟩

/-- A word that meets the hypotheses of a result statement: well formed, its checks passed, and it completes. -/
def meets (s : State) (x : Instr × List Regs × List Regs) : Bool :=
  x.1.wf && (ready s 0#4 fun c => c.begin x.2.1 x.2.2 false).isSome && nexts x.1 s

/-! Witnesses: integer, predicate, float, conversion, lane and paired words. -/

/-- A row of such a test: the word with the sizes of its sources and its destination. -/
def row (i : AluW → Instr) (f : AluW) (srcs : List (BitVec 8 × Nat)) (n : Nat) : Instr × List Regs × List Regs :=
  (i f, srcs.map fun r => Regs.ofW r.1 r.2, [Regs.ofW f.d n])

def row1 (i : AluW → Instr) (f : AluW) : Instr × List Regs × List Regs := row i f [(f.a, 1)] 1
def row2 (i : AluW → Instr) (f : AluW) : Instr × List Regs × List Regs := row i f [(f.a, 1), (f.b, 1)] 1
def row3 (i : AluW → Instr) (f : AluW) : Instr × List Regs × List Regs := row i f [(f.a, 1), (f.b, 1), (f.c, 1)] 1

/-- Lanes 0 of vector registers 4 to 9 hold small integers, s2 and s3 too; p2 holds the lanes of slice 0. -/
def ints : State := gang 15 [(128, 7), (160, 100), (192, 3), (224, 9), (256, 2), (288, 5)] [(2, 4), (3, 0)] [(2, 0xF)]

theorem witness_IntegerArithmeticCompletes :
    ([row2 .iadd (aw 0 4 5 6 0), row2 .isub (aw 1 4 5 6 0), row2 .imul (aw 0 4 5 6 0), row2 .imulh (aw 0 4 5 6 0),
      row3 .imad (aw 0 4 5 6 7), row2 .imin (aw 4 4 5 6 0), row2 .imax (aw 6 4 5 6 0), row2 .iabsd (aw 0 4 5 6 0),
      row2 .idiv (aw 0 4 5 6 0), row2 .irem (aw 1 4 5 6 0), row .iadd (aw 2 4 6 8 0) [(6, 2), (8, 2)] 2,
      row1 .iadd (aw 8 4 5 0xFF 0xFF), row2 .and (aw 1 4 5 6 0), row2 .or (aw 1 4 5 6 0), row2 .xor (aw 1 4 5 6 0), row2 .andn (aw 1 4 5 6 0), 
      row1 .clz (aw 1 4 5 0 0), row1 .popc (aw 1 4 5 0 0), row1 .brev (aw 1 4 5 0 0)] : List _).all (meets ints) = true := by decide +kernel

theorem witness_BitwiseWordsComplete :
    ([row2 .shl (aw 1 4 5 6 0),
      row2 .shr (aw 1 4 5 6 0), row2 .sar (aw 0 4 5 6 0), row2 .rotl (aw 1 4 5 6 0), 
      row2 .bfe (aw 0 4 5 6 0), row3 .bfi (aw 1 4 5 6 7), row .lea (aw 0 4 6 9 0 7) [(6, 2), (9, 1)] 2,
      row1 .mov (aw 1 4 5 0 0), row .mov (aw 9 4 0 0x12 0x34) [] 1, row .movl (aw 9 4 0 0x12 0x34) [(4, 1)] 1,
      row .movh (aw 9 4 0 0x12 0x34) [(4, 1)] 1, row3 .prmt (aw 1 4 5 6 7), row3 .idot4 (aw 6 4 5 6 7), row2 .sel (aw 1 4 5 6 2)] :
      List _).all (meets ints) = true := by decide +kernel

theorem witness_PredicateWordsComplete :
    ([(.icmp (aw 0 3 5 6 0 5), [.one 5, .one 6], []), (.icmp (aw 0 0 5 6 0 0), [.one 5, .one 6], []), (.pset (aw 0 3 0xC2 0 0), [.one 0xC2], []),
      (.pset (aw 0 3 5 0 0), [.one 5], []), (.pand (aw 0 3 2 0 0), [], []), (.por (aw 0 3 2 1 0), [], []), (.pxor (aw 0 3 2 1 0), [], []),
      (.pnot (aw 0 3 2 0 0), [], []), (.pmov (aw 0 7 2 0 0), [], []), (.pget (aw 0 0xC6 2 0 0), [], [.one 0xC6]),
      row2 .iaddc (aw 1 4 5 6 2), (.iaddc (aw 1 0xC8 0xC2 0xC3 2), [.one 0xC2, .one 0xC3], [.one 0xC8])] : List _).all (meets ints) = true :=
  by decide +kernel

/-- Lanes 0 of vector registers 5, 6 and 7 hold 1.5, 2.0 and 1.0. -/
def floats : State := gang 1 [(160, 0x3FC00000), (192, 0x40000000), (224, 0x3F800000)] [] []

/-- FPCTL as the statements about float words ask for it. -/
def quietNow (s : State) : Bool := (ready s 0#4 .ok).any fun c => c.W.fpctl.extractLsb' 4 5 == 0#5

theorem witness_FloatWordsComplete :
    (quietNow floats && ([row2 .fadd (aw 0 4 5 6 0), row2 .fsub (aw 0 4 5 6 0), row2 .fmul (aw 0 4 5 6 0), row3 .fma (aw 0 4 5 6 7),
      row2 .fmin (aw 0 4 5 6 0), row2 .fmax (aw 0 4 5 6 0), row1 .frcp (aw 0 4 5 0 0), row1 .fsqrt (aw 0 4 5 0 0), row1 .frsq (aw 0 4 6 0 0),
      row1 .fexp2 (aw 0 4 7 0 0), row1 .flog2 (aw 0 4 6 0 0), row1 .fsinpi (aw 0 4 7 0 0), row1 .fcospi (aw 0 4 7 0 0),
      row2 .fdiv (aw 0 4 5 6 0), row1 .ffloor (aw 0 4 5 0 0), row1 .fceil (aw 0 4 5 0 0), row1 .ftrunc (aw 0 4 5 0 0),
      row1 .frint (aw 0 4 5 0 0), row1 .ffrac (aw 0 4 5 0 0), row2 .fldexp (aw 0 4 5 8 0), row1 .fclass (aw 0 4 5 0 0),
      row3 .fdot2 (aw 1 4 5 6 7), row3 .fdot4 (aw 3 4 5 6 7), row2 .hadd2 (aw 1 4 5 6 0), row2 .hmul2 (aw 2 4 5 6 0),
      row3 .hfma2 (aw 1 4 5 6 7), row3 .fmed3 (aw 0 4 5 6 7), (.fcmp (aw 0 3 5 6 0 1), [.one 5, .one 6], [])] : List _).all (meets floats)) = true :=
  by decide +kernel

/-- Its slice 0 alone, the exceptions Invalid to Inexact enabled; 5 holds 1.5, 6 the largest number, 8 zero, 9 a signalling NaN. -/
def trapping : State :=
  { modWave (gang 1 [(160, 0x3FC00000), (192, 0x7F7FFFFF), (288, 0x7F800001)] [] []) 8 0 fun W => { W with fpctl := 0x1F0#64, whandler := 0x201#64 }
    with cur := .wave 8 0 1#8 }

/-- The first enabled exception a word raised, as the trap names it. -/
def causeAfter (i : Instr) (s : State) : Option Nat := (waveOf (exec i s)).map fun W => W.cause.toNat

theorem witness_EnabledFloatExceptionTraps :
    ([row2 .fadd (aw 0 4 5 9 0), row2 .fmul (aw 0 4 6 6 0), row3 .fma (aw 0 4 9 5 5), row2 .fdiv (aw 0 4 5 8 0)] : List _).all
      (fun x => x.1.wf && (ready trapping 0#4 fun c => c.begin x.2.1 x.2.2 false).isSome) = true ∧
    [causeAfter (.fadd (aw 0 4 5 9 0)) trapping, causeAfter (.fmul (aw 0 4 6 6 0)) trapping, causeAfter (.fma (aw 0 4 9 5 5)) trapping,
      causeAfter (.fdiv (aw 0 4 5 8 0)) trapping] = [some 0x20, some 0x22, some 0x20, some 0x21] := by decide +kernel

theorem witness_ConversionWordsComplete :
    (quietNow floats && ([row .cvt (aw 3 4 5 5 0xF8) [(5, 1), (0xF8, 1)] 1, row .cvt (aw 1 4 5 0 0) [(5, 1)] 1, row .cvt (aw 10 4 5 0 0) [(5, 1)] 2,
      row3 .cvtq (aw 0 4 5 6 7), row3 .cvtdq (aw 1 4 5 6 7), row3 .pack (aw 3 4 5 6 7), row2 .pack (aw 1 4 5 6 7),
      row3 .unpk (aw 5 4 5 6 0xF8), row2 .unpk (aw 1 4 5 6 0), row1 .unpk (aw 9 4 5 0 1)] : List _).all (meets floats)) = true := by
  decide +kernel

theorem witness_LaneWordsComplete :
    (quietNow ints && ([row .rfl (aw 0 0xC6 5 0 0) [(5, 1)] 1, row .rdlane (aw 0 0xC6 5 0xC2 0) [(5, 1), (0xC2, 1)] 1,
      row .rdlane (aw 8 0xC6 5 0 31) [(5, 1)] 1, row .wrlane (aw 0 4 0xC2 0xC3 0) [(0xC2, 1), (0xC3, 1)] 1, row .wrlane (aw 8 4 0xC2 0 31) [(0xC2, 1)] 1,
      row3 .shfl (aw 3 4 5 6 7), row1 .shfl (aw 8 4 5 0 31), (.vote (aw 0 3 2 0 0), [], []), (.vote (aw 2 3 2 0 0), [], []),
      row .vote (aw 3 0xC6 2 0 0) [] 1, row .vote (aw 5 0xC6 2 0 0) [] 1, row1 .matchl (aw 0 4 5 0 0), row1 .matchl (aw 2 4 5 0 0),
      row1 .redux (aw 1 0xC6 5 0 0 0), row1 .redux (aw 4 0xC6 5 0 0 0), row1 .scan (aw 0 4 5 0 0 0), row1 .scan (aw 9 4 5 0 0 0)] :
      List _).all (meets ints)) = true := by decide +kernel

theorem witness_PairedWordCompletes :
    let f : PairW := ⟨false, ⟨3, 0, 1, 4, 0⟩, ⟨3, 2, 3, 6, 0⟩⟩
    (quietNow floats && (Instr.pairedWord f).wf && !badPair f.h0 f.h1 && nexts (.pairedWord f) floats &&
      (ready floats 0#4 fun c => c.begin ((halfSrcs f.h0 ++ halfSrcs f.h1).map Regs.one) [Regs.one f.h0.d, Regs.one f.h1.d] false).isSome) = true := by
  decide +kernel

/-- The gang as it issues a word. -/
def gangOf (s : State) : WCtx := (ready s 0#4 .ok).getD ⟨s, 8, 0, placeTeam, Wave.fresh 8 0, 0xFF, 0, []⟩

/-- Each clause at a boundary: the last register of the allocation and the one past it, an odd pair, a vector source on the uniform
datapath, a register to come, a marked register, none of these. -/
theorem witness_OperandChecks :
    let c := gangOf ints
    let busy : WCtx := { c with W := { c.W with busy := [(4, .copy 1)] } }
    let bad : WCtx := { c with W := { c.W with vpoison := [128] } }
    let named (l : List Regs) : Bool := l.all (Regs.srcOk c.T.nregs)
    (named [.one 0xBF] && named [.one 0xF7] && !named [Regs.ofW 0xF7 2] && !named [.one 0xFF] && !named [Regs.ofW 5 2] && !(uniformSrc 4) && busy.W.busyAny [Regs.one 4] &&
      ((c.poisonLanes (.one 4)) == 0#32) && (bad.poisonLanes (.one 4) == 1#32)) = true ∧
    ((c.begin [.one 0xFF] [] false).toOption.isNone && (c.begin [.one 4] [.one 0xC0] true).toOption.isNone &&
      (busy.begin [.one 4] [] false).toOption.isNone && (bad.begin [.one 4] [] false).toOption.isNone &&
      (c.begin [.one 4] [.one 4] false).toOption.isSome) = true := by decide +kernel

/-- With no lane active, words that act once for their gang. -/
theorem witness_OperandChecks_idle :
    ([(.halloc (sw 0 0xD0 0xC4 0 0 0), [.one 0xC4], [.pair 0xD0]), (.cpy (sw 0 0xD0 0xC4 0xC6 0xC8 0), [.pair 0xC4, .one 0xC6, .one 0xC8], [.pair 0xD0]),
      (.ceqry (sw 0 0xD0 0xC4 0 0 0), [.one 0xC4], [.pair 0xD0]), (.mxloop (sw 0 0xC8 0xC9 0xCE 0xD0 0), [.one 0xC8, .one 0xC9, .pair 0xCE, .quad 0xD0], []),
      (.rtbox (sw 0 0 32 20 0 0), [.block 32 8 8, .pair 20], [.block 0 9 4]), (.rsvld (sw 0 24 5 0xC8 0 0), [.one 5, .quad 0xC8], [.block 24 8 8])] :
      List (Instr × List Regs × List Regs)).all (fun x => x.1.wf && nexts x.1 (gang 0 [] [] []) &&
        (ready (gang 0 [] [] []) 0#4 fun c => c.open x.2.1 x.2.2 false).any fun c => c.lanes == 0 && 0 < c.T.naccs) = true := by decide +kernel

/-- A wave with a message from another: lanes 0 and 5 carry 11 and 22. -/
def mailed : WCtx :=
  let c := gangOf ints
  { c with W := { c.W with mbox := [⟨[11, 0, 0, 0, 0, 22], 0x21#32, 0, 0, 1, 8, 0⟩] } }

theorem witness_ReceiveTakesOldestMessage :
    (!mailed.T.repro && mailed.pops.isEmpty && (gangOf ints).W.mbox.isEmpty) = true ∧
    ((mailed.open [Regs.one 0xFE#8] [] false).toOption.map fun d => (d.W.mbox.length, d.reg 0xFE#8 0, d.reg 0xFE#8 1, d.reg 0xFE#8 5)) =
      some (0, 11, 0, 22) ∧
    ((gangOf ints).open [Regs.one 0xFE#8] [] false).toOption.isNone = true := by decide +kernel

/-- A context whose k4 and k6 hold 7 and 3. -/
def kints : State := ctx [(4, 7), (6, 3)]

theorem witness_OtherProfilesComplete :
    (([.iadd, .isub, .imul, .imin, .imax, .idiv] : List (AluW → Instr)).all fun i => (i (aw 0 9 4 6 0)).wf && nexts (i (aw 0 9 4 6 0)) kints) = true ∧
    (([.and, .or, .xor, .shl, .shr] : List (AluW → Instr)).all fun i => (i (aw 1 9 4 6 0)).wf && nexts (i (aw 1 9 4 6 0)) kints) = true ∧
    ((Instr.sar (aw 0 9 4 6 0)).wf && nexts (.sar (aw 0 9 4 6 0)) kints && (Instr.sel (aw 1 9 4 6 5)).wf && nexts (.sel (aw 1 9 4 6 5)) kints &&
      (Instr.icmp (aw 0 9 4 6 0 5)).wf && nexts (.icmp (aw 0 9 4 6 0 5)) kints && aluStreamOk (aw 0 9 4 6 0) false &&
      (readyCtx kints fun c => do c.open [4, 6, 5] [9]; c.checkPoison [4, 6, 5]).isSome) = true ∧
    ((Instr.iadd (aw 0 4 5 6 0)).wf && nexts (.iadd (aw 0 4 5 6 0)) lane && nexts (.fadd (aw 0 4 5 6 0)) lane &&
      (readyLane lane fun e => do Eval.open [.one 5, .one 6] [.one 4] false; e.checkPoison [.one 5, .one 6]).any fun x =>
        x.2.fpctl.extractLsb' 4 5 == 0#5) = true := by decide +kernel

/-! Witnesses: control, endings, traps, CSR access, system words. -/

def branch (g : BitVec 4) (off : Nat) (rdist : Nat) : BraW := ⟨true, g, BitVec.ofNat 24 off, BitVec.ofNat 8 rdist, 0⟩

/-- Every lane of vector pair 4 and the uniform pair at 4 hold the address 0x40, s6 holds 2. -/
def targets : State := gang 15 ((List.range 32).map fun l => (128 + l, 0x40)) [(4, 0x40), (6, 2)] [(2, 0x5)]

/-- The gang after a word's sources are opened and checked for poison. -/
def opens (s : State) (srcs dsts : List Regs) (uni : Bool) : Option WCtx := ready s 0#4 (opened srcs dsts uni)

theorem witness_ControlWordsComplete :
    ((Instr.nop ⟨false, 0⟩).wf && nexts (.nop ⟨false, 0⟩) targets && (Instr.yield ⟨true, 0⟩).wf && nexts (.yield ⟨true, 0⟩) targets &&
      (ready targets 0#4 .ok).isSome) = true ∧
    -- guard p2 takes lanes 0 and 2 of slice 0 alone: slice 0 parts, the others fall through; the target may be the RPC
    ([branch 0 3 0, branch 2 3 4, branch 2 4 4].all fun f => (Instr.bra f).wf && (ready targets f.g .ok).any (fun c =>
      (List.range 8).all fun i => (c.W.slice i).stack.length < 8) && nexts (.bra f) targets) = true ∧
    (let f : BrxW := ⟨true, 0, 4, 0, 0⟩;
      (Instr.brx f).wf && nexts (.brx f) targets &&
        (opens targets [.pair 4] [] false).any fun c => (List.range 32).all fun l => c.reg64 4 l % 8 == 0) = true ∧
    (let f : CallW := ⟨true, 0, 0xC8, 5, 0⟩
      let l : CallW := ⟨true, 0, 0xC6, 0xFFFFFE, 0⟩
      let x : CallxW := ⟨true, 0, 0xC8, 0xC4⟩
      let r : CallxW := ⟨true, 0, 0, 0xC4⟩;
      (Instr.call f).wf && nexts (.call f) targets && (Instr.callx x).wf && nexts (.callx x) targets && (Instr.ret r).wf &&
        nexts (.ret r) targets && (Instr.loop l).wf && nexts (.loop l) targets &&
        (ready targets 0#4 fun c => c.open [.pair 0xC4, .one 0xC6] [.pair 0xC8, .one 0xC6] true).any fun c => c.reg64 0xC4 0 % 8 == 0) = true := by
  decide +kernel

/-- R174's cases: no RPC, another PC, the first path to arrive, the second, an empty stack. -/
theorem witness_DivergenceAndReconvergence :
    let e (d r : BitVec 53) : Deferral := ⟨0x5, d, r⟩
    reconvergeStack 8 0xA [e 4 0] = (8, 0xA, [e 4 0], false) ∧ reconvergeStack 8 0xA [e 4 9] = (8, 0xA, [e 4 9], false) ∧
      reconvergeStack 8 0xA [e 4 8] = (4, 0x5, [⟨0xA, 8, 8⟩], true) ∧ reconvergeStack 8 0xA [e 8 8] = (8, 0xF, [], true) ∧
      reconvergeStack 8 0xA [] = (8, 0xA, [], false) := by decide

/-- A wave in a handler whose saved PC is word 8, and one outside. -/
def inHandler : State := modWave targets 8 0 fun W => { W with whandler := 0x201#64, intrap := true, trapGang := 0xFF#8, wepc := 0x40#64 }
def handled : State := modWave targets 8 0 fun W => { W with whandler := 0x201#64 }

theorem witness_EndingWordsComplete :
    ((Instr.regang ⟨true, 0⟩).wf && nexts (.regang ⟨true, 0⟩) targets && (Instr.exit ⟨true, 0⟩).wf && nexts (.exit ⟨true, 0⟩) targets &&
      (Instr.trap ⟨true, 0, 7⟩).wf && nexts (.trap ⟨true, 0, 7⟩) handled && (Instr.bkpt ⟨false, 0, 7⟩).wf && nexts (.bkpt ⟨false, 0, 7⟩) handled &&
      (Instr.ill 0).wf && nexts (.ill 0) handled && (ready targets 0#4 .ok).isSome && (ready handled 0#4 .ok).isSome) = true ∧
    ((Instr.eret ⟨true, 0⟩).wf && nexts (.eret ⟨true, 0⟩) inHandler &&
      (ready inHandler 0#4 .ok).any fun c => c.W.intrap && c.W.wpark == 0) = true := by decide +kernel

theorem witness_TrapEntersHandlerOrKills :
    ((team? handled 8).bind (·.waves[0]?)).any (fun W => W.whandler.getLsbD 0 && !W.intrap) = true ∧
    ((team? targets 8).any (fun T => T.waves.any (fun W => !W.whandler.getLsbD 0) && T.st != .ended &&
      (smGet? targets.launches T.launch).any fun L => !L.ended && !L.killed)) = true ∧
    (team? (takeTrapAt targets 8 0 0xFF 0x30 0 0 false) 8).map (fun T => (T.st, T.killed)) = some (.ended, true) := by decide +kernel

/-- A result of one, two and four registers in the last registers a code reaches. -/
theorem witness_ResultFrame :
    ((Regs.ofW 0xBF 1).dstOk 192 && (Regs.ofW 0xBE 2).dstOk 192 && (Regs.ofW 0xBC 4).dstOk 192 && (Regs.ofW 0xF7 1).dstOk 192 &&
      (Regs.ofW 0xF8 1).dstOk 192 && (Regs.ofW 0xFE 1).dstOk 192) = true ∧
    ((gangOf ints).lanes ≠ 0 ∧ (gangOf (modWave ints 8 0 fun W => { W with slices := W.slices.map fun x => { x with lmask := 0 } })).lanes = 0) := by
  decide +kernel

def csrWord (var d a num : Nat) : CsrW := ⟨false, BitVec.ofNat 4 var, 0, BitVec.ofNat 8 d, BitVec.ofNat 8 a, BitVec.ofNat 12 num⟩

/-- The checks of CSRW, CSRS and CSRC, as the statement names them. -/
def csrReady (s : State) (f : CsrW) : Bool :=
  (ready s f.g fun c => do
    let d ← c.open [Regs.ofW f.a (csrRegs f.var.toNat)] [] false
    d.checkPoison [Regs.ofW f.a (csrRegs f.var.toNat)]
    .ok d).any fun c => (waveCsr c f.bnd f.num.toNat).isSome

theorem witness_CsrWordsComplete :
    ((Instr.csrr (csrWord 1 0xC8 0 0x20)).wf && nexts (.csrr (csrWord 1 0xC8 0 0x20)) targets &&
      (ready targets 0#4 fun c => c.open [] [.ofW 0xC8 2] false).any fun c => (waveCsr c false 0x20).isSome) = true ∧
    ([(.csrw (csrWord 1 0 0xC4 4)), (.csrs (csrWord 1 0 0xC4 4)), (.csrc (csrWord 1 0 0xC4 4)), (.csrw (csrWord 0 0 0xC6 0x20)),
      (.mbtgt (sw 0 0 0xF8 0 0 0))] : List Instr).all (fun i => i.wf && nexts i targets) = true ∧
    (csrReady targets (csrWord 1 0 0xC4 4) && csrReady targets (csrWord 0 0 0xC6 0x20)) = true ∧
    (([(.csrr (csrWord 0 0xC8 0 0x800)), (.csrw (csrWord 0 0 0xC4 0xFFF)), (.csrs (csrWord 0 0 0xC4 0x800)), (.csrc (csrWord 0 0 0xC4 0x800))] :
      List Instr).map (fun i => (i.wf, causeAfter i handled)) = List.replicate 4 (true, some 0x03)) ∧
    (gangOf targets).W.mbdest.toNat = 0 ∧ mbDestOk (gangOf targets).s (gangOf targets).T 0 = true := by decide +kernel

def uniOne (s : State) (r : Regs) : Bool := (opens s [r] [] true).isSome

/-- A team with an arena of one page at address 0, block 0 taken. -/
def withArena : State :=
  modTeam (modLaunch targets 1 fun L => { L with heap := some 0, exts := [(0, 8192, 0, 3)], arena := 8192 }) 8 fun T => { T with arena := [(0, 2)] }

theorem witness_SystemWordsComplete :
    ([(.cinv (mw 0 0 0xC4 0xF8 0 0 0 0)), (.cinvAll (mw 1 0 0 0 0 0 0 0)), (.cwb (mw 0 0 0xC4 0xF8 0 0 0 0)), (.pref (mw 0 0 0xC4 0xF8 0 0 0 0)),
      (.extq (sw 0 0xC8 0xC4 0 0 0)), (.setprio (sw 8 0 0 0 1 0)), (.setprio (sw 0 0 0xC6 0 0 0)), (.halloc (sw 0 0xC8 0xC6 0 0 0)),
      (.hfree (sw 0 0 0xCA 0 0 0))] : List Instr).all (fun i => i.wf && nexts i withArena) = true ∧
    (uniOne withArena (.one 0xC6) && uniOne withArena (.pair 0xCA) && (opens withArena [Regs.pair 0xC4, Regs.one 0xF8] [] false).isSome) = true ∧
    (team? withArena 8).any (fun T => !T.repro && arenaOf withArena T == some (0, 8192) && arenaFind T.arena 1 32 == some 2 &&
      arenaFind T.arena 31 32 == none && arenaOf targets T == none && (T.arena.find? fun x => 0 + 256 * x.1 == 0) == some (0, 2)) = true := by
  decide +kernel

theorem witness_ServiceCall :
    let f : ImmW := ⟨true, 0, 5⟩
    ((Instr.svc f).wf && (ready targets 0#4 .ok).isSome && nexts (.svc f) targets &&
      !(gangOf targets).W.busyAny [Regs.block 0xC0#8 8 1] && (gangOf targets).poisonLanes (Regs.block 0xC0#8 8 1) == 0 &&
      (smGet? targets.parts 0).any fun P => P.secure == (gangOf targets).T.secure) = true ∧
    causeAfter (.svc f) (modPart handled 0 fun P => { P with secure := true }) = some 0x0A := by decide +kernel

/-! Witnesses: memory, scratchpad, barriers, timelines, copies, contexts, streams, records, mailboxes. -/

/-- s4 holds the address 0x1000 as a pair, s6 an offset, s8 and s9 a length and a count; every region of the scratchpad is present and the
agenda's choice is 1. -/
def memory (m : BitVec 4) : State :=
  let s := gang m ((List.range 32).map fun l => (256 + l, 3)) [(4, 0x1000), (6, 0x40), (8, 64), (10, 1), (12, 0x30000000)] [(1, 0xF)]
  { modTeam s 8 fun T => { T with regSt := T.regSt.map fun _ => .present, tileSt := T.tileSt.map fun _ => .present } with choice := 1 }

/-- Whether the lanes of a memory word of the gang translate without parking. -/
def planned (s : State) (f : MemW) (a : Acc) (uni : Bool) (size : Nat) : Bool :=
  (opens s [Regs.pair f.a, Regs.one f.b] [] false).any fun c =>
    match planLanes c.s c.T a size (c.addrs uni (c.gAddr f size)) with
    | .ok p => p.parked.isEmpty && (p.ok.length != 0) && c.W.storeQ.isEmpty
    | .error _ => false

def ldWord : MemW := { mw 4 8 0xC4 0xF9 1 2 0 0 with xs := 2#2 }

theorem witness_LoadWordsComplete :
    ((Instr.ld ldWord).wf && planned (memory 15) ldWord .read false 4 && nexts (.ld ldWord) (memory 15) &&
      (Instr.ldu (mw 6 0xC8 0xC4 0xF8 0 0 0 0)).wf && planned (memory 15) (mw 6 0xC8 0xC4 0xF8 0 0 0 0) .read true 16 &&
      nexts (.ldu (mw 6 0xC8 0xC4 0xF8 0 0 0 0)) (memory 15)) = true ∧
    ((run (.ld ldWord) (memory 15)).reqs.map fun r => (r.lane, r.va, r.size)).take 2 = [(0, 0x1004, 4), (1, 0x1008, 4)] := by decide +kernel

theorem witness_StoreWordsComplete :
    ((Instr.st { ldWord with ord := 2#2 }).wf && planned (memory 15) ldWord .write false 4 && nexts (.st ldWord) (memory 15) &&
      (Instr.stu (mw 5 0xC8 0xC4 0xF8 0 0 2 0)).wf && nexts (.stu (mw 5 0xC8 0xC4 0xF8 0 0 2 0)) (memory 15) &&
      planned (memory 15) (mw 5 0xC8 0xC4 0xF8 0 0 0 0) .write true 8 &&
      (Instr.atom { ldWord with var := 1#4, ord := 2#2, aop := 7#3 }).wf && nexts (.atom { ldWord with var := 1#4, ord := 2#2, aop := 7#3 }) (memory 1) &&
      planned (memory 1) { ldWord with var := 1#4 } .atomic false 4 && (Instr.red { ldWord with var := 0#4 }).wf &&
      nexts (.red { ldWord with var := 0#4 }) (memory 15)) = true ∧
    (((wave? (run (.st ldWord) (memory 15)) 8 0).map fun W => W.storeQ.length) = some 32) := by decide +kernel

/-- One lane for each clause, at the edges of the one page of the team: the last word, a misaligned one, the first past the page, a write
where only reads are allowed. -/
theorem witness_AddressTrapsInOrder :
    let s := memory 15
    let T := (gangOf s).T
    let ro : Team := { T with ext := [{ placeExtent with w := false }] }
    teamTr s T .read 0x1FFC = .ok 0x1FFC 0 false 0 ∧ 0x1FFE % 4 ≠ 0 ∧ teamTr s T .read 0x2000 = .miss ∧ teamTr s ro .write 0x1FFC = .perm ∧
    effAddr 64 0x1000 0xFFFFFFFF 2 0xFF 4 = 0xFF8 := by decide +kernel

/-- Whether a scratchpad word's operands open and its regions are there. -/
def offsets (s : State) (f : MemW) (size : Nat) (peers : Bool) : Bool :=
  (opens s [Regs.one f.a, Regs.one f.b] [] false).any fun c =>
    let ls := (lanesOf c.lanes).map fun l => (l, c.sAddr f size l);
    (if peers then (checkPeers c.s c.T size ls).toOption.isSome else (checkOffs c.T size ls).toOption.isSome) &&
      (ls.all fun p => (regionsOf (p.2 % 2 ^ 19) size).all fun i => c.T.unitSt false i == .present) && c.W.storeQ.isEmpty && c.W.owc == 0 &&
      !readsPending s (.wave c.t c.w) && !c.T.repro

def ldsWord : MemW := { mw 4 8 0xC6 0xF9 1 0 0 0 with xs := 2#2 }

theorem witness_ScratchWordsComplete :
    (offsets (memory 15) ldsWord 4 false && offsets (memory 1) { ldsWord with scope := 2#3 } 4 true &&
      (Instr.lds ldsWord).wf && nexts (.lds ldsWord) (memory 15) && (Instr.sts ldsWord).wf && nexts (.sts ldsWord) (memory 15) &&
      (Instr.ldp { ldsWord with scope := 2#3 }).wf && nexts (.ldp { ldsWord with scope := 2#3 }) (memory 1) &&
      (Instr.stp { ldsWord with scope := 2#3 }).wf && nexts (.stp { ldsWord with scope := 2#3 }) (memory 1) &&
      (Instr.atoms { ldsWord with var := 1#4 }).wf && nexts (.atoms { ldsWord with var := 1#4 }) (memory 15)) = true := by decide +kernel

theorem witness_OrderedAppend :
    let f : SysW := sw 0 9 0xCA 8 0 0;
    ((Instr.append f).wf && nexts (.append f) (memory 15) && (opens (memory 15) [.one f.a, .one f.b] [.one f.d] false).any fun c =>
      c.reg f.a (lowLane c.lanes) ≤ 15 && !nsHas c.T.closed 1 && lowerClosed c.s c.T 1 && !c.T.repro && c.lanes != 0) = true ∧
    ((Instr.decline (sw 0 0 0xCA 0 0 0)).wf && nexts (.decline (sw 0 0 0xCA 0 0 0)) (memory 15) && uniOne (memory 15) (.one 0xCA)) = true := by
  decide +kernel

/-- A wave with a store queued, and one with a read in flight. -/
def storing : State := run (.st ldWord) (memory 1)
def reading : State := run (.ld ldWord) (memory 1)

theorem witness_FenceWaitsForAccesses :
    let f : MemW := mw 0 0 0 0 0 2 0 0
    let at_ (s : State) : State := { s with cur := .wave 8 0 0xFF#8 };
    ((Instr.fence f).wf && (ready (memory 15) 0#4 .ok).isSome && (gangOf (memory 15)).lanes != 0 && nexts (.fence f) (memory 15) &&
      !readsOpen (memory 15) (.wave 8 0)) = true ∧
    (!(gangOf (at_ storing)).W.storeQ.isEmpty && nexts (.fence f) (at_ storing) && (ready (at_ storing) 0#4 .ok).isSome) = true ∧
    (readsOpen (at_ reading) (.wave 8 0) && nexts (.fence f) (at_ reading) && (ready (at_ reading) 0#4 .ok).isSome) = true := by decide +kernel

theorem witness_Barrier :
    let s := memory 15
    let c := gangOf s;
    ((Instr.bar (sw 0 0 0 0 0 0)).wf && nexts (.bar (sw 0 0 0 0 0 0)) s && c.W.gangIds == [0] && c.W.gangOf 0 == 0xFF#8 && c.W.live == 0xFF#8 &&
      c.W.slices.length == 8 && c.W.storeQ.isEmpty && c.W.owc == 0 && decide (c.T.waves = [c.W])) = true ∧
    -- a gang of slice 0 alone leaves the other slices live
    (let t := { s with cur := .wave 8 0 1#8 };
      nexts (.bar (sw 0 0 0 0 0 0)) t && (c.W.slice 1).live && (ready t 0#4 .ok).isSome) = true := by decide +kernel

/-- A barrier object at offset 0x40 with COUNT 2, EXPECT 3, PHASE 5. -/
def barriers : State :=
  modTeam (memory 15) 8 fun T => scratchSet (scratchSet (scratchSet T 0x40 (toBytes 4 2)) 0x44 (toBytes 4 3)) 0x48 (toBytes 4 5)

theorem witness_CountedBarrierWordsComplete :
    let f (d b : Nat) : SysW := sw 8 d 0xC6 0 b 0
    let s := run (.cbarv (f 0xC8 1)) barriers;
    ((Instr.cbinit (f 0 1)).wf && nexts (.cbinit (f 0 1)) barriers && (Instr.cbarv (f 0xC8 1)).wf && nexts (.cbarv (f 0xC8 1)) barriers &&
      (Instr.cbwait (f 0 4)).wf && nexts (.cbwait (f 0 4)) barriers && nexts (.cbwait (f 0 5)) barriers) = true ∧
    ((opens barriers [.one 0xC6] [] true).any fun c => (checkOffs c.T 16 [(0, c.reg 0xC6 0)]).toOption.isSome &&
      ((regionsOf (c.reg 0xC6 0) 16).all fun i => c.T.unitSt false i == .present) && !readsPending barriers (.wave 8 0) &&
      (Regs.one 0xC8).dstOk c.T.nregs && !c.W.busyAny [.one 0xC8]) = true ∧
    -- the third arrival of three: COUNT 0, PHASE 6, the answer is the PHASE before
    ((team? s 8).map fun T => (ofBytes (scratchGet T 0x40 4), ofBytes (scratchGet T 0x48 4))) = some (0, 6) ∧
    ((wave? s 8 0).map fun W => (smGetD W.s 8 0).toNat) = some 5 := by decide +kernel

/-- Handles at their edges: the team's matrix timeline 0, its copies 4, a context's, one reserved. -/
theorem witness_TimelineWordsComplete :
    let c := gangOf (memory 15);
    (timeline? c.s c.t c.T 0 0, timeline? c.s c.t c.T 0 0x40000000, timeline? c.s c.t c.T 0 0x50000000, timeline? c.s c.t c.T 0 1) =
      (some 0, some 0, none, none) ∧
    ([(.tlwait (sw 0 0 0xF8 0xF8 0 0)), (.tlwait (sw 0 0 0xF8 0xC4 0 0)), (.tlwait (sw 0 0 0xC6 0xC4 0 0)), (.tlread (sw 0 0xD0 0xF8 0 0 0)),
      (.tlread (sw 0 0xD0 0xC6 0 0 0))] : List Instr).all (fun i => i.wf && nexts i (memory 15)) = true ∧
    ((opens (memory 15) [.one 0xF8, .pair 0xC4] [] true).isSome && (opens (memory 15) [.one 0xC6] [.pair 0xD0] true).isSome) = true := by
  decide +kernel

theorem witness_CopyWordsComplete :
    let f (v a : Nat) (x : Nat) : SysW := sw v 0xD0 a 0xC6 0xC8 x;
    ([(.cpy (f 0 0xC4 0)), (.cpy (f 1 0xC4 0)), (.cpy (f 2 0xC6 0)), (.mcast (f 0 0xC4 0x010))] : List Instr).all
      (fun i => i.wf && nexts i (memory 15)) = true ∧
    ((opens (memory 15) [.pair 0xC4, .one 0xC6, .one 0xC8] [.pair 0xD0] true).any fun c =>
      c.reg64 0xC4 0 % 16 == 0 && c.reg 0xC6 0 % 16 == 0 && c.reg 0xC8 0 % 16 == 0 && c.reg 0xC6 0 + c.reg 0xC8 0 ≤ c.T.scratchSize &&
      c.reg 0xC8 0 ≤ 524288 && (rangeTrap c.s c.T .read 0x1000 64).toOption.isSome && (rangeTrap c.s c.T .write 0x1000 64).toOption.isSome &&
      c.W.storeQ.isEmpty && c.W.owc == 0 && !readsPending c.s (.wave 8 0)) = true := by decide +kernel

/-- Context 1 is stopped, context 0 runs. -/
def starting : State := { memory 15 with ctxs := [(0, { Ctx.blank with st := .running, team := 1, launch := 1, ktag := 1 }), (1, Ctx.blank)] }

theorem witness_ContextWordsComplete :
    let f : SysW := sw 0 0xD0 0xC4 0xCA 0xC8 0;
    ((Instr.cexec f).wf && nexts (.cexec f) starting && (Instr.ceqry (sw 0 0xD0 0xD2 0 0 0)).wf && (Instr.ceqryArg (sw 1 0xD0 0xD2 0 0 0)).wf) = true ∧
    ((opens starting [.pair 0xC4, .one 0xCA, .block 0xC8 8 1] [.one 0xD0] true).any fun c =>
      cexecPick c.s 0 (c.reg 0xCA 0) == some 1 && c.reg64 0xC4 0 % 8 == 0 && contrailSecure c.s 0 0 == c.T.secure && !readsPending c.s (.wave 8 0)) = true ∧
    (let s := modWave starting 8 0 fun W => { W with s := words [(18, 0x10000000)] };
      nexts (.ceqry (sw 0 0xD0 0xD2 0 0 0)) s && nexts (.ceqryArg (sw 1 0xD0 0xD2 0 0 0)) s &&
      (opens s [.one 0xD2] [.pair 0xD0] true).any fun c => bits (c.reg 0xD2 0) 31 28 == 1 && handleClean (c.reg 0xD2 0)) = true := by decide +kernel

/-- The octet of ISCFG in s8 to s15: base 0x1000, index 0x1100, four elements, stride 4; and the same with no element. -/
def streams (n : Nat) : State :=
  modWave (memory 15) 8 0 fun W => { W with s := words [(8, 0x1000), (10, 0x1100), (12, n), (13, 4)] }

theorem witness_StreamSetupWordsComplete :
    ((Instr.iscfg (sw 3 0 0xC8 0 0 0)).wf && nexts (.iscfg (sw 3 0 0xC8 0 0 0)) (streams 4) && nexts (.iscfg (sw 3 0 0xC8 0 0 0)) (streams 0) &&
      (Instr.qclose (sw 3 0 0 0 0 0)).wf && nexts (.qclose (sw 3 0 0 0 0 0)) (streams 4) &&
      (opens (streams 4) [.block 0xC8 8 1] [] true).any fun c => c.reg 0xCD 0 % 4 == 0 && c.reg 0xCE 0 % 4 == 0 && c.T.fifos.length == 4 &&
        c.T.fifos.all fun q => q.st == .idle) = true := by decide +kernel

/-- Node 0 fires the team's launch with one record, slot 2; its successor, node 1, has a queue of four slots at 0x1000, the first in use. -/
def emitting : State :=
  let n1 : Node := { nodeOf [] 0x8000 0 with on := true, qbase := 0x1000, qcap := 4, rsize := 2, root := false, used := [0], reserved := [3] }
  let n0 : Node := { nodeOf [] 0x7000 0 with on := true, qbase := 0x800, qcap := 4, rsize := 1, succ := [1] }
  let s := modPart (memory 1) 0 fun P => { P with nodes := [(0, n0), (1, n1)] }
  let s := modWave s 8 0 fun W => { W with slots := [1 * 2 ^ 32 + 3], s := words [(4, 0x10C0)] }
  modLaunch s 1 fun L => { L with batch := [2], node := 0 }

theorem witness_RecordWordsComplete :
    ([(.emitr (sw 0 0xD0 0xF8 0 0 0)), (.emit (sw 0 0 0xC4 0 0 0)), (.recget (sw 0 0xD0 0xF8 0 0 0)), (.recget (sw 0 4 8 0 0 0)),
      (.recgetCount (sw 1 0xD0 0 0 0 0)), (.recgetCount (sw 1 4 0 0 0 0))] : List Instr).all (fun i => i.wf && nexts i emitting) = true ∧
    ((opens emitting [.one 0xF8] [.pair 0xD0] true).any fun c => !c.T.repro && c.W.slots.length < 8 && c.lanes != 0 &&
      (node? c.s 0 1).any fun N => mayEmit c.T 0 N && ((List.range N.qcap).find? fun k => !nsHas N.used k && !nsHas N.reserved k) == some 1) = true ∧
    ((opens emitting [.pair 0xC4] [] true).any fun c => (c.W.slots.find? fun x => (node? c.s 0 (x / 2 ^ 32)).any fun N =>
      slotAddr N (x % 2 ^ 32) == c.reg64 0xC4 0) == some (1 * 2 ^ 32 + 3)) = true ∧
    -- the address of the free slot 1 of 64-byte records at 0x1000
    uOf (exec (.emitr (sw 0 0xD0 0xF8 0 0 0)) emitting) 16 = some (0x1040, 8) := by decide +kernel

/-- A message for wave 0 of the placed team; `room` says whether its FIFO has any. -/
def flit (k : MailKind) : MailFlit := ⟨k, 0, 0, 0, 8, 0, 0, 0, 1, 0, ⟨[5], 1, 0, 0, 0, 8, 0⟩, false, false, 0⟩
def mailing (k : MailKind) (room : Bool) : State :=
  let s := modWave (memory 1) 8 0 fun W => { W with sending := some (flit .mail), resendAt := some 0, refused := k == .control, mbox := if room then [] else List.replicate 16 (flit .mail).msg }
  { s with mails := [flit k] }

/-- A sender refused and listed at core 0. -/
def refused : State := modCore (mailing .mail true) 0 fun C => { C with mbRefused := [flit .mail], mbdrop := 3 }

theorem witness_MailboxFlits :
    (nexts (.mail 0) (mailing .mail true) && nexts (.mail 0) (mailing .mail false) && nexts (.mailacc 0) (mailing .acc true) &&
      nexts (.mailref 0) (mailing .ref true) && nexts (.mailboxControlFlit 0) (mailing .control true) && nexts (.mailSlotGrant 8 0) refused &&
      nexts (.mbdropRead 0) refused && nexts (.mailResendTimeout 8 0) { mailing .mail true with now := 512 } &&
      !nexts (.mailResendTimeout 8 0) { mailing .mail true with now := 511 }) = true ∧
    ((mailTarget (mailing .mail true) (flit .mail)).any (fun p => p.1 == 8 && p.2.mboxRoom) &&
      (mailTarget (mailing .mail false) (flit .mail)).any (fun p => !p.2.mboxRoom) && (mailSender (mailing .acc true) (flit .acc)).isSome &&
      !coreStopped (mailing .acc true) 0) = true ∧
    (let s := modLaunch (modTeam (mailing .mail true) 8 fun T => { T with st := .ended }) 1 id;
      (mailTarget s (flit .mail)).isNone && nexts (.mail 0) s) = true := by decide +kernel

/-- A flit for module 3, and an answer to it, leave this module. -/
theorem witness_MailboxFlits_far :
    (let far : MailFlit := { flit .mail with toMod := 3 };
      (postMail (mailing .mail true) far).mails == (mailing .mail true).mails && (postMail (mailing .mail true) { far with kind := .acc }).mails.length == 2) =
      true := by decide +kernel

/-! Witnesses: matrix, jetstream, ray and reservoir words. -/

/-- The operand blocks of a matrix word (bf16 at offset 0x4000 and 0, one row line, one column, one group), with every mask one line. -/
def matrices : State :=
  let s := gang 15 []
    [(2, 0x4000), (8, 0), (9, 1 + 2 ^ 13), (11, 0), (12, 0x6000), (13, 0x7000), (14, 128), (15, 8192), (16, 2), (17, 0x100000),
    (20, 0), (21, 0x100000), (24, 0x32), (25, 0x3F000000), (26, 0x40800000), (27, 0x10001)] []
  modTeam s 8 fun T =>
    { T with regSt := T.regSt.map fun _ => .present, tileSt := List.replicate 4 .present, mp := List.replicate 4 1, np := List.replicate 8 1 }

/-- The same with a plane of x48 cells issued, and an empty shape. -/
def loaded : State :=
  let x : Operand := ⟨false, 0x4000, 0, 0, 256, 0, 0, 32, false, 0, false, 0, 0, 0⟩;
  modTeam (modWave matrices 8 0 fun W => { W with s := smSet W.s 9 0 }) 8 fun T => { T with issuedPlane := some ⟨x, 0, 0, none, false⟩ }

def isOk {α : Type} (x : Except Stop α) : Bool := x.toOption.isSome

/-- Whether a matrix word's sources open and its queue has room. -/
def queues (s : State) (srcs dsts : List Regs) (i : Instr) (more : WCtx → Bool) : Bool :=
  i.wf && nexts i s && (opens s srcs dsts false).any fun c =>
    c.T.mxq.length < 16 && c.W.storeQ.isEmpty && c.W.owc == 0 && !readsPending s (.wave 8 0) && 0 < c.T.naccs && more c

theorem witness_MatrixWordsComplete :
    (let f := sw 0 0 0 0 0 0;
      queues matrices [] [] (.mxzero f) fun c => isOk (checkMask f c) && isOk (checkPeersHere f c) && isOk (checkLent c 0) && isOk (checkTargets f c)) = true ∧
    (queues matrices [] [] (.mxcfg (sw 0 0 0xF8 0 0 0)) (fun _ => true) && queues matrices [.quad 0xC4] [] (.mxcfg (sw 2 0 0xC4 0 0 0))
      fun c => bits (c.reg 0xC4 0) 15 10 == 0 && bits (c.reg 0xC5 0) 15 10 == 0) = true ∧
    (queues matrices [.one 0xCB] [.pair 40] (.mxrd (sw 1 40 0xCB 0 0 0)) (fun _ => true) &&
      queues matrices [.one 0xCB] [.one 40] (.mxrd (sw 0 40 0xCB 0 0 0)) (fun _ => true) &&
      queues matrices [] [.one 0xDE] (.mxrdStat (sw 2 0xDE 0xF8 0 0 0)) (fun _ => true) &&
      queues matrices [.pair 40, .one 0xCB] [] (.mxwr (sw 1 0 40 0xCB 0 0)) fun c => isOk (checkLent c 0)) = true ∧
    ((opens matrices [.one 0xC2, .quad 0xD4, .one 0xF8] [] false).isSome && (Instr.mxldw (sw 0 0 0xC2 0xD4 0xF8 0)).wf) = true ∧
    (queues loaded [.one 0xC8, .one 0xC9, .pair 0xCE, .quad 0xD0] [] (.mxloop (sw 0 0xC8 0xC9 0xCE 0xD0 0))
      fun c => isOk (loopPlan (sw 0 0xC8 0xC9 0xCE 0xD0 0) false c)) = true ∧
    (queues matrices [.one 0xCC, .quad 0xD8, .one 0xCD] [] (.mxdrain (sw 0 0xCC 0xD8 0xCD 0 0))
      fun c => isOk (drainPlan (sw 0 0xCC 0xD8 0xCD 0 0) c)) = true ∧
    ([(.mxmask (sw 0 0 0xC9 0 0 0)), (.mxmask (sw 9 0 0 0 1 0)), (.mxmask (sw 2 0 0xC4 0 0 0)), (.mxfence (sw 0 0xDE 0 0 0 0))] : List Instr).all
      (fun i => i.wf && nexts i matrices) = true := by decide +kernel

/-- The word queues its operation, which it does where all its checks pass. -/
theorem witness_MatrixWordsComplete_plane :
    ((team? (run (.mxldw (sw 0 0 0xC2 0xD4 0xF8 0)) matrices) 8).map fun T => T.mxq.length) = some 1 := by decide +kernel

/-- The issued plane stores two codes in four. -/
def sparsely : State := modTeam loaded 8 fun T => { T with issuedPlane := T.issuedPlane.map fun p => { p with pat := 1 } }

theorem witness_MatrixWordsComplete_sparse :
    (queues sparsely [.one 0xC8, .one 0xC9, .quad 0xDC, .quad 0xD0] [] (.mxspl (sw 1 0xC8 0xC9 0xDC 0xD0 0))
      fun c => isOk (loopPlan (sw 1 0xC8 0xC9 0xDC 0xD0 0) true c)) = true := by decide +kernel

/-- Registers s42, s43 hold the octet of JCHAIN: rank 0 of three, identity 5, next member core 1; s46 a handle of chain 1. -/
def jets : State :=
  let s := modWave matrices 8 0 fun W => { W with s := words [(42, 0x300005), (43, 1), (44, 0x301FFF), (46, 0x30010000)] }
  let ch : Chain := ⟨1, false, 3, 0, false, 1, 0, .xf48, 0, .armed, 0, false, [], 4, 0, [], 0, 0, 0, [], none, [], 0⟩;
  modTeam s 8 fun T => { T with chains := [ch] }

theorem witness_JetstreamWordsComplete :
    let s := jets
    (queues s [.pair 0xEA] [.one 0xED] (.jchain (sw 0 0xED 0xEA 0 0 0)) (fun c =>
        let p0 := c.reg 0xEA 0
        let p1 := c.reg 0xEB 0;
        2 ≤ bits p0 27 20 && bits p0 19 12 < bits p0 27 20 && bits p0 31 28 == 0 && bit p1 31 == (bits p0 19 12 + 1 == bits p0 27 20) &&
          bits p1 30 9 == 0 && bits p1 8 0 < 400 && partOfCore c.s (bits p1 8 0) == some c.T.part) &&
      queues s [.one 0xEE] [.pair 0xD0] (.jsend (sw 0 0xD0 0xEE 0 0 0)) (fun _ => true) &&
      queues s [.one 0xEE] [.pair 0xD0] (.jrecv (sw 0 0xD0 0xEE 0 0 0)) (fun _ => true)) = true ∧
    ([(.jclose (sw 0 0 0xEE 0 0 0)), (.jabort (sw 0 0 0xEE 0 0 0)), (.jclose (sw 0 0 0xF8 0 0 0)), (.jabort (sw 0 0 0xF8 0 0 0))] : List Instr).all
      (fun i => i.wf && nexts i s) = true ∧
    ((opens s [.one 0xEE] [] false).any fun c => (handleChain c.T (c.reg 0xEE 0)).any fun ch => ch.isOpen && c.T.mxq.all fun o => !o.kind.onChain ch.id) =
      true ∧
    ((opens s [.one 0xF8] [] false).any fun c => (handleChain c.T (c.reg 0xF8 0)).isNone) = true := by decide +kernel

/-- A ray in v32 to v39, a BVH address in the pair at v20 and the pair at s6, the stack of RTRACE in v48 on. -/
def tracing (n : Nat) : State :=
  let r := [0x3E800000, 0x3E800000, 0xBF800000, 0, 0, 0x3F800000, 0, 0x7F800000]
  let s := gang 1 ((r.zipIdx.map fun p => (32 * (32 + p.2), p.1)) ++ (r.zipIdx.map fun p => (32 * (48 + p.2), p.1)) ++ [(640, n), (32 * 4, 0)]) [(6, n)] []
  { s with choice := 1 }

/-- The triangle (0,0,0), (1,0,0), (0,1,0) at 0x1000. -/
def withTriangle : State :=
  ([0, 0, 0, 0x3F800000, 0, 0, 0, 0x3F800000, 0].zipIdx.foldl (fun s p => physSet s (0x1000 + 4 * p.2) (toBytes 4 p.1)) (tracing 0x1000))

/-- Whether a ray word's checks pass with room in the queue. -/
def enters (s : State) (i : Instr) (srcs dsts : List Regs) (align : Nat) (addr : WCtx → Nat → Nat) (size : Nat) : Bool :=
  i.wf && nexts i s && (opens s srcs dsts false).any fun c =>
    c.lanes != 0 && ((lanesOf c.lanes).all fun l => addr c l % align == 0 && !recordIs c.s c.T .miss (addr c l, size) &&
      !recordIs c.s c.T .perm (addr c l, size)) && (core? c.s c.T.core).any fun C => C.rays.length < 16

theorem witness_RayWordsComplete_enter :
    (enters (tracing 0x1000) (.rtbox (sw 0 0 32 20 0 0)) [.block 32 8 8, .pair 20] [.block 0 9 4] 128 (fun c l => c.reg64 20 l) 128 &&
      enters (tracing 0x1010) (.rttri (sw 0 40 32 20 0 0)) [.block 32 8 8, .pair 20] [.block 40 4 4] 16 (fun c l => c.reg64 20 l) 48 &&
      enters (tracing 0x1010) (.rtcrv (sw 0 40 32 20 0 0)) [.block 32 8 8, .pair 20] [.block 40 4 4] 16 (fun c l => c.reg64 20 l) 32 &&
      enters (tracing 0x1080) (.rtrace (sw 8 48 0xC6 0 4 0x600)) [.block 48 24 8, .pair 0xC6] [.block 48 24 8] 128 (fun c l => c.reg64 0xC6 l) 128 &&
      enters (tracing 0x1000) (.ltwalk (sw 0 12 4 0xC6 30 0)) [.block 4 4 4, .pair 0xC6, .one 30] [.block 12 3 4] 1 (fun c l => c.reg64 0xC6 l) 32) = true ∧
    causeAfter (.rttri (sw 0 40 32 20 0 0)) (modWave (tracing 0x200000) 8 0 fun W => { W with whandler := 0x201#64 }) = some Cause.extentMiss.code ∧
    ((Instr.rng (sw 1 6 8 7 0 0)).wf && nexts (.rng (sw 1 6 8 7 0 0)) (tracing 0) &&
      (ready (tracing 0) 0#4 fun c => c.begin [.ofW 8 2, .ofW 7 1, .ofW 0 1] [.ofW 6 1] false).isSome) = true := by decide +kernel

/-- The events over the entry that RTTRI makes, and over one of RTRACE. -/
theorem witness_RayWordsComplete_units :
    (let s := run (.rttri (sw 0 40 32 20 0 0)) withTriangle
      let W := (gangOf { s with cur := .wave 8 0 0xFF#8 }).W;
      (core? s 0).any (fun C => !C.stopped && (C.rays[0]?).any fun r =>
        (rayLanes s r W r.vals s).1.all fun x => match x.2 with | .ok _ => true | _ => false) && nexts (.rayUnitComplete 0 0) s) = true ∧
    (let s := modTeam (run (.rttri (sw 0 40 32 20 0 0)) withTriangle) 8 fun T => { T with ext := [] }
      let W := (gangOf { s with cur := .wave 8 0 0xFF#8 }).W;
      (core? s 0).any (fun C => (C.rays[0]?).any fun r => (rayTrap (rayLanes s r W r.vals s).1).isSome) && nexts (.rayUnitComplete 0 0) s) = true ∧
    (let s := run (.rtrace (sw 8 48 0xC6 0 4 0x600)) (tracing 0x1000);
      (core? s 0).any (fun C => !C.swapping && C.active == some 8 && slotsUsed s 0 C == 0 && C.rays.length == 1) && nexts (.rtraceStart 0 0) s) = true := by
  decide +kernel

/-- A view of 4 by 2 pixels, one layer, at 0 in the quad at s8; each lane's pixel in v5; lane 1 outside the view. -/
def reservoirs : State :=
  let s := gang 3 ((List.range 32).map fun l => (160 + l, if l % 4 = 1 then 0x1FFFF else 0x10003)) [(8, 0x20004), (9, 0), (10, 0)] []
  { modTeam s 8 fun T => T with choice := 1 }

theorem witness_ReservoirWordsComplete :
    let s := reservoirs
    let pass (srcs : List Regs) (parts : List (BitVec 8 × List Nat)) (i : Instr) : Bool :=
      i.wf && nexts i s && (ready s 0#4 fun c => do
        let c ← c.open (.block 8 8 8 :: srcs) [.block 8 8 8] false
        c.checkParts parts
        .ok c).isSome;
    (pass [.block 16 8 8, .one 6, .one 7] [(8, [2, 4]), (16, [0, 1, 5, 6, 7]), (6, [0]), (7, [0])] (.rsvupd (sw 0 8 16 6 7 0)) &&
      pass [.block 16 8 8, .one 6, .one 7] [(8, [2, 4]), (16, [0, 3, 4, 5, 6, 7]), (6, [0]), (7, [0])] (.rsvmrg (sw 0 8 16 6 7 12)) &&
      pass [] [(8, [1, 2, 4])] (.rsvnrm (sw 0 8 0 0 0 0))) = true ∧
    (let view (srcs dsts : List Regs) (a : Acc) (i : Instr) : Bool :=
        i.wf && nexts i s && (opens s srcs dsts false).any fun c =>
          let v := View.ofWords (c.reg 0xC8 0) (c.reg 0xC9 0) (c.reg64 0xCA 0)
          let px := (lanesOf c.lanes).map fun l => (l, bits (c.reg 5 l) 15 0, bits (c.reg 5 l) 31 16);
          viewBad (c.reg 0xC8 0) (c.reg 0xC9 0) (c.reg64 0xCA 0) == none && !(lanesOf c.lanes).isEmpty && c.W.storeQ.isEmpty &&
            px.any (fun p => !v.holds p.2.1 p.2.2) &&
            match planLanes c.s c.T a 32 (v.inside 0 px) with
            | .ok p => p.parked.isEmpty && p.ok.length == 8
            | .error _ => false;
      view [.one 5, .quad 0xC8] [.block 24 8 8] .read (.rsvld (sw 0 24 5 0xC8 0 0)) &&
        view [.one 5, .quad 0xC8, .block 24 8 8] [] .write (.rsvst (sw 0 24 5 0xC8 0 0))) = true := by decide +kernel

/-- M at its limit, and a record of no samples. -/
theorem witness_ReservoirWordsComplete_records :
    let r (m : Nat) : List Nat := [7, 0x3F800000, 0, 0, m, 0, 0, 0]
    rwM (putWords (r 65535) (rsvUpd (r 65535) (r 1) 0 0).writes) = 65535 ∧ rwM (putWords (r 3) (rsvMrg (r 3) (r 9) 0 0 4).writes) = 7 ∧
      rw (putWords (r 0) (rsvNrm (r 0))) 0 = 0xFFFFFFFF := by decide +kernel

/-! Witnesses: stream words and copies. -/

/-- A context of the placed team: k2 a reference, k4 an address, k5 and k6 a counted dimension, k7 zero, k8 a count, k9 rows and bytes. -/
def streamer : State :=
  let s := ctx [(2, 0x40), (4, 0x1000), (5, 0x400000003), (6, 16), (8, 4), (9, 0x1000000002)]
  { modTeam s 8 fun T => { T with regSt := T.regSt.map fun _ => .present, tileSt := T.tileSt.map fun _ => .present } with choice := 1 }

/-- The context once its registers are opened and checked. -/
def kopens (s : State) (srcs dsts : List (BitVec 8)) : Option KCtx :=
  readyCtx s fun c => do
    c.open srcs dsts
    c.checkPoison srcs

def stored (s : State) (c : KCtx) : Bool := c.X.storeQ.isEmpty && c.X.owc == 0 && !readsPending s (.context c.x) && c.X.kout < 64

theorem witness_StreamWordsComplete :
    let s := streamer
    let refers (c : KCtx) (r v n k : Nat) : Bool := match useRef c.s c.x c.X r v n k with
      | .ok (_, _, T, off) => !outsideWaits T off n
      | .error _ => false
    (((Instr.kld (sw 6 10 2 0 0 0x400)).wf && nexts (.kld (sw 6 10 2 0 0 0x400)) s && (Instr.kst (sw 6 10 2 0 0 0x400)).wf &&
      nexts (.kst (sw 6 10 2 0 0 0x400)) s && (kopens s [2, 10] []).any fun c => refers c (c.k 2) (c.kRef (sw 6 10 2 0 0 0x400)) 8 8 && stored s c) = true) ∧
    ((Instr.agset (sw 0 0 4 0 0 0x200)).wf && nexts (.agset (sw 0 0 4 0 0 0x200)) s && (kopens s [4, 5] []).any (fun c => c.X.ags.length == 4) &&
      (Instr.agstep (sw 0 10 0 11 0 0)).wf && nexts (.agstep (sw 0 10 0 11 0 0)) s && (kopens s [] [10, 11]).isSome) = true ∧
    ((Instr.qpush (sw 4 10 2 8 0 0)).wf && nexts (.qpush (sw 4 10 2 8 0 0)) s && nexts (.qpush (sw 1 10 4 8 0 0)) s && (Instr.qpush (sw 1 10 4 8 0 0)).wf &&
      (kopens s [2, 8] [10]).any fun c => stored s c && refers c (c.k 2) (c.k 2) 16 4 && (match engRead s (ctxEng s c.x c.X) 0x1000 16 with
        | (_, .ok bs) => bs.length == 16
        | _ => false) && (ctxTeam s c.X).any fun T => T.fifos.all fun q => q.st == .idle) = true ∧
    ([(.tlinc (sw 0 0 8 0 0 0x400)), (.tlinc (sw 8 0 0 0 1 0x400)), (.swait (sw 8 0 0 0 0 0)), (.swait (sw 0 0 8 0 0 0)), (.stopc (sw 0 0 0 0 0 0))] :
      List Instr).all (fun i => i.wf && nexts i s) = true ∧ (kopens s [8] []).isSome = true ∧
    -- counts 3 and 2: the fourth position of six is (0, 1), and the last ends the generator
    agNext [3, 2] [2, 0] = ([0, 1], false) ∧ agNext [3, 2] [2, 1] = ([0, 0], true) := by decide +kernel

/-- The same with a table in codebook slot 0 of the cluster, and slot 1 loading. -/
def decoding : State :=
  modCluster streamer 0 fun C => { C with codebooks := setAt C.codebooks 0 { C.codebooks.getD 0 Codebook.blank with tag := some 1, loading := false } }

/-- Whether a copy word's sides open in place. -/
def sides (s : State) (srcs : List (BitVec 8)) (sps : List SideSpec) : Bool :=
  (kopens s srcs [12]).any fun c => stored s c && match openSides c c.X sps with
    | .ok (_, l) => (sideCode l).isNone && l.length == sps.length
    | .error _ => false

theorem witness_StreamCopyWordsComplete :
    let s := streamer
    ((Instr.scopy (sw 1 12 2 4 6 0)).wf && nexts (.scopy (sw 1 12 2 4 6 0)) s && sides s [2, 4, 6] [⟨true, 0x40, 16, .write⟩, ⟨false, 0x1000, 16, .read⟩]) =
      true ∧
    ((Instr.sgath (sw 1 12 2 4 4 0)).wf && sides s [2, 4, 8, 9] [⟨true, 0x40, 32, .write⟩, ⟨false, 0x1000, 0, .read⟩, ⟨false, 0x1000, 8, .read⟩]) = true ∧
    (let s := { ctx [(2, 0x40), (4, 0x1000), (8, 0x1800), (9, 0x1000000002)] with choice := 1 };
      nexts (.sgath (sw 1 12 2 4 8 0)) s && (Instr.sgath (sw 1 12 2 4 8 0)).wf && nexts (.sscat (sw 2 12 4 2 8 0)) s && (Instr.sscat (sw 2 12 4 2 8 0)).wf &&
      sides s [4, 2, 8, 9] [⟨false, 0x1000, 0, .write⟩, ⟨true, 0x40, 32, .read⟩, ⟨false, 0x1800, 8, .read⟩]) = true ∧
    ((Instr.smcast (sw 0 12 2 4 6 0x10)).wf && nexts (.smcast (sw 0 12 2 4 6 0x10)) s && sides s [2, 4, 6] [⟨true, 0x40, 16, .write⟩] &&
      (kopens s [2, 4, 6] [12]).any fun c => isOk (globalSides c [⟨false, 0x1000, 16, .read⟩])) =
      true ∧
    ((Instr.cbload (sw 0 12 4 0 0 0)).wf && nexts (.cbload (sw 0 12 4 0 0 0)) s && (bookSlot s 0 ((smGet? s.ctxs 0).elim 0 fun X => X.ktag.toNat)).isSome) = true ∧
    ((Instr.sdecode (sw 1 12 2 4 8 0)).wf && nexts (.sdecode (sw 1 12 2 4 8 0)) decoding &&
      sides decoding [2, 4, 8] [⟨true, 0x40, 64, .write⟩, ⟨false, 0x1000, 4, .read⟩]) = true := by decide +kernel

/-! Witnesses: the datapath, passes, the matrix engine, the networks. -/

/-- A copy of a context in progress and over, a multicast left out; a copy of a wave in progress and over. -/
def copying : State := { run (.scopy (sw 1 12 2 4 6 0)) streamer with choice := 0 }
def copied (code : Nat) (ns : Bool) : State :=
  modCtx copying 0 fun X => { X with copies := X.copies.map fun c => { c with fin := true, code := code, ns := ns } }
def waveCopying : State := { run (.cpy (sw 0 0xD0 0xC4 0xC6 0xC8 0)) (memory 15) with choice := 0 }
def waveCopied : State :=
  modTeam waveCopying 8 fun T => { T with copies := T.copies.map fun c => { c with pos := 64 } }

def ctx0 (s : State) : Ctx := smGetD s.ctxs 0 Ctx.blank

/-- The queue 0 of the team reads a stream of four elements. -/
def streamingQ : State := run (.iscfg (sw 0 0 0xC8 0 0 0)) (streams 4)

theorem witness_DatapathEvents :
    ((burstClients copying 0).length == 1 && nexts (.copyBurst 0) copying && (ctx0 copying).copies.all fun c => !c.fin) = true ∧
    ((burstClients waveCopying 0).length == 1 && nexts (.copyBurst 0) waveCopying) = true ∧
    (nexts (.waveCopyComplete 8 ((team? waveCopied 8).elim 0 fun T => (T.copies[0]?).elim 99 (·.num))) waveCopied &&
      (team? waveCopied 8).any fun T => T.copies.all fun c => c.over_ && c.park.isNone) = true ∧
    (nexts (.copyComplete 0 1) (copied 0 false) && nexts (.copyComplete 0 1) (copied 4 true) && !unitStopped copying 0 (ctxUnit 0)) = true ∧
    (let s := modCtx streamer 0 fun X => { X with deferred := [.tlinc 3 0 [] false], st := .running };
      nexts (.tlincApply 0) s && deferredFree s 0 (ctx0 s) 0 []) = true ∧
    (let s := modCtx streamer 0 fun X => { X with deferred := [.cbarv 11 1 1 0x40 1 0 []] };
      (boundTeam s 0 1 1).any (fun p => p.1 == 8 && !outsideWaits p.2 0x40 16) && nexts (.cbarvApply 0) s) = true ∧
    ([CtxSt.faulting, .stopping].map fun st =>
      let s := modCtx streamer 0 fun X => { X with st := st };
      (nexts (.contextFaulted 0) s, nexts (.stopcComplete 0) s, (ctx0 s).kout, (ctx0 s).deferred.length)) = [(true, false, 0, 0), (false, true, 0, 0)] ∧
    (nexts (.streamFetch 8 0) streamingQ && (team? streamingQ 8).any fun T => (T.fifos[0]?).any fun q => q.st == .streaming && q.elems.isEmpty) = true := by
  decide +kernel

/-- A descriptor at 0x3000 over a view of 2 by 1 pixels at 0x10000, its output at 0x20000, the callable at 0x1000, the status at 0x4000, the
scene at 0x5000 (a node with no child); the placed team has 64 pages. -/
def reusing : State :=
  let s := gang 1 [] [(2, 0x3000)] []
  let s := [(0x300A, 1, 1), (0x3030, 8, 0x1000), (0x3038, 8, 0x5000), (0x3050, 8, 0x100010002), (0x3058, 8, 0x10000), (0x3060, 8, 0x8000000100010002),
    (0x3068, 8, 0x20000), (0x3078, 8, 0x4000), (0x5070, 16, 2 ^ 128 - 1), (0x1000, 8, 0)].foldl (fun s p => physSet s p.1 (toBytes p.2.1 p.2.2)) s
  { modTeam s 8 fun T => { T with ext := [⟨1, 0, 64, 0, 0, false, false, true, true, true, 0, 0⟩] } with
    clusters := smSet s.clusters 0 Cluster.blank, choice := 1 }

def reuseWord : SysW := sw 0 0xD4 0xC2 0 0 0

/-- The pass granted, and running. -/
def granted : State := run (.reuse reuseWord) reusing
def running : State := run (.passStart 0 0) granted

theorem witness_PassesComplete_word :
    ((Instr.reuse reuseWord).wf && nexts (.reuse reuseWord) reusing && (opens reusing [.pair 0xC2] [.quad 0xD4] true).any fun c =>
      passSecure reusing 0 == c.T.secure && c.W.storeQ.isEmpty && c.W.owc == 0 && !readsPending reusing (.wave 8 0) &&
      match readDesc c.s (.wave 8 0) c.T 0x3000 with
      | .ok (_, .inl bs) => !engMarked bs && descOk (engBytes bs) && !descClash (engBytes bs)
      | _ => false) = true ∧
    ((pass? granted 0 0).map fun P => (P.st, P.team, P.pixels)) = some (.granted, 8, 0) ∧ uOf (exec (.reuse reuseWord) reusing) 22 = some (1, 8) := by
  decide +kernel

theorem witness_PassesComplete_lane :
    ((Instr.cparg (sw 8 1 0 0 9 0)).wf && nexts (.cparg (sw 8 1 0 0 9 0)) lane && (readyLane lane fun _ => Eval.open [] [.one 1] false).isSome &&
      (Instr.cpret (sw 0 0 1 0xF8 0 0)).wf && nexts (.cpret (sw 0 0 1 0xF8 0 0)) lane && (Instr.cpret (sw 1 0 1 8 0 0)).wf &&
      nexts (.cpret (sw 1 0 1 8 0 0)) lane && (readyLane lane fun e => do
        Eval.open [.one 1, .block 8 6 2] [] false
        e.checkPoison [.one 1, .block 8 6 2]).isSome) = true := by decide +kernel

theorem witness_PassesComplete_events :
    (nexts (.passStart 0 0) granted && (pass? running 0 0).any fun P => P.st == .running && P.park.isNone && !P.work.isEmpty) = true ∧
    ((pass? (run (.passPixel 0 0) running) 0 0).map fun P => P.pixels) = some 1 ∧
    (let s := modPass running 0 0 fun P => { P with px := [⟨0, 0, nullRecord, false, [], true⟩], work := P.work.drop 1 };
      nexts (.passPixel 0 0) s && ((pass? (run (.passPixel 0 0) s) 0 0).map fun P => P.pixels) == some 1) = true ∧
    (let s := modPass running 0 0 fun P => { P with halo := true, px := [.fresh 0 0] };
      nexts (.haloRequest 0 0) s && (run (.haloRequest 0 0) s).halos.length == 1 &&
        ((pass? (haloMove (run (.haloRequest 0 0) s) 0) 0 0).any fun P => P.halos.map (·.1) == [(0, 0, 0)])) = true ∧
    (let c : Cand := ⟨2, nullRecord, [false, false], (0, 0), none, some ⟨7, [0, 0, 0, 0, 0, 0x3F800000], none⟩, none⟩
      let s := modPass running 0 0 fun P => { P with px := [⟨0, 0, nullRecord, false, [c], true⟩], work := [] }
      let s1 := run (.visibilitySegment 0 0) s
      let g (s : State) : Option Cand := (pass? s 0 0).bind fun P => P.px.head?.bind (·.cands.head?);
      (((smGet? s.clusters 0).bind (lender s 0)) == some 0 && nexts (.visibilitySegment 0 0) s && nexts (.visibilitySegment 0 0) s1 &&
        (g s1).any fun c => c.seg.any fun x => x.core == some 0) &&
        ((g (run (.visibilitySegment 0 0) s1)).map fun c => (c.phat, c.seg.isNone)) == some (some 7, true)) = true ∧
    (let s := modPass running 0 0 fun P => { P with work := [] };
      nexts (.passEnd 0 0) s && ((pass? (run (.passEnd 0 0) s) 0 0).map fun P => (P.st, P.timeline)) == some (.free, 1)) = true := by decide +kernel

/-- The matrix queue of the placed team holds one operation. -/
def engine (k : MxKind) (f : MxOp → MxOp) : State :=
  let s := { matrices with cores := smSet matrices.cores 1 (Core.blank true) }
  modTeam s 8 fun T => { T with mxq := [f (.fresh 1 1 k [(0, 8)])], plane := some ⟨⟨false, 0x4000, 0, 0, 16, 0, 0, 32, false, 0, false, 0, 0, 0⟩, 0, 0, none, false⟩ }

def heads (s : State) : Bool := isOk (mxHead s 8)

/-- The loop of one row line, one step and one column, bf16 by bf16. -/
def oneCell : MxKind := .loop 0 ⟨false, 0, 0, 0, 16, 0, 0, 32, false, 0, false, 0, 0, 0⟩ 1 1 0 0 0 1 [1] false 0

theorem witness_MatrixEngineEvents :
    (let s := engine (.zero 0 3) id;
      heads s && nexts (.clusterOpArrival 8 1) s && (core? s 1).any fun D => D.arrivals.isEmpty) = true ∧
    (([.zero 0 0, .cfg 0 .i48 0 true, .rd 0 true 40 0 0 1 0, .stat 0 0xDE 0, .wr 0 true 127 96 [(0, 5)]] : List MxKind).all fun k =>
      let s := engine k id;
      heads s && nexts (.matrixOpStart 8) s && (team? s 8).any fun T => (T.mxq[0]?).any fun o => mayStart s 8 T o &&
        (opTile T o.kind).all fun i => T.unitSt true i == .present) = true ∧
    (let s := engine oneCell fun o => { o with started := true };
      heads s && nexts (.rowBlock 8) s && (team? s 8).any fun T => !bookLoading s T []) = true ∧
    (let s := engine (.zero 0 0) fun o => { o with started := true, done := true };
      heads s && nexts (.matrixOpComplete 8) s) = true := by decide +kernel

/-- An operation for both cores that has arrived at core 1 enters its engine before it starts. -/
theorem witness_MatrixEngineEvents_enter :
    (let s := modCore (engine (.zero 0 3) id) 1 fun C => { C with arrivals := [⟨8, 1, false⟩] };
      (team? s 8).any (fun T => (T.mxq.head?).any fun op => !mayStart s 8 T op && (targetCores T op).any (mayEnter s 8 op.id)) &&
        (core? (run (.matrixOpStart 8) s) 1).any fun C => C.arrivals.all (·.entered)) = true := by decide +kernel

/-- The placed team is rank 1 of a LINE of three (its root where `root`), in the state given; a flit of its chain is on its way to it. -/
def chained (root : Bool) (st : ChainSt) (free : Nat) (g : Chain → Chain) : Chain :=
  g ⟨1, false, 3, if root then 2 else 1, root, 2, 0, .xf48, 0, st, 0, false, [], 0, 0, [], free, 0, 0, [], none, [], 0⟩

def arriving (c : Chain) (q : List MxOp) (type : FlitType) (rank src arg : Nat) (ok : Bool) : State :=
  let s := modTeam matrices 8 fun T => { T with chains := [c], mxq := q }
  { s with jnet := [⟨type, 0, src, 1, rank, if ok then 3 else 4, false, .xf48, 0, 7, 0, arg, 1, [(0, 5, false)]⟩] }

/-- The hypotheses of the statement on the flit 0 of a state. -/
def lands (s : State) : Bool :=
  (s.jnet[0]?).any fun f => f.dest < 400 && inOrder s 0 f && !crossesGateway f && (partOfCore s f.dest).any (fun p => !unitStopped s p (routerUnit 0)) &&
    (chainAt s f.dest f.chain).any fun x => x.1 == 8 && x.2.2.st != .aborted

def chainOf (s : State) : Option Chain := (team? s 8).bind fun T => T.chains[0]?

theorem witness_JetstreamFlitsArrive :
    let c (st : ChainSt) := chained false st 0 id
    let r (st : ChainSt) := chained true st 2 id
    let recv : MxOp := { MxOp.fresh 1 1 (.recv 0xD0 0x30010000 0) [(0, 8)] with started := true }
    let heard := chained true .armed 2 fun c => { c with ready := [(1, 1)] }
    -- a header that is not the member's, of every type
    ([(Instr.ready 0, FlitType.ready), (.arm 0, .arm), (.credit 0, .credit), (.req 0, .req), (.data 0, .data), (.datasat 0, .datasat), (.endFlit 0, .fin),
      (.revoke 0, .revoke)] : List (Instr × FlitType)).all (fun p =>
        let s := arriving (c .granted) [] p.2 0 1 1 false;
        lands s && nexts p.1 s && (chainOf (run p.1 s)).any fun d => d.st == .aborted && d.why == 4) = true ∧
    -- READY from the member before, at a root, and from no member expected
    (let s := arriving (r .granted) [] .ready 1 1 0 true;
      lands s && nexts (.ready 0) s && (chainOf (run (.ready 0) s)).any fun d => d.st == .armed && d.ready == [(1, 1)]) = true ∧
    (let s := arriving (r .granted) [] .ready 0 1 0 true;
      lands s && (chainOf (run (.ready 0) s)).any fun d => d.st == .aborted) = true ∧
    (let s := arriving (c .granted) [] .arm 2 2 0 true;
      lands s && nexts (.arm 0) s && (chainOf (run (.arm 0) s)).any fun d => d.st == .armed && d.credits == 8) = true ∧
    (let s := arriving (c .armed) [] .credit 2 2 3 true;
      lands s && nexts (.credit 0) s && (chainOf (run (.credit 0) s)).any fun d => d.credits == 3) = true ∧
    (let s := arriving (r .armed) [] .req 1 1 1 true;
      lands s && nexts (.req 0) s && (chainOf (run (.req 0) s)).any fun d => d.free == 1 && d.lastServed == 1) = true ∧
    (let s := arriving (chained true .armed 0 id) [] .req 1 1 1 true;
      lands s && nexts (.req 0) s && (chainOf (run (.req 0) s)).any fun d => d.requests == [(1, 1, 1)]) = true ∧
    -- data: kept without a JRECV, added into its cell with one, wrong from a source that has not reported
    ([(Instr.data 0, FlitType.data), (.datasat 0, .datasat)] : List (Instr × FlitType)).all (fun p =>
        let s := arriving heard [] p.2 1 1 0 true
        let u := arriving heard [recv] p.2 1 1 0 true
        let x := arriving heard [] p.2 0 3 0 true;
        lands s && nexts p.1 s && ((chainOf (run p.1 s)).any fun d => d.inbox.length == 1) && lands u && nexts p.1 u &&
          ((chainOf (run p.1 u)).any fun d => d.inbox.isEmpty) && lands x && (chainOf (run p.1 x)).any fun d => d.why == 4) = true ∧
    (let s := arriving heard [] .fin 1 1 0 true;
      lands s && nexts (.endFlit 0) s && (chainOf (run (.endFlit 0) s)).any fun d => d.inbox.length == 1) = true ∧
    (let s := arriving heard [] .abort 1 1 2 true;
      lands s && nexts (.abortFlit 0) s && (chainOf (run (.abortFlit 0) s)).any fun d => d.st == .aborted && d.why == 2) = true ∧
    (let s := arriving heard [] .refuse 1 1 0 true;
      lands s && nexts (.refuse 0) s && (chainOf (run (.refuse 0) s)).any fun d => d.st == .aborted && d.why == 3) = true ∧
    (let s := arriving heard [] .revoke 1 1 0 true;
      lands s && nexts (.revoke 0) s && (chainOf (run (.revoke 0) s)).any fun d => d.st == .granted && d.ready == []) = true := by decide +kernel

theorem witness_ReservationsAndRefusals :
    (let s := modCore matrices 0 fun C => { C with reservations := [⟨5, 8, 8192, false⟩] };
      nexts (.reservationGrant 0) s && (core? (run (.reservationGrant 0) s) 0).any (fun C => C.reservations == [⟨5, 8, 8192, true⟩]) &&
        (openHere s 0).length == 0) = true ∧
    ([(Instr.data 0, FlitType.data), (.datasat 0, .datasat), (.endFlit 0, .fin), (.req 0, .req)] : List (Instr × FlitType)).all (fun p =>
        let s := modTeam (arriving (chained false .granted 0 id) [] p.2 0 1 1 true) 8 fun T => { T with chains := [] };
        nexts p.1 s && (chainAt s 0 1).isNone && ((run p.1 s).jnet.map fun f => (f.type, f.dest, f.src)) == [(.refuse, 1, 0)]) = true := by decide +kernel

/-- READY, ABORT and REVOKE before their member is there, ARM and CREDIT with none. -/
theorem witness_ReservationsAndRefusals_early :
    ([(Instr.ready 0, FlitType.ready, 1), (.abortFlit 0, .abort, 1), (.revoke 0, .revoke, 1), (.arm 0, .arm, 0), (.credit 0, .credit, 0)] :
      List (Instr × FlitType × Nat)).all (fun p =>
        let s := modTeam (arriving (chained false .granted 0 id) [] p.2.1 0 1 1 true) 8 fun T => { T with chains := [] };
        nexts p.1 s && (chainAt s 0 1).isNone && (core? (run p.1 s) 0).any fun C => C.early.length == p.2.2 || (run p.1 s).jnet.length == 1) = true := by
  decide +kernel

/-! Witnesses: homes, answers, gateways, links. -/

/-- The requests of LD in flight, all but the first dropped, the first changed by `g`; its wave is as LD left it. -/
def flying (g : MemReq → MemReq) : State := { reading with reqs := (reading.reqs.take 1).map g, cur := .none, choice := 0 }
def rid0 : Rid := ((reading.reqs.map (·.rid))[0]?).getD ⟨0, 0, 0, 0, 0⟩

def stOf (s : State) : Option ReqSt := (req? s rid0).map (·.st)

theorem witness_HomePerformsRequests :
    let at_ (s : State) : Bool := (req? s rid0).any (fun r => !homeBlocked s r && r.st == .flight && r.data.length ≤ r.size) && !heldAtGateway s rid0
    let put (k : ReqKind) (s : State) : State := { s with reqs := s.reqs.map fun r => { r with kind := k, data := [1, 0, 0, 0], cmp := [0, 0, 0, 0], ty := 0, aop := 0 } }
    ([.read, .write, .atomic, .reduction].map fun k => at_ (put k (flying id)) && nexts (.homeRequest rid0) (put k (flying id))) = List.replicate 4 true ∧
    (stOf (run (.homeRequest rid0) (put .read (flying id))), stOf (run (.homeRequest rid0) (put .atomic (flying id)))) =
      (some (.answered [0, 0, 0, 0] 0), some (.answered [0, 0, 0, 0] 0)) ∧
    (memGet (run (.homeRequest rid0) (put .write (flying id))).mem 0x1004, memGet (run (.homeRequest rid0) (put .reduction (flying id))).mem 0x1004) = (1, 1) ∧
    -- an older generation than MINGEN, and another KEY
    (let s := { flying id with asids := [(0, ⟨1, 0x00050005#64, none, []⟩)] };
      at_ s && stOf (run (.homeRequest rid0) s) == some .nacked) = true ∧
    (at_ (flying fun r => { r with key := 3 }) && stOf (run (.homeRequest rid0) (flying fun r => { r with key := 3 })) == some .refused) = true := by
  decide +kernel

/-- A write to the scratchpad of the placed team. -/
theorem witness_HomePerformsRequests_peer :
    (let s := modTeam (flying fun r => { r with kind := .write, data := [7], size := 1, peer := some (8, 0x40) }) 8 fun T =>
        { T with regSt := T.regSt.map fun _ => .present };
      (performPeer s 8 0x40 [7] false).isSome && nexts (.homeRequest rid0) s && stOf (run (.homeRequest rid0) s) == some .acked &&
        (team? (run (.homeRequest rid0) s) 8).any fun T => smGetD T.scratch 0x40 0 == 7) = true := by decide +kernel

/-- The wave's handler is set and its slices are at a word boundary. -/
def reads (st : ReqSt) : State := modWave (flying fun r => { r with st := st }) 8 0 fun W => { W with whandler := 0x201#64 }

theorem witness_AnswersReturn :
    (nexts (.ackFlit rid0) (flying fun r => { r with st := .acked, kind := .write }) &&
      nexts (.readDataResponse rid0) (reads (.answered [5, 0, 0, 0] 0))) = true ∧
    ((wave? (run (.readDataResponse rid0) (reads (.answered [5, 0, 0, 0] 0))) 8 0).map fun W => (smGetD W.v 256 0).toNat) = some 5 ∧
    (let s := reads .nacked;
      nexts (.nackFlit rid0) s && (req? s rid0).any (fun r => requesterTeam s r.who == some 8 && (resolveVa s 8 r.va r.access).2 == .ok) &&
        stOf (run (.nackFlit rid0) s) == some .flight) = true ∧
    (let s := { starting with reqs := (flying fun r => { r with st := .refused, who := .context 0, gang := 0 }).reqs };
      nexts (.nackFlit rid0) s && (smGet? (run (.nackFlit rid0) s).ctxs 0).any fun X => X.st == .faulting && X.kcause == 0x0A) = true ∧
    (let s := reads .refused;
      nexts (.deferredPerm 8 0) s && (wave? s 8 0).any (fun W => W.slices.all fun x => x.hold == .free) &&
        (wave? (run (.deferredPerm 8 0) s) 8 0).any fun W => W.intrap && W.cause == 0x0A && W.defer) = true ∧
    (let s := { reads .refused with asids := [(2, ⟨1, 0x30003#64, some 3, []⟩)] };
      nexts (.mingenRaiseComplete 2) s && (asidOf (run (.mingenRaiseComplete 2) s) 2).raising == none) = true ∧
    (nexts (.onDemandTranslate (.request rid0)) (reads (.waiting 0 false))) = true := by decide +kernel

/-- A wave parked at a word at 0x1000, and nothing in its way. -/
def parking : State :=
  modWave (memory 1) 8 0 fun W => { W with parked := true, parkGang := 0xFF, parks := [⟨0, 0x1000, 0x41, 0xFF⟩], wepc := 0x40 }

theorem witness_AnswersReturn_wave :
    (nexts (.onDemandTranslate (.wave 8 0)) parking && isOk (resolveWave parking 8 0)) = true := by decide +kernel

/-- ANCHOR data from core 200 for core 0, and one held at the gateway. -/
def anchored (row : Nat) : JFlit := ⟨.data, 0, 200, 1, 1, 3, true, .i48, 0, row, 0, 1, 0, [(0, 5, false)]⟩
def crossing_ (held : List HeldFlit) : State := { arriving (chained true .armed 2 id) [] .data 1 1 0 true with jnet := [anchored 7], held := held }

theorem witness_GatewaysCombine :
    let gw := gatewayOf (crossing_ []) 0
    let h : HeldFlit := ⟨gw, 1, { anchored 7 with src := 208 }, [208], 0⟩
    (nexts (.gatewayAnchorData 0) (crossing_ []) && nexts (.gatewayAnchorData 0) (crossing_ [h]) && nexts (.gatewayWindowEnd 0) (crossing_ [h]) &&
      crossesGateway (anchored 7)) = true ∧
    ((run (.gatewayAnchorData 0) (crossing_ [h])).held.map fun x => x.srcs) = [[200, 208]] ∧
    (let far (r : MemReq) : MemReq := { r with kind := .reduction, pa := 0x50_0000_1000, data := [1, 0, 0, 0], ty := 0, aop := 0, ord := 0 }
      let s := { flying far with gateways := List.replicate 5 { Gateway.blank with modules := [true] } }
      let one := run (.gatewayReduction rid0) s
      let r2 := (s.reqs.map fun r => { r with rid := { r.rid with seq := 77 } })
      let two := { one with reqs := one.reqs ++ r2, heldRed := one.heldRed.map fun h => { h with parts := h.parts ++ r2.map (·.rid) } };
      s.reqs.all (fun r => combinable s r && !homeBlocked s r) && nexts (.gatewayReduction rid0) s && one.heldRed.length == 1 &&
        nexts (.gatewayReductionWindowEnd 0) one && nexts (.gatewayReductionWindowEnd 0) two &&
        (run (.gatewayReductionWindowEnd 0) two).reqs.length == 3) = true := by decide +kernel

/-- A second reduction like one that a gateway holds joins it. -/
theorem witness_GatewaysCombine_join :
    (let far (r : MemReq) : MemReq := { r with kind := .reduction, pa := 0x50_0000_1000, data := [1, 0, 0, 0], ty := 0, aop := 0, ord := 0 }
      let s := { flying far with gateways := List.replicate 5 { Gateway.blank with modules := [true] } }
      let one := run (.gatewayReduction rid0) s
      let r2 := s.reqs.map fun r => { r with rid := { r.rid with unit := 9 } }
      let two := { one with reqs := one.reqs ++ r2 }
      r2.all (fun r => combinable two r && !homeBlocked two r && !heldAtGateway two r.rid &&
        ((run (.gatewayReduction r.rid) two).heldRed.map fun h => h.parts.length) == [2])) = true := by decide +kernel

/-- A module with a Thielo port to module 3, a gateway module and a stack. -/
def linked : State :=
  { memory 1 with
    ports := [5]
    portRetries := [(5, 1)]
    csrs := [(0xD03, 0x20)]
    gateways := [⟨[true, true], [0, 1], false, 0, []⟩]
    hbm := [⟨true, 100, 0⟩]
    now := 9000 }

def fab (type : FabType) (seq : Nat) : FabFlit :=
  ⟨type, linked.moduleNo, 3, 0, 0, seq, 5, ⟨3, 0, 0, 0, 9⟩, (flying id).reqs[0]?.map fun r => { r with rid := ⟨3, 0, 0, 0, 9⟩ }, none, none⟩

theorem witness_LinksWork :
    (nexts (.flitCrcFail 5) linked && nexts (.fabricPortFail 5) linked && (run (.fabricPortFail 5) linked).ports.isEmpty) = true ∧
    (let s := { linked with fabIn := [fab .data 0] }
      let d := { s with fabRecv := [⟨0, 3, 0, 1, []⟩] };
      nexts (.thieloData 0) s && (run (.thieloData 0) s).reqs.length == s.reqs.length + 1 && nexts (.thieloData 0) d &&
        (run (.thieloData 0) d).reqs == d.reqs) = true ∧
    (let s := { linked with fabIn := [fab .e2eack 4], fabSent := [⟨{ fab .data 4 with dmod := 3, smod := linked.moduleNo }, 0, 0⟩] };
      nexts (.e2eack 0) s && (run (.e2eack 0) s).fabSent.isEmpty && nexts (.e2eRetransmit 0 5) s && (portsTo s 0 3).contains 5 &&
        !nexts (.e2eRetransmit 0 5) { s with now := 8191 }) = true ∧
    (nexts (.ucieLinkLevelRetry 0 0) linked && nexts (.ucieModuleFail 0 1) linked && nexts (.stackFail 0) linked) = true := by decide +kernel

/-! Witnesses: the host, launches, banks, commands, management, halt. -/

/-- A module with one partition over cluster 0: the table of nodes at 0x800000, whose node 5 is a root of one-record launches of two teams of three
waves each; the pages of address space 0 from 0 on; queue pair 1 of the host and 2 of the manager. -/
def module_ : State :=
  let s := { State.reset with
    hbm := List.replicate 10 ⟨true, 5859375, 0⟩
    boot := Boot.up
    csrs := [(0x029, 512)]
    qps := [⟨0, 1, 0, false, false⟩, ⟨0, 2, 0, true, false⟩]
    asids := [(0, ⟨0x200001#64, 0, none, []⟩)]
    windows := [(0, ⟨0, 4, 0x300, 9⟩)]
    cores := (List.range 8).map fun c => (c, Core.blank true)
    clusters := [(0, Cluster.blank)]
    ctxs := (List.range 16).map fun x => (x, Ctx.blank)
    parts := [(0, { Part.blank [0] with nodetab := 0x800000, sqbase := 0x900000#64, sqsize := 4#64, sabase := 0x1000000#64, svbase := 0x2000000#64 })] };
  ([(0x800A00, 8, 0x2000), (0x800A08, 4, 0x90003), (0x800A0C, 4, 0x10000), (0x800A10, 4, 0x2), (0x800A14, 4, 0x1), (0x800A18, 4, 0x1), (0x800A1C, 1, 0x2),
    (0x800A50, 8, 0x4000), (0x800A58, 4, 0x1), (0x800B00, 8, 0x6000), (0x800B08, 4, 0x8), (0x800B0C, 1, 0x1), (0x800B0D, 1, 0x1), (0x800B0E, 2, 0x1),
    (0x4008, 8, 0x8000), (0x4018, 4, 0x7), (0x200000, 8, 0x202001), (0x202000, 8, 0x204001), (0x204000, 8, 0x206001), (0x206000, 8, 0x208001), (0x208000, 8, 0x7D),
    (0x208008, 8, 0x207D), (0x208010, 8, 0x407D), (0x208018, 8, 0x607D), (0x208020, 8, 0x807D), (0x208028, 8, 0xA07D)]).foldl
    (fun s p => physSet s p.1 (toBytes p.2.1 p.2.2)) s

def command (op : BitVec 16) (operands : List Byte) : MgmtMsg := ⟨0, 0, op, 7, operands ++ List.replicate 56 0⟩

/-- The state a meaning answers. -/
def ends (o : Host.Outcome State Fault Refusal) : State := match o with | .next s => s | _ => State.reset

/-- Node 5 on, with one record committed, fired, its first team ready, admitted, in the shadow bank, active. -/
def nodeOn : State := ends (execNodeon (command 0x11 [5, 0]) module_)
/-- A write with immediate of no bytes in the window of key 9. -/
def imm (x : Word) (va : Nat := 0) : CommitMsg := ⟨9, va, [], x⟩
def committed : State := ends (execHostCommit 0 1 (imm 0x00500001) nodeOn)
def fired : State := ends (execNodeFire 0 5 committed)
def readied : State := ends (execTeamReady 8 fired)
def admitted : State := ends (execTeamAdmit 8 readied)
def resident : State := ends (execTeamResident 0 8 admitted)
def active : State := ends (execBankSwap 0 resident)

theorem witness_HostRequestsComplete :
    (nexts (.hostCommit 0 1 (imm 0x00500001)) nodeOn && (node? nodeOn 0 5).any (fun N => N.on && N.root && N.qcap == 8) &&
      nexts (.hostCommit 0 1 (imm 0x00500009)) nodeOn && nexts (.roceInvalidRequest 0 1) nodeOn && (rdmaQp nodeOn 0 1).isSome) = true ∧
    ((node? (run (.hostCommit 0 1 (imm 0x00500008)) nodeOn) 0 5).map fun N => (N.committed, N.stream.length, N.refused)) = some (8, 8, 0) ∧
    ((node? (run (.hostCommit 0 1 (imm 0x00500009)) nodeOn) 0 5).map fun N => (N.committed, N.refused)) = some (0, 1) ∧
    (let w : RdmaReq := ⟨0, 1, 9, 0x7FFF, [1], 1⟩
      let x : RdmaReq := ⟨0, 1, 9, 0x8000, [1], 1⟩
      let Q : Qp := ⟨0, 1, 0, false, false⟩;
      (match rdmaPieces nodeOn Q w 1 true with
        | .ok (some ps) => ps.length == 1
        | _ => false) && (match rdmaPieces nodeOn Q x 1 true, rdmaPieces nodeOn Q x 1 false with
        | .ok none, .ok none => true
        | _, _ => false) && nexts (.rdmaWrite w) nodeOn && nexts (.rdmaRead w) nodeOn && nexts (.rdmaWrite x) nodeOn && nexts (.rdmaRead x) nodeOn) = true := by
  decide +kernel

theorem witness_HostRequestsComplete_never :
    ((node? nodeOn 0 6).isNone && (node? (run (.hostCommit 0 1 (imm 0x00600001)) nodeOn) 0 6).any fun N => !N.on && N.refused == 1) = true := by decide +kernel

/-- R498: away from a root node's queue a write with immediate is an invalid request. -/
theorem witness_HostRequestsComplete_away :
    (let s := modPart nodeOn 0 fun P => { P with nodes := [] };
      !overRoot s 0 9 && overRoot nodeOn 0 9 && (run (.hostCommit 0 1 (imm 0x00500001)) s).qps.any (fun q => q.num == 1 && q.error)) = true := by
  decide +kernel

/-- R520: a module stopped in bring-up takes no commit and no register write; R7, R503: a write-only register reads as 0, and a read of
Caltus's registers by another is counted. -/
theorem test_stopped_module :
    (takes { nodeOn with boot := .stopped 4 } (.hostCommit 0 1 (imm 0x00500001)), takes nodeOn (.hostCommit 0 1 (imm 0x00500001)),
      takes { nodeOn with boot := .stopped 4 } (.signedSidebandRequest ⟨1, 1, [], ⟨0, 0⟩, []⟩)) = (false, true, true) ∧
    (let s := mgmtRead (mgmtRead { State.reset with outbox := [] } 0 .service 0xF10) 1 (.caltus 1) 0xF10; (s.outbox, s.denied)) =
      ([.csrValue 0xF10 0, .csrValue 0x1F10 0], [(0, 1)]) := by decide +kernel

/-- R507: a byte of a secure region that Caltus disables is not read again. -/
theorem test_region_contents :
    (let s := { State.reset with mem := [(5, 7), (0x200000, 9)], regions := [(0, ⟨0xC000000000000000#64, 0, false⟩)] };
      (run (.regionWrite (.caltus 0) 0 0 0) s).mem) = [(0x200000, 9)] := by decide +kernel

/-- R453, R466, R492: the fields of a header stand at the bits of its table. -/
theorem test_headers :
    (let h := meshHeader 0x80 7 ⟨1, 19, 5⟩ ⟨3, 0, 4, 8, 77⟩;
      [h.toNat / 2 ^ 64, h.toNat / 2 ^ 60 % 16, h.toNat / 2 ^ 59 % 2, h.toNat / 2 ^ 54 % 32, h.toNat / 2 ^ 46 % 256, h.toNat / 2 ^ 32 % 256,
        h.toNat / 2 ^ 20 % 4096, h.toNat % 2 ^ 20]) = [0x80, 7, 1, 19, 5, 3, 8, 77] ∧
    (let f : JFlit := ⟨.credit, 212, 400, 9, 2, 3, true, .a48, 0x3EC, 100, 5, 8, 0, []⟩;
      [f.header.toNat / 2 ^ 76, f.header.toNat / 2 ^ 67 % 512, f.header.toNat / 2 ^ 58 % 512, f.header.toNat / 2 ^ 27 % 8,
        f.header.toNat / 2 ^ 10 % 128, f.header.toNat % 128]) = [1, 212, 400, 6, 100, 8] ∧
    (homeTile State.reset 0x5800001A80 = ⟨1, 4, 0⟩) := by decide +kernel

theorem witness_LaunchesProceed :
    (nexts (.nodeFire 0 5) committed && (node? committed 0 5).any (fun N => N.on && !N.stopping && N.coalesce ≤ N.stream.length && N.roomLive) &&
      nexts (.teamReady 8) fired && nexts (.teamAdmit 8) readied && nexts (.teamResident 0 8) admitted) = true ∧
    (let s := modPart nodeOn 0 fun P => { P with nodes := P.nodes.map fun q => (q.1, { q.2 with root := false, drainReq := true }) };
      nexts (.drainComplete 0 5) s && ((node? (run (.drainComplete 0 5) s) 0 5).map fun N => N.drains) == some 1) = true ∧
    (let s := modPart committed 0 fun P => { P with nodes := P.nodes.map fun q => (q.1, { q.2 with due := [(1, true)] }) };
      nexts (.drainComplete 0 5) s && ((node? (run (.drainComplete 0 5) s) 0 5).map fun N => (N.drains, N.due)) == some (1, [])) = true ∧
    (let s := modLaunch fired 1 fun L => { L with endedTeams := [0, 1] };
      nexts (.launchEnd 1) s && (smGet? (run (.launchEnd 1) s).launches 1).any fun L => L.ended) = true ∧
    ((team? resident 8).map fun T => (T.st, T.core, T.waves.length, T.created)) = some (.resident, 0, 3, true) ∧
    (let s := modLaunch (modPart readied 0 fun P => { P with account := -1 }) 1 fun L => { L with energy := 5 };
      nexts (.teamAdmit 8) s) = false := by decide +kernel

/-- Core 0 holds team 8 in its active bank (`a`) and team 16, of higher priority, in its shadow bank; both have images. -/
def banks (a : Bool) : State :=
  let s := memory 15
  let B : Team := { placeTeam with serial := 2, tag := 2, st := .resident, filled := true, base := 3, image := some 1 }
  let s := modTeam (setTeam s 16 B) 8 fun T => { T with image := some 0 }
  { modCore s 0 fun C => { C with active := if a then some 8 else none, shadow := some 16 } with now := 100 }

def bankOf (o : Host.Outcome State Fault Refusal) : Option (Option Nat × Option Nat) :=
  match o with
  | .next s => (core? s 0).map fun C => (C.active, C.shadow)
  | _ => none

theorem witness_BanksAndTeamsProceed :
    bankOf (exec (.bankSwap 0) (banks false)) = some (some 16, none) ∧ bankOf (exec (.bankSwap 0) (banks true)) = some (some 16, some 8) ∧
    (let s := modWave (banks true) 8 0 fun W =>
        { W with slices := W.slices.map fun x => { x with hold := .wait .counter }, blockedAt := some 0, blockTh := 50 };
      (bankOf (exec (.waitSwapTimeout 0) s), (team? s 8).map fun T => teamBlocked s 8 T)) =
      (some (some 16, some 8), some true) ∧
    nexts (.waitSwapTimeout 0) (banks true) = false ∧
    (let s := modTeam (banks true) 16 fun T => { T with filled := false };
      nexts (.contextFillComplete 0) s) = true ∧
    (nexts (.contextSaved 16) (banks true) && (team? (banks true) 16).any fun T => (imageBase (banks true) T).isSome && contextQuiet (banks true) 16 T) = true ∧
    (let s := modTeam (modCore (banks true) 0 fun C => { C with claims := [⟨8, false, 1, 3, none⟩] }) 8 fun T => { T with regSt := setAt T.regSt 1 .fresh };
      nexts (.claimComplete 0) s && (team? s 8).any fun T => T.unitSt false 1 == .fresh && 1 < T.regSt.length) = true ∧
    (let s := modCore (modTeam (banks true) 16 fun T => { T with ctxSaved := true }) 0 fun C => { C with phys := setAt C.phys 2 .clearing };
      nexts (.releaseClearComplete 0) s && (core? s 0).any fun C => C.phys.findIdx? (fun p => p == .clearing) == some 2) = true ∧
    (let s := modTeam (banks true) 8 fun T => { T with st := .ending };
      nexts (.teamEnd 8 7) s && (team? s 8).any (teamDone s 8)) = true := by decide +kernel

/-- Answers of a command: how many the outbox has, and its status. -/
def status (o : Host.Outcome State Fault Refusal) : Option (Nat × Nat) :=
  match o with
  | .next s => s.outbox.head?.map fun x => match x with
    | .answer _ _ _ st r => (st, r.toNat)
    | _ => (99, 0)
  | _ => none

theorem witness_CommandsComplete_teams :
    (nexts (.force (command 1 [1, 0, 0, 0])) (memory 15) && nexts (.kill (command 2 [1, 0, 0, 0])) (memory 15) &&
      (livingTeam (memory 15) 0 1).any (fun p => p.1 == 8) && isOk (served (memory 15) (command 1 [1, 0, 0, 0]))) = true ∧
    status (exec (.force (command 1 [9, 0, 0, 0])) (memory 15)) = some (2, 0) ∧ status (exec (.kill (command 2 [9, 0, 0, 0])) (memory 15)) = some (2, 0) ∧
    (let s := modTeam (memory 15) 8 fun T => { T with st := .ready };
      status (exec (.force (command 1 [1, 0, 0, 0])) s)) = some (0, 0) ∧
    nexts (.halt (command 3 [])) (memory 15) = true ∧
    status (exec (.halt (command 3 [])) (modPart (memory 15) 0 fun P => { P with haltst := 0x104 })) = some (0, 0) ∧
    status (exec (.unknownOp (command 0x99 [])) (memory 15)) = some (3, 0) ∧
    (let s := modPart (memory 15) 0 fun P => { P with calls := [⟨6, 8, 0, 0xFF⟩], svcreply := 5 };
      nexts (.svcdone 0 6) s && answers (.svcdone 0 7) s && ((wave? (run (.svcdone 0 6) s) 8 0).map fun W => (smGetD W.s 0 0).toNat) == some 5) = true ∧
    (answers (.flush 0) parking && answers (.replay 0) parking && answers (.flushThenReplay 0) parking &&
      fbGen (run (.flush 0) parking) 0 == 1 &&
      (let s := modWave parking 8 0 fun W => { W with stamp := 0xFFFF };
        (wave? (replayParked 0 (fbGen s 0) s (8, 0)) 8 0).any (·.replay) && (wave? s 8 0).any fun W => W.parked && !W.replay && W.stamp != fbGen s 0)) = true := by decide +kernel

theorem witness_CommandsComplete_nodes :
    status (exec (.nodetab (command 0x10 [0, 0x10])) module_) = some (0, 0) ∧ status (exec (.nodetab (command 0x10 [0, 1])) module_) = some (2, 0) ∧
    status (exec (.nodetab (command 0x10 [0, 0x10])) nodeOn) = some (0, 0) ∧ (nodeOn.outbox.length, nodeOn.parts.length) = (1, 1) ∧
    status (exec (.nodeon (command 0x11 [5, 0])) module_) = some (0, 0) ∧ status (exec (.nodeon (command 0x11 [0, 0x10])) module_) = some (2, 0) ∧
    (run (.nodeon (command 0x11 [5, 0])) nodeOn).outbox.length = 2 ∧ status (exec (.nodeon (command 0x11 [6, 0])) module_) = some (1, 264) ∧
    (nexts (.nodeoff (command 0x12 [5, 0])) nodeOn && nexts (.nodeoff (command 0x12 [0, 0x10])) nodeOn) = true ∧
    (let raise := command 0x18 ([5] ++ List.replicate 7 0 ++ [1] ++ List.replicate 7 0 ++ [3, 0, 3, 0])
      let same := command 0x18 ([5] ++ List.replicate 7 0 ++ [1] ++ List.replicate 7 0 ++ [3, 0, 0, 0])
      let over_ := command 0x18 ([5] ++ List.replicate 7 0 ++ [1] ++ List.replicate 7 0 ++ [0, 0, 1, 0]);
      ((asidOf (run (.asrec raise) module_) 5).raising, (asidOf (run (.asrec same) module_) 5).raising, status (exec (.asrec over_) module_))) =
      (some 3, none, some (1, 0)) ∧
    status (exec (.asrec (command 0x18 [64])) module_) = some (2, 0) := by decide +kernel

theorem witness_ManagementCompletes_csrs :
    (nexts (.schcfgWrite 0 5) module_ && answers (.schcfgWrite 0 0) module_ && nexts (.areaBaseWrite 0x880 0x2000) module_) = true ∧
    ((smGet? (run (.schcfgWrite 0 5) module_).parts 0).map fun P => P.schcfg) = some 5 ∧
    ((smGet? (run (.schcfgWrite 0 0x300000000) module_).parts 0).map fun P => P.schcfg) = (smGet? module_.parts 0).map (·.schcfg) ∧
    (run (.worldWrite 0 .service 0xF00 1) module_).denied ≠ module_.denied ∧
    (let s := { module_ with parts := [(0, { Part.blank [] with clean := true })] };
      nexts (.worldWrite 0 (.caltus 0) 0xF03 7) s && (List.range 64).all fun k => clusterFree s k) = true ∧
    (nexts (.mgmtCsrWrite 0 .service 0xF10 1) module_ && caltusOnly 0xF10 && nexts (.mgmtCsrWrite 0 (.caltus 0) 0xE07 9) module_) = true ∧
    ((core? (run (.mgmtCsrWrite 0 (.caltus 0) 0xE07 9) module_) 7).map (·.waitth)) = some 9 := by decide +kernel

theorem witness_ManagementCompletes_parts :
    (nexts (.mgmtCsrWrite 0 .service 0x885 1) module_ && fbGen (run (.mgmtCsrWrite 0 .service 0x885 1) module_) 0 == 1) = true ∧
    run (.mgmtCsrWrite 0 .service 0x888 1) module_ = module_ ∧ mgmtCsr module_ 0 .service 0x885 = 0 ∧
    ((smGet? (run (.mgmtCsrWrite 0 .service 0x883 7) module_).parts 0).map fun P => P.fbrd) = some 7 ∧
    (smGet? (run (.mgmtCsrWrite 0 .service 0x880 0x2000) module_).parts 0).any (fun P => P.fbbase == 0x2000 && P.sqPend.isEmpty) = true := by decide +kernel

theorem witness_ManagementCompletes_regions :
    let valid : DWord := 0x8000000000000000#64
    let c : Role := .caltus 0
    let s := { module_ with keys := [(1, 7), (2, 9)], covered := [] }
    let entry (i : Nat) (s : State) : Option (DWord × DWord × Bool) := (smGet? s.regions i).map fun r => (r.rega, r.regb, r.closed)
    -- an entry that is not valid, a valid one of key 1, the same of key 2, an empty slot, another requester
    entry 1 (run (.regionWrite c 1 0 5) s) = some (0, 5, false) ∧
    entry 2 (run (.regionWrite c 2 (valid + 0x80000000000000) 5) s) = some (valid + 0x80000000000000, 5, false) ∧
    (let t := { s with regions := [(2, ⟨valid + 0x80000000000000, 5, false⟩)] };
      entry 2 (run (.regionWrite c 2 (valid + 0x100000000000000) 5) t)) = some (valid + 0x100000000000000, 5, true) ∧
    (run (.regionWrite c 2 (valid + 0x180000000000000) 5) s).outbox = s.outbox ++ [.refusedWrite c 0x904] ∧
    (run (.regionWrite .service 2 0 5) s).denied ≠ s.denied ∧
    (let s := { module_ with regions := [(1, ⟨0, 0, true⟩)] };
      nexts (.regionRekeyComplete 0 1) s && (smGet? (run (.regionRekeyComplete 0 1) s).regions 1).any fun r => !r.closed) = true ∧
    (smGet? (run (.keyLoad ⟨c, 127⟩) module_).keys 127).isSome = true ∧
    ((run (.keyErase ⟨c, 0⟩) module_).outbox = module_.outbox ++ [.refusedWrite c 0xF10] ∧
      (smGet? (run (.keyErase ⟨c, 2⟩) s).keys 2) = none ∧ (run (.keyErase ⟨.service, 2⟩) s).denied ≠ s.denied) := by decide +kernel

theorem witness_ManagementCompletes_rest :
    (nexts (.allowanceWrite 0 9) module_ && nexts (.budgetSet (.caltus 0) ⟨1200, 0⟩) module_ && answers (.budgetSet (.caltus 0) ⟨3001, 0⟩) module_ && nexts .energyRefill module_ &&
      nexts (.clockStretch 0 3) module_ && nexts (.powerLimit 3) module_ && nexts (.stretchCountRead 0) module_) = true ∧
    ((run (.budgetSet (.caltus 0) ⟨1200, 7⟩) module_).budget, (run (.budgetSet (.caltus 0) ⟨3001, 7⟩) module_).budget,
      (run (.budgetSet .service ⟨1200, 7⟩) module_).budget) = (1200, module_.budget, module_.budget) ∧
    ((run (.stretchCountRead 0) (run (.clockStretch 0 3) module_)).outbox.map fun x => match x with
      | .csrValue n v => (n, v.toNat)
      | _ => (0, 0)) = [(0xF40, 3)] := by decide +kernel

theorem witness_ManagementCompletes_trust :
    (nexts (.mregExtend 1 (.caltus 1) 7 5) module_ && answers (.mregExtend 1 .board 0 5) module_) = true ∧ run (.mregExtend 1 .board 0 5) module_ = module_ ∧
    ((run (.mregExtend 1 (.caltus 1) 7 5) module_).mregs.map (·.1)).contains 15 = true ∧
    (let r : SideReq := ⟨0, 0, [], ⟨15, 1⟩, []⟩;
      nexts (.signedSidebandRequest r) module_ && (run (.signedSidebandRequest r) module_).outbox == [.sideband false]) = true := by decide +kernel

theorem witness_ManagementCompletes_report :
    nexts (.attestationReport 0 [7]) module_ = true := by decide +kernel

theorem witness_HaltAndReset_raise :
    let s := modPart (memory 15) 0 fun P => { P with clusters := [0] }
    (nexts (.fatalError 0 2 9 0x40) s && halted (run (.fatalError 0 2 9 0x40) s) 0) = true ∧
    (let t := modPart s 0 fun P => { P with halt := some ⟨4, 0xFFFF, 0, 0, [], 0⟩ };
      halted t 0 && (run (.fatalError 0 2 9 0x40) t).parts == t.parts) = true := by decide +kernel

/-- The partition of core 0, changed. -/
def halting (f : Part → Part) : State := modPart (memory 15) 0 fun P => f { P with clusters := [0] }
def haltInfo : HaltInfo := ⟨4, 0xFFFF, 0, 0, [], 0⟩

theorem witness_HaltAndReset_line :
    let t := halting fun P => { P with halt := some haltInfo }
    (nexts (.haltLineArrival 0 0) t && unitStopped (run (.haltLineArrival 0 0) t) 0 0 && !nexts (.haltHeaderWrite 0) t) = true := by decide +kernel

theorem witness_HaltAndReset_header :
    let t := halting fun P => { P with halt := some { haltInfo with arrived := partUnits P } }
    ((smGet? (run (.haltHeaderWrite 0) t).parts 0).any fun P => P.haltst == 0x104) = true := by decide +kernel

theorem witness_HaltAndReset_reset :
    (team? (run (.partitionReset ⟨.service, 0⟩) (halting fun P => { P with haltst := 0x104 })) 8).any (fun T => T.st == .ended) = true ∧
    (team? (run (.partitionReset ⟨.service, 0⟩) (halting id)) 8).any (fun T => T.st == .active) = true := by decide +kernel

/-- The digest of the three letters abc begins as FIPS 180-4 gives it. -/
theorem test_sha512_abc : ((Sha.digest [0x61#8, 0x62#8, 0x63#8]).take 8).map (·.toNat) = [0xdd, 0xaf, 0x35, 0xa1, 0x93, 0x61, 0x7a, 0xba] := by
  decide +kernel

/-- A bring-up whose second fuse word cannot be read: with no gateway it stops at step 4; with no fuse word at all, at step 2. -/
theorem witness_HaltAndReset_bringUp :
    (let b : Bringup := ⟨[true, false], [true, true], [], [], ⟨15, 1⟩, ⟨15, 1⟩, [], [], 7⟩;
      nexts (.moduleReset b) module_ && (run (.moduleReset b) module_).boot == .stopped 4) = true ∧
    (run (.moduleReset ⟨[false, false], [true, true], [], [], ⟨15, 1⟩, ⟨15, 1⟩, [], [], 7⟩) module_).boot = .stopped 2 ∧
    (let b (m : List (List Bool)) : Bringup := ⟨[true, true], [true, true], [], m, ⟨15, 1⟩, ⟨15, 1⟩, [], [], 7⟩;
      (run (.moduleReset (b [[false], [false]])) module_).boot == .stopped 4 && (run (.moduleReset (b [[], [false, true]])) module_).boot == .stopped 5 &&
        !imageOk module_.fuses (b [[], [false, true]]) 1 module_.fuses.version []) = true := by decide +kernel

/-- An octant, a context and a lane that each run a word, and an event. -/
theorem witness_StepRunsDecodedWord :
    (let s := placed 0x1400010141800000 15 [] [] []
      let s0 := beginTurn s ⟨.issue 0 0, 0, 0⟩ [];
      s.agenda == [⟨.issue 0 0, 0, 0⟩] && (core? s0 0).any (fun C => C.active == some 8 && !C.stopped && !C.swapping) &&
        (takeSlot s0 0 0).any (fun x => x.2.1 == 0 && (team? x.1 8).any fun T => (T.waves[0]?).any fun W => W.nextGang == some 0xFF#8 &&
          (match teamTr x.1 T .fetch 0 with
            | .ok pa key sec gen => homeCheck x.1 pa T.asid gen key sec false false == .perform
            | _ => false)) && decide (decode 0x1400010141800000 ≠ none)) = true ∧
    (match step (placed 0x1400010141800000 15 [] [] []) with
      | .next t => (wave? t 8 0).map (·.wclock.toNat)
      | _ => none) = some 8 ∧
    (let s := State.reset.withFetchWord 64 (0xDD * 2 ^ 54)
      let s0 := beginTurn s ⟨.contrail 0, 0, 0⟩ [];
      s.agenda == [⟨.contrail 0, 0, 0⟩] && contrailOrder s0 0 == [0] && (smGet? s0.ctxs 0).any (fun X => (team? s0 (teamKey X.part X.team)).any fun T =>
        (match fetchFor s0 (.context 0) 0 (some (ctxUnit 0, X.secure)) T 0 with
          | .word x _ => x == 0xDD * 2 ^ 54
          | _ => false)) && decide (decode (0xDD * 2 ^ 54) ≠ none) &&
        (match step s with
          | .next t => (smGet? t.ctxs 0).any fun X => X.st == .stopping
          | _ => false)) = true ∧
    (let s := State.reset.withFetchWord 64 (0xC0 * 2 ^ 54)
      let s0 := beginTurn s ⟨.lane 0, 0, 0⟩ [];
      s.agenda == [⟨.lane 0, 0, 0⟩] && (smGet? s0.clusters 0).any (fun C => (laneOf s0 0).any fun e => (C.passes[e.slot]?).any fun P =>
        !unitStopped s0 P.part (phUnit 0)) && (match step s with
          | .next _ => true
          | _ => false)) = true ∧
    (match step { memory 15 with agenda := [⟨.event .energyRefill, 0, 0⟩] } with
      | .next _ => true
      | _ => false) = true := by decide +kernel

/-- A word that waits leaves its context where it is. -/
theorem witness_StepRunsDecodedWord_waits :
    (let s := modCtx (State.reset.withFetchWord 64 ((encode (.swait (sw 8 0 0 0 0 0))).elim 0 (·.toNat))) 0 fun X => { X with kout := 1 };
      contrailOrder (beginTurn s ⟨.contrail 0, 0, 0⟩ []) 0 == [0] && (match step s with
        | .next t => stillWaits t 0 && (smGet? t.ctxs 0).any fun X => X.kpc == 0
        | _ => false)) = true := by decide +kernel

/-- An instruction that has a word, and a state whose memory has the canonical form and whose step goes on. -/
theorem witness_DecodeEncodeAgree :
    (Instr.iadd (aw 0 4 5 6 0)).wf = true ∧ (encode (.iadd (aw 0 4 5 6 0))).isSome = true := by decide

theorem witness_StepKeepsMemoryForm :
    Memory.wf (placed 0x1400010141800000 15 [] [] []).mem = true ∧ (match step (placed 0x1400010141800000 15 [] [] []) with
      | .next _ => true
      | _ => false) = true := by decide +kernel

/-! Values: the worked examples of spec/. Each test places one word, runs one step and reads one register. -/

/-- R94, R62, R69: -v5 + |v6| = 2 + 1, clamped to 1; the guard !p3 holds. -/
theorem test_fadd_neg_abs_sat :
    vOf (step (placed 0x9402C10141801880 1 [(160, 0xC0000000), (192, 0xBF800000)] [] [])) 4 0 = some (0x3F800000, 8) := by decide +kernel

/-- Worked example of 02: fmul.f32.d16. -/
theorem test_fmul_d16_subnormal :
    vOf (step (placed 0x1480010141800040 1 [(160, 0x40400000), (192, 0x800000)] [] [])) 4 0 = some (0x180000, 8) := by decide +kernel

/-- Worked example of 04: fma.f32.x2 v4, v5, v6, -v7. -/
theorem test_fma_x2 :
    vOf (step (placed 0x14C001014181C110 1 [(160, 0x3FC00000), (192, 0x40000000), (224, 0x3F800000)] [] [])) 4 0 =
      some (0x40800000, 8) := by decide +kernel

/-- Worked example of 04: cvt.f16.f32.rn. -/
theorem test_cvt_f16_tie :
    vOf (step (placed 0x1C040282C0000004 1 [(352, 0x3F801000)] [] [])) 10 0 = some (0x3C00, 8) := by decide +kernel

/-- Worked example of 04: the second word of the pair gives 4 … -/
theorem test_iaddc_n32_high :
    vOf (step (placed 0x0884004040C08000 1 [(32, 0x1), (96, 0x2)] [] [(2, 0x1)])) 1 0 = some (0x4, 8) := by decide +kernel

/-- … and the first sets p2. -/
theorem test_iaddc_n32_low_carry :
    pOf (step (placed 0x0884000000808000 1 [(0, 0xFFFFFFFF), (64, 0x1)] [] [])) 2 = some (0x1, 8) := by decide +kernel

/-- Worked example of 04: rfl.b32 s6, v9 under (p1). -/
theorem test_rfl_lowest_lane :
    uOf (step (placed 0x11C0718240000000 15 [(290, 0x28), (293, 0x32), (295, 0x46)] [] [(1, 0xA4)])) 6 = some (0x28, 8) := by decide +kernel

/-- Worked example of 04: pget s7, p0 under (p1). -/
theorem test_pget_p0 :
    uOf (step (placed 0x118071C000000000 15 [] [] [(1, 0xA4)])) 7 = some (0xA4, 8) := by decide +kernel

/-- Worked example of 04: lanes 0 to 3 of redux.add.f32. -/
theorem test_redux_add_tree :
    uOf (step (placed 0x1DD03200C0000000 15 [(96, 0x4B800000), (97, 0x3F800000), (98, 0x3F800000), (99, 0xCB800000)] [] [])) 8 =
      some (0x3F800000, 8) := by decide +kernel

/-- Worked example of 04: shfl.mirror.b32, each lane pair exchanges. -/
theorem test_shfl_mirror :
    vOf (step (placed 0x1D6C014140004000 3 [(160, 0x3), (161, 0x7)] [] [])) 5 0 = some (0x7, 8) := by decide +kernel

/-- Worked example of 04: a lane without a source takes the fill 0. -/
theorem test_shfl_mirror_fill :
    vOf (step (placed 0x1D6C014140004000 7 [(160, 0x3), (162, 0x7)] [] [])) 5 2 = some (0x0, 8) := by decide +kernel

/-- Worked examples of 02: conversions under round-to-nearest-even. -/
theorem test_cvt_e4m3_300 :
    vOf (step (placed 0x1C0C0282C0000000 1 [(352, 0x43960000)] [] [])) 10 0 = some (0x79, 8) := by decide +kernel

/-- Worked examples of 02: conversions under round-to-nearest-even. -/
theorem test_cvt_e4m3_500 :
    vOf (step (placed 0x1C0C0282C0000000 1 [(352, 0x43FA0000)] [] [])) 10 0 = some (0x7E, 8) := by decide +kernel

/-- Worked examples of 02: conversions under round-to-nearest-even. -/
theorem test_cvt_e5m2_300 :
    vOf (step (placed 0x1C100282C0000000 1 [(352, 0x43960000)] [] [])) 10 0 = some (0x5D, 8) := by decide +kernel

/-- Worked examples of 02: conversions under round-to-nearest-even. -/
theorem test_cvt_fp4_2p5 :
    vOf (step (placed 0x1C140282C0000000 1 [(352, 0x40200000)] [] [])) 10 0 = some (0x4, 8) := by decide +kernel

/-- Worked examples of 02: conversions under round-to-nearest-even. -/
theorem test_cvt_fp4_m0p2 :
    vOf (step (placed 0x1C140282C0000000 1 [(352, 0xBE4CCCCD)] [] [])) 10 0 = some (0x0, 8) := by decide +kernel

/-- Worked examples of 02: conversions under round-to-nearest-even. -/
theorem test_cvt_bf16_tie_odd :
    vOf (step (placed 0x1C080282C0000000 1 [(352, 0x3F818000)] [] [])) 10 0 = some (0x3F82, 8) := by decide +kernel

/-- Worked examples of 02: conversions under round-to-nearest-even. -/
theorem test_cvt_bf16_tie_even :
    vOf (step (placed 0x1C080282C0000000 1 [(352, 0x3F808000)] [] [])) 10 0 = some (0x3F80, 8) := by decide +kernel

/-- Worked example of 02: with H = 10 (toward zero). -/
theorem test_cvt_bf16_rz :
    vOf (step (placed 0x1C080282C0000008 1 [(352, 0x3F818000)] [] [])) 10 0 = some (0x3F81, 8) := by decide +kernel

/-- Worked example of 07: key, stream and counter 0 give +0. -/
theorem test_rng_key0 :
    vOf (step (placed 0x2D0401B231C00000 1 [] [] [])) 6 0 = some (0x0, 8) := by decide +kernel

/-- Worked example of 07, step 1. -/
theorem test_rsvupd_first :
    vOf (step (placed 0x2D40020406818000 1 [(192, 0x3F600000), (256, 0xFFFFFFFF), (288, 0x0), (320, 0x0), (352, 0x0), (384, 0x20000),
      (512, 0xB), (544, 0x3F800000), (576, 0x0), (608, 0x0), (640, 0x0), (832, 0x40000000)] [] [])) 8 0 =
      some (0xB, 8) := by decide +kernel

/-- Worked example of 07, step 2: not selected, M 2. -/
theorem test_rsvupd_second_m :
    vOf (step (placed 0x2D40020406818000 1 [(192, 0x3F000000), (256, 0xB), (288, 0x3F800000), (320, 0x40000000), (352, 0x0),
      (384, 0x1), (512, 0xC), (544, 0x40000000), (576, 0x0), (608, 0x0), (640, 0x0), (832, 0x3F800000)] [] [])) 12 0 =
      some (0x2, 8) := by decide +kernel

/-- Worked example of 07, step 3: WSUM 6.0. -/
theorem test_rsvupd_third_wsum :
    vOf (step (placed 0x2D40020406818000 1 [(192, 0x3E800000), (256, 0xB), (288, 0x3F800000), (320, 0x40400000), (352, 0x0),
      (384, 0x2), (512, 0xD), (544, 0x3F000000), (576, 0x0), (608, 0x0), (640, 0x0), (832, 0x40400000)] [] [])) 10 0 =
      some (0x40C00000, 8) := by decide +kernel

/-- Worked example of 07: RSVNRM, W = 4.0. -/
theorem test_rsvnrm_w :
    vOf (step (placed 0x2DC0020000000000 1 [(256, 0xD), (288, 0x3F000000), (320, 0x40C00000), (352, 0x0), (384, 0x3)] [] [])) 11 0 =
      some (0x40800000, 8) := by decide +kernel

/-- Worked example of 07, lane 1: FLAGS 0x0003, M 3. -/
theorem test_rsvnrm_null :
    vOf (step (placed 0x2DC0020000000000 1 [(256, 0x5), (288, 0x0), (320, 0x0), (352, 0x0), (384, 0x3)] [] [])) 12 0 =
      some (0x30003, 8) := by decide +kernel

/-- Worked example of 07: the callable's candidate, CAP 2, wsum' = 6.0. -/
theorem test_rsvmrg_cap :
    vOf (step (placed 0x2D80020600818008 1 [(64, 0x3FC00000), (192, 0x3F000000), (256, 0xFFFFFFFF), (288, 0x0), (320, 0x0),
      (352, 0x0), (384, 0x20000), (768, 0x4), (800, 0x0), (832, 0x0), (864, 0x40000000), (896, 0x4)] [] [])) 10 0 =
      some (0x40C00000, 8) := by decide +kernel

/-! Decoding: words of the worked examples of spec/, one or more for each family of the opcode table. -/

theorem test_decode_control : decode 0x8080BFFFFEC18004 = some (.bra ⟨true, 2, 0xFFFFFB, 6, 1⟩) := by decide
theorem test_decode_system : decode (0x8000000000000000 + 0x1B * 2 ^ 54 + 5 * 2 ^ 14) = some (.svc ⟨true, 0, 5⟩) := by decide
theorem test_decode_integer :
    decode 0x0820313100040000 = some (.iadd ⟨false, 8, 0, 0xC4, 0xC4, 0, 16, 0, 0, 0, false, 0, 0⟩) ∧
      decode 0x0884004040C08000 = some (.iaddc ⟨false, 1, 0, 1, 1, 3, 2, 0, 0, 0, false, 0, 0⟩) := by decide
theorem test_decode_float : decode 0x1400010141800000 = some (.fadd ⟨false, 0, 0, 4, 5, 6, 0, 0, 0, 0, false, 0, 0⟩) := by decide
theorem test_decode_convert : decode 0x1C040282C0000004 = some (.cvt ⟨false, 1, 0, 10, 11, 0, 0, 0, 0, 0, false, 0, 1⟩) := by decide
theorem test_decode_lanes :
    decode 0x1DD03200C0000000 = some (.redux ⟨false, 4, 0, 0xC8, 3, 0, 0, 0, 0, 0, false, 0, 0⟩) ∧
      decode 0x11C177C100000000 = some (.rfl ⟨false, 0, 5, 0xDF, 4, 0, 0, 0, 0, 0, false, 0, 0⟩) := by decide
theorem test_decode_paired : decode 0x460002080C080C18 = some (.pairedWord ⟨false, ⟨3, 0, 1, 4, 0⟩, ⟨3, 2, 3, 6, 0⟩⟩) := by decide
theorem test_decode_memory :
    decode 0x2010023101C11300 = some (.ld ⟨false, 4, 0, 8, 0xC4, 7, 4, 2, 1, 2, 0, 0⟩) ∧
      decode 0x220000F101C01700 = some (.atom ⟨false, 0, 0, 3, 0xC4, 7, 0, 2, 3, 2, 0, 0⟩) := by decide
theorem test_decode_scratchpad :
    decode 0x20900230BE008000 = some (.lds ⟨false, 4, 0, 8, 0xC2, 0xF8, 2, 0, 0, 0, 0, 0⟩) ∧
      decode 0x211000B67E001200 = some (.ldp ⟨false, 4, 0, 2, 0xD9, 0xF8, 0, 2, 1, 0, 0, 0⟩) ∧
      decode 0x20D98607BE000000 = some (.sts ⟨false, 6, 6, 24, 30, 0xF8, 0, 0, 0, 0, 0, 0⟩) := by decide
theorem test_decode_synchronise :
    decode 0x24A030F080004000 = some (.cbarv ⟨false, 8, 0, 0xC3, 0xC2, 0, 1, 0⟩) ∧
      decode 0x25000032B3000000 = some (.tlwait ⟨false, 0, 0, 0, 0xCA, 0xCC, 0, 0⟩) := by decide
theorem test_decode_records :
    decode 0x2700003500000000 = some (.emit ⟨false, 0, 0, 0, 0xD4, 0, 0, 0⟩) ∧
      decode 0x2740353E00000000 = some (.emitr ⟨false, 0, 0, 0xD4, 0xF8, 0, 0, 0⟩) := by decide
theorem test_decode_matrix : decode 0x2880323333B41000 = some (.mxloop ⟨false, 0, 0, 0xC8, 0xCC, 0xCE, 0xD0, 0x400⟩) := by decide
theorem test_decode_jetstream : decode 0x2A803B7A80000000 = some (.jchain ⟨false, 0, 0, 0xED, 0xEA, 0, 0, 0⟩) := by decide
theorem test_decode_ray :
    decode 0x2C400A0805000000 = some (.rttri ⟨false, 0, 0, 40, 32, 20, 0, 0⟩) ∧
      decode 0x2C0082000A000000 = some (.rtbox ⟨false, 0, 2, 8, 0, 40, 0, 0⟩) ∧
      decode 0x2D0501B231C00000 = some (.rng ⟨false, 1, 4, 6, 0xC8, 0xC7, 0, 0⟩) := by decide
theorem test_decode_reservoir :
    decode 0x2D80420600818030 = some (.rsvmrg ⟨false, 0, 1, 8, 24, 2, 6, 12⟩) ∧
      decode 0x2D40420404818000 = some (.rsvupd ⟨false, 0, 1, 8, 16, 18, 6, 0⟩) := by decide
theorem test_decode_stream :
    decode 0x3504024081018000 = some (.scopy ⟨false, 1, 0, 9, 2, 4, 6, 0⟩) ∧
      decode 0x35C00200400080C0 = some (.smcast ⟨false, 0, 0, 8, 1, 0, 2, 0x30⟩) := by decide

/-- The opcode 0xFF is reserved (04: the opcode map), and a word shorter than eight bytes is none. -/
theorem test_decode_reserved : decode (0xFF * 2 ^ 54) = none ∧ decodeBytes [0, 0, 0, 0] = none := by decide

/-! Well-formedness: a word for each check, which the check refuses. -/

theorem test_ill_formed_control :
    (Instr.bra ⟨false, 0, 0, 0, 0⟩).wf = false ∧ (Instr.brx ⟨true, 1, 0, 0, 0⟩).wf = false ∧ (Instr.call ⟨true, 0, 0, 0, 1⟩).wf = false ∧
      (Instr.ret ⟨true, 0, 1, 0⟩).wf = false ∧ (Instr.eret ⟨false, 0⟩).wf = false ∧ (Instr.ill (1#64 <<< 54)).wf = false ∧
      (Instr.svc ⟨false, 0, 0⟩).wf = false := by decide
theorem test_ill_formed_csr : (Instr.csrr (csrWord 3 0 0 0)).wf = false ∧ (Instr.csrw (csrWord 0 1 0 0)).wf = false := by decide
theorem test_ill_formed_alu :
    (Instr.iadd (aw 0 0 0 0 0 1)).wf = false ∧ (Instr.imulh (aw 4 0 0 0 0)).wf = false ∧ (Instr.sar (aw 1 0 0 0 0)).wf = false ∧
      (Instr.icmp (aw 0 0 0 0 0 6)).wf = false ∧ (Instr.movl (aw 0 0 0 0 0)).wf = false ∧ (Instr.pand (aw 0 0 0xC0 0 0)).wf = false ∧
      (Instr.fadd (aw 3 0 0 0 0)).wf = false ∧ (Instr.fdot4 (aw 0 0 0 0 0)).wf = false ∧ (Instr.cvt (aw 6 0 0 0 0)).wf = false ∧
      (Instr.redux (aw 4 0 0 0 0 6)).wf = false ∧ (Instr.vote (aw 6 0 0 0 0)).wf = false ∧ (Instr.matchl (aw 4 0 0 0 0)).wf = false ∧
      (Instr.pack (aw 0 0 0 0 0)).wf = false ∧ (Instr.cvtq (aw 3 0 0 0 0)).wf = false := by decide
theorem test_ill_formed_memory :
    (Instr.ld (mw 7 0 0 0 0 0 0 0)).wf = false ∧ (Instr.st (mw 1 0 0 0 0 0 0 0)).wf = false ∧ (Instr.ld (mw 4 0 0 0 0 0 2 0)).wf = false ∧
      (Instr.st (mw 4 0 0 0 0 0 1 0)).wf = false ∧ (Instr.ldp (mw 4 0 0 0 0 0 0 0)).wf = false ∧ (Instr.atom (mw 0 0 0 0 0 5 0 0)).wf = false ∧
      (Instr.red (mw 0 0 0 0 0 0 0 6)).wf = false ∧ (Instr.cinv (mw 1 0 0 0 0 0 0 0)).wf = false ∧ (Instr.fence (mw 0 0 0 0 0 5 0 0)).wf = false := by
  decide
theorem test_ill_formed_engines :
    (Instr.cexec (sw 0 0 0 0 0xC9 0)).wf = false ∧ (Instr.mcast (sw 0 0 0 0 0 0)).wf = false ∧ (Instr.mxcfg (sw 3 0 0 0 0 0)).wf = false ∧
      (Instr.mxmask (sw 4 0 0 0 0 0)).wf = false ∧ (Instr.rtrace (sw 3 0 0 0 0 0)).wf = false ∧ (Instr.cparg (sw 8 0 0 0 10 0)).wf = false ∧
      (Instr.kst (sw 1 0 0 0 0 0x400)).wf = false ∧ (Instr.agset (sw 0 0 0 0 0 0)).wf = false ∧ (Instr.agstep (sw 0 1 0 1 0 0)).wf = false ∧
      (Instr.tlinc (sw 8 0 0 0 0 0x400)).wf = false ∧ (Instr.pairedWord ⟨false, ⟨0x15, 0, 0, 0, 0⟩, ⟨0, 0, 0, 0, 0⟩⟩).wf = false := by decide

/-! The machine. -/

/-- The worked example of R174: a branch of lanes 0 and 2 of four at 0x1000, target 0x1018, RPC 0x1020; the path at the RPC gives way to the
one held back, which rejoins it there. -/
theorem test_divergence :
    reconvergeStack (0x1020 / 8) 0x5 [⟨0xA, 0x1008 / 8, 0x1020 / 8⟩] = (0x1008 / 8, 0xA, [⟨0x5, 0x1020 / 8, 0x1020 / 8⟩], true) ∧
      reconvergeStack (0x1020 / 8) 0xA [⟨0x5, 0x1020 / 8, 0x1020 / 8⟩] = (0x1020 / 8, 0xF, [], true) := by decide

/-- R180, R182: TRAP 7 with the handler at word 0x40 enters it with the saved PC of its own word and IN_TRAP set; without a handler the launch is
killed. -/
theorem test_trap_entry :
    ((waveOf (exec (.trap ⟨true, 0, 7⟩) handled)).map fun W => (W.cause.toNat, W.intrap, W.wtraparg.toNat, (W.slice 0).pc.toNat)) =
      some (0x30, true, 7, 0x40) ∧
      ((team? (run (.trap ⟨true, 0, 7⟩) targets) 8).map fun T => (T.st, T.killed)) = some (.ended, true) := by decide +kernel

/-- The worked example of 07: the ray through (1/4, 1/4) meets the triangle at t = 1 with u = v = 1/4. -/
theorem test_rttri :
    let s := run (.rayUnitComplete 0 0) (run (.rttri (sw 0 40 32 20 0 0)) withTriangle)
    ((wave? s 8 0).map fun W => (List.range 4).map fun i => (smGetD W.v (32 * (40 + i)) 0).toNat) =
      some [0x3F800000, 0x3E800000, 0x3E800000, 3] := by decide +kernel

/-- R341: a byte written at an address reads back there, the default elsewhere, and writing the default removes the entry. -/
theorem test_memory :
    memGet (memSet [] 5 7) 5 = 7 ∧ memGet (memSet [] 5 7) 6 = 0 ∧ memSet (memSet [] 5 7) 5 0 = [] ∧
      memSet (memSet [] 9 1) 5 7 = [(5, 7), (9, 1)] := by decide

/-- The worked example of 10: the physical address 0x58_0000_1A80 is offset 0x8_0000_1A80 of stack 5. -/
theorem test_stack_of_address : (place State.reset 0x5800001A80).map (fun p => (p.stack, p.off)) = some (5, 0x800001A80) := by decide

/-- A generator over 3 by 2 elements at its last position but one, and the word agstep k10, ag0, k10. -/
theorem witness_AddressGeneratorSteps :
    (let s := modCtx streamer 0 fun X => { X with ags := setAt X.ags 0 ⟨0x1000, [3, 2, 0, 0, 0], [4, 64, 0, 0, 0], [2, 0, 0, 0, 0], 0x1008, 2, false, 4⟩ }
      let X := ctx0 (run (.agstep (sw 0 10 0 11 0 0)) s);
      (Instr.agstep (sw 0 10 0 11 0 0)).wf && nexts (.agstep (sw 0 10 0 11 0 0)) s && (kopens s [] [10, 11]).isSome &&
        (X.ags[0]?).any (fun g => g.pos == [0, 1, 0, 0, 0] && g.addr == 0x1040 && g.left == 3 && !g.done) && smGetD X.k 10 0 == 0x1008 &&
        smGetD X.k 11 0 == 3) = true ∧
    (let s := State.reset.withFetchWord 64 (0xD3 * 2 ^ 54 + 10 * 2 ^ 38 + 10 * 2 ^ 22)
      let s0 := beginTurn s ⟨.contrail 0, 0, 0⟩ [];
      s.agenda == [⟨.contrail 0, 0, 0⟩] && contrailOrder s0 0 == [0] && (smGet? s0.ctxs 0).any (fun X => (team? s0 (teamKey X.part X.team)).any fun T =>
        (match fetchFor s0 (.context 0) 0 (some (ctxUnit 0, X.secure)) T (X.kpc.toNat * 8) with
          | .word x _ => opcOf x == 0xD3 && !pairedBit x
          | _ => false)) &&
        (match step s with
          | .next t => (smGet? t.ctxs 0).any fun X => X.st == .faulting && X.kcause == 0x01
          | _ => false)) = true := by decide +kernel

/-! Witnesses of further forms. -/

/-- Every other operation of REDUX and SCAN, an exclusive scan among them. -/
theorem witness_LaneWordsComplete_operations :
    (((List.range 5).all fun k => meets ints (row1 .redux (aw 1 0xC6 5 0 0 (k + 1))) && meets ints (row1 .scan (aw 9 4 5 0 0 (k + 1)))) &&
      (List.range 2).all fun k => meets floats (row1 .redux (aw 4 0xC6 5 0 0 (k + 1))) && meets floats (row1 .scan (aw 12 4 5 0 0 k))) = true := by
  decide +kernel

/-- Every integer word in a context; in a lane of a callable evaluation every one, every float word, every conversion. -/
def rowsRun (n : Nat) (rows : AluW → List Row) (good : AluW → Row → Bool) (fs : List AluW) : Bool :=
  (List.range n).all fun k => fs.any fun f => ((rows f)[k]?).any (good f)
def laneRuns (f : AluW) (r : Row) : Bool :=
  r.i.wf && namedC f r.i && nexts r.i lane && (readyLane lane fun e => do
    Eval.open (r.srcs.map fun p => Regs.ofW p.1 p.2) [Regs.ofW 8 r.n] false
    e.checkPoison (r.srcs.map fun p => Regs.ofW p.1 p.2)).isSome

theorem witness_OtherProfilesComplete_stream :
    rowsRun 28 intRows (fun f r => r.i.wf && aluStreamOk f r.own && nexts r.i kints && (readyCtx kints fun c => do
      c.open (r.srcs.map (·.1)) [9]
      c.checkPoison (r.srcs.map (·.1))).isSome) [aw 1 9 4 6 0, aw 1 9 4 6 5, aw 1 9 4 0 0, aw 0 9 4 6 0, aw 9 9 0 0 5] = true ∧
    (intRows (aw 1 9 4 6 0)).length = 28 := by decide +kernel

theorem witness_OtherProfilesComplete_words :
    let b (g rdist : Nat) : BraW := ⟨true, BitVec.ofNat 4 g, 3#24, BitVec.ofNat 8 rdist, 0⟩;
    ((Instr.iaddc (aw 1 9 4 6 5)).wf && nexts (.iaddc (aw 1 9 4 6 5)) kints && (Instr.nop ⟨false, 0⟩).wf && nexts (.nop ⟨false, 0⟩) kints &&
      ([b 0 0, b 1 4, b 9 4].all fun f => (Instr.bra f).wf && nexts (.bra f) kints) &&
      (kopens kints [4, 6, 5] [9, 5]).isSome && (kopens kints [4] []).isSome && (readyCtx kints fun _ => .ok ()).isSome) = true ∧
    ([0x101, 0x102, 0x103, 0x104].all fun n => (Instr.csrr (csrWord 1 9 0 n)).wf && nexts (.csrr (csrWord 1 9 0 n)) kints) = true := by decide +kernel

theorem witness_OtherProfilesComplete_lane :
    rowsRun 28 intRows laneRuns [aw 1 8 4 6 0, aw 1 8 4 6 2, aw 1 8 4 0 0, aw 0 8 4 6 0, aw 9 8 0 0 5] = true := by decide +kernel

theorem witness_OtherProfilesComplete_lane_floats :
    rowsRun 33 laneRows laneRuns [aw 6 8 4 6 2, aw 0 8 4 6 0, aw 0 8 4 0 0, aw 1 8 4 6 0, aw 1 8 4 6 2, aw 5 8 4 6 0xF8, aw 0 8 4 6 2,
      aw 3 8 4 6 2, aw 1 8 4 0 0] = true ∧ (laneRows (aw 0 8 4 6 0)).length = 33 := by decide +kernel

theorem witness_OtherProfilesComplete_lane_words :
    (([(.sel (aw 1 8 4 6 2)), (.icmp (aw 0 2 4 6 0)), (.fcmp (aw 0 2 4 6 0)), (.iaddc (aw 1 8 4 6 2)), (.pset (aw 0 2 4 0 0)), (.pget (aw 0 8 2 0 0)),
      (.pand (aw 0 2 3 4 0)), (.por (aw 0 2 3 4 0)), (.pxor (aw 0 2 3 4 0)), (.pnot (aw 0 2 3 0 0)), (.pmov (aw 0 2 3 0 0)),
      (.rng (sw 0 8 0xC4 4 5 0)), (.nop ⟨false, 0⟩), (.bra ⟨true, 0, 3#24, 0, 0⟩), (.csrr (csrWord 0 0xC8 0 0x020))] : List Instr).all fun i =>
      i.wf && nexts i lane) = true := by decide +kernel

/-- A load with acquire holds its gang, and a load of another gang waits for it; the lanes whose page is not there park the wave. -/
def acquiring_ : State := run (.ld { ldWord with ord := 1#2 }) (memory 1)

theorem witness_LoadWordsComplete_acquire :
    ((Instr.ld { ldWord with ord := 1#2 }).wf && planned (memory 1) { ldWord with ord := 1#2 } .read false 4 && nexts (.ld { ldWord with ord := 1#2 }) (memory 1) &&
      (wave? acquiring_ 8 0).any fun W => W.wclock == 0) = true ∧
    (let s := modWave acquiring_ 8 0 fun W => { W with slices := W.slices.map fun x => { x with hold := .free } };
      acquireOut { s with cur := .wave 8 0 1#8 } 8 0 1#8 = true ∧ nexts (.ld ldWord) { s with cur := .wave 8 0 1#8 } = true) := by decide +kernel

theorem witness_LoadWordsComplete_parked :
    let s := modTeam (memory 15) 8 fun T => { T with ext := [{ placeExtent with kind := 2#2 }] };
    (nexts (.ld ldWord) s && (opens s [Regs.pair 0xC4, Regs.one 0xF9] [] false).any fun c =>
      match planLanes c.s c.T .read 4 (c.addrs false (c.gAddr ldWord 4)) with
      | .ok p => !p.parked.isEmpty
      | .error _ => false) = true := by decide +kernel

/-- A reproducible team (R51, R52): a gang of some live slices, and one whose turn has not come or has. -/
def reproducing (g : BitVec 8) (turn : Bool) : State :=
  { modTeam (modWave (memory 15) 8 0 fun W => { W with whandler := 0x201#64, ordered := turn }) 8 fun T => { T with repro := true } with cur := .wave 8 0 g }

theorem witness_ScratchWordsComplete_ordered :
    let f : MemW := { ldsWord with var := 1#4 };
    (causeAfter (.atoms f) (reproducing 1#8 true)).isSome = true ∧ nexts (.atoms f) (reproducing 0xFF#8 true) = true ∧
    (let s := reproducing 0xFF#8 false
     let s := modTeam s 8 fun T => { T with waves := T.waves.map fun W => { W with slices := W.slices } };
     (gangOf s).isFirst = true ∧ nexts (.atoms f) s = true) := by decide +kernel

theorem witness_OrderedAppend_forms :
    let f : SysW := sw 0 9 0xCA 8 0 0
    let u : SysW := sw 0 0xD0 0xCA 0xC8 0 0;
    (causeAfter (.append f) (reproducing 1#8 true)).isSome = true ∧ nexts (.append f) (reproducing 0xFF#8 true) = true ∧
    ((Instr.append u).wf && nexts (.append u) (memory 15) && (opens (memory 15) [.one u.a, .one u.b] [.one u.d] true).isSome &&
      (Regs.one u.d).dstOk 192) = true := by decide +kernel

/-- The counted barriers in their cluster form: the peer is the core of the team itself. -/
theorem witness_CountedBarrierWordsComplete_cluster :
    let f (d b : Nat) : SysW := sw 9 d 0xC6 0 b 0;
    ((Instr.cbinit (f 0 1)).wf && nexts (.cbinit (f 0 1)) barriers && (Instr.cbarv (f 0xC8 1)).wf && nexts (.cbarv (f 0xC8 1)) barriers &&
      (Instr.cbwait (f 0 4)).wf && nexts (.cbwait (f 0 4)) barriers && nexts (.cbwait (f 0 5)) barriers) = true ∧
    (opens barriers [.one 0xC6] [] true).any (fun c => (checkPeers c.s c.T 16 [(0, c.reg 0xC6 0)]).toOption.isSome &&
      (peerTeam c.s c.T (c.reg 0xC6 0)).any fun p => p.1 == 8) = true ∧
    -- a store to the object is queued
    (let s := modWave barriers 8 0 fun W => { W with storeQ := [.peer 8 0x48 [1, 0, 0, 0] false []] };
      objectQueued (gangOf s).W.storeQ 8 8 0x40 = true ∧ nexts (.cbwait (sw 8 0 0xC6 0 4 0)) s = true) := by decide +kernel

/-- CEXEC with a misaligned entry, with the engine in the other world, and with no context to take. -/
theorem witness_ContextWordsComplete_stops :
    let f : SysW := sw 0 0xD0 0xC4 0xCA 0xC8 0
    let s := modWave starting 8 0 fun W => { W with whandler := 0x201#64 };
    causeAfter (.cexec f) (modWave s 8 0 fun W => { W with s := smSet W.s 4 0x1004#32 }) = some 0x08 ∧
    (let t := modTeam s 8 fun T => { T with secure := !T.secure };
      contrailSecure t 0 0 ≠ (gangOf t).T.secure ∧ causeAfter (.cexec f) t = some 0x0A) ∧
    (let t := { s with ctxs := [(0, { Ctx.blank with st := .running }), (1, { Ctx.blank with st := .running })] };
      nexts (.cexec f) t = true ∧ [0, 1].all (fun x => !(smGet? t.ctxs x).any fun X => X.st == .stopped || X.st == .faulted) = true) := by
  decide +kernel

/-- QPUSH into a FIFO that streams or is closed, AGSTEP of a generator that is done, and STOPC after a copy has failed. -/
theorem witness_StreamWordsComplete_stops :
    ([Fifo.mk .streaming [] none, Fifo.mk .closed [] none].all fun q =>
      let s := modTeam streamer 8 fun T => { T with fifos := T.fifos.map fun _ => q };
      nexts (.qpush (sw 4 10 2 8 0 0)) s && (smGetD (ctx0 (run (.qpush (sw 4 10 2 8 0 0)) s)).k 10 0 == 0)) = true ∧
    (let s := modCtx streamer 0 fun X => { X with ags := X.ags.map fun g => { g with done := true }, k := smSet X.k 10 9#64 };
      smGetD (ctx0 s).k 10 0 = 9 ∧ smGetD (ctx0 (run (.agstep (sw 0 10 0 11 0 0)) s)).k 10 0 = 0) ∧
    (let s := modCtx streamer 0 fun X => { X with copyFail := true };
      (ctx0 (run (.stopc (sw 0 0 0 0 0 0)) s)).st = .faulting ∧ (ctx0 (run (.stopc (sw 0 0 0 0 0 0)) s)).kcause = 0x1A) := by decide +kernel

end Sys2Proof.Tests
end

