-- ==== Sys2Proof/Proofs/Reset.lean ====
section
/-! SUPPORT. The tables of the state after reset, and O60. -/

namespace Sys2Proof.Machine

variable {α : Type}

/-- A table built over the numbers of a list gives every number of it the entry it was built with. -/
theorem smGet?_map_mem (f : Nat → α) {k : Nat} {ks : List Nat} (h : k ∈ ks) :
    smGet? (ks.map fun j => (j, f j)) k = some (f k) := by
  induction ks with
  | nil => cases h
  | cons j ks ih =>
    by_cases hj : k = j
    · simp [smGet?, hj]
    · have hk : k ∈ ks := (List.mem_cons.mp h).resolve_left hj
      simp [smGet?, hj, ih hk]

theorem smGet?_map_range (f : Nat → α) {k n : Nat} (h : k < n) :
    smGet? ((List.range n).map fun j => (j, f j)) k = some (f k) :=
  smGet?_map_mem f (List.mem_range.mpr h)

theorem smGetD_nil (k : Nat) (d : α) : smGetD ([] : SMap α) k d = d := rfl

theorem reset_part {p : Nat} (h : p < 8) : smGet? State.reset.parts p = some (Part.blank []) :=
  smGet?_map_range (fun _ => Part.blank []) h

theorem reset_core {c : Nat} (h : c < 400) : core? State.reset c = some (Core.blank false) :=
  smGet?_map_range (fun _ => Core.blank false) h

/-- The first slices of a new wave are live at its entry, the others are not (R18). -/
theorem fresh_slice (n : Nat) (entry : BitVec 53) {i : Nat} (h : i < 8) :
    (Wave.fresh n entry).slice i = if i < n then Slice.fresh true entry else Slice.dead := by
  simp [Wave.slice, Wave.fresh, h]

theorem fresh_pred (n : Nat) (entry : BitVec 53) (k : Nat) :
    (Wave.fresh n entry).pred k = if k = 0 then BitVec.allOnes 32 else 0 := by
  simp [Wave.pred, Wave.fresh, smGetD_nil]

theorem blank_mp (serial tag launch part index core : Nat) {i : Nat} (h : i < 4) :
    (Team.blank serial tag launch part index core).mp[i]? = some (BitVec.allOnes 128) :=
  List.getElem?_replicate_of_lt h

theorem blank_np (serial tag launch part index core : Nat) {i : Nat} (h : i < 8) :
    (Team.blank serial tag launch part index core).np[i]? = some (BitVec.allOnes 128) :=
  List.getElem?_replicate_of_lt h

theorem blank_fifos (serial tag launch part index core : Nat) {i : Nat} (h : i < 4) :
    (Team.blank serial tag launch part index core).fifos[i]? = some ⟨.idle, [], none⟩ :=
  List.getElem?_replicate_of_lt h

end Sys2Proof.Machine

namespace Sys2Proof.Claims

open Sys2Proof Sys2Proof.Machine

/-- Settles O60: every part is read off the tables and records that reset and creation build. -/
theorem resetState : Obligations.ResetState := by
  refine ⟨rfl, rfl, rfl, fun _ => reset_part, fun _ h => ⟨_, reset_core h, rfl, rfl, rfl, rfl, rfl⟩, fun _ => rfl, rfl, rfl,
    fun n entry i hi => ?_, fun n entry k => ?_, fun _ _ _ _ _ _ _ => ?_, fun _ => ⟨rfl, rfl⟩, fun _ => rfl, fun _ => rfl⟩
  · simp only [fresh_slice n entry hi]
    exact ⟨fun h => if_pos h, fun h => by rw [if_neg (Nat.not_lt.mpr h)]; rfl⟩
  · refine ⟨rfl, rfl, fresh_pred n entry 0, fun h => ?_, rfl, rfl, rfl, rfl, rfl⟩
    rw [fresh_pred, if_neg h]
  · exact ⟨fun h => ⟨blank_mp _ _ _ _ _ _ h, blank_fifos _ _ _ _ _ _ h⟩, blank_np _ _ _ _ _ _⟩

end Sys2Proof.Claims
end

