-- ==== Sys2Proof/Proofs/MemoryFrame.lean ====
section
/-! SUPPORT. Frame lemmas: the functions of the model that write no memory. -/

namespace Sys2Proof.Machine

/-- An alternative of an option that leaves memory alone leaves it alone. -/
@[simp] theorem elim_mem {α : Type} (o : Option α) (s : State) (f : α → State) (h : ∀ x, (f x).mem = s.mem) :
    (o.elim s f).mem = s.mem := by
  cases o
  · rfl
  · exact h _

@[simp] theorem postMail_mem (s : State) (f : MailFlit) : (postMail s f).mem = s.mem := by
  unfold postMail
  split <;> simp

@[simp] theorem lineUp_mem (s : State) (p : Nat) (h : HaltInfo) : (lineUp s p h).mem = s.mem := by
  unfold lineUp
  (repeat' split) <;> simp [foldl_keeps_mem]

@[simp] theorem raiseHalt_mem (s : State) (p reason origin addr : Nat) :
    (raiseHalt s p reason origin addr).mem = s.mem := by
  simp [raiseHalt]

@[simp] theorem pathFailed_mem (s : State) (m : Nat) : (pathFailed s m).mem = s.mem := by
  simp [pathFailed, foldl_keeps_mem]

@[simp] theorem nextRid_mem (s : State) (core : Nat) : (nextRid s core).2.mem = s.mem := by
  unfold nextRid
  rfl

@[simp] theorem nextCtxRid_mem (s : State) (x : Nat) : (nextCtxRid s x).2.mem = s.mem := by
  unfold nextCtxRid
  rfl

@[simp] theorem noteWaits_mem (s : State) : (noteWaits s).mem = s.mem := by
  unfold noteWaits
  exact foldl_same State.mem _ (fun a p => by split <;> rfl) _ s

@[simp] theorem wakeOn_mem (s : State) (cluster : Nat) : (wakeOn s cluster).mem = s.mem := by
  simp [wakeOn, foldl_keeps_mem]

@[simp] theorem setLane_mem (s : State) (k : Nat) (e : Eval) : (setLane s k e).mem = s.mem := by
  unfold setLane
  rfl

@[simp] theorem WCtx.send_mem (c : WCtx) (W : Wave) (bnd : Bool) (vals : Nat → Nat) :
    (WCtx.send c W bnd vals).mem = c.s.mem := by
  simp [WCtx.send]

@[simp] theorem retireHeld_mem (s : State) (t w : Nat) (g : BitVec 8) (bnd : Bool) :
    (retireHeld s t w g bnd).mem = s.mem := by
  simp [retireHeld]

@[simp] theorem tryBar_mem (s : State) (t : Nat) : (tryBar s t).mem = s.mem := by
  unfold tryBar
  (repeat' split) <;> simp

@[simp] theorem claimUnit_mem (s : State) (t : Nat) (tile : Bool) (i : Nat) : (claimUnit s t tile i).mem = s.mem := by
  unfold claimUnit
  dsimp only
  (repeat' split) <;> rfl

@[simp] theorem needUnits_mem (s : State) (t : Nat) (tile : Bool) (is : List Nat) :
    (needUnits s t tile is).1.mem = s.mem := by
  simp [needUnits, foldl_keeps_mem]

@[simp] theorem addReq_mem (s : State) (r : MemReq) : (addReq s r).mem = s.mem := by
  unfold addReq
  rfl

@[simp] theorem loadLane_mem (s : State) (t w : Nat) (g : BitVec 8) (f : MemW) (cached : Bool) (x : OkLane) :
    (loadLane s t w g f cached x).1.mem = s.mem := by
  unfold loadLane
  dsimp only
  (repeat' split) <;> simp

@[simp] theorem queueLane_mem (s : State) (t w : Nat) (g : BitVec 8) (f : MemW) (kind : ReqKind) (size : Nat)
    (data cmp : List Byte) (x : OkLane) : (queueLane s t w g f kind size data cmp x).mem = s.mem := by
  unfold queueLane
  split <;> rfl

@[simp] theorem sendReq_mem (s : State) (r : MemReq) : (sendReq s r).mem = s.mem := by
  unfold sendReq
  split <;> rfl

@[simp] theorem afterDrain_mem (s : State) (t w : Nat) : (afterDrain s t w).mem = s.mem := by
  simp [afterDrain]

@[simp] theorem sendPeer_mem (s : State) (who : Requester) (u off : Nat) (bs : List Byte) :
    (sendPeer s who u off bs).mem = s.mem := by
  unfold sendPeer
  split <;> rfl

@[simp] theorem drainCtx_mem (s : State) (x : Nat) : (drainCtx s x).mem = s.mem := by
  unfold drainCtx
  dsimp only
  (repeat' split) <;> simp

@[simp] theorem dropMail_mem (s : State) (n : Nat) : (dropMail s n).mem = s.mem := by
  unfold dropMail
  rfl

@[simp] theorem resend_mem (s : State) (t w : Nat) (granted : Bool) : (resend s t w granted).mem = s.mem := by
  unfold resend
  split <;> simp

@[simp] theorem unreserve_mem (s : State) (f : MailFlit) : (unreserve s f).mem = s.mem := by
  unfold unreserve
  (repeat' split) <;> rfl

@[simp] theorem readMbdrop_mem (s : State) (core : Nat) (C : Core) : (readMbdrop s core C).mem = s.mem := by
  unfold readMbdrop
  rfl

@[simp] theorem countDiscard_mem (s : State) (pa : Nat) : (countDiscard s pa).mem = s.mem := by
  unfold countDiscard
  split <;> rfl

@[simp] theorem countNacks_mem (s : State) (E : Eng) (a : Acc) (va n : Nat) :
    (countNacks s E a va n).mem = s.mem := by
  unfold countNacks
  exact foldl_same State.mem _ (fun s p => by (repeat' split) <;> simp) _ s

@[simp] theorem dropFar_mem (s : State) (who : Requester) : (dropFar s who).mem = s.mem := by
  unfold dropFar
  rfl

@[simp] theorem useFar_mem (s : State) (who : Requester) (pa : Nat) : (useFar s who pa).mem = s.mem := by
  unfold useFar
  rfl

@[simp] theorem engRid_mem (s : State) (who : Requester) : (engRid s who).2.mem = s.mem := by
  unfold engRid
  split <;> rfl

@[simp] theorem askLine_mem (s : State) (r : MemReq) : (askLine s r).mem = s.mem := by
  unfold askLine
  dsimp only
  split <;> simp

@[simp] theorem askEng_mem (s : State) (E : Eng) (a : Acc) (va n : Nat) : (askEng s E a va n).mem = s.mem := by
  unfold askEng
  exact foldl_same State.mem _ (fun s p => by dsimp only; split <;> simp) _ s

@[simp] theorem engRead_mem (s : State) (E : Eng) (va n : Nat) : (engRead s E va n).1.mem = s.mem := by
  unfold engRead
  dsimp only
  split
  · exact countNacks_mem s E .read va n
  · split
    · exact askEng_mem s E .read va n
    · refine foldl_same (fun a : State × List (Byte × Bool) => a.1.mem) _ (fun a p => ?_) _ (s, [])
      split
      · rfl
      · exact countDiscard_mem a.1 _
      · rfl

@[simp] theorem fetchBursts_mem (s : State) (core n : Nat) : (fetchBursts s core n).mem = s.mem := by
  unfold fetchBursts
  rfl

@[simp] theorem queueCtx_mem (c : KCtx) (f : MemW) (kind : ReqKind) (size pa key gen : Nat) (sec : Bool)
    (data cmp : List Byte) : (queueCtx c f kind size pa key gen sec data cmp).mem = c.s.mem := by
  unfold queueCtx
  rfl

@[simp] theorem wakeCluster_mem (s : State) (launch cluster : Nat) : (wakeCluster s launch cluster).mem = s.mem := by
  simp [wakeCluster, foldl_keeps_mem]

@[simp] theorem WCtx.done_mem (c : WCtx) (W : Wave) (bnd : Bool) (dst : Option (BitVec 8)) (vals : Nat → Nat) :
    (WCtx.done c W bnd dst vals).mem = c.s.mem := by
  unfold WCtx.done
  split <;> simp

@[simp] theorem WCtx.finish_mem (c : WCtx) (bnd : Bool) (d : BitVec 8) (n : Nat) (vals : Nat → Nat) :
    (WCtx.finish c bnd d n vals).mem = c.s.mem := by
  simp [WCtx.finish]

@[simp] theorem endWaveCopy_mem (s : State) (t num code : Nat) : (endWaveCopy s t num code).mem = s.mem := by
  unfold endWaveCopy
  (repeat' split) <;> simp

@[simp] theorem orphan_mem (s : State) (x : Nat) : (orphan s x).mem = s.mem := by
  unfold orphan
  rfl

@[simp] theorem readLoc_mem (s : State) (E : Eng) (l : Loc) (n : Nat) : (readLoc s E l n).1.mem = s.mem := by
  unfold readLoc
  split
  · simp
  · dsimp only
    (repeat' split) <;> rfl

@[simp] theorem streamRead_mem (s : State) (E : Eng) (va : Nat) : (streamRead s E va).1.mem = s.mem := by
  unfold streamRead
  split <;> simp

@[simp] theorem streamElem_mem (s : State) (E : Eng) (st : Stream) : (streamElem s E st).1.mem = s.mem := by
  unfold streamElem
  dsimp only
  (repeat' split) <;> simp

@[simp] theorem closeChain_mem (s : State) (t id : Nat) : (closeChain s t id).mem = s.mem := by
  unfold closeChain
  split <;> rfl

@[simp] theorem modChainOf_mem (s : State) (t id : Nat) (f : Chain → Chain) : (modChainOf s t id f).mem = s.mem := by
  unfold modChainOf
  rfl

@[simp] theorem modOp_mem (s : State) (t id : Nat) (f : MxOp → MxOp) : (modOp s t id f).mem = s.mem := by
  unfold modOp
  rfl

@[simp] theorem advanceChain_mem (s : State) (t id : Nat) : (advanceChain s t id).mem = s.mem := by
  unfold advanceChain
  (repeat' split) <;> try rfl
  all_goals exact foldl_same State.mem _ (fun s r => jput_mem s _) _ _

@[simp] theorem releaseEarly_mem (s : State) (core id : Nat) : (releaseEarly s core id).mem = s.mem := by
  unfold releaseEarly
  rfl

@[simp] theorem openChain_mem (s : State) (t : Nat) (op : MxOp) (tile : Nat) (anchor : Bool) (d p0 p1 w : Nat) :
    (openChain s t op tile anchor d p0 p1 w).mem = s.mem := by
  unfold openChain
  (repeat' split) <;> simp [foldl_keeps_mem]

@[simp] theorem grantSlots_mem (t id core n : Nat) (s : State) : (grantSlots t id core n s).mem = s.mem := by
  induction n generalizing s with
  | zero => rfl
  | succ n ih =>
    unfold grantSlots
    split
    · rfl
    · split
      · rfl
      · split
        · rfl
        · simp [ih]

@[simp] theorem returnCredit_mem (s : State) (c : Chain) (core n : Nat) : (returnCredit s c core n).mem = s.mem := by
  unfold returnCredit
  split
  · rfl
  · exact foldl_same State.mem _ (fun s r => jput_mem s _) _ s

/-- What an advance of a sender, a middle rank, the root or any member of a chain makes holds the memory it met. -/
theorem sendStep_mem {s s' : State} {t : Nat} {T : Team} {op : MxOp} {c : Chain} {cols : BitVec 128} {x : Tile}
    (h : sendStep s t T op c cols x = some s') : s'.mem = s.mem := by
  unfold sendStep at h
  split at h
  · split at h
    · simp at h
    · obtain rfl := Option.some.inj h
      simp
  · split at h
    · obtain rfl := Option.some.inj h
      exact foldl_same State.mem _ (fun s f => jput_mem s f) _ _
    · split at h
      · obtain rfl := Option.some.inj h
        simp
      · simp at h

theorem passStep_mem {s s' : State} {t : Nat} {T : Team} {op : MxOp} {c : Chain} {rows cols : BitVec 128} {x : Tile}
    (h : passStep s t T op c rows cols x = some s') : s'.mem = s.mem := by
  unfold passStep at h
  split at h
  · simp at h
  · split at h
    · obtain rfl := Option.some.inj h
      simp
    · split at h
      · simp at h
      · obtain rfl := Option.some.inj h
        simp

theorem recvStep_mem {s s' : State} {t : Nat} {T : Team} {op : MxOp} {c : Chain} {x : Tile}
    (h : recvStep s t T op c x = some s') : s'.mem = s.mem := by
  unfold recvStep at h
  split at h
  · simp at h
  · split at h
    · obtain rfl := Option.some.inj h
      split <;> simp
    · obtain rfl := Option.some.inj h
      split <;> simp

theorem chainStep_mem {s s' : State} {t id : Nat} (h : chainStep s t id = some s') : s'.mem = s.mem := by
  unfold chainStep at h
  simp only [Option.bind_eq_bind, Option.bind_eq_some_iff] at h
  obtain ⟨T, -, c, -, op, -, x, -, h⟩ := h
  split at h
  · simp at h
  · split at h
    · split at h
      · exact sendStep_mem h
      · exact passStep_mem h
    · exact recvStep_mem h
    · simp at h

@[simp] theorem pumpChain_mem (t id n : Nat) (s : State) : (pumpChain t id n s).mem = s.mem := by
  induction n generalizing s with
  | zero => rfl
  | succ n ih =>
    unfold pumpChain
    split
    · rename_i s' h
      rw [ih, chainStep_mem h]
    · rfl

@[simp] theorem pump_mem (s : State) (t id : Nat) : (pump s t id).mem = s.mem := by
  unfold pump
  split <;> simp

@[simp] theorem withdrawGrant_mem (s : State) (core t : Nat) (c : Chain) :
    (withdrawGrant s core t c).mem = s.mem := by
  unfold withdrawGrant
  split <;> rfl

@[simp] theorem giveGrant_mem (s : State) (core : Nat) (r : Reservation) : (giveGrant s core r).mem = s.mem := by
  unfold giveGrant
  dsimp only
  (repeat' split) <;> simp

@[simp] theorem dropHeld_mem (s : State) (f : JFlit) : (dropHeld s f).mem = s.mem := by
  unfold dropHeld
  rfl

@[simp] theorem abortFrom_mem (s : State) (t core : Nat) (c : Chain) (why : Nat) (f : JFlit) :
    (abortFrom s t core c why f).mem = s.mem := by
  unfold abortFrom
  split <;> simp

@[simp] theorem refuseFlit_mem (s : State) (f : JFlit) : (refuseFlit s f).mem = s.mem := by
  unfold refuseFlit
  rfl

@[simp] theorem landData_mem (s : State) (t : Nat) (T : Team) (c : Chain) (f : JFlit) :
    (landData s t T c f).mem = s.mem := by
  unfold landData
  (repeat' split) <;> simp

@[simp] theorem enterTargets_mem (s : State) (t : Nat) (T : Team) (op : MxOp) :
    (enterTargets s t T op).mem = s.mem := by
  unfold enterTargets
  exact foldl_same State.mem _ (fun s c => modCore_mem s c _) _ s

@[simp] theorem stopOp_mem (s : State) (t : Nat) (op : MxOp) (cause : BitVec 8) :
    (stopOp s t op cause).mem = s.mem := by
  unfold stopOp
  dsimp only
  split
  · rfl
  · split
    · simp
    · rw [foldl_same State.mem _ (fun s u => modTeam_mem s u _)]
      simp

@[simp] theorem claimTiles_mem (s : State) (T : Team) (op : MxOp) : (claimTiles s T op).1.mem = s.mem := by
  unfold claimTiles
  exact foldl_same (fun a : State × Bool => a.1.mem) _ (fun a p => by simp) _ (s, true)

@[simp] theorem modTile_mem (s : State) (t i : Nat) (f : Tile → Tile) : (modTile s t i f).mem = s.mem := by
  unfold modTile
  rfl

@[simp] theorem popOp_mem (s : State) (t : Nat) (op : MxOp) : (popOp s t op).mem = s.mem := by
  simp [popOp]

@[simp] theorem farAsk_mem (s : State) (T : Team) (va pa t w : Nat) : (farAsk s T va pa t w).mem = s.mem := by
  unfold farAsk
  split <;> simp

@[simp] theorem rsvLane_mem (f : MemW) (s : State) (t w : Nat) (g : BitVec 8) (x : OkLane) :
    (rsvLane f s t w g x).1.mem = s.mem := by
  unfold rsvLane
  dsimp only
  (repeat' split) <;> simp

@[simp] theorem modPass_mem (s : State) (k slot : Nat) (f : Pass → Pass) : (modPass s k slot f).mem = s.mem := by
  unfold modPass
  rfl

@[simp] theorem startEval_mem (s : State) (k slot : Nat) (P : Pass) : (startEval s k slot P).mem = s.mem := by
  unfold startEval
  rfl

@[simp] theorem pruneLanes_mem (s : State) (k slot : Nat) : (pruneLanes s k slot).mem = s.mem := by
  unfold pruneLanes
  rfl

@[simp] theorem prunePass_mem (s : State) (k slot : Nat) : (prunePass s k slot).mem = s.mem := by
  unfold prunePass
  split <;> rfl

@[simp] theorem resolveVa_mem (s : State) (t va : Nat) (a : Acc) : (resolveVa s t va a).1.mem = s.mem := by
  unfold resolveVa
  dsimp only
  (repeat' split) <;> simp

@[simp] theorem answerFabric_mem (s : State) (r : MemReq) : (answerFabric s r).mem = s.mem := by
  simp [answerFabric]

@[simp] theorem respond_mem (s : State) (rids : List Rid) (st : ReqSt) : (respond s rids st).mem = s.mem := by
  unfold respond
  rfl

@[simp] theorem noteWindow_mem (s : State) (gw p : Nat) (rid : Rid) (st : Option ReqSt) :
    (noteWindow s gw p rid st).mem = s.mem := by
  unfold noteWindow
  split <;> rfl

@[simp] theorem answerParts_mem (s : State) (r : MemReq) : (answerParts s r).mem = s.mem := by
  unfold answerParts
  (repeat' split) <;> simp

@[simp] theorem noteDone_mem (s0 : State) (r : MemReq) : (noteDone s0 r).mem = s0.mem := by
  unfold noteDone
  (repeat' split) <;> simp

@[simp] theorem crossMove_mem (s : State) (rid : Rid) : (crossMove s rid).mem = s.mem := by
  unfold crossMove
  (repeat' split) <;> simp

@[simp] theorem fabAnswer_mem (s : State) (a : MemReq) : (fabAnswer s a).mem = s.mem := by
  unfold fabAnswer
  rfl

@[simp] theorem owcDown_mem (s : State) (a : Requester) : (owcDown s a).mem = s.mem := by
  unfold owcDown
  split <;> simp

@[simp] theorem endAcquire_mem (s : State) (t w : Nat) (r : MemReq) : (endAcquire s t w r).mem = s.mem := by
  unfold endAcquire
  dsimp only
  (repeat' split) <;> simp

@[simp] theorem waveAnswer_mem (s : State) (t w : Nat) (r : MemReq) (bs : List Byte) (psn : BitVec 8) :
    (waveAnswer s t w r bs psn).mem = s.mem := by
  unfold waveAnswer
  (repeat' split) <;> simp

@[simp] theorem ctxAnswer_mem (s : State) (x : Nat) (r : MemReq) (bs : List Byte) (psn : BitVec 8) :
    (ctxAnswer s x r bs psn).mem = s.mem := by
  unfold ctxAnswer
  (repeat' split) <;> simp

@[simp] theorem lineAnswer_mem (s : State) (r : MemReq) (bs : List Byte) (psn : BitVec 8) :
    (lineAnswer s r bs psn).mem = s.mem := by
  unfold lineAnswer
  split <;> simp

@[simp] theorem ctxRefused_mem (s : State) (x : Nat) (r : MemReq) : (ctxRefused s x r).mem = s.mem := by
  unfold ctxRefused
  dsimp only
  split <;> simp

@[simp] theorem setEnginePark_mem (s : State) (who : Requester) (q : Option EngPark) :
    (setEnginePark s who q).mem = s.mem := by
  unfold setEnginePark
  split <;> rfl

@[simp] theorem resolveLanes_mem (t : Nat) (a : Acc) (ext : List Extent) (l : List ParkLane) (s : State) :
    (resolveLanes t a ext l s).1.mem = s.mem := by
  induction l generalizing s with
  | nil => rfl
  | cons x r ih =>
    unfold resolveLanes
    split
    · exact ih s
    · dsimp only
      split <;> simp [ih]

@[simp] theorem replayWave_mem (s : State) (t w : Nat) : (replayWave s t w).mem = s.mem := by
  simp [replayWave]

@[simp] theorem raiseAt_mem (s : State) (tile asid v : Nat) : (raiseAt s tile asid v).mem = s.mem := by
  exact foldl_same State.mem _ (fun s c => invalidate_mem s c) _ _

@[simp] theorem upsetMove_mem (s : State) (a : Upset) : (upsetMove s a).mem = s.mem := by
  unfold upsetMove
  (repeat' split) <;> rfl

@[simp] theorem schedRead_mem (s : State) (asid va n : Nat) : (schedRead s asid va n).1.mem = s.mem := by
  unfold schedRead
  refine foldl_same (fun a : State × List Byte => a.1.mem) _ (fun a p => ?_) _ (s, [])
  dsimp only
  (repeat' split) <;> rfl

@[simp] theorem spawnTeams_mem (s : State) (p : Nat) (P : Part) (L : Launch) (tab : List Nat) :
    (spawnTeams s p P L tab).mem = s.mem := by
  exact foldl_same State.mem _ (fun s i => setTeam_mem s _ _) _ s

@[simp] theorem foreignRequest_mem (s0 : State) (f : FabFlit) (r : MemReq) :
    (foreignRequest s0 f r).mem = s0.mem := by
  unfold foreignRequest
  dsimp only
  split
  · simp
  · split <;> simp

@[simp] theorem deliver_mem (s : State) (f : FabFlit) : (deliver s f).mem = s.mem := by
  unfold deliver
  (repeat' split) <;> simp

@[simp] theorem arriveMove_mem (s : State) (f : FabFlit) : (arriveMove s f).mem = s.mem := by
  unfold arriveMove
  split <;> rfl

@[simp] theorem dieLinkLost_mem (s : State) (g : Nat) : (dieLinkLost s g).mem = s.mem := by
  unfold dieLinkLost
  split <;> simp [foldl_keeps_mem]

@[simp] theorem failQp_mem (s : State) (port qp : Nat) : (failQp s port qp).mem = s.mem := by
  unfold failQp
  rfl

@[simp] theorem rdmaRefuse_mem (s : State) (r : RdmaReq) : (rdmaRefuse s r).mem = s.mem := by
  unfold rdmaRefuse
  rfl

@[simp] theorem hostAsk_mem (s : State) (who : Requester) (ps : List (Nat × Nat × Nat)) :
    (hostAsk s who ps).mem = s.mem := by
  simp [hostAsk, foldl_keeps_mem]

@[simp] theorem nodeEntry_mem (s : State) (p n : Nat) : (nodeEntry s p n).mem = s.mem := by
  unfold nodeEntry
  dsimp only
  split
  · rfl
  · split <;> rfl

@[simp] theorem retractRays_mem (s : State) (core t : Nat) : (retractRays s core t).mem = s.mem := by
  unfold retractRays
  exact foldl_same State.mem _ (fun s r => by simp) _ s

@[simp] theorem endChain_mem (s : State) (t : Nat) (c : Chain) : (endChain s t c).mem = s.mem := by
  unfold endChain
  (repeat' split) <;> simp

@[simp] theorem reply_mem (s : State) (m : MgmtMsg) (status result : Nat) :
    (reply s m status result).mem = s.mem := by
  unfold reply
  rfl

@[simp] theorem deferReply_mem (s : State) (p : Nat) (q : Pending) : (deferReply s p q).mem = s.mem := by
  unfold deferReply
  rfl

@[simp] theorem unpin_mem (s : State) (t : Nat) : (unpin s t).mem = s.mem := by
  simp [unpin, foldl_keeps_mem]

@[simp] theorem finishCall_mem (s : State) (c : Call) (v : DWord) : (finishCall s c v).mem = s.mem := by
  simp [finishCall]

@[simp] theorem callDone_mem (s : State) (p ticket : Nat) : (callDone s p ticket).mem = s.mem := by
  unfold callDone
  split <;> simp

@[simp] theorem flushGen_mem (s : State) (p : Nat) : (flushGen s p).mem = s.mem := by
  unfold flushGen
  rfl

@[simp] theorem refreshTeam_mem (s : State) (t : Nat) : (refreshTeam s t).mem = s.mem := by
  unfold refreshTeam
  split <;> rfl

@[simp] theorem replayEngine_mem (p gen : Nat) (s : State) (who : Requester) :
    (replayEngine p gen s who).mem = s.mem := by
  unfold replayEngine
  (repeat' split) <;> simp

@[simp] theorem replayParked_mem (p gen : Nat) (s : State) (tw : Nat × Nat) :
    (replayParked p gen s tw).mem = s.mem := by
  unfold replayParked
  split <;> simp

@[simp] theorem replayReq_mem (p gen : Nat) (s : State) (rid : Rid) : (replayReq p gen s rid).mem = s.mem := by
  unfold replayReq
  (repeat' split) <;> simp

@[simp] theorem replayAll_mem (s : State) (p : Nat) : (replayAll s p).mem = s.mem := by
  unfold replayAll
  rfl

@[simp] theorem replayTile_mem (s : State) (k p gen : Nat) : (replayTile s k p gen).mem = s.mem := by
  simp [replayTile, foldl_keeps_mem]

@[simp] theorem controlMove_mem (s : State) (n : Nat) : (controlMove s n).mem = s.mem := by
  unfold controlMove
  split
  · rfl
  · split
    · rfl
    · dsimp only
      split
      · split <;> simp
      · split <;> simp

@[simp] theorem stopRouter_mem (s : State) (p k : Nat) : (stopRouter s p k).1.mem = s.mem := by
  unfold stopRouter
  rfl

@[simp] theorem stopGateway_mem (s : State) (p die g : Nat) : (stopGateway s p die g).1.mem = s.mem := by
  unfold stopGateway
  rfl

@[simp] theorem cutWaveCopies_mem (s : State) (core : Nat) : (cutWaveCopies s core).mem = s.mem := by
  unfold cutWaveCopies
  rfl

@[simp] theorem cutCtxCopies_mem (s : State) (x : Nat) : (cutCtxCopies s x).mem = s.mem := by
  unfold cutCtxCopies
  rfl

@[simp] theorem stopUnit_mem (s : State) (p unit : Nat) : (stopUnit s p unit).1.mem = s.mem := by
  unfold stopUnit
  dsimp only
  iterate 5 (split; · simp)
  simp

@[simp] theorem setDieCsr_mem (s : State) (die num : Nat) (v : DWord) : (setDieCsr s die num v).mem = s.mem := by
  unfold setDieCsr
  rfl

@[simp] theorem denyAccess_mem (s : State) (die : Nat) : (denyAccess s die).mem = s.mem := by
  unfold denyAccess
  rfl

@[simp] theorem refuseWrite_mem (s : State) (by_ : Role) (num : Nat) : (refuseWrite s by_ num).mem = s.mem := by
  unfold refuseWrite
  rfl

@[simp] theorem schcfgSet_mem (s : State) (p : Nat) (value : DWord) : (schcfgSet s p value).mem = s.mem := by
  unfold schcfgSet
  (repeat' split) <;> rfl

@[simp] theorem windowWrite_mem (s : State) (i : Nat) (v : DWord) : (windowWrite s i v).mem = s.mem := by
  unfold windowWrite
  rfl

@[simp] theorem faultCommand_mem (s : State) (p cmd : Nat) : (faultCommand s p cmd).mem = s.mem := by
  unfold faultCommand
  split <;> rfl

@[simp] theorem refreshWorlds_mem (s : State) : (refreshWorlds s).mem = s.mem := by
  unfold refreshWorlds
  rfl

@[simp] theorem extendMreg_mem (s : State) (die i : Nat) (d : List Byte) : (extendMreg s die i d).mem = s.mem := by
  unfold extendMreg
  rfl

@[simp] theorem measureWorlds_mem (s0 s : State) (die : Nat) : (measureWorlds s0 s die).mem = s.mem := by
  rw [measureWorlds, apply_ite State.mem, extendMreg_mem, ite_self]

@[simp] theorem worldPut_mem (s : State) (die n : Nat) (value : DWord) : (worldPut s die n value).mem = s.mem := by
  simp [worldPut]

@[simp] theorem worldSet_mem (s : State) (die n : Nat) (value : DWord) : (worldSet s die n value).mem = s.mem := by
  unfold worldSet
  split <;> simp

@[simp] theorem keyEraseSlot_mem (s : State) (die slot : Nat) : (keyEraseSlot s die slot).mem = s.mem := by
  unfold keyEraseSlot
  split <;> rfl

@[simp] theorem readStretch_mem (s : State) (cluster : Nat) (C : Cluster) :
    (readStretch s cluster C).mem = s.mem := by
  unfold readStretch
  rfl

@[simp] theorem mgmtRead_mem (s : State) (die : Nat) (by_ : Role) (n : Nat) : (mgmtRead s die by_ n).mem = s.mem := by
  unfold mgmtRead
  split
  · rfl
  · split
    · cases core? s (die * 200 + (n - 0xA00)) <;> rfl
    · split
      · cases smGet? s.clusters (n - 0xF40) <;> rfl
      · rw [emitOut_mem, apply_ite State.mem, denyAccess_mem, ite_self]

@[simp] theorem tickEnergy_mem (s : State) : (tickEnergy s).mem = s.mem := by
  unfold tickEnergy
  rfl

@[simp] theorem askMove_mem (s : State) (r : CaltusReq) : (askMove s r).mem = s.mem := by
  unfold askMove
  rfl

@[simp] theorem boardValue_mem (s : State) (item : BoardItem) : (boardValue s item).1.mem = s.mem := by
  unfold boardValue
  split <;> rfl

@[simp] theorem boardMove_mem (s : State) (item : BoardItem) : (boardMove s item).mem = s.mem := by
  simp [boardMove]

@[simp] theorem mailboxMove_mem (s : State) (by_ : Role) (off : Nat) (bs : List Byte) :
    (mailboxMove s by_ off bs).mem = s.mem := by
  unfold mailboxMove
  split <;> rfl

@[simp] theorem bootStop_mem (s : State) (n : Nat) (why : BootFail) : (bootStop s n why).mem = s.mem := by
  unfold bootStop
  rfl

@[simp] theorem dieStop_mem (b : Bringup) (s : State) (d : Nat) : (dieStop b s d).mem = s.mem := by
  unfold dieStop
  split <;> rfl

@[simp] theorem bootFuses_mem (b : Bringup) (s : State) : (bootFuses b s).mem = s.mem := by
  unfold bootFuses
  dsimp only
  (repeat' split) <;> simp

@[simp] theorem bootMemory_mem (b : Bringup) (s : State) : (bootMemory b s).mem = s.mem := by
  unfold bootMemory
  rfl

@[simp] theorem bootLinks_mem (b : Bringup) (s : State) : (bootLinks b s).mem = s.mem := by
  unfold bootLinks
  rfl

@[simp] theorem keepMemory_mem (s s1 : State) : (keepMemory s s1).mem = s.mem := by
  unfold keepMemory
  rfl

@[simp] theorem WCtx.jump_mem (c : WCtx) (W : Wave) (target : BitVec 53) : (WCtx.jump c W target).mem = c.s.mem := by
  unfold WCtx.jump
  rfl

@[simp] theorem KCtx.jump_mem (c : KCtx) (X : Ctx) (target : BitVec 53) : (KCtx.jump c X target).mem = c.s.mem := by
  unfold KCtx.jump
  rfl

@[simp] theorem leaveSlot_mem (s : State) (t w core : Nat) : (leaveSlot s t w core).mem = s.mem := by
  simp [leaveSlot]

@[simp] theorem afterWord_mem (s0 s : State) (x : IWord) (t w : Nat) (g : BitVec 8) :
    (afterWord s0 s x t w g).mem = s.mem := by
  unfold afterWord
  split
  · dsimp only
    split <;> simp
  · rfl

@[simp] theorem noteIssued_mem (s : State) (x : Nat) : (noteIssued s x).mem = s.mem := by
  unfold noteIssued
  rfl

@[simp] theorem beginTurn_mem (s : State) (t : Turn) (r : List Turn) : (beginTurn s t r).mem = s.mem := by
  simp [beginTurn]

@[simp] theorem endTurn_mem (s0 s : State) (w : IWord) : (endTurn s0 s w).mem = s.mem := by
  unfold endTurn
  split <;> simp

end Sys2Proof.Machine

end

