-- ==== Sys2Proof/Proofs/MemoryWrites.lean ====
section
/-! SUPPORT. The functions of the model that do write memory keep its canonical form (R3, R341): each does so through
`ownWrite`, `performReq` or the like, whose lemmas stand in Laws/Frame.lean. -/

namespace Sys2Proof.Machine

theorem slicesEnded_ok {s : State} (t w : Nat) (hs : MemOk s) : MemOk (slicesEnded s t w) := by
  unfold slicesEnded
  dsimp only
  split
  · exact hs
  · split
    · exact hs
    · split
      · rwa [MemOk, tryBar_mem, makeReady_mem, setTeam_mem]
      · rw [MemOk, tryBar_mem, wakeTeam_mem]
        exact releaseSlots_ok _ _ hs

theorem placeFaults_ok {s : State} (p : Nat) (recs : List (List Byte)) (hs : MemOk s) :
    MemOk (placeFaults s p recs) := by
  unfold placeFaults
  dsimp only
  split
  · exact hs
  · split
    · exact hs
    · split
      · rwa [MemOk, modPart_mem]
      · rw [MemOk, emitOut_mem, modPart_mem]
        exact foldl_keeps MemOk _ (fun _ _ hs => ownWrite_wf _ _ hs) _ s hs

theorem writeFaults_ok {s : State} (p : Nat) (recs : List (List Byte)) (hs : MemOk s) :
    MemOk (writeFaults s p recs) := by
  unfold writeFaults
  split <;> simp [MemOk, placeFaults_ok, hs]

theorem arriveFaults_ok {s : State} (p : Nat) (hs : MemOk s) : MemOk (arriveFaults s p) := by
  unfold arriveFaults
  split <;> simp [MemOk, placeFaults_ok, hs]

theorem parkWave_ok {s : State} (t w : Nat) (g : BitVec 8) (a : Acc) (ps : List ParkLane) (hs : MemOk s) :
    MemOk (parkWave s t w g a ps) := by
  unfold parkWave
  (repeat' split) <;> simp [MemOk, writeFaults_ok, hs]

theorem putHeader_ok {s : State} (t : Nat) (hs : MemOk s) : MemOk (putHeader s t) := by
  unfold putHeader
  (repeat' split) <;> simp [MemOk, ownWrite_wf, hs]

theorem saveRegion_ok {s : State} (t i : Nat) (hs : MemOk s) : MemOk (saveRegion s t i) := by
  unfold saveRegion
  dsimp only
  split
  · exact hs
  · split
    · exact hs
    · refine putHeader_ok _ ?_
      rw [MemOk, modTeam_mem, foldl_same State.mem _ (fun s g => physMark_mem s _ _ _)]
      exact ownWrite_wf _ _ hs

theorem fillRegion_ok {s : State} (t i : Nat) (hs : MemOk s) : MemOk (fillRegion s t i) := by
  unfold fillRegion
  (repeat' split) <;> simp [MemOk, putHeader_ok, hs]

theorem saveTile_ok {s : State} (t j : Nat) (hs : MemOk s) : MemOk (saveTile s t j) := by
  unfold saveTile
  split
  · exact hs
  · dsimp only
    split
    · refine putHeader_ok _ ?_
      rw [MemOk, modTeam_mem]
      exact ownWrite_wf _ _ hs
    · exact hs

theorem fillTile_ok {s : State} (t j : Nat) (hs : MemOk s) : MemOk (fillTile s t j) := by
  unfold fillTile
  (repeat' split) <;> simp [MemOk, putHeader_ok, hs]

theorem takeImage_mem {s s' : State} {t : Nat} (h : takeImage s t = some s') : s'.mem = s.mem := by
  unfold takeImage at h
  split at h
  · simp at h
  · split at h
    · simp_all
    · split at h
      · simp at h
      · split at h
        · simp at h
        · obtain rfl := Option.some.inj h
          rfl

theorem settleFresh_ok {s : State} (t i : Nat) (hs : MemOk s) : MemOk (settleFresh s t i) := by
  unfold settleFresh
  split
  · exact hs
  · rename_i T _
    split
    · exact hs
    · split
      · rename_i s1 h
        refine saveRegion_ok t i ?_
        cases himg : imageBase s T with
        | none =>
          rw [himg] at h
          rw [MemOk, takeImage_mem h]
          exact hs
        | some b =>
          rw [himg] at h
          exact Option.some.inj h ▸ hs
      · rw [MemOk, claimUnit_mem]
        exact hs

theorem outsideWrite_ok {s : State} (t off : Nat) (bs : List Byte) (psn : Bool) (hs : MemOk s) :
    MemOk (outsideWrite s t off bs psn) := by
  unfold outsideWrite
  dsimp only
  refine foldl_keeps MemOk _ (fun s i hs => ?_) _ _ (foldl_keeps MemOk _ (fun _ _ hs => settleFresh_ok _ _ hs) _ s hs)
  split
  · exact hs
  · split
    · split
      · rw [MemOk, physMark_mem]
        exact ownWrite_wf _ _ hs
      · exact ownWrite_wf _ _ hs
    · exact hs

theorem ctxRecords_ok {s : State} (x : Nat) (X : Ctx) (a : Acc) (ps : List ParkLane) (hs : MemOk s) :
    MemOk (ctxRecords s x X a ps) := by
  simp [MemOk, ctxRecords, writeFaults_ok, hs]

theorem parkCtx_ok {s : State} (x : Nat) (a : Acc) (ps : List ParkLane) (hs : MemOk s) :
    MemOk (parkCtx s x a ps) := by
  unfold parkCtx
  dsimp only
  (repeat' split) <;> simp [MemOk, ctxRecords_ok, hs]

theorem endAccess_ok {s : State} (t w : Nat) (g : BitVec 8) (bnd : Bool) (a : Acc) (parked : List ParkLane)
    (acq : Bool) (scope : Nat) (pending : Bool) (hs : MemOk s) :
    MemOk (endAccess s t w g bnd a parked acq scope pending) := by
  unfold endAccess
  (repeat' split) <;> simp [MemOk, parkWave_ok, hs]

/-- An alternative of an option keeps the form of memory when both its sides do. -/
theorem elim_ok {α : Type} {o : Option α} {s : State} {f : α → State} (hs : MemOk s)
    (hf : ∀ x, o = some x → MemOk (f x)) :
    MemOk (o.elim s f) := by
  cases o with
  | none => exact hs
  | some x => exact hf x rfl

theorem performScratch_ok {s s' : State} {t off : Nat} {bs : List Byte} {psn : Bool} (hs : MemOk s)
    (h : performScratch s t off bs psn = some s') : MemOk s' := by
  unfold performScratch at h
  split at h
  · exact Option.some.inj h ▸ hs
  · split at h
    · exact Option.some.inj h ▸ hs
    · split at h
      · simp at h
      · exact Option.some.inj h ▸ outsideWrite_ok t off bs psn hs

theorem performPeer_ok {s s' : State} {u off : Nat} {bs : List Byte} {psn : Bool} (hs : MemOk s)
    (h : performPeer s u off bs psn = some s') : MemOk s' := by
  unfold performPeer at h
  split at h
  · exact Option.some.inj h ▸ hs
  · split at h
    · exact Option.some.inj h ▸ hs
    · exact performScratch_ok hs h

theorem drainWave_ok {s : State} (t w : Nat) (hs : MemOk s) : MemOk (drainWave s t w) := by
  have pop (q : List StoreE) (s : State) (hs : MemOk s) :
      MemOk (afterDrain (modWave s t w fun W => { W with storeQ := q }) t w) := by
    rwa [MemOk, afterDrain_mem]
  unfold drainWave
  dsimp only
  split
  · exact hs
  · split
    · exact hs
    · split
      · exact hs
      · split
        · split
          · exact hs
          · exact elim_ok hs fun _ h => pop _ _ (performScratch_ok hs h)
        · split
          · exact hs
          · split
            · exact elim_ok hs fun _ h => pop _ _ (performPeer_ok hs h)
            · split
              · exact hs
              · refine pop _ _ ?_
                rwa [MemOk, modWave_mem, sendPeer_mem]
        · split
          · exact pop _ _ hs
          · split
            · exact hs
            · refine pop _ _ ?_
              rwa [MemOk, modWave_mem, sendReq_mem]

theorem intoImage_ok {s : State} (t : Nat) (hs : MemOk s) : MemOk (intoImage s t) := by
  unfold intoImage
  cases team? s t with
  | none => exact hs
  | some T =>
    dsimp only
    cases imageBase s T with
    | none => cases T.st <;> exact hs
    | some b =>
      cases T.st with
      | saved =>
        dsimp only
        have free := freeBytes_mem s (min (contextBytes T) (2 ^ 20 - 64))
        generalize freeBytes s (min (contextBytes T) (2 ^ 20 - 64)) = r at free ⊢
        exact ownWrite_wf _ _ (by rwa [modTeam_mem, free])
      | _ => exact hs

theorem sendWrite_ok {s : State} (E : Eng) (va pa key gen : Nat) (sec : Bool) (bs : List Byte) (psn : Bool)
    (hs : MemOk s) : MemOk (sendWrite s E va pa key gen sec bs psn) := by
  unfold sendWrite
  dsimp only
  (repeat' split) <;> simp [MemOk, physSet_wf, hs]

theorem engWrite_ok {s : State} (E : Eng) (va : Nat) (bs : List Byte) (psn : Bool) (hs : MemOk s) :
    MemOk (engWrite s E va bs psn).1 := by
  unfold engWrite
  split
  · rw [MemOk, countNacks_mem]
    exact hs
  · refine foldl_keeps MemOk _ (fun s p hs => ?_) _ s hs
    split
    · split
      · exact sendWrite_ok _ _ _ _ _ _ _ _ hs
      · rw [MemOk, countDiscard_mem]
        exact hs
      · exact hs
    · exact hs

theorem engineRecords_ok {s : State} (part asid : Nat) (secure : Bool) (serial wave : Nat) (a : Acc)
    (pages : List ParkLane) (hs : MemOk s) : MemOk (engineRecords s part asid secure serial wave a pages) := by
  simp [MemOk, engineRecords, writeFaults_ok, hs]

theorem parkEngine_ok {s : State} (E : Eng) (serial wave : Nat) (a : Acc) (pages : List ParkLane) (hs : MemOk s) :
    MemOk (parkEngine s E serial wave a pages).1 := by
  unfold parkEngine
  dsimp only
  split <;> simp [MemOk, engineRecords_ok, hs]

theorem writeLoc_ok {s : State} (E : Eng) (l : Loc) (bs : List Byte) (psn : Bool) (hs : MemOk s) :
    MemOk (writeLoc s E l bs psn).1 := by
  unfold writeLoc
  dsimp only
  (repeat' split) <;> simp [MemOk, engWrite_ok, outsideWrite_ok, hs]

theorem movePiece_ok {s : State} (E : Eng) (dst src : Loc) (n : Nat) (mark : Bool) (hs : MemOk s) :
    MemOk (movePiece s E dst src n mark).1 := by
  unfold movePiece
  dsimp only
  (repeat' split) <;> simp [MemOk, writeLoc_ok, hs]

theorem settle_ok {s : State} (x : Nat) (X : Ctx) (E : Eng) (c : SCopy) (n : Nat) (r : LocRes) (hs : MemOk s) :
    MemOk (settle s x X E c n r).1 := by
  unfold settle
  split <;> simp [MemOk, parkEngine_ok, hs]

theorem indexedPiece_ok {s : State} (x : Nat) (X : Ctx) (E : Eng) (c : SCopy) (ga : Bool) (seq base list : Loc)
    (r : Nat) (hs : MemOk s) : MemOk (indexedPiece s x X E c ga seq base list r).1 := by
  unfold indexedPiece
  dsimp only
  (repeat' split) <;> simp [MemOk, movePiece_ok, settle_ok, hs]

theorem mcastPiece_ok {s : State} (x : Nat) (X : Ctx) (E : Eng) (c : SCopy) (ds : List (Loc × Nat)) (src n : Nat)
    (hs : MemOk s) : MemOk (mcastPiece s x X E c ds src n).1 := by
  unfold mcastPiece
  split
  · exact hs
  · have read : MemOk (readLoc s E (.global ((src + c.pos) % 2 ^ 64)) 16).1 := by rwa [MemOk, readLoc_mem]
    dsimp only
    split
    · refine foldl_keeps (fun a : State × List (Loc × Nat) => MemOk a.1) _ (fun a d ha => ?_) _ (_, []) read
      split
      · exact ha
      · exact writeLoc_ok _ _ _ _ ha
    · exact settle_ok _ _ _ _ _ _ read

theorem copyPiece_ok {s : State} (x : Nat) (X : Ctx) (E : Eng) (c : SCopy) (hs : MemOk s) :
    MemOk (copyPiece s x X E c).1 := by
  unfold copyPiece
  dsimp only
  (repeat' split) <;> simp [MemOk, indexedPiece_ok, mcastPiece_ok, movePiece_ok, settle_ok, writeLoc_ok, hs]

theorem copyPieces_ok {s : State} (x : Nat) (X : Ctx) (E : Eng) (n left : Nat) (c : SCopy) (hs : MemOk s) :
    MemOk (copyPieces x X E n left s c).1 := by
  induction n generalizing left s c with
  | zero => exact hs
  | succ n ih =>
    cases left with
    | zero => exact hs
    | succ left =>
      have piece : MemOk (copyPiece s x X E c).1 := copyPiece_ok x X E c hs
      unfold copyPieces
      split
      · exact hs
      · split
        · exact hs
        · split
          · rename_i h
            exact ih _ _ (by rwa [h] at piece)
          · rename_i h
            rwa [h] at piece

theorem wavePiece_ok {s : State} (t : Nat) (T : Team) (E : Eng) (c : WCopy) (hs : MemOk s) :
    MemOk (wavePiece s t T E c).1 := by
  unfold wavePiece
  extract_lets src dsts held early
  have held_ok (s : State) (r : LocRes) (hs : MemOk s) : MemOk (held s r).1 := by
    cases r with
    | code k => exact hs
    | world pa => simpa [held, MemOk] using hs
    | park a code idx va => exact parkEngine_ok _ _ _ _ _ hs
    | _ => exact hs
  have read : MemOk (readLoc s E src 16).1 := by rwa [MemOk, readLoc_mem]
  cases early with
  | some r => exact held_ok s r hs
  | none =>
    dsimp only
    split
    · refine foldl_keeps (fun a : State × List Nat => MemOk a.1) _ (fun a d ha => ?_) _ (_, []) read
      split
      · exact ha
      · exact writeLoc_ok _ _ _ _ ha
    · exact held_ok _ _ read

theorem wavePieces_ok {s : State} (t : Nat) (T : Team) (E : Eng) (n : Nat) (c : WCopy) (hs : MemOk s) :
    MemOk (wavePieces t T E n s c).1 := by
  induction n generalizing s c with
  | zero => exact hs
  | succ n ih =>
    have piece : MemOk (wavePiece s t T E c).1 := wavePiece_ok t T E c hs
    unfold wavePieces
    split
    · exact hs
    · split
      · rename_i h
        exact ih _ (by rwa [h] at piece)
      · rename_i h
        rwa [h] at piece

theorem trapHeld_ok {s : State} (t w op : Nat) (c : Cause) (arg : DWord) (hs : MemOk s) :
    MemOk (trapHeld s t w op c arg) := by
  unfold trapHeld
  split <;> simp [MemOk, takeTrap_ok, hs]

theorem startChain_ok {s : State} (t : Nat) (op : MxOp) (tile : Nat) (anchor : Bool) (d : Nat) (p0 p1 : Word)
    (w : Nat) (hs : MemOk s) : MemOk (startChain s t op tile anchor d p0 p1 w) := by
  unfold startChain
  dsimp only
  (repeat' split) <;> simp [MemOk, trapHeld_ok, hs]

theorem startTransfer_ok {s : State} (t : Nat) (op : MxOp) (h w : Nat) (rows cols : BitVec 128) (hs : MemOk s) :
    MemOk (startTransfer s t op h w rows cols) := by
  unfold startTransfer
  (repeat' split) <;> simp [MemOk, trapHeld_ok, hs]

theorem endTransfer_ok {s : State} (t : Nat) (op : MxOp) (d h w : Nat) (hs : MemOk s) :
    MemOk (endTransfer s t op d h w) := by
  unfold endTransfer
  dsimp only
  (repeat' split) <;> simp [MemOk, takeTrapAt_ok, hs]

theorem mxFail_ok {s : State} (t : Nat) (op : MxOp) (r : EngRes) (a : Acc) (pages : List ParkLane) (hs : MemOk s) :
    MemOk (mxFail s t op r a pages) := by
  unfold mxFail
  dsimp only
  (repeat' split) <;> simp [MemOk, parkEngine_ok, hs]

theorem passStop_ok {s : State} (k slot : Nat) (acc : Acc) (stop : RayStop) (hs : MemOk s) :
    MemOk (passStop s k slot acc stop) := by
  unfold passStop
  (repeat' split) <;> simp [MemOk, parkEngine_ok, hs]

theorem endMissing_ok {s : State} (t wave : Nat) (epc : DWord) (va : Nat) (hs : MemOk s) :
    MemOk (endMissing s t wave epc va) := by
  unfold endMissing
  split <;> simp [MemOk, killLaunch_ok, hs]

theorem serveReq_ok {s : State} (r : MemReq) (hs : MemOk s) : MemOk (serveReq s r).1 := by
  unfold serveReq
  (repeat' split) <;> simp [MemOk, performReq_ok, hs]

theorem oneRecord_ok {s : State} (T : Team) (who : Requester) (va : Nat) (pc : DWord) (lanes : Nat) (a : Acc)
    (idx kind : Nat) (hs : MemOk s) : MemOk (oneRecord s T who va pc lanes a idx kind) := by
  simp [MemOk, oneRecord, writeFaults_ok, hs]

theorem resolveReq_ok {s : State} (r : MemReq) (hs : MemOk s) : MemOk (resolveReq s r) := by
  unfold resolveReq
  dsimp only
  (repeat' split) <;> simp [MemOk, endMissing_ok, oneRecord_ok, hs]

theorem engineRefused_ok {s0 : State} (r : MemReq) (hs : MemOk s0) : MemOk (engineRefused s0 r) := by
  have deleted : MemOk (delReq s0 r.rid) := hs
  unfold engineRefused
  dsimp only
  split
  · exact elim_ok deleted fun op _ => mxFail_ok _ _ _ _ _ deleted
  · exact passStop_ok _ _ _ _ deleted
  all_goals exact deleted

theorem schedAtomic_ok {s : State} (asid va n : Nat) (f : Nat → Nat) (hs : MemOk s) :
    MemOk (schedAtomic s asid va n f) := by
  unfold schedAtomic
  split
  · split
    · exact ownWrite_wf _ _ hs
    · exact ownWrite_wf _ _ hs
  · exact hs

theorem schedRead_eq_mem {s s' : State} {a va n : Nat} {bs : List Byte} (h : schedRead s a va n = (s', bs)) :
    s'.mem = s.mem := by
  rw [← schedRead_mem s a va n, h]

theorem fireNode_ok {s : State} (p node n : Nat) (hs : MemOk s) : MemOk (fireNode s p node n) := by
  unfold fireNode
  split
  · extract_lets k asid count batch
    split
    rename_i s1 db h1
    have hs1 : MemOk s1 := by rwa [MemOk, schedRead_eq_mem h1]
    split
    rename_i s2 tb h2
    have hs2 : MemOk s2 := by
      split at h2
      · rwa [MemOk, schedRead_eq_mem h2]
      · cases h2
        exact hs1
    dsimp only
    split
    · rw [MemOk, modPart_mem, spawnTeams_mem]
      exact modNode_ok _ _ _ hs2
    · exact sqPush_ok _ _ (modNode_ok _ _ _ (launchOver_ok _ (modNode_ok _ _ _ hs2)))
  · exact hs

theorem drained_ok {s : State} (p node : Nat) (hs : MemOk s) : MemOk (drained s p node) := by
  exact foldl_keeps MemOk _ (fun _ _ hs => modNode_ok _ _ _ hs) _ _ (modNode_ok _ _ _ hs)

theorem fireDue_ok {s s' : State} {p node : Nat} (hs : MemOk s) (h : fireDue s p node = some s') : MemOk s' := by
  unfold fireDue at h
  obtain ⟨N, -, h⟩ := Option.bind_eq_some_iff.1 h
  split at h
  · simp at h
  · rename_i n last r _
    split at h
    · simp at h
    · obtain rfl := Option.some.inj h
      have fired : MemOk (modNode (if n == 0 then s else wakePart (fireNode s p node n) p) p node fun N => { N with due := r }) := by
        refine modNode_ok _ _ _ ?_
        split
        · exact hs
        · rw [MemOk, wakePart_mem]
          exact fireNode_ok _ _ _ hs
      split
      · exact drained_ok _ _ fired
      · exact fired

theorem fireAllDue_ok {s : State} (p node n : Nat) (hs : MemOk s) : MemOk (fireAllDue p node n s) := by
  induction n generalizing s with
  | zero => exact hs
  | succ n ih =>
    unfold fireAllDue
    split
    · exact hs
    · exact ih (fireDue_ok hs ‹_›)

theorem drainRoot_ok {s : State} (p node fresh : Nat) (hs : MemOk s) : MemOk (drainRoot s p node fresh) := by
  unfold drainRoot
  split <;> simp [MemOk, fireAllDue_ok, modNode_ok, hs]

theorem rdmaPut_ok {s : State} (r : RdmaReq) (ps : List (Nat × Nat × Nat)) (hs : MemOk s) :
    MemOk (rdmaPut s r ps) := by
  exact foldl_keeps MemOk _ (fun _ _ hs => ownWrite_wf _ _ hs) _ s hs

theorem commitRecords_ok {s0 : State} (p : Nat) (imm : Word) (hs : MemOk s0) : MemOk (commitRecords s0 p imm) := by
  unfold commitRecords
  dsimp only
  (repeat' split) <;> simp [MemOk, drainRoot_ok, modNode_ok, hs]

theorem saveContext_ok {s : State} (t : Nat) (hs : MemOk s) : MemOk (saveContext s t) := by
  unfold saveContext
  split
  · exact hs
  · split
    · exact hs
    · rename_i T _ _ b _
      have free := freeBytes_mem s (min (contextBytes T) (2 ^ 20 - 64))
      generalize freeBytes s (min (contextBytes T) (2 ^ 20 - 64)) = r at free ⊢
      refine putHeader_ok _ ?_
      rw [MemOk, modTeam_mem]
      exact ownWrite_wf _ _ (by rwa [free])

theorem enterShadow_ok {s : State} (t core : Nat) (T : Team) (hs : MemOk s) : MemOk (enterShadow s t core T) := by
  unfold enterShadow
  dsimp only
  (repeat' split) <;> simp [MemOk, putHeader_ok, hs]

theorem finishSwap_ok {s : State} (core : Nat) (hs : MemOk s) : MemOk (finishSwap s core) := by
  unfold finishSwap
  dsimp only
  (repeat' split) <;> simp [MemOk, putHeader_ok, hs]

theorem decideSwap_ok {s : State} (core : Nat) (C : Core) (hs : MemOk s) : MemOk (decideSwap s core C) := by
  unfold decideSwap
  dsimp only
  (repeat' split) <;> simp [MemOk, finishSwap_ok, hs]

theorem saveVictim_ok {s : State} (c : Claim) (hs : MemOk s) : MemOk (saveVictim s c) := by
  unfold saveVictim
  (repeat' split) <;> simp [MemOk, saveRegion_ok, saveTile_ok, hs]

theorem settleClaim_ok {s : State} (c : Claim) (hs : MemOk s) : MemOk (settleClaim s c) := by
  unfold settleClaim
  (repeat' split) <;> simp [MemOk, fillRegion_ok, fillTile_ok, hs]

theorem drainSq_ok {s : State} (p : Nat) (hs : MemOk s) : MemOk (drainSq s p) := by
  simp [MemOk, drainSq, sqDrain_ok, hs]

theorem areaSet_ok {s : State} (p off : Nat) (value : DWord) (hs : MemOk s) : MemOk (areaSet s p off value) := by
  unfold areaSet
  (repeat' split) <;> simp [MemOk, drainSq_ok, hs]

theorem partWrite_ok {s : State} (p off : Nat) (v : DWord) (hs : MemOk s) : MemOk (partWrite s p off v) := by
  unfold partWrite
  (repeat' split) <;> simp [MemOk, areaSet_ok, drainSq_ok, hs]

/-- What comes back and what goes under another key keeps the form: the entries left are part of the old ones, and each byte put back
is written (R507). -/
theorem reseal_ok {s0 s : State} (hs : MemOk s) : MemOk (reseal s0 s) :=
  foldl_memSet_wf _ _ _ (Memory.wf_filter _ hs)

theorem regionPut_ok {s : State} (i : Nat) (rega regb : DWord) (hs : MemOk s) : MemOk (regionPut s i rega regb) := by
  simp [MemOk, regionPut, reseal_ok, hs]

theorem regionSet_ok {s : State} (i : Nat) (rega regb : DWord) (hs : MemOk s) : MemOk (regionSet s i rega regb) := by
  unfold regionSet
  split <;> simp [MemOk, regionPut_ok, hs]

theorem keyLoadSlot_ok {s : State} (die slot : Nat) (hs : MemOk s) : MemOk (keyLoadSlot s die slot) := by
  simp [MemOk, keyLoadSlot, reseal_ok, hs]

theorem keyCommand_ok {s : State} (die v : Nat) (hs : MemOk s) : MemOk (keyCommand s die v) := by
  unfold keyCommand
  split <;> simp [MemOk, keyLoadSlot_ok, hs]

theorem caltusWrite_ok {s : State} (die n : Nat) (v : DWord) (hs : MemOk s) : MemOk (caltusWrite s die n v) := by
  unfold caltusWrite
  dsimp only
  split
  · split
    · exact regionSet_ok _ _ _ hs
    · exact regionSet_ok _ _ _ hs
  · split
    · rwa [MemOk, worldSet_mem]
    · split
      · exact hs
      · split
        · exact keyCommand_ok _ _ hs
        · exact hs

theorem caltusDo_ok {s : State} (r : CaltusReq) (hs : MemOk s) : MemOk (caltusDo s r) := by
  unfold caltusDo
  split
  · rwa [MemOk, worldPut_mem]
  · exact regionPut_ok _ _ _ hs
  · exact keyLoadSlot_ok _ _ hs
  · rwa [MemOk, keyEraseSlot_mem]
  · exact hs
  · rwa [MemOk, extendMreg_mem]

theorem caltusMove_ok {s : State}  (hs : MemOk s) : MemOk (caltusMove s) := by
  unfold caltusMove
  (repeat' split) <;> simp [MemOk, caltusDo_ok, hs]

theorem loadImage_ok {s : State} (i : Nat) (im : List Byte) (hs : MemOk s) : MemOk (loadImage s i im) := by
  simp [MemOk, loadImage, ownWrite_wf, hs]

theorem bootFirmware_ok {s : State} (b : Bringup) (hs : MemOk s) : MemOk (bootFirmware b s) := by
  unfold bootFirmware
  (repeat' split) <;> simp [MemOk, loadImage_ok, hs]

theorem retireTrap_ok (c : WCtx) (cause : Cause) (arg epc : DWord) (hs : MemOk c.s) :
    MemOk (retireTrap c cause arg epc) := by
  simp [MemOk, retireTrap, takeTrapAt_ok, hs]

theorem wakeMove_ok {s : State} (t w : Nat) (hs : MemOk s) : MemOk (wakeMove s t w) := by
  unfold wakeMove
  dsimp only
  split
  · exact hs
  · split
    · rwa [MemOk, wakeWave_mem]
    · split
      · exact hs
      · rw [MemOk, foldl_same State.mem _ (fun s g => modWave_mem s _ _ _)]
        exact hs

end Sys2Proof.Machine

end

