-- ==== Sys2Proof/Proofs/MemoryRuns.lean ====
section
/-! SUPPORT. The readers of the matrix unit, of a ray and of a reuse pass keep the form of memory, whether they end or
stop. -/

namespace Sys2Proof.Machine

/-- What a checked sequence leaves: `Q` of the value it ends with, `E` of what stops it. -/
def Ends {ε α : Type} (E : ε → Prop) (Q : α → Prop) : Except ε α → Prop
  | .ok a => Q a
  | .error e => E e

section
variable {ε α β : Type} {E : ε → Prop} {P : α → Prop} {Q : β → Prop}

theorem Ends.bind {x : Except ε α} {f : α → Except ε β} (hx : Ends E P x) (hf : ∀ a, P a → Ends E Q (f a)) :
    Ends E Q (x >>= f) := by
  cases x with
  | ok a => exact hf a hx
  | error e => exact hx

theorem Ends.map {x : Except ε α} {f : α → β} (hx : Ends E P x) (hf : ∀ a, P a → Q (f a)) : Ends E Q (x.map f) := by
  cases x with
  | ok a => exact hf a hx
  | error e => exact hx

theorem Ends.foldlM {γ : Type} {f : α → γ → Except ε α} (hf : ∀ a c, P a → Ends E P (f a c)) (l : List γ) (a : α)
    (ha : P a) :
    Ends E P (l.foldlM f a) := by
  induction l generalizing a with
  | nil => exact ha
  | cons c r ih =>
    rw [List.foldlM_cons]
    exact .bind (hf a c ha) ih

theorem Ends.ok {x : Except ε α} {a : α} (hx : Ends E P x) (h : x = .ok a) : P a := by
  subst h
  exact hx

theorem Ends.error {x : Except ε α} {e : ε} (hx : Ends E P x) (h : x = .error e) : E e := by
  subst h
  exact hx

end

/-- A stop of a matrix operation leaves memory in its form. -/
def MxStop.Ok : MxStop → Prop
  | .fail .. => True
  | .units s => MemOk s

theorem mxStopped_ok {s : State} (t : Nat) (op : MxOp) {e : MxStop} (hs : MemOk s) (he : e.Ok) :
    MemOk (mxStopped s t op e) := by
  cases e with
  | units s1 => exact he
  | fail r a pages => exact mxFail_ok _ _ _ _ _ hs

theorem drainRun_ok {s : State} (t : Nat) (x : Operand) (ps : List Piece) (hs : MemOk s) :
    Ends MxStop.Ok MemOk (drainRun s t x ps) := by
  unfold drainRun
  dsimp only
  split
  · split
    · split
      · trivial
      · split
        · show MemOk _
          rwa [MemOk, askEng_mem]
        · refine foldl_keeps MemOk _ (fun s q hs => engWrite_ok _ _ _ _ hs) _ _ ?_
          rwa [MemOk, fetchBursts_mem]
    · split
      · show MemOk _
        rwa [MemOk, needUnits_mem]
      · show MemOk _
        rwa [MemOk, modTeam_mem, needUnits_mem]
  · exact hs

theorem drainLine_ok {s : State} (t tile : Nat) (nsat : Bool) (mask : BitVec 8) (l : DrainLine) (hs : MemOk s) :
    Ends MxStop.Ok MemOk (drainLine s t tile nsat mask l) := by
  unfold drainLine
  split
  · exact hs
  · exact .map (.foldlM (fun s r hs => drainRun_ok _ _ _ hs) _ _ hs) fun s hs => by rwa [MemOk, modTeam_mem]

theorem runDrain_ok {s : State} (t : Nat) (op : MxOp) (tile : Nat) (nsat : Bool) (mask : BitVec 8)
    (ls : List DrainLine)
    (hs : MemOk s) : MemOk (runDrain t op tile nsat mask ls s) := by
  induction ls generalizing s with
  | nil =>
    rw [runDrain, MemOk, modOp_mem]
    exact hs
  | cons l r ih =>
    have line := drainLine_ok t tile nsat mask l hs
    rw [runDrain]
    split
    · exact ih (by rw [MemOk, modOp_mem]; exact line.ok ‹_›)
    · exact mxStopped_ok _ _ hs (line.error ‹_›)

theorem fetchRanges_ok {s : State} (t : Nat) (handle : Bool) (rs : List (Nat × Nat)) (hs : MemOk s) :
    Ends MxStop.Ok (fun r => MemOk r.1) (fetchRanges s t handle rs) := by
  unfold fetchRanges
  dsimp only
  split
  · exact hs
  · split
    · refine .foldlM (fun a r ha => ?_) _ _ hs
      have read : MemOk (engRead a.1 (matrixEng a.1 ‹Team›) r.1 r.2).1 := by rwa [MemOk, engRead_mem]
      split
      · rename_i h
        rw [h] at read
        show MemOk _
        rwa [MemOk, fetchBursts_mem]
      · rename_i h
        rw [h] at read
        exact read
      · trivial
    · split
      · trivial
      · split
        · show MemOk _
          rwa [MemOk, needUnits_mem]
        · split
          · show MemOk _
            rwa [MemOk, needUnits_mem]
          · show MemOk _
            rwa [MemOk, needUnits_mem]

theorem fetchPlane_ok {s : State} (t : Nat) (p : Plane) (b : BStep) (cols : List Nat) (hs : MemOk s) :
    Ends MxStop.Ok (fun r => MemOk r.1) (fetchPlane s t p b cols) :=
  .bind (fetchRanges_ok _ _ _ hs) fun _ h => .bind (fetchRanges_ok _ _ _ h) fun _ h => .bind (fetchRanges_ok _ _ _ h) fun _ h => h

theorem ensurePlane_ok {s : State} (t : Nat) (p : Plane) (mask : BitVec 8) (db dm : Int) (k j : Nat) (hs : MemOk s) :
    Ends MxStop.Ok MemOk (ensurePlane s t p mask db dm k j) := by
  unfold ensurePlane
  split
  · exact hs
  · split
    · exact hs
    · refine .bind (fetchPlane_ok _ _ _ _ hs) fun r hr => ?_
      show MemOk _
      rwa [MemOk, modTeam_mem]

theorem startOp_ok {s : State} (t : Nat) (T : Team) (op : MxOp) (hs : MemOk s) : MemOk (startOp s t T op) := by
  unfold startOp
  extract_lets done
  have done_ok (s : State) (hs : MemOk s) : MemOk (done s) := by
    show MemOk (modOp _ _ _ _)
    rwa [MemOk, modOp_mem]
  split
  · exact done_ok _ (foldl_keeps MemOk _ (fun s p hs => by rwa [MemOk, modTile_mem]) _ s hs)
  · exact done_ok _ (by rwa [MemOk, modTile_mem])
  · exact done_ok _ (by rwa [MemOk, modWave_mem])
  · exact done_ok _ (by rwa [MemOk, modWave_mem])
  · exact done_ok _ (by rwa [MemOk, modTile_mem])
  · extract_lets s1
    have hs1 : MemOk s1 := by
      rw [MemOk, modOp_mem]
      split
      · exact hs
      · rwa [modTeam_mem]
    have plane := ensurePlane_ok t ‹Plane› ‹_› 0 0 ‹Plane›.op.stepK 0 hs1
    split
    · exact done_ok _ (plane.ok ‹_›)
    · exact mxStopped_ok _ _ hs1 (plane.error ‹_›)
  · have hs1 : MemOk (modOp s t op.id fun o => { o with started := true }) := by rwa [MemOk, modOp_mem]
    split
    · exact hs1
    · split
      · exact done_ok _ hs1
      · split
        · rwa [MemOk, stopOp_mem]
        · split
          · exact (ensurePlane_ok _ _ _ _ _ _ _ hs1).ok ‹_›
          · exact mxStopped_ok _ _ hs1 ((ensurePlane_ok _ _ _ _ _ _ _ hs1).error ‹_›)
  · exact runDrain_ok _ _ _ _ _ _ (by rwa [MemOk, modOp_mem])
  · exact startChain_ok _ _ _ _ _ _ _ _ hs
  · exact startTransfer_ok _ _ _ _ _ _ hs
  · exact startTransfer_ok _ _ _ _ _ _ hs

theorem parkLanes_ok {s : State} (k slot : Nat) (rs : List (Acc × EngRes)) (hs : MemOk s) :
    MemOk (parkLanes k slot rs s) := by
  unfold parkLanes
  split
  · exact hs
  · extract_lets pages s1
    have hs1 : MemOk s1 := by
      refine foldl_keeps MemOk _ (fun s r hs => ?_) _ s hs
      split
      · rwa [MemOk, raiseHalt_mem]
      · exact hs
    split
    · rw [MemOk, modPass_mem]
      exact parkEngine_ok _ _ _ _ _ hs1
    · exact hs1

theorem setAside_ok {s : State} (k slot : Nat) (C : Cluster) (P : Pass) (hs : MemOk s) :
    MemOk (setAside s k slot C P) := by
  unfold setAside
  refine parkLanes_ok _ _ _ (foldl_keeps MemOk _ (fun s e hs => elim_ok hs fun va _ => ?_) _ _ ?_)
  · rwa [MemOk, askEng_mem]
  · rwa [MemOk, modCluster_mem, modPass_mem]

/-- A sequence over the machine keeps the form of memory, whether it ends or stops. -/
def RayOk {α : Type} (m : RayM α) : Prop := ∀ s, MemOk s → MemOk (m.run s).2

theorem RayOk.pure {α : Type} (a : α) : RayOk (Pure.pure a : RayM α) := fun _ h => h

theorem RayOk.throw {α : Type} (e : RayStop) : RayOk (MonadExcept.throw e : RayM α) := fun _ h => h

/-- What follows a stop is not reached. -/
theorem RayOk.stops {α β : Type} (e : RayStop) (f : α → RayM β) : RayOk (MonadExcept.throw e >>= f) := fun _ h => h

theorem RayOk.set {s : State} (h : MemOk s) : RayOk (MonadStateOf.set s : RayM PUnit) := fun _ _ => h

theorem RayOk.update {f : State → State} (h : ∀ s, MemOk s → MemOk (f s)) : RayOk (modify f : RayM PUnit) := h

theorem RayOk.bind {α β : Type} {x : RayM α} {f : α → RayM β} (hx : RayOk x) (hf : ∀ a, RayOk (f a)) :
    RayOk (x >>= f) := by
  intro s hs
  have run : (x >>= f).run s = match x.run s with
      | (.ok a, s1) => (f a).run s1
      | (.error e, s1) => (.error e, s1) := by
    simp only [ExceptT.run_bind]
    show StateT.bind _ _ s = _
    simp only [StateT.bind, Bind.bind]
    rcases x.run s with ⟨_ | a, s1⟩ <;> rfl
  have first := hx s hs
  rw [run]
  revert first
  rcases x.run s with ⟨_ | a, s1⟩
  · exact id
  · exact hf a s1

/-- What is read of the machine is a state in the form. -/
theorem RayOk.get_bind {β : Type} {f : State → RayM β} (hf : ∀ s, MemOk s → RayOk (f s)) :
    RayOk (MonadState.get >>= f) :=
  fun s hs => hf s hs s hs

theorem RayOk.ite {α : Type} {c : Prop} [Decidable c] {x y : RayM α} (hx : RayOk x) (hy : RayOk y) :
    RayOk (if c then x else y) := by
  split
  · exact hx
  · exact hy

theorem RayOk.foldlM {α β : Type} {f : β → α → RayM β} (hf : ∀ b a, RayOk (f b a)) (l : List α) (b : β) :
    RayOk (l.foldlM f b) := by
  induction l generalizing b with
  | nil => exact .pure b
  | cons a r ih =>
    rw [List.foldlM_cons]
    exact .bind (hf b a) ih

/-- Spill slots whose store and load keep the form. -/
def Spills.Ok (sp : Spills) : Prop := (∀ a bs, RayOk (sp.store a bs)) ∧ ∀ a, RayOk (sp.load a)

theorem Trav.push_ok {sp : Spills} (hsp : sp.Ok) (x : Trav) (ref : Nat) : RayOk (x.push sp ref) := by
  unfold Trav.push
  refine .ite (.pure _) (.ite (.pure _) (.ite (.pure _) ?_))
  dsimp only
  split
  · exact .pure _
  · exact .ite (.pure _) (.bind (hsp.1 _ _) fun _ => .pure _)

theorem Trav.pop_ok {sp : Spills} (hsp : sp.Ok) (x : Trav) : RayOk (x.pop sp) := by
  unfold Trav.pop
  refine .ite (.pure _) (.ite (.pure _) ?_)
  split
  · exact .pure _
  · refine .ite (.pure _) (.bind (hsp.2 _) fun o => ?_)
    cases o <;> exact .pure _

theorem Trav.pushAll_ok {sp : Spills} (hsp : sp.Ok) (l : List Child) (x : Trav) : RayOk (Trav.pushAll sp l x) := by
  induction l generalizing x with
  | nil => exact .pure x
  | cons c r ih => exact .bind (Trav.push_ok hsp x c.ref) fun y => .ite (.pure y) (ih y)

theorem Trav.leaf_ok {rd : Reader} (hrd : ∀ va n, RayOk (rd va n)) (base size first count n : Nat) (x : Trav) :
    RayOk (Trav.leaf rd base size first count n x) := by
  induction n generalizing x with
  | zero => exact .pure x
  | succ n ih =>
    refine .bind (hrd _ _) fun r => .ite (.pure _) ?_
    dsimp only
    split
    · exact ih x
    · exact .ite (.pure _) (ih _)

theorem Trav.visit_ok {rd : Reader} {sp : Spills} (hrd : ∀ va n, RayOk (rd va n)) (hsp : sp.Ok) (bvh : Nat)
    (x : Trav) :
    RayOk (x.visit rd sp bvh) := by
  unfold Trav.visit
  refine .ite (.bind (hrd _ _) fun r => .ite (.pure _) ?_) (.bind (hrd _ _) fun r => .ite (.pure _) ?_)
  · dsimp only
    split
    · exact Trav.pop_ok hsp _
    · exact .bind (Trav.pushAll_ok hsp _ _) fun _ => .pure _
  · exact .ite (.pure _) (.bind (Trav.leaf_ok hrd _ _ _ _ _ _) fun y => .ite (.pure y) (Trav.pop_ok hsp y))

theorem Trav.run_ok {rd : Reader} {sp : Spills} (hrd : ∀ va n, RayOk (rd va n)) (hsp : sp.Ok) (bvh f n : Nat)
    (x : Trav) :
    RayOk (Trav.run rd sp bvh f n x) := by
  induction f generalizing n x with
  | zero => exact .pure x
  | succ f ih =>
    exact .ite (.pure x) (.ite (.bind (Trav.pop_ok hsp x) fun y => ih n y)
      (.bind (Trav.visit_ok hrd hsp bvh x) fun y => ih (n - 1) y))

theorem lightWalk_ok {rd : Reader} (hrd : ∀ va n, RayOk (rd va n)) (base : Nat) (p : List XV) (n : Nat) (w : Walk) :
    RayOk (lightWalk rd base p n w) := by
  induction n generalizing w with
  | zero => exact .pure _
  | succ n ih =>
    unfold lightWalk
    split
    · exact .pure w
    · refine .ite (.pure w) (.bind (hrd _ _) fun a => .bind (hrd _ _) fun b => .bind (hrd _ _) fun c => ?_)
      exact .ite (.pure _) (ih _)

/-! The readers and spill slots of a wave (R272, R281). -/

theorem rayPiece_ok (t w va pa n : Nat) : RayOk (rayPiece t w va pa n) := by
  have fill (s : State) (b : Bool) (T : Team) (f : Core → Core) (hs : MemOk s) :
      MemOk (modCore (useFar (if b then s else dropLines s T.core fun l => l == loc s pa / 128) (.wave t w) pa) T.core f) := by
    rw [MemOk, modCore_mem, useFar_mem]
    split
    · exact hs
    · rwa [dropLines_mem]
  refine .get_bind fun s hs => ?_
  dsimp only
  split
  · refine .ite (.stops _ _) ?_
    split
    · exact .bind (.pure _) fun _ => .bind (.set (fill _ _ _ _ hs)) fun _ => .pure _
    · refine .ite (.bind (.pure _) fun _ => .bind (.set (fill _ _ _ _ hs)) fun _ => .pure _) ?_
      split
      · exact .bind (.pure _) fun _ => .bind (.set (fill _ _ _ _ hs)) fun _ => .pure _
      · exact .bind (.set (by rwa [MemOk, farAsk_mem])) fun _ => .stops _ _
  · exact .throw _

theorem rayPieceAt_ok (t w va n : Nat) : RayOk (rayPieceAt t w va n) := by
  refine .get_bind fun s hs => ?_
  split
  · exact .throw _
  · split
    · exact .throw _
    · exact .throw _
    · exact .throw _
    · split
      · exact rayPiece_ok _ _ _ _ _
      · exact .throw _
      · exact .throw _
      · exact .throw _
      · refine .bind (.set (?_ : MemOk (freeBytes (countDiscard s _) n).2)) fun _ => .pure _
        rwa [MemOk, freeBytes_mem, countDiscard_mem]

theorem rayReader_ok (t w align va n : Nat) : RayOk (rayReader t w align va n) := by
  unfold rayReader
  dsimp only
  refine .ite (.stops _ _) (.get_bind fun s hs => .ite (.stops _ _) (.ite (.stops _ _) (.foldlM (fun a p => ?_) _ _)))
  exact .bind (rayPieceAt_ok _ _ _ _) fun _ => .pure _

theorem raySpills_ok (s : State) (t w : Nat) : (raySpills s t w).Ok := by
  refine ⟨fun a bs => .update fun s hs => by rwa [MemOk, modWave_mem], fun a => .get_bind fun s hs => ?_⟩
  have claimed := needUnits_mem s t false (regionsOf a 16)
  generalize needUnits s t false (regionsOf a 16) = r at claimed ⊢
  refine .bind (.set (by rwa [MemOk, claimed])) fun _ => ?_
  split
  · exact .ite (.pure _) (.ite (.throw _) (.ite (.pure _) (.pure _)))
  · exact .pure _

theorem rayLane_ok (s0 : State) (r : RayOp) (W : Wave) (lane : Nat) (vals : List Nat) :
    RayOk (rayLane s0 r W lane vals) := by
  have reader (n va k : Nat) : RayOk (rayReader r.team r.wave n va k) := rayReader_ok _ _ _ _ _
  unfold rayLane
  dsimp only
  split
  · exact .bind (reader _ _ _) fun _ => .pure _
  · exact .bind (reader _ _ _) fun _ => .pure _
  · exact .bind (reader _ _ _) fun _ => .pure _
  · exact .ite (.pure _) (.bind (Trav.run_ok (reader 16) (raySpills_ok _ _ _) _ _ _ _) fun _ => .pure _)
  · exact .bind (lightWalk_ok (reader 32) _ _ _ _) fun _ => .pure _

theorem rayLanes_ok {s : State} (s0 : State) (r : RayOp) (W : Wave) (l : List (Nat × List Nat)) (hs : MemOk s) :
    MemOk (rayLanes s0 r W l s).2 := by
  induction l generalizing s with
  | nil => exact hs
  | cons x rest ih => exact ih (rayLane_ok s0 r W x.1 x.2 s hs)

/-! The engine's reads and the advances of a pass (R291, R296, R419). -/

theorem RayOk.pass (k slot : Nat) (f : Pass → Pass) : RayOk (modify fun s => modPass s k slot f : RayM PUnit) :=
  .update fun s hs => by rwa [MemOk, modPass_mem]

theorem passReader_ok (k slot align va n : Nat) : RayOk (passReader k slot align va n) := by
  refine .get_bind fun s hs => ?_
  split
  · exact .throw _
  · refine .ite (.stops _ _) (.bind (.set (?_ : MemOk (engRead s _ va n).1)) fun _ => ?_)
    · rwa [MemOk, engRead_mem]
    split
    · exact .pure _
    · exact .throw _
    · exact .throw _
    · exact .throw _
    · exact .throw _

theorem itemPlace_ok (k slot : Nat) (P : Pass) (x y : Nat) : RayOk (itemPlace k slot P x y) := by
  refine .ite (.pure _) (.ite (.ite (.pure _) (.bind (passReader_ok _ _ _ _ _) fun r => ?_)) (.ite (.pure _) (.pure _)))
  dsimp only
  split
  · exact .pure _
  · exact .pure _

theorem readRecord_ok (k slot : Nat) (P : Pass) (par x y : Nat) : RayOk (readRecord k slot P par x y) :=
  .bind (passReader_ok _ _ _ _ _) fun _ => .bind (passReader_ok _ _ _ _ _) fun _ => .pure _

theorem readCand_ok (k slot : Nat) (P : Pass) (par x y : Nat) : RayOk (readCand k slot P par x y) :=
  .bind (readRecord_ok _ _ _ _ _ _) fun _ => .pass _ _ _

theorem gatherItem_ok (k slot : Nat) (P : Pass) : RayOk (gatherItem k slot P) := by
  refine .bind (.pass _ _ _) fun _ => ?_
  split
  · exact .pure _
  · refine .ite (.pass _ _ _) (.bind (itemPlace_ok _ _ _ _ _) fun r => .bind (.pass _ _ _) fun _ => ?_)
    split
    · exact .pass _ _ _
    · refine .get_bind fun s hs => .ite ?_ (readCand_ok _ _ _ _ _ _)
      split
      · exact .pass _ _ _
      · exact .pass _ _ _

theorem finishPixel_ok (k slot : Nat) (P : Pass) (p : Pixel) : RayOk (finishPixel k slot P p) := by
  refine .get_bind fun s hs => .bind (.set (engWrite_ok _ _ _ _ hs)) fun _ => ?_
  split
  · exact .pass _ _ _
  · exact .throw _
  · exact .throw _
  · exact .throw _
  · exact .throw _

theorem passAdvance_ok (k slot : Nat) : RayOk (passAdvance k slot) := by
  refine .get_bind fun s hs => ?_
  split
  · exact .pure _
  · refine .bind (.pass _ _ _) fun _ => ?_
    dsimp only
    split
    · exact .bind (finishPixel_ok _ _ _ _) fun _ => .pure _
    · refine .ite (.bind (.update fun s hs => ?_) fun _ => .pure _) (.ite (.bind (.update fun s hs => ?_) fun _ => .pure _)
        (.ite (.bind (.update fun s hs => ?_) fun _ => .pure _) (.ite (.bind (gatherItem_ok _ _ _) fun _ => .pure _) (.pure _))))
      · rwa [MemOk, modCluster_mem, modPass_mem]
      · exact setAside_ok _ _ _ _ hs
      · rwa [MemOk, startEval_mem]

theorem passAdvances_ok (k slot n : Nat) : RayOk (passAdvances k slot n) := by
  induction n with
  | zero => exact .pure _
  | succ n ih => exact .bind (passAdvance_ok _ _) fun go => .ite ih (.pure _)

theorem haloRecords_ok (k slot par : Nat) (wanted : Option (Nat × Nat)) (n : Nat) (todo : List (Nat × Nat)) :
    RayOk (haloRecords k slot par wanted n todo) := by
  induction n generalizing todo with
  | zero => exact .pure _
  | succ n ih =>
    cases todo with
    | nil => exact .pure _
    | cons p rest =>
      refine .get_bind fun s hs => ?_
      split
      · exact .pure _
      · rename_i P _
        have read := readRecord_ok k slot P par p.1 p.2 s hs
        generalize (readRecord k slot P par p.1 p.2).run s = r at read ⊢
        rcases r with ⟨e | r, s1⟩
        · cases e with
          | units => exact .bind (.set read) fun _ => .pure _
          | _ => exact .ite (.throw _) (ih rest)
        · exact .bind (.set read) fun _ => .bind (.pass _ _ _) fun _ => ih rest

theorem passRun_ok {s : State} (k slot : Nat) (acc : Pass → Acc) {m : RayM Unit} (hm : RayOk m) (hs : MemOk s) :
    MemOk (passRun s k slot acc m) := by
  have ran := hm s hs
  unfold passRun
  generalize m.run s = r at ran ⊢
  rcases r with ⟨_ | _, s1⟩
  · exact passStop_ok _ _ _ _ ran
  · exact ran

theorem haloMove_ok {s : State} (n : Nat) (hs : MemOk s) : MemOk (haloMove s n) := by
  unfold haloMove
  split
  · exact hs
  · split
    · exact hs
    · split
      · exact hs
      · rename_i h _ _ P _ _
        extract_lets wanted
        have ran := haloRecords_ok h.cluster h.slot h.parity wanted 4 h.todo s hs
        generalize (haloRecords h.cluster h.slot h.parity wanted 4 h.todo).run s = r at ran ⊢
        rcases r with ⟨_ | l, s1⟩
        · exact passStop_ok _ _ _ _ ran
        · cases l with
          | nil => exact ran
          | cons a l => exact ran

end Sys2Proof.Machine

end

