-- ==== Sys2Proof/Proofs/MemoryRules.lean ====
section
/-! SUPPORT. Rules for what a word or an event does between its checks and its end: the form of memory is kept by
every state it may leave. -/

namespace Sys2Proof.Machine

/-! Words and events: a stop that waits keeps the state it comes with, every other one leaves the state before. -/

/-- A stop of a word or an event leaves memory in its form. -/
def Stop.Ok : Stop → Prop
  | .wait _ s => MemOk s
  | _ => True

/-- An outcome leaves memory in its form. -/
def OutOk : Host.Outcome State Fault Refusal → Prop
  | .next s => MemOk s
  | _ => True

/-- The state of a pair, taken out of it. -/
theorem memOk_fst {α : Type} {p : State × α} {s : State} {a : α} (h : p = (s, a)) (hp : MemOk p.1) : MemOk s := by
  subst h
  exact hp

theorem Ends.ite {ε α : Type} {E : ε → Prop} {Q : α → Prop} {c : Prop} [Decidable c] {x y : Except ε α}
    (hx : Ends E Q x)
    (hy : Ends E Q y) : Ends E Q (if c then x else y) := by
  split
  · exact hx
  · exact hy

@[simp] theorem Ends.ok_iff {ε α : Type} {E : ε → Prop} {Q : α → Prop} {a : α} : Ends E Q (.ok a) ↔ Q a := Iff.rfl

@[simp] theorem Ends.error_iff {ε α : Type} {E : ε → Prop} {Q : α → Prop} {e : ε} :
    Ends E Q (.error e) ↔ E e := Iff.rfl

@[simp] theorem Stop.ok_off : Stop.off.Ok := trivial

section
variable {α β : Type} {Q : β → Prop}

theorem Ends.need {o : Option α} {f : α → Except Stop β} (hf : ∀ a, Ends Stop.Ok Q (f a)) :
    Ends Stop.Ok Q (need o >>= f) := by
  cases o with
  | none => trivial
  | some a => exact hf a

theorem Ends.need_some {o : Option α} {f : α → Except Stop β} (hf : ∀ a, o = some a → Ends Stop.Ok Q (f a)) :
    Ends Stop.Ok Q (Machine.need o >>= f) := by
  cases o with
  | none => trivial
  | some a => exact hf a rfl

theorem Ends.needed {o : Option β} (h : ∀ a, o = some a → Q a) : Ends Stop.Ok Q (Machine.need o) := by
  cases o with
  | none => trivial
  | some a => exact h a rfl

theorem Ends.needs {b : Bool} {f : Unit → Except Stop β} (hf : Ends Stop.Ok Q (f ())) :
    Ends Stop.Ok Q (needs b >>= f) := by
  cases b
  · trivial
  · exact hf

theorem Ends.trapIf {b : Bool} {c : Cause} {arg : DWord} {f : Unit → Except Stop β} (hf : Ends Stop.Ok Q (f ())) :
    Ends Stop.Ok Q (trapIf b c arg >>= f) := by
  cases b
  · exact hf
  · trivial

theorem Ends.waitIf {b : Bool} {k : WaitKind} {s : State} {f : Unit → Except Stop β} (hs : MemOk s)
    (hf : Ends Stop.Ok Q (f ())) :
    Ends Stop.Ok Q (waitIf b k s >>= f) := by
  cases b
  · exact hf
  · exact hs

/-- A check that can only stop the word. -/
theorem Ends.checked {x : Except Stop α} {f : α → Except Stop β} (hx : Ends Stop.Ok (fun _ => True) x)
    (hf : ∀ a, Ends Stop.Ok Q (f a)) : Ends Stop.Ok Q (x >>= f) :=
  .bind hx fun a _ => hf a

end

theorem OutOk.event {s : State} {r : Except Stop State} (hs : MemOk s) (hr : Ends Stop.Ok MemOk r) :
    OutOk (finishEvent s r) := by
  cases r with
  | ok s' => exact hr
  | error e => exact hs

theorem OutOk.wave {s : State} (t w : Nat) (g : BitVec 8) {r : Except Stop State} (hs : MemOk s)
    (hr : Ends Stop.Ok MemOk r) :
    OutOk (finishWave s t w g r) := by
  cases r with
  | ok s' => exact hr
  | error e =>
    cases e with
    | trap c arg => exact takeTrap_ok _ _ _ _ _ hs
    | wait k s' =>
      show MemOk _
      rw [MemOk, holdAt_mem]
      exact hr
    | off => exact hs
    | fault f => trivial

theorem OutOk.context {s : State} (x : Nat) {r : Except Stop State} (hs : MemOk s) (hr : Ends Stop.Ok MemOk r) :
    OutOk (finishCtx s x r) := by
  cases r with
  | ok s' => exact hr
  | error e =>
    cases e with
    | trap c arg =>
      show MemOk _
      rwa [MemOk, faultCtx_mem]
    | wait k s' =>
      show MemOk _
      rw [MemOk, modCtx_mem]
      exact hr
    | off => exact hs
    | fault f => trivial

theorem OutOk.lane {s : State} (k : Nat) {r : Except Stop State} (hs : MemOk s) (hr : Ends Stop.Ok MemOk r) :
    OutOk (finishLane s k r) := by
  cases r with
  | ok s' => exact hr
  | error e =>
    cases e with
    | trap c arg =>
      refine elim_ok hs fun e _ => ?_
      rwa [MemOk, setLane_mem]
    | wait k s' => exact hr
    | off => exact hs
    | fault f => trivial

theorem offProfile_ok {α : Type} {Q : α → Prop} (opc : Nat) :
    Ends Stop.Ok Q (offProfile opc : Except Stop α) := trivial

theorem kctx?_spec {s : State} {x : Nat} {c : KCtx} (h : kctx? s x = some c) : c.s = s := by
  unfold kctx? at h
  split at h
  · split at h
    · exact Option.some.inj h ▸ rfl
    · simp at h
  · simp at h

/-- A word keeps the form when its meaning in each profile does. -/
theorem OutOk.issue {s : State} (opc : Nat) (g : BitVec 4) {wave : WCtx → Except Stop State}
    {ctx : KCtx → Except Stop State}
    {lane : Eval → Except Stop Eval} (hs : MemOk s) (hwave : ∀ c, MemOk c.s → Ends Stop.Ok MemOk (wave c))
    (hctx : ∀ c, MemOk c.s → Ends Stop.Ok MemOk (ctx c)) (hlane : ∀ e, Ends Stop.Ok (fun _ => True) (lane e)) :
    OutOk (issue opc g s wave ctx lane) := by
  unfold Machine.issue
  split
  · trivial
  · split
    · trivial
    · rename_i h
      refine .wave _ _ _ hs ?_
      split
      · exact hwave _ (by rwa [(wctx?_spec h).1])
      · exact offProfile_ok _
  · split
    · trivial
    · rename_i h
      refine .context _ hs ?_
      split
      · exact hctx _ (by rwa [kctx?_spec h])
      · exact offProfile_ok _
  · split
    · trivial
    · refine .lane _ hs (.map (P := fun _ => True) ?_ fun e _ => by rwa [MemOk, setLane_mem])
      split
      · exact hlane _
      · exact offProfile_ok _

/-- A check of a word: it may stop the word, and a wait among its stops keeps a state in the form. -/
abbrev Checks {α : Type} (x : Except Stop α) : Prop := Ends Stop.Ok (fun _ => True) x

theorem trapIf_checks (b : Bool) (c : Cause) (arg : DWord) : Checks (trapIf b c arg) := by
  cases b <;> trivial

theorem waitIf_checks {s : State} (b : Bool) (k : WaitKind) (hs : MemOk s) : Checks (waitIf b k s) := by
  cases b
  · trivial
  · exact hs

theorem WCtx.checkPoison_ok (c : WCtx) (srcs : List Regs) : Checks (c.checkPoison srcs) := by
  unfold WCtx.checkPoison
  dsimp only
  split <;> trivial

theorem trapLane_ok (ls : List (Nat × Nat)) (bad : Nat → Bool) (c : Cause) : Checks (trapLane ls bad c) := by
  unfold trapLane
  split <;> trivial

theorem planLanes_ok (s : State) (T : Team) (a : Acc) (align : Nat) (ls : List (Nat × Nat)) :
    Checks (planLanes s T a align ls) :=
  .checked (trapLane_ok _ _ _) fun _ => .checked (trapLane_ok _ _ _) fun _ => .checked (trapLane_ok _ _ _) fun _ => trivial

theorem checkOffs_ok (T : Team) (size : Nat) (ls : List (Nat × Nat)) : Checks (checkOffs T size ls) :=
  .checked (trapLane_ok _ _ _) fun _ => trapLane_ok _ _ _

theorem checkPeers_ok (s : State) (T : Team) (size : Nat) (ls : List (Nat × Nat)) : Checks (checkPeers s T size ls) :=
  .checked (trapLane_ok _ _ _) fun _ => .checked (trapLane_ok _ _ _) fun _ => trapLane_ok _ _ _

theorem settleFlags_ok (fpctl : DWord) (xs : List (Nat × Exc × Exc)) : Checks (settleFlags fpctl xs) := by
  unfold settleFlags
  dsimp only
  split <;> trivial

@[simp] theorem WCtx.issued_mem (c : WCtx) : c.issued.s.mem = c.s.mem := by
  unfold WCtx.issued
  split
  · exact setTeam_mem _ _ _
  · rfl

theorem WCtx.issued_ok {c : WCtx} (hc : MemOk c.s) : MemOk c.issued.s := by
  rwa [MemOk, c.issued_mem]

theorem WCtx.put_ok {c : WCtx} {W : Wave} (hc : MemOk c.s) : MemOk (c.put W) := by
  rwa [MemOk, c.put_mem]

theorem WCtx.retire_ok {c : WCtx} {W : Wave} {b : Bool} (hc : MemOk c.s) : MemOk (c.retire W b) := by
  rwa [MemOk, c.retire_mem]

/-! What a word of a wave opens with. -/

theorem WCtx.takePops_ok {c : WCtx} (srcs : List Regs) (hc : MemOk c.s) :
    Ends Stop.Ok (fun d => MemOk d.s) (c.takePops srcs) := by
  refine .ite hc (.trapIf (.waitIf hc ?_))
  dsimp only
  split
  · trivial
  · refine .waitIf (issued_ok hc) (.waitIf (issued_ok hc) (foldl_keeps (fun d : WCtx => MemOk d.s) _ (fun d k hd => ?_) _ c hc))
    split
    · split
      · exact hd
      · exact hd
    · split
      · dsimp only
        split
        · exact hd
        · rwa [MemOk, invalidate_mem]
      · exact hd
    · exact hd

section
variable {α : Type} {Q : α → Prop}

theorem Ends.open {c : WCtx} {srcs dsts : List Regs} {uni : Bool} {f : WCtx → Except Stop α} (hc : MemOk c.s)
    (hf : ∀ d, MemOk d.s → Ends Stop.Ok Q (f d)) : Ends Stop.Ok Q (c.open srcs dsts uni >>= f) :=
  .bind (.trapIf (.trapIf (.waitIf hc (WCtx.takePops_ok srcs hc)))) hf

theorem Ends.begin {c : WCtx} {srcs dsts : List Regs} {uni : Bool} {f : WCtx → Except Stop α} (hc : MemOk c.s)
    (hf : ∀ d, MemOk d.s → Ends Stop.Ok Q (f d)) : Ends Stop.Ok Q (c.begin srcs dsts uni >>= f) :=
  .bind (.open hc fun d hd => .trapIf (.checked (d.checkPoison_ok srcs) fun _ => .waitIf hc hd)) hf

theorem Ends.poison {c : WCtx} {srcs : List Regs} {f : Unit → Except Stop α} (hf : Ends Stop.Ok Q (f ())) :
    Ends Stop.Ok Q (c.checkPoison srcs >>= f) :=
  .checked (c.checkPoison_ok srcs) fun _ => hf

/-- A word of a context opens with its operand codes and the wait for results. -/
theorem Ends.openCtx {c : KCtx} {srcs dsts : List (BitVec 8)} {f : Unit → Except Stop α} (hc : MemOk c.s)
    (hf : Ends Stop.Ok Q (f ())) : Ends Stop.Ok Q (c.open srcs dsts >>= f) :=
  .checked (.trapIf (waitIf_checks _ _ hc)) fun _ => hf

/-- A lane's word opens with its operand codes. -/
theorem Ends.openLane {srcs dsts : List Regs} {uni : Bool} {f : Unit → Except Stop α} (hf : Ends Stop.Ok Q (f ())) :
    Ends Stop.Ok Q (Eval.open srcs dsts uni >>= f) :=
  .checked (.trapIf (trapIf_checks _ _ _)) fun _ => hf

end

theorem ownUnits_ok {c0 c : WCtx} (offs : List Nat) (n : Nat) (hc0 : MemOk c0.s) (hc : MemOk c.s) :
    Ends Stop.Ok MemOk (ownUnits c0 c offs n) := by
  unfold ownUnits
  dsimp only
  split
  · show MemOk _
    rwa [MemOk, needUnits_mem, WCtx.put_mem]
  · show MemOk _
    rwa [MemOk, needUnits_mem]

/-! Arithmetic words. -/

theorem AluSpec.wave_ok (x : AluSpec) (bnd : Bool) {c : WCtx} (hc : MemOk c.s) :
    Ends Stop.Ok MemOk (x.wave bnd c) := by
  refine .trapIf (.begin hc fun d hd => .checked (settleFlags_ok _ _) fun fp => ?_)
  simp [MemOk, hd]

theorem AluSpec.stream_ok (x : AluSpec) (ok : Bool) {c : KCtx} (hc : MemOk c.s) :
    Ends Stop.Ok MemOk (x.stream ok c) := by
  refine .trapIf (.openCtx hc (.trapIf ?_))
  simp [MemOk, hc]

theorem AluSpec.lane_ok (x : AluSpec) (g : BitVec 4) (e : Eval) : Checks (x.lane g e) :=
  .trapIf (.openLane (.ite trivial (.trapIf (.checked (settleFlags_ok _ _) fun _ => trivial))))

theorem runAlu_ok {s : State} (opc : Nat) (f : AluW) (scFree : Bool) (x : AluSpec) (hs : MemOk s) :
    OutOk (runAlu opc f scFree x s) :=
  .issue _ _ hs (fun _ => x.wave_ok _) (fun _ => x.stream_ok _) (x.lane_ok _)

end Sys2Proof.Machine

end

