-- ==== Sys2Proof/Proofs/MemoryWords.lean ====
section
/-! SUPPORT. The words of waves and contexts keep the form of memory: accesses, the scratchpad, barriers, copies and
streams. -/

namespace Sys2Proof.Machine

/-- Two checks, one of which is made. -/
theorem Ends.either {α β : Type} {Q : β → Prop} {p : Prop} [Decidable p] {x y : Except Stop α} {f : α → Except Stop β}
    (hx : Checks x) (hy : Checks y) (hf : ∀ a, Ends Stop.Ok Q (f a)) : Ends Stop.Ok Q (if p then x >>= f else y >>= f) :=
  .ite (.checked hx hf) (.checked hy hf)

/-! Accesses to global memory. -/

theorem loadGlobal_ok (f : MemW) (uni : Bool) {c0 : WCtx} (h0 : MemOk c0.s) :
    Ends Stop.Ok MemOk (loadGlobal f uni c0) := by
  refine .trapIf (.open h0 fun c hc => .checked (planLanes_ok _ _ _ _ _) fun plan => .poison (.waitIf h0 ?_))
  refine endAccess_ok _ _ _ _ _ _ _ _ _ (foldl_keeps (fun a : State × Bool => MemOk a.1) _ (fun a x ha => ?_) _ _ ?_)
  · show MemOk (loadLane a.1 c.t c.w c.gang f (cachedLoad f) x).1
    rwa [MemOk, loadLane_mem]
  · show MemOk (c.put c.W)
    rwa [MemOk, WCtx.put_mem]

/-- Stores and atomics of the lanes that proceed enter the store queue. -/
theorem queueLanes_ok {s : State} (t w : Nat) (g : BitVec 8) (f : MemW) (kind : ReqKind) (size : Nat)
    (data cmp : OkLane → List Byte) (ls : List OkLane) (hs : MemOk s) :
    MemOk (ls.foldl (fun s x => queueLane s t w g f kind size (data x) (cmp x) x) s) :=
  foldl_keeps MemOk _ (fun s x hs => by rwa [MemOk, queueLane_mem]) _ _ hs

theorem storeGlobal_ok (f : MemW) (uni : Bool) {c0 : WCtx} (h0 : MemOk c0.s) :
    Ends Stop.Ok MemOk (storeGlobal f uni c0) := by
  refine .trapIf (.open h0 fun c hc => .checked (planLanes_ok _ _ _ _ _) fun plan => .poison ?_)
  exact endAccess_ok _ _ _ _ _ _ _ _ _ (queueLanes_ok _ _ _ _ _ _ _ _ _ (WCtx.put_ok hc))

theorem atomicGlobal_ok (f : MemW) (kind : ReqKind) {c0 : WCtx} (h0 : MemOk c0.s) :
    Ends Stop.Ok MemOk (atomicGlobal f kind c0) := by
  refine .trapIf (.open h0 fun c hc => .checked (planLanes_ok _ _ _ _ _) fun plan => .poison ?_)
  exact endAccess_ok _ _ _ _ _ _ _ _ _ (queueLanes_ok _ _ _ _ _ _ _ _ _ (WCtx.put_ok hc))

theorem ctxAccess_ok {c : KCtx} (f : MemW) (a : Acc) (srcs : List (BitVec 8)) (size : Nat)
    {go : Nat → Nat → Bool → Nat → Except Stop State} (hc : MemOk c.s)
    (hgo : ∀ pa key sec gen, Ends Stop.Ok MemOk (go pa key sec gen)) : Ends Stop.Ok MemOk (ctxAccess c f a srcs size go) := by
  refine .trapIf ?_
  split
  · trivial
  · trivial
  · exact .trapIf (parkCtx_ok _ _ _ hc)
  · exact .trapIf (hgo _ _ _ _)

theorem loadCtx_ok (f : MemW) {c : KCtx} (hc : MemOk c.s) : Ends Stop.Ok MemOk (loadCtx f c) := by
  refine .trapIf (.openCtx hc (ctxAccess_ok _ _ _ _ hc fun pa key sec gen => .ite ?_ ?_))
  · simp [MemOk, hc]
  · simp [MemOk, hc]

theorem storeCtx_ok (f : MemW) {c : KCtx} (hc : MemOk c.s) : Ends Stop.Ok MemOk (storeCtx f c) := by
  refine .trapIf (.openCtx hc (ctxAccess_ok _ _ _ _ hc fun pa key sec gen => ?_))
  simp [MemOk, hc]

theorem atomicCtx_ok (f : MemW) (kind : ReqKind) {c : KCtx} (hc : MemOk c.s) :
    Ends Stop.Ok MemOk (atomicCtx f kind c) := by
  refine .trapIf (.openCtx hc (ctxAccess_ok _ _ _ _ hc fun pa key sec gen => ?_))
  simp [MemOk, hc]

theorem evalRead_ok (s : State) (cluster slot va size : Nat) : Checks (evalRead s cluster slot va size) := by
  unfold evalRead
  split
  · trivial
  · split <;> trivial

theorem loadLaneEval_ok (f : MemW) (s : State) (cluster : Nat) (e : Eval) : Checks (loadLaneEval f s cluster e) := by
  refine .trapIf (.openLane (.ite trivial (.trapIf (.checked (evalRead_ok _ _ _ _ _) fun r => ?_))))
  split
  · exact .trapIf trivial
  · exact .trapIf trivial

theorem execLd_ok {s : State} (f : MemW) (hs : MemOk s) : OutOk (execLd f s) :=
  .issue _ _ hs (fun _ => loadGlobal_ok _ _) (fun _ => loadCtx_ok _) fun _ => offProfile_ok _

theorem execSt_ok {s : State} (f : MemW) (hs : MemOk s) : OutOk (execSt f s) :=
  .issue _ _ hs (fun _ => storeGlobal_ok _ _) (fun _ => storeCtx_ok _) fun _ => offProfile_ok _

theorem execLdu_ok {s : State} (f : MemW) (hs : MemOk s) : OutOk (execLdu f s) :=
  .issue _ _ hs (fun _ => loadGlobal_ok _ _) (fun _ _ => offProfile_ok _) fun _ => loadLaneEval_ok _ _ _ _

theorem execStu_ok {s : State} (f : MemW) (hs : MemOk s) : OutOk (execStu f s) :=
  .issue _ _ hs (fun _ => storeGlobal_ok _ _) (fun _ _ => offProfile_ok _) fun _ => offProfile_ok _

theorem execAtom_ok {s : State} (f : MemW) (hs : MemOk s) : OutOk (execAtom f s) :=
  .issue _ _ hs (fun _ => atomicGlobal_ok _ _) (fun _ => atomicCtx_ok _ _) fun _ => offProfile_ok _

theorem execRed_ok {s : State} (f : MemW) (hs : MemOk s) : OutOk (execRed f s) :=
  .issue _ _ hs (fun _ => atomicGlobal_ok _ _) (fun _ => atomicCtx_ok _ _) fun _ => offProfile_ok _

/-- A word that only waves have. -/
theorem OutOk.waveWord {s : State} (opc : Nat) (g : BitVec 4) {wave : WCtx → Except Stop State} (hs : MemOk s)
    (hwave : ∀ c, MemOk c.s → Ends Stop.Ok MemOk (wave c)) : OutOk (Machine.issue opc g s wave) :=
  .issue _ _ hs hwave (fun _ _ => offProfile_ok _) fun _ => offProfile_ok _

/-- A word that only contexts have. -/
theorem OutOk.ctxWord {s : State} (opc : Nat) (g : BitVec 4) {ctx : KCtx → Except Stop State} (hs : MemOk s)
    (hctx : ∀ c, MemOk c.s → Ends Stop.Ok MemOk (ctx c)) : OutOk (Machine.issue opc g s (fun _ => Machine.offProfile opc) ctx) :=
  .issue _ _ hs (fun _ _ => offProfile_ok _) hctx fun _ => offProfile_ok _

/-! The scratchpad and the words on cores (R201–R204). -/

theorem execLds_ok {s : State} (f : MemW) (hs : MemOk s) : OutOk (execLds f s) := by
  refine .waveWord _ _ hs fun c0 h0 => .trapIf (.open h0 fun c hc => .checked (checkOffs_ok _ _ _) fun _ => .poison (.waitIf h0
    (.bind (ownUnits_ok _ _ h0 hc) fun s1 hs1 => ?_)))
  simp [MemOk, hs1]

theorem execSts_ok {s : State} (f : MemW) (hs : MemOk s) : OutOk (execSts f s) := by
  refine .waveWord _ _ hs fun c0 h0 => .trapIf (.open h0 fun c hc => .checked (checkOffs_ok _ _ _) fun _ => .poison
    (.bind (ownUnits_ok _ _ h0 hc) fun s1 hs1 => ?_))
  simp [MemOk, hs1]

theorem execLdp_ok {s : State} (f : MemW) (hs : MemOk s) : OutOk (execLdp f s) := by
  refine .waveWord _ _ hs fun c0 h0 => .trapIf (.open h0 fun c hc => .checked (checkPeers_ok _ _ _ _) fun _ => .poison (.waitIf h0
    (.waitIf h0 (.bind (ownUnits_ok _ _ h0 hc) fun s1 hs1 => .waitIf h0 ?_))))
  show MemOk _
  rw [MemOk, modWave_mem]
  split
  · rwa [invalidate_mem]
  · exact hs1

theorem execStp_ok {s : State} (f : MemW) (hs : MemOk s) : OutOk (execStp f s) := by
  refine .waveWord _ _ hs fun c0 h0 => .trapIf (.open h0 fun c hc => .checked (checkPeers_ok _ _ _ _) fun _ => .poison
    (.bind (ownUnits_ok _ _ h0 hc) fun s1 hs1 => ?_))
  simp [MemOk, hs1]

theorem execAtoms_ok {s : State} (f : MemW) (hs : MemOk s) : OutOk (execAtoms f s) := by
  refine .waveWord _ _ hs fun c0 h0 => .trapIf (.open h0 fun c hc => .trapIf (.checked (checkOffs_ok _ _ _) fun _ => .poison
    (.waitIf h0 (.waitIf (WCtx.issued_ok h0) (.bind (ownUnits_ok _ _ (WCtx.issued_ok h0) hc) fun s1 hs1 => ?_)))))
  dsimp only
  split
  · trivial
  · simp [MemOk, hs1]

theorem execAppend_ok {s : State} (f : SysW) (hs : MemOk s) : OutOk (execAppend f s) := by
  refine .waveWord _ _ hs fun c0 h0 => .trapIf (.open h0 fun c hc => .ite (WCtx.retire_ok hc)
    (.trapIf (.trapIf (.poison (.waitIf h0 (.waitIf (WCtx.issued_ok h0) ?_))))))
  simp [MemOk, hc]

theorem execDecline_ok {s : State} (f : SysW) (hs : MemOk s) : OutOk (execDecline f s) := by
  refine .waveWord _ _ hs fun c0 h0 => .open h0 fun c hc => .ite (WCtx.retire_ok hc) (.trapIf (.poison ?_))
  simp [MemOk, hc]

theorem fenceWave_ok (f : MemW) {c : WCtx} (hc : MemOk c.s) : Ends Stop.Ok MemOk (fenceWave f c) := by
  refine .ite (WCtx.retire_ok hc) (.waitIf hc (.waitIf hc ?_))
  dsimp only
  split <;> simp [MemOk, hc]

theorem fenceCtx_ok (f : MemW) {c : KCtx} (hc : MemOk c.s) : Ends Stop.Ok MemOk (fenceCtx f c) := by
  refine .trapIf (.waitIf hc (.waitIf hc ?_))
  simp [MemOk, hc]

theorem execFence_ok {s : State} (f : MemW) (hs : MemOk s) : OutOk (execFence f s) :=
  .issue _ _ hs (fun _ => fenceWave_ok _) (fun _ => fenceCtx_ok _) fun _ => offProfile_ok _

theorem execBar_ok {s : State} (f : SysW) (hs : MemOk s) : OutOk (execBar f s) := by
  refine .waveWord _ _ hs fun c hc => ?_
  simp [MemOk, hc]

/-! Counted barriers and timelines (R208–R211, R332). -/

theorem useRef_ok (s : State) (x : Nat) (X : Ctx) (base v size align : Nat) :
    Checks (useRef s x X base v size align) := by
  refine .trapIf (.trapIf (.trapIf ?_))
  dsimp only
  split
  · trivial
  · exact .trapIf trivial

theorem cbWave_ok (f : SysW) (rel : Bool) {c0 : WCtx} {act : WCtx → List Byte → Bool → Except Stop (List Byte × Wave)}
    (h0 : MemOk c0.s) (hact : ∀ c bs m, MemOk c.s → Checks (act c bs m)) : Ends Stop.Ok MemOk (cbWave f rel c0 act) := by
  refine .trapIf (.open h0 fun c hc => .ite (WCtx.retire_ok hc) ?_)
  refine .either (checkPeers_ok _ _ _ _) (checkOffs_ok _ _ _) fun _ => .poison (.either (waitIf_checks _ _ h0)
    (waitIf_checks _ _ h0) fun _ => .waitIf h0 (.ite (.bind (ownUnits_ok _ _ h0 hc) fun s1 hs1 => ?_)
      (.waitIf h0 (.waitIf h0 (.checked (hact _ _ _ hc) fun r => ?_)))))
  · dsimp only
    split
    · trivial
    · refine .checked (hact _ _ _ hs1) fun r => ?_
      simp [MemOk, hs1]
  · show MemOk _
    rw [MemOk, wakeCluster_mem]
    split
    · rwa [WCtx.retire_mem]
    · exact outsideWrite_ok _ _ _ _ (WCtx.retire_ok hc)

theorem cbarvCtx_ok (f : SysW) {c : KCtx} (hc : MemOk c.s) : Ends Stop.Ok MemOk (cbarvCtx f c) := by
  refine .trapIf (.openCtx hc (.checked (useRef_ok _ _ _ _ _ _ _) fun r => .trapIf ?_))
  simp [MemOk, hc]

theorem cbwaitCtx_ok (f : SysW) {c : KCtx} (hc : MemOk c.s) : Ends Stop.Ok MemOk (cbwaitCtx f c) := by
  refine .trapIf (.openCtx hc (.checked (useRef_ok _ _ _ _ _ _ _) fun r => .trapIf (.waitIf ?_ ?_)))
  · simp [MemOk, hc]
  · simp [MemOk, hc]

theorem execCbinit_ok {s : State} (f : SysW) (hs : MemOk s) : OutOk (execCbinit f s) := by
  refine .waveWord _ _ hs fun _ hc => cbWave_ok _ _ hc fun _ _ _ _ => ?_
  trivial

theorem execCbarv_ok {s : State} (f : SysW) (hs : MemOk s) : OutOk (execCbarv f s) := by
  refine .issue _ _ hs (fun _ hc => .trapIf (.waitIf hc (cbWave_ok _ _ hc fun _ _ _ _ => ?_))) (fun _ => cbarvCtx_ok _)
    fun _ => offProfile_ok _
  trivial

theorem execCbwait_ok {s : State} (f : SysW) (hs : MemOk s) : OutOk (execCbwait f s) := by
  refine .issue _ _ hs (fun c0 h0 => ?_) (fun _ => cbwaitCtx_ok _) fun _ => offProfile_ok _
  have waited := cbWave_ok f false (act := fun c bs _ => do
    waitIf (fieldB bs 8 4 == cbB f c) .barrier c0.s
    .ok ([], c.W)) h0 fun _ _ _ _ => .waitIf h0 trivial
  dsimp only
  split
  · have hs1 := waited.ok ‹_›
    split
    · simp [MemOk, hs1]
    · exact hs1
  · exact waited

theorem execTlwait_ok {s : State} (f : SysW) (hs : MemOk s) : OutOk (execTlwait f s) := by
  refine .issue _ _ hs (fun c0 h0 => .trapIf (.open h0 fun c hc => .ite (WCtx.retire_ok hc) (.trapIf (.poison (.waitIf h0 ?_)))))
    (fun c hc => .trapIf (.openCtx hc (.trapIf (.trapIf (.waitIf hc ?_))))) fun _ => offProfile_ok _
  · dsimp only
    split <;> simp [MemOk, hc]
  · simp [MemOk, hc]

theorem execTlread_ok {s : State} (f : SysW) (hs : MemOk s) : OutOk (execTlread f s) := by
  refine .issue _ _ hs (fun c0 h0 => .trapIf (.open h0 fun c hc => .ite (WCtx.retire_ok hc) (.trapIf (.poison ?_))))
    (fun c hc => .trapIf (.openCtx hc (.trapIf (.trapIf ?_)))) fun _ => offProfile_ok _
  · simp [MemOk, hc]
  · simp [MemOk, hc]

/-- A check that is made in one case only. -/
theorem Ends.when {β : Type} {Q : β → Prop} {p : Prop} [Decidable p] {x : Except Stop Unit} {f : Unit → Except Stop β}
    (hx : Checks x) (hf : ∀ a, Ends Stop.Ok Q (f a)) : Ends Stop.Ok Q (if p then x >>= f else f ()) :=
  .ite (.checked hx hf) (hf ())

/-! Registers of the machine, cache words, the arena, priorities and calls (R44–R46, R184, R186–R193). -/

theorem execCsrr_ok {s : State} (f : CsrW) (hs : MemOk s) : OutOk (execCsrr f s) := by
  refine .issue _ _ hs (fun c0 h0 => .trapIf (.trapIf (.open h0 fun c hc => .trapIf ?_)))
    (fun c hc => .trapIf (.trapIf (.openCtx hc (.trapIf ?_)))) fun e => .trapIf (.trapIf (.openLane (.trapIf trivial)))
  · simp [MemOk, hc]
  · dsimp only
    split <;> simp [MemOk, hc]

theorem csrChange_ok {s : State} (opc : Nat) (op : CsrOp) (f : CsrW) (hs : MemOk s) :
    OutOk (csrChange opc op f s) := by
  refine .issue _ _ hs (fun c0 h0 => .trapIf (.trapIf (.open h0 fun c hc => .trapIf (.trapIf (.poison ?_)))))
    (fun c hc => .trapIf (.trapIf (.openCtx hc (.trapIf (.trapIf ?_)))))
    fun e => .trapIf (.trapIf (.openLane (.trapIf (.ite trivial (.trapIf trivial)))))
  · simp [MemOk, hc]
  · simp [MemOk, hc]

theorem execMbtgt_ok {s : State} (f : SysW) (hs : MemOk s) : OutOk (execMbtgt f s) := by
  refine .waveWord _ _ hs fun c0 h0 => .open h0 fun c hc => .trapIf (.poison ?_)
  simp [MemOk, hc]

theorem execCinv_ok {s : State} (f : MemW) (hs : MemOk s) : OutOk (execCinv f s) := by
  refine .waveWord _ _ hs fun c0 h0 => .open h0 fun c hc => .poison ?_
  simp [MemOk, hc]

theorem execCinvAll_ok {s : State} (f : MemW) (hs : MemOk s) : OutOk (execCinvAll f s) := by
  refine .waveWord _ _ hs fun c hc => ?_
  split <;> simp [MemOk, hc]

theorem execCwb_ok {s : State} (f : MemW) (hs : MemOk s) : OutOk (execCwb f s) := by
  refine .waveWord _ _ hs fun c0 h0 => .open h0 fun c hc => .poison ?_
  simp [MemOk, hc]

theorem execPref_ok {s : State} (f : MemW) (hs : MemOk s) : OutOk (execPref f s) := by
  refine .waveWord _ _ hs fun c0 h0 => .open h0 fun c hc => .poison ?_
  have retired : MemOk (c.retire c.W f.bnd) := by rwa [MemOk, WCtx.retire_mem]
  refine Ends.ok_iff.mpr ?_
  split
  · exact retired
  · refine foldl_keeps MemOk _ (fun s l hs => ?_) _ _ retired
    split
    · dsimp only
      split
      · exact hs
      · rwa [MemOk, modCore_mem, dropLines_mem]
    · exact hs

theorem execExtq_ok {s : State} (f : SysW) (hs : MemOk s) : OutOk (execExtq f s) := by
  refine .waveWord _ _ hs fun c0 h0 => .begin h0 fun c hc => ?_
  simp [MemOk, hc]

theorem execHalloc_ok {s : State} (f : SysW) (hs : MemOk s) : OutOk (execHalloc f s) := by
  refine .waveWord _ _ hs fun c0 h0 => .trapIf (.open h0 fun c hc => .ite (WCtx.retire_ok hc)
    (.trapIf (.poison (.waitIf hc ?_))))
  dsimp only
  (repeat' split) <;> simp [MemOk, hc]

theorem execHfree_ok {s : State} (f : SysW) (hs : MemOk s) : OutOk (execHfree f s) := by
  refine .waveWord _ _ hs fun c0 h0 => .trapIf (.open h0 fun c hc => .ite (WCtx.retire_ok hc)
    (.trapIf (.waitIf hc (.trapIf (.poison ?_)))))
  simp [MemOk, hc]

theorem execSetprio_ok {s : State} (f : SysW) (hs : MemOk s) : OutOk (execSetprio f s) := by
  refine .waveWord _ _ hs fun c0 h0 => .trapIf (.open h0 fun c hc => .poison ?_)
  simp [MemOk, hc]

theorem execSvc_ok {s : State} (f : ImmW) (hs : MemOk s) : OutOk (execSvc f s) := by
  refine .waveWord _ _ hs fun c hc => .waitIf hc ?_
  dsimp only
  split
  · trivial
  · refine .trapIf (.poison (sqPush_ok _ _ ?_))
    rwa [MemOk, modPart_mem, WCtx.put_mem]

/-! Copies of a wave (R212–R216). -/

theorem rangeTrap_ok (s : State) (T : Team) (a : Acc) (va n : Nat) : Checks (rangeTrap s T a va n) := by
  unfold rangeTrap
  split
  · trivial
  · split <;> trivial

theorem issueCopy_ok {c0 c : WCtx} (bnd : Bool) (srcs : List Regs) (d : BitVec 8) (aligned : List Nat) (len : Nat)
    (side : Option GlobalSide) (offs : List Nat) (copy : WCopy) (h0 : MemOk c0.s) (hc : MemOk c.s) :
    Ends Stop.Ok MemOk (issueCopy c0 c bnd srcs d aligned len side offs copy) := by
  unfold issueCopy
  split
  · trivial
  · refine .trapIf ?_
    extract_lets past traps num queue jp
    clear_value past
    have queued (T : Team) : MemOk (setTeam c.s c.t T) := by rwa [MemOk, setTeam_mem]
    have issued : Ends Stop.Ok MemOk (jp ()) := by
      refine .waitIf h0 (.waitIf h0 ?_)
      cases past with
      | none => exact queued _
      | some o =>
        refine .ite (takeTrap_ok _ _ _ _ _ ?_) ?_
        · rw [MemOk, endWaveCopy_mem]
          exact queued _
        · show MemOk _
          rw [MemOk, endWaveCopy_mem]
          exact queued _
    refine .ite ?_ issued
    cases side with
    | none => exact .poison issued
    | some g => exact .checked (rangeTrap_ok _ _ _ _ _) fun _ => .poison issued

theorem execCpy_ok {s : State} (f : SysW) (hs : MemOk s) : OutOk (execCpy f s) := by
  refine .waveWord _ _ hs fun c0 h0 => .trapIf (.open h0 fun c hc => .ite (WCtx.retire_ok hc) ?_)
  dsimp only
  split
  · exact issueCopy_ok _ _ _ _ _ _ _ _ h0 hc
  · exact issueCopy_ok _ _ _ _ _ _ _ _ h0 hc
  · exact issueCopy_ok _ _ _ _ _ _ _ _ h0 hc

theorem execMcast_ok {s : State} (f : SysW) (hs : MemOk s) : OutOk (execMcast f s) :=
  .waveWord _ _ hs fun _ h0 => .trapIf (.open h0 fun _ hc => .ite (WCtx.retire_ok hc) (issueCopy_ok _ _ _ _ _ _ _ _ h0 hc))

/-! Contexts as a wave sees them, and streams (R217–R224). -/

theorem execCexec_ok {s : State} (f : SysW) (hs : MemOk s) : OutOk (execCexec f s) := by
  refine .waveWord _ _ hs fun c0 h0 => .trapIf (.open h0 fun c hc => .ite (WCtx.retire_ok hc) (.trapIf (.trapIf (.poison ?_))))
  dsimp only
  split
  · exact h0
  · refine .waitIf h0 ?_
    simp [MemOk, hc]

theorem ceqryWave_ok (f : SysW) (val : Ctx → Nat → Nat) {c0 : WCtx} (h0 : MemOk c0.s) :
    Ends Stop.Ok MemOk (ceqryWave f val c0) := by
  refine .trapIf (.open h0 fun c hc => .ite (WCtx.retire_ok hc) (.trapIf (.poison ?_)))
  simp [MemOk, hc]

theorem execCeqry_ok {s : State} (f : SysW) (hs : MemOk s) : OutOk (execCeqry f s) :=
  .waveWord _ _ hs fun _ => ceqryWave_ok _ _

theorem execCeqryArg_ok {s : State} (f : SysW) (hs : MemOk s) : OutOk (execCeqryArg f s) :=
  .waveWord _ _ hs fun _ => ceqryWave_ok _ _

theorem execIscfg_ok {s : State} (f : SysW) (hs : MemOk s) : OutOk (execIscfg f s) := by
  refine .waveWord _ _ hs fun c0 h0 => .open h0 fun c hc => .ite (WCtx.retire_ok hc) (.trapIf (.trapIf (.trapIf (.poison
    (.waitIf h0 ?_)))))
  simp [MemOk, hc]

theorem execQclose_ok {s : State} (f : SysW) (hs : MemOk s) : OutOk (execQclose f s) := by
  refine .waveWord _ _ hs fun c hc => .ite (WCtx.retire_ok hc) ?_
  simp [MemOk, hc]

/-! The words of contexts (R311–R333). -/

theorem execKld_ok {s : State} (f : SysW) (hs : MemOk s) : OutOk (execKld f s) := by
  refine .ctxWord _ _ hs fun c hc => .openCtx hc (.checked (useRef_ok _ _ _ _ _ _ _) fun r => .trapIf (.waitIf ?_ (.waitIf ?_ ?_)))
  · simp [MemOk, hc]
  · simp [MemOk, hc]
  · simp [MemOk, hc]

theorem execKst_ok {s : State} (f : SysW) (hs : MemOk s) : OutOk (execKst f s) := by
  refine .ctxWord _ _ hs fun c hc => .openCtx hc (.checked (useRef_ok _ _ _ _ _ _ _) fun r => .trapIf ?_)
  have held (X : Ctx) : MemOk (c.put X) := by rwa [MemOk, KCtx.put_mem]
  refine .either (waitIf_checks _ _ (held _)) (waitIf_checks _ _ (held _)) fun _ => .waitIf (held _) (outsideWrite_ok _ _ _ _ ?_)
  rwa [MemOk, KCtx.retire_mem]

theorem execAgset_ok {s : State} (f : SysW) (hs : MemOk s) : OutOk (execAgset f s) := by
  refine .ctxWord _ _ hs fun c hc => .openCtx hc (.trapIf ?_)
  simp [MemOk, hc]

theorem execAgstep_ok {s : State} (f : SysW) (hs : MemOk s) : OutOk (execAgstep f s) := by
  refine .ctxWord _ _ hs fun c hc => .openCtx hc (.ite ?_ ?_)
  · simp [MemOk, hc]
  · simp [MemOk, hc]

theorem globalSides_ok (c : KCtx) (sps : List SideSpec) : Checks (globalSides c sps) := by
  unfold globalSides
  dsimp only
  split
  · exact trapIf_checks _ _ _
  · split
    · trivial
    · split <;> trivial

theorem openSides_ok (c : KCtx) (X : Ctx) (sps : List SideSpec) : Checks (openSides c X sps) :=
  .checked (globalSides_ok _ _) fun _ => trivial

theorem copyAligned_ok (vs : List Nat) (len limit : Nat) : Checks (copyAligned vs len limit) := by
  unfold copyAligned
  split
  · trivial
  · exact trapIf_checks _ _ _

theorem issueSCopy_ok {c : KCtx} (X : Ctx) (f : SysW) (srcs : List (BitVec 8)) (now bounds : Option Nat)
    (kind : CopyKind)
    (hc : MemOk c.s) : Ends Stop.Ok MemOk (issueSCopy c X f srcs now bounds kind) := by
  have held (X : Ctx) : MemOk (c.put X) := by rwa [MemOk, KCtx.put_mem]
  unfold issueSCopy
  refine .when (trapIf_checks _ _ _) fun _ => .waitIf (held _) (.waitIf (held _) ?_)
  have copying : MemOk (modCluster c.s (c.x / 16) fun C => { C with
      copySeq := C.copySeq + 1
      owed := if (List.range 4).all fun i => (smGet? c.s.ctxs (c.x / 4 * 4 + i)).elim true fun Y => Y.copies.all (·.fin) then
        setAt C.owed (c.x / 4 % 4) 0 else C.owed }) := by
    rwa [MemOk, modCluster_mem]
  dsimp only
  split
  · show MemOk _
    rw [MemOk, faultCtx_mem, KCtx.put_mem]
    exact copying
  · show MemOk _
    rw [MemOk, KCtx.put_mem]
    exact copying

theorem issueSides_ok {c : KCtx} (X : Ctx) (f : SysW) (srcs : List (BitVec 8)) (sides : List Side)
    (kind : List Loc → CopyKind)
    (hc : MemOk c.s) : Ends Stop.Ok MemOk (issueSides c X f srcs sides kind) :=
  issueSCopy_ok _ _ _ _ _ _ hc

theorem execScopy_ok {s : State} (f : SysW) (hs : MemOk s) : OutOk (execScopy f s) :=
  .ctxWord _ _ hs fun _ hc => .openCtx hc (.checked (copyAligned_ok _ _ _) fun _ => .checked (openSides_ok _ _ _) fun _ =>
    .ite (issueSCopy_ok _ _ _ _ _ _ hc) (issueSides_ok _ _ _ _ _ hc))

theorem execSmcast_ok {s : State} (f : SysW) (hs : MemOk s) : OutOk (execSmcast f s) :=
  .ctxWord _ _ hs fun _ hc => .openCtx hc (.checked (copyAligned_ok _ _ _) fun _ => .checked (globalSides_ok _ _) fun _ =>
    .ite (issueSCopy_ok _ _ _ _ _ _ hc) (.checked (openSides_ok _ _ _) fun _ => issueSCopy_ok _ _ _ _ _ _ hc))

theorem indexedCopy_ok {s : State} (opc : Nat) (ga : Bool) (f : SysW) (hs : MemOk s) :
    OutOk (indexedCopy opc ga f s) :=
  .ctxWord _ _ hs fun _ hc => .openCtx hc (.checked (copyAligned_ok _ _ _) fun _ => .trapIf (.checked (openSides_ok _ _ _) fun _ =>
    issueSides_ok _ _ _ _ _ hc))

theorem execCbload_ok {s : State} (f : SysW) (hs : MemOk s) : OutOk (execCbload f s) := by
  refine .ctxWord _ _ hs fun c hc => .openCtx hc (.trapIf (.checked (globalSides_ok _ _) fun _ => ?_))
  dsimp only
  split
  · exact .trapIf hc
  · refine .bind (issueSCopy_ok _ _ _ _ _ _ hc) fun s1 hs1 => ?_
    show Machine.MemOk _
    rwa [MemOk, modCluster_mem]

theorem execSdecode_ok {s : State} (f : SysW) (hs : MemOk s) : OutOk (execSdecode f s) := by
  refine .ctxWord _ _ hs fun c hc => .openCtx hc (.checked (copyAligned_ok _ _ _) fun _ => .trapIf (.checked (openSides_ok _ _ _) fun r => ?_))
  dsimp only
  split
  · show Stop.Ok (if _ then _ else _)
    split <;> trivial
  · exact .waitIf hc (issueSides_ok _ _ _ _ _ hc)

theorem pushFifo_ok {c : KCtx} (f : SysW) (X : Ctx) (xs : List (Word × Bool)) (hc : MemOk c.s) :
    Ends Stop.Ok MemOk (pushFifo c f X xs) := by
  have retired (X : Ctx) : MemOk (c.retire X) := by rwa [MemOk, KCtx.retire_mem]
  unfold pushFifo
  dsimp only
  split
  · exact retired _
  · refine .ite (retired _) (.waitIf (by simp [MemOk, hc]) ?_)
    simp [MemOk, hc]

theorem execQpush_ok {s : State} (f : SysW) (hs : MemOk s) : OutOk (execQpush f s) := by
  refine .ctxWord _ _ hs fun c hc => .openCtx hc (.trapIf (.trapIf (.ite (.checked (useRef_ok _ _ _ _ _ _ _) fun r => .trapIf
    (.waitIf ?_ (.waitIf ?_ (pushFifo_ok _ _ _ hc)))) (.checked (globalSides_ok _ _) fun _ => .trapIf ?_))))
  · simp [MemOk, hc]
  · simp [MemOk, hc]
  · have read : MemOk (engRead c.s (ctxEng c.s c.x c.X) (c.k f.a) (4 * c.k f.b)).1 := by rwa [MemOk, engRead_mem]
    dsimp only
    split
    · trivial
    · exact parkCtx_ok _ _ _ hc
    · show MemOk _
      rwa [MemOk, raiseHalt_mem]
    · exact read
    · refine .waitIf hc (pushFifo_ok _ _ _ ?_)
      rwa [MemOk, dropFar_mem]

theorem execTlinc_ok {s : State} (f : SysW) (hs : MemOk s) : OutOk (execTlinc f s) := by
  refine .ctxWord _ _ hs fun c hc => .openCtx hc (.trapIf (.trapIf ?_))
  simp [MemOk, hc]

theorem execSwait_ok {s : State} (f : SysW) (hs : MemOk s) : OutOk (execSwait f s) := by
  refine .ctxWord _ _ hs fun c hc => .openCtx hc (.trapIf (.waitIf hc ?_))
  simp [MemOk, hc]

theorem execStopc_ok {s : State} (f : SysW) (hs : MemOk s) : OutOk (execStopc f s) := by
  refine .ctxWord _ _ hs fun c hc => .openCtx hc ?_
  simp [MemOk, hc]

end Sys2Proof.Machine

end

