-- ==== Sys2Proof/Proofs/MemoryControl.lean ====
section
/-! SUPPORT. The words of control, lanes, records, reuse passes and rays, the matrix words and the flits of the
junction network keep the form of memory. -/

namespace Sys2Proof.Machine

/-! Records, reuse passes and the words of a lane (R283–R299). -/

theorem viewLanes_ok (f : SysW) (c : WCtx) : Checks (viewLanes f c) := by
  unfold viewLanes
  dsimp only
  split
  · exact .trapIf (.trapIf trivial)
  · exact .trapIf trivial

theorem execRsvld_ok {s : State} (f : SysW) (hs : MemOk s) : OutOk (execRsvld f s) := by
  refine .waveWord _ _ hs fun c0 h0 => .trapIf (.open h0 fun c hc => .ite (WCtx.retire_ok hc) (.checked (viewLanes_ok _ _) fun r =>
    .checked (planLanes_ok _ _ _ _ _) fun plan => .poison (.waitIf h0 ?_)))
  refine endAccess_ok _ _ _ _ _ _ _ _ _ (foldl_keeps (fun a : State × Bool => MemOk a.1) _ (fun a x ha => ?_) _ _ ?_)
  · show MemOk (rsvLane (SysW.memWord f) a.1 c.t c.w c.gang x).1
    rwa [MemOk, rsvLane_mem]
  · show MemOk (c.put _)
    rwa [MemOk, WCtx.put_mem]

theorem execRsvst_ok {s : State} (f : SysW) (hs : MemOk s) : OutOk (execRsvst f s) := by
  refine .waveWord _ _ hs fun c0 h0 => .trapIf (.open h0 fun c hc => .ite (WCtx.retire_ok hc) (.checked (viewLanes_ok _ _) fun r =>
    .checked (planLanes_ok _ _ _ _ _) fun plan => .poison ?_))
  exact endAccess_ok _ _ _ _ _ _ _ _ _ (queueLanes_ok _ _ _ _ _ _ _ _ _ (WCtx.put_ok hc))

theorem WCtx.checkParts_ok (c : WCtx) (parts : List (BitVec 8 × List Nat)) : Checks (c.checkParts parts) := by
  unfold WCtx.checkParts
  dsimp only
  split <;> trivial

theorem rsvWord_ok {s : State} (opc : Nat) (f : SysW) (srcs : List Regs) (parts : List (BitVec 8 × List Nat))
    (op : WCtx → Nat → List (Nat × Nat)) (hs : MemOk s) : OutOk (rsvWord opc f srcs parts op s) := by
  refine .waveWord _ _ hs fun c0 h0 => .trapIf (.open h0 fun c hc => .checked (c.checkParts_ok _) fun _ => ?_)
  simp [MemOk, hc]

theorem readDesc_ok {s : State} (who : Requester) (T : Team) (a : Nat) (hs : MemOk s) :
    Ends Stop.Ok (fun r => MemOk r.1) (readDesc s who T a) := by
  refine .trapIf ?_
  split
  · trivial
  · trivial
  · exact hs
  · split
    · dsimp only
      split
      · show MemOk _
        rwa [MemOk, useFar_mem]
      · show MemOk _
        rwa [MemOk, askLine_mem]
    · show MemOk (freeBytes _ _).2
      rwa [MemOk, freeBytes_mem, countDiscard_mem]
    · show MemOk (if _ then _ else _)
      split
      · rwa [MemOk, countDiscard_mem]
      · exact hs
    · trivial
    · trivial

theorem takePassSlot_ok {c0 c : WCtx} {s1 : State} (f : SysW) (d : List Byte) (h0 : MemOk c0.s) (hs1 : MemOk s1) :
    Ends Stop.Ok MemOk (takePassSlot c0 c s1 f d) := by
  unfold takePassSlot
  dsimp only
  split
  · show MemOk _
    rwa [MemOk, modWave_mem]
  · show MemOk _
    rw [MemOk, modPass_mem, WCtx.retire_mem]
    exact hs1

theorem execReuse_ok {s : State} (f : SysW) (hs : MemOk s) : OutOk (execReuse f s) := by
  refine .waveWord _ _ hs fun c0 h0 => .trapIf (.open h0 fun c hc => .ite (WCtx.retire_ok hc) ?_)
  split
  · exact takePassSlot_ok _ _ h0 hc
  · refine .bind (readDesc_ok _ _ _ hc) fun ⟨s1, got⟩ hs1 => .trapIf (.poison (.waitIf h0 ?_))
    cases got with
    | inr p =>
      refine parkWave_ok _ _ _ _ _ ?_
      rwa [MemOk, WCtx.put_mem]
    | inl bs => exact .trapIf (.trapIf (.trapIf (takePassSlot_ok _ _ h0 hs1)))

/-- A word that only a lane of a callable evaluation has. -/
theorem OutOk.laneWord {s : State} (opc : Nat) (g : BitVec 4) {lane : Eval → Except Stop Eval} (hs : MemOk s)
    (hlane : ∀ e, Checks (lane e)) :
    OutOk (Machine.issue opc g s (fun _ => Machine.offProfile opc) (fun _ => Machine.offProfile opc) lane) :=
  .issue _ _ hs (fun _ _ => offProfile_ok _) (fun _ _ => offProfile_ok _) hlane

theorem execCparg_ok {s : State} (f : SysW) (hs : MemOk s) : OutOk (execCparg f s) :=
  .laneWord _ _ hs fun _ => .trapIf (.openLane (.ite trivial trivial))

theorem execCpret_ok {s : State} (f : SysW) (hs : MemOk s) : OutOk (execCpret f s) :=
  .laneWord _ _ hs fun _ => .trapIf (.openLane (.ite trivial (.trapIf trivial)))

/-! Control (R172–R185). -/

theorem execIll_ok {s : State} (f : IWord) (hs : MemOk s) : OutOk (execIll f s) :=
  .issue _ _ hs (fun _ _ => trivial) (fun _ _ => trivial) fun _ => trivial

theorem execNop_ok {s : State} (f : NoneW) (hs : MemOk s) : OutOk (execNop f s) := by
  refine .issue _ _ hs (fun c hc => ?_) (fun c hc => .trapIf ?_) fun _ => trivial
  · simp [MemOk, hc]
  · simp [MemOk, hc]

theorem braWave_ok (f : BraW) {c : WCtx} (hc : MemOk c.s) : Ends Stop.Ok MemOk (braWave f c) := by
  unfold braWave
  dsimp only
  split
  · trivial
  · simp [MemOk, hc]

theorem braCtx_ok (f : BraW) {c : KCtx} (hc : MemOk c.s) : Ends Stop.Ok MemOk (braCtx f c) := by
  refine .trapIf (.openCtx hc (.trapIf ?_))
  dsimp only
  split <;> simp [MemOk, hc]

theorem braLane_ok (f : BraW) (e : Eval) : Checks (braLane f e) := .trapIf trivial

theorem execBra_ok {s : State} (f : BraW) (hs : MemOk s) : OutOk (execBra f s) :=
  .issue _ _ hs (fun _ => braWave_ok _) (fun _ => braCtx_ok _) (braLane_ok _)

theorem execBrx_ok {s : State} (f : BrxW) (hs : MemOk s) : OutOk (execBrx f s) := by
  refine .waveWord _ _ hs fun c0 h0 => .open h0 fun c hc => ?_
  dsimp only
  split
  · trivial
  · split
    · trivial
    · refine .poison ?_
      simp [MemOk, hc]

theorem execCall_ok {s : State} (f : CallW) (hs : MemOk s) : OutOk (execCall f s) := by
  refine .issue _ _ hs (fun c0 h0 => .trapIf (.open h0 fun c hc => ?_)) (fun c hc => .openCtx hc ?_) fun _ => offProfile_ok _
  · simp [MemOk, hc]
  · simp [MemOk, hc]

theorem execCallx_ok {s : State} (f : CallxW) (hs : MemOk s) : OutOk (execCallx f s) := by
  refine .waveWord _ _ hs fun c0 h0 => .trapIf (.open h0 fun c hc => .trapIf (.poison ?_))
  simp [MemOk, hc]

theorem execRet_ok {s : State} (f : CallxW) (hs : MemOk s) : OutOk (execRet f s) := by
  refine .issue _ _ hs (fun c0 h0 => .trapIf (.open h0 fun c hc => .trapIf (.poison ?_)))
    (fun c hc => .openCtx hc (.trapIf (.trapIf ?_))) fun _ => offProfile_ok _
  · simp [MemOk, hc]
  · simp [MemOk, hc]

theorem execLoop_ok {s : State} (f : CallW) (hs : MemOk s) : OutOk (execLoop f s) := by
  refine .issue _ _ hs (fun c0 h0 => .trapIf (.open h0 fun c hc => .poison ?_)) (fun c hc => .openCtx hc (.trapIf ?_))
    fun _ => offProfile_ok _
  · extract_lets n W
    clear_value n
    split <;> simp [MemOk, hc]
  · extract_lets n X
    clear_value n
    split <;> simp [MemOk, hc]

theorem execRegang_ok {s : State} (f : NoneW) (hs : MemOk s) : OutOk (execRegang f s) := by
  refine .waveWord _ _ hs fun c hc => ?_
  exact WCtx.put_ok hc

theorem execExit_ok {s : State} (f : NoneW) (hs : MemOk s) : OutOk (execExit f s) := by
  refine .waveWord _ _ hs fun c hc => slicesEnded_ok _ _ (WCtx.put_ok hc)

theorem execYield_ok {s : State} (f : NoneW) (hs : MemOk s) : OutOk (execYield f s) := by
  refine .waveWord _ _ hs fun c hc => ?_
  simp [MemOk, hc]

theorem execTrap_ok {s : State} (f : ImmW) (hs : MemOk s) : OutOk (execTrap f s) := by
  refine .issue _ _ hs (fun c hc => ?_) (fun c hc => .trapIf trivial) fun _ => offProfile_ok _
  split
  · simp [MemOk, hc]
  · exact retireTrap_ok _ _ _ _ hc

theorem execBkpt_ok {s : State} (f : ImmW) (hs : MemOk s) : OutOk (execBkpt f s) := by
  refine .waveWord _ _ hs fun c hc => ?_
  split
  · simp [MemOk, hc]
  · exact retireTrap_ok _ _ _ _ hc

theorem execEret_ok {s : State} (f : NoneW) (hs : MemOk s) : OutOk (execEret f s) := by
  refine .waveWord _ _ hs fun c hc => .trapIf ?_
  simp [MemOk, hc]

/-! Lanes and records (R164–R171, R222–R224). -/

theorem execRfl_ok {s : State} (f : AluW) (hs : MemOk s) : OutOk (execRfl f s) := by
  refine .waveWord _ _ hs fun c0 h0 => .begin h0 fun c hc => ?_
  simp [MemOk, hc]

theorem execRdlane_ok {s : State} (f : AluW) (hs : MemOk s) : OutOk (execRdlane f s) := by
  refine .waveWord _ _ hs fun c0 h0 => .trapIf (.begin h0 fun c hc => .ite (WCtx.retire_ok hc) (.poison ?_))
  simp [MemOk, hc]

theorem execWrlane_ok {s : State} (f : AluW) (hs : MemOk s) : OutOk (execWrlane f s) := by
  refine .waveWord _ _ hs fun c0 h0 => .trapIf (.begin h0 fun c hc => ?_)
  simp [MemOk, hc]

theorem execShfl_ok {s : State} (f : AluW) (hs : MemOk s) : OutOk (execShfl f s) := by
  refine .waveWord _ _ hs fun c0 h0 => .begin h0 fun c hc => ?_
  simp [MemOk, hc]

theorem execVote_ok {s : State} (f : AluW) (hs : MemOk s) : OutOk (execVote f s) := by
  refine .waveWord _ _ hs fun c0 h0 => .ite ?_ (.begin h0 fun c hc => ?_)
  · simp [MemOk, h0]
  · simp [MemOk, hc]

theorem execRedux_ok {s : State} (f : AluW) (hs : MemOk s) : OutOk (execRedux f s) := by
  refine .waveWord _ _ hs fun c0 h0 => .begin h0 fun c hc => ?_
  dsimp only
  split
  · simp [MemOk, hc]
  · refine .checked (settleFlags_ok _ _) fun fp => ?_
    simp [MemOk, hc]

theorem execScan_ok {s : State} (f : AluW) (hs : MemOk s) : OutOk (execScan f s) := by
  refine .waveWord _ _ hs fun c0 h0 => .trapIf (.begin h0 fun c hc => .checked (settleFlags_ok _ _) fun fp => ?_)
  simp [MemOk, hc]

theorem execMatchl_ok {s : State} (f : AluW) (hs : MemOk s) : OutOk (execMatchl f s) := by
  refine .waveWord _ _ hs fun c0 h0 => .trapIf (.begin h0 fun c hc => ?_)
  simp [MemOk, hc]

theorem execPget_ok {s : State} (f : AluW) (hs : MemOk s) : OutOk (execPget f s) := by
  refine .issue _ _ hs (fun c0 h0 => .begin h0 fun c hc => ?_) (fun _ _ => offProfile_ok _) fun e => .openLane trivial
  simp [MemOk, hc]

theorem predWord_ok {s : State} (opc : Nat) (f : AluW) (op : Bool → Bool → Bool) (hs : MemOk s) :
    OutOk (predWord opc f op s) := by
  refine .issue _ _ hs (fun c hc => ?_) (fun _ _ => offProfile_ok _) fun e => trivial
  simp [MemOk, hc]

theorem execRng_ok {s : State} (f : SysW) (hs : MemOk s) : OutOk (execRng f s) :=
  .issue _ _ hs (fun _ => AluSpec.wave_ok _ _) (fun _ _ => offProfile_ok _) (AluSpec.lane_ok _ _)

theorem pairedWave_ok (f : PairW) {c0 : WCtx} (h0 : MemOk c0.s) : Ends Stop.Ok MemOk (pairedWave f c0) := by
  refine .trapIf (.trapIf (.begin h0 fun c hc => .checked (settleFlags_ok _ _) fun fp => ?_))
  simp [MemOk, hc]

theorem pairedLane_ok (f : PairW) (e : Eval) : Checks (pairedLane f e) :=
  .openLane (.trapIf (.trapIf (.checked (settleFlags_ok _ _) fun _ => trivial)))

theorem execPairedWord_ok {s : State} (f : PairW) (hs : MemOk s) : OutOk (execPairedWord f s) := by
  unfold execPairedWord
  split
  · trivial
  · split
    · trivial
    · exact .wave _ _ _ hs (pairedWave_ok _ (by rwa [(wctx?_spec ‹_›).1]))
  · exact .context _ hs trivial
  · split
    · trivial
    · exact .lane _ hs (.map (pairedLane_ok _ _) fun e _ => by rwa [MemOk, setLane_mem])

theorem execEmitr_ok {s : State} (f : SysW) (hs : MemOk s) : OutOk (execEmitr f s) := by
  refine .waveWord _ _ hs fun c0 h0 => .trapIf (.open h0 fun c hc => .ite (WCtx.retire_ok hc) (.trapIf (.poison (.waitIf h0 ?_))))
  dsimp only
  split
  · split
    · exact h0
    · exact modNode_ok _ _ _ (WCtx.retire_ok hc)
  · trivial

theorem execEmit_ok {s : State} (f : SysW) (hs : MemOk s) : OutOk (execEmit f s) := by
  refine .waveWord _ _ hs fun c0 h0 => .trapIf (.open h0 fun c hc => .ite (WCtx.retire_ok hc) (.trapIf ?_))
  dsimp only
  split
  · trivial
  · exact .poison (.waitIf h0 (.waitIf (WCtx.issued_ok h0) (modNode_ok _ _ _ (WCtx.retire_ok hc))))

theorem execRecget_ok {s : State} (f : SysW) (hs : MemOk s) : OutOk (execRecget f s) := by
  refine .waveWord _ _ hs fun c0 h0 => .trapIf (.open h0 fun c hc => .poison ?_)
  dsimp only
  split <;> simp [MemOk, hc]

theorem execRecgetCount_ok {s : State} (f : SysW) (hs : MemOk s) : OutOk (execRecgetCount f s) := by
  refine .waveWord _ _ hs fun c0 h0 => .trapIf (.open h0 fun c hc => ?_)
  dsimp only
  split <;> simp [MemOk, hc]

/-! Rays (R270–R282). -/

theorem rayWord_ok {s : State} (opc : Nat) (f : SysW) (srcs dsts : List Regs) (uni : List (BitVec 8)) (align : Nat)
    (addr : WCtx → Nat → Nat) (first : WCtx → Nat → List (Nat × Nat)) (vals : WCtx → Nat → List Nat) (hs : MemOk s) :
    OutOk (rayWord opc f srcs dsts uni align addr first vals s) := by
  refine .waveWord _ _ hs fun c0 h0 => .trapIf (.open h0 fun c hc => .ite (WCtx.retire_ok hc)
    (.checked (trapLane_ok _ _ _) fun _ => .checked (trapLane_ok _ _ _) fun _ => .checked (trapLane_ok _ _ _) fun _ => .poison
      (.waitIf h0 ?_)))
  simp [MemOk, hc]

/-! Matrix words (R232–R269): their plans only check, and what they issue enters the queue of the team. -/

theorem mxWord_ok {s : State} (opc : Nat) (f : SysW) (uni : List (BitVec 8)) (srcs dsts : List Regs) (tile : Bool)
    {act : WCtx → WCtx → Except Stop State} (hs : MemOk s)
    (hact : ∀ c0 c, MemOk c0.s → MemOk c.s → Ends Stop.Ok MemOk (act c0 c)) : OutOk (mxWord opc f uni srcs dsts tile act s) :=
  .waveWord _ _ hs fun _ h0 => .trapIf (.open h0 fun _ hc => .trapIf (.ite (WCtx.retire_ok hc) (hact _ _ h0 hc)))

theorem readBlock_ok (c : WCtx) (q : BitVec 8) (isA handle : Bool) : Checks (readBlock c q isA handle) :=
  .trapIf (.trapIf (.trapIf (.trapIf (.trapIf (.trapIf (.trapIf trivial))))))

theorem placeOperand_ok (c : WCtx) (x : Operand) (r : BitVec 8) : Checks (placeOperand c x r) :=
  .ite trivial (.trapIf (.trapIf (.trapIf (.trapIf (.trapIf trivial)))))

theorem checkSpans_ok (s : State) (T : Team) (spans : List Span) {peers : Except Stop Unit} (hp : Checks peers) :
    Checks (checkSpans s T spans peers) := by
  unfold checkSpans
  extract_lets fail hs
  have fails (c : Cause) (l : List Nat) : Checks (fail c l) := by
    show Checks (match lowest l with
      | some a => .error (.trap c (BitVec.ofNat 64 a))
      | none => .ok ())
    split <;> trivial
  exact .checked (fails _ _) fun _ => .checked (fails _ _) fun _ => .checked hp fun _ => .checked (fails _ _) fun _ => fails _ _

theorem checkPeersHere_ok (f : SysW) (c : WCtx) : Checks (checkPeersHere f c) := by
  unfold checkPeersHere
  split <;> trivial

theorem checkTargets_ok (f : SysW) (c : WCtx) : Checks (checkTargets f c) := by
  unfold checkTargets
  dsimp only
  split <;> trivial

theorem readSelector_ok (c : WCtx) (r : BitVec 8) : Checks (readSelector c r) := .trapIf (.trapIf trivial)

theorem readShape_ok (c : WCtx) (r : BitVec 8) : Checks (readShape c r) := .trapIf trivial

theorem ldwPlan_ok (f : SysW) (c : WCtx) : Checks (ldwPlan f c) :=
  .trapIf (.checked (readBlock_ok _ _ _ _) fun _ => .checked (placeOperand_ok _ _ _) fun _ =>
    .checked (checkSpans_ok _ _ _ (checkPeersHere_ok _ _)) fun _ => .trapIf trivial)

theorem loopPlan_ok (f : SysW) (sparse : Bool) (c : WCtx) : Checks (loopPlan f sparse c) := by
  refine .trapIf (.checked (readShape_ok _ _) fun _ => .checked (readBlock_ok _ _ _ _) fun _ => .checked (placeOperand_ok _ _ _)
    fun _ => .trapIf (.trapIf (.trapIf (.checked (checkSpans_ok _ _ _ (checkPeersHere_ok _ _)) fun _ => ?_))))
  cases c.T.issuedPlane with
  | none => trivial
  | some p => exact .trapIf (.trapIf (.checked (checkTargets_ok _ _) fun _ => .trapIf (.trapIf trivial)))

theorem drainPlan_ok (f : SysW) (c : WCtx) : Checks (drainPlan f c) := by
  refine .trapIf (.trapIf (.trapIf (.trapIf (.trapIf (.checked (placeOperand_ok _ _ _) fun x => ?_)))))
  exact .either (.map (placeOperand_ok _ _ _) fun _ _ => trivial) trivial fun y =>
    .checked (checkSpans_ok _ _ _ (checkPeersHere_ok _ _)) fun _ => .checked (checkTargets_ok _ _) fun _ => trivial

theorem mxIssue_ok {c0 c : WCtx} (bnd : Bool) (srcs dst : List Regs) (kind : MxKind) (upd : Team → Team)
    (h0 : MemOk c0.s)
    (hc : MemOk c.s) : Ends Stop.Ok MemOk (mxIssue c0 c bnd srcs dst kind upd) := by
  refine .poison (.waitIf h0 (.waitIf h0 ?_))
  simp [MemOk, hc]

theorem mxIssueHeld_ok {c0 c : WCtx} (bnd : Bool) (srcs : List Regs) (kind : MxKind) (h0 : MemOk c0.s)
    (hc : MemOk c.s) :
    Ends Stop.Ok MemOk (mxIssueHeld c0 c bnd srcs kind) := by
  refine .poison (.waitIf h0 (.waitIf h0 ?_))
  simp [MemOk, hc]

theorem mxLoop_ok {c0 c : WCtx} (f : SysW) (sparse : Bool) (inc : Regs) (h0 : MemOk c0.s) (hc : MemOk c.s) :
    Ends Stop.Ok MemOk (mxLoop f sparse inc c0 c) :=
  .checked (loopPlan_ok _ _ _) fun _ => mxIssue_ok _ _ _ _ _ h0 hc

theorem execMxzero_ok {s : State} (f : SysW) (hs : MemOk s) : OutOk (execMxzero f s) :=
  mxWord_ok _ _ _ _ _ _ hs fun _ _ h0 hc => .trapIf (.checked (checkPeersHere_ok _ _) fun _ => .trapIf
    (.checked (checkTargets_ok _ _) fun _ => mxIssue_ok _ _ _ _ _ h0 hc))

theorem execMxfence_ok {s : State} (f : SysW) (hs : MemOk s) : OutOk (execMxfence f s) := by
  refine mxWord_ok _ _ _ _ _ _ hs fun c0 c h0 hc => ?_
  simp [MemOk, hc]

theorem execMxrdStat_ok {s : State} (f : SysW) (hs : MemOk s) : OutOk (execMxrdStat f s) :=
  mxWord_ok _ _ _ _ _ _ hs fun _ _ h0 hc => mxIssue_ok _ _ _ _ _ h0 hc

theorem execMxloop_ok {s : State} (f : SysW) (hs : MemOk s) : OutOk (execMxloop f s) :=
  mxWord_ok _ _ _ _ _ _ hs fun _ _ h0 hc => mxLoop_ok _ _ _ h0 hc

theorem execMxspl_ok {s : State} (f : SysW) (hs : MemOk s) : OutOk (execMxspl f s) :=
  mxWord_ok _ _ _ _ _ _ hs fun _ _ h0 hc => mxLoop_ok _ _ _ h0 hc

theorem execMxdrain_ok {s : State} (f : SysW) (hs : MemOk s) : OutOk (execMxdrain f s) :=
  mxWord_ok _ _ _ _ _ _ hs fun _ _ h0 hc => .checked (drainPlan_ok _ _) fun _ => mxIssue_ok _ _ _ _ _ h0 hc

theorem execMxldw_ok {s : State} (f : SysW) (hs : MemOk s) : OutOk (execMxldw f s) :=
  mxWord_ok _ _ _ _ _ _ hs fun _ _ h0 hc => .checked (ldwPlan_ok _ _) fun _ => mxIssue_ok _ _ _ _ _ h0 hc

theorem execMxcfg_ok {s : State} (f : SysW) (hs : MemOk s) : OutOk (execMxcfg f s) :=
  mxWord_ok _ _ _ _ _ _ hs fun _ _ h0 hc => .trapIf (.trapIf (mxIssue_ok _ _ _ _ _ h0 hc))

theorem execMxmask_ok {s : State} (f : SysW) (hs : MemOk s) : OutOk (execMxmask f s) := by
  refine mxWord_ok _ _ _ _ _ _ hs fun c0 c h0 hc => .poison ?_
  simp [MemOk, hc]

theorem execMxrd_ok {s : State} (f : SysW) (hs : MemOk s) : OutOk (execMxrd f s) := by
  unfold execMxrd
  dsimp only
  split
  · exact .waveWord _ _ hs fun _ _ => trivial
  · exact mxWord_ok _ _ _ _ _ _ hs fun _ _ h0 hc => .checked (readSelector_ok _ _) fun _ => mxIssue_ok _ _ _ _ _ h0 hc

theorem execMxwr_ok {s : State} (f : SysW) (hs : MemOk s) : OutOk (execMxwr f s) := by
  unfold execMxwr
  dsimp only
  split
  · exact .waveWord _ _ hs fun _ _ => trivial
  · exact mxWord_ok _ _ _ _ _ _ hs fun _ _ h0 hc => .checked (readSelector_ok _ _) fun _ => .trapIf (mxIssue_ok _ _ _ _ _ h0 hc)

theorem execJchain_ok {s : State} (f : SysW) (hs : MemOk s) : OutOk (execJchain f s) :=
  mxWord_ok _ _ _ _ _ _ hs fun _ _ h0 hc => .trapIf (.trapIf (.trapIf (.trapIf (.trapIf (.trapIf (mxIssueHeld_ok _ _ _ h0 hc))))))

theorem execJsend_ok {s : State} (f : SysW) (hs : MemOk s) : OutOk (execJsend f s) :=
  mxWord_ok _ _ _ _ _ _ hs fun _ _ h0 hc => mxIssueHeld_ok _ _ _ h0 hc

theorem execJrecv_ok {s : State} (f : SysW) (hs : MemOk s) : OutOk (execJrecv f s) :=
  mxWord_ok _ _ _ _ _ _ hs fun _ _ h0 hc => mxIssueHeld_ok _ _ _ h0 hc

theorem execJclose_ok {s : State} (f : SysW) (hs : MemOk s) : OutOk (execJclose f s) := by
  refine mxWord_ok _ _ _ _ _ _ hs fun c0 c h0 hc => .trapIf (.poison (.waitIf h0 ?_))
  simp [MemOk, hc]

theorem execJabort_ok {s : State} (f : SysW) (hs : MemOk s) : OutOk (execJabort f s) := by
  refine mxWord_ok _ _ _ _ _ _ hs fun c0 c h0 hc => .trapIf (.poison ?_)
  simp [MemOk, hc]

/-! Flits of the junction network (R464–R474). -/

theorem jarrive_ok {s : State} (types : List FlitType) (missing : Missing) (n : Nat)
    {act : State → Nat → Team → Chain → JFlit → State}
    (hs : MemOk s) (hact : ∀ s t T c f, (act s t T c f).mem = s.mem) : OutOk (jarrive types missing n s act) := by
  refine .event hs (.need fun f => .needs (.needs ?_))
  extract_lets s0 s1
  have hs1 : MemOk s1 := by
    show MemOk (if _ then _ else _)
    split
    · rwa [MemOk, dropHeld_mem]
    · exact hs
  cases chainAt s1 f.dest f.chain with
  | none =>
    cases missing with
    | keep =>
      show MemOk (if _ then _ else _)
      split
      · rwa [MemOk, refuseFlit_mem]
      · rwa [MemOk, modCore_mem]
    | drop => exact hs1
    | refuse =>
      show MemOk _
      rwa [MemOk, refuseFlit_mem]
  | some p =>
    refine .ite hs1 (.ite ?_ ?_)
    · show MemOk _
      rwa [MemOk, abortFrom_mem]
    · show MemOk _
      rwa [MemOk, hact]

theorem execReady_ok {s : State} (n : Nat) (hs : MemOk s) : OutOk (execReady n s) := by
  refine jarrive_ok _ _ _ hs fun s t T c f => ?_
  dsimp only
  (repeat' split) <;> simp

theorem execArm_ok {s : State} (n : Nat) (hs : MemOk s) : OutOk (execArm n s) := by
  refine jarrive_ok _ _ _ hs fun s t T c f => ?_
  dsimp only
  split
  · rfl
  · rw [pump_mem]
    split
    · exact modChainOf_mem _ _ _ _
    · rw [foldl_same State.mem _ (fun s r => jput_mem s _)]
      exact modChainOf_mem _ _ _ _

theorem execCredit_ok {s : State} (n : Nat) (hs : MemOk s) : OutOk (execCredit n s) :=
  jarrive_ok _ _ _ hs fun s t T c f => by simp

theorem execReq_ok {s : State} (n : Nat) (hs : MemOk s) : OutOk (execReq n s) :=
  jarrive_ok _ _ _ hs fun s t T c f => by simp

theorem execData_ok {s : State} (n : Nat) (hs : MemOk s) : OutOk (execData n s) :=
  jarrive_ok _ _ _ hs landData_mem

theorem execDatasat_ok {s : State} (n : Nat) (hs : MemOk s) : OutOk (execDatasat n s) :=
  jarrive_ok _ _ _ hs landData_mem

theorem execEndFlit_ok {s : State} (n : Nat) (hs : MemOk s) : OutOk (execEndFlit n s) := by
  refine jarrive_ok _ _ _ hs fun s t T c f => ?_
  rw [pump_mem, modChainOf_mem]
  (repeat' split) <;> simp

theorem execAbortFlit_ok {s : State} (n : Nat) (hs : MemOk s) : OutOk (execAbortFlit n s) :=
  jarrive_ok _ _ _ hs fun s t T c f => by simp

theorem execRevoke_ok {s : State} (n : Nat) (hs : MemOk s) : OutOk (execRevoke n s) := by
  refine jarrive_ok _ _ _ hs fun s t T c f => ?_
  dsimp only
  split <;> simp

theorem execRefuse_ok {s : State} (n : Nat) (hs : MemOk s) : OutOk (execRefuse n s) := by
  unfold execRefuse
  split
  · split
    · refine foldl_keeps MemOk _ (fun s core hs => ?_) _ _ hs
      split
      · split
        · rwa [MemOk, abortChain_mem]
        · exact hs
      · exact hs
    · exact jarrive_ok _ _ _ hs fun s t T c f => by simp
  · exact hs

end Sys2Proof.Machine

end

