-- ==== Sys2Proof/Proofs/MemoryEvents.lean ====
section
/-! SUPPORT. The events of the opcode table keep the form of memory. -/

namespace Sys2Proof.Machine

theorem execMail_ok {s : State} (n : Nat) (hs : MemOk s) : OutOk (execMail n s) := by
  refine .event hs (.need fun f => .needs (.need fun C => ?_))
  (repeat' split) <;> simp [MemOk, intoImage_ok, hs]

theorem execMailacc_ok {s : State} (n : Nat) (hs : MemOk s) : OutOk (execMailacc n s) := by
  refine .event hs (.need fun f => .needs ?_)
  dsimp only
  split
  · simp [MemOk, hs]
  · show MemOk _
    rw [MemOk, wakeWave_mem, foldl_same State.mem _ (fun s g => retireHeld_mem s _ _ _ _)]
    simp [hs]

theorem execMailref_ok {s : State} (n : Nat) (hs : MemOk s) : OutOk (execMailref n s) := by
  refine .event hs (.need fun f => .needs ?_)
  (repeat' split) <;> simp [MemOk, hs]

theorem execMailSlotGrant_ok {s : State} (team wave : Nat) (hs : MemOk s) :
    OutOk (execMailSlotGrant team wave s) := by
  refine .event hs (.need fun T => .need fun C => .needs (.need fun i => .need fun f => .needs ?_))
  (repeat' split) <;> simp [MemOk, hs]

theorem execMailboxControlFlit_ok {s : State} (n : Nat) (hs : MemOk s) : OutOk (execMailboxControlFlit n s) := by
  refine .event hs (.need fun f => .needs ?_)
  dsimp only
  split
  · simp [MemOk, hs]
  · exact .needs (by simp [MemOk, hs])

theorem execMailResendTimeout_ok {s : State} (team wave : Nat) (hs : MemOk s) :
    OutOk (execMailResendTimeout team wave s) := by
  refine .event hs (.need fun W => .need fun t0 => .need fun f => .needs ?_)
  simp [MemOk, hs]

theorem execMbdropRead_ok {s : State} (core : Nat) (hs : MemOk s) : OutOk (execMbdropRead core s) := by
  refine .event hs (.need fun C => ?_)
  simp [MemOk, hs]

theorem execTlincApply_ok {s : State} (ctx : Nat) (hs : MemOk s) : OutOk (execTlincApply ctx s) := by
  refine .event hs (.need fun X => ?_)
  split
  · exact .needs (by simp [MemOk, hs])
  · trivial

theorem execCbarvApply_ok {s : State} (ctx : Nat) (hs : MemOk s) : OutOk (execCbarvApply ctx s) := by
  refine .event hs (.need fun X => ?_)
  split
  · refine .needs ?_
    dsimp only
    split
    · simp [MemOk, hs]
    · refine .needs ?_
      show MemOk _
      rw [MemOk, wakeCluster_mem, modCtx_mem]
      exact outsideWrite_ok _ _ _ _ hs
  · trivial

theorem execContextFaulted_ok {s : State} (ctx : Nat) (hs : MemOk s) : OutOk (execContextFaulted ctx s) := by
  refine .event hs (.need fun X => .needs ?_)
  simp [MemOk, foldl_keeps_mem, hs]

theorem execStopcComplete_ok {s : State} (ctx : Nat) (hs : MemOk s) : OutOk (execStopcComplete ctx s) := by
  refine .event hs (.need fun X => .needs ?_)
  simp [MemOk, foldl_keeps_mem, hs]

theorem execCopyBurst_ok {s : State} (engine : Nat) (hs : MemOk s) : OutOk (execCopyBurst engine s) := by
  refine .event hs (.need fun who => ?_)
  cases who with
  | ctx x c =>
    refine .need fun X => ?_
    split
    have hs1 := memOk_fst ‹_› (copyPieces_ok _ _ _ _ _ _ hs)
    simp [MemOk, hs1]
  | wave t c =>
    refine .need fun T => ?_
    split
    have hs1 := memOk_fst ‹_› (wavePieces_ok _ _ _ _ _ hs)
    simp [MemOk, hs1]

theorem execCopyComplete_ok {s : State} (ctx num : Nat) (hs : MemOk s) : OutOk (execCopyComplete ctx num s) := by
  refine .event hs (.need fun X => .need fun c => .needs ?_)
  (repeat' split) <;> simp [MemOk, hs]

theorem execWaveCopyComplete_ok {s : State} (team num : Nat) (hs : MemOk s) :
    OutOk (execWaveCopyComplete team num s) := by
  refine .event hs (.need fun T => .need fun c => .needs ?_)
  simp [MemOk, hs]

theorem execStreamFetch_ok {s : State} (team q : Nat) (hs : MemOk s) : OutOk (execStreamFetch team q s) := by
  refine .event hs (.need fun T => .need fun f => .need fun st => .needs ?_)
  have elem {E : Eng} {p : State × (EngRes ⊕ Word × Bool)} (h : streamElem s E st = p) : MemOk p.1 := by
    rwa [← h, MemOk, streamElem_mem]
  dsimp only
  split
  · simp [MemOk, elem ‹_›]
  · have hs1 := elem ‹_›
    simp [MemOk, hs1]
  · have hs1 := elem ‹_›
    show MemOk _
    rw [MemOk, modTeam_mem]
    exact parkEngine_ok _ _ _ _ _ hs1
  · have hs1 := elem ‹_›
    simp [MemOk, hs1]
  · exact elem ‹_›
  · exact elem ‹_›

theorem execReservationGrant_ok {s : State} (core : Nat) (hs : MemOk s) : OutOk (execReservationGrant core s) := by
  refine .event hs (.need fun C => .needs (.need fun r => ?_))
  dsimp only
  split
  · simp [MemOk, hs]
  · exact .need fun p => .needs (by simp [MemOk, hs])

/-- The head of a queue is read; nothing is written. -/
theorem mxHead_ok (s : State) (t : Nat) : Ends Stop.Ok (fun _ => True) (mxHead s t) :=
  .need fun _ => .need fun _ => .need fun _ => .needs (.needs trivial)

theorem mxOver_ok (s : State) (t : Nat) : Ends Stop.Ok (fun _ => True) (mxOver s t) := by
  unfold mxOver
  split
  · trivial
  · exact .need fun _ => .need fun _ => .needs trivial

theorem rowBlock_ok {s : State} (t : Nat) (op : MxOp) (p : Plane) (tile : Nat) (x : Operand) (m n : Nat)
    (da db dm : Int)
    (rows : BitVec 128) (cols : List (BitVec 128)) (mask : BitVec 8) (hs : MemOk s) :
    Ends MxStop.Ok MemOk (rowBlock s t op p tile x m n da db dm rows cols mask) := by
  refine .bind (ensurePlane_ok _ _ _ _ _ _ _ hs) fun s1 hs1 => ?_
  cases team? s1 t with
  | none => exact hs1
  | some T =>
    refine .bind (fetchRanges_ok _ _ _ hs1) fun r hs2 => ?_
    have worked (f : Nat × Nat → Team → Team) : MemOk (op.targets.foldl (fun s q => modTeam s q.2 (f q)) r.1) := by
      rwa [MemOk, foldl_same State.mem _ (fun s (q : Nat × Nat) => modTeam_mem s q.2 _)]
    obtain ⟨s2, am⟩ := r
    refine .ite ?_ (.ite ?_ ?_)
    · show MemOk _
      rw [MemOk, modOp_mem]
      exact worked _
    · show MemOk _
      rw [MemOk, modTeam_mem, modOp_mem]
      exact worked _
    · extract_lets s4
      have hs4 : MemOk s4 := by
        rw [MemOk, modOp_mem]
        exact worked _
      have next := ensurePlane_ok t p mask db dm (min x.stepK p.op.stepK) (op.step + 1) hs4
      split
      · exact next.ok ‹_›
      · exact mxStopped_ok _ _ hs4 (next.error ‹_›)

theorem execRowBlock_ok {s : State} (team : Nat) (hs : MemOk s) : OutOk (execRowBlock team s) := by
  refine .event hs (.checked (mxHead_ok _ _) fun ⟨T, C, op⟩ => .needs ?_)
  have claimed : MemOk (claimTiles s T op).1 := by rwa [MemOk, claimTiles_mem]
  dsimp only
  split
  · refine .need fun p => .needs ?_
    split
    · exact claimed
    · split
      · exact (rowBlock_ok _ _ _ _ _ _ _ _ _ _ _ _ _ claimed).ok ‹_›
      · exact mxStopped_ok _ _ claimed ((rowBlock_ok _ _ _ _ _ _ _ _ _ _ _ _ _ claimed).error ‹_›)
  · trivial

theorem execMatrixOpStart_ok {s : State} (team : Nat) (hs : MemOk s) : OutOk (execMatrixOpStart team s) := by
  refine .event hs (.checked (mxHead_ok _ _) fun p => .needs (.needs ?_))
  have claimed : MemOk (claimTiles s p.1 p.2.2).1 := by rwa [MemOk, claimTiles_mem]
  dsimp only
  split
  · split
    · exact claimed
    · exact startOp_ok _ _ _ claimed
  · refine .needs ?_
    show MemOk _
    rwa [MemOk, enterTargets_mem]

theorem execClusterOpArrival_ok {s : State} (team core : Nat) (hs : MemOk s) :
    OutOk (execClusterOpArrival team core s) := by
  refine .event hs (.checked (mxHead_ok _ _) fun _ => .need fun C => .needs (.needs ?_))
  simp [MemOk, hs]

theorem execMatrixOpComplete_ok {s : State} (team : Nat) (hs : MemOk s) : OutOk (execMatrixOpComplete team s) := by
  refine .event hs (.checked (mxOver_ok _ _) fun ⟨T, op⟩ => ?_)
  have popped (b : Bool) (d h w : Nat) : MemOk (popOp (if b then s else endTransfer s team op d h w) team op) := by
    rw [MemOk, popOp_mem]
    split
    · exact hs
    · exact endTransfer_ok _ _ _ _ _ hs
  dsimp only
  split
  · exact .needs (popped _ _ _ _)
  · exact .needs (popped _ _ _ _)
  · refine .needs ?_
    show MemOk _
    rwa [MemOk, popOp_mem]

theorem execRtraceStart_ok {s : State} (core n : Nat) (hs : MemOk s) : OutOk (execRtraceStart core n s) := by
  refine .event hs (.need fun C => .need fun r => .needs ?_)
  simp [MemOk, hs]

theorem execRayUnitComplete_ok {s : State} (core n : Nat) (hs : MemOk s) : OutOk (execRayUnitComplete core n s) := by
  refine .event hs (.need fun C => .need fun r => .need fun W => .needs ?_)
  have traced := rayLanes_ok s r W r.vals hs
  dsimp only
  split
  · exact takeTrap_ok _ _ _ _ _ (by rwa [MemOk, modCore_mem])
  · split
    · exact traced
    · split
      · simp [MemOk, traced]
      · refine parkWave_ok _ _ _ _ _ ?_
        simp [MemOk, traced]

theorem execPassStart_ok {s : State} (cluster slot : Nat) (hs : MemOk s) : OutOk (execPassStart cluster slot s) := by
  refine .event hs (.need fun C => .need fun P => .needs ?_)
  simp [MemOk, hs]

theorem execPassPixel_ok {s : State} (cluster slot : Nat) (hs : MemOk s) : OutOk (execPassPixel cluster slot s) := by
  refine .event hs (.need fun C => .need fun P => .needs ?_)
  exact passRun_ok _ _ _ (passAdvances_ok _ _ _) (by rwa [MemOk, prunePass_mem])

theorem execHaloRequest_ok {s : State} (cluster slot : Nat) (hs : MemOk s) :
    OutOk (execHaloRequest cluster slot s) := by
  refine .event hs (.need fun C => .need fun P => .need fun p => .needs ?_)
  refine passRun_ok _ _ _ (.bind (itemPlace_ok _ _ _ _ _) fun ⟨at_, _⟩ => ?_) hs
  cases at_ with
  | none => exact .pure _
  | some q => exact .update fun s hs => hs

theorem execVisibilitySegment_ok {s : State} (cluster slot : Nat) (hs : MemOk s) :
    OutOk (execVisibilitySegment cluster slot s) := by
  have trace (P : Pass) (g : (Nat × Nat) × Nat × Segment) : Ends Stop.Ok MemOk (execVisibilitySegment.trace cluster slot s P g) := by
    have spills : Spills.Ok ⟨0, fun _ _ => pure (), fun _ => pure none⟩ := ⟨fun _ _ => .pure _, fun _ => .pure _⟩
    refine passRun_ok _ _ _ (.ite (.stops _ _) (.bind (Trav.run_ok (passReader_ok _ _ _) spills _ _ _ _) fun y => .update ?_)) hs
    intro s hs
    rwa [MemOk, wakeOn_mem, modPass_mem]
  refine .event hs (.need fun C => .need fun P => .needs ?_)
  dsimp only
  split
  · split
    · simp [MemOk, hs]
    · exact trace _ _
  · exact .need fun g => trace _ _

theorem execPassEnd_ok {s : State} (cluster slot : Nat) (hs : MemOk s) : OutOk (execPassEnd cluster slot s) := by
  refine .event hs (.need fun C => .need fun P => .needs ?_)
  dsimp only
  (repeat' split) <;> simp [MemOk, engWrite_ok, passStop_ok, hs]

theorem serveAt_ok {s : State} {r : MemReq} {p : State × MemReq} (hs : MemOk s) (h : serveAt s r = some p) :
    MemOk p.1 := by
  unfold serveAt at h
  split at h
  · obtain ⟨s1, hp, rfl⟩ := Option.map_eq_some_iff.mp h
    exact performPeer_ok hs hp
  · obtain rfl := Option.some.inj h
    exact serveReq_ok _ hs

theorem execHomeRequest_ok {s : State} (rid : Rid) (hs : MemOk s) : OutOk (execHomeRequest rid s) := by
  refine .event hs (.need fun r => .needs (.needs (.need_some fun p h => ?_)))
  have served := serveAt_ok hs h
  simp [MemOk, served]

theorem execAckFlit_ok {s : State} (rid : Rid) (hs : MemOk s) : OutOk (execAckFlit rid s) := by
  refine .event hs (.need fun r => .needs ?_)
  simp [MemOk, hs]

theorem execReadDataResponse_ok {s : State} (rid : Rid) (hs : MemOk s) : OutOk (execReadDataResponse rid s) := by
  refine .event hs (.need fun r => .needs ?_)
  (repeat' split) <;> simp [MemOk, hs]

theorem execNackFlit_ok {s : State} (rid : Rid) (hs : MemOk s) : OutOk (execNackFlit rid s) := by
  refine .event hs (.need fun r => .needs ?_)
  (repeat' split) <;> simp [MemOk, engineRefused_ok, resolveReq_ok, hs]

theorem execDeferredPerm_ok {s : State} (team wave : Nat) (hs : MemOk s) : OutOk (execDeferredPerm team wave s) := by
  refine .event hs (.need fun r => ?_)
  extract_lets s1 s2
  have hs2 : MemOk s2 := by
    rw [MemOk, endAcquire_mem]
    split <;> simp [s1, hs]
  refine .need fun W => ?_
  split
  · simp [MemOk, hs2]
  · refine .needs ?_
    show MemOk _
    rw [MemOk, makeReady_mem]
    exact takeTrapAt_ok _ _ _ _ _ _ _ (by rwa [MemOk, modWave_mem])

theorem resolveWave_ok {s : State} (t w : Nat) (hs : MemOk s) : Ends Stop.Ok MemOk (resolveWave s t w) := by
  refine .need fun T => .need fun W => .needs ?_
  have resolved : MemOk (resolveLanes t (Acc.ofCode W.parkAcc) T.ext W.parks s).1 := by rwa [MemOk, resolveLanes_mem]
  dsimp only
  split
  · exact endMissing_ok _ _ _ _ resolved
  · split
    · simp [MemOk, hs]
    · show MemOk _
      rw [MemOk, modWave_mem]
      exact writeFaults_ok _ _ resolved

theorem resolveEngine_ok {s : State} (who : Requester) (t : Nat) (p : EngPark) (hs : MemOk s) :
    Ends Stop.Ok MemOk (resolveEngine s who t p) := by
  refine .need fun T => .needs ?_
  have resolved : MemOk (resolveLanes t (Acc.ofCode p.acc) T.ext p.pages s).1 := by rwa [MemOk, resolveLanes_mem]
  dsimp only
  split
  · exact endMissing_ok _ _ _ _ resolved
  · split
    · simp [MemOk, hs]
    · show MemOk _
      rw [MemOk, setEnginePark_mem]
      exact engineRecords_ok _ _ _ _ _ _ _ resolved

theorem execOnDemandTranslate_ok {s : State} (who : Requester) (hs : MemOk s) :
    OutOk (execOnDemandTranslate who s) := by
  refine .event hs ?_
  split
  · exact resolveWave_ok _ _ hs
  · refine .need fun r => ?_
    split
    · exact resolveReq_ok _ hs
    · trivial
  · exact .need fun p => resolveEngine_ok _ _ _ hs

theorem execMingenRaiseComplete_ok {s : State} (asid : Nat) (hs : MemOk s) :
    OutOk (execMingenRaiseComplete asid s) := by
  refine .event hs (.needs ?_)
  show MemOk _
  refine foldl_keeps MemOk _ (fun s p hs => foldl_keeps MemOk _ (fun s q hs => ?_) _ _ ?_) _ _ hs
  · split
    · rwa [MemOk, answer_mem]
    · exact hs
  · rwa [MemOk, modPart_mem]

theorem execGatewayReduction_ok {s : State} (rid : Rid) (hs : MemOk s) : OutOk (execGatewayReduction rid s) := by
  refine .event hs (.need fun r => .needs (.need fun gw => .needs ?_))
  dsimp only
  (repeat' split) <;> simp [MemOk, hs]

theorem execGatewayReductionWindowEnd_ok {s : State} (n : Nat) (hs : MemOk s) :
    OutOk (execGatewayReductionWindowEnd n s) := by
  refine .event hs (.need fun h => .needs ?_)
  dsimp only
  (repeat' split) <;> simp [MemOk, hs]

theorem execGatewayAnchorData_ok {s : State} (n : Nat) (hs : MemOk s) : OutOk (execGatewayAnchorData n s) := by
  refine .event hs (.need fun f => .needs (.needs ?_))
  dsimp only
  (repeat' split) <;> simp [MemOk, hs]

theorem execGatewayWindowEnd_ok {s : State} (n : Nat) (hs : MemOk s) : OutOk (execGatewayWindowEnd n s) := by
  refine .event hs (.need fun h => .needs ?_)
  simp [MemOk, hs]

theorem execNodeFire_ok {s : State} (p node : Nat) (hs : MemOk s) : OutOk (execNodeFire p node s) := by
  refine .event hs (.need fun N => .needs ?_)
  simp [MemOk, fireNode_ok, hs]

theorem execDrainComplete_ok {s : State} (p node : Nat) (hs : MemOk s) : OutOk (execDrainComplete p node s) := by
  refine .event hs (.need fun P => .need fun N => ?_)
  split
  · exact .needed fun s1 h => fireDue_ok hs h
  · refine .needs (.needs (.needs (drained_ok _ _ ?_)))
    split
    · exact hs
    · exact fireNode_ok _ _ _ hs

theorem execLaunchEnd_ok {s : State} (launch : Nat) (hs : MemOk s) : OutOk (execLaunchEnd launch s) := by
  refine .event hs (.need fun L => .needs ?_)
  (repeat' split) <;> simp [MemOk, launchOver_ok, schedAtomic_ok, hs]

theorem execFlitCrcFail_ok {s : State} (port : Nat) (hs : MemOk s) : OutOk (execFlitCrcFail port s) := by
  refine .event hs (.needs ?_)
  simp [MemOk, hs]

theorem execFabricPortFail_ok {s : State} (port : Nat) (hs : MemOk s) : OutOk (execFabricPortFail port s) := by
  refine .event hs (.needs ?_)
  exact foldl_keeps MemOk _ (fun s m hs => by rwa [MemOk, pathFailed_mem]) _ _ hs

theorem execThieloData_ok {s : State} (n : Nat) (hs : MemOk s) : OutOk (execThieloData n s) := by
  refine .event hs (.need fun f => .needs (.needs ?_))
  show MemOk _
  rw [MemOk, transmit_mem]
  split
  · rwa [deliver_mem]
  · exact hs

theorem execE2eack_ok {s : State} (n : Nat) (hs : MemOk s) : OutOk (execE2eack n s) := by
  refine .event hs (.need fun f => .needs ?_)
  simp [MemOk, hs]

theorem execE2eRetransmit_ok {s : State} (n port : Nat) (hs : MemOk s) : OutOk (execE2eRetransmit n port s) := by
  refine .event hs (.need fun h => .needs ?_)
  split
  · simp [MemOk, hs]
  · exact .needs (by simp [MemOk, hs])

theorem execUcieLinkLevelRetry_ok {s : State} (gw m : Nat) (hs : MemOk s) :
    OutOk (execUcieLinkLevelRetry gw m s) := by
  refine .event hs (.need fun G => .needs ?_)
  simp [MemOk, hs]

theorem execUcieModuleFail_ok {s : State} (gw m : Nat) (hs : MemOk s) : OutOk (execUcieModuleFail gw m s) := by
  refine .event hs (.need fun G => .needs ?_)
  dsimp only
  (repeat' split) <;> simp [MemOk, hs]

theorem execRoceInvalidRequest_ok {s : State} (port qp : Nat) (hs : MemOk s) :
    OutOk (execRoceInvalidRequest port qp s) := by
  refine .event hs (.needs ?_)
  simp [MemOk, hs]

theorem rdmaPieces_ok (s : State) (Q : Qp) (r : RdmaReq) (n : Nat) (write : Bool) :
    Ends Stop.Ok (fun _ => True) (rdmaPieces s Q r n write) := by
  refine .need fun P => ?_
  split
  · trivial
  · exact .ite (.needs (Q := fun _ => True) trivial) trivial

theorem execRdmaWrite_ok {s : State} (r : RdmaReq) (hs : MemOk s) : OutOk (execRdmaWrite r s) := by
  refine .event hs (.need fun Q => .checked (rdmaPieces_ok _ _ _ _ _) fun o => ?_)
  split
  · simp [MemOk, hs]
  · exact rdmaPut_ok _ _ hs

theorem execRdmaRead_ok {s : State} (r : RdmaReq) (hs : MemOk s) : OutOk (execRdmaRead r s) := by
  refine .event hs (.need fun Q => .checked (rdmaPieces_ok _ _ _ _ _) fun o => ?_)
  split
  · simp [MemOk, hs]
  · dsimp only
    split
    · simp [MemOk, hs]
    · show MemOk _
      rw [MemOk, emitOut_mem, dropFar_mem]
      refine foldl_keeps (fun a : State × List Byte => MemOk a.1) _ (fun a p ha => ?_) _ (s, []) hs
      split
      · exact ha
      · show MemOk (freeBytes _ _).2
        rwa [MemOk, freeBytes_mem, countDiscard_mem]

theorem execHostCommit_ok {s : State} (port qp : Nat) (msg : CommitMsg) (hs : MemOk s) :
    OutOk (execHostCommit port qp msg s) := by
  refine .event hs (.need fun Q => .checked (rdmaPieces_ok _ _ _ _ _) fun o => ?_)
  split
  · simp [MemOk, hs]
  · split
    · exact commitRecords_ok _ _ (rdmaPut_ok _ _ hs)
    · simp [MemOk, hs]

theorem execTeamReady_ok {s : State} (team : Nat) (hs : MemOk s) : OutOk (execTeamReady team s) := by
  refine .event hs (.need fun T => .need fun L => .needs ?_)
  simp [MemOk, hs]

theorem execTeamAdmit_ok {s : State} (team : Nat) (hs : MemOk s) : OutOk (execTeamAdmit team s) := by
  refine .event hs (.need fun T => .need fun P => .need fun L => .needs ?_)
  split
  · exact .needs hs
  · exact .needs (by simp [MemOk, hs])

theorem leaveShadow_ok {s s' : State} {t core : Nat} (hs : MemOk s) (h : leaveShadow s t core = some s') :
    MemOk s' := by
  unfold leaveShadow at h
  split at h
  · simp at h
  · rename_i s1 himg
    have hs1 : MemOk s1 := by rwa [MemOk, takeImage_mem himg]
    split at h
    · simp at h
    · split at h
      · simp at h
      · obtain rfl := Option.some.inj h
        rw [MemOk, answerForces_mem, modCore_mem, modTeam_mem]
        split
        · exact hs1
        · exact saveContext_ok _ hs1

theorem execContextSaved_ok {s : State} (team : Nat) (hs : MemOk s) : OutOk (execContextSaved team s) := by
  refine .event hs (.need fun T => .need fun C => .needs ?_)
  split
  · exact .needed fun s1 h => leaveShadow_ok hs h
  · exact .needs (saveContext_ok _ hs)

theorem execContextFillComplete_ok {s : State} (core : Nat) (hs : MemOk s) :
    OutOk (execContextFillComplete core s) := by
  refine .event hs (.need fun C => .need fun t => .need fun T => .needs ?_)
  simp [MemOk, hs]

theorem execTeamResident_ok {s : State} (core team : Nat) (hs : MemOk s) : OutOk (execTeamResident core team s) := by
  refine .event hs (.need fun T => .need fun P => .need fun C => .needs (.needs (.needs ?_)))
  dsimp only
  split
  · exact enterShadow_ok _ _ _ hs
  · exact .needs (.need_some fun s1 h => enterShadow_ok _ _ _ (leaveShadow_ok hs h))

theorem withImage_ok {s s' : State} {C : Core} (hs : MemOk s) (h : withImage s C = some s') : MemOk s' := by
  unfold withImage at h
  split at h
  · exact Option.some.inj h ▸ hs
  · rwa [MemOk, takeImage_mem h]

theorem execBankSwap_ok {s : State} (core : Nat) (hs : MemOk s) : OutOk (execBankSwap core s) := by
  refine .event hs (.need fun C => .needs ?_)
  split
  · refine .needs ?_
    split
    · simp [MemOk, hs]
    · exact finishSwap_ok _ hs
  · exact .needs (.need_some fun s1 h => decideSwap_ok _ _ (withImage_ok hs h))

theorem execWaitSwapTimeout_ok {s : State} (core : Nat) (hs : MemOk s) : OutOk (execWaitSwapTimeout core s) := by
  exact .event hs (.need fun C => .need fun t => .need fun A => .needs (.needs (.need_some fun s1 h => decideSwap_ok _ _ (withImage_ok hs h))))

theorem execClaimComplete_ok {s : State} (core : Nat) (hs : MemOk s) : OutOk (execClaimComplete core s) := by
  refine .event hs (.need fun C => .needs (.need fun c => ?_))
  simp [MemOk, saveVictim_ok, settleClaim_ok, hs]

theorem execReleaseClearComplete_ok {s : State} (core : Nat) (hs : MemOk s) :
    OutOk (execReleaseClearComplete core s) := by
  refine .event hs (.need fun C => .needs (.need fun p => ?_))
  simp [MemOk, hs]

theorem execTeamEnd_ok {s : State} (team energy : Nat) (hs : MemOk s) : OutOk (execTeamEnd team energy s) := by
  refine .event hs (.need fun T => .need fun L => .needs ?_)
  extract_lets s1 s2 s3 s4 s5 s6 s7 s8
  have hs1 : MemOk s1 := by
    rw [MemOk, cutClusterOps_mem, foldl_same State.mem _ (fun s c => endChain_mem s _ _)]
    exact hs
  have hs2 : MemOk s2 := by
    show MemOk (if _ then _ else _)
    split
    · exact hs1
    · exact schedAtomic_ok _ _ _ _ hs1
  show MemOk _
  rw [MemOk, answerForces_mem, wakePart_mem, dropArrivals_mem]
  show MemOk s7
  rw [MemOk, modPart_mem, settleEnergy_mem, modCluster_mem, freeImage_mem, modTeam_mem, releaseUnits_mem, modLaunch_mem]
  exact hs2

theorem served_ok (s : State) (m : MgmtMsg) : Ends Stop.Ok (fun _ => True) (served s m) :=
  .need fun _ => .needs trivial

theorem execForce_ok {s : State} (m : MgmtMsg) (hs : MemOk s) : OutOk (execForce m s) := by
  refine .event hs (.checked (served_ok _ _) fun _ => .needs ?_)
  split
  · simp [MemOk, hs]
  · dsimp only
    split <;> simp [MemOk, hs]

theorem execKill_ok {s : State} (m : MgmtMsg) (hs : MemOk s) : OutOk (execKill m s) := by
  refine .event hs (.checked (served_ok _ _) fun _ => .needs ?_)
  split
  · simp [MemOk, hs]
  · exact killLaunch_ok _ _ _ (by rwa [MemOk, deferReply_mem])

theorem execHalt_ok {s : State} (m : MgmtMsg) (hs : MemOk s) : OutOk (execHalt m s) := by
  refine .event hs (.checked (served_ok _ _) fun _ => .needs ?_)
  split <;> simp [MemOk, hs]

theorem execNodetab_ok {s : State} (m : MgmtMsg) (hs : MemOk s) : OutOk (execNodetab m s) := by
  refine .event hs (.checked (served_ok _ _) fun _ => .needs ?_)
  dsimp only
  generalize operand m 8 8 = a
  split
  · simp [MemOk, hs]
  · split <;> simp [MemOk, hs]

theorem execNodeon_ok {s : State} (m : MgmtMsg) (hs : MemOk s) : OutOk (execNodeon m s) := by
  refine .event hs (.checked (served_ok _ _) fun _ => .needs ?_)
  dsimp only
  refine .ite (by simp [MemOk, hs]) (.ite (by simp [MemOk, hs]) ?_)
  split
  · simp [MemOk, hs]
  · show MemOk _
    rw [MemOk, wakePart_mem, reply_mem]
    refine ownWrite_wf _ _ ?_
    rw [modPart_mem]
    exact hs

theorem execNodeoff_ok {s : State} (m : MgmtMsg) (hs : MemOk s) : OutOk (execNodeoff m s) := by
  refine .event hs (.checked (served_ok _ _) fun _ => .needs ?_)
  dsimp only
  split
  · simp [MemOk, hs]
  · split
    · simp [MemOk, hs]
    · show MemOk _
      rw [MemOk, wakePart_mem, nodeIdle_mem, deferReply_mem]
      exact modNode_ok _ _ _ hs

theorem execAsrec_ok {s : State} (m : MgmtMsg) (hs : MemOk s) : OutOk (execAsrec m s) := by
  refine .event hs (.checked (served_ok _ _) fun _ => .needs ?_)
  dsimp only
  (repeat' split) <;> simp [MemOk, hs]

theorem execUnknownOp_ok {s : State} (m : MgmtMsg) (hs : MemOk s) : OutOk (execUnknownOp m s) := by
  refine .event hs (.checked (served_ok _ _) fun _ => .needs ?_)
  simp [MemOk, hs]

theorem execSvcdone_ok {s : State} (p : Nat) (ticket : Word) (hs : MemOk s) : OutOk (execSvcdone p ticket s) := by
  refine .event hs (.need fun _ => ?_)
  simp [MemOk, hs]

theorem execFlush_ok {s : State} (p : Nat) (hs : MemOk s) : OutOk (execFlush p s) := by
  refine .event hs (.need fun _ => ?_)
  simp [MemOk, hs]

theorem execReplay_ok {s : State} (p : Nat) (hs : MemOk s) : OutOk (execReplay p s) := by
  refine .event hs (.need fun _ => ?_)
  simp [MemOk, hs]

theorem execFlushThenReplay_ok {s : State} (p : Nat) (hs : MemOk s) : OutOk (execFlushThenReplay p s) := by
  refine .event hs (.need fun _ => ?_)
  simp [MemOk, hs]

theorem execFatalError_ok {s : State} (p reason origin addr : Nat) (hs : MemOk s) :
    OutOk (execFatalError p reason origin addr s) := by
  refine .event hs (.needs ?_)
  simp [MemOk, hs]

theorem execHaltLineArrival_ok {s : State} (p unit : Nat) (hs : MemOk s) : OutOk (execHaltLineArrival p unit s) := by
  refine .event hs (.need fun P => .need fun h => .needs ?_)
  simp [MemOk, ownWrite_wf, hs]

theorem execHaltHeaderWrite_ok {s : State} (p : Nat) (hs : MemOk s) : OutOk (execHaltHeaderWrite p s) := by
  refine .event hs (.need fun P => .need fun h => .needs ?_)
  refine foldl_keeps MemOk _ (fun s q hs => ?_) _ _ ?_
  · split
    · rwa [MemOk, answer_mem]
    · exact hs
  · rw [MemOk, emitOut_mem, modPart_mem]
    exact ownWrite_wf _ _ (ownWrite_wf _ _ (ownWrite_wf _ _ hs))

theorem execSchcfgWrite_ok {s : State} (p : Nat) (value : DWord) (hs : MemOk s) :
    OutOk (execSchcfgWrite p value s) := by
  refine .event hs (.need fun _ => ?_)
  simp [MemOk, hs]

theorem execAreaBaseWrite_ok {s : State} (num : BitVec 12) (value : DWord) (hs : MemOk s) :
    OutOk (execAreaBaseWrite num value s) := by
  refine .event hs (.needs (.need fun P => .need fun _ => ?_))
  simp [MemOk, areaSet_ok, hs]

theorem execWorldWrite_ok {s : State} (die : Nat) (by_ : Role) (num : BitVec 12) (value : DWord) (hs : MemOk s) :
    OutOk (execWorldWrite die by_ num value s) := by
  refine .event hs (.needs ?_)
  (repeat' split) <;> simp [MemOk, hs]

theorem execRegionWrite_ok {s : State} (by_ : Role) (i : Nat) (rega regb : DWord) (hs : MemOk s) :
    OutOk (execRegionWrite by_ i rega regb s) := by
  refine .event hs (.needs ?_)
  (repeat' split) <;> simp [MemOk, regionSet_ok, hs]

theorem execRegionRekeyComplete_ok {s : State} (die i : Nat) (hs : MemOk s) :
    OutOk (execRegionRekeyComplete die i s) := by
  refine .event hs (.need fun r => .needs ?_)
  have kept := Memory.wf_filter (fun c => c.1 < (regionSpan die r).1 || (regionSpan die r).2 ≤ c.1) hs
  dsimp only
  split
  · exact kept
  · exact kept

theorem keyBy_ok {s : State} (r : KeyReq) {f : Nat → State} (hs : MemOk s) (hf : ∀ die, MemOk (f die)) :
    MemOk (keyBy s r f) := by
  unfold keyBy
  split
  · exact hf _
  · rwa [MemOk, denyAccess_mem]

theorem execKeyLoad_ok {s : State} (r : KeyReq) (hs : MemOk s) : OutOk (execKeyLoad r s) :=
  .event hs (.needs (keyBy_ok _ hs fun _ => keyLoadSlot_ok _ _ hs))

theorem execKeyErase_ok {s : State} (r : KeyReq) (hs : MemOk s) : OutOk (execKeyErase r s) :=
  .event hs (.needs (keyBy_ok _ hs fun _ => by rwa [MemOk, keyEraseSlot_mem]))

theorem execMgmtCsrWrite_ok {s : State} (die : Nat) (by_ : Role) (num : BitVec 12) (value : DWord) (hs : MemOk s) :
    OutOk (execMgmtCsrWrite die by_ num value s) := by
  refine .event hs (.needs ?_)
  (repeat' split) <;> simp [MemOk, caltusWrite_ok, partWrite_ok, hs]

theorem execMregExtend_ok {s : State} (die : Nat) (by_ : Role) (i : Nat) (digest : BitVec 512) (hs : MemOk s) :
    OutOk (execMregExtend die by_ i digest s) := by
  refine .event hs (.needs ?_)
  (repeat' split) <;> simp [MemOk, hs]

theorem execAttestationReport_ok {s : State} (die : Nat) (nonce : List Byte) (hs : MemOk s) :
    OutOk (execAttestationReport die nonce s) := by
  refine .event hs (.needs ?_)
  simp [MemOk, hs]

theorem execSignedSidebandRequest_ok {s : State} (r : SideReq) (hs : MemOk s) :
    OutOk (execSignedSidebandRequest r s) := by
  refine .event hs ?_
  dsimp only
  (repeat' split) <;> simp [MemOk, hs]

theorem execBudgetSet_ok {s : State} (by_ : Role) (b : Budget) (hs : MemOk s) : OutOk (execBudgetSet by_ b s) := by
  refine .event hs ?_
  (repeat' split) <;> simp [MemOk, hs]

theorem execAllowanceWrite_ok {s : State} (p watts : Nat) (hs : MemOk s) : OutOk (execAllowanceWrite p watts s) := by
  refine .event hs (.need fun _ => ?_)
  dsimp only
  (repeat' split) <;> simp [MemOk, hs]

theorem execEnergyRefill_ok {s : State}  (hs : MemOk s) : OutOk (execEnergyRefill s) := by
  refine .event hs ?_
  simp [MemOk, hs]

theorem execClockStretch_ok {s : State} (cluster cycles : Nat) (hs : MemOk s) :
    OutOk (execClockStretch cluster cycles s) := by
  refine .event hs (.need fun _ => ?_)
  simp [MemOk, hs]

theorem execPowerLimit_ok {s : State} (cycles : Nat) (hs : MemOk s) : OutOk (execPowerLimit cycles s) := by
  unfold execPowerLimit
  refine .event hs ?_
  split <;> simp [MemOk, hs]

theorem execStretchCountRead_ok {s : State} (cluster : Nat) (hs : MemOk s) :
    OutOk (execStretchCountRead cluster s) := by
  refine .event hs (.need fun C => ?_)
  simp [MemOk, hs]

theorem execStackFail_ok {s : State} (k : Nat) (hs : MemOk s) : OutOk (execStackFail k s) := by
  refine .event hs (.need fun h => .needs ?_)
  simp [MemOk, hs]

/-- The first step of a reset empties memory (R520). -/
theorem bootReset_ok (s : State) : MemOk (bootReset s) := rfl

theorem execModuleReset_ok (s : State) (b : Bringup) : OutOk (execModuleReset b s) := by
  have fused : MemOk (bootFuses b (bootReset s)) := by
    rw [MemOk, bootFuses_mem]
    exact bootReset_ok s
  have linked : MemOk (bootLinks b (bootMemory b (bootFuses b (bootReset s)))) := by
    rwa [MemOk, bootLinks_mem, bootMemory_mem]
  unfold execModuleReset
  dsimp only
  rw [finishEvent_ok]
  split
  · exact fused
  · split
    · show MemOk _
      rwa [MemOk, bootStop_mem]
    · exact bootFirmware_ok _ linked

theorem execPartitionReset_ok {s : State} (q : ResetReq) (hs : MemOk s) : OutOk (execPartitionReset q s) := by
  refine .event hs (.need fun P => .needs ?_)
  (repeat' split) <;> simp [MemOk, hs]

end Sys2Proof.Machine

end

