-- ==== Sys2Proof/Proofs/MemoryStep.lean ====
section
/-! SUPPORT. Every instruction, every move of an agent and so every step keeps the form of memory, and O59. -/

namespace Sys2Proof.Machine

theorem execCsrw_ok {s : State} (f : CsrW) (hs : MemOk s) : OutOk (execCsrw f s) := csrChange_ok _ _ _ hs

theorem execCsrs_ok {s : State} (f : CsrW) (hs : MemOk s) : OutOk (execCsrs f s) := csrChange_ok _ _ _ hs

theorem execCsrc_ok {s : State} (f : CsrW) (hs : MemOk s) : OutOk (execCsrc f s) := csrChange_ok _ _ _ hs

theorem execPand_ok {s : State} (f : AluW) (hs : MemOk s) : OutOk (execPand f s) := predWord_ok _ _ _ hs

theorem execPor_ok {s : State} (f : AluW) (hs : MemOk s) : OutOk (execPor f s) := predWord_ok _ _ _ hs

theorem execPxor_ok {s : State} (f : AluW) (hs : MemOk s) : OutOk (execPxor f s) := predWord_ok _ _ _ hs

theorem execPnot_ok {s : State} (f : AluW) (hs : MemOk s) : OutOk (execPnot f s) := predWord_ok _ _ _ hs

theorem execPmov_ok {s : State} (f : AluW) (hs : MemOk s) : OutOk (execPmov f s) := predWord_ok _ _ _ hs

theorem execRtbox_ok {s : State} (f : SysW) (hs : MemOk s) : OutOk (execRtbox f s) := rayWord_ok _ _ _ _ _ _ _ _ _ hs

theorem execRttri_ok {s : State} (f : SysW) (hs : MemOk s) : OutOk (execRttri f s) := rayWord_ok _ _ _ _ _ _ _ _ _ hs

theorem execRtcrv_ok {s : State} (f : SysW) (hs : MemOk s) : OutOk (execRtcrv f s) := rayWord_ok _ _ _ _ _ _ _ _ _ hs

theorem execRtrace_ok {s : State} (f : SysW) (hs : MemOk s) :
    OutOk (execRtrace f s) := rayWord_ok _ _ _ _ _ _ _ _ _ hs

theorem execLtwalk_ok {s : State} (f : SysW) (hs : MemOk s) :
    OutOk (execLtwalk f s) := rayWord_ok _ _ _ _ _ _ _ _ _ hs

theorem execRsvupd_ok {s : State} (f : SysW) (hs : MemOk s) : OutOk (execRsvupd f s) := rsvWord_ok _ _ _ _ _ hs

theorem execRsvmrg_ok {s : State} (f : SysW) (hs : MemOk s) : OutOk (execRsvmrg f s) := rsvWord_ok _ _ _ _ _ hs

theorem execRsvnrm_ok {s : State} (f : SysW) (hs : MemOk s) : OutOk (execRsvnrm f s) := rsvWord_ok _ _ _ _ _ hs

theorem execSgath_ok {s : State} (f : SysW) (hs : MemOk s) : OutOk (execSgath f s) := indexedCopy_ok _ _ _ hs

theorem execSscat_ok {s : State} (f : SysW) (hs : MemOk s) : OutOk (execSscat f s) := indexedCopy_ok _ _ _ hs

/-- Every word and every event keeps the form of memory. -/
theorem exec_ok {s : State} (i : Instr) (hs : MemOk s) : OutOk (exec i s) := by
  cases i with
  | iadd f | isub f | iaddc f | imul f | imulh f | imad f | imin f | imax f | iabsd f | and f | or f | xor f | andn f | shl f
    | shr f | sar f | rotl f | clz f | popc f | brev f | bfe f | bfi f | lea f | icmp f | sel f | mov f | movl f | movh f
    | prmt f | idot4 f | idiv f | irem f | pset f | fadd f | fsub f | fmul f | fma f | fmin f | fmax f | fcmp f | fclass f
    | frcp f | fsqrt f | frsq f | fexp2 f | flog2 f | fsinpi f | fcospi f | fdiv f | ffloor f | fceil f | ftrunc f | frint f
    | ffrac f | fldexp f | fdot2 f | fdot4 f | hadd2 f | hmul2 f | hfma2 f | fmed3 f | cvt f | cvtq f | cvtdq f | pack f
    | unpk f => exact runAlu_ok _ _ _ _ hs
  | ill f => exact execIll_ok f hs
  | nop f => exact execNop_ok f hs
  | bra f => exact execBra_ok f hs
  | brx f => exact execBrx_ok f hs
  | call f => exact execCall_ok f hs
  | callx f => exact execCallx_ok f hs
  | ret f => exact execRet_ok f hs
  | regang f => exact execRegang_ok f hs
  | exit f => exact execExit_ok f hs
  | yield f => exact execYield_ok f hs
  | trap f => exact execTrap_ok f hs
  | eret f => exact execEret_ok f hs
  | bkpt f => exact execBkpt_ok f hs
  | loop f => exact execLoop_ok f hs
  | csrr f => exact execCsrr_ok f hs
  | cinv f => exact execCinv_ok f hs
  | cinvAll f => exact execCinvAll_ok f hs
  | cwb f => exact execCwb_ok f hs
  | pref f => exact execPref_ok f hs
  | extq f => exact execExtq_ok f hs
  | halloc f => exact execHalloc_ok f hs
  | hfree f => exact execHfree_ok f hs
  | setprio f => exact execSetprio_ok f hs
  | svc f => exact execSvc_ok f hs
  | pget f => exact execPget_ok f hs
  | rfl f => exact execRfl_ok f hs
  | rdlane f => exact execRdlane_ok f hs
  | wrlane f => exact execWrlane_ok f hs
  | shfl f => exact execShfl_ok f hs
  | vote f => exact execVote_ok f hs
  | redux f => exact execRedux_ok f hs
  | scan f => exact execScan_ok f hs
  | matchl f => exact execMatchl_ok f hs
  | ld f => exact execLd_ok f hs
  | st f => exact execSt_ok f hs
  | lds f => exact execLds_ok f hs
  | sts f => exact execSts_ok f hs
  | ldp f => exact execLdp_ok f hs
  | stp f => exact execStp_ok f hs
  | ldu f => exact execLdu_ok f hs
  | stu f => exact execStu_ok f hs
  | atom f => exact execAtom_ok f hs
  | atoms f => exact execAtoms_ok f hs
  | red f => exact execRed_ok f hs
  | append f => exact execAppend_ok f hs
  | decline f => exact execDecline_ok f hs
  | fence f => exact execFence_ok f hs
  | bar f => exact execBar_ok f hs
  | cbinit f => exact execCbinit_ok f hs
  | cbarv f => exact execCbarv_ok f hs
  | cbwait f => exact execCbwait_ok f hs
  | tlwait f => exact execTlwait_ok f hs
  | tlread f => exact execTlread_ok f hs
  | cpy f => exact execCpy_ok f hs
  | mcast f => exact execMcast_ok f hs
  | cexec f => exact execCexec_ok f hs
  | ceqry f => exact execCeqry_ok f hs
  | ceqryArg f => exact execCeqryArg_ok f hs
  | iscfg f => exact execIscfg_ok f hs
  | qclose f => exact execQclose_ok f hs
  | emit f => exact execEmit_ok f hs
  | emitr f => exact execEmitr_ok f hs
  | recget f => exact execRecget_ok f hs
  | recgetCount f => exact execRecgetCount_ok f hs
  | mbtgt f => exact execMbtgt_ok f hs
  | mxzero f => exact execMxzero_ok f hs
  | mxldw f => exact execMxldw_ok f hs
  | mxloop f => exact execMxloop_ok f hs
  | mxspl f => exact execMxspl_ok f hs
  | mxdrain f => exact execMxdrain_ok f hs
  | mxfence f => exact execMxfence_ok f hs
  | mxrd f => exact execMxrd_ok f hs
  | mxrdStat f => exact execMxrdStat_ok f hs
  | mxwr f => exact execMxwr_ok f hs
  | mxmask f => exact execMxmask_ok f hs
  | mxcfg f => exact execMxcfg_ok f hs
  | jchain f => exact execJchain_ok f hs
  | jsend f => exact execJsend_ok f hs
  | jrecv f => exact execJrecv_ok f hs
  | jclose f => exact execJclose_ok f hs
  | jabort f => exact execJabort_ok f hs
  | rng f => exact execRng_ok f hs
  | rsvld f => exact execRsvld_ok f hs
  | rsvst f => exact execRsvst_ok f hs
  | reuse f => exact execReuse_ok f hs
  | cparg f => exact execCparg_ok f hs
  | cpret f => exact execCpret_ok f hs
  | kld f => exact execKld_ok f hs
  | kst f => exact execKst_ok f hs
  | agset f => exact execAgset_ok f hs
  | agstep f => exact execAgstep_ok f hs
  | scopy f => exact execScopy_ok f hs
  | smcast f => exact execSmcast_ok f hs
  | cbload f => exact execCbload_ok f hs
  | sdecode f => exact execSdecode_ok f hs
  | qpush f => exact execQpush_ok f hs
  | tlinc f => exact execTlinc_ok f hs
  | swait f => exact execSwait_ok f hs
  | stopc f => exact execStopc_ok f hs
  | pairedWord f => exact execPairedWord_ok f hs
  | moduleReset b => exact execModuleReset_ok s b
  | partitionReset r => exact execPartitionReset_ok r hs
  | clockStretch cluster cycles => exact execClockStretch_ok cluster cycles hs
  | powerLimit cycles => exact execPowerLimit_ok cycles hs
  | energyRefill => exact execEnergyRefill_ok hs
  | teamAdmit team => exact execTeamAdmit_ok team hs
  | ucieModuleFail gw m => exact execUcieModuleFail_ok gw m hs
  | fabricPortFail port => exact execFabricPortFail_ok port hs
  | flitCrcFail port => exact execFlitCrcFail_ok port hs
  | thieloData n => exact execThieloData_ok n hs
  | e2eack n => exact execE2eack_ok n hs
  | e2eRetransmit n port => exact execE2eRetransmit_ok n port hs
  | fatalError p reason origin addr => exact execFatalError_ok p reason origin addr hs
  | haltLineArrival p unit => exact execHaltLineArrival_ok p unit hs
  | haltHeaderWrite p => exact execHaltHeaderWrite_ok p hs
  | homeRequest rid => exact execHomeRequest_ok rid hs
  | ackFlit rid => exact execAckFlit_ok rid hs
  | nackFlit rid => exact execNackFlit_ok rid hs
  | deferredPerm team wave => exact execDeferredPerm_ok team wave hs
  | mingenRaiseComplete asid => exact execMingenRaiseComplete_ok asid hs
  | onDemandTranslate who => exact execOnDemandTranslate_ok who hs
  | gatewayAnchorData n => exact execGatewayAnchorData_ok n hs
  | gatewayWindowEnd n => exact execGatewayWindowEnd_ok n hs
  | gatewayReduction rid => exact execGatewayReduction_ok rid hs
  | haloRequest cluster slot => exact execHaloRequest_ok cluster slot hs
  | mail n => exact execMail_ok n hs
  | mailacc n => exact execMailacc_ok n hs
  | mailref n => exact execMailref_ok n hs
  | mailSlotGrant team wave => exact execMailSlotGrant_ok team wave hs
  | mailResendTimeout team wave => exact execMailResendTimeout_ok team wave hs
  | mbdropRead core => exact execMbdropRead_ok core hs
  | stretchCountRead cluster => exact execStretchCountRead_ok cluster hs
  | reservationGrant core => exact execReservationGrant_ok core hs
  | ready n => exact execReady_ok n hs
  | arm n => exact execArm_ok n hs
  | credit n => exact execCredit_ok n hs
  | req n => exact execReq_ok n hs
  | data n => exact execData_ok n hs
  | datasat n => exact execDatasat_ok n hs
  | endFlit n => exact execEndFlit_ok n hs
  | abortFlit n => exact execAbortFlit_ok n hs
  | refuse n => exact execRefuse_ok n hs
  | revoke n => exact execRevoke_ok n hs
  | copyBurst engine => exact execCopyBurst_ok engine hs
  | copyComplete ctx num => exact execCopyComplete_ok ctx num hs
  | waveCopyComplete team num => exact execWaveCopyComplete_ok team num hs
  | tlincApply ctx => exact execTlincApply_ok ctx hs
  | cbarvApply ctx => exact execCbarvApply_ok ctx hs
  | contextFaulted ctx => exact execContextFaulted_ok ctx hs
  | stopcComplete ctx => exact execStopcComplete_ok ctx hs
  | streamFetch team q => exact execStreamFetch_ok team q hs
  | matrixOpStart team => exact execMatrixOpStart_ok team hs
  | clusterOpArrival team core => exact execClusterOpArrival_ok team core hs
  | rowBlock team => exact execRowBlock_ok team hs
  | matrixOpComplete team => exact execMatrixOpComplete_ok team hs
  | rtraceStart core n => exact execRtraceStart_ok core n hs
  | rayUnitComplete core n => exact execRayUnitComplete_ok core n hs
  | passStart cluster slot => exact execPassStart_ok cluster slot hs
  | passPixel cluster slot => exact execPassPixel_ok cluster slot hs
  | visibilitySegment cluster slot => exact execVisibilitySegment_ok cluster slot hs
  | passEnd cluster slot => exact execPassEnd_ok cluster slot hs
  | hostCommit port qp msg => exact execHostCommit_ok port qp msg hs
  | rdmaWrite r => exact execRdmaWrite_ok r hs
  | rdmaRead r => exact execRdmaRead_ok r hs
  | roceInvalidRequest port qp => exact execRoceInvalidRequest_ok port qp hs
  | nodeFire p node => exact execNodeFire_ok p node hs
  | drainComplete p node => exact execDrainComplete_ok p node hs
  | teamReady team => exact execTeamReady_ok team hs
  | teamResident core team => exact execTeamResident_ok core team hs
  | bankSwap core => exact execBankSwap_ok core hs
  | waitSwapTimeout core => exact execWaitSwapTimeout_ok core hs
  | contextSaved team => exact execContextSaved_ok team hs
  | claimComplete core => exact execClaimComplete_ok core hs
  | teamEnd team energy => exact execTeamEnd_ok team energy hs
  | launchEnd launch => exact execLaunchEnd_ok launch hs
  | flush p => exact execFlush_ok p hs
  | replay p => exact execReplay_ok p hs
  | flushThenReplay p => exact execFlushThenReplay_ok p hs
  | force m => exact execForce_ok m hs
  | kill m => exact execKill_ok m hs
  | halt m => exact execHalt_ok m hs
  | nodetab m => exact execNodetab_ok m hs
  | nodeon m => exact execNodeon_ok m hs
  | nodeoff m => exact execNodeoff_ok m hs
  | asrec m => exact execAsrec_ok m hs
  | svcdone p ticket => exact execSvcdone_ok p ticket hs
  | keyLoad r => exact execKeyLoad_ok r hs
  | keyErase r => exact execKeyErase_ok r hs
  | regionWrite by_ idx rega regb => exact execRegionWrite_ok by_ idx rega regb hs
  | regionRekeyComplete die idx => exact execRegionRekeyComplete_ok die idx hs
  | worldWrite die by_ num value => exact execWorldWrite_ok die by_ num value hs
  | schcfgWrite p value => exact execSchcfgWrite_ok p value hs
  | areaBaseWrite num value => exact execAreaBaseWrite_ok num value hs
  | allowanceWrite p watts => exact execAllowanceWrite_ok p watts hs
  | budgetSet by_ b => exact execBudgetSet_ok by_ b hs
  | mregExtend die by_ idx digest => exact execMregExtend_ok die by_ idx digest hs
  | attestationReport die nonce => exact execAttestationReport_ok die nonce hs
  | signedSidebandRequest r => exact execSignedSidebandRequest_ok r hs
  | mgmtCsrWrite die by_ num value => exact execMgmtCsrWrite_ok die by_ num value hs
  | readDataResponse rid => exact execReadDataResponse_ok rid hs
  | contextFillComplete core => exact execContextFillComplete_ok core hs
  | releaseClearComplete core => exact execReleaseClearComplete_ok core hs
  | gatewayReductionWindowEnd n => exact execGatewayReductionWindowEnd_ok n hs
  | mailboxControlFlit n => exact execMailboxControlFlit_ok n hs
  | unknownOp m => exact execUnknownOp_ok m hs
  | stackFail k => exact execStackFail_ok k hs
  | ucieLinkLevelRetry gw m => exact execUcieLinkLevelRetry_ok gw m hs
  | csrw f => exact execCsrw_ok _ hs
  | csrs f => exact execCsrs_ok _ hs
  | csrc f => exact execCsrc_ok _ hs
  | pand f => exact execPand_ok _ hs
  | por f => exact execPor_ok _ hs
  | pxor f => exact execPxor_ok _ hs
  | pnot f => exact execPnot_ok _ hs
  | pmov f => exact execPmov_ok _ hs
  | rtbox f => exact execRtbox_ok _ hs
  | rttri f => exact execRttri_ok _ hs
  | rtcrv f => exact execRtcrv_ok _ hs
  | rtrace f => exact execRtrace_ok _ hs
  | ltwalk f => exact execLtwalk_ok _ hs
  | rsvupd f => exact execRsvupd_ok _ hs
  | rsvmrg f => exact execRsvmrg_ok _ hs
  | rsvnrm f => exact execRsvnrm_ok _ hs
  | sgath f => exact execSgath_ok _ hs
  | sscat f => exact execSscat_ok _ hs

/-! Issue and the step: a word is fetched and run, or the turn's own move is made. -/

/-- What a fetch answers carries a state with memory in its form. -/
def Fetched.Ok : Fetched → Prop
  | .word _ s => MemOk s
  | .park _ _ s => MemOk s
  | .far s => MemOk s
  | _ => True

/-- What a pick gives carries a state with memory in its form. -/
def Pick.Ok : Pick → Prop
  | .run _ _ s => MemOk s
  | .done s => MemOk s

theorem fetchAt_ok {s : State} (r : MemReq) (hs : MemOk s) : (fetchAt s r).Ok := by
  unfold fetchAt
  split
  · split
    · exact hs
    · split <;> simp [Fetched.Ok, MemOk, hs]
  · show Memory.wf (countDiscard s r.pa).mem = true
    rwa [countDiscard_mem]
  · show MemOk _
    split <;> simp [MemOk, hs]
  · trivial
  · trivial

theorem fetchFor_ok {s : State} (who : Requester) (g : BitVec 8) (eng : Option (Nat × Bool)) (T : Team) (va : Nat)
    (hs : MemOk s) : (fetchFor s who g eng T va).Ok := by
  unfold fetchFor
  split
  · trivial
  · trivial
  · exact hs
  · exact fetchAt_ok _ hs

/-- The state a fetch answers with, taken out of the answer. -/
theorem Fetched.Ok.of_eq {f f' : Fetched} (h : f = f') (hf : f.Ok) : f'.Ok := h ▸ hf

theorem leaveSlot_ok {s : State} (t w core : Nat) (hs : MemOk s) : MemOk (leaveSlot s t w core) := by
  rwa [MemOk, leaveSlot_mem]

theorem pickGang_ok {s : State} (core t w : Nat) (T : Team) (W : Wave) (g : BitVec 8) (hs : MemOk s) :
    (pickGang s core t w T W g).Ok := by
  unfold pickGang
  dsimp only
  have hf := fetchFor_ok (.wave t w) g none T ((W.slice (lowSlice g)).pc.toNat * 8) hs
  generalize (W.slice (lowSlice g)).pc.toNat * 8 = va at hf ⊢
  cases hr : fetchFor s (.wave t w) g none T va with
  | trap c => exact leaveSlot_ok _ _ _ (takeTrapAt_ok _ _ _ _ _ _ _ hs)
  | park code idx s1 => exact leaveSlot_ok _ _ _ (parkWave_ok _ _ _ _ _ (hf.of_eq hr))
  | far s1 => exact leaveSlot_ok _ _ _ (hf.of_eq hr)
  | world pa => exact hs
  | word x s1 =>
    have h1 : MemOk s1 := hf.of_eq hr
    dsimp only
    cases checkWord x computeWord (W.lastOfRun g) with
    | ok i => exact h1
    | error e =>
      cases e with
      | trap c arg => exact leaveSlot_ok _ _ _ (takeTrapAt_ok _ _ _ _ _ _ _ h1)
      | _ => exact h1

theorem takeSlot_mem {s s1 : State} {core o w : Nat} {cont : Bool} (h : takeSlot s core o = some (s1, w, cont)) :
    s1.mem = s.mem := by
  unfold takeSlot at h
  (repeat' split at h) <;> simp at h
  · rw [h.1]
  · rw [← h.1]
    rfl

theorem pickIssue_ok {s : State} (core o : Nat) (hs : MemOk s) : (pickIssue s core o).Ok := by
  unfold pickIssue
  dsimp only
  split
  · exact hs
  · split
    · exact hs
    · split
      · exact hs
      · cases hp : takeSlot s core o with
        | none => exact hs
        | some p =>
          obtain ⟨s1, w, cont⟩ := p
          have h1 : MemOk s1 := by rwa [MemOk, takeSlot_mem hp]
          dsimp only
          split
          · exact h1
          · split
            · exact h1
            · split
              · exact leaveSlot_ok _ _ _ h1
              · exact pickGang_ok _ _ _ _ _ _ h1

theorem pickContext_ok {s : State} (x : Nat) (hs : MemOk s) : (pickContext s x).Ok := by
  unfold pickContext
  dsimp only
  split
  · exact hs
  · split
    · exact hs
    · rename_i X _ _
      split
      · exact hs
      · rename_i T _
        have hf := fetchFor_ok (.context x) 0 (some (ctxUnit x, X.secure)) T (X.kpc.toNat * 8) hs
        generalize X.kpc.toNat * 8 = va at hf ⊢
        cases hr : fetchFor s (.context x) 0 (some (ctxUnit x, X.secure)) T va with
        | trap c => exact hs
        | park code idx s1 => exact parkCtx_ok _ _ _ (hf.of_eq hr)
        | far s1 => exact hf.of_eq hr
        | world pa => rw [Pick.Ok, MemOk, raiseHalt_mem]; exact hs
        | word w s1 =>
          have h1 : MemOk s1 := hf.of_eq hr
          dsimp only
          cases checkWord w streamWord false with
          | ok i => exact h1
          | error e => cases e <;> exact h1

theorem setLane_ok {s : State} (k : Nat) (e : Eval) (hs : MemOk s) : MemOk (setLane s k e) := by
  rwa [MemOk, setLane_mem]

theorem pickLane_check_ok {s s1 : State} (k : Nat) {stop : Cause → State} (w : IWord) (hs : MemOk s) (h1 : MemOk s1)
    (hstop : ∀ c, MemOk (stop c)) : (pickLane.check s k stop w s1).Ok := by
  unfold pickLane.check
  split
  · exact hs
  · exact hstop _
  · exact h1

theorem pickLane_ok {s : State} (k : Nat) (hs : MemOk s) : (pickLane s k).Ok := by
  unfold pickLane
  dsimp only
  split
  · exact hs
  · split
    · exact hs
    · split
      · exact setLane_ok _ _ hs
      · split
        · exact setLane_ok _ _ hs
        · exact setLane_ok _ _ hs
        · split
          · exact pickLane_check_ok _ _ hs hs fun _ => setLane_ok _ _ hs
          · exact setLane_ok _ _ hs
        · have h1 (pa : Nat) : MemOk (freeBytes (countDiscard s pa) 8).2 := by rwa [MemOk, freeBytes_mem, countDiscard_mem]
          exact pickLane_check_ok _ _ (h1 _) (h1 _) fun _ => setLane_ok _ _ hs

theorem runPick_ok {p : Pick} (hp : p.Ok) : OutOk (runPick p) := by
  cases p with
  | done s => exact hp
  | run i w s =>
    have hi := exec_ok i (s := s) hp
    simp only [runPick]
    cases hr : exec i s with
    | next s' =>
      rw [hr] at hi
      show MemOk _
      rw [MemOk, endTurn_mem]
      exact hi
    | fault f => trivial
    | refused r => trivial

theorem contrailTurn_ok (xs : List Nat) {s : State} (hs : MemOk s) : OutOk (contrailTurn xs s) := by
  induction xs generalizing s with
  | nil => exact hs
  | cons x xs ih =>
    have hp := runPick_ok (pickContext_ok x hs)
    unfold contrailTurn
    cases hr : runPick (pickContext s x) with
    | next s1 =>
      rw [hr] at hp
      dsimp only
      split
      · exact ih hp
      · show MemOk _
        rw [MemOk, noteIssued_mem]
        exact hp
    | fault f => trivial
    | refused r => trivial

/-- A move that a stopped module refuses, and that leaves memory in its form. -/
theorem refuses_ok {s s' : State} {c : Bool} (hs : MemOk s) (h : MemOk s') : OutOk (.next (if c then s else s')) := by
  cases c
  · exact h
  · exact hs

theorem move_ok (m : Mover) {s : State} (hs : MemOk s) : OutOk (move m s) := by
  cases m with
  | issue core o => exact runPick_ok (pickIssue_ok core o hs)
  | contrail e => exact contrailTurn_ok _ hs
  | lane k => exact runPick_ok (pickLane_ok k hs)
  | drain t w => exact drainWave_ok t w hs
  | drainCtx x => show MemOk _; rwa [MemOk, drainCtx_mem]
  | wake t w => exact wakeMove_ok t w hs
  | records p => exact arriveFaults_ok p hs
  | upset u => show MemOk _; rwa [MemOk, upsetMove_mem]
  | read die by_ n => exact refuses_ok hs (by rwa [MemOk, mgmtRead_mem])
  | stackCount n => exact refuses_ok hs hs
  | arrive f => exact refuses_ok hs (by rwa [MemOk, arriveMove_mem])
  | cross rid => show MemOk _; rwa [MemOk, crossMove_mem]
  | control n => show MemOk _; rwa [MemOk, controlMove_mem]
  | halo n => exact haloMove_ok n hs
  | ask r => exact refuses_ok hs (by rwa [MemOk, askMove_mem])
  | caltus => exact refuses_ok hs (caltusMove_ok hs)
  | board i => exact refuses_ok hs (by rwa [MemOk, boardMove_mem])
  | mailbox by_ o bs => exact refuses_ok hs (by rwa [MemOk, mailboxMove_mem])
  | event i =>
    rw [move]
    split
    · exact exec_ok i hs
    · exact hs

theorem step_ok {s : State} (hs : MemOk s) : OutOk (step s) := by
  unfold step
  split
  · exact hs
  · exact move_ok _ (by rwa [MemOk, beginTurn_mem])

end Sys2Proof.Machine

namespace Sys2Proof.Claims
open Sys2Proof Sys2Proof.Machine

/-- Settles O59: the step is a turn's beginning and its agent's move, every word, event and move keeps the form of memory, and the
writers do so since every one of them puts bytes by `Memory.put` and the like. -/
theorem stepKeepsMemoryForm : Obligations.StepKeepsMemoryForm := by
  intro s s' hs hstep
  have h := step_ok (s := s) hs
  rwa [hstep] at h

end Sys2Proof.Claims

end

