-- ==== Sys2Proof/Proofs/Management.lean ====
section
/-! SUPPORT. What the management events make of the state, and O54. -/

namespace Sys2Proof.Machine

/-! Tables whose entries all change, or of which some keys go. -/

theorem smGet?_map_value {α β : Type} (m : SMap α) (f : Nat → α → β) (k : Nat) :
    smGet? (m.map fun p => (p.1, f p.1 p.2)) k = (smGet? m k).map (f k) := by
  induction m with
  | nil => rfl
  | cons p m ih =>
    by_cases h : k = p.1
    · simp [smGet?, h]
    · simp [smGet?, h, ih]

theorem smGet?_smMod_of_some {α : Type} {m : SMap α} {k : Nat} {x : α} (f : α → α) (h : smGet? m k = some x) :
    smGet? (smMod m k f) k = some (f x) := by
  rw [smGet?_smMod_self, h]
  rfl

theorem smGet?_modPart {s : State} {p : Nat} {P : Part} (f : Part → Part) (hp : smGet? s.parts p = some P) :
    smGet? (modPart s p f).parts p = some (f P) := smGet?_smMod_of_some f hp

theorem smGet?_modCluster {s : State} {k : Nat} {C : Cluster} (f : Cluster → Cluster) (hk : smGet? s.clusters k = some C) :
    smGet? (modCluster s k f).clusters k = some (f C) := smGet?_smMod_of_some f hk

theorem core?_modCore {s : State} {k : Nat} {C : Core} (f : Core → Core) (hk : core? s k = some C) :
    core? (modCore s k f) k = some (f C) := smGet?_smMod_of_some f hk

theorem smGet?_filter_key {α : Type} (m : SMap α) (q : Nat → Bool) (k : Nat) :
    smGet? (m.filter fun p => q p.1) k = if q k then smGet? m k else none := by
  induction m with
  | nil => simp [smGet?]
  | cons p m ih =>
    by_cases h : k = p.1 <;> cases hq : q p.1 <;> simp_all [smGet?]

theorem memGet_filter_key (m : List Host.Cell) (q : Nat → Bool) (k : Nat) :
    memGet (m.filter fun c => q c.1) k = if q k then memGet m k else memDefault := by
  rw [memGet, smGetD, smGet?_filter_key]
  cases q k <;> rfl

/-! An event whose checks hold goes on to what it does. -/

theorem finishEvent_needs {s : State} {b : Bool} {f : Unit → Except Stop State} (h : b = true) :
    finishEvent s (needs b >>= f) = finishEvent s (f ()) := by
  subst h
  rfl

theorem finishEvent_need {α : Type} {s : State} {o : Option α} {x : α} {f : α → Except Stop State} (h : o = some x) :
    finishEvent s (need o >>= f) = finishEvent s (f x) := by
  subst h
  rfl

theorem Role.caltusOf_self (die : Nat) : (Role.caltus die).caltusOf die = true := beq_self_eq_true _

theorem Role.caltusOf_of_ne {r : Role} {die : Nat} (h : r ≠ .caltus die) : r.caltusOf die = false := beq_eq_false_iff_ne.mpr h

theorem Role.isCaltus_iff (r : Role) : r.isCaltus = true ↔ r = .caltus 0 ∨ r = .caltus 1 := by
  simp [Role.isCaltus, Role.caltusOf]

/-! Scheduling parameters and areas (R392, R522). -/

theorem exec_schcfgWrite {s : State} {p : Nat} {P : Part} (v : DWord) (hp : smGet? s.parts p = some P) :
    exec (.schcfgWrite p v) s = .next (if schcfgBad s p P v then refuseWrite s .service (0x800 + 16 * p)
      else modPart s p fun P => { P with schcfg := v &&& 0xF_FFFF_FFFF#64 }) := by
  show finishEvent s (need _ >>= fun _ => .ok (schcfgSet s p v)) = _
  rw [finishEvent_need hp, finishEvent_ok, schcfgSet, hp]

theorem exec_areaBaseWrite {s : State} {num : BitVec 12} {v : DWord} {P P1 : Part} (hlo : 0x880 ≤ num.toNat) (hhi : num.toNat < 0x900)
    (hp : smGet? s.parts ((num.toNat - 0x880) / 16) = some P) (hw : areaWrite (num.toNat % 16) v P = some P1) :
    exec (.areaBaseWrite num v) s = .next (if rangeBacked s (areaRange (num.toNat % 16) P1).1 (areaRange (num.toNat % 16) P1).2
      then drainSq (modPart s ((num.toNat - 0x880) / 16) fun _ => P1) ((num.toNat - 0x880) / 16)
      else emitOut s (.refusedWrite .service num.toNat)) := by
  have hn : 0x880 + 16 * ((num.toNat - 0x880) / 16) + num.toNat % 16 = num.toNat := by omega
  show finishEvent s (needs _ >>= fun _ => need _ >>= fun P => need _ >>= fun _ => .ok (areaSet s _ _ v)) = _
  rw [finishEvent_needs (by simp [hlo, hhi]), finishEvent_need hp, finishEvent_need hw, finishEvent_ok]
  simp only [areaSet, hp, Option.bind_some, hw, refuseWrite, hn]

/-- No record waits, so a changed register of the service ring lets none in. -/
theorem drainSq_of_empty {s : State} {p : Nat} {P : Part} (hp : smGet? s.parts p = some P) (h : P.sqPend = []) : drainSq s p = s := by
  simp [drainSq, hp, h, sqDrain]

theorem areaWrite_sqPend {off : Nat} {v : DWord} {P P1 : Part} (h : areaWrite off v P = some P1) : P1.sqPend = P.sqPend := by
  unfold areaWrite at h
  split at h <;> cases h <;> rfl

/-! A register by its number (R7, R8, R44). -/

theorem caltusOnly_eq_false {n : Nat} (h : n < 0x900 ∨ 0x980 ≤ n ∧ n < 0xF00) : caltusOnly n = false := by
  simp only [caltusOnly, Bool.or_eq_false_iff, Bool.and_eq_false_iff, decide_eq_false_iff_not]
  omega

theorem exec_mgmtCsrWrite_part {s : State} {die n : Nat} {role : Role} {num : BitVec 12} (v : DWord) (hdie : die < 2)
    (hrole : role ≠ .board) (hn : num.toNat = n) (hlo : 0x880 ≤ n) (hhi : n < 0x900) :
    exec (.mgmtCsrWrite die role num v) s = .next (partWrite s ((n - 0x880) / 16) (n % 16) v) := by
  show execMgmtCsrWrite die role num v s = _
  have hgo : (die < 2 && 0x800 ≤ n && role != .board) = true := by
    simp only [hdie, hrole, bne_iff_ne, Bool.and_eq_true, decide_eq_true_eq, ne_eq, not_false_eq_true, and_true, true_and]
    omega
  unfold execMgmtCsrWrite
  dsimp only
  rw [hn, finishEvent_needs hgo, caltusOnly_eq_false (.inl hhi), if_neg Bool.false_ne_true, if_neg (by omega), if_pos hhi,
    finishEvent_ok]

/-- The number of a partition's register: the partition is read off it, and the register. -/
theorem part_number {p off : Nat} (hp : p < 8) (hoff : off < 16) : 0x880 ≤ 0x880 + 16 * p + off ∧ 0x880 + 16 * p + off < 0x900 ∧
    (0x880 + 16 * p + off - 0x880) / 16 = p ∧ (0x880 + 16 * p + off) % 16 = off := by
  omega

theorem exec_mgmtCsrWrite_partNumber (s : State) {die p off : Nat} {role : Role} (v : DWord) (hdie : die < 2) (hrole : role ≠ .board)
    (hp : p < 8) (hoff : off < 16) :
    exec (.mgmtCsrWrite die role (BitVec.ofNat 12 (0x880 + 16 * p + off)) v) s = .next (partWrite s p off v) := by
  obtain ⟨hlo, hhi, hpart, hreg⟩ := part_number hp hoff
  have hnum : (BitVec.ofNat 12 (0x880 + 16 * p + off)).toNat = 0x880 + 16 * p + off := by
    rw [BitVec.toNat_ofNat]
    omega
  rw [exec_mgmtCsrWrite_part v hdie hrole hnum hlo hhi, hpart, hreg]

theorem mgmtCsr_partNumber {s : State} {p off : Nat} {P : Part} (die : Nat) (role : Role) (hP : smGet? s.parts p = some P) (hp : p < 8)
    (hoff : off < 16) : mgmtCsr s die role (0x880 + 16 * p + off) = P.csr off := by
  obtain ⟨hlo, hhi, hpart, hreg⟩ := part_number hp hoff
  have hsch : (0x800 ≤ 0x880 + 16 * p + off && 0x880 + 16 * p + off < 0x880) = false := by
    rw [Bool.and_eq_false_iff, decide_eq_false_iff_not, decide_eq_false_iff_not]
    omega
  have hhere : (0x880 ≤ 0x880 + 16 * p + off && 0x880 + 16 * p + off < 0x900) = true := by
    rw [decide_eq_true hlo, decide_eq_true hhi]
    rfl
  unfold mgmtCsr
  rw [caltusOnly_eq_false (.inl hhi), if_neg Bool.false_ne_true, hsch, if_neg Bool.false_ne_true, hhere, if_pos rfl, hpart, hreg, hP]
  rfl

/-- An RO register of a partition takes nothing (R7). -/
theorem partWrite_readOnly {s : State} {p off : Nat} {P : Part} (v : DWord) (hP : smGet? s.parts p = some P)
    (hoff : off ∈ [2, 8, 11, 15]) : partWrite s p off v = s := by
  simp only [List.mem_cons, List.not_mem_nil, or_false] at hoff
  rcases hoff with rfl | rfl | rfl | rfl <;> simp [partWrite, areaSet, areaWrite, hP]

/-- FBCMD takes two bits. -/
theorem faultCommand_mod_four (s : State) (p n : Nat) : faultCommand s p (n % 4) = (match n % 4 with
    | 0 => s
    | 1 => flushGen s p
    | 2 => replayAll s p
    | _ => replayAll (flushGen s p) p) := by
  have h : n % 4 < 4 := Nat.mod_lt _ (by decide)
  generalize n % 4 = m at h ⊢
  match m, h with
  | 0, _ => rfl
  | 1, _ => rfl
  | 2, _ => rfl
  | 3, _ => rfl

theorem exec_mgmtCsrWrite_denied {s : State} {die : Nat} {role : Role} {num : BitVec 12} (v : DWord) (hdie : die < 2)
    (hrole : role ≠ .board) (hnum : caltusOnly num.toNat = true) (hlo : 0x800 ≤ num.toNat) (hother : role ≠ .caltus die) :
    exec (.mgmtCsrWrite die role num v) s = .next (denyAccess s die) := by
  show execMgmtCsrWrite die role num v s = _
  unfold execMgmtCsrWrite
  dsimp only
  rw [finishEvent_needs (by simp [hdie, hrole, hlo]), hnum, if_pos rfl, Role.caltusOf_of_ne hother, finishEvent_ok,
    if_neg Bool.false_ne_true]

theorem exec_mgmtCsrWrite_waitth {s : State} {die n : Nat} {role : Role} {num : BitVec 12} (v : DWord) (hdie : die < 2)
    (hrole : role ≠ .board) (hn : num.toNat = n) (hlo : 0xE00 ≤ n) (hhi : n < 0xEC8) :
    exec (.mgmtCsrWrite die role num v) s =
      .next (modCore s (die * 200 + (n - 0xE00)) fun C => { C with waitth := v.toNat % 2 ^ 32 }) := by
  show execMgmtCsrWrite die role num v s = _
  have hgo : (die < 2 && 0x800 ≤ n && role != .board) = true := by
    simp only [hdie, hrole, bne_iff_ne, Bool.and_eq_true, decide_eq_true_eq, ne_eq, not_false_eq_true, and_true, true_and]
    omega
  have past {lo hi : Nat} (h : hi ≤ 0xE00) : ¬ (lo ≤ n && n < hi) = true := by
    rw [Bool.and_eq_true, decide_eq_true_eq, decide_eq_true_eq]
    omega
  have here : (0xE00 ≤ n && n < 0xEC8) = true := by rw [decide_eq_true hlo, decide_eq_true hhi]; rfl
  unfold execMgmtCsrWrite
  dsimp only
  rw [hn, finishEvent_needs hgo, caltusOnly_eq_false (.inr (by omega)), if_neg Bool.false_ne_true, if_neg (by omega), if_neg (by omega),
    if_neg (past (by decide)), if_neg (by rw [beq_iff_eq]; omega), if_neg (past (by decide)), if_neg (past (by decide)), here,
    if_pos rfl, finishEvent_ok]

theorem exec_mgmtCsrWrite_waitthNumber {s : State} {core : Nat} {role : Role} (v : DWord) (hcore : core < 400) (hrole : role ≠ .board) :
    exec (.mgmtCsrWrite (core / 200) role (BitVec.ofNat 12 (0xE00 + core % 200)) v) s =
      .next (modCore s core fun C => { C with waitth := v.toNat % 2 ^ 32 }) := by
  have hnum : (BitVec.ofNat 12 (0xE00 + core % 200)).toNat = 0xE00 + core % 200 := by
    rw [BitVec.toNat_ofNat]
    omega
  have hthis : core / 200 * 200 + (0xE00 + core % 200 - 0xE00) = core := by omega
  rw [exec_mgmtCsrWrite_waitth v (by omega) hrole hnum (by omega) (by omega), hthis]

/-! Measurement (R512). -/

theorem worldBytes_congr {s s' : State} (hr : s'.regions = s.regions) (hc : s'.csrs = s.csrs) (die : Nat) :
    worldBytes s' die = worldBytes s die := by
  unfold worldBytes dieCsr
  rw [hr, hc]

/-- Measuring changes the measurement registers alone. -/
theorem measureWorlds_eq (s s1 : State) (die : Nat) : ∃ m, measureWorlds s s1 die = { s1 with mregs := m } := by
  unfold measureWorlds
  split
  · exact ⟨_, rfl⟩
  · exact ⟨_, rfl⟩

@[simp] theorem worldBytes_measureWorlds (s s1 : State) (die : Nat) : worldBytes (measureWorlds s s1 die) die = worldBytes s1 die := by
  obtain ⟨m, hm⟩ := measureWorlds_eq s s1 die
  rw [hm]
  exact worldBytes_congr rfl rfl die

theorem extendMreg_get (s : State) (die i : Nat) (d : List Byte) (k : Nat) :
    smGetD (extendMreg s die i d).mregs k 0 = if k = die * 8 + i then
      BitVec.ofNat 512 (Sha.ofBE (Sha.digest (Sha.toBE 64 (smGetD s.mregs (die * 8 + i) 0).toNat ++ d))) else smGetD s.mregs k 0 :=
  smGetD_smPut _ _ _ _ _

/-- MREG2 once Caltus has changed the registers of R503 and R506: extended when they differ (R512). -/
theorem measureWorlds_mreg {s s1 : State} (die : Nat) (hm : s1.mregs = s.mregs) :
    smGetD (measureWorlds s s1 die).mregs (die * 8 + 2) 0 =
      if worldBytes (measureWorlds s s1 die) die = worldBytes s die then smGetD s.mregs (die * 8 + 2) 0
      else BitVec.ofNat 512 (Sha.ofBE (Sha.digest (Sha.toBE 64 (smGetD s.mregs (die * 8 + 2) 0).toNat ++
        Sha.digest (worldBytes (measureWorlds s s1 die) die)))) := by
  rw [worldBytes_measureWorlds, measureWorlds]
  by_cases h : worldBytes s die = worldBytes s1 die
  · rw [if_pos (beq_iff_eq.mpr h), if_pos h.symm, hm]
  · rw [if_neg (mt beq_iff_eq.mp h), if_neg (Ne.symm h), extendMreg_get, if_pos rfl, hm]

/-! Worlds (R503, R504). -/

theorem exec_worldWrite {s : State} {die : Nat} {num : BitVec 12} (role : Role) (v : DWord) (hdie : die < 2) (hlo : 0xF00 ≤ num.toNat)
    (hhi : num.toNat < 0xF04) :
    exec (.worldWrite die role num v) s =
      .next (if role.caltusOf die then worldSet s die num.toNat v else denyAccess s die) := by
  show finishEvent s (needs _ >>= fun _ => _) = _
  rw [finishEvent_needs (by simp [hdie, hlo, hhi]), finishEvent_ok]

/-- A write of 0xF03, the worlds that `passSecure` reads, has no rule but that the clusters it changes are free (R504). -/
theorem worldOk_passWorlds (s : State) (die : Nat) (v : DWord) : worldOk s die 0xF03 v = true ↔
    ∀ k, k < 64 → (dieCsr s die 0xF03 ^^^ (v &&& 0x1FF_FFFF#64)).getLsbD k = true → clusterFree s (25 * die + k) = true := by
  simp only [worldOk, worldChanges, worldMask, List.all_eq_true, List.mem_filter, List.mem_range, Bool.and_eq_true, and_imp]
  exact ⟨fun h => h.1, fun h => ⟨h, rfl⟩⟩

theorem dieCsr_setDieCsr (s : State) {die num d k : Nat} (v : DWord) (hnum : num < 4096) (hk : k < 4096) :
    dieCsr (setDieCsr s die num v) d k = if (d, k) = (die, num) then v else dieCsr s d k := by
  have h : d * 4096 + k = die * 4096 + num ↔ (d, k) = (die, num) := by
    rw [Prod.mk.injEq]
    omega
  rw [dieCsr, setDieCsr, smGetD_smPut]
  simp only [h]
  rfl

theorem worldPut_eq (s : State) (die n : Nat) (v : DWord) :
    ∃ m, worldPut s die n v = { refreshWorlds (setDieCsr s die n (worldMask n v)) with mregs := m } :=
  measureWorlds_eq _ _ _

theorem dieCsr_worldPut (s : State) {die n d k : Nat} (v : DWord) (hn : n < 4096) (hk : k < 4096) :
    dieCsr (worldPut s die n v) d k = if (d, k) = (die, n) then worldMask n v else dieCsr s d k := by
  obtain ⟨m, hm⟩ := worldPut_eq s die n v
  rw [hm]
  exact dieCsr_setDieCsr s _ hn hk

/-! Regions and keys (R506, R507, R509). -/

theorem memGet_reseal {s0 s : State} (k : Nat) (hc : s.covered = []) : memGet (reseal s0 s).mem k =
    if 10 * 2 ^ 36 ≤ k ∨ tagAt s k = tagAt s0 k then memGet s.mem k else memDefault := by
  show memGet ((s.covered.filter _).foldl _ _) k = _
  rw [hc]
  refine (memGet_filter_key s.mem (fun k => 10 * 2 ^ 36 ≤ k || tagAt s0 k == tagAt s k) k).trans ?_
  simp only [Bool.or_eq_true, decide_eq_true_eq, beq_iff_eq, eq_comm (a := tagAt s0 k)]

/-- What comes back under its key is read again (R507, R509). -/
theorem memGet_reseal_back {s0 s : State} {c : Sealed} (hc : s.covered = [c]) (hlo : c.at_ < 10 * 2 ^ 36)
    (hchanged : tagAt s0 c.at_ ≠ tagAt s c.at_) (hback : tagAt s c.at_ = (c.key, c.sec)) : memGet (reseal s0 s).mem c.at_ = c.byte := by
  have hgo : (!(10 * 2 ^ 36 ≤ c.at_ || tagAt s0 c.at_ == tagAt s c.at_) && (c.key, c.sec) == tagAt s c.at_) = true := by
    rw [decide_eq_false (Nat.not_le.mpr hlo), beq_eq_false_iff_ne.mpr hchanged, hback, beq_self_eq_true]
    rfl
  show memGet ((s.covered.filter fun c =>
    !(10 * 2 ^ 36 ≤ c.at_ || tagAt s0 c.at_ == tagAt s c.at_) && (c.key, c.sec) == tagAt s c.at_).foldl _ _) c.at_ = _
  rw [hc, List.filter_cons, if_pos hgo]
  exact memGet_memSet_self _ _ _

theorem exec_regionWrite {s : State} {i : Nat} (role : Role) (a b : DWord) (hi : i < 128) (hopen : (regionAt s i).closed = false) :
    exec (.regionWrite role i a b) s = .next (if role.caltusOf (i / 64) then
      if regionBad s i a b then refuseWrite s (.caltus (i / 64)) (0x900 + 2 * (i % 64)) else regionPut s i a b
      else denyAccess s (i / 64)) := by
  show finishEvent s (needs _ >>= fun _ => _) = _
  rw [finishEvent_needs (by simp [hi, hopen]), finishEvent_ok, regionSet, hopen, Bool.false_or]

/-- The rules of R507 and R489 that a write of a region's entry obeys. -/
theorem regionBad_eq_false_iff (s : State) (i : Nat) (a b : DWord) : regionBad s i a b = false ↔
    ((regionNew a b).rega.getLsbD 63 = true →
      (∀ r ∈ s.regions, r.1 / 64 = i / 64 → r.1 ≠ i → r.2.rega.getLsbD 63 = true → regionsMeet (regionNew a b) r.2 = false) ∧
      (smGet? s.keys (bits (regionNew a b).rega.toNat 61 55)).isSome = true ∧ bits (regionNew a b).rega.toNat 50 48 ≤ 4 ∧
      bits (regionNew a b).rega.toNat 14 0 ≤ bits (regionNew a b).regb.toNat 14 0 ∧ regionInUse s (i / 64) (regionNew a b) = false) ∧
    ((regionAt s i).rega.getLsbD 63 = true → regionInUse s (i / 64) (regionAt s i) = false) := by
  unfold regionBad
  dsimp only
  generalize regionNew a b = new
  generalize regionAt s i = old
  have others : ((s.regions.filter fun r => r.1 / 64 == i / 64 && r.1 != i && r.2.rega.getLsbD 63).any
      fun r => regionsMeet new r.2) = false ↔
      ∀ r ∈ s.regions, r.1 / 64 = i / 64 → r.1 ≠ i → r.2.rega.getLsbD 63 = true → regionsMeet new r.2 = false := by
    simp only [List.any_eq_false, List.mem_filter, Bool.and_eq_true, beq_iff_eq, bne_iff_ne, and_imp, Bool.not_eq_true]
  rw [← others]
  cases new.rega.getLsbD 63
  · simp
  · simp [and_assoc, and_comm, and_left_comm]

theorem bits_and_of_ones (a m : DWord) {hi lo : Nat} (h : m.extractLsb' lo (hi + 1 - lo) = BitVec.allOnes (hi + 1 - lo)) :
    bits (a &&& m).toNat hi lo = bits a.toNat hi lo := by
  have field (x : DWord) : bits x.toNat hi lo = (x.extractLsb' lo (hi + 1 - lo)).toNat := by
    rw [BitVec.extractLsb'_toNat, Nat.shiftRight_eq_div_pow, bits]
  rw [field, field, BitVec.extractLsb'_and, h, BitVec.and_allOnes]

theorem regionRekeys_eq (s : State) (i : Nat) (a b : DWord) : regionRekeys s i a =
    ((regionAt s i).rega.getLsbD 63 && (regionNew a b).rega.getLsbD 63 &&
      bits (regionNew a b).rega.toNat 62 55 != bits (regionAt s i).rega.toNat 62 55) := by
  have hvalid : (regionNew a b).rega.getLsbD 63 = a.getLsbD 63 := by
    simp [regionNew]
  have hbits : bits (regionNew a b).rega.toNat 62 55 = bits a.toNat 62 55 := bits_and_of_ones _ _ (by decide)
  rw [hvalid, hbits, regionRekeys, Bool.and_comm (a.getLsbD 63)]

/-- A region's entry written: what it makes of memory is `reseal`'s, and MREG2 takes the change. -/
theorem regionPut_eq (s : State) (i : Nat) (a b : DWord) : ∃ m, regionPut s i a b = { reseal s { s with
    regions := smSet s.regions i { regionNew a b with closed := regionRekeys s i a } } with mregs := m } :=
  measureWorlds_eq _ _ _

theorem smGet?_regionPut (s : State) (i j : Nat) (a b : DWord) : smGet? (regionPut s i a b).regions j =
    if j = i then some { regionNew a b with closed := regionRekeys s i a } else smGet? s.regions j := by
  obtain ⟨m, hm⟩ := regionPut_eq s i a b
  rw [hm]
  exact smGet?_smSet _ _ _ _

theorem memGet_regionPut {s : State} (i : Nat) (a b : DWord) (k : Nat) (hc : s.covered = []) : memGet (regionPut s i a b).mem k =
    if 10 * 2 ^ 36 ≤ k ∨ tagAt (regionPut s i a b) k = tagAt s k then memGet s.mem k else memDefault := by
  obtain ⟨m, hm⟩ := regionPut_eq s i a b
  rw [hm]
  exact memGet_reseal k hc

theorem memGet_regionPut_back {s : State} (i : Nat) (a b : DWord) {c : Sealed} (hc : s.covered = [c]) (hlo : c.at_ < 10 * 2 ^ 36)
    (hchanged : tagAt s c.at_ ≠ tagAt (regionPut s i a b) c.at_) (hback : tagAt (regionPut s i a b) c.at_ = (c.key, c.sec)) :
    memGet (regionPut s i a b).mem c.at_ = c.byte := by
  obtain ⟨m, hm⟩ := regionPut_eq s i a b
  rw [hm] at hchanged hback ⊢
  exact memGet_reseal_back hc hlo hchanged hback

theorem exec_regionRekeyComplete {s : State} {die i : Nat} {r : Region} (hr : smGet? s.regions (die * 64 + i) = some r)
    (hclosed : r.closed = true) : ∃ s', exec (.regionRekeyComplete die i) s = .next s' ∧
      smGet? s'.regions (die * 64 + i) = some { r with closed := false } ∧
      (s.caltusAt = some (die * 64 + i) → s'.outbox = s.outbox ++ [.caltusStatus true] ∧ s'.caltusAt = none) ∧
      ∀ k, memGet s'.mem k = if (regionSpan die r).1 ≤ k ∧ k < (regionSpan die r).2 then 0 else memGet s.mem k := by
  have outside (k : Nat) : memGet (s.mem.filter fun c => c.1 < (regionSpan die r).1 || (regionSpan die r).2 ≤ c.1) k =
      if (regionSpan die r).1 ≤ k ∧ k < (regionSpan die r).2 then 0 else memGet s.mem k := by
    rw [memGet_filter_key s.mem fun k => k < (regionSpan die r).1 || (regionSpan die r).2 ≤ k]
    by_cases h : (regionSpan die r).1 ≤ k ∧ k < (regionSpan die r).2
    · rw [if_pos h, if_neg (by simp; omega)]
      rfl
    · rw [if_neg h, if_pos (by simp; omega)]
  refine ⟨_, (finishEvent_need hr).trans (finishEvent_needs hclosed), ?_⟩
  by_cases h : s.caltusAt = some (die * 64 + i)
  · rw [if_pos (beq_iff_eq.mpr h)]
    exact ⟨smGet?_smSet_self _ _ _, fun _ => ⟨rfl, rfl⟩, outside⟩
  · rw [if_neg (mt beq_iff_eq.mp h)]
    exact ⟨smGet?_smSet_self _ _ _, fun h' => absurd h' h, outside⟩

theorem exec_keyLoad {s : State} {slot : Nat} (role : Role) (h : slot < 128) :
    exec (.keyLoad ⟨role, slot⟩) s = .next (keyBy s ⟨role, slot⟩ fun die => keyLoadSlot s die slot) := by
  show finishEvent s (needs _ >>= fun _ => _) = _
  rw [finishEvent_needs (decide_eq_true h), finishEvent_ok]

theorem exec_keyErase {s : State} {slot : Nat} (role : Role) (h : slot < 128) :
    exec (.keyErase ⟨role, slot⟩) s = .next (keyBy s ⟨role, slot⟩ fun die => keyEraseSlot s die slot) := by
  show finishEvent s (needs _ >>= fun _ => _) = _
  rw [finishEvent_needs (decide_eq_true h), finishEvent_ok]

/-- Of the agents, Caltus alone reaches a key (R503, R509). -/
theorem keyBy_other {s : State} {r : KeyReq} (act : Nat → State) (h : ∀ die, r.by_ ≠ .caltus die) : keyBy s r act = denyAccess s 0 := by
  unfold keyBy
  split
  · next die hdie => exact absurd hdie (h die)
  · rfl

theorem keyNamed_iff (s : State) (slot : Nat) : keyNamed s slot = true ↔
    slot = 0 ∨ (s.regions.any fun r => r.2.rega.getLsbD 63 && bits r.2.rega.toNat 61 55 == slot) = true := by
  rw [keyNamed, Bool.or_eq_true, beq_iff_eq]

theorem keyLoadSlot_keydat (s : State) (die slot : Nat) {j : Nat} (h : j < 8) :
    smGetD (keyLoadSlot s die slot).keydat (die * 8 + j) 0 = 0 := by
  have hdie : (die * 8 + j) / 8 = die := by omega
  show (smGet? (s.keydat.filter fun k => k.1 / 8 != die) (die * 8 + j)).getD 0 = 0
  rw [smGet?_filter_key s.keydat fun k => k / 8 != die, hdie, if_neg (by simp)]
  rfl

/-! Measurement, reports and the sideband (R511–R513). -/

/-- Who may extend a measurement register (R512). -/
theorem mayExtend_iff (role : Role) (die i : Nat) :
    (role.caltusOf die || (role == .service && 3 ≤ i)) = true ↔ role = .caltus die ∨ role = .service ∧ 3 ≤ i := by
  simp [Role.caltusOf]

theorem exec_mregExtend {s : State} {die i : Nat} (role : Role) (d : BitVec 512) (hdie : die < 2) (hi : i < 8) :
    exec (.mregExtend die role i d) s = .next (if role.caltusOf die || (role == .service && 3 ≤ i)
      then extendMreg s die i (Sha.toBE 64 d.toNat) else s) := by
  show finishEvent s (needs _ >>= fun _ => _) = _
  rw [finishEvent_needs (by simp [hdie, hi]), finishEvent_ok]

theorem Sha.length_toBE (n x : Nat) : (Sha.toBE n x).length = n := by
  simp [Sha.toBE]

theorem length_reportBody (s : State) (die : Nat) (nonce : List Byte) : (reportBody s die nonce).length = 624 := by
  have mregs : ((List.range 8).flatMap fun i => Sha.toBE 64 (smGetD s.mregs (die * 8 + i) 0).toNat).length = 512 := by
    simp [List.length_flatMap, Sha.length_toBE]
  unfold reportBody
  simp only [List.length_append, length_toBytes, length_sliceB, mregs]

theorem exec_attestationReport (s : State) {die : Nat} (nonce : List Byte) (hdie : die < 2) :
    exec (.attestationReport die nonce) s = .next (emitOut s (.report (reportBody s die nonce ++
      Sha.sign s.fuses.identity.n s.fuses.secretExp (reportBody s die nonce)))) := by
  show finishEvent s (needs _ >>= fun _ => _) = _
  rw [finishEvent_needs (decide_eq_true hdie), finishEvent_ok]

/-- What an accepted request may change: the owner's digest and the two counters, upward, and the number of the last request. -/
theorem exec_signedSidebandRequest_frame (s : State) (r : SideReq) : ∃ s', exec (.signedSidebandRequest r) s = .next s' ∧
    s'.fuses.version ≥ s.fuses.version ∧ s'.svcVersion ≥ s.svcVersion ∧ s'.sideSeq ≥ s.sideSeq ∧ s'.mem = s.mem := by
  show ∃ s', execSignedSidebandRequest r s = .next s' ∧ _
  unfold execSignedSidebandRequest
  extract_lets d v ok s1
  by_cases hok : ok = true
  · have hseq : s.sideSeq ≤ r.seq := by
      simp only [ok, Bool.and_eq_true, decide_eq_true_eq] at hok
      omega
    rw [hok, Bool.not_true, if_neg Bool.false_ne_true]
    split
    · exact ⟨_, rfl, le_rfl, le_rfl, hseq, rfl⟩
    · split
      · exact ⟨_, rfl, le_max_left _ _, le_rfl, hseq, rfl⟩
      · split
        · exact ⟨_, rfl, le_rfl, le_max_left _ _, hseq, rfl⟩
        · exact ⟨_, rfl, le_rfl, le_rfl, le_rfl, rfl⟩
  · rw [if_pos (by simpa using hok)]
    exact ⟨_, rfl, le_rfl, le_rfl, le_rfl, rfl⟩

theorem exec_signedSidebandRequest_old {s : State} {r : SideReq} (h : r.seq ≤ s.sideSeq) :
    exec (.signedSidebandRequest r) s = .next (emitOut s (.sideband false)) := by
  show execSignedSidebandRequest r s = _
  unfold execSignedSidebandRequest
  extract_lets d v ok s1
  have hok : ok = false := by simp [ok, Nat.not_lt.mpr h]
  rw [hok]
  rfl

/-! Energy and clocks (R514–R518). -/

/-- A partition's account a microsecond later: the allowance added, up to its cap (R514). -/
def Part.refilled (P : Part) : Part :=
  { P with account := BitVec.ofInt 64 (min (P.account.toInt + P.allowance) (1024 * P.allowance)) }

theorem exec_energyRefill (s : State) :
    exec .energyRefill s = .next (tickEnergy { s with parts := s.parts.map fun p => (p.1, p.2.refilled) }) := rfl

@[simp] theorem tickEnergy_parts (s : State) : (tickEnergy s).parts = s.parts := by
  unfold tickEnergy
  rfl

@[simp] theorem tickEnergy_teams (s : State) : (tickEnergy s).teams = s.teams := by
  unfold tickEnergy
  rfl

theorem smGet?_refilled (m : SMap Part) (p : Nat) :
    smGet? (m.map fun p => (p.1, p.2.refilled)) p = (smGet? m p).map Part.refilled :=
  smGet?_map_value m (fun _ => Part.refilled) p

/-- A power or thermal limit stretches the clock of every cluster (R516). -/
theorem exec_powerLimit {s : State} {k : Nat} {C : Cluster} (n : Nat) (hk : smGet? s.clusters k = some C) :
    ∃ s' C', exec (.powerLimit n) s = .next s' ∧ smGet? s'.clusters k = some C' ∧ C'.stretch = (C.stretch + n) % 2 ^ 64 ∧
      s'.mem = s.mem := by
  have stretched : smGet? (s.clusters.map fun p => (p.1, p.2.stretched n (s.choice / 2 ^ (16 * p.1 + 1) % 2 ^ 16))) k =
      some (C.stretched n (s.choice / 2 ^ (16 * k + 1) % 2 ^ 16)) := by
    rw [smGet?_map_value s.clusters fun j D => D.stretched n (s.choice / 2 ^ (16 * j + 1) % 2 ^ 16), hk]
    rfl
  show ∃ s' C', finishEvent s (.ok (if s.choice % 2 == 1 then _ else _)) = _ ∧ _
  rw [finishEvent_ok]
  split
  · exact ⟨_, _, rfl, stretched, rfl, rfl⟩
  · exact ⟨_, _, rfl, stretched, rfl, rfl⟩

theorem exec_clockStretch {s : State} {k : Nat} {C : Cluster} (n : Nat) (hk : smGet? s.clusters k = some C) :
    exec (.clockStretch k n) s = .next (modCluster s k fun C => C.stretched n s.choice) := by
  show finishEvent s (need _ >>= fun _ => _) = _
  rw [finishEvent_need hk, finishEvent_ok]

theorem exec_stretchCountRead {s : State} {k : Nat} {C : Cluster} (hk : smGet? s.clusters k = some C) :
    exec (.stretchCountRead k) s = .next (readStretch s k C) := by
  show finishEvent s (need _ >>= fun _ => _) = _
  rw [finishEvent_need hk, finishEvent_ok]

theorem exec_budgetSet (s : State) (role : Role) (b : Budget) : exec (.budgetSet role b) s = .next (
    if (role = .caltus 0 ∨ role = .caltus 1) ∧ 1200 ≤ b.bud ∧ b.bud ≤ 3000 ∧ allowances s + b.stat ≤ b.bud
    then { s with budget := b.bud, reserve := b.stat } else emitOut s (.refusedWrite role 0)) := by
  show execBudgetSet role b s = _
  rw [execBudgetSet, finishEvent_ok, budgetOk]
  simp only [Bool.and_eq_true, Role.isCaltus_iff, decide_eq_true_eq, and_assoc]
  rfl

theorem exec_allowanceWrite {s : State} {p : Nat} {P : Part} (w : Nat) (hp : smGet? s.parts p = some P) :
    exec (.allowanceWrite p w) s = .next (
      if (s.parts.filter fun q => q.1 != p).foldl (fun a q => a + q.2.allowance) w + s.reserve ≤ s.budget
      then modPart s p fun P => { P with allowance := w } else refuseWrite s .service 0) := by
  show finishEvent s (need _ >>= fun _ => _) = _
  rw [finishEvent_need hp, finishEvent_ok]

end Sys2Proof.Machine

namespace Sys2Proof.Claims

open Sys2Proof Sys2Proof.Machine

/-- Settles O54: each event is what its checks let through of the change its rule names, and that change is read off the tables. -/
theorem managementCompletes : Obligations.ManagementCompletes := by
  intro s extended measured rekeyed
  refine ⟨?schcfg, ?area, ?part, ?worldOther, ?world, ?worldRefused, ?caltusOnly, ?waitth, ?region, ?rekey, ?key, ?allowance, ?budget,
    ?mreg, ?report, ?sidebandOld, ?sideband, ?refill, ?clock⟩
  case schcfg =>
    intro p P v hp mib bad
    have hlow : v.toNat % 2 ^ 32 = bits v.toNat 31 0 := by simp [bits]
    have hbad : bad = schcfgBad s p P v := by
      simp only [bad, hlow]
      rfl
    rw [exec_schcfgWrite v hp, hbad]
    cases schcfgBad s p P v
    · exact ⟨_, _, rfl, smGet?_modPart _ hp, rfl, rfl, rfl⟩
    · exact ⟨_, P, rfl, hp, rfl, rfl, rfl⟩
  case area =>
    intro num v P P1 hlo hhi hp hw r p
    rw [exec_areaBaseWrite hlo hhi hp hw]
    refine ⟨fun hr => by rw [if_neg (by rw [hr]; decide)], fun hr => ?_⟩
    rw [if_pos hr]
    refine ⟨rfl, fun hq => ?_⟩
    have hnew : smGet? (modPart s p fun _ => P1).parts p = some P1 :=
      smGet?_modPart _ hp
    rw [drainSq_of_empty hnew ((areaWrite_sqPend hw).trans hq)]
    exact ⟨_, _, rfl, hnew, rfl, rfl⟩
  case part =>
    intro die role p v P hdie hrole hp hP write
    have hwrite (off : Nat) (ho : off < 16) : write off = .next (partWrite s p off v) :=
      exec_mgmtCsrWrite_partNumber s v hdie hrole hp ho
    refine ⟨fun off hoff => ?_, ?_, hwrite 14 (by decide), ⟨_, _, hwrite 3 (by decide), rfl, smGet?_modPart _ hP, rfl⟩,
      mgmtCsr_partNumber die role hP hp (by decide), mgmtCsr_partNumber die role hP hp (by decide)⟩
    · have hlt : off < 16 := (by decide : ∀ o ∈ [2, 8, 11, 15], o < 16) off hoff
      rw [hwrite off hlt, partWrite_readOnly v hP hoff]
    · rw [hwrite 5 (by decide), partWrite, hP]
      exact congrArg _ (faultCommand_mod_four s p v.toNat)
  case worldOther =>
    intro die role num v hdie hlo hhi hother
    rw [exec_worldWrite role v hdie hlo hhi, Role.caltusOf_of_ne hother, if_neg Bool.false_ne_true]
  case world =>
    intro die num v hdie hnum hfree
    rw [exec_worldWrite _ v hdie (by omega) (by omega), Role.caltusOf_self, if_pos rfl, hnum, worldSet,
      if_pos ((worldOk_passWorlds s die v).mpr fun k hk _ => hfree k hk)]
    refine ⟨_, rfl, worldPut_mem _ _ _ _, ?_, fun k d hne hk => ?_, measureWorlds_mreg die rfl⟩
    · rw [dieCsr_worldPut s v (by decide) (by decide), if_pos rfl]
      rfl
    · rw [dieCsr_worldPut s v (by decide) hk, if_neg hne]
  case worldRefused =>
    intro die num v k hdie hnum hk hbit hbusy
    have hbad : worldOk s die 0xF03 v = false := by
      rw [← Bool.not_eq_true, worldOk_passWorlds]
      exact fun h => by simp [h k hk hbit] at hbusy
    rw [exec_worldWrite _ v hdie (by omega) (by omega), Role.caltusOf_self, if_pos rfl, hnum, worldSet, hbad, if_neg Bool.false_ne_true]
    rfl
  case caltusOnly =>
    intro die role num v hdie hrole hnum hlo hother
    exact exec_mgmtCsrWrite_denied v hdie hrole hnum hlo hother
  case waitth =>
    intro core role C v hC hcore hrole
    exact ⟨_, _, exec_mgmtCsrWrite_waitthNumber v hcore hrole, core?_modCore _ hC, rfl, rfl⟩
  case region =>
    intro i a b hi hopen die old new valid slot legal
    have hlegal : regionBad s i a b = false ↔ legal := regionBad_eq_false_iff s i a b
    refine ⟨fun role hother => ?_, fun hno => ?_, fun hyes => ?_⟩
    · rw [exec_regionWrite role a b hi hopen, Role.caltusOf_of_ne hother, if_neg Bool.false_ne_true]
    · rw [exec_regionWrite _ a b hi hopen, Role.caltusOf_self, if_pos rfl, (Bool.not_eq_false _).mp (mt hlegal.mp hno), if_pos rfl]
      rfl
    · rw [exec_regionWrite _ a b hi hopen, Role.caltusOf_self, if_pos rfl, hlegal.mpr hyes, if_neg Bool.false_ne_true]
      refine ⟨_, rfl, ?_, fun j hj => by rw [smGet?_regionPut, if_neg hj], measureWorlds_mreg die rfl,
        fun hc k => memGet_regionPut i a b k hc, fun c hc hlo => memGet_regionPut_back i a b hc hlo⟩
      rw [smGet?_regionPut, if_pos rfl, regionRekeys_eq s i a b]
      rfl
  case rekey =>
    intro die i r hr hclosed
    exact exec_regionRekeyComplete hr hclosed
  case key =>
    intro slot hslot named
    refine ⟨fun die => ?_, fun die hnamed => ?_, fun die hfree => ?_, fun role hother => ?_⟩
    · exact ⟨_, exec_keyLoad _ hslot, smGet?_smSet_self _ _ _, fun j hj => smGet?_smSet_ne _ _ hj,
        fun j hj => keyLoadSlot_keydat s die slot hj, fun hc k => memGet_reseal k hc⟩
    · exact (exec_keyErase _ hslot).trans (congrArg _ (if_pos ((keyNamed_iff s slot).mpr hnamed)))
    · exact ⟨_, (exec_keyErase _ hslot).trans (congrArg _ (if_neg (mt (keyNamed_iff s slot).mp hfree))),
        by rw [smGet?_smDel, if_pos rfl], fun j hj => by rw [smGet?_smDel, if_neg hj]⟩
    · exact ⟨by rw [exec_keyLoad _ hslot, keyBy_other _ hother], by rw [exec_keyErase _ hslot, keyBy_other _ hother]⟩
  case allowance =>
    intro p P w hp
    rw [exec_allowanceWrite w hp]
    split
    · exact ⟨_, _, rfl, smGet?_modPart _ hp, rfl⟩
    · exact ⟨_, P, rfl, hp, rfl⟩
  case budget =>
    intro role b
    exact exec_budgetSet s role b
  case mreg =>
    intro die role i d hdie hi
    rw [exec_mregExtend role d hdie hi]
    refine ⟨_, rfl, ?_, fun h1 h2 => ?_, fun h => ?_, fun k hk => ?_⟩
    · split
      · exact extendMreg_mem _ _ _ _
      · rfl
    · rw [if_neg]
      rw [mayExtend_iff]
      rintro (h | ⟨h, hi⟩)
      · exact h1 h
      · exact h2.elim (· h) (by omega)
    · rw [if_pos ((mayExtend_iff role die i).mpr h), extendMreg_get, if_pos rfl]
    · split
      · rw [extendMreg_get, if_neg hk]
      · rfl
  case report =>
    intro die nonce hdie
    exact ⟨_, _, exec_attestationReport s nonce hdie, rfl, List.take_left' (length_reportBody s die nonce), rfl⟩
  case sidebandOld =>
    intro r hr
    exact exec_signedSidebandRequest_old hr
  case sideband =>
    intro r
    exact exec_signedSidebandRequest_frame s r
  case refill =>
    refine ⟨_, exec_energyRefill s, tickEnergy_mem _, tickEnergy_teams _, fun p P hp => ⟨P.refilled, ?_, rfl⟩⟩
    rw [tickEnergy_parts, smGet?_refilled, hp]
    rfl
  case clock =>
    intro k C n hk
    exact ⟨⟨_, _, exec_clockStretch n hk, smGet?_modCluster _ hk, rfl, rfl, rfl⟩, exec_powerLimit n hk,
      ⟨_, _, exec_stretchCountRead hk, smGet?_modCluster _ hk, rfl, rfl⟩⟩

end Sys2Proof.Claims
end

