-- ==== Sys2Proof/Proofs/WordChecks.lean ====
section
/-! SUPPORT. What a word of a wave does before its effect: the checks of its operands, what it pops, poison; the gang that is ready
to issue; the words that retire where no lane is active. O9 and O10. -/

namespace Sys2Proof.Machine

open Sys2Proof.Claims

section
variable {c : WCtx} {srcs dsts : List Regs} {uni : Bool}

/-- Whether a word may name its registers (R33, R34, R38). -/
def named (c : WCtx) (srcs dsts : List Regs) : Bool := srcs.all (Regs.srcOk c.T.nregs) && dsts.all (Regs.dstOk c.T.nregs)

/-- Whether every source of a word exists once for the gang, where its datapath is the uniform one (R35). -/
def single (srcs : List Regs) (uni : Bool) : Bool := !uni || srcs.all fun r => uniformSrc r.code

theorem open_unnamed (hn : named c srcs dsts = false) : c.open srcs dsts uni = .error (.trap .illegalEnc 0) := by
  unfold named at hn
  simp only [WCtx.open, trapIf, hn]
  rfl

theorem open_multiple (hn : named c srcs dsts = true) (hs : single srcs uni = false) :
    c.open srcs dsts uni = .error (.trap .illegalEnc 0) := by
  have hu : (uni && !srcs.all fun r => uniformSrc r.code) = true := by
    rw [← Bool.not_eq_false', ← hs, single, Bool.not_and, Bool.not_not]
  unfold named at hn
  simp only [WCtx.open, trapIf, hn, hu]
  rfl

theorem open_eq (hn : named c srcs dsts = true) (hs : single srcs uni = true) : c.open srcs dsts uni =
    if c.W.busyAny (srcs ++ dsts) then .error (.wait (.result (c.W.busyOn (srcs ++ dsts))) c.s) else c.takePops srcs := by
  have hs' : (uni && !srcs.all fun r => uniformSrc r.code) = false := by
    rw [← Bool.not_eq_true', ← hs, single, Bool.not_and, Bool.not_not]
  unfold named at hn
  simp only [WCtx.open, trapIf, waitIf, hn, hs']
  cases c.W.busyAny (srcs ++ dsts) <;> rfl

theorem open_busy (hn : named c srcs dsts = true) (hs : single srcs uni = true) (hb : c.W.busyAny (srcs ++ dsts) = true) :
    c.open srcs dsts uni = .error (.wait (.result (c.W.busyOn (srcs ++ dsts))) c.s) := by rw [open_eq hn hs, if_pos hb]

theorem takePops_nil (hp : popCodes srcs = []) : c.takePops srcs = .ok c := by simp [WCtx.takePops, hp]

theorem open_plain (hn : named c srcs dsts = true) (hs : single srcs uni = true) (hb : c.W.busyAny (srcs ++ dsts) = false)
    (hp : popCodes srcs = []) : c.open srcs dsts uni = .ok c := by
  rw [open_eq hn hs, hb, if_neg Bool.false_ne_true, takePops_nil hp]

/-- A word that opens has passed the checks of its operands. -/
theorem open_ok {d : WCtx} (h : c.open srcs dsts uni = .ok d) : named c srcs dsts = true ∧ single srcs uni = true ∧
    c.W.busyAny (srcs ++ dsts) = false ∧ c.takePops srcs = .ok d := by
  have hn : named c srcs dsts = true := by
    by_contra hn
    simp [open_unnamed (Bool.eq_false_of_not_eq_true hn)] at h
  have hs : single srcs uni = true := by
    by_contra hs
    simp [open_multiple hn (Bool.eq_false_of_not_eq_true hs)] at h
  rw [open_eq hn hs] at h
  cases hb : c.W.busyAny (srcs ++ dsts) <;> simp [hb] at h
  exact ⟨hn, hs, rfl, h⟩

theorem popCodes_eq_nil (h : ∀ r ∈ srcs, popCodes [r] = []) : popCodes srcs = [] := by
  simp only [popCodes, List.filter_eq_nil_iff, List.any_eq_true, not_exists, not_and, List.any_cons, List.any_nil, Bool.or_false] at h ⊢
  exact fun k hk r hr => h r hr k hk

/-- The uniform datapath has no source that pops (R35). -/
theorem popCodes_uniform (hs : srcs.all (fun r => uniformSrc r.code) = true) : popCodes srcs = [] := by
  have key : ∀ k : BitVec 8, uniformSrc k = true → popCodes [Regs.one k] = [] := by decide
  exact popCodes_eq_nil fun r hr => key r.code (List.all_eq_true.mp hs r hr)

/-- A word on the uniform datapath opens without changing anything. -/
theorem open_uniform {d : WCtx} (h : c.open srcs dsts true = .ok d) : d = c := by
  obtain ⟨-, hs, -, h⟩ := open_ok h
  rw [takePops_nil (popCodes_uniform (by simpa [single] using hs))] at h
  exact (Except.ok.inj h).symm

end

theorem opndOf_mb : opndOf 0xFE#8 = .mb := by decide

/-- The state of a gang that has received its oldest message (R39, R227, R354). -/
def WCtx.receive (c : WCtx) (m : Message) (rest : List Message) : WCtx :=
  { c with
    W := { c.W with mbox := rest }
    s := if m.fromMod == c.s.moduleNo && m.fromCore == c.T.core then c.s else invalidate c.s c.T.core
    pops := c.pops ++ [(0xFE#8, (List.range 32).map fun i =>
      (if m.mask.getLsbD i then m.vals.getD i 0 else 0, m.mask.getLsbD i && m.psn.getLsbD (i / 4)))] }

/-- Outside reproducible mode a read of mb waits for a message, and takes the oldest (R39). -/
theorem takePops_mb {c : WCtx} (h : c.T.repro = false) : c.takePops [Regs.one 0xFE#8] =
    match c.W.mbox with
    | [] => .error (.wait .mailbox c.s)
    | m :: r => .ok (c.receive m r) := by
  have hi : c.issued = c := by simp [WCtx.issued, h]
  have hp : popCodes [Regs.one 0xFE#8] = [0xFE#8] := by decide
  unfold WCtx.takePops
  rw [hp, hi]
  cases hm : c.W.mbox <;> simp [opndOf_mb, WCtx.checkParted, WCtx.waitOrder, h, highest, trapIf, waitIf, WCtx.receive, hm] <;> rfl

theorem open_mb (c : WCtx) : c.open [Regs.one 0xFE#8] [] false = c.takePops [Regs.one 0xFE#8] := by
  have hn : named c [Regs.one 0xFE#8] [] = true := by simp [named, Regs.srcOk, Regs.one, opndOf_mb]
  have hb : c.W.busyAny ([Regs.one 0xFE#8] ++ []) = false := by simp [Wave.busyAny, Regs.keys, Regs.one, opndOf_mb]
  rw [open_eq hn rfl, hb, if_neg Bool.false_ne_true]

/-- Lane l reads of a received message what the sender gave it, or 0 (R227). -/
theorem receive_reg {c : WCtx} {m : Message} {r : List Message} (hp : c.pops = []) {l : Nat} (hl : l < 32) :
    (c.receive m r).reg 0xFE#8 l = if m.mask.getLsbD l then (m.vals.getD l 0).toNat else 0 := by
  simp only [WCtx.reg, opndOf_mb, WCtx.receive, hp, List.nil_append, List.find?_cons, beq_self_eq_true, Option.bind_some,
    List.getElem?_map, List.getElem?_range hl, Option.map_some, Option.getD_some]
  split <;> rfl

theorem lowLane_eq {m : LaneMask} {l : Nat} (hl : m.getLsbD l = true) (hlow : ∀ k, k < l → m.getLsbD k = false) : lowLane m = l := by
  have hf : (List.range 32).find? (fun i => m.getLsbD i) = some l :=
    List.find?_range_eq_some.mpr ⟨hl, List.mem_range.mpr (lt_of_getLsbD_lane hl), fun k hk => by rw [hlow k hk]; rfl⟩
  rw [lowLane, lanesOf, List.head?_filter, hf]
  rfl

/-- The lanes in which one of several operands is poisoned. -/
theorem getLsbD_poisonUnion (c : WCtx) (srcs : List Regs) (m : LaneMask) (k : Nat) :
    (srcs.foldl (fun m r => m ||| c.poisonLanes r) m).getLsbD k = (m.getLsbD k || srcs.any fun r => (c.poisonLanes r).getLsbD k) := by
  induction srcs generalizing m with
  | nil => simp
  | cons r srcs ih => simp [ih, Bool.or_assoc]

theorem checkPoison_clean {c : WCtx} {srcs : List Regs} (h : ∀ r ∈ srcs, c.poisonLanes r = 0) : c.checkPoison srcs = .ok () := by
  have hf : (srcs.find? fun r => c.poisonLanes r != 0 &&
      (c.poisonLanes r).getLsbD (lowLane (srcs.foldl (fun m r => m ||| c.poisonLanes r) 0))) = none :=
    List.find?_eq_none.mpr fun r hr => by simp [h r hr]
  simp only [WCtx.checkPoison, hf]

/-- POISON names the first operand that the lowest poisoned lane finds (R423, R445). -/
theorem checkPoison_trap {c : WCtx} {srcs : List Regs} {r : Regs} {l : Nat}
    (hlow : ∀ q ∈ srcs, ∀ k, k < l → (c.poisonLanes q).getLsbD k = false)
    (hr : (srcs.find? fun r => (c.poisonLanes r).getLsbD l) = some r) :
    c.checkPoison srcs = .error (.trap .poison (BitVec.ofNat 64 ((c.poisonLanes r).toNat + r.code.toNat * 2 ^ 32))) := by
  have hall : lowLane (srcs.foldl (fun m r => m ||| c.poisonLanes r) 0) = l := by
    refine lowLane_eq ?_ fun k hk => ?_ <;> rw [getLsbD_poisonUnion]
    · have hl := List.find?_some hr
      simpa using ⟨r, List.mem_of_find?_eq_some hr, hl⟩
    · simpa using fun q hq => hlow q hq k hk
  have hsame : (fun r => c.poisonLanes r != 0 && (c.poisonLanes r).getLsbD l) = fun r => (c.poisonLanes r).getLsbD l := by
    funext q
    cases hq : (c.poisonLanes q).getLsbD l
    · simp
    · have : c.poisonLanes q ≠ 0 := fun h0 => by simp [h0] at hq
      simpa using this
  simp only [WCtx.checkPoison, hall, hsame, hr]

/-- A word that sends no message begins when its operands are open and not poisoned. -/
theorem begin_eq {c d : WCtx} {srcs dsts : List Regs} {uni : Bool} (ho : c.open srcs dsts uni = .ok d)
    (hd : (dsts.all fun r => r.code != 0xFE#8) = true) : c.begin srcs dsts uni = (d.checkPoison srcs).map fun _ => d := by
  have hc : (dsts.map (·.code)).contains 0xFE#8 = false := by
    refine Bool.eq_false_of_not_eq_true fun h => ?_
    obtain ⟨r, hr, he⟩ := List.mem_map.mp (List.contains_iff_mem.mp h)
    simpa [he] using List.all_eq_true.mp hd r hr
  simp only [WCtx.begin, ho, WCtx.checkMb, WCtx.waitSend, hc, trapIf, waitIf, Bool.and_false, Bool.false_and]
  cases hp : d.checkPoison srcs <;> simp only [hp, bind, Except.bind] <;> rfl

theorem begin_error {c : WCtx} {srcs dsts : List Regs} {uni : Bool} {e : Stop} (ho : c.open srcs dsts uni = .error e) :
    c.begin srcs dsts uni = .error e := by
  simp only [WCtx.begin, ho]
  rfl

/-- The checks of a computing word, in their order (R27, R33–R35, R38, R445). -/
theorem begin_checks (c : WCtx) (srcs dsts : List Regs) (uni : Bool) :
    let plain := (srcs.all fun r => popCodes [r] == []) && dsts.all fun r => r.code != 0xFE#8
    (named c srcs dsts = false → c.begin srcs dsts uni = .error (.trap .illegalEnc 0)) ∧
    (named c srcs dsts = true → single srcs uni = false → c.begin srcs dsts uni = .error (.trap .illegalEnc 0)) ∧
    (named c srcs dsts = true → single srcs uni = true → c.W.busyAny (srcs ++ dsts) = true →
      c.begin srcs dsts uni = .error (.wait (.result (c.W.busyOn (srcs ++ dsts))) c.s)) ∧
    (named c srcs dsts = true → single srcs uni = true → c.W.busyAny (srcs ++ dsts) = false → plain = true →
      ((∀ r ∈ srcs, c.poisonLanes r = 0) → c.begin srcs dsts uni = .ok c) ∧
      (∀ r l, (∀ q ∈ srcs, ∀ k, k < l → (c.poisonLanes q).getLsbD k = false) →
        srcs.find? (fun r => (c.poisonLanes r).getLsbD l) = some r → c.begin srcs dsts uni =
          .error (.trap .poison (BitVec.ofNat 64 ((c.poisonLanes r).toNat + r.code.toNat * 2 ^ 32))))) := by
  refine ⟨fun hn => begin_error (open_unnamed hn), fun hn hs => begin_error (open_multiple hn hs),
    fun hn hs hb => begin_error (open_busy hn hs hb), fun hn hs hb hp => ?_⟩
  obtain ⟨hsrc, hdst⟩ : (∀ r ∈ srcs, popCodes [r] = []) ∧ (dsts.all fun r => r.code != 0xFE#8) = true := by simpa using hp
  rw [begin_eq (open_plain hn hs hb (popCodes_eq_nil hsrc)) hdst]
  exact ⟨fun h => by rw [checkPoison_clean h]; rfl, fun r l hlow hr => by rw [checkPoison_trap hlow hr]; rfl⟩

/-! The gang that is ready to issue. -/

/-- The gang that is ready to issue is the issuing gang of `cur`, past the checks. -/
theorem ready_spec {s : State} {g : BitVec 4} {check : WCtx → Except Stop WCtx} {c : WCtx} (h : ready s g check = some c) :
    ∃ t w gang c0, s.cur = .wave t w gang ∧ wctx? s t w gang g = some c0 ∧ check c0 = .ok c := by
  unfold ready at h
  split at h
  · rename_i t w gang hcur
    obtain ⟨c0, h0, h1⟩ := Option.bind_eq_some_iff.mp h
    cases hc : check c0 with
    | error e => simp [hc, Except.toOption] at h1
    | ok d =>
      obtain rfl : d = c := by simpa [hc, Except.toOption] using h1
      exact ⟨t, w, gang, c0, hcur, h0, hc⟩
  · cases h

/-- A word of a wave that completes once its checks pass: its next state is the one its meaning gives. -/
theorem exec_ready {i : Instr} {s s' : State} {opc : Nat} {g : BitVec 4} {wave : WCtx → Except Stop State}
    {ctx : KCtx → Except Stop State} {lane : Eval → Except Stop Eval} {check : WCtx → Except Stop WCtx} {c : WCtx}
    (hi : exec i s = issue opc g s wave ctx lane) (ho : computeAllows opc = true) (hr : ready s g check = some c)
    (hw : ∀ c0, check c0 = .ok c → wave c0 = .ok s') : exec i s = .next s' := by
  obtain ⟨t, w, gang, c0, hcur, h0, hc⟩ := ready_spec hr
  rw [hi, issue_wave hcur h0 ho, hw c0 hc, finishWave_ok]

/-- A word whose meaning only retires where no lane is active (R28, R90). -/
theorem idle_of_wave {i : Instr} {s : State} {opc : Nat} {g : BitVec 4} {bnd legal : Bool} {wave : WCtx → Except Stop State}
    {ctx : KCtx → Except Stop State} {lane : Eval → Except Stop Eval} {check : WCtx → Except Stop WCtx}
    (hi : exec i s = issue opc g s wave ctx lane) (ho : computeAllows opc = true)
    (hw : legal = true → ∀ c0 c, check c0 = .ok c → c.lanes = 0 → wave c0 = .ok (c.retire c.W bnd)) : Idle i s g bnd legal check :=
  fun _ hl _ hr h0 => exec_ready hi ho hr fun c0 hc => hw hl c0 _ hc h0

@[simp] theorem trapIf_false (c : Cause) (a : DWord) : trapIf false c a = .ok () := rfl
@[simp] theorem waitIf_false (k : WaitKind) (s : State) : waitIf false k s = .ok () := rfl

theorem except_ok_bind {α β : Type} (a : α) (f : α → Except Stop β) : (Except.ok a >>= f) = f a := rfl

/-- A word that checks its encoding, opens its operands and, with no lane active, retires. -/
theorem idle_of_open {i : Instr} {s : State} {opc : Nat} {g : BitVec 4} {bnd legal uni : Bool} {bad : Bool} {srcs dsts : List Regs}
    {act : WCtx → WCtx → Except Stop State} {ctx : KCtx → Except Stop State} {lane : Eval → Except Stop Eval}
    (hi : exec i s = issue opc g s (fun c0 => do
      trapIf bad .illegalEnc
      let c ← c0.open srcs dsts uni
      if c.lanes == 0 then .ok (c.retire c.W bnd) else act c0 c) ctx lane)
    (ho : computeAllows opc = true) (hb : legal = true → bad = false) : Idle i s g bnd legal fun c => c.open srcs dsts uni :=
  idle_of_wave hi ho fun hl c0 c hc h0 => by
    simp [hb hl, hc, h0, except_ok_bind]

/-- A word that opens its operands without a check of its own before. -/
theorem idle_of_open_only {i : Instr} {s : State} {opc : Nat} {g : BitVec 4} {bnd legal uni : Bool} {srcs dsts : List Regs}
    {act : WCtx → WCtx → Except Stop State} {ctx : KCtx → Except Stop State} {lane : Eval → Except Stop Eval}
    (hi : exec i s = issue opc g s (fun c0 => do
      let c ← c0.open srcs dsts uni
      if c.lanes == 0 then .ok (c.retire c.W bnd) else act c0 c) ctx lane)
    (ho : computeAllows opc = true) : Idle i s g bnd legal fun c => c.open srcs dsts uni :=
  idle_of_wave hi ho fun _ c0 c hc h0 => by simp [hc, h0, except_ok_bind]

/-- A matrix word, the tile it works on one of the team's (R232). -/
theorem idle_of_mxWord {i : Instr} {s : State} {opc : Nat} {f : SysW} {uni : List (BitVec 8)} {srcs dsts : List Regs}
    {act : WCtx → WCtx → Except Stop State} (hi : exec i s = mxWord opc f uni srcs dsts true act s) (ho : computeAllows opc = true) :
    Idle i s f.g f.bnd (uni.all uniOrZ) (fun c => do
      let d ← c.open srcs dsts false
      trapIf (d.T.naccs ≤ SysW.tile f) .illegalEnc
      .ok d) :=
  idle_of_wave hi ho fun hl c0 c hc h0 => by
    obtain ⟨d, hd, hc⟩ := except_bind_ok.mp hc
    obtain ⟨_, ht, hc⟩ := except_bind_ok.mp hc
    cases hc
    simp [hl, hd, h0, except_ok_bind, trapIf_ok.mp ht]

/-- A matrix word that works on no tile. -/
theorem idle_of_mxWord_noTile {i : Instr} {s : State} {opc : Nat} {f : SysW} {uni : List (BitVec 8)} {srcs dsts : List Regs}
    {act : WCtx → WCtx → Except Stop State} (hi : exec i s = mxWord opc f uni srcs dsts false act s) (ho : computeAllows opc = true) :
    Idle i s f.g f.bnd (uni.all uniOrZ) fun c => c.open srcs dsts false :=
  idle_of_wave hi ho fun hl c0 c hc h0 => by simp [hl, hc, h0, except_ok_bind]

/-- A word of the ray unit (R270). -/
theorem idle_of_rayWord {i : Instr} {s : State} {opc : Nat} {f : SysW} {uni : List (BitVec 8)} {srcs dsts : List Regs} {align : Nat}
    {addr : WCtx → Nat → Nat} {first : WCtx → Nat → List (Nat × Nat)} {vals : WCtx → Nat → List Nat}
    (hi : exec i s = rayWord opc f srcs dsts uni align addr first vals s) (ho : computeAllows opc = true) :
    Idle i s f.g f.bnd (uni.all uniOrZ && ((srcs ++ dsts).filter fun r => 3 ≤ r.n).all fun r => isVector r.code) fun c =>
      c.open srcs dsts false :=
  idle_of_open hi ho fun hl => by
    rw [Bool.and_eq_true] at hl
    rw [hl.1, hl.2]
    rfl

/-- The registers of a word that opens with a destination it may name are not busy, and it opens without one too. -/
theorem open_dst {c d : WCtx} {srcs : List Regs} {r : Regs} {uni : Bool} (h : c.open srcs [r] uni = .ok d) :
    r.dstOk c.T.nregs = true ∧ c.W.busyAny [r] = false ∧ c.open srcs [] uni = .ok d := by
  obtain ⟨hn, hs, hb, hp⟩ := open_ok h
  obtain ⟨hsrc, hdst⟩ : srcs.all (Regs.srcOk c.T.nregs) = true ∧ r.dstOk c.T.nregs = true := by simpa [named] using hn
  obtain ⟨hbs, hbr⟩ : c.W.busyAny srcs = false ∧ c.W.busyAny [r] = false := by
    simpa only [Wave.busyAny, List.any_append, Bool.or_eq_false_iff] using hb
  refine ⟨hdst, hbr, ?_⟩
  rw [open_eq (by simp [named, hsrc]) hs, List.append_nil, hbs, if_neg Bool.false_ne_true, hp]

/-- A counter word with no lane active (R208). -/
theorem cbWave_idle {f : SysW} {rel : Bool} {c0 c : WCtx} {act : WCtx → List Byte → Bool → Except Stop (List Byte × Wave)}
    (hl : (f.a :: if immFlag f.var then [] else [f.b]).all uniOrZ = true) (hc : c0.open (cbSrcs f) [] true = .ok c) (h0 : c.lanes = 0) :
    cbWave f rel c0 act = .ok (c.retire c.W f.bnd) := by
  have hb : (!uniOrZ f.a || !(immFlag f.var || uniOrZ f.b)) = false := by
    cases hi : immFlag f.var <;> simp_all
  simp only [cbWave, hb, trapIf_false, except_ok_bind, hc, h0, beq_self_eq_true, if_pos]

theorem idle_cbinit (s : State) (f : SysW) : Idle (.cbinit f) s f.g f.bnd ((f.a :: if immFlag f.var then [] else [f.b]).all uniOrZ)
    fun c => c.open (cbSrcs f) [] true :=
  idle_of_wave rfl rfl fun hl _ _ hc h0 => cbWave_idle hl hc h0

theorem idle_cbarv (s : State) (f : SysW) :
    Idle (.cbarv f) s f.g f.bnd ((f.d :: f.a :: if immFlag f.var then [] else [f.b]).all uniOrZ)
      fun c => c.open (cbSrcs f) [.one f.d] true :=
  idle_of_wave rfl rfl fun hl c0 c hc h0 => by
    obtain ⟨hd, hb, hc⟩ := open_dst hc
    obtain ⟨hl, hr⟩ : uniOrZ f.d = true ∧ (f.a :: if immFlag f.var then [] else [f.b]).all uniOrZ = true := by
      simpa only [List.all_cons, Bool.and_eq_true] using hl
    simp only [hl, hd, hb, Bool.not_true, Bool.or_self, trapIf_false, waitIf_false, except_ok_bind, cbWave_idle hr hc h0]

theorem idle_cbwait (s : State) (f : SysW) : Idle (.cbwait f) s f.g f.bnd ((f.a :: if immFlag f.var then [] else [f.b]).all uniOrZ)
    fun c => c.open (cbSrcs f) [] true :=
  idle_of_wave rfl rfl fun hl c0 c hc h0 => by
    obtain rfl := open_uniform hc
    simp only [cbWave_idle hl hc h0, h0, bne_self_eq_false, Bool.and_false, if_neg Bool.false_ne_true]

theorem idle_qclose (s : State) (f : SysW) : Idle (.qclose f) s f.g f.bnd true .ok :=
  idle_of_wave rfl rfl fun _ _ _ hc h0 => by
    cases hc
    simp [h0]

end Sys2Proof.Machine

namespace Sys2Proof.Claims
open Sys2Proof Sys2Proof.Machine

/-- Settles O10: a word whose one source is mb opens by `takePops`, which waits on an empty mailbox and else takes its head. -/
theorem receiveTakesOldestMessage : Obligations.ReceiveTakesOldestMessage := by
  intro c hr hp
  rw [open_mb, takePops_mb hr]
  exact ⟨fun hm => by rw [hm], fun m r hm => ⟨c.receive m r, by rw [hm], rfl, fun l hl => receive_reg hp hl⟩⟩

/-- Settles O9: the order of the checks is `WCtx.open`'s and `WCtx.begin`'s, and every word of the second part opens its operands
and then, with no lane active, only retires. -/
theorem operandChecks : Obligations.OperandChecks := by
  refine ⟨begin_checks, fun s f => ?_⟩
  intro u imm idle matrix ray
  have one {a : BitVec 8} (h : u [a] = true) : (!uniOrZ a) = false := by simp_all [u]
  have two {a b : BitVec 8} (h : u [a, b] = true) : (!uniOrZ a || !uniOrZ b) = false := by simp_all [u]
  have three {a b c : BitVec 8} (h : u [a, b, c] = true) : (!uniOrZ a || !uniOrZ b || !uniOrZ c) = false := by simp_all [u]
  have four {a b c d : BitVec 8} (h : u [a, b, c, d] = true) : (!uniOrZ a || !uniOrZ b || !uniOrZ c || !uniOrZ d) = false := by
    simp_all [u]
  have block (h : (isVector f.d && uniOrZ f.b) = true) : (!isVector f.d || !uniOrZ f.b) = false := by simp_all
  have cpy : idle (.cpy f) [f.d, f.a, f.b, f.c] [if f.var = 2#4 then .one f.a else .pair f.a, .one f.b, .one f.c] [.pair f.d] true := by
    simp only [← beq_iff_eq (a := f.var)]
    exact idle_of_open rfl rfl four
  exact ⟨idle_of_open rfl rfl two, idle_of_open rfl rfl one, idle_cbinit s f, idle_cbarv s f, idle_cbwait s f,
    idle_of_open rfl rfl two, idle_of_open rfl rfl two, cpy, idle_of_open rfl rfl four, idle_of_open rfl rfl three,
    idle_of_open rfl rfl two, idle_of_open rfl rfl two, idle_of_open_only rfl rfl, idle_qclose s f,
    idle_of_open rfl rfl two, idle_of_open rfl rfl one, idle_of_open_only rfl rfl,
    idle_of_mxWord_noTile rfl rfl, idle_of_mxWord rfl rfl, idle_of_mxWord rfl rfl, idle_of_mxWord rfl rfl, idle_of_mxWord rfl rfl,
    idle_of_mxWord rfl rfl, idle_of_mxWord rfl rfl, idle_of_mxWord_noTile rfl rfl, idle_of_mxWord_noTile rfl rfl,
    idle_of_mxWord_noTile rfl rfl, idle_of_mxWord_noTile rfl rfl, idle_of_mxWord_noTile rfl rfl,
    idle_of_rayWord rfl rfl, idle_of_rayWord rfl rfl, idle_of_rayWord rfl rfl, idle_of_rayWord rfl rfl, idle_of_rayWord rfl rfl,
    idle_of_open rfl rfl block, idle_of_open rfl rfl block, idle_of_open rfl rfl two⟩

end Sys2Proof.Claims
end

