-- ==== Sys2Proof/Proofs/RegisterFrame.lean ====
section
/-! SUPPORT. What a write of registers makes of a wave, what a read returns after it, and O16. -/

namespace Sys2Proof.Machine

/-- The wave V is W but for registers and the marks some of them lose. -/
structure RegsOnly (W V : Wave) : Prop where
  rest : { W with v := V.v, s := V.s, vpoison := V.vpoison, spoison := V.spoison } = V
  vclean : ∀ k, nsHas V.vpoison k = true → nsHas W.vpoison k = true
  sclean : ∀ k, nsHas V.spoison k = true → nsHas W.spoison k = true

theorem RegsOnly.refl (W : Wave) : RegsOnly W W := ⟨rfl, fun _ h => h, fun _ h => h⟩

theorem RegsOnly.trans {U V W : Wave} (h : RegsOnly U V) (k : RegsOnly V W) : RegsOnly U W where
  rest := by rw [← k.rest, ← h.rest]
  vclean := fun i hi => h.vclean i (k.vclean i hi)
  sclean := fun i hi => h.sclean i (k.sclean i hi)

/-- Beside its registers and their marks, the wave that retires after its registers were written is as it was, but for its slices and
WCLOCK (R50). -/
theorem RegsOnly.retire {W V : Wave} (h : RegsOnly W V) (g : BitVec 8) (bnd : Bool) : let U := V.retire g bnd
    U.cause = W.cause ∧ U.wepc = W.wepc ∧ U.wtraparg = W.wtraparg ∧ U.whandler = W.whandler ∧ U.intrap = W.intrap ∧ U.cte = W.cte ∧
      U.fpctl = W.fpctl ∧ U.mbdest = W.mbdest ∧ U.p = W.p ∧ U.mbox = W.mbox ∧ U.storeQ = W.storeQ ∧ U.owc = W.owc ∧
      U.wclock = W.wclock + BitVec.ofNat 64 (slicesOf g).length := by
  rw [← h.rest]
  exact ⟨rfl, rfl, rfl, rfl, rfl, rfl, rfl, rfl, rfl, rfl, rfl, rfl, rfl⟩

theorem RegsOnly.foldl {α : Type} {f : Wave → α → Wave} (hf : ∀ W x, RegsOnly W (f W x)) (l : List α) (W : Wave) :
    RegsOnly W (l.foldl f W) := by
  induction l generalizing W with
  | nil => exact .refl W
  | cons x l ih => exact (hf W x).trans (ih _)

theorem putReg_regsOnly (W : Wave) (code : BitVec 8) (lane x : Nat) : RegsOnly W (W.putReg code lane x) := by
  unfold Wave.putReg
  split
  · exact ⟨rfl, fun k h => by simp [Wave.putV] at h; exact h.2, fun _ h => h⟩
  · exact ⟨rfl, fun _ h => h, fun k h => by simp [Wave.putS] at h; exact h.2⟩
  · exact .refl W

theorem putRegs_regsOnly (W : Wave) (code : BitVec 8) (n lane x : Nat) : RegsOnly W (W.putRegs code n lane x) :=
  .foldl (fun W _ => putReg_regsOnly W _ _ _) _ W

/-! Operand codes (R32). -/

theorem opndOf_v {c : BitVec 8} {k : Nat} : opndOf c = .v k ↔ c.toNat = k ∧ k < 0xC0 := by
  simp only [opndOf]
  split_ifs <;> simp <;> omega

theorem opndOf_s {c : BitVec 8} {k : Nat} : opndOf c = .s k ↔ c.toNat = 0xC0 + k ∧ k < 0x38 := by
  simp only [opndOf]
  split_ifs <;> simp <;> omega

theorem isVector_iff {c : BitVec 8} : isVector c = true ↔ ∃ k, opndOf c = .v k := by
  unfold isVector
  split <;> simp_all

theorem isUniform_iff {c : BitVec 8} : isUniform c = true ↔ ∃ k, opndOf c = .s k := by
  unfold isUniform
  split <;> simp_all

theorem isUniform_of_isVector {c : BitVec 8} (h : isVector c = true) : isUniform c = false := by
  obtain ⟨k, hk⟩ := isVector_iff.mp h
  simp [isUniform, hk]

/-- A register block inside the registers of its kind (R33). -/
def Block (d : BitVec 8) (n : Nat) : Prop := (∃ k, opndOf d = .v k ∧ k + n ≤ 0xC0) ∨ ∃ k, opndOf d = .s k ∧ k + n ≤ 0x38

theorem opndOf_codeAt_v {d : BitVec 8} {k i : Nat} (h : opndOf d = .v k) (hi : k + i < 0xC0) : opndOf (codeAt d i) = .v (k + i) := by
  simp only [codeAt, h, opndOf_v, BitVec.toNat_ofNat]
  omega

theorem opndOf_codeAt_s {d : BitVec 8} {k i : Nat} (h : opndOf d = .s k) (hi : k + i < 0x38) : opndOf (codeAt d i) = .s (k + i) := by
  simp only [codeAt, h, opndOf_s, BitVec.toNat_ofNat]
  omega

theorem opndOf_inj_v {c d : BitVec 8} {k : Nat} (h : opndOf c = .v k) : opndOf d = .v k ↔ c = d := by
  rw [opndOf_v] at h ⊢
  rw [← BitVec.toNat_inj]
  omega

theorem opndOf_inj_s {c d : BitVec 8} {k : Nat} (h : opndOf c = .s k) : opndOf d = .s k ↔ c = d := by
  rw [opndOf_s] at h ⊢
  rw [← BitVec.toNat_inj]
  omega

/-- The registers of a block are of its kind, and distinct. -/
theorem codeAt_block {d : BitVec 8} {n : Nat} (h : Block d n) {i : Nat} (hi : i < n) :
    isVector (codeAt d i) = isVector d ∧ isUniform (codeAt d i) = isUniform d ∧ ∀ j, j < n → codeAt d i = codeAt d j → i = j := by
  rcases h with ⟨k, hk, hn⟩ | ⟨k, hk, hn⟩
  · have at_ {j : Nat} (hj : j < n) := opndOf_codeAt_v hk (i := j) (by omega)
    refine ⟨by simp [isVector, at_ hi, hk], by simp [isUniform, at_ hi, hk], fun j hj he => ?_⟩
    have := at_ hi
    rw [he, at_ hj] at this
    injection this
    omega
  · have at_ {j : Nat} (hj : j < n) := opndOf_codeAt_s hk (i := j) (by omega)
    refine ⟨by simp [isVector, at_ hi, hk], by simp [isUniform, at_ hi, hk], fun j hj he => ?_⟩
    have := at_ hi
    rw [he, at_ hj] at this
    injection this
    omega

/-! Reading a register after registers were written. -/

/-- Whether a write of register d in one lane is a write of what `code` names in lane l. -/
def Hits (d : BitVec 8) (lane : Nat) (code : BitVec 8) (l : Nat) : Prop :=
  code = d ∧ (isVector d = true ∧ l = lane ∨ isUniform d = true)

/-- A uniform register reads the same in every lane (R32). -/
theorem reg_uniform {c : WCtx} {code : BitVec 8} (h : isUniform code = true) (l l' : Nat) : c.reg code l = c.reg code l' := by
  obtain ⟨k, hk⟩ := isUniform_iff.mp h
  simp only [WCtx.reg, hk]

theorem reg_putReg_hit {c : WCtx} {W : Wave} {d code : BitVec 8} {x lane l : Nat} (h : Hits d lane code l) :
    ({ c with W := W.putReg d lane x }).reg code l = x % 2 ^ 32 := by
  obtain ⟨rfl, ⟨hv, rfl⟩ | hu⟩ := h
  · obtain ⟨k, hk⟩ := isVector_iff.mp hv
    simp [WCtx.reg, Wave.putReg, Wave.putV, hk]
  · obtain ⟨k, hk⟩ := isUniform_iff.mp hu
    simp [WCtx.reg, Wave.putReg, Wave.putS, hk]

theorem reg_putReg_miss {c : WCtx} {W : Wave} {d code : BitVec 8} {x lane l : Nat} (hl : l < 32) (hlane : lane < 32)
    (h : ¬ Hits d lane code l) : ({ c with W := W.putReg d lane x }).reg code l = ({ c with W := W }).reg code l := by
  cases hd : opndOf d with
  | v n =>
    cases hc : opndOf code with
    | v m =>
      have hne : 32 * m + l ≠ 32 * n + lane := fun he => h
        ⟨(opndOf_inj_v hc).mp (by rw [hd]; congr 1; omega), .inl ⟨isVector_iff.mpr ⟨n, hd⟩, by omega⟩⟩
      simp [WCtx.reg, Wave.putReg, Wave.putV, hd, hc, smGetD_smPut_ne _ _ _ hne]
    | _ => simp [WCtx.reg, Wave.putReg, Wave.putV, hd, hc]
  | s n =>
    cases hc : opndOf code with
    | s m =>
      have hne : m ≠ n := fun he => h ⟨(opndOf_inj_s hc).mp (by rw [hd, he]), .inr (isUniform_iff.mpr ⟨n, hd⟩)⟩
      simp [WCtx.reg, Wave.putReg, Wave.putS, hd, hc, smGetD_smPut_ne _ _ _ hne]
    | _ => simp [WCtx.reg, Wave.putReg, Wave.putS, hd, hc]
  | _ => simp [Wave.putReg, hd]

theorem putRegs_succ (W : Wave) (d : BitVec 8) (n lane x : Nat) :
    W.putRegs d (n + 1) lane x = (W.putRegs d n lane x).putReg (codeAt d n) lane (x / 2 ^ (32 * n)) := by
  simp [Wave.putRegs, List.range_succ]

theorem reg_putRegs_miss {c : WCtx} {d code : BitVec 8} {n x lane l : Nat} (hl : l < 32) (hlane : lane < 32)
    (h : ∀ i, i < n → ¬ Hits (codeAt d i) lane code l) (W : Wave) :
    ({ c with W := W.putRegs d n lane x }).reg code l = ({ c with W := W }).reg code l := by
  induction n with
  | zero => rfl
  | succ n ih =>
    rw [putRegs_succ, reg_putReg_miss hl hlane (h n n.lt_succ_self), ih fun i hi => h i (hi.trans n.lt_succ_self)]

/-- Register i of a block holds digit i of what was written (R33). -/
theorem reg_putRegs_hit {c : WCtx} {d : BitVec 8} {n x lane l i : Nat} (hb : Block d n) (hl : l < 32) (hlane : lane < 32) (hi : i < n)
    (h : isVector d = true ∧ l = lane ∨ isUniform d = true) (W : Wave) :
    ({ c with W := W.putRegs d n lane x }).reg (codeAt d i) l = x / 2 ^ (32 * i) % 2 ^ 32 := by
  obtain ⟨hv, hu, hinj⟩ := codeAt_block hb hi
  suffices key : ∀ m, m ≤ n → i < m → ({ c with W := W.putRegs d m lane x }).reg (codeAt d i) l = x / 2 ^ (32 * i) % 2 ^ 32 from
    key n le_rfl hi
  intro m hm him
  induction m with
  | zero => omega
  | succ m ih =>
    rw [putRegs_succ]
    by_cases he : i = m
    · subst he
      exact reg_putReg_hit ⟨rfl, by rwa [hv, hu]⟩
    · rw [reg_putReg_miss hl hlane fun hh => he (hinj m (by omega) hh.1)]
      exact ih (by omega) (by omega)

/-- The wave after a value was written in each of several lanes (R134). -/
def Wave.putLanes (W : Wave) (d : BitVec 8) (n : Nat) (vals : Nat → Nat) (ls : List Nat) : Wave :=
  ls.foldl (fun W l => W.putRegs d n l (vals l)) W

theorem putLanes_regsOnly (W : Wave) (d : BitVec 8) (n : Nat) (vals : Nat → Nat) (ls : List Nat) :
    RegsOnly W (W.putLanes d n vals ls) := .foldl (fun W _ => putRegs_regsOnly W _ _ _ _) ls W

theorem reg_putLanes_miss {c : WCtx} {d code : BitVec 8} {n l : Nat} {vals : Nat → Nat} {ls : List Nat} (hl : l < 32)
    (hls : ∀ k ∈ ls, k < 32) (h : ∀ k ∈ ls, ∀ i, i < n → ¬ Hits (codeAt d i) k code l) (W : Wave) :
    ({ c with W := W.putLanes d n vals ls }).reg code l = ({ c with W := W }).reg code l := by
  induction ls generalizing W with
  | nil => rfl
  | cons k ls ih =>
    simp only [List.forall_mem_cons] at hls h
    exact (ih hls.2 h.2 _).trans (reg_putRegs_miss hl hls.1 h.1 W)

theorem reg_putLanes_hit {c : WCtx} {d : BitVec 8} {n l i : Nat} {vals : Nat → Nat} {ls : List Nat} (hb : Block d n) (hi : i < n)
    (hv : isVector d = true) (hls : ∀ k ∈ ls, k < 32) (hnd : ls.Nodup) (hl : l ∈ ls) (W : Wave) :
    ({ c with W := W.putLanes d n vals ls }).reg (codeAt d i) l = vals l / 2 ^ (32 * i) % 2 ^ 32 := by
  have hu := isUniform_of_isVector hv
  induction ls generalizing W with
  | nil => cases hl
  | cons k ls ih =>
    rw [List.forall_mem_cons] at hls
    obtain ⟨hk, hnd⟩ := List.nodup_cons.mp hnd
    rcases List.mem_cons.mp hl with rfl | hl
    · refine (reg_putLanes_miss hls.1 hls.2 (fun j hj m hm hh => ?_) _).trans (reg_putRegs_hit hb hls.1 hls.1 hi (.inl ⟨hv, rfl⟩) W)
      obtain ⟨-, huni, -⟩ := codeAt_block hb hm
      rcases hh.2 with ⟨-, rfl⟩ | h
      · exact hk hj
      · rw [huni, hu] at h
        cases h
    · exact ih hls.2 hnd hl _

/-! The end of a word that writes its result (R38, R50, R134). -/

/-- The lanes a result is written in: on the uniform datapath the lowest active one (R35). -/
def resultLanes (c : WCtx) (d : BitVec 8) : List Nat := if isUniform d then (lanesOf c.lanes).take 1 else lanesOf c.lanes

theorem mem_resultLanes {c : WCtx} {d : BitVec 8} {l : Nat} (h : l ∈ resultLanes c d) : c.lanes.getLsbD l = true := by
  unfold resultLanes at h
  split at h
  · exact (mem_lanesOf _ _).mp (List.mem_of_mem_take h)
  · exact (mem_lanesOf _ _).mp h

theorem lanesOf_eq_nil {m : LaneMask} : lanesOf m = [] ↔ m = 0 := by
  refine ⟨fun h => BitVec.eq_of_getLsbD_eq fun l _ => ?_, fun h => by subst h; rfl⟩
  have h0 : (0 : LaneMask).getLsbD l = false := by simp
  rw [h0]
  exact Bool.eq_false_of_not_eq_true fun hl => by simpa [h] using (mem_lanesOf m l).mpr hl

theorem take_lanesOf {m : LaneMask} (h : m ≠ 0) : (lanesOf m).take 1 = [lowLane m] := by
  obtain ⟨l, ls, hl⟩ := List.exists_cons_of_ne_nil (mt lanesOf_eq_nil.mp h)
  simp [lowLane, hl]

theorem lowLane_lt (m : LaneMask) : lowLane m < 32 := by
  unfold lowLane
  cases h : (lanesOf m).head? with
  | none => decide
  | some l => exact lt_of_getLsbD_lane ((mem_lanesOf m l).mp (List.mem_of_head? h))

theorem finish_eq {c : WCtx} (bnd : Bool) {d : BitVec 8} (n : Nat) (vals : Nat → Nat) (h : d = 0xFE#8 → c.lanes = 0) :
    c.finish bnd d n vals = c.retire (c.W.putLanes d n vals (resultLanes c d)) bnd := by
  have hm : (some d == some 0xFE#8 && c.lanes != 0) = false := by
    by_cases hd : d = 0xFE#8
    · simp [h hd]
    · simp [hd]
  simp only [WCtx.finish, WCtx.done, hm, if_neg Bool.false_ne_true]
  rfl

/-- With no lane active a result goes nowhere (R35). -/
theorem finish_idle {c : WCtx} (bnd : Bool) (d : BitVec 8) (n : Nat) (vals : Nat → Nat) (h : c.lanes = 0) :
    c.finish bnd d n vals = c.retire c.W bnd := by
  have hl : resultLanes c d = [] := List.eq_nil_iff_forall_not_mem.mpr fun l hl => by simpa [h] using mem_resultLanes hl
  rw [finish_eq bnd n vals fun _ => h, hl]
  rfl

theorem block_of_dstOk {d : BitVec 8} {n : Nat} (hn : n = 1 ∨ n = 2 ∨ n = 4) (h : (Regs.ofW d n).dstOk 192 = true)
    (hd : isVector d = true ∨ isUniform d = true) : Block d n := by
  have hr : (Regs.ofW d n).code = d ∧ (Regs.ofW d n).n = n := by rcases hn with rfl | rfl | rfl <;> exact ⟨rfl, rfl⟩
  unfold Regs.dstOk at h
  rw [hr.1, hr.2] at h
  rcases hd with hd | hd
  · obtain ⟨k, hk⟩ := isVector_iff.mp hd
    simp only [hk, Bool.and_eq_true, decide_eq_true_eq] at h
    exact .inl ⟨k, hk, h.1⟩
  · obtain ⟨k, hk⟩ := isUniform_iff.mp hd
    simp only [hk, Bool.and_eq_true, decide_eq_true_eq] at h
    exact .inr ⟨k, hk, h.1⟩

/-- What names neither a register of the result nor a lane it is written in reads as before (R36). -/
theorem reg_result_frame {c : WCtx} {d code : BitVec 8} {n l : Nat} (vals : Nat → Nat) (hl : l < 32)
    (h : (∀ i, i < n → code ≠ codeAt d i) ∨ isVector d = true ∧ c.lanes.getLsbD l = false ∨ c.lanes = 0 ∨ d = 0xF8#8)
    (hb : isVector d = true → Block d n) :
    ({ c with W := c.W.putLanes d n vals (resultLanes c d) }).reg code l = c.reg code l := by
  refine reg_putLanes_miss hl (fun k hk => lt_of_getLsbD_lane (mem_resultLanes hk)) (fun k hk i hi hh => ?_) c.W
  have hk := mem_resultLanes hk
  rcases h with h | ⟨hv, h⟩ | h | rfl
  · exact h i hi hh.1
  · obtain ⟨-, hu, -⟩ := codeAt_block (hb hv) hi
    rcases hh.2 with ⟨-, rfl⟩ | h'
    · rw [h] at hk
      cases hk
    · rw [hu, isUniform_of_isVector hv] at h'
      cases h'
  · simp [h] at hk
  · have hz : isVector (codeAt 0xF8#8 i) = false ∧ isUniform (codeAt 0xF8#8 i) = false := by
      rw [show codeAt 0xF8#8 i = 0xF8#8 from rfl]
      decide
    rcases hh.2 with ⟨h', -⟩ | h'
    · rw [hz.1] at h'
      cases h'
    · rw [hz.2] at h'
      cases h'

theorem reg_result_vector {c : WCtx} {d : BitVec 8} {n i l : Nat} (vals : Nat → Nat) (hb : Block d n) (hv : isVector d = true)
    (hi : i < n) (hl : c.lanes.getLsbD l = true) :
    ({ c with W := c.W.putLanes d n vals (resultLanes c d) }).reg (codeAt d i) l = vals l / 2 ^ (32 * i) % 2 ^ 32 := by
  rw [resultLanes, isUniform_of_isVector hv, if_neg Bool.false_ne_true]
  exact reg_putLanes_hit hb hi hv (fun k hk => lt_of_getLsbD_lane ((mem_lanesOf _ _).mp hk)) (lanesOf_nodup _) ((mem_lanesOf _ _).mpr hl) _

theorem reg_result_uniform {c : WCtx} {d : BitVec 8} {n i : Nat} (vals : Nat → Nat) (l : Nat) (hb : Block d n)
    (hu : isUniform d = true) (hi : i < n) (h0 : c.lanes ≠ 0) :
    ({ c with W := c.W.putLanes d n vals (resultLanes c d) }).reg (codeAt d i) l = vals (lowLane c.lanes) / 2 ^ (32 * i) % 2 ^ 32 := by
  rw [resultLanes, if_pos hu, take_lanesOf h0]
  obtain ⟨-, hu', -⟩ := codeAt_block hb hi
  rw [reg_uniform (by rw [hu', hu]) l 0]
  exact reg_putRegs_hit hb (by decide) (lowLane_lt _) hi (.inr hu) c.W

end Sys2Proof.Machine

namespace Sys2Proof.Claims
open Sys2Proof Sys2Proof.Machine

/-- Settles O16: the wave that is written back is the issuing one after its result lanes were written and its gang has retired. -/
theorem resultFrame : Obligations.ResultFrame := by
  refine ⟨fun c bnd d n vals hn hok hmb => ?_, fun c bnd d n vals h0 => finish_idle bnd d n vals h0⟩
  have hb (hd : isVector d = true ∨ isUniform d = true) : Block d n := block_of_dstOk hn hok hd
  have hr := putLanes_regsOnly c.W d n vals (resultLanes c d)
  have hframe (code : BitVec 8) (l : Nat) := reg_result_frame (c := c) (code := code) (l := l) (n := n) (d := d) vals
  have hvec (hv : isVector d = true) (i l : Nat) := reg_result_vector (c := c) (i := i) (l := l) vals (hb (.inl hv)) hv
  have huni (hu : isUniform d = true) (i l : Nat) := reg_result_uniform (c := c) (i := i) vals l (hb (.inr hu)) hu
  rw [finish_eq bnd n vals hmb]
  generalize c.W.putLanes d n vals (resultLanes c d) = X at hr hframe hvec huni ⊢
  obtain ⟨h1, h2, h3, h4, h5, h6, h7, h8, h9, h10, h11, h12, h13⟩ := hr.retire c.gang bnd
  exact ⟨X.retire c.gang bnd, rfl, rfl, rfl, h1, h2, h3, h4, h5, h6, h7, h8, h9, h10, h11, h12, h13, hr.vclean, hr.sclean,
    fun code l hl h => hframe code l hl h fun hv => hb (.inl hv), fun hv i l => hvec hv i l, fun hu h0 i l hi => huni hu i l hi h0⟩

end Sys2Proof.Claims
end

