-- ==== Sys2Proof/Proofs/EndingWords.lean ====
section
/-! SUPPORT. The words that end, park or trap their gang (R22, R180, R182, R185), and O14. -/

namespace Sys2Proof.Claims
open Sys2Proof Sys2Proof.Machine

/-- The gang that is ready is that of `cur`: its team, its wave and its slices. -/
theorem ready_cur {s : State} {t w : Nat} {gang : BitVec 8} {g : BitVec 4} {c : WCtx} (hcur : s.cur = .wave t w gang)
    (h : ready s g .ok = some c) : wctx? s t w gang g = some c ∧ c.t = t ∧ c.w = w ∧ c.gang = gang := by
  obtain ⟨t', w', gang', c0, hcur', h0, hc⟩ := ready_spec h
  cases hc
  rw [hcur] at hcur'
  injection hcur' with ht hw hg
  subst ht hw hg
  obtain ⟨-, ht, hw, hg, -⟩ := wctx?_spec h0
  exact ⟨h0, ht, hw, hg⟩

/-- Settles O14: each of the six words runs its own meaning for the gang that issues, and the two that trap retire first. -/
theorem endingWordsComplete : Obligations.EndingWordsComplete := by
  intro s t w gang c hcur counted trapped
  have issued {g : BitVec 4} (h : ready s g .ok = some c) := ready_cur hcur h
  refine ⟨fun f _ h => ?_, fun f _ h => ?_, fun f _ h hin hpark => ?_, fun f _ h => ?_, fun f _ h => ?_, fun x _ h => ?_⟩ <;>
    obtain ⟨hc, rfl, rfl, rfl⟩ := issued h
  · exact issue_wave hcur hc rfl
  · exact issue_wave hcur hc rfl
  · refine (issue_wave hcur hc rfl).trans ?_
    simp [hin, hpark, except_ok_bind]
  · refine (issue_wave hcur hc rfl).trans ?_
    simp [trapped, retireTrap, counted, beq_iff_eq]
    rfl
  · refine (issue_wave hcur hc rfl).trans ?_
    simp [trapped, retireTrap, counted, beq_iff_eq]
    rfl
  · exact issue_wave hcur hc rfl

end Sys2Proof.Claims
end


-- ==== Sys2Proof/Proofs/CsrWords.lean ====
section
/-! SUPPORT. Access to the control and status registers by a wave (R43–R46, R186, R225), and O17. -/

namespace Sys2Proof.Machine

open Sys2Proof.Claims

/-- The compute profile has no register from 0x800 (R43). -/
theorem waveCsr_lt {c : WCtx} {bnd : Bool} {num : Nat} {v : DWord} (h : waveCsr c bnd num = some v) : num < 0x800 := by
  by_contra hn
  unfold waveCsr at h
  split at h
  case h_19 => cases h
  all_goals omega

theorem csrKnown_of_lt {num : Nat} {v : DWord} : csrKnown num (some v).isSome = .ok () := by simp [csrKnown]

theorem csrKnown_privileged {num : Nat} (h : 0x800 ≤ num) (known : Bool) : csrKnown num known = .ok () := by
  simp [csrKnown, Nat.not_lt.mpr h]

theorem csrPriv_of_lt {num : Nat} (h : num < 0x800) : csrPriv num = .ok () := by simp [csrPriv, Nat.not_le.mpr h]

theorem csrPriv_trap {num : Nat} (h : 0x800 ≤ num) : csrPriv num = .error (.trap .priv (BitVec.ofNat 64 num)) := by
  simp [csrPriv, trapIf, h]

/-- A word that takes no vector register, message or reading unit opens without changing anything. -/
theorem open_uniOrZ {c d : WCtx} {code : BitVec 8} {n : Nat} {dsts : List Regs} {uni : Bool} (hc : uniOrZ code = true)
    (h : c.open [.ofW code n] dsts uni = .ok d) : d = c := by
  have key : ∀ k : BitVec 8, uniOrZ k = true → popCodes [Regs.one k] = [] := by decide
  obtain ⟨-, -, -, h⟩ := open_ok h
  have hcode : (Regs.ofW code n).code = code := by unfold Regs.ofW; split_ifs <;> rfl
  have hp : popCodes [Regs.ofW code n] = [] := by
    simp only [popCodes, List.any_cons, List.any_nil, hcode]
    exact key code hc
  rw [takePops_nil hp] at h
  exact (Except.ok.inj h).symm

/-- A word without sources opens without changing anything. -/
theorem open_sourceless {c d : WCtx} {dsts : List Regs} {uni : Bool} (h : c.open [] dsts uni = .ok d) : d = c := by
  obtain ⟨-, -, -, h⟩ := open_ok h
  exact (Except.ok.inj h).symm

/-- A word that opens its operands and checks them for poison has done both. -/
theorem checked_ok {c d : WCtx} {srcs dsts : List Regs} {uni : Bool}
    (h : (do let d ← c.open srcs dsts uni; d.checkPoison srcs; Except.ok d) = .ok d) :
    c.open srcs dsts uni = .ok d ∧ d.checkPoison srcs = .ok () := by
  obtain ⟨e, he, h⟩ := except_bind_ok.mp h
  obtain ⟨_, hp, h⟩ := except_bind_ok.mp h
  cases h
  exact ⟨he, hp⟩

/-- CSRW, CSRS and CSRC by a wave: they change the writable bits of their register (R44, R186). -/
theorem csrChange_next {i : Instr} {opc : Nat} {op : CsrOp} {f : CsrW} {s : State} {c : WCtx} {v : DWord}
    (hi : exec i s = csrChange opc op f s) (ho : computeAllows opc = true) (ha : uniOrZ f.a = true)
    (hr : ready s f.g (fun c => do
      let d ← c.open [.ofW f.a (csrRegs f.var.toNat)] [] false
      d.checkPoison [.ofW f.a (csrRegs f.var.toNat)]
      .ok d) = some c)
    (hv : waveCsr c f.bnd f.num.toNat = some v) :
    let new := csrNew op f.num.toNat f.var.toNat v (BitVec.ofNat 64 (c.regN f.a (csrRegs f.var.toNat) 0))
    (c.lanes ≠ 0 → f.num.toNat = 0x021 → mbDestOk c.s c.T new = true) →
    exec i s = .next (c.retire (if c.lanes = 0 then c.W else setWaveCsr c.W f.num.toNat new) f.bnd) := by
  intro new hnew
  refine exec_ready hi ho hr fun c0 hc => ?_
  obtain ⟨hopen, hpoison⟩ := checked_ok hc
  obtain rfl := open_uniOrZ ha hopen
  have hmb : (c.lanes != 0 && f.num.toNat == 0x021 && !mbDestOk c.s c.T new) = false := by
    by_contra hb
    simp only [Bool.not_eq_false, Bool.and_eq_true, bne_iff_ne, ne_eq, beq_iff_eq, Bool.not_eq_true'] at hb
    exact absurd (hnew hb.1.1 hb.1.2) (by simp [hb.2])
  simp only [ha, Bool.not_true, trapIf_false, except_ok_bind, hv, csrKnown_of_lt, hopen, csrPriv_of_lt (waveCsr_lt hv), Option.getD_some,
    show (c.lanes != 0 && f.num.toNat == 0x021 && !mbDestOk c.s c.T
      (csrNew op f.num.toNat f.var.toNat v (BitVec.ofNat 64 (c.regN f.a (csrRegs f.var.toNat) 0)))) = false from hmb, hpoison,
    beq_iff_eq]
  rfl

/-- A register from 0x800 traps PRIV once the operands of the word are open (R43, R423). -/
theorem privileged_trap {i : Instr} {opc : Nat} {s : State} {f : CsrW} {t w : Nat} {gang : BitVec 8} {wave : WCtx → Except Stop State}
    {ctx : KCtx → Except Stop State} {lane : Eval → Except Stop Eval} {check : WCtx → Except Stop WCtx} {arg : DWord}
    (hcur : s.cur = .wave t w gang) (hi : exec i s = issue opc f.g s wave ctx lane) (ho : computeAllows opc = true)
    (hr : (ready s f.g check).isSome = true)
    (hw : ∀ c0 c, check c0 = .ok c → wave c0 = .error (.trap .priv arg)) : exec i s = .next (takeTrap s t w gang .priv arg) := by
  obtain ⟨c, hr⟩ := Option.isSome_iff_exists.mp hr
  obtain ⟨t', w', gang', c0, hcur', h0, hc⟩ := ready_spec hr
  rw [hcur] at hcur'
  injection hcur' with ht hw' hg
  subst ht hw' hg
  rw [hi, issue_wave hcur h0 ho, hw c0 c hc, finishWave_trap]

/-- CSRW, CSRS and CSRC of a register from 0x800. -/
theorem csrChange_privileged {i : Instr} {opc : Nat} {op : CsrOp} {f : CsrW} {s : State} {t w : Nat} {gang : BitVec 8}
    (hcur : s.cur = .wave t w gang) (hi : exec i s = csrChange opc op f s) (ho : computeAllows opc = true) (ha : uniOrZ f.a = true)
    (hn : 0x800 ≤ f.num.toNat) (hr : (ready s f.g fun c => c.open [.ofW f.a (csrRegs f.var.toNat)] [] false).isSome = true) :
    exec i s = .next (takeTrap s t w gang .priv (BitVec.ofNat 64 f.num.toNat)) := by
  refine privileged_trap hcur hi ho hr fun c0 c hc => ?_
  simp only [ha, Bool.not_true, trapIf_false, except_ok_bind, csrKnown_privileged hn, hc, csrPriv_trap hn]
  rfl

/-- The bits of FPCTL that a write replaces and those it clears, and the writable bits of WEPC (R45). -/
theorem csr_masks : ∀ i < 64,
    ((0x1F7#64).getLsbD i = decide (i ≤ 2 ∨ (4 ≤ i ∧ i ≤ 8))) ∧ ((0x3E00#64).getLsbD i = decide (9 ≤ i ∧ i ≤ 13)) ∧
    ((0x7CFF_FFFF_FFFF_FFF8#64).getLsbD i = decide ((3 ≤ i ∧ i ≤ 55) ∨ (58 ≤ i ∧ i ≤ 62))) := by decide

/-- What a full write leaves of a bit, by its kind: writable, cleared by a 1, or kept (R44). -/
theorem getLsbD_csrNew_write {num : Nat} (old a : DWord) {i : Nat} (hi : i < 64) :
    (csrNew .write num 1 old a).getLsbD i =
      ((if (csrRw num).getLsbD i then a.getLsbD i else old.getLsbD i) && !((csrW1c num).getLsbD i && a.getLsbD i)) := by
  have ones : (BitVec.allOnes 64).getLsbD i = true := by rw [BitVec.getLsbD_allOnes, decide_eq_true hi]
  simp only [csrNew, show ((1 : Nat) == 2) = false from rfl, Bool.false_eq_true, if_false, BitVec.getLsbD_and, BitVec.getLsbD_or,
    BitVec.getLsbD_not, ones, hi, decide_true, Bool.true_and, Bool.and_true]
  cases (csrRw num).getLsbD i <;> simp

end Sys2Proof.Machine

namespace Sys2Proof.Claims
open Sys2Proof Sys2Proof.Machine

/-- Settles O17: the wave's words run past their checks to their effect or to PRIV, and the bits a write leaves follow the two masks
of its register. -/
theorem csrWordsComplete : Obligations.CsrWordsComplete := by
  refine ⟨fun s t w gang f hcur => ?_, fun old a i hi => ?_⟩
  · refine ⟨fun _ hd c v hr hv => ?_, fun _ ha c v hr hv => csrChange_next rfl rfl ha hr hv,
      fun _ ha c v hr hv => csrChange_next rfl rfl ha hr hv, fun _ ha c v hr hv => csrChange_next rfl rfl ha hr hv,
      fun _ hd hn hr => ?_, fun _ ha hn hr => csrChange_privileged hcur rfl rfl ha hn hr,
      fun _ ha hn hr => csrChange_privileged hcur rfl rfl ha hn hr, fun _ ha hn hr => csrChange_privileged hcur rfl rfl ha hn hr,
      fun g _ c hr hnew => ?_⟩
    · have hd : uniOrZ f.d = true := hd
      refine exec_ready rfl rfl hr fun c0 hc => ?_
      obtain rfl := open_sourceless hc
      simp only [hd, Bool.not_true, trapIf_false, except_ok_bind, hv, csrKnown_of_lt, hc, csrPriv_of_lt (waveCsr_lt hv), Option.getD_some,
        csrPart, beq_iff_eq]
    · have hd : uniOrZ f.d = true := hd
      refine privileged_trap hcur rfl rfl hr fun c0 c hc => ?_
      simp only [hd, Bool.not_true, trapIf_false, except_ok_bind, csrKnown_privileged hn, hc, csrPriv_trap hn]
      rfl
    · refine exec_ready rfl rfl hr fun c0 hc => ?_
      obtain ⟨hopen, hpoison⟩ := checked_ok hc
      obtain rfl := open_uniform hopen
      have hmb : (c.lanes != 0 && !mbDestOk c.s c.T
          (csrNew .write 0x021 0 c.W.mbdest (BitVec.ofNat 64 (c.reg g.a (lowLane c.lanes))))) = false := by
        by_contra hb
        simp only [Bool.not_eq_false, Bool.and_eq_true, bne_iff_ne, ne_eq, Bool.not_eq_true'] at hb
        exact absurd (hnew hb.1) (by simp [hb.2])
      simp only [hopen, except_ok_bind, hmb, trapIf_false, hpoison, beq_iff_eq]
  · obtain ⟨hrw, hclear, hpc⟩ := csr_masks i hi
    have hf : csrRw 0x020 = 0x1F7#64 ∧ csrW1c 0x020 = 0x3E00#64 ∧ csrRw 0x001 = 0x7CFF_FFFF_FFFF_FFF8#64 ∧ csrW1c 0x001 = 0 :=
      ⟨rfl, rfl, rfl, rfl⟩
    obtain ⟨h1, h2, h3, h4⟩ := hf
    rw [getLsbD_csrNew_write old a hi, getLsbD_csrNew_write old a hi, h1, h2, h3, h4, hrw, hclear, hpc]
    refine ⟨?_, by simp⟩
    by_cases hw : i ≤ 2 ∨ (4 ≤ i ∧ i ≤ 8)
    · have : ¬ (9 ≤ i ∧ i ≤ 13) := by omega
      simp [hw, this]
    · simp only [hw, decide_false, Bool.false_eq_true, if_false]
      by_cases hc : 9 ≤ i ∧ i ≤ 13 <;> simp [hc]

end Sys2Proof.Claims
end

