-- ==== Sys2Proof/Proofs/StepWords.lean ====
section
/-! SUPPORT. From the head of the agenda to the word it issues: the word checks, the picks of the three kinds of issuers (R14, R299,
R307), the events (R520), and O56. -/

namespace Sys2Proof.Machine

/-! The checks of a word. -/

/-- The first reserved low nibble of an opcode, by its high nibble (R118). -/
def reservedFrom (hi : Nat) : Nat := [14, 12, 16, 16, 10, 16, 12, 10, 14, 16, 15, 12, 2, 14, 0, 0].getD hi 0

theorem reservedOpc_nibbles : ∀ hi < 16, ∀ lo < 16, reservedOpc (16 * hi + lo) = decide (reservedFrom hi ≤ lo) := by decide

theorem opcOf_nibbles (w : IWord) : (opcOf w).toNat = 16 * (w.extractLsb' 58 4).toNat + (w.extractLsb' 54 4).toNat := by
  simp only [opcOf, BitVec.extractLsb'_toNat, Nat.shiftRight_eq_div_pow]
  omega

/-- A reserved opcode names no instruction (R118). -/
theorem unpackFull_reserved {w : IWord} (h : reservedOpc (opcOf w).toNat = true) : unpackFull w = none := by
  rw [opcOf_nibbles] at h
  unfold unpackFull
  have hhi : (w.extractLsb' 58 4).toNat < 16 := BitVec.isLt _
  have hlo : (w.extractLsb' 54 4).toNat < 16 := BitVec.isLt _
  generalize (w.extractLsb' 58 4).toNat = hi at *
  generalize (w.extractLsb' 54 4).toNat = lo at *
  rw [reservedOpc_nibbles hi hhi lo hlo, decide_eq_true_iff] at h
  interval_cases hi <;> simp only [reservedFrom, List.getD_cons_zero, List.getD_cons_succ] at h <;> interval_cases lo <;> rfl

/-- A word that decodes is paired or has an opcode that is not reserved, and its instruction is well formed. -/
theorem decode_spec {w : IWord} {i : Instr} (h : decode w = some i) :
    i.wf = true ∧ (!pairedBit w && reservedOpc (opcOf w).toNat) = false := by
  have hres : pairedBit w = false → reservedOpc (opcOf w).toNat = false := fun hp => by
    by_contra hr
    simp [decode, hp, unpackFull_reserved (Bool.not_eq_false _ ▸ hr)] at h
  refine ⟨?_, by cases hp : pairedBit w <;> simp [hres, hp]⟩
  unfold decode at h
  generalize (if pairedBit w then some (.pairedWord (PairW.unpack w)) else unpackFull w) = read at h
  cases read with
  | none => cases h
  | some j =>
    obtain ⟨hw, h⟩ := Option.ite_none_right_eq_some.mp h
    obtain rfl := Option.some.inj h
    exact (Bool.and_eq_true_iff.mp hw).1

/-- A word that decodes, that the profile allows and that does not overrun its run passes the checks before its own (R26, R121). -/
theorem checkWord_ok {w : IWord} {i : Instr} {allows : IWord → Bool} {last : Bool} (hd : decode w = some i) (ha : allows w = true)
    (hl : last = true → bndBit w = true) : checkWord w allows last = .ok i := by
  have hrun : (last && !bndBit w) = false := by
    cases last with
    | false => rfl
    | true => simp [hl rfl]
  simp only [checkWord, (decode_spec hd).2, ha, hd, Bool.not_true, trapIf, hrun]
  rfl

/-! Fetch (R176, R484). -/

/-- What a mapped fetch that its home performs answers: the word here, or in a line of another module that has come. -/
theorem fetchFor_perform {s : State} {g : BitVec 8} {T : Team} {va pa key gen : Nat} {sec : Bool} (who : Requester)
    {eng : Option (Nat × Bool)} (ht : teamTr s T .fetch va = .ok pa key sec gen)
    (hh : homeCheck s pa T.asid gen key sec (eng.elim false (·.2)) eng.isSome = .perform) :
    fetchFor s who g eng T va = if !remote s pa then .word (BitVec.ofNat 64 (physNum s pa 8)) s
      else if (farLine? s who pa).isSome then .word (farWord s who pa) (useFar s who pa)
      else .far (askLine s { MemReq.blank ⟨s.moduleNo, 0, 0, 0, 0⟩ who with
        gang := g, asid := T.asid, gen := gen, key := key, sec := sec, va := va, pa := pa, eng := eng }) := by
  simp only [fetchFor, ht, fetchAt, hh]
  rfl

/-- Eight bytes of this module are a word of its memory. -/
theorem farWord_local {s : State} {who : Requester} {pa : Nat} (h : ∀ i, i < 8 → remote s (pa + i) = false) :
    farWord s who pa = BitVec.ofNat 64 (physNum s pa 8) := by
  have hb : ∀ i ∈ List.range 8, (byteAt s who (pa + i)).1 = memGet s.mem (loc s (pa + i)) := fun i hi => by
    simp [byteAt, h i (List.mem_range.mp hi), physGet, List.range_succ]
  rw [farWord, List.map_congr_left hb, physNum, physGet]

/-! The picks. -/

theorem step_cons {s : State} {t : Turn} {r : List Turn} (h : s.agenda = t :: r) : step s = move t.who (beginTurn s t r) := by
  simp only [step, h]

/-- A gang whose word is fetched and passes its checks runs it. -/
theorem pickGang_run {s s3 : State} {core t w : Nat} {T : Team} {W : Wave} {g : BitVec 8} {x : IWord} {i : Instr}
    (hf : fetchFor s (.wave t w) g none T ((W.slice (lowSlice g)).pc.toNat * 8) = .word x s3)
    (hc : checkWord x computeWord (W.lastOfRun g) = .ok i) : pickGang s core t w T W g = .run i x { s3 with cur := .wave t w g } := by
  simp only [pickGang, hf, hc]

/-- An octant's core cycle comes to the gang that is next. -/
theorem pickIssue_eq {s s1 : State} {core o t w : Nat} {C : Core} {cont : Bool} {T : Team} {W : Wave} {g : BitVec 8}
    (hC : core? s core = some C) (ht : C.active = some t) (hst : (C.stopped || C.swapping) = false)
    (hslot : takeSlot s core o = some (s1, w, cont)) (hT : team? s1 t = some T) (hW : T.waves[w]? = some W)
    (hg : (if cont && W.gangReady (W.gangOf W.lastGang.toNat) then some (W.gangOf W.lastGang.toNat) else W.nextGang) = some g) :
    pickIssue s core o = pickGang s1 core t w T W g := by
  simp only [pickIssue, hC, ht, hst, hslot, hT, hW, hg, Bool.false_eq_true, if_false]

/-- A running context that nothing stops, and whose word is fetched and passes its checks, runs it (R307). -/
theorem pickContext_run {s s1 : State} {k : Nat} {X : Ctx} {T : Team} {x : IWord} {i : Instr} (hX : smGet? s.ctxs k = some X)
    (hgo : (X.st != .running || X.wait == some .order || unitStopped s X.part (ctxUnit k)) = false) (hT : ctxTeam s X = some T)
    (hf : fetchFor s (.context k) 0 (some (ctxUnit k, X.secure)) T (X.kpc.toNat * 8) = .word x s1)
    (hc : checkWord x streamWord false = .ok i) : pickContext s k = .run i x { s1 with cur := .context k } := by
  simp only [pickContext, hX, hgo, hT, hf, hc]
  rfl

/-- A context in its engine's order may issue. -/
theorem contrailOrder_mem {s : State} {e k : Nat} {X : Ctx} (h : k ∈ contrailOrder s e) (hX : smGet? s.ctxs k = some X) :
    (X.st != .running || X.wait == some .order || unitStopped s X.part (ctxUnit k)) = false := by
  have hk := (List.mem_filter.mp h).2
  simp only [hX, Option.any_some, Bool.and_eq_true, Bool.not_eq_true', beq_iff_eq, bne_iff_ne, ne_eq] at hk
  obtain ⟨⟨hst, hw⟩, hu⟩ := hk
  simp [hst, hu, hw]

/-- A lane whose word is at hand and passes its checks runs it (R299). -/
theorem pickLane_run {s : State} {k pa : Nat} {e : Eval} {P : Pass} {C : Cluster} {i : Instr} (hC : smGet? s.clusters k = some C)
    (he : laneOf s k = some e) (hP : C.passes[e.slot]? = some P) (hu : unitStopped s P.part (phUnit k) = false)
    (hpc : e.pc.toNat < e.entry.toNat + 256) (hj : judge s (passEng s P k e.slot) .fetch (e.pc.toNat * 8) = .go pa)
    (hh : atHand s (.pass k e.slot) pa 8 = true) (hc : checkWord (farWord s (.pass k e.slot) pa) callableWord false = .ok i) :
    pickLane s k = .run i (farWord s (.pass k e.slot) pa) { s with cur := .lane k } := by
  have hl : C.lane? = some e := by simpa [laneOf, hC] using he
  simp [pickLane, hC, hl, hP, hu, Nat.not_le.mpr hpc, hj, hh, pickLane.check, hc]

theorem takes_eq_false {s : State} {i : Instr} : takes s i = false ↔ asked i = true ∧ ∃ n, s.boot = .stopped n := by
  have hr : refuses s = true ↔ ∃ n, s.boot = .stopped n := by
    unfold refuses
    split
    · rename_i n hn; simp [hn]
    · rename_i hn; simpa using fun n h => hn n h
  rw [takes, Bool.not_eq_false', Bool.and_eq_true, hr, and_comm]

end Sys2Proof.Machine

namespace Sys2Proof.Claims
open Sys2Proof Sys2Proof.Machine

/-- Settles O56: for each kind of issuer the pick is the decoded word, and the step is its run. -/
theorem stepRunsDecodedWord : Obligations.StepRunsDecodedWord := by
  refine ⟨fun s h => by simp only [step, h], ?wave, ?fetch, ?context, ?lane, ?event⟩
  case wave =>
    intro s core o ch n r C t w s1 cont T W g s3 x i hag s0 hC ht hst hslot hT hW hg hf hd ha hl s2
    refine ⟨(decode_spec hd).1, ?_⟩
    rw [step_cons hag]
    show runPick (pickIssue s0 core o) = _
    rw [pickIssue_eq hC ht hst hslot hT hW hg, pickGang_run hf (checkWord_ok hd ha hl)]
    rfl
  case fetch =>
    intro s who g eng T va pa key gen sec ht hh
    rw [fetchFor_perform who ht hh]
    exact ⟨fun hr => by simp [hr], fun l hr hl => by simp [hr, hl], farWord_local⟩
  case context =>
    intro s e k ch n r rest X T s1 x i hag s0 ho hX hT hf hd hp ha s2
    have hgo := contrailOrder_mem (ho ▸ List.mem_cons_self) hX
    have hpick : pickContext s0 k = .run i x s2 :=
      pickContext_run hX hgo hT hf (checkWord_ok hd (by simp [streamWord, hp, ha]) (by simp))
    have hstep : step s = contrailTurn (k :: rest) s0 := by
      rw [step_cons hag, ← ho]
      rfl
    simp only [hstep, contrailTurn, hpick, runPick]
    refine ⟨(decode_spec hd).1, fun s' hs' => ?_, fun f hf => by rw [hf], fun q hq => by rw [hq]⟩
    simp only [hs']
    exact ⟨fun hw => by simp [hw], fun hw hrest => by simp [hw, hrest, contrailTurn], fun hw => by simp [hw]⟩
  case lane =>
    intro s k ch n r e P C pa x i hag s0 hC he hP hu hpc hj hh hx hd ha s2
    subst hx
    refine ⟨(decode_spec hd).1, ?_⟩
    rw [step_cons hag]
    show runPick (pickLane s0 k) = _
    rw [pickLane_run hC he hP hu hpc hj hh (checkWord_ok hd ha (by simp))]
    rfl
  case event =>
    intro s i ch n r hag s0
    rw [step_cons hag]
    show ((takes s0 i = true → (if takes s0 i then exec i s0 else .next s0) = _) ∧ _)
    exact ⟨fun h => by rw [if_pos h], fun h => by show (if takes s0 i then exec i s0 else .next s0) = _; simp [h], takes_eq_false⟩

end Sys2Proof.Claims
end

