-- ==== Sys2Proof/Proofs/Waking.lean ====
section
/-! SUPPORT. What waking changes (R27, R207, R228, R354, R397): waves let go on, barriers that complete, cores that list their ready
waves and lose their load caches. All of it is a change of slices and their scheduling, of ready lists, of load caches and of fills under
way; everything else of the state stands. -/

namespace Sys2Proof.Machine

/-- A wave without its slices and their scheduling. -/
def Wave.calm (W : Wave) : Wave :=
  { W with slices := [], wclock := 0, blockedAt := none, ordered := false, lastGang := 0, wpark := 0, parked := false, replay := false }

/-- A reading of a wave that its slices and their scheduling do not enter. -/
theorem Wave.same {α : Type} (f : Wave → α) {V W : Wave} (h : V.calm = W.calm)
    (hf : ∀ W, f W = f W.calm := by intro; rfl) : f V = f W := by
  rw [hf V, hf W, h]

def Team.calm (T : Team) : Team := { T with waves := T.waves.map Wave.calm }

def Core.calm (C : Core) : Core := { C with ready := [], lcache := [] }

/-- A reading of a team that its waves' scheduling does not enter. -/
theorem Team.same {α : Type} (f : Team → α) {T U : Team} (h : U.calm = T.calm)
    (hf : ∀ T, f T = f T.calm := by intro; rfl) : f U = f T := by
  rw [hf U, hf T, h]

/-- A reading of a core that its ready lists and its load cache do not enter. -/
theorem Core.same {α : Type} (f : Core → α) {C D : Core} (h : D.calm = C.calm)
    (hf : ∀ C, f C = f C.calm := by intro; rfl) : f D = f C := by
  rw [hf D, hf C, h]

def MemReq.calm (r : MemReq) : MemReq := { r with fill := false }

/-- A state without its teams, cores and requests. -/
def State.rest (s : State) : State := { s with teams := [], cores := [], reqs := [] }

/-- The second state is the first but for what waking changes. -/
structure Calm (s s' : State) : Prop where
  teams : ∀ t, (team? s' t).map Team.calm = (team? s t).map Team.calm
  cores : ∀ c, (core? s' c).map Core.calm = (core? s c).map Core.calm
  reqs : ∀ rid, (req? s' rid).map MemReq.calm = (req? s rid).map MemReq.calm
  rest : s'.rest = s.rest

section
variable {s s' s'' : State}

theorem Calm.refl (s : State) : Calm s s := ⟨fun _ => rfl, fun _ => rfl, fun _ => rfl, rfl⟩

theorem Calm.trans (h : Calm s s') (k : Calm s' s'') : Calm s s'' where
  teams t := (k.teams t).trans (h.teams t)
  cores c := (k.cores c).trans (h.cores c)
  reqs r := (k.reqs r).trans (h.reqs r)
  rest := k.rest.trans h.rest

theorem Calm.foldl {α : Type} {f : State → α → State} (hf : ∀ s x, Calm s (f s x)) (l : List α) (s : State) :
    Calm s (l.foldl f s) :=
  foldl_keeps (Calm s) f (fun s' x h => h.trans (hf s' x)) l s (Calm.refl s)

theorem some_of_map_eq {α β : Type} {g : α → β} {o o' : Option α} {x : α} (h : o'.map g = o.map g) (ho : o = some x) :
    ∃ y, o' = some y ∧ g y = g x := by
  subst ho
  exact Option.map_eq_some_iff.mp h

theorem none_of_map_eq {α β : Type} {g : α → β} {o o' : Option α} (h : o'.map g = o.map g) (ho : o = none) : o' = none := by
  subst ho
  exact Option.map_eq_none_iff.mp h

theorem Calm.team (h : Calm s s') {t : Nat} {T : Team} (hT : team? s t = some T) : ∃ T', team? s' t = some T' ∧ T'.calm = T.calm :=
  some_of_map_eq (h.teams t) hT

theorem Calm.core (h : Calm s s') {c : Nat} {C : Core} (hC : core? s c = some C) : ∃ C', core? s' c = some C' ∧ C'.calm = C.calm :=
  some_of_map_eq (h.cores c) hC

theorem Calm.req_none (h : Calm s s') {rid : Rid} (hr : req? s rid = none) : req? s' rid = none := none_of_map_eq (h.reqs rid) hr

theorem Team.calm_wave {T U : Team} (h : U.calm = T.calm) {w : Nat} {W : Wave} (hW : T.waves[w]? = some W) :
    ∃ W', U.waves[w]? = some W' ∧ W'.calm = W.calm := by
  have hw : (U.waves.map Wave.calm)[w]? = (T.waves.map Wave.calm)[w]? := congrArg (·[w]?) (congrArg Team.waves h)
  rw [List.getElem?_map, List.getElem?_map] at hw
  exact some_of_map_eq hw hW

theorem wave?_some {t w : Nat} {W : Wave} : wave? s t w = some W ↔ ∃ T, team? s t = some T ∧ T.waves[w]? = some W :=
  Option.bind_eq_some_iff

theorem Calm.wave (h : Calm s s') {t w : Nat} {W : Wave} (hW : wave? s t w = some W) :
    ∃ W', wave? s' t w = some W' ∧ W'.calm = W.calm := by
  obtain ⟨T, hT, hW⟩ := wave?_some.mp hW
  obtain ⟨T', hT', hc⟩ := h.team hT
  obtain ⟨W', hW', he⟩ := Team.calm_wave hc hW
  exact ⟨W', wave?_some.mpr ⟨T', hT', hW'⟩, he⟩

/-- What a reading of the state without its teams, cores and requests gives is the same. -/
theorem Calm.same {α : Type} {f : State → α} (hf : ∀ s, f s = f s.rest) (h : Calm s s') : f s' = f s := by rw [hf s', hf s, h.rest]

theorem Calm.mem (h : Calm s s') : s'.mem = s.mem := h.same (f := State.mem) fun _ => rfl

end

/-! The state's operations. -/

theorem team?_modTeam (s : State) (t u : Nat) (f : Team → Team) :
    team? (modTeam s t f) u = if u = t then (team? s u).map f else team? s u := smGet?_smMod ..

theorem wave?_modWave (s : State) (t w : Nat) (f : Wave → Wave) : wave? (modWave s t w f) t w = (wave? s t w).map f := by
  unfold wave? modWave
  rw [team?_modTeam, if_pos rfl]
  cases team? s t with
  | none => rfl
  | some T => simp [getElem?_modAt]

theorem calm_modTeam {f : Team → Team} (hf : ∀ T, (f T).calm = T.calm) (s : State) (t : Nat) : Calm s (modTeam s t f) where
  teams u := by
    rw [team?_modTeam]
    split
    · rw [Option.map_map]
      exact congrArg (Option.map · _) (funext hf)
    · rfl
  cores _ := rfl
  reqs _ := rfl
  rest := rfl

theorem map_modAt {α β : Type} {g : α → β} {f : α → α} (hf : ∀ x, g (f x) = g x) (l : List α) (i : Nat) :
    (modAt l i f).map g = l.map g := by
  induction l generalizing i with
  | nil => cases i <;> rfl
  | cons x r ih => cases i <;> simp [modAt, hf, ih]

theorem calm_modWave {f : Wave → Wave} (hf : ∀ W, (f W).calm = W.calm) (s : State) (t w : Nat) : Calm s (modWave s t w f) :=
  calm_modTeam (fun T => by simp only [Team.calm, map_modAt hf]) s t

theorem calm_setTeam {s : State} {t : Nat} {T U : Team} (hT : team? s t = some T) (hU : U.calm = T.calm) : Calm s (setTeam s t U) where
  teams u := by
    by_cases hu : u = t
    · rw [hu, team?_setTeam, hT]
      exact congrArg some hU
    · rw [team?_setTeam_ne s U hu]
  cores _ := rfl
  reqs _ := rfl
  rest := rfl

theorem calm_modCore {f : Core → Core} (hf : ∀ C, (f C).calm = C.calm) (s : State) (c : Nat) : Calm s (modCore s c f) where
  teams _ := rfl
  cores d := by
    show (smGet? (smMod s.cores c f) d).map Core.calm = _
    rw [smGet?_smMod]
    split
    · rw [Option.map_map]
      exact congrArg (Option.map · _) (funext hf)
    · rfl
  reqs _ := rfl
  rest := rfl

/-- A request with its fill under way dropped, or not, is found under the same identity. -/
theorem req?_map {s : State} {f : MemReq → MemReq} (hf : ∀ r, (f r).rid = r.rid) (rid : Rid) :
    req? { s with reqs := s.reqs.map f } rid = (req? s rid).map f := by
  simp only [req?, List.find?_map, Function.comp_def, hf]

theorem calm_dropLines (s : State) (c : Nat) (hit : Nat → Bool) : Calm s (dropLines s c hit) := by
  refine (calm_modCore (f := fun C => { C with lcache := C.lcache.filter fun l => !hit l.1 }) (fun _ => rfl) s c).trans ⟨fun _ => rfl,
    fun _ => rfl, fun rid => ?_, rfl⟩
  unfold dropLines
  rw [req?_map (fun r => by split <;> rfl), Option.map_map]
  exact congrArg (Option.map · _) (funext fun r => by simp only [Function.comp_apply]; split <;> rfl)

theorem calm_invalidate (s : State) (c : Nat) : Calm s (invalidate s c) := calm_dropLines ..

theorem Wave.calm_wake (W : Wave) : W.wake.calm = W.calm := rfl

theorem Wave.calm_retire (W : Wave) (g : BitVec 8) (bnd : Bool) : (W.retire g bnd).calm = W.calm := rfl

theorem Wave.calm_leaveBar (W : Wave) : W.leaveBar.calm = W.calm :=
  foldl_same Wave.calm _ (fun W g => by split <;> rfl) _ W

theorem calm_makeReady (s : State) (t w : Nat) : Calm s (makeReady s t w) := by
  unfold makeReady
  split
  · exact Calm.refl s
  · split
    · exact Calm.refl s
    · split
      · exact Calm.refl s
      · exact calm_modCore (fun C => by dsimp only; split <;> rfl) s _

theorem calm_wakeWave (s : State) (t w : Nat) : Calm s (wakeWave s t w) := by
  unfold wakeWave
  split
  · exact (calm_modWave Wave.calm_wake s t w).trans (calm_makeReady ..)
  · exact Calm.refl s

theorem calm_wakeTeam (s : State) (t : Nat) : Calm s (wakeTeam s t) := by
  unfold wakeTeam
  split
  · exact Calm.refl s
  · exact Calm.foldl (fun s w => calm_wakeWave s t w) ..

theorem calm_wakeOn (s : State) (k : Nat) : Calm s (wakeOn s k) := by
  unfold wakeOn
  exact Calm.foldl (fun s (p : Nat × Team) => calm_wakeTeam s p.1) ..

theorem calm_tryBar (s : State) (t : Nat) : Calm s (tryBar s t) := by
  unfold tryBar
  split
  · exact Calm.refl s
  · rename_i T hT
    split
    · exact Calm.refl s
    · refine (calm_setTeam hT ?_).trans (calm_wakeTeam ..)
      simp [Team.calm, Function.comp_def, Wave.calm_leaveBar]

theorem calm_retireHeld (s : State) (t w : Nat) (g : BitVec 8) (bnd : Bool) : Calm s (retireHeld s t w g bnd) :=
  (calm_modWave (fun W => W.calm_retire g bnd) s t w).trans (calm_makeReady ..)

end Sys2Proof.Machine
end

