-- ==== Sys2Proof/Proofs/Answers.lean ====
section
/-! SUPPORT. What comes back to a requester: acknowledgements and answers (R456, R458), rejected and refused requests (R352, R488), a
raise of MINGEN (R351), and O47. -/

namespace Sys2Proof.Machine

/-! Requests by identity. -/

theorem req?_rid {s : State} {rid : Rid} {r : MemReq} (h : req? s rid = some r) : r.rid = rid := by
  simpa using List.find?_some h

theorem req?_delReq (s : State) (rid : Rid) : req? (delReq s rid) rid = none := by simp [req?, delReq]

theorem req?_modReq {s : State} {rid : Rid} {f : MemReq → MemReq} (hf : ∀ r, (f r).rid = r.rid) :
    req? (modReq s rid f) rid = (req? s rid).map f := by
  unfold modReq
  rw [req?_map fun r => by split <;> simp [hf]]
  cases h : req? s rid with
  | none => rfl
  | some r => simp [req?_rid h]

/-! What wakes after an answer. -/

/-- An acknowledged write leaves the count of its wave, which tries again (R458). -/
theorem calm_owcDown_wave (s : State) (t w : Nat) :
    Calm (modWave s t w fun W => { W with owc := W.owc - 1 }) (owcDown s (.wave t w)) :=
  (calm_wakeWave ..).trans (calm_tryBar ..)

theorem wave?_owcDown {s : State} {t w : Nat} {W : Wave} (hW : wave? s t w = some W) :
    ∃ W', wave? (owcDown s (.wave t w)) t w = some W' ∧ W'.calm = { W with owc := W.owc - 1 }.calm :=
  (calm_owcDown_wave s t w).wave (by rw [wave?_modWave, hW]; rfl)

theorem calm_endAcquire (s : State) (t w : Nat) (r : MemReq) : Calm s (endAcquire s t w r) := by
  unfold endAcquire
  split
  · dsimp only
    split
    · split
      · exact Calm.refl s
      · refine Calm.trans ?_ (calm_retireHeld ..)
        split
        · exact calm_invalidate ..
        · exact Calm.refl s
    · exact Calm.refl s
  · exact Calm.refl s

/-- A gang that is not held for its acquire has none that an answer could end. -/
theorem endAcquire_free {s : State} {t w : Nat} {r : MemReq} {W : Wave} (hW : wave? s t w = some W)
    (h : (W.slice (lowSlice r.gang)).hold = .free) : endAcquire s t w r = s := by
  unfold endAcquire
  rw [hW]
  split
  · rename_i hW'
    cases hW'
    simp only [h]
  · rfl

/-- The wave as an answer leaves it: the lane that waited is written, and no register waits for the request (R27, R103). -/
def Wave.answered (W : Wave) (r : MemReq) (bs : List Byte) (psn : BitVec 8) : Wave :=
  let x := r.result bs psn
  let v := if r.kind == .read && r.size ≤ 4 then loadExt r.ty.toNat x.1 else ofBytes x.1
  { W.load (BitVec.ofNat 8 r.d) (max 1 (r.size / 4)) r.lane v x.2 with busy := W.busy.filter fun b => b.2 != .req r.rid }

/-- The line a read brings to the load cache of its core (R353). -/
def fillCore (s : State) (r : MemReq) : State :=
  match r.line, Rid.core r.rid with
  | some l, some c => if r.fill then modCore s c fun C => C.fillLine (loc s r.pa / 128) l s.choice else s
  | _, _ => s

theorem calm_fillCore (s : State) (r : MemReq) : Calm s (fillCore s r) := by
  unfold fillCore
  split
  · split
    · exact calm_modCore (f := fun C => C.fillLine _ _ _) (fun _ => rfl) ..
    · exact Calm.refl s
  · exact Calm.refl s

theorem waveAnswer_eq (s : State) (t w : Nat) (r : MemReq) (bs : List Byte) (psn : BitVec 8) : waveAnswer s t w r bs psn =
    let s2 := fillCore (modWave (delReq s r.rid) t w fun W => W.answered r bs psn) r
    endAcquire (wakeWave (if r.counts then owcDown s2 r.who else s2) t w) t w r := rfl

/-- What an answer leaves of its wave: the wave answered, but for OWC and what waking changes. -/
theorem wave?_waveAnswer {s : State} {t w : Nat} {r : MemReq} {W : Wave} (bs : List Byte) (psn : BitVec 8) (hwho : r.who = .wave t w)
    (hW : wave? s t w = some W) : (waveAnswer s t w r bs psn).mem = s.mem ∧
    ∃ W' owc, wave? (waveAnswer s t w r bs psn) t w = some W' ∧ W'.calm = { W.answered r bs psn with owc := owc }.calm := by
  rw [waveAnswer_eq]
  dsimp only
  have hfill := calm_fillCore (modWave (delReq s r.rid) t w fun W => W.answered r bs psn) r
  generalize fillCore (modWave (delReq s r.rid) t w fun W => W.answered r bs psn) r = s2 at hfill
  have hW1 : wave? (modWave (delReq s r.rid) t w fun W => W.answered r bs psn) t w = some (W.answered r bs psn) := by
    rw [wave?_modWave, show wave? (delReq s r.rid) t w = some W from hW]
    rfl
  obtain ⟨W2, hW2, hc2⟩ := hfill.wave hW1
  have hend (s : State) : Calm s (endAcquire (wakeWave s t w) t w r) := (calm_wakeWave ..).trans (calm_endAcquire ..)
  cases r.counts with
  | false =>
    obtain ⟨W', hW', hc⟩ := (hend s2).wave hW2
    exact ⟨(hend s2).mem.trans hfill.mem, W', _, hW', hc.trans hc2⟩
  | true =>
    rw [if_pos rfl, hwho]
    obtain ⟨W3, hW3, hc3⟩ := wave?_owcDown hW2
    obtain ⟨W', hW', hc⟩ := (hend (owcDown s2 (.wave t w))).wave hW3
    refine ⟨(hend _).mem.trans ((calm_owcDown_wave s2 t w).mem.trans hfill.mem), W', W2.owc - 1, hW', hc.trans (hc3.trans ?_)⟩
    exact congrArg (fun V : Wave => { V with owc := W2.owc - 1 }) hc2

/-! A line of another module (R484). -/

theorem farLine?_lineAnswer (s : State) (r : MemReq) (bs : List Byte) (psn : BitVec 8) :
    farLine? (lineAnswer s r bs psn) r.who r.pa = some ⟨r.who, loc s r.pa / 128, bs, psn⟩ ∧ (lineAnswer s r bs psn).mem = s.mem := by
  have kept : ∀ s1 : State, s1.far = (s.far.filter fun l => !(l.who == r.who && l.line == loc s r.pa / 128)) ++
      [⟨r.who, loc s r.pa / 128, bs, psn⟩] → loc s1 r.pa = loc s r.pa →
      farLine? s1 r.who r.pa = some ⟨r.who, loc s r.pa / 128, bs, psn⟩ := fun s1 hf hl => by
    rw [farLine?, hf, hl, List.find?_append, List.find?_eq_none.mpr fun x hx => by
      rw [Bool.not_eq_true, ← Bool.not_eq_true']
      exact (List.mem_filter.mp hx).2]
    simp
  unfold lineAnswer
  split
  · rename_i t w hwho
    have hc := calm_wakeWave { delReq s r.rid with far := (s.far.filter fun l => !(l.who == r.who && l.line == loc s r.pa / 128)) ++
      [⟨r.who, loc s r.pa / 128, bs, psn⟩] } t w
    exact ⟨(hc.same (f := fun s => farLine? s r.who r.pa) fun _ => rfl).trans (kept _ rfl rfl), hc.mem⟩
  · exact ⟨kept _ rfl rfl, rfl⟩

/-! A rejected request (R352). -/

@[simp] theorem resolveVa_reqs (s : State) (t va : Nat) (a : Acc) : (resolveVa s t va a).1.reqs = s.reqs := by
  unfold resolveVa
  dsimp only
  (repeat' split) <;> rfl

/-- A request with its new translation, on its way again. -/
def MemReq.again (pa key gen : Nat) (sec : Bool) (r : MemReq) : MemReq :=
  { r with pa := pa, key := key, sec := sec, gen := gen, st := .flight, sent := false }

theorem MemReq.again_rid (pa key gen : Nat) (sec : Bool) (r : MemReq) : (r.again pa key gen sec).rid = r.rid := rfl

/-- A request whose new translation permits the access is sent again under its own identity. -/
theorem resolveReq_again {s s1 : State} {r : MemReq} {t pa key gen : Nat} {sec : Bool} {T : Team}
    (ht : requesterTeam s r.who = some t) (hr : resolveVa s t r.va r.access = (s1, .ok)) (hT : team? s1 t = some T)
    (htr : teamTr s1 T r.access r.va = .ok pa key sec gen) : resolveReq s r =
      modReq s1 r.rid (MemReq.again pa key gen sec) := by
  simp only [resolveReq, ht, hr, hT, htr]
  rfl

/-! A refused request (R488). -/

theorem smGet?_modCtx {s : State} {x : Nat} {X : Ctx} (f : Ctx → Ctx) (hX : smGet? s.ctxs x = some X) :
    smGet? (modCtx s x f).ctxs x = some (f X) := smGet?_smMod_of_some f hX

theorem ctxRefused_spec {s : State} {x : Nat} {X : Ctx} (r : MemReq) (hX : smGet? s.ctxs x = some X) :
    let on : Prop := (X.st = .running ∨ X.st = .parked ∨ X.st = .stopping) ∧ r.gang = 0
    (ctxRefused s x r).mem = s.mem ∧ (ctxRefused s x r).reqs = (delReq s r.rid).reqs ∧
    ∃ X', smGet? (ctxRefused s x r).ctxs x = some X' ∧ (on → X'.st = .faulting ∧ X'.kcause = 0x0A#8 ∧ X'.faultVa = r.va) ∧
      (¬ on → X'.st = X.st ∧ X'.kcause = X.kcause ∧ X'.faultVa = X.faultVa) := by
  intro on
  have hon : ((smGet? s.ctxs x).any (fun X => X.st == .running || X.st == .parked || X.st == .stopping) && r.gang == 0) = true ↔ on := by
    simp [hX, on, or_assoc]
  unfold ctxRefused
  dsimp only
  split
  · rename_i h
    refine ⟨rfl, rfl, _, smGet?_modCtx (s := modCtx (delReq s r.rid) x _) _ (smGet?_modCtx (s := delReq s r.rid) _ hX),
      fun _ => ⟨rfl, rfl, rfl⟩, fun hn => absurd (hon.mp h) hn⟩
  · rename_i h
    exact ⟨rfl, rfl, _, smGet?_modCtx (s := delReq s r.rid) _ hX, fun ho => absurd (hon.mpr ho) h, fun _ => ⟨rfl, rfl, rfl⟩⟩

/-- The slices of a wave none of which is held. -/
theorem Wave.slice_free {W : Wave} (h : ∀ sl ∈ W.slices, sl.hold = .free) (i : Nat) : (W.slice i).hold = .free := by
  unfold Wave.slice
  rw [List.getD_eq_getElem?_getD]
  cases hi : W.slices[i]? with
  | none => rfl
  | some sl => exact h sl (List.mem_of_getElem? hi)

theorem Wave.atBoundary_free {W : Wave} (h : ∀ sl ∈ W.slices, sl.hold = .free) (g : BitVec 8) : atBoundary W g = true :=
  List.all_eq_true.mpr fun i _ => by rw [W.slice_free h]

theorem Wave.refusedGang_some {W : Wave} {g : BitVec 8} (h : ∃ i, i < 8 ∧ g.getLsbD i = true ∧ (W.slice i).live = true) :
    ∃ g', refusedGang W g = some g' := by
  obtain ⟨i, _, hg, hl⟩ := h
  cases hf : (slicesOf g).find? fun i => (W.slice i).live with
  | none => exact absurd hl (List.find?_eq_none.mp hf i ((mem_slicesOf g i).mpr hg))
  | some j => exact ⟨W.gangOf j, by simp [refusedGang, hf]⟩

/-- The trap of a refusal at a wave that may enter its handler, once the wave is listed again (R181, R488). -/
theorem wave?_deferredTrap {s : State} {t w : Nat} {W : Wave} (g : BitVec 8) (arg epc : DWord) (deferred : Bool)
    (hW : wave? s t w = some W) (hh : W.whandler.getLsbD 0 = true) (hi : W.intrap = false) :
    let s' := makeReady (takeTrapAt s t w g 0x0A arg epc deferred) t w
    s'.mem = s.mem ∧ ∃ W', wave? s' t w = some W' ∧ W'.calm = (W.enter g 0x0A arg epc deferred).calm := by
  obtain ⟨T, hT, hTw⟩ := wave?_some.mp hW
  rw [takeTrapAt_handler g 0x0A arg epc deferred hT hTw hh hi]
  have hw : wave? (setTeam s t (T.setWave w (W.enter g 0x0A arg epc deferred))) t w = some (W.enter g 0x0A arg epc deferred) := by
    rw [wave?, team?_setTeam, Option.bind_some, setWave_getElem?, if_pos rfl, hTw]
    rfl
  exact ⟨by simp, (calm_makeReady ..).wave hw⟩

/-- A wave that no longer waits for a request. -/
def Wave.heard (W : Wave) (r : MemReq) : Wave := { W with busy := W.busy.filter fun b => b.2 != .req r.rid }

/-- A refused read of a wave none of whose slices is held traps the gang of its lowest live slice (R488). -/
theorem exec_deferredPerm {s : State} {t w : Nat} {r : MemReq} {W : Wave} {g : BitVec 8}
    (hr : s.reqs.find? (fun r => r.who == .wave t w && r.st == .refused) = some r) (hk : r.kind = .read) (hW : wave? s t w = some W)
    (hfree : ∀ sl ∈ W.slices, sl.hold = .free) (hpark : W.parked = false) (hi : W.intrap = false)
    (hg : refusedGang W r.gang = some g) : exec (.deferredPerm t w) s =
      .next (makeReady (takeTrapAt (modWave (modWave (delReq s r.rid) t w (Wave.heard · r)) t w fun W => W.holdGang g .free) t w g 0x0A
        (BitVec.ofNat 64 r.va) ((W.heard r).epcAt g) (r.size != 128)) t w) := by
  have hW1 : wave? (modWave (delReq s r.rid) t w (Wave.heard · r)) t w = some (W.heard r) := by
    rw [wave?_modWave, show wave? (delReq s r.rid) t w = some W from hW]
    rfl
  have hcount : r.counts = false := by simp [MemReq.counts, hk]
  have hgo : (atBoundary (W.heard r) g && !(W.heard r).parked && (!(W.heard r).intrap || g &&& ~~~(W.heard r).trapGang == 0)) = true := by
    rw [show atBoundary (W.heard r) g = true from Wave.atBoundary_free (W := W.heard r) hfree g, show (W.heard r).parked = false from hpark,
      show (W.heard r).intrap = false from hi]
    rfl
  have hend : endAcquire (modWave (delReq s r.rid) t w (Wave.heard · r)) t w r = modWave (delReq s r.rid) t w (Wave.heard · r) :=
    endAcquire_free hW1 (W.slice_free hfree _)
  show finishEvent s (need _ >>= fun r => _) = _
  rw [finishEvent_need hr]
  simp only [hcount, Bool.false_eq_true, if_false]
  show finishEvent s (need (wave? (endAcquire (modWave (delReq s r.rid) t w (Wave.heard · r)) t w r) t w) >>= fun W => _) = _
  rw [hend, finishEvent_need hW1]
  rw [show refusedGang (W.heard r) r.gang = some g from hg]
  show finishEvent s (needs _ >>= fun _ => _) = _
  rw [finishEvent_needs hgo, finishEvent_ok, ← hend]
  rfl

/-! MINGEN (R351). -/

/-- A partition without the commands that wait for a raise of one address space. -/
def Part.raised (asid : Nat) (P : Part) : Part := { P with pend := P.pend.filter fun q => !q.ofAsid asid }

theorem Part.raised_pend (asid : Nat) (P : Part) : (P.raised asid).pend.any (Pending.ofAsid asid) = false := by
  simp [Part.raised]

theorem Part.raised_raised (asid : Nat) (P : Part) : (P.raised asid).raised asid = P.raised asid := by simp [Part.raised]

theorem mem_of_smGet? {α : Type} {m : SMap α} {k : Nat} {x : α} (h : smGet? m k = some x) : (k, x) ∈ m := by
  induction m with
  | nil => cases h
  | cons p r ih =>
    unfold smGet? at h
    split at h
    · rename_i hk
      rw [beq_iff_eq] at hk
      cases h
      subst hk
      exact List.mem_cons_self
    · exact List.mem_cons_of_mem _ (ih h)

/-- The answers of one partition's commands that waited for a raise. -/
def answerRaise (asid : Nat) (s : State) (p : Nat × Part) : State :=
  (p.2.pend.filter (Pending.ofAsid asid)).foldl (fun (s : State) (q : Pending) => match q with
    | .mingen tag port _ => answer s p.1 port tag 0
    | _ => s) (modPart s p.1 (Part.raised asid))

theorem answerRaise_frame (asid : Nat) (s : State) (p : Nat × Part) : (answerRaise asid s p).mem = s.mem ∧
    (answerRaise asid s p).asids = s.asids ∧ (answerRaise asid s p).parts = smMod s.parts p.1 (Part.raised asid) := by
  unfold answerRaise
  refine ⟨foldl_same State.mem _ (fun s q => ?_) _ _, foldl_same State.asids _ (fun s q => ?_) _ _,
    foldl_same State.parts _ (fun s q => ?_) _ _⟩ <;> cases q <;> rfl

theorem foldl_answerRaise (asid : Nat) (l : List (Nat × Part)) (s : State) : let s' := l.foldl (answerRaise asid) s
    s'.mem = s.mem ∧ s'.asids = s.asids ∧
    ∀ k, smGet? s'.parts k = if k ∈ l.map (·.1) then (smGet? s.parts k).map (Part.raised asid) else smGet? s.parts k := by
  refine ⟨foldl_same State.mem _ (fun s p => (answerRaise_frame asid s p).1) l s,
    foldl_same State.asids _ (fun s p => (answerRaise_frame asid s p).2.1) l s, fun k => ?_⟩
  induction l generalizing s with
  | nil => simp
  | cons p l ih =>
    rw [List.foldl_cons, ih, (answerRaise_frame asid s p).2.2, smGet?_smMod]
    by_cases hp : k = p.1 <;> by_cases hl : k ∈ l.map (·.1) <;> simp_all [Function.comp_def, Part.raised_raised]

theorem exec_mingenRaiseComplete {s : State} {asid k : Nat} (hr : (asidOf s asid).raising = some k) (hh : (asidOf s asid).homes = []) :
    exec (.mingenRaiseComplete asid) s = .next ((s.parts.filter fun p => p.2.pend.any (Pending.ofAsid asid)).foldl (answerRaise asid)
      { s with asids := smSet s.asids asid { asidOf s asid with raising := none } }) := by
  show finishEvent s (needs _ >>= fun _ => _) = _
  rw [finishEvent_needs (by simp [hr, hh])]
  rfl

/-! A flit of the scheduler (R351, R474). -/

theorem core?_invalidate (s : State) (c k : Nat) :
    core? (invalidate s c) k = if k = c then (core? s k).map fun C => { C with lcache := [] } else core? s k := by
  show smGet? (smMod s.cores c fun C => { C with lcache := C.lcache.filter fun _ => !true }) k = _
  rw [smGet?_smMod]
  simp only [Bool.not_true, List.filter_false]
  rfl

theorem lcache_foldl_invalidate {k : Nat} (l : List Nat) (s : State) (h : k ∈ l ∨ ∀ C, core? s k = some C → C.lcache = []) :
    ∀ C, core? (l.foldl invalidate s) k = some C → C.lcache = [] := by
  induction l generalizing s with
  | nil => exact h.resolve_left (List.not_mem_nil)
  | cons c l ih =>
    refine ih _ ?_
    by_cases hk : k = c
    · refine .inr fun C hC => ?_
      rw [core?_invalidate, if_pos hk] at hC
      obtain ⟨D, _, rfl⟩ := Option.map_eq_some_iff.mp hC
      rfl
    · rw [core?_invalidate, if_neg hk]
      exact h.imp_left fun h => (List.mem_cons.mp h).resolve_left hk

theorem calm_foldl_invalidate (l : List Nat) (s : State) : Calm s (l.foldl invalidate s) := Calm.foldl calm_invalidate l s

/-- A raise that reaches a tile is known there and nowhere else yet (R351). -/
theorem mingenAt_raiseAt (s : State) (tile asid v k : Nat) :
    mingenAt (raiseAt s tile asid v) k asid = if k = tile then v else mingenAt s k asid := by
  unfold raiseAt
  rw [(calm_foldl_invalidate _ _).same (f := fun s => mingenAt s k asid) fun _ => rfl]
  have hset (h : SMap Nat) : mingenAt { s with asids := smSet s.asids asid { asidOf s asid with homes := h } } k asid =
      (smGet? h k).getD (asidOf s asid).mingen := by
    simp only [mingenAt, asidOf, smGetD, smGet?_smSet_self, Option.getD_some]
    rfl
  refine (hset _).trans ?_
  by_cases hv : (v == (asidOf s asid).mingen) = true
  · rw [if_pos hv, smGet?_smDel]
    split
    · exact (beq_iff_eq.mp hv).symm
    · rfl
  · rw [if_neg hv, smGet?_smSet]
    split <;> rfl

/-- A raise that is the next flit to its tile, with nothing ahead of it at a gateway, arrives. -/
theorem controlMove_mingen {s : State} {n asid v : Nat} {f : CtlFlit} (hn : s.ctl[n]? = some f) (hf : f.cmd = .mingen asid v)
    (hq : ((s.ctl.take n).any fun g => g.tile == f.tile) = false) (hg : gatewayHolds s f.tile = false) :
    controlMove s n = raiseAt { s with ctl := s.ctl.eraseIdx n } f.tile asid v := by
  simp [controlMove, hn, hq, hf, hg]

end Sys2Proof.Machine

namespace Sys2Proof.Claims
open Sys2Proof Sys2Proof.Machine

/-- Settles O47: each answer is taken apart into what it does to its request and its wave or context, and what then wakes. -/
theorem answersReturn : Obligations.AnswersReturn := by
  intro s rid
  refine ⟨?ack, ?line, ?data, ?retry, ?context, ?deferred, ?raise, ?control, ?request, ?wave⟩
  case ack =>
    intro r t w W hr hnext hst hwho hW
    have hexec : exec (.ackFlit rid) s = .next (owcDown (delReq s rid) r.who) := by
      show finishEvent s (need _ >>= fun r => needs _ >>= fun _ => _) = _
      rw [finishEvent_need hr, finishEvent_needs (by simp [hst, hnext]), finishEvent_ok]
    obtain ⟨W', hW', hc⟩ := wave?_owcDown (s := delReq s rid) hW
    rw [hwho] at hexec
    have hcalm := calm_owcDown_wave (delReq s rid) t w
    exact ⟨_, W', hexec, hcalm.mem, hcalm.req_none (req?_delReq s rid), hW', (Wave.same Wave.owc hc :),
      (Wave.same Wave.v hc :), (Wave.same Wave.s hc :)⟩
  case line =>
    intro r bs psn hr hnext hst hk hsz
    obtain ⟨hfar, hmem⟩ := farLine?_lineAnswer s r bs psn
    refine ⟨_, _, ?_, hmem, hfar, rfl, rfl⟩
    show finishEvent s (need _ >>= fun r => needs _ >>= fun _ => _) = _
    rw [finishEvent_need hr, finishEvent_needs hnext, hst]
    simp [hk, hsz]
  case data =>
    intro r t w W bs psn hr hnext hst hwho hW hnot x v loaded
    obtain ⟨hmem, W', owc, hW', hc⟩ := wave?_waveAnswer bs psn hwho hW
    have hload : W.answered r bs psn = { loaded with busy := W.busy.filter fun b => b.2 != .req r.rid } := rfl
    rw [hload] at hc
    refine ⟨_, W', ?_, hmem, hW', (Wave.same Wave.v hc :), (Wave.same Wave.s hc :), (Wave.same Wave.vpoison hc :), fun b hb => ?_⟩
    · have hline : (r.kind == .read && r.size == 128) = false := by
        rw [Bool.and_eq_false_iff, beq_eq_false_iff_ne, beq_eq_false_iff_ne]
        exact hnot
      show finishEvent s (need _ >>= fun r => needs _ >>= fun _ => _) = _
      rw [finishEvent_need hr, finishEvent_needs hnext]
      simp only [hst, hline, hwho, Bool.false_eq_true, if_false, finishEvent_ok]
    · rw [show W'.busy = W.busy.filter fun b => b.2 != .req r.rid from (Wave.same Wave.busy hc :)] at hb
      simpa using (List.mem_filter.mp hb).2
  case retry =>
    intro r t s1 T pa key sec gen hr hnext hst ht hres hT htr
    have hreqs : s1.reqs = s.reqs := by rw [← resolveVa_reqs s t r.va r.access, hres]
    have hmem : s1.mem = s.mem := by rw [← resolveVa_mem s t r.va r.access, hres]
    refine ⟨modReq s1 rid (MemReq.again pa key gen sec), _, ?_, hmem, ?_, rfl⟩
    · show finishEvent s (need _ >>= fun r => needs _ >>= fun _ => _) = _
      rw [finishEvent_need hr, finishEvent_needs hnext]
      simp only [hst, resolveReq_again ht hres hT htr, finishEvent_ok, req?_rid hr]
    · rw [req?_modReq (MemReq.again_rid pa key gen sec), req?, hreqs, show s.reqs.find? _ = some r from hr]
      rfl
  case context =>
    intro r x X hr hnext hst hwho hX on
    obtain ⟨hmem, hreqs, X', hX', hon, hoff⟩ := ctxRefused_spec r hX
    refine ⟨_, X', ?_, hmem, ?_, hX', hon, hoff⟩
    · show finishEvent s (need _ >>= fun r => needs _ >>= fun _ => _) = _
      rw [finishEvent_need hr, finishEvent_needs hnext]
      simp only [hst, hwho, finishEvent_ok]
    · rw [req?, hreqs, req?_rid hr]
      exact req?_delReq s rid
  case deferred =>
    intro t w r T W hr hk _ hT hTw hh hi hpark hfree hlive
    have hW : wave? s t w = some W := wave?_some.mpr ⟨T, hT, hTw⟩
    obtain ⟨g, hg⟩ := W.refusedGang_some hlive
    rw [exec_deferredPerm hr hk hW hfree hpark hi hg]
    have hW1 : wave? (modWave (modWave (delReq s r.rid) t w (Wave.heard · r)) t w fun W => W.holdGang g .free) t w =
        some ((W.heard r).holdGang g .free) := by
      rw [wave?_modWave, wave?_modWave, show wave? (delReq s r.rid) t w = some W from hW]
      rfl
    obtain ⟨hmem, W', hW', hc⟩ := wave?_deferredTrap g (BitVec.ofNat 64 r.va) ((W.heard r).epcAt g) (r.size != 128) hW1 hh hi
    refine ⟨_, W', rfl, hmem, hW', (Wave.same Wave.cause hc :), (Wave.same Wave.wtraparg hc :), (Wave.same Wave.intrap hc :),
      (Wave.same Wave.defer hc :).trans ?_⟩
    show (r.size != 128) = _
    exact Bool.eq_iff_iff.mpr (by simp)
  case raise =>
    intro asid k hr
    refine ⟨fun hh => ?_, fun hh => ⟨_, exec_mingenRaiseComplete hr hh, ?_⟩⟩
    · have hno : ((asidOf s asid).raising.isSome && (asidOf s asid).homes.isEmpty) = false := by simp [hh]
      show finishEvent s (needs _ >>= fun _ => _) = _
      rw [hno]
      rfl
    · obtain ⟨hmem, hasids, hparts⟩ := foldl_answerRaise asid (s.parts.filter fun p => p.2.pend.any (Pending.ofAsid asid))
        { s with asids := smSet s.asids asid { asidOf s asid with raising := none } }
      have hasid : asidOf (List.foldl (answerRaise asid) { s with asids := smSet s.asids asid { asidOf s asid with raising := none } }
          (s.parts.filter fun p => p.2.pend.any (Pending.ofAsid asid))) asid = { asidOf s asid with raising := none } := by
        rw [asidOf, hasids]
        simp [smGetD]
      rw [hasid]
      refine ⟨hmem, rfl, rfl, rfl, fun p P' hP' => ?_⟩
      rw [hparts] at hP'
      split at hP'
      · obtain ⟨P, _, rfl⟩ := Option.map_eq_some_iff.mp hP'
        exact P.raised_pend asid
      · rename_i hp
        refine Bool.eq_false_iff.mpr fun hany => hp ?_
        exact List.mem_map.mpr ⟨(p, P'), List.mem_filter.mpr ⟨mem_of_smGet? hP', hany⟩, rfl⟩
  case control =>
    intro n f asid v hn hf hq hg
    rw [controlMove_mingen hn hf hq hg, mingenAt_raiseAt, if_pos rfl]
    refine ⟨(calm_foldl_invalidate _ _).mem, rfl, fun k hk => ?_, fun core C' hcore => ?_⟩
    · rw [mingenAt_raiseAt, if_neg hk]
      rfl
    · refine lcache_foldl_invalidate _ _ (.inl ?_) C'
      exact List.mem_map.mpr ⟨core % 8, List.mem_range.mpr (Nat.mod_lt _ (by decide)), by omega⟩
  case request =>
    intro r stamp hr hst
    show finishEvent s (need _ >>= fun r => _) = _
    rw [finishEvent_need hr]
    simp only [hst, finishEvent_ok]
  case wave =>
    intro t w s1 h
    show finishEvent s (resolveWave s t w) = _
    rw [h, finishEvent_ok]

end Sys2Proof.Claims
end

