-- ==== Sys2Proof/Proofs/Banks.lean ====
section
/-! SUPPORT. Banks, contexts and claims (R30, R31, R395, R434–R438): what the scheduler's own writes leave, swaps, the blocked team, and
the units of the spill engine. -/

namespace Sys2Proof.Machine

/-! The scheduler's writes to memory change no table of teams, cores, partitions or launches. -/

/-- The tables the scheduler works on. -/
def State.tables (s : State) : SMap Team × SMap Core × SMap Part × SMap Launch := (s.teams, s.cores, s.parts, s.launches)

section
variable {s s' : State}

theorem team?_tables (h : s'.tables = s.tables) (t : Nat) : team? s' t = team? s t := by
  show smGet? s'.tables.1 t = smGet? s.tables.1 t
  rw [h]

theorem core?_tables (h : s'.tables = s.tables) (c : Nat) : core? s' c = core? s c := by
  show smGet? s'.tables.2.1 c = smGet? s.tables.2.1 c
  rw [h]

end

theorem sendOwn_tables (s : State) (pa : Nat) (bs : List Byte) : (sendOwn s pa bs).tables = s.tables := by
  unfold sendOwn
  refine foldl_same State.tables _ (fun _ _ => ?_) _ s
  rfl

theorem ownWrite_tables (s : State) (pa : Nat) (bs : List Byte) : (ownWrite s pa bs).tables = s.tables := by
  unfold ownWrite
  split
  · rfl
  · split
    · exact sendOwn_tables ..
    · split <;> rfl

theorem putHeader_tables (s : State) (t : Nat) : (putHeader s t).tables = s.tables := by
  unfold putHeader
  split
  · rfl
  · split
    · rfl
    · exact ownWrite_tables ..

/-- A partition without the FORCE commands of one team. -/
def Part.unforced (t : Nat) (P : Part) : Part :=
  { P with pend := P.pend.filter fun q => !(match q with
      | .force _ _ u => u == t
      | _ => false) }

/-- The answers to FORCE commands change a partition's commands and the outbox. -/
theorem answerForces_tables (s : State) (p t : Nat) : (answerForces s p t).tables = s.tables ∨
    (answerForces s p t).tables = (modPart s p (Part.unforced t)).tables := by
  unfold answerForces
  split
  · exact .inl rfl
  · refine .inr (foldl_same State.tables _ (fun s q => ?_) _ _)
    cases q <;> rfl

theorem team?_answerForces (s : State) (p t u : Nat) : team? (answerForces s p t) u = team? s u := by
  obtain h | h := answerForces_tables s p t <;> exact team?_tables h u

theorem core?_answerForces (s : State) (p t c : Nat) : core? (answerForces s p t) c = core? s c := by
  obtain h | h := answerForces_tables s p t <;> exact core?_tables h c

theorem team?_modTeam_of_some {s : State} {t : Nat} {T : Team} (f : Team → Team) (hT : team? s t = some T) :
    team? (modTeam s t f) t = some (f T) := smGet?_smMod_of_some f hT

theorem team?_modTeam_ne (s : State) {t u : Nat} (f : Team → Team) (h : u ≠ t) : team? (modTeam s t f) u = team? s u :=
  smGet?_smMod_ne _ f h

/-! Bank swaps (R30, R434). -/

/-- The state in which the outgoing team is Resident and the incoming one Active. -/
def swapTeams (s : State) (C : Core) : State :=
  let s1 := match C.active with
    | some a => modTeam s a fun T => { T with st := .resident, ctxSaved := false, filled := true, forced := false }
    | none => s
  match C.shadow with
  | some b => putHeader (modTeam s1 b fun T => T.activate) b
  | none => s1

/-- The core whose banks have changed places. -/
def Core.swapped (C : Core) (lists : List (List Nat)) : Core :=
  { C with
    active := C.shadow
    shadow := C.active
    swapping := false
    ready := lists
    slot := List.replicate 8 none
    idle := C.shadow.isNone }

theorem core?_swapTeams (s : State) (C : Core) (c : Nat) : core? (swapTeams s C) c = core? s c := by
  unfold swapTeams
  cases C.active <;> cases C.shadow
  · rfl
  · exact core?_tables (putHeader_tables _ _) c
  · rfl
  · exact core?_tables (putHeader_tables _ _) c

theorem team?_swapTeams_in {s : State} {C : Core} {b : Nat} (hb : C.shadow = some b) (hne : C.active ≠ some b) {B : Team}
    (hB : team? s b = some B) : team? (swapTeams s C) b = some B.activate := by
  unfold swapTeams
  rw [hb]
  refine (team?_tables (putHeader_tables _ _) b).trans (team?_modTeam_of_some _ ?_)
  split
  · rename_i a ha
    rw [team?_modTeam_ne s _ fun h => hne (by rw [ha, h])]
    exact hB
  · exact hB

theorem team?_swapTeams_out {s : State} {C : Core} {a : Nat} (ha : C.active = some a) (hne : C.shadow ≠ some a) {A : Team}
    (hA : team? s a = some A) :
    team? (swapTeams s C) a = some { A with st := .resident, ctxSaved := false, filled := true, forced := false } := by
  have hout := team?_modTeam_of_some (fun T => { T with st := .resident, ctxSaved := false, filled := true, forced := false }) hA
  unfold swapTeams
  rw [ha]
  dsimp only
  split
  · rename_i b hb
    rw [team?_tables (putHeader_tables _ _) a, team?_modTeam_ne _ _ fun h => hne (by rw [hb, h])]
    exact hout
  · exact hout

/-- After a swap the banks have changed places, and the teams are those that were brought in and put out. -/
theorem finishSwap_frame {s : State} {core : Nat} {C : Core} (hC : core? s core = some C) :
    (∃ lists, core? (finishSwap s core) core = some (C.swapped lists)) ∧
    ∀ t, team? (finishSwap s core) t = team? (swapTeams s C) t := by
  let lists := (C.shadow.bind (team? (swapTeams s C))).elim (List.replicate 8 []) readyLists
  let s3 := modCore (swapTeams s C) core fun C => C.swapped lists
  have heq : finishSwap s core = match C.active.bind fun a => (team? s3 a).map fun T => (a, T) with
      | some (a, T) => answerForces s3 T.part a
      | none => s3 := by
    unfold finishSwap
    rw [hC]
    rfl
  have hcore : core? s3 core = some (C.swapped lists) := core?_modCore _ ((core?_swapTeams s C core).trans hC)
  rw [heq]
  split
  · exact ⟨⟨lists, (core?_answerForces ..).trans hcore⟩, fun t => team?_answerForces ..⟩
  · exact ⟨⟨lists, hcore⟩, fun _ => rfl⟩

theorem retractRays_none {s : State} {core : Nat} {C : Core} (hC : core? s core = some C) (hr : C.rays = []) (t : Nat) :
    retractRays s core t = s ∧ tracing s core t = false := by
  simp [retractRays, tracing, hC, hr]

/-- A swap with no traversal under way is made at once (R434). -/
theorem decideSwap_now {s : State} {core : Nat} {C : Core} (hC : core? s core = some C) (hr : C.active ≠ none → C.rays = []) :
    decideSwap s core C = finishSwap s core := by
  unfold decideSwap
  split
  · rfl
  · rename_i a ha
    obtain ⟨hback, hgo⟩ := retractRays_none hC (hr (by simp [ha])) a
    simp only [hback, hgo, Bool.false_eq_true, if_false]

theorem withImage_some {s : State} {C : Core} (h : ∀ a, C.active = some a → ∃ A, team? s a = some A ∧ A.image.isSome = true) :
    withImage s C = some s := by
  unfold withImage
  split
  · rfl
  · rename_i a ha
    obtain ⟨A, hA, hi⟩ := h a ha
    simp [takeImage, hA, hi]

theorem exec_bankSwap {s : State} {core : Nat} {C : Core} (hC : core? s core = some C) (hruns : coreRuns s core C = true)
    (hsw : C.swapping = false) (hdue : swapDue s core C = true) (hr : C.active ≠ none → C.rays = [])
    (himage : ∀ a, C.active = some a → ∃ A, team? s a = some A ∧ A.image.isSome = true) :
    exec (.bankSwap core) s = .next (finishSwap s core) := by
  show finishEvent s (need _ >>= fun C => _) = _
  rw [finishEvent_need hC, finishEvent_needs hruns, hsw]
  show finishEvent s (needs _ >>= fun _ => need _ >>= fun s1 => _) = _
  rw [finishEvent_needs hdue, finishEvent_need (withImage_some himage), finishEvent_ok, decideSwap_now hC hr]

theorem exec_waitSwapTimeout {s : State} {core a : Nat} {C : Core} {A : Team} (hC : core? s core = some C) (ha : C.active = some a)
    (hA : team? s a = some A) : exec (.waitSwapTimeout core) s = finishEvent s (do
      needs (coreRuns s core C && !C.swapping && A.st == .active && !A.pinned && shadowReady s C true)
      needs (teamBlocked s a A)
      let s1 ← need (withImage s C)
      .ok (decideSwap s1 core C)) := by
  show finishEvent s (need _ >>= fun C => need _ >>= fun t => need _ >>= fun A => _) = _
  rw [finishEvent_need hC, finishEvent_need ha, finishEvent_need hA]

theorem finishEvent_unmet {s : State} {b : Bool} {f : Unit → Except Stop State} (h : b = false) :
    finishEvent s (needs b >>= f) = .next s := by
  subst h
  rfl

/-! The blocked team (R31). -/

theorem all_zip_range {α : Type} (l : List α) (p : Nat × α → Bool) :
    ((List.range l.length).zip l).all p = true ↔ ∀ i x, l[i]? = some x → p (i, x) = true := by
  rw [List.all_eq_true]
  constructor
  · intro h i x hx
    refine h (i, x) (List.mem_of_getElem? (i := i) ?_)
    rw [List.getElem?_zip_eq_some]
    exact ⟨List.getElem?_range (List.getElem?_eq_some_iff.mp hx).1, hx⟩
  · intro h q hq
    obtain ⟨i, hi⟩ := List.mem_iff_getElem?.mp hq
    obtain ⟨h1, h2⟩ := List.getElem?_zip_eq_some.mp hi
    rw [List.getElem?_eq_some_iff] at h1
    obtain ⟨_, h1⟩ := h1
    rw [List.getElem_range] at h1
    exact h q.1 q.2 (h1 ▸ h2)

theorem Wave.longBlocked_iff {W : Wave} {rejected : List Rid} {now : Nat} : W.longBlocked rejected now = true ↔
    W.inLongWait rejected = true ∧ ∃ t0, W.blockedAt = some t0 ∧ t0 + W.blockTh < now := by
  simp [Wave.longBlocked, Option.any_eq_true]

theorem teamBlocked_iff {s : State} {a : Nat} {A : Team} : teamBlocked s a A = true ↔ (∃ W ∈ A.waves, W.live ≠ 0) ∧
    ∀ (w : Nat) (W : Wave), A.waves[w]? = some W →
      W.live = 0 ∨ (W.inLongWait (rejectedOf s a w) = true ∧ ∃ t0, W.blockedAt = some t0 ∧ t0 + W.blockTh < s.now) := by
  rw [teamBlocked, Bool.and_eq_true, List.any_eq_true, all_zip_range]
  simp only [bne_iff_ne, Bool.or_eq_true, beq_iff_eq, Wave.longBlocked_iff]

/-! Contexts (R435, R440). -/

theorem team?_saveContext {s : State} {t : Nat} {T : Team} (hT : team? s t = some T) (hb : (imageBase s T).isSome = true) :
    ∃ bs, team? (saveContext s t) t = some { T with ctxSaved := true, saved := bs } := by
  obtain ⟨b, hb⟩ := Option.isSome_iff_exists.mp hb
  unfold saveContext
  rw [hT]
  simp only [hb]
  refine ⟨_, (team?_tables (putHeader_tables _ _) t).trans (team?_modTeam_of_some _ ?_)⟩
  exact (team?_tables (ownWrite_tables _ _ _) t).trans hT

/-! Claims and released units (R435, R437, R438). -/

theorem getElem?_setAt_self {α : Type} {l : List α} {i : Nat} (x : α) (h : i < l.length) : (setAt l i x)[i]? = some x := by
  rw [getElem?_setAt, if_pos rfl, List.getElem?_eq_getElem h]
  rfl

theorem Team.unitSt_setUnitSt {T : Team} {tile : Bool} {i : Nat} (x : RegionSt)
    (h : if tile then i < T.tileSt.length else i < T.regSt.length) :
    (T.setUnitSt tile i x).unitSt tile i = x := by
  cases tile <;> exact congrArg (Option.getD · _) (getElem?_setAt_self x h)

theorem Core.units_setUnit {C : Core} {tile : Bool} {u : Nat} (x : Phys) (h : u < (C.units tile).length) :
    ((C.setUnit tile u x).units tile)[u]? = some x := by
  cases tile <;> exact getElem?_setAt_self x h

/-- The positions at which a list holds one value are as many as the value's occurrences. -/
theorem length_filter_range {α : Type} [DecidableEq α] (l : List α) (x : α) :
    ((List.range l.length).filter fun i => l[i]? == some x).length = (l.filter fun y => y == x).length := by
  induction l with
  | nil => rfl
  | cons y l ih =>
    rw [List.length_cons, List.range_succ_eq_map, List.filter_cons, List.filter_map, List.filter_cons]
    by_cases hy : y = x <;> simp_all [Function.comp_def]

/-- Where one value stands at one position only. -/
theorem filter_range_eq {α : Type} [DecidableEq α] {l : List α} {x : α} {u : Nat} (hu : l.findIdx? (fun y => y == x) = some u)
    (h1 : (l.filter fun y => y == x).length = 1) : ((List.range l.length).filter fun i => l[i]? == some x) = [u] := by
  obtain ⟨i, hi⟩ := List.length_eq_one_iff.mp ((length_filter_range l x).trans h1)
  obtain ⟨hlt, hx, -⟩ := List.findIdx?_eq_some_iff_getElem.mp hu
  have hmem : u ∈ (List.range l.length).filter fun i => l[i]? == some x :=
    List.mem_filter.mpr ⟨List.mem_range.mpr hlt, by simpa [List.getElem?_eq_getElem hlt] using hx⟩
  rw [hi] at hmem ⊢
  rw [List.mem_singleton.mp hmem]

/-- The core whose first claim is met. -/
def Core.claimed (c : Claim) (C : Core) : Core := { C.setUnit c.tile c.unit (.held c.team c.idx) with claims := C.claims.eraseIdx 0 }

/-- The only claim of a core, for a unit that is fresh and held by nobody, gives its team the unit. -/
theorem exec_claimComplete {s : State} {core : Nat} {C : Core} {c : Claim} {T : Team} (hC : core? s core = some C)
    (hclaims : C.claims = [c]) (hstop : C.stopped = false) (hT : team? s c.team = some T) (hv : c.victim = none)
    (hf : T.unitSt c.tile c.idx = .fresh) : exec (.claimComplete core) s = .next (wakeOn
      (modCore (setTeam s c.team (T.setUnitSt c.tile c.idx .present)) core (Core.claimed c)) (clusterOf core)) := by
  have hi : (C.claims.findIdx? fun c => C.active == some c.team).getD 0 = 0 := by
    rw [hclaims, List.findIdx?_singleton]
    split <;> rfl
  have hsettle : settleClaim (saveVictim s c) c = setTeam s c.team (T.setUnitSt c.tile c.idx .present) := by
    simp [saveVictim, hv, settleClaim, hT, hf]
  show finishEvent s (need _ >>= fun C => needs _ >>= fun _ => need _ >>= fun c => _) = _
  rw [finishEvent_need hC, finishEvent_needs (by simp [hstop]), hi, finishEvent_need (x := c) (by simp [hclaims]), finishEvent_ok, hsettle]
  rfl

/-- The only released unit of a core is free once it is cleared, when nothing else waits at the spill engine. -/
theorem exec_releaseClearComplete {s : State} {core u : Nat} {C : Core} (hC : core? s core = some C)
    (hu : C.phys.findIdx? (fun p => p == .clearing) = some u) (h1 : (C.phys.filter fun p => p == .clearing).length = 1)
    (htiles : C.physTiles.contains .clearing = false) (hclaim : claimWaits C = false) (hcontext : contextWaits s C = false)
    (hfilled : ((C.shadow.bind (team? s)).any fun T => T.st == .resident && !T.filled) = false) :
    exec (.releaseClearComplete core) s = .next (wakeOn (modCore s core fun C => C.setUnit false u .free) (clusterOf core)) := by
  have hts : ((List.range C.physTiles.length).filter fun u => C.physTiles[u]? == some .clearing) = [] := by
    refine List.filter_eq_nil_iff.mpr fun i _ h => ?_
    rw [List.mem_of_getElem? (beq_iff_eq.mp h) |> List.contains_iff_mem.mpr] at htiles
    cases htiles
  show finishEvent s (need _ >>= fun C => needs _ >>= fun _ => _) = _
  rw [finishEvent_need hC, finishEvent_needs (by simp [hclaim, hcontext, hfilled])]
  simp only [filter_range_eq hu h1, hts, List.map_cons, List.map_nil, List.append_nil, List.length_singleton, Nat.max_self, Nat.mod_one]
  rfl

end Sys2Proof.Machine
end

