-- ==== Sys2Proof/Proofs/TeamEnd.lean ====
section
/-! SUPPORT. The end of a team (R267, R388, R441, R515): what its chains, operations, units and image give back, what the account of
its partition is left with, and O52. -/

namespace Sys2Proof.Machine

/-! What an operation of the end keeps: a reading `f` of the teams, a reading `g` of the cores, the accounts of the partitions and the
energies of the launches. -/

structure Keeps {α β : Type} (f : Team → α) (g : Core → β) (s s' : State) : Prop where
  teams : ∀ t, (team? s' t).map f = (team? s t).map f
  cores : ∀ c, (core? s' c).map g = (core? s c).map g
  parts : ∀ p, (smGet? s'.parts p).map Part.account = (smGet? s.parts p).map Part.account
  launches : ∀ l, (smGet? s'.launches l).map Launch.energy = (smGet? s.launches l).map Launch.energy

section
variable {α β : Type} {f : Team → α} {g : Core → β} {s s' s'' : State}

theorem Keeps.refl (s : State) : Keeps f g s s := ⟨fun _ => rfl, fun _ => rfl, fun _ => rfl, fun _ => rfl⟩

theorem Keeps.trans (h : Keeps f g s s') (k : Keeps f g s' s'') : Keeps f g s s'' where
  teams t := (k.teams t).trans (h.teams t)
  cores c := (k.cores c).trans (h.cores c)
  parts p := (k.parts p).trans (h.parts p)
  launches l := (k.launches l).trans (h.launches l)

theorem Keeps.foldl {γ : Type} {k : State → γ → State} (hk : ∀ s x, Keeps f g s (k s x)) (l : List γ) (s : State) :
    Keeps f g s (l.foldl k s) := foldl_keeps (Keeps f g s) k (fun s' x h => h.trans (hk s' x)) l s (Keeps.refl s)

theorem keeps_of_tables (h : s'.tables = s.tables) : Keeps f g s s' where
  teams t := congrArg (Option.map f) (team?_tables h t)
  cores c := congrArg (Option.map g) (core?_tables h c)
  parts p := by
    show (smGet? s'.tables.2.2.1 p).map _ = (smGet? s.tables.2.2.1 p).map _
    rw [h]
  launches l := by
    show (smGet? s'.tables.2.2.2 l).map _ = (smGet? s.tables.2.2.2 l).map _
    rw [h]

theorem map_congr_of_factor {γ δ ε : Type} {k : γ → δ} {f : γ → ε} (hf : ∃ r : δ → ε, ∀ x, f x = r (k x))
    {o o' : Option γ} (h : o'.map k = o.map k) : o'.map f = o.map f := by
  obtain ⟨r, hr⟩ := hf
  have hc : f = r ∘ k := funext hr
  rw [hc, ← Option.map_map, ← Option.map_map, h]

theorem keeps_of_calm (hf : ∀ T : Team, f T = f T.calm) (hg : ∀ C : Core, g C = g C.calm) (h : Calm s s') : Keeps f g s s' where
  teams t := map_congr_of_factor ⟨f, hf⟩ (h.teams t)
  cores c := map_congr_of_factor ⟨g, hg⟩ (h.cores c)
  parts p := h.same (f := fun s => (smGet? s.parts p).map Part.account) fun _ => rfl
  launches l := h.same (f := fun s => (smGet? s.launches l).map Launch.energy) fun _ => rfl

theorem map_smMod {γ δ : Type} {k : γ → γ} {f : γ → δ} (h : ∀ x, f (k x) = f x) (m : SMap γ) (i j : Nat) :
    (smGet? (smMod m i k) j).map f = (smGet? m j).map f := by
  rw [smGet?_smMod]
  split
  · rw [Option.map_map]
    exact congrArg (Option.map · _) (funext h)
  · rfl

theorem keeps_modTeam {k : Team → Team} (h : ∀ T, f (k T) = f T) (s : State) (t : Nat) : Keeps f g s (modTeam s t k) :=
  ⟨fun u => map_smMod h s.teams t u, fun _ => rfl, fun _ => rfl, fun _ => rfl⟩

theorem keeps_modCore {k : Core → Core} (h : ∀ C, g (k C) = g C) (s : State) (c : Nat) : Keeps f g s (modCore s c k) :=
  ⟨fun _ => rfl, fun d => map_smMod h s.cores c d, fun _ => rfl, fun _ => rfl⟩

theorem keeps_modPart {k : Part → Part} (h : ∀ P, (k P).account = P.account) (s : State) (p : Nat) : Keeps f g s (modPart s p k) :=
  ⟨fun _ => rfl, fun _ => rfl, fun q => map_smMod h s.parts p q, fun _ => rfl⟩

theorem keeps_modLaunch {k : Launch → Launch} (h : ∀ L, (k L).energy = L.energy) (s : State) (l : Nat) : Keeps f g s (modLaunch s l k) :=
  ⟨fun _ => rfl, fun _ => rfl, fun _ => rfl, fun m => map_smMod h s.launches l m⟩

theorem keeps_setTeam {t : Nat} {T U : Team} (hT : team? s t = some T) (h : f U = f T) : Keeps f g s (setTeam s t U) := by
  refine ⟨fun u => ?_, fun _ => rfl, fun _ => rfl, fun _ => rfl⟩
  by_cases hu : u = t
  · rw [hu, team?_setTeam, hT]
    exact congrArg some h
  · rw [team?_setTeam_ne s U hu]

/-- A core without some of the arrivals that its matrix engine knows. -/
def Core.dropArrivals (gone : Arrival → Bool) (C : Core) : Core := { C with arrivals := C.arrivals.filter fun a => !gone a }

theorem keeps_dropArrivals (h : ∀ gone C, g (Core.dropArrivals gone C) = g C) (s : State) (gone : Arrival → Bool) :
    Keeps f g s (dropArrivals s gone) := by
  refine ⟨fun _ => rfl, fun c => ?_, fun _ => rfl, fun _ => rfl⟩
  refine (congrArg (Option.map g) (smGet?_map_value s.cores (fun _ C => C.dropArrivals gone) c)).trans ?_
  rw [Option.map_map]
  exact congrArg (Option.map · _) (funext (h gone))

theorem keeps_freeImage (s : State) (p : Nat) (i : Option Nat) : Keeps f g s (freeImage s p i) := by
  cases i
  · exact Keeps.refl s
  · exact keeps_modPart (by intro; rfl) s p

theorem team?_freeImage (s : State) (p : Nat) (i : Option Nat) (t : Nat) : team? (freeImage s p i) t = team? s t := by
  cases i <;> rfl

theorem keeps_answerForces (s : State) (p t : Nat) : Keeps f g s (answerForces s p t) := by
  obtain h | h := answerForces_tables s p t
  · exact keeps_of_tables h
  · exact (keeps_modPart (k := Part.unforced t) (fun _ => rfl) s p).trans (keeps_of_tables h)

end

/-! What the team's chains, operations and units give back. -/

/-- What settles a team's energy. -/
def Team.bill (T : Team) : Nat × Nat × Bool := (T.part, T.launch, T.charged)

/-- Everything that settles the energies of teams is as it was. -/
abbrev Billed (s s' : State) : Prop := Keeps Team.bill (fun _ => ()) s s'

theorem billed_wakeTeam (s : State) (t : Nat) : Billed s (wakeTeam s t) := keeps_of_calm (fun _ => rfl) (fun _ => rfl) (calm_wakeTeam s t)

theorem billed_modCore (s : State) (c : Nat) (k : Core → Core) : Billed s (modCore s c k) :=
  keeps_modCore (g := fun _ => ()) (k := k) (fun _ => rfl) s c

theorem billed_dropArrivals (s : State) (gone : Arrival → Bool) : Billed s (dropArrivals s gone) :=
  keeps_dropArrivals (fun _ _ => rfl) s gone

theorem billed_abortChain (s : State) (t id why : Nat) : Billed s (abortChain s t id why) := by
  unfold abortChain
  split
  · exact Keeps.refl s
  · rename_i T c h
    obtain ⟨T', hT, h⟩ := Option.bind_eq_some_iff.mp h
    obtain ⟨c', _, h⟩ := Option.map_eq_some_iff.mp h
    cases h
    split
    · exact Keeps.refl s
    · refine (keeps_setTeam hT (by rfl)).trans ((billed_modCore ..).trans
        (Keeps.trans (Keeps.foldl (fun s d => ?_) ..) (billed_wakeTeam ..)))
      exact keeps_of_tables rfl

theorem billed_closeChain (s : State) (t id : Nat) : Billed s (closeChain s t id) := by
  unfold closeChain
  split
  · exact Keeps.refl s
  · rename_i T hT
    exact (keeps_setTeam hT (by rfl)).trans (billed_modCore ..)

theorem billed_endChain (s : State) (t : Nat) (c : Chain) : Billed s (endChain s t c) := by
  unfold endChain
  split
  · exact Keeps.refl s
  · split
    · exact billed_abortChain ..
    · exact billed_closeChain ..

theorem billed_cutOp (s : State) (t : Nat) (op : MxOp) : Billed s (cutOp s t op) := by
  unfold cutOp
  split
  · exact Keeps.refl s
  · rename_i T hT
    have hcut : Billed s (dropArrivals (setTeam s t { T with mxq := T.mxq.map fun o => if o.id == op.id then { o with cut := true } else o })
        fun a => a.team == t && a.op == op.id) := (keeps_setTeam hT (by rfl)).trans (billed_dropArrivals ..)
    dsimp only
    split
    · exact hcut
    · exact hcut.trans (Keeps.foldl (fun s u => keeps_modTeam (by intro; rfl) s u) ..)

theorem billed_cutClusterOps (s : State) (t : Nat) : Billed s (cutClusterOps s t) := by
  unfold cutClusterOps
  split
  · exact Keeps.refl s
  · exact Keeps.foldl (fun s (h : Nat × MxOp) => billed_cutOp s h.1 h.2) ..

theorem schedAtomic_tables (s : State) (asid va n : Nat) (f : Nat → Nat) : (schedAtomic s asid va n f).tables = s.tables := by
  unfold schedAtomic
  split
  · split <;> exact ownWrite_tables ..
  · rfl

/-- The team's claims on victims' units are withdrawn. -/
def withdrawClaims (s : State) (t core : Nat) : State :=
  (((core? s core).elim [] (·.claims)).filter fun c => c.team == t).foldl (fun s c => match c.victim with
    | some (v, j) => modTeam s v fun V => if c.tile then { V with tileSt := setAt V.tileSt j .present }
        else { V with regSt := setAt V.regSt j .present }
    | none => s) s

theorem billed_withdrawClaims (s : State) (t core : Nat) : Billed s (withdrawClaims s t core) := by
  refine Keeps.foldl (fun s c => ?_) ..
  split
  · exact keeps_modTeam (fun V => by split <;> rfl) ..
  · exact Keeps.refl s

/-- The core once a team has given its units back. -/
def Core.released (t : Nat) (C : Core) : Core :=
  let rel (p : Phys) : Phys := match p with
    | .held u i => if u == t then .clearing else .held u i
    | p => p
  { C with
    phys := C.phys.map rel
    physTiles := C.physTiles.map rel
    claims := C.claims.filter fun c => c.team != t
    reservations := C.reservations.filter fun r => r.team != t
    rays := C.rays.filter fun r => r.team != t
    active := if C.active == some t then none else C.active
    shadow := if C.shadow == some t then none else C.shadow
    ready := if C.active == some t then C.ready.map fun _ => [] else C.ready
    slot := if C.active == some t then C.slot.map fun _ => none else C.slot }

theorem releaseUnits_eq (s : State) (t core : Nat) : releaseUnits s t core = modCore (withdrawClaims s t core) core (Core.released t) := rfl

theorem billed_releaseUnits (s : State) (t core : Nat) : Billed s (releaseUnits s t core) := by
  rw [releaseUnits_eq]
  exact (billed_withdrawClaims s t core).trans (keeps_modCore (by intro; rfl) ..)

/-- Neither bank of a core has the team, and no region of its scratchpad is the team's. -/
def Core.Without (t : Nat) (C : Core) : Prop := C.active ≠ some t ∧ C.shadow ≠ some t ∧ ∀ i, Phys.held t i ∉ C.phys

theorem Core.without_released (t : Nat) (C : Core) : (C.released t).Without t := by
  have hbank (o : Option Nat) : (if o == some t then none else o) ≠ some t := by
    split
    · exact nofun
    · rename_i h
      exact fun ho => h (beq_iff_eq.mpr ho)
  refine ⟨hbank _, hbank _, fun i hi => ?_⟩
  obtain ⟨p, _, hp⟩ := List.mem_map.mp hi
  cases p with
  | held u j =>
    dsimp only at hp
    split at hp
    · cases hp
    · rename_i hu
      cases hp
      exact hu (beq_self_eq_true t)
  | _ => cases hp

/-- What a core shows of its banks and its scratchpad. -/
def Core.banks (C : Core) : Option Nat × Option Nat × List Phys := (C.active, C.shadow, C.phys)

theorem Core.without_congr {t : Nat} {C D : Core} (h : D.banks = C.banks) (hC : C.Without t) : D.Without t := by
  simp only [Core.banks, Prod.mk.injEq] at h
  obtain ⟨ha, hs, hp⟩ := h
  unfold Core.Without
  rwa [ha, hs, hp]

/-! The stages of TEAM_END. -/

/-- A team that has ended. -/
def Team.over (T : Team) : Team := { T with st := .ended, closed := List.range 16, arena := [], image := none, forced := false }

/-- The team's chains and operations are over, its end is noted, and its units are released. -/
def endWork (s : State) (t : Nat) (T : Team) (L : Launch) : State :=
  let s1 := cutClusterOps (T.chains.foldl (fun s c => endChain s t c) s) t
  let s2 := if L.bitmap == 0 then s1
    else schedAtomic s1 L.asid (L.bitmap + T.index / 8) 1 fun v => v ||| 2 ^ (T.index % 8)
  releaseUnits (modLaunch s2 T.launch fun L => { L with endedTeams := nsAdd L.endedTeams T.index }) t T.core

/-- The team is over, and its image and codebooks are free. -/
def endHoldings (s : State) (t : Nat) (T : Team) : State :=
  modCluster (freeImage (modTeam s t Team.over) T.part T.image) (clusterOf T.core) fun C =>
    { C with codebooks := dropBooks [T.tag] C.codebooks }

/-- The answers of a team's reads that are still out find nobody. -/
def dropReads (s : State) (t : Nat) : State :=
  { s with reqs := s.reqs.filter fun r => match r.who with
      | .wave u _ => u != t
      | _ => true }

/-- What still names the team is dropped, and the partition's waiting teams try again. -/
def endTraces (s : State) (t : Nat) (T : Team) : State :=
  let s7 := modPart s T.part fun P => { P with calls := P.calls.filter fun c => c.team != t }
  answerForces (wakePart (dropArrivals (dropReads s7 t) fun a => a.team == t) T.part) T.part t

theorem exec_teamEnd {s : State} {t : Nat} {T : Team} {L : Launch} (e : Nat) (hT : team? s t = some T)
    (hL : smGet? s.launches T.launch = some L) (hst : T.st = .ending) (hh : halted s T.part = false) (hd : teamDone s t T = true) :
    exec (.teamEnd t e) s =
      .next (endTraces (settleEnergy (endHoldings (endWork s t T L) t T) t (BitVec.ofNat 64 e)) t T) := by
  show finishEvent s (need _ >>= fun T => need _ >>= fun L => needs _ >>= fun _ => _) = _
  rw [finishEvent_need hT, finishEvent_need hL, finishEvent_needs (by simp [hst, hh, hd]), finishEvent_ok]
  rfl

theorem billed_endWork (s : State) (t : Nat) (T : Team) (L : Launch) : Billed s (endWork s t T L) := by
  have hops : Billed s (cutClusterOps (T.chains.foldl (fun s c => endChain s t c) s) t) :=
    (Keeps.foldl (fun s c => billed_endChain s t c) ..).trans (billed_cutClusterOps ..)
  unfold endWork
  refine hops.trans (Keeps.trans ?_ ((keeps_modLaunch (by intro; rfl) ..).trans (billed_releaseUnits ..)))
  split
  · exact Keeps.refl _
  · exact keeps_of_tables (schedAtomic_tables ..)

theorem endWork_without (s : State) (t : Nat) (T : Team) (L : Launch) {C : Core} (hC : core? (endWork s t T L) T.core = some C) :
    C.Without t := by
  unfold endWork at hC
  rw [releaseUnits_eq] at hC
  obtain ⟨D, _, rfl⟩ := Option.map_eq_some_iff.mp ((smGet?_smMod_self ..).symm.trans hC)
  exact Core.without_released t D

theorem keeps_endHoldings {α β : Type} {f : Team → α} {g : Core → β} (hf : ∀ T : Team, f T.over = f T) (s : State) (t : Nat)
    (T : Team) :
    Keeps f g s (endHoldings s t T) :=
  (keeps_modTeam hf s t).trans ((keeps_freeImage ..).trans (keeps_of_tables rfl))

theorem team?_endHoldings {s : State} {t : Nat} {U : Team} (T : Team) (hU : team? s t = some U) :
    team? (endHoldings s t T) t = some U.over :=
  (team?_freeImage ..).trans (team?_modTeam_of_some Team.over hU)

theorem settleEnergy_frame (s : State) (t : Nat) (a : DWord) :
    (settleEnergy s t a).teams = s.teams ∧ (settleEnergy s t a).cores = s.cores := by
  unfold settleEnergy
  split <;> exact ⟨rfl, rfl⟩

/-- The account of the team's partition: the estimate comes back, what was used goes (R515). -/
theorem settleEnergy_account {s : State} {t : Nat} {T : Team} {P : Part} (a : DWord) (hT : team? s t = some T)
    (hP : smGet? s.parts T.part = some P) : ∃ P', smGet? (settleEnergy s t a).parts T.part = some P' ∧ P'.account =
      P.account + BitVec.ofNat 64 (if T.charged then ((smGet? s.launches T.launch).map Launch.energy).getD 0 else 0) - a := by
  have he : (smGet? s.launches T.launch).elim 0 Launch.energy = ((smGet? s.launches T.launch).map Launch.energy).getD 0 := by
    cases smGet? s.launches T.launch <;> rfl
  unfold settleEnergy
  rw [hT, ← he]
  exact ⟨_, smGet?_modPart (s := { s with energy := _ }) _ hP, rfl⟩

theorem Team.calm_calm (T : Team) : T.calm.calm = T.calm := by
  simp only [Team.calm, List.map_map]
  rfl

theorem keeps_wakePart (s : State) (p : Nat) : Keeps Team.calm Core.banks s (wakePart s p) := by
  unfold wakePart
  exact Keeps.foldl (fun s (q : Nat × Team) => keeps_of_calm (fun T => T.calm_calm.symm) (fun _ => rfl) (calm_wakeTeam s q.1)) ..

theorem keeps_endTraces (s : State) (t : Nat) (T : Team) : Keeps Team.calm Core.banks s (endTraces s t T) := by
  have hpart : Keeps Team.calm Core.banks s (modPart s T.part fun P => { P with calls := P.calls.filter fun c => c.team != t }) :=
    keeps_modPart (by intro; rfl) ..
  have hreads (s : State) : Keeps Team.calm Core.banks s (dropReads s t) := keeps_of_tables rfl
  unfold endTraces
  exact hpart.trans ((hreads _).trans ((keeps_dropArrivals (fun _ _ => rfl) _ _).trans ((keeps_wakePart _ _).trans (keeps_answerForces ..))))

/-- The partition's account after the end of a team, and what the end leaves of the team and its core (R388, R441, R515). -/
theorem teamEnd_spec {s : State} {t : Nat} {T : Team} {L : Launch} (e : DWord) (hT : team? s t = some T)
    (hL : smGet? s.launches T.launch = some L) :
    let s' := endTraces (settleEnergy (endHoldings (endWork s t T L) t T) t e) t T
    (∃ T', team? s' t = some T' ∧ T'.st = .ended ∧ T'.arena = [] ∧ T'.image = none) ∧
    (∀ C', core? s' T.core = some C' → C'.Without t) ∧
    ∀ P, smGet? s.parts T.part = some P → ∃ P', smGet? s'.parts T.part = some P' ∧
      P'.account = P.account + BitVec.ofNat 64 (if T.charged then L.energy else 0) - e := by
  have hwork := billed_endWork s t T L
  have hbill : Billed (endWork s t T L) (endHoldings (endWork s t T L) t T) := keeps_endHoldings (fun _ => rfl) ..
  have hbanks : Keeps (fun _ => ()) Core.banks (endWork s t T L) (endHoldings (endWork s t T L) t T) := keeps_endHoldings (fun _ => rfl) ..
  obtain ⟨U, hU, hUT⟩ := some_of_map_eq (hwork.teams t) hT
  have hover := team?_endHoldings T hU
  have hbillAll := hwork.trans hbill
  generalize hs6 : endHoldings (endWork s t T L) t T = s6 at hover hbill hbanks hbillAll ⊢
  obtain ⟨hteams, hcores⟩ := settleEnergy_frame s6 t e
  have htraces := keeps_endTraces (settleEnergy s6 t e) t T
  have hpart : U.part = T.part := congrArg Prod.fst hUT
  have hlaunch : U.launch = T.launch := congrArg (fun b => b.2.1) hUT
  have hcharged : U.charged = T.charged := congrArg (fun b => b.2.2) hUT
  refine ⟨?_, fun C' hC' => ?_, fun P hP => ?_⟩
  · have hT6 : team? (settleEnergy s6 t e) t = some U.over := by rw [team?, hteams]; exact hover
    obtain ⟨T', hT', hc⟩ := some_of_map_eq (htraces.teams t) hT6
    exact ⟨T', hT', (Team.same Team.st hc :), (Team.same Team.arena hc :), (Team.same Team.image hc :)⟩
  · have hsame : (core? (endTraces (settleEnergy s6 t e) t T) T.core).map Core.banks = (core? (endWork s t T L) T.core).map Core.banks := by
      rw [htraces.cores, core?, hcores]
      exact hbanks.cores T.core
    obtain ⟨D, hD, hDC⟩ := some_of_map_eq hsame.symm hC'
    exact Core.without_congr hDC.symm (endWork_without s t T L hD)
  · obtain ⟨P6, hP6, hacc6⟩ := some_of_map_eq (hbillAll.parts T.part) hP
    obtain ⟨P7, hP7, hacc7⟩ := settleEnergy_account e hover (P := P6) (hpart ▸ hP6)
    rw [show U.over.part = T.part from hpart] at hP7
    obtain ⟨P', hP', hacc'⟩ := some_of_map_eq (htraces.parts T.part) hP7
    refine ⟨P', hP', hacc'.trans (hacc7.trans ?_)⟩
    rw [show U.over.charged = T.charged from hcharged, show U.over.launch = T.launch from hlaunch, hacc6, hbillAll.launches, hL]
    rfl

end Sys2Proof.Machine

namespace Sys2Proof.Claims
open Sys2Proof Sys2Proof.Machine

/-- Settles O52: swaps by what `finishSwap` leaves of the two teams and the core, claims and released units up to what waking changes, and
the end of a team by its three stages. -/
theorem banksAndTeamsProceed : Obligations.BanksAndTeamsProceed := by
  intro s core C hC swaps
  refine ⟨?empty, ?full, ?stays, fun a A _ => teamBlocked_iff, ?context, ?claim, ?release, ?teamEnd⟩
  case empty =>
    intro b B hruns hsw ha hidle hb hB hfill hst hforce
    have hdue : swapDue s core C = true := by simp [swapDue, ha, hidle, shadowReady, hb, hB, hfill, hst, hforce]
    obtain ⟨⟨lists, hC'⟩, hteams⟩ := finishSwap_frame hC
    refine ⟨_, _, exec_bankSwap hC hruns hsw hdue (by simp [ha]) (by simp [ha]), hC', hb, ha, rfl, fun t ht => ?_,
      fun t ht => by cases ht⟩
    cases ht
    exact ⟨_, (hteams b).trans (team?_swapTeams_in hb (by simp [ha]) hB), rfl⟩
  case full =>
    intro a A b B hruns hsw ha hb hne hA hB hst hpin himage hrays hready
    have hwith : ∀ a', C.active = some a' → ∃ A, team? s a' = some A ∧ A.image.isSome = true := fun a' h => by
      rw [ha] at h
      cases h
      exact ⟨A, hA, himage⟩
    have swapped {i : Instr} (hexec : exec i s = .next (finishSwap s core)) : swaps i (some a) (some b) := by
      obtain ⟨⟨lists, hC'⟩, hteams⟩ := finishSwap_frame hC
      refine ⟨_, _, hexec, hC', hb, ha, rfl, fun t ht => ?_, fun t ht => ?_⟩ <;> cases ht
      · exact ⟨_, (hteams b).trans (team?_swapTeams_in hb (by simp [ha, hne]) hB), rfl⟩
      · exact ⟨_, (hteams a).trans (team?_swapTeams_out ha (by simp [hb, hne.symm]) hA), rfl⟩
    refine ⟨fun hbase => swapped (exec_bankSwap hC hruns hsw ?_ (fun _ => hrays) hwith), fun hblocked => swapped ?_⟩
    · simp [swapDue, ha, hA, hst, hpin, hready, hb, hB, hbase]
    · rw [exec_waitSwapTimeout hC ha hA, finishEvent_needs (by simp [hruns, hsw, hst, hpin, hready]), finishEvent_needs hblocked,
        finishEvent_need (withImage_some hwith), finishEvent_ok, decideSwap_now hC fun _ => hrays]
  case stays =>
    intro a A ha hA hno
    rw [exec_waitSwapTimeout hC ha hA]
    cases hgo : coreRuns s core C && !C.swapping && A.st == .active && !A.pinned && shadowReady s C true with
    | false => rfl
    | true =>
      refine (finishEvent_needs rfl).trans (finishEvent_unmet (hno.resolve_right fun hpin => ?_))
      simp [hpin] at hgo
  case context =>
    intro b B hb hB hst hstop hclaim
    refine ⟨fun hfill => ?_, fun hcore hforce himage hbase hsaved hquiet => ?_⟩
    · intro bs
      refine ⟨setTeam s b { (if bs = B.saved then B else B.restored bs) with filled := true }, _, ?_, rfl, team?_setTeam .., rfl⟩
      show finishEvent s (need _ >>= fun C => need _ >>= fun t => need _ >>= fun T => needs _ >>= fun _ => _) = _
      rw [finishEvent_need hC, finishEvent_need hb, finishEvent_need hB, finishEvent_needs (by simp [hst, hfill, hstop, hclaim]),
        finishEvent_ok]
      simp only [bs, beq_iff_eq]
    · obtain ⟨saved, hteam⟩ := team?_saveContext hB hbase
      refine ⟨_, _, ?_, hteam, rfl, hst⟩
      show finishEvent s (need _ >>= fun T => need _ >>= fun C => needs _ >>= fun _ => _) = _
      rw [finishEvent_need hB, finishEvent_need (hcore ▸ hC), finishEvent_needs (by simp [hst, hb, hstop, hclaim, hquiet]), hforce]
      show finishEvent s (needs _ >>= fun _ => _) = _
      rw [finishEvent_needs (by simp [himage, hsaved]), finishEvent_ok]
  case claim =>
    intro c T hclaims hstop hT hvictim hfresh hidx
    rw [exec_claimComplete hC hclaims hstop hT hvictim hfresh]
    have hcalm := calm_wakeOn (modCore (setTeam s c.team (T.setUnitSt c.tile c.idx .present)) core (Core.claimed c)) (clusterOf core)
    obtain ⟨C', hC', hc⟩ := hcalm.core (core?_modCore (s := setTeam s c.team _) (Core.claimed c) hC)
    obtain ⟨T', hT', ht⟩ := hcalm.team (team?_setTeam s c.team (T.setUnitSt c.tile c.idx .present))
    refine ⟨_, C', T', rfl, hcalm.mem, hC', (Core.same Core.claims hc :).trans (by simp [Core.claimed, hclaims]), hT', ?_, fun hu => ?_⟩
    · rw [Team.same (fun T => T.unitSt c.tile c.idx) ht]
      exact Team.unitSt_setUnitSt .present hidx
    · rw [Core.same (fun C => C.units c.tile) hc]
      exact Core.units_setUnit (C := C) (.held c.team c.idx) hu
  case release =>
    intro u hu h1 htiles hclaim hcontext hshadow
    have hfilled : ((C.shadow.bind (team? s)).any fun T => T.st == .resident && !T.filled) = false := by
      cases hb : C.shadow.bind (team? s) with
      | none => rfl
      | some B =>
        obtain ⟨b, hshad, hB⟩ := Option.bind_eq_some_iff.mp hb
        cases hst : B.st == .resident with
        | false => simp [hst]
        | true => simp [hshadow b B hshad hB (beq_iff_eq.mp hst)]
    rw [exec_releaseClearComplete hC hu h1 htiles hclaim hcontext hfilled]
    have hcalm := calm_wakeOn (modCore s core fun C => C.setUnit false u .free) (clusterOf core)
    obtain ⟨C', hC', hc⟩ := hcalm.core (core?_modCore (fun C => C.setUnit false u .free) hC)
    exact ⟨_, C', rfl, hcalm.mem, hC', (Core.same Core.phys hc :), (Core.same Core.physTiles hc :)⟩
  case teamEnd =>
    intro t T L e hT hL hcore hst hhalt hdone
    obtain ⟨⟨T', hT', hst', harena, himage⟩, hbanks, haccount⟩ := teamEnd_spec (BitVec.ofNat 64 e) hT hL
    exact ⟨_, T', exec_teamEnd e hT hL hst hhalt hdone, hT', hst', harena, himage, hcore ▸ hbanks, haccount⟩

end Sys2Proof.Claims
end

