-- ==== Sys2Proof/Proofs/FloatExceptions.lean ====
section
/-! SUPPORT. Enabled float exceptions stop a word before it writes (R68, R181, R423), and O5. -/

namespace Sys2Proof.Machine
open Sys2Proof.Claims

/-- The exceptions the lanes `ls` raise. -/
def raisedIn (ls : List Nat) (k : Nat → Exc) : Exc := ls.foldl (fun e l => e ||| k l) Exc.none

/-- The argument of the trap of exception n: the lanes that raised it and the exceptions raised and enabled (R423). -/
def trapArgOf (ls : List Nat) (k : Nat → Exc) (on : Exc) (n : Nat) : DWord :=
  BitVec.ofNat 64 ((maskOf fun l => ls.contains l && (k l).getLsbD n).toNat + on.toNat * 2 ^ 32)

theorem exc_or_none (e : Exc) : e ||| Exc.none = e := BitVec.or_zero

theorem any_lane_raised (ls : List Nat) (k : Nat → Exc) (n l : Nat) :
    (ls.any fun j => j == l && (k j).getLsbD n) = (ls.contains l && (k l).getLsbD n) := by
  rw [Bool.eq_iff_iff]
  simp only [List.any_eq_true, Bool.and_eq_true, beq_iff_eq, List.contains_iff_mem]
  constructor
  · rintro ⟨j, hj, rfl, hk⟩
    exact ⟨hj, hk⟩
  · rintro ⟨hl, hk⟩
    exact ⟨l, hl, rfl, hk⟩

/-- The lowest exception raised and enabled is the one whose trap is taken (R68). -/
theorem settleFlags_trap {fpctl : DWord} {ls : List Nat} {k : Nat → Exc} {n : Nat}
    (hn : (List.range 5).find? (fun n => (raisedIn ls k &&& fpctl.extractLsb' 4 5).getLsbD n) = some n) :
    settleFlags fpctl (ls.map fun l => (l, k l, Exc.none)) =
      .error (.trap (fpCause n) (trapArgOf ls k (raisedIn ls k &&& fpctl.extractLsb' 4 5) n)) := by
  have hhalf : (ls.any fun _ => Exc.none.getLsbD n) = false := by simp [Exc.none]
  have hnone (a : Nat) : (a + if false = true then 2 ^ 40 else 0) = a := by simp
  unfold raisedIn at hn ⊢
  simp only [settleFlags, raisedLanes, trapArgOf, List.foldl_map, List.any_map, Function.comp_def, exc_or_none, any_lane_raised, hn,
    hhalf, hnone]

/-- A word of a wave that raises a trap once its checks have passed: the gang takes it where the word stood. -/
theorem exec_ready_trap {i : Instr} {s : State} {opc : Nat} {g : BitVec 4} {wave : WCtx → Except Stop State}
    {ctx : KCtx → Except Stop State} {lane : Eval → Except Stop Eval} {check : WCtx → Except Stop WCtx} {c : WCtx} {t w : Nat}
    {gang : BitVec 8} {cause : Cause} {arg : DWord} (hi : exec i s = issue opc g s wave ctx lane) (ho : computeAllows opc = true)
    (hcur : s.cur = .wave t w gang) (hr : ready s g check = some c)
    (hw : ∀ c0, check c0 = .ok c → wave c0 = .error (.trap cause arg)) : exec i s = .next (takeTrap s t w gang cause arg) := by
  obtain ⟨t', w', gang', c0, hcur', h0, hc⟩ := ready_spec hr
  rw [hcur] at hcur'
  cases hcur'
  rw [hi, issue_wave hcur h0 ho, hw c0 hc, finishWave_trap]

section
variable {f : AluW} {op : LaneIn → Nat × Exc}

theorem floatSpec_srcs2 : (floatSpec f 2 op).srcs = srcs2 f 1 1 := by
  cases h : immFlag f.var <;> simp [AluSpec.srcs, floatSpec, aluB, aluC, srcs2, h]

theorem floatSpec_srcs3 : (floatSpec f 3 op).srcs = srcs3 f 1 1 1 := by
  cases h : immFlag f.var <;> simp [AluSpec.srcs, floatSpec, aluB, aluC, srcs3, srcs2, h]

/-- What a float word of two or three operands reads as B (R95). -/
theorem floatSpec_b {n : Nat} (hn : n ≠ 1) (c : WCtx) (l : Nat) :
    ((floatSpec f n op).laneIn c l).b = opB f 1 (floatImm (ty3 f.var) f.imm) c l := by
  cases h : immFlag f.var <;> simp [AluSpec.laneIn, floatSpec, aluB, opB, h, hn]

/-- A float word stops at the settling of its exceptions when one of them is enabled. -/
theorem floatSpec_wave_trap {n k : Nat} (bnd : Bool) {c0 c : WCtx}
    (hc : c0.begin (floatSpec f n op).srcs [Regs.ofW f.d 1] (isUniform f.d) = .ok c) (raises : Nat → Exc)
    (hraises : ∀ l, (op ((floatSpec f n op).laneIn c l)).2 = raises l)
    (hk : (List.range 5).find? (fun k => (raisedIn (worksIn f c) raises &&& c.W.fpctl.extractLsb' 4 5).getLsbD k) = some k) :
    (floatSpec f n op).wave bnd c0 = .error (.trap (fpCause k)
      (trapArgOf (worksIn f c) raises (raisedIn (worksIn f c) raises &&& c.W.fpctl.extractLsb' 4 5) k)) := by
  obtain rfl : (fun l => (op ((floatSpec f n op).laneIn c l)).2) = raises := funext hraises
  have houts : ((floatSpec f n op).outs c).map (fun o => (o.1, o.2.exc, Exc.none)) =
      (worksIn f c).map fun l => (l, (op ((floatSpec f n op).laneIn c l)).2, Exc.none) := List.map_map
  have hbegin : c0.begin (floatSpec f n op).srcs (floatSpec f n op).dsts (floatSpec f n op).uni = .ok c := hc
  unfold AluSpec.wave
  rw [show ((floatSpec f n op).bad || !(floatSpec f n op).predsOk ||
    (floatSpec f n op).idle.any fun k => !(Regs.one k).srcOk c0.T.nregs) = false from rfl, trapIf_false]
  simp only [except_ok_bind, hbegin, houts, settleFlags_trap hk]
  rfl

/-- What a word does that raises the exceptions `raises`, one of them enabled: its gang takes the trap of the lowest of those (R68). -/
def Traps (i : Instr) (s : State) (t w : Nat) (gang : BitVec 8) (f : AluW) (c : WCtx) (raises : Nat → Exc) : Prop :=
  let on := raisedIn (worksIn f c) raises &&& c.W.fpctl.extractLsb' 4 5
  ∀ k, (List.range 5).find? (fun k => on.getLsbD k) = some k →
    exec i s = .next (takeTrap s t w gang (fpCause k) (trapArgOf (worksIn f c) raises on k))

theorem floatSpec_traps {i : Instr} {s : State} {opc n t w : Nat} {gang : BitVec 8} {c : WCtx} {srcs : List Regs} {raises : Nat → Exc}
    (hi : exec i s = runAlu opc f false (floatSpec f n op) s) (ho : computeAllows opc = true) (hcur : s.cur = .wave t w gang)
    (hsrcs : (floatSpec f n op).srcs = srcs) (hraises : ∀ l, (op ((floatSpec f n op).laneIn c l)).2 = raises l)
    (hr : ready s f.g (fun c => c.begin srcs [Regs.ofW f.d 1] (isUniform f.d)) = some c) : Traps i s t w gang f c raises := by
  subst hsrcs
  exact fun k hk => exec_ready_trap hi ho hcur hr fun c0 hc => floatSpec_wave_trap f.bnd hc raises hraises hk

end

section
variable {i : Instr} {s : State} {f : AluW} {opc t w : Nat} {gang : BitVec 8} {c : WCtx}

theorem float2Spec_traps {op : FT → Env → Mods → Nat → Nat → Nat × Exc} (hi : exec i s = runAlu opc f false (float2Spec f op) s)
    (ho : computeAllows opc = true) (hcur : s.cur = .wave t w gang)
    (hr : ready s f.g (fun c => c.begin (srcs2 f 1 1) [Regs.ofW f.d 1] (isUniform f.d)) = some c) :
    Traps i s t w gang f c fun l =>
      (op (fmtOf f) (envOf f c) (aluMods f) (opA f 1 c l) (opB f 1 (floatImm (ty3 f.var) f.imm) c l)).2 :=
  floatSpec_traps hi ho hcur floatSpec_srcs2 (fun l => by rw [floatSpec_b (by decide)]; rfl) hr

theorem float3Spec_traps {op : FT → Env → Mods → Nat → Nat → Nat → Nat × Exc} (hi : exec i s = runAlu opc f false (float3Spec f op) s)
    (ho : computeAllows opc = true) (hcur : s.cur = .wave t w gang)
    (hr : ready s f.g (fun c => c.begin (srcs3 f 1 1 1) [Regs.ofW f.d 1] (isUniform f.d)) = some c) :
    Traps i s t w gang f c fun l =>
      (op (fmtOf f) (envOf f c) (aluMods f) (opA f 1 c l) (opB f 1 (floatImm (ty3 f.var) f.imm) c l) (opC f 1 c l)).2 :=
  floatSpec_traps hi ho hcur floatSpec_srcs3 (fun l => by rw [floatSpec_b (by decide)]; rfl) hr

end

end Sys2Proof.Machine

namespace Sys2Proof.Claims
open Sys2Proof Sys2Proof.Machine

/-- Settles O5: the exceptions are settled after the checks and before any write, so the word ends in the trap of the lowest enabled one. -/
theorem enabledFloatExceptionTraps : Obligations.EnabledFloatExceptionTraps := by
  intro s t w gang f c hcur
  exact ⟨fun _ => float2Spec_traps rfl rfl hcur, fun _ => float2Spec_traps rfl rfl hcur, fun _ => float3Spec_traps rfl rfl hcur,
    fun _ => float2Spec_traps rfl rfl hcur⟩

end Sys2Proof.Claims
end

