-- ==== Sys2Proof/Proofs/ConvertWords.lean ====
section
/-! SUPPORT. A conversion that sends its result holds its flags back until the message has been accepted (R228), and O6. -/

namespace Sys2Proof.Machine
open Sys2Proof.Claims

/-- FPCTL of a wave after an outcome. -/
def fpctlAfter (t w : Nat) : Host.Outcome State Fault Refusal → Option DWord
  | .next s => (wave? s t w).map (·.fpctl)
  | _ => none

/-- A float word does not complete as `GivesF` says where it leaves another FPCTL than the one with its flags ORed in. -/
theorem not_givesF_of_fpctl {i : Instr} {f : AluW} {s : State} {srcs : List Regs} {n : Nat} {val : WCtx → Nat → Nat × Exc} {t w : Nat}
    {before after : DWord} (hwf : i.wf = true) (hexec : fpctlAfter t w (exec i s) = some before) (hne : before ≠ after)
    (hclaim : ((ready s f.g fun c => c.begin srcs [Regs.ofW f.d n] (isUniform f.d)).any fun c =>
      c.W.fpctl.extractLsb' 4 5 == 0#5 && fpctlAfter t w (.next
        ((flagged c (worksIn f c) fun l => (val c l).2).finish f.bnd f.d n fun l => (val c l).1)) == some after) = true) :
    ¬ GivesF i f s srcs n val := by
  intro h
  obtain ⟨c, hc, hq⟩ := (Option.any_eq_true _ _).mp hclaim
  obtain ⟨hquiet, hafter⟩ : c.W.fpctl.extractLsb' 4 5 = 0#5 ∧ _ = some after := by
    simpa only [Bool.and_eq_true, beq_iff_eq] using hq
  rw [← h hwf c hc hquiet, hexec] at hafter
  exact hne (Option.some.inj hafter)

/-- A wave about to convert the largest f32, in lanes 0 to 3 of v5, and to send what it gets to its own core; no exception is enabled. -/
def mailing : State :=
  { modWave (State.reset.withFetchWord 64 0) 8 0 fun W =>
      { W with v := (List.range 4).map fun l => (32 * 5 + l, 0x7F7FFFFF#32), mbdest := 0x80000000#64 } with
    cur := .wave 8 0 1#8 }

/-- cvt.f16.f32 mb, v5: it overflows. -/
def narrowing : AluW := ⟨false, 1#4, 0#4, 0xFE#8, 5#8, 0#8, 0#8, 0#2, 0#2, 0#2, false, 0#3, 0#2⟩

end Sys2Proof.Machine

namespace Sys2Proof.Claims
open Sys2Proof Sys2Proof.Machine

/-- Refutes O6: with mb as the destination the word ends by sending, and it has no other effect until its message is accepted (R228): the
model keeps FPCTL and holds overflow and inexact back with the word's late effects, where the statement ORs them in at once. -/
theorem not_conversionWordsComplete : ¬ Obligations.ConversionWordsComplete := by
  intro h
  obtain ⟨-, hcvt, -⟩ := h mailing narrowing
  exact not_givesF_of_fpctl (t := 8) (w := 0) (before := 0#64) (after := 0x2800#64) rfl (by decide +kernel) (by decide) (by decide +kernel)
    (hcvt rfl)

end Sys2Proof.Claims
end

