-- ==== Sys2Proof/Proofs/DecodeEncode.lean ====
section
/-! SUPPORT. The decoder and the encoder agree word by word and byte by byte, and the worked examples decode: O57 and O58. -/

namespace Sys2Proof.Laws.Codec

open Sys2Proof Sys2Proof.Laws

/-- Reading the word of a well-formed instruction gives the instruction; an event has no word. -/
theorem read_encode (i : Instr) : Statement i := by
  cases i with
  | ill f => exact ill f | nop f => exact nop f | bra f => exact bra f | brx f => exact brx f | call f => exact call f
  | callx f => exact callx f | ret f => exact ret f | regang f => exact regang f | exit f => exact exit f | yield f => exact yield f
  | trap f => exact trap f | eret f => exact eret f | bkpt f => exact bkpt f | loop f => exact loop f | csrr f => exact csrr f
  | csrw f => exact csrw f | csrs f => exact csrs f | csrc f => exact csrc f | cinv f => exact cinv f | cinvAll f => exact cinvAll f
  | cwb f => exact cwb f | pref f => exact pref f | extq f => exact extq f | halloc f => exact halloc f | hfree f => exact hfree f
  | setprio f => exact setprio f | svc f => exact svc f | iadd f => exact iadd f | isub f => exact isub f | iaddc f => exact iaddc f
  | imul f => exact imul f | imulh f => exact imulh f | imad f => exact imad f | imin f => exact imin f | imax f => exact imax f
  | iabsd f => exact iabsd f | and f => exact and f | or f => exact or f | xor f => exact xor f | andn f => exact andn f
  | shl f => exact shl f | shr f => exact shr f | sar f => exact sar f | rotl f => exact rotl f | clz f => exact clz f
  | popc f => exact popc f | brev f => exact brev f | bfe f => exact bfe f | bfi f => exact bfi f | lea f => exact lea f
  | icmp f => exact icmp f | sel f => exact sel f | mov f => exact mov f | movl f => exact movl f | movh f => exact movh f
  | prmt f => exact prmt f | idot4 f => exact idot4 f | idiv f => exact idiv f | irem f => exact irem f | pand f => exact pand f
  | por f => exact por f | pxor f => exact pxor f | pnot f => exact pnot f | pmov f => exact pmov f | pset f => exact pset f
  | pget f => exact pget f | rfl f => exact rfl f | rdlane f => exact rdlane f | wrlane f => exact wrlane f | fadd f => exact fadd f
  | fsub f => exact fsub f | fmul f => exact fmul f | fma f => exact fma f | fmin f => exact fmin f | fmax f => exact fmax f
  | fcmp f => exact fcmp f | fclass f => exact fclass f | frcp f => exact frcp f | fsqrt f => exact fsqrt f | frsq f => exact frsq f
  | fexp2 f => exact fexp2 f | flog2 f => exact flog2 f | fsinpi f => exact fsinpi f | fcospi f => exact fcospi f
  | fdiv f => exact fdiv f | ffloor f => exact ffloor f | fceil f => exact fceil f | ftrunc f => exact ftrunc f
  | frint f => exact frint f | ffrac f => exact ffrac f | fldexp f => exact fldexp f | fdot2 f => exact fdot2 f
  | fdot4 f => exact fdot4 f | hadd2 f => exact hadd2 f | hmul2 f => exact hmul2 f | hfma2 f => exact hfma2 f | fmed3 f => exact fmed3 f
  | cvt f => exact cvt f | cvtq f => exact cvtq f | cvtdq f => exact cvtdq f | pack f => exact pack f | unpk f => exact unpk f
  | shfl f => exact shfl f | vote f => exact vote f | redux f => exact redux f | scan f => exact scan f | matchl f => exact matchl f
  | ld f => exact ld f | st f => exact st f | lds f => exact lds f | sts f => exact sts f | ldp f => exact ldp f | stp f => exact stp f
  | ldu f => exact ldu f | stu f => exact stu f | atom f => exact atom f | atoms f => exact atoms f | red f => exact red f
  | append f => exact append f | decline f => exact decline f | fence f => exact fence f | bar f => exact bar f
  | cbinit f => exact cbinit f | cbarv f => exact cbarv f | cbwait f => exact cbwait f | tlwait f => exact tlwait f
  | tlread f => exact tlread f | cpy f => exact cpy f | mcast f => exact mcast f | cexec f => exact cexec f | ceqry f => exact ceqry f
  | ceqryArg f => exact ceqryArg f | iscfg f => exact iscfg f | qclose f => exact qclose f | emit f => exact emit f
  | emitr f => exact emitr f | recget f => exact recget f | recgetCount f => exact recgetCount f | mbtgt f => exact mbtgt f
  | mxzero f => exact mxzero f | mxldw f => exact mxldw f | mxloop f => exact mxloop f | mxspl f => exact mxspl f
  | mxdrain f => exact mxdrain f | mxfence f => exact mxfence f | mxrd f => exact mxrd f | mxrdStat f => exact mxrdStat f
  | mxwr f => exact mxwr f | mxmask f => exact mxmask f | mxcfg f => exact mxcfg f | jchain f => exact jchain f
  | jsend f => exact jsend f | jrecv f => exact jrecv f | jclose f => exact jclose f | jabort f => exact jabort f
  | rtbox f => exact rtbox f | rttri f => exact rttri f | rtcrv f => exact rtcrv f | rtrace f => exact rtrace f | rng f => exact rng f
  | rsvupd f => exact rsvupd f | rsvmrg f => exact rsvmrg f | rsvnrm f => exact rsvnrm f | rsvld f => exact rsvld f
  | rsvst f => exact rsvst f | ltwalk f => exact ltwalk f | reuse f => exact reuse f | cparg f => exact cparg f
  | cpret f => exact cpret f | kld f => exact kld f | kst f => exact kst f | agset f => exact agset f | agstep f => exact agstep f
  | scopy f => exact scopy f | sgath f => exact sgath f | sscat f => exact sscat f | smcast f => exact smcast f
  | cbload f => exact cbload f | sdecode f => exact sdecode f | qpush f => exact qpush f | tlinc f => exact tlinc f
  | swait f => exact swait f | stopc f => exact stopc f | pairedWord f => exact pairedWord f
  | _ => intro _ _ e; cases e

theorem decode_eq (w : IWord) :
    decode w = (read w).bind fun i => if i.wf && encode i == some w then some i else none := by
  unfold decode read
  cases pairedBit w <;> cases unpackFull w <;> rfl

theorem decode_encode {i : Instr} {w : IWord} (hwf : i.wf = true) (he : encode i = some w) : decode w = some i := by
  simp [decode_eq, read_encode i w hwf he, hwf, he]

/-- The bytes of a word in memory order are the word again (R4, R88). -/
theorem wordOfBytes_bytesOfWord (w : IWord) : wordOfBytes (bytesOfWord w) = some w := by
  refine congrArg some ?_
  simp (disch := omega) only [BitVec.extractLsb'_append_extractLsb'_eq_extractLsb']
  exact BitVec.extractLsb'_eq_self

theorem length_bytesOfWord (w : IWord) : (bytesOfWord w).length = 8 := by simp [bytesOfWord]

/-- The bytes of one word decode as the word, and nothing stands after them. -/
theorem decodeBytes_bytesOfWord (w : IWord) : decodeBytes (bytesOfWord w) = (decode w).map fun i => (i, []) := by
  simp only [decodeBytes, ← length_bytesOfWord w, List.take_length, List.drop_length, wordOfBytes_bytesOfWord]

end Sys2Proof.Laws.Codec

namespace Sys2Proof.Claims
open Sys2Proof Sys2Proof.Machine

/-- Settles O57: the word of each instruction is read by the row of its opcode, which gives every field back. -/
theorem decodeEncodeAgree : Obligations.DecodeEncodeAgree := by
  intro i w hwf he
  have hd : decode w = some i := Laws.Codec.decode_encode hwf he
  exact ⟨hd, by rw [Laws.Codec.decodeBytes_bytesOfWord, hd]; rfl⟩

/-- Settles O58: the words of the examples are read off, and no row has a reserved opcode. -/
theorem wordsDecode : Obligations.WordsDecode := by
  refine ⟨by decide, by decide, by decide, by decide, by decide, by decide, fun w hp hr => ?_⟩
  simp [decode, hp, unpackFull_reserved hr]

end Sys2Proof.Claims
end

