-- ==== Sys2Proof/Proofs/PairedWords.lean ====
section
/-! SUPPORT. A paired word whose half sends its result holds the flags of both halves back until the message has been accepted (R228),
and O8. -/

namespace Sys2Proof.Machine
open Sys2Proof.Claims

/-- The state O8 says a paired word leaves once its checks have passed: the flags of both halves in FPCTL, then the results. -/
def pairedEnd (f : PairW) (c : WCtx) : State :=
  let e : Env := ⟨c.W.rm, c.W.ftz, 0#3, false⟩
  let r0 (l : Nat) : Nat × Exc := halfOp f.h0 e (c.reg f.h0.a l) (c.reg f.h0.b l) (c.reg f.h0.d l)
  let r1 (l : Nat) : Nat × Exc := halfOp f.h1 e (c.reg f.h1.a l) (c.reg f.h1.b l) (c.reg f.h1.d l)
  let d := flagged c (lanesOf c.lanes) fun l => (r0 l).2 ||| (r1 l).2
  let mb (h : Half) : Bool := h.d == 0xFE#8
  d.done ((lanesOf c.lanes).foldl (fun W l => (W.putReg f.h0.d l (r0 l).1).putReg f.h1.d l (r1 l).1) d.W) f.bnd
    (if mb f.h0 || mb f.h1 then some 0xFE#8 else none) fun l => (if mb f.h0 then r0 l else r1 l).1

/-- The gang of a wave that issues a paired word, its checks passed. -/
def pairedReady (s : State) (f : PairW) : Option WCtx :=
  ready s 0#4 fun c => c.begin ((halfSrcs f.h0 ++ halfSrcs f.h1).map Regs.one) [Regs.one f.h0.d, Regs.one f.h1.d] false

/-- fadd mb, v5, v5 beside mov v7, v2: half 0 overflows and sends. -/
def sendingPair : PairW := ⟨false, ⟨0#5, 0xFE#8, 5#8, 5#8, 0#2⟩, ⟨0x10#5, 7#8, 2#8, 0xF8#8, 0#2⟩⟩

end Sys2Proof.Machine

namespace Sys2Proof.Claims
open Sys2Proof Sys2Proof.Machine

/-- Refutes O8: with mb as the destination of a half the word ends by sending, and it has no other effect until its message is accepted
(R228): the model keeps FPCTL and holds overflow and inexact back with the word's late effects, where the statement ORs them in at once. -/
theorem not_pairedWordCompletes : ¬ Obligations.PairedWordCompletes := by
  intro h
  have hclaim : ((pairedReady mailing sendingPair).any fun c => c.W.fpctl.extractLsb' 4 5 == 0#5 &&
      fpctlAfter 8 0 (.next (pairedEnd sendingPair c)) == some 0x2800#64) = true := by decide +kernel
  have hexec : fpctlAfter 8 0 (exec (.pairedWord sendingPair) mailing) = some 0#64 := by decide +kernel
  obtain ⟨c, hc, hq⟩ := (Option.any_eq_true _ _).mp hclaim
  obtain ⟨hquiet, hafter⟩ : c.W.fpctl.extractLsb' 4 5 = 0#5 ∧ fpctlAfter 8 0 (.next (pairedEnd sendingPair c)) = some 0x2800#64 := by
    simpa only [Bool.and_eq_true, beq_iff_eq] using hq
  have hsame : exec (.pairedWord sendingPair) mailing = .next (pairedEnd sendingPair c) :=
    h mailing sendingPair (by decide) (by decide) c hc hquiet
  rw [hsame, hafter] at hexec
  exact absurd hexec (by decide)

end Sys2Proof.Claims
end

