-- ==== Sys2Proof/Proofs/IntegerValues.lean ====
section
/-! SUPPORT. The integer operations of one lane (R139–R147) as arithmetic on bit vectors of the type's width. -/

namespace Sys2Proof.Machine
open Sys2Proof.Claims

/-! Numbers of n bits. -/

theorem intBits_cases (t : Nat) : intBits t = 8 ∨ intBits t = 16 ∨ intBits t = 32 ∨ intBits t = 64 := by
  unfold intBits
  split <;> simp

theorem intBits_pos (t : Nat) : 0 < intBits t := by
  rcases intBits_cases t with h | h | h | h <;> omega

theorem bit_eq_testBit (x i : Nat) : bit x i = x.testBit i := by
  rw [bit, Nat.testBit_eq_decide_div_mod_eq]
  rfl

/-- The two's complement number of the low n bits. -/
theorem toSigned_eq {n : Nat} (hn : 0 < n) (x : Nat) : toSigned n x = (BitVec.ofNat n x).toInt := by
  obtain ⟨k, rfl⟩ : ∃ k, n = k + 1 := ⟨n - 1, by omega⟩
  have hpow : (2 : Int) ^ (k + 1) = ((2 ^ k * 2 : Nat) : Int) := by push_cast; exact pow_succ _ _
  simp only [toSigned, BitVec.toInt, BitVec.toNat_ofNat, Nat.add_sub_cancel, hpow, Nat.pow_succ]
  split <;> split <;> omega

theorem ofSigned_eq (n : Nat) (v : Int) : ofSigned n v = (BitVec.ofInt n v).toNat := by
  simp [ofSigned, BitVec.toNat_ofInt]

theorem unsignedOf_eq (t x : Nat) : unsignedOf t x = (BitVec.ofNat (intBits t) x).toNat := by
  rw [unsignedOf, BitVec.toNat_ofNat]

theorem intValue_eq (t x : Nat) : intValue t x =
    if intSigned t then (BitVec.ofNat (intBits t) x).toInt else ((BitVec.ofNat (intBits t) x).toNat : Int) := by
  rw [intValue, toSigned_eq (intBits_pos t), BitVec.toNat_ofNat]

/-- An integer at the width of its type: modulo 2^n, extended to 32 bits where n is less (R133). -/
theorem intCode_eq (t : Nat) (v : Int) : intCode t v =
    if intSigned t then ((BitVec.ofInt (intBits t) v).signExtend (if intBits t = 64 then 64 else 32)).toNat
    else (BitVec.ofInt (intBits t) v).toNat := by
  simp only [intCode, ofSigned_eq, toSigned_eq (intBits_pos t), BitVec.ofNat_toNat, BitVec.setWidth_eq]
  rcases intBits_cases t with h | h | h | h <;> rw [h]
  · simp [BitVec.signExtend]
  · simp [BitVec.signExtend]
  · simp
  · simp

/-- Types of 32 and 64 bits fill their registers. -/
theorem intCode_wide {t : Nat} (h : 32 ≤ intBits t) (v : Int) : intCode t v = (BitVec.ofInt (intBits t) v).toNat := by
  simp only [intCode, ge_iff_le, h, if_true, ofSigned_eq]

theorem satI_eq (e : Int) {lo hi : Int} (h : lo ≤ hi) : satI e lo hi = max lo (min hi e) := by
  unfold satI
  split <;> [skip; split] <;> omega

theorem intMin_le_intMax (t : Nat) : intMin t ≤ intMax t := by
  unfold intMin intMax
  rcases intBits_cases t with h | h | h | h <;> rw [h] <;> split <;> decide

/-- An exact result saturated to the type's range or taken modulo 2^n (R139). -/
theorem intResult_eq (t : Nat) (cl : Bool) (e : Int) : intResult t cl e =
    intCode t (if cl then max (intMin t) (min (intMax t) e) else e) := by
  rw [intResult, satI_eq e (intMin_le_intMax t)]

/-! Bitwise words and counts. -/

theorem iAnd_eq (t a b : Nat) : iAnd t a b = (BitVec.ofNat (intBits t) a &&& BitVec.ofNat (intBits t) b).toNat := by
  rw [BitVec.toNat_and, ← unsignedOf_eq, ← unsignedOf_eq]; rfl

theorem iOr_eq (t a b : Nat) : iOr t a b = (BitVec.ofNat (intBits t) a ||| BitVec.ofNat (intBits t) b).toNat := by
  rw [BitVec.toNat_or, ← unsignedOf_eq, ← unsignedOf_eq]; rfl

theorem iXor_eq (t a b : Nat) : iXor t a b = (BitVec.ofNat (intBits t) a ^^^ BitVec.ofNat (intBits t) b).toNat := by
  rw [BitVec.toNat_xor, ← unsignedOf_eq, ← unsignedOf_eq]; rfl

theorem iAndn_eq (t a b : Nat) : iAndn t a b = (BitVec.ofNat (intBits t) a &&& ~~~ BitVec.ofNat (intBits t) b).toNat := by
  rw [BitVec.toNat_and, BitVec.toNat_not, ← unsignedOf_eq, ← unsignedOf_eq]; rfl

theorem getLsbD_ofNat_of_lt {n i : Nat} (hi : i < n) (x : Nat) : (BitVec.ofNat n x).getLsbD i = bit x i := by
  rw [BitVec.getLsbD_ofNat, decide_eq_true hi, Bool.true_and, bit_eq_testBit]

theorem iPopc_eq (t a : Nat) : iPopc t a = (List.range (intBits t)).countP (BitVec.ofNat (intBits t) a).getLsbD := by
  rw [iPopc, countOnes, ← List.countP_eq_length_filter]
  exact List.countP_congr fun i hi => by rw [getLsbD_ofNat_of_lt (List.mem_range.mp hi)]

/-- The first m numbers pass a test and the next one, where there is one below n, fails it. -/
theorem length_takeWhile_range {p : Nat → Bool} {m n : Nat} (hm : m ≤ n) (hall : ∀ i < m, p i = true)
    (hnext : m < n → p m = false) : ((List.range n).takeWhile p).length = m := by
  obtain ⟨k, rfl⟩ := Nat.exists_eq_add_of_le hm
  rw [List.range_add, List.takeWhile_append_of_pos fun i hi => hall i (List.mem_range.mp hi)]
  cases k with
  | zero => simp
  | succ k => simp [List.range_succ_eq_map, hnext (by omega)]

theorem iClz_eq (t a : Nat) : iClz t a =
    ((List.range (intBits t)).takeWhile fun i => !(BitVec.ofNat (intBits t) a).getLsbD (intBits t - 1 - i)).length := by
  have hlt : unsignedOf t a < 2 ^ intBits t := Nat.mod_lt _ (by positivity)
  have hbit (i : Nat) : (BitVec.ofNat (intBits t) a).getLsbD i = (unsignedOf t a).testBit i := by rw [unsignedOf_eq]; rfl
  simp only [hbit, iClz]
  generalize unsignedOf t a = u at hlt
  have hpos := intBits_pos t
  generalize intBits t = n at hlt hpos
  by_cases hu : u = 0
  · subst hu
    rw [length_takeWhile_range (Nat.le_refl n) (by simp) (by omega)]
    simp
  · have hlog : u.log2 < n := (Nat.log2_lt hu).mpr hlt
    rw [length_takeWhile_range (m := n - 1 - u.log2) (by omega)]
    · simp [hu]
    · intro i hi
      rw [Nat.testBit_lt_two_pow ((Nat.log2_lt hu).mp (by omega : u.log2 < n - 1 - i))]
      rfl
    · intro _
      rw [show n - 1 - (n - 1 - u.log2) = u.log2 by omega, Nat.testBit_log2 hu]
      rfl

/-- The sum of the terms a test selects. -/
theorem foldl_select_eq_sum (p : Nat → Bool) (g : Nat → Nat) (n : Nat) :
    (List.range n).foldl (fun r i => if p i then r + g i else r) 0 = ∑ i ∈ Finset.range n, if p i then g i else 0 := by
  induction n with
  | zero => rfl
  | succ n ih =>
    rw [List.range_succ, List.foldl_append, ih, Finset.sum_range_succ, List.foldl_cons, List.foldl_nil]
    split <;> rfl

/-- The bits summed from the other end. -/
theorem iBrev_eq_foldl (t a : Nat) : iBrev t a =
    (List.range (intBits t)).foldl (fun r i => if bit a (intBits t - 1 - i) then r + 2 ^ i else r) 0 := by
  simp only [iBrev, foldl_select_eq_sum]
  rw [← Finset.sum_range_reflect]
  refine Finset.sum_congr rfl fun i hi => ?_
  have hlt := Finset.mem_range.mp hi
  rw [show intBits t - 1 - (intBits t - 1 - i) = i by omega]

theorem iBrev_eq (t a : Nat) : iBrev t a = (BitVec.ofNat (intBits t) a).reverse.toNat := by
  rw [iBrev_eq_foldl]
  refine Nat.eq_of_testBit_eq fun l => ?_
  rw [(foldl_bits _ _).2 l, BitVec.testBit_toNat, BitVec.getLsbD_reverse, BitVec.getMsbD_eq_getLsbD]
  by_cases hl : l < intBits t
  · rw [getLsbD_ofNat_of_lt (by omega)]
  · simp [hl]

/-! Shifts. -/

theorem iShl_eq (t a c : Nat) : iShl t a c = (BitVec.ofNat (intBits t) a <<< (c % 2 ^ 32)).toNat := by
  rw [BitVec.toNat_shiftLeft, ← unsignedOf_eq, Nat.shiftLeft_eq, iShl]
  generalize c % 2 ^ 32 = k
  split
  case isTrue h => exact (Nat.mod_eq_zero_of_dvd (Dvd.dvd.mul_left (Nat.pow_dvd_pow 2 h) _)).symm
  case isFalse => rfl

theorem iShr_eq (t a c : Nat) : iShr t a c = (BitVec.ofNat (intBits t) a >>> (c % 2 ^ 32)).toNat := by
  rw [BitVec.toNat_ushiftRight, ← unsignedOf_eq, Nat.shiftRight_eq_div_pow, iShr]
  generalize c % 2 ^ 32 = k
  split
  case isTrue h =>
    have hlt : unsignedOf t a < 2 ^ intBits t := Nat.mod_lt _ (by positivity)
    exact (Nat.div_eq_of_lt (Nat.lt_of_lt_of_le hlt (Nat.pow_le_pow_right (by decide) h))).symm
  case isFalse => rfl

/-- A shift by more than the width gives the copies of the sign that a shift by the width gives. -/
theorem toInt_div_two_pow_min {n : Nat} (x : BitVec n) (k : Nat) : x.toInt / (2 ^ min k n : Nat) = x.toInt / (2 ^ k : Nat) := by
  rcases Nat.le_total k n with h | h
  · rw [Nat.min_eq_left h]
  · have hhi := BitVec.two_mul_toInt_lt (x := x)
    have hlo := BitVec.le_two_mul_toInt (x := x)
    have hpow : ((2 : Int) ^ n) ≤ 2 ^ k := pow_le_pow_right₀ (by decide) h
    have hpos : (0 : Int) < 2 ^ n := by positivity
    rw [Nat.min_eq_right h]
    push_cast
    rcases Int.lt_or_le x.toInt 0 with hneg | hnonneg
    · rw [Int.ediv_eq_neg_one_of_neg_of_le hneg (by omega), Int.ediv_eq_neg_one_of_neg_of_le hneg (by omega)]
    · rw [Int.ediv_eq_zero_of_lt hnonneg (by omega), Int.ediv_eq_zero_of_lt hnonneg (by omega)]

theorem iSar_eq {t : Nat} (hs : intSigned t = true) (hw : 32 ≤ intBits t) (a c : Nat) :
    iSar t a c = ((BitVec.ofNat (intBits t) a).sshiftRight (c % 2 ^ 32)).toNat := by
  rw [iSar, intCode_wide hw, intValue_eq, if_pos hs, toInt_div_two_pow_min, BitVec.sshiftRight, Int.shiftRight_eq_div_pow]

theorem iRotl_eq (t a c : Nat) : iRotl t a c = ((BitVec.ofNat (intBits t) a).rotateLeft (c % 2 ^ 32)).toNat := by
  have hlt : unsignedOf t a < 2 ^ intBits t := Nat.mod_lt _ (by positivity)
  rw [BitVec.toNat_rotateLeft, ← unsignedOf_eq, iRotl]
  generalize unsignedOf t a = u at hlt
  have hk : c % 2 ^ 32 % intBits t < intBits t := Nat.mod_lt _ (intBits_pos t)
  generalize c % 2 ^ 32 % intBits t = k at hk
  obtain ⟨m, hm⟩ := Nat.exists_eq_add_of_lt hk
  generalize intBits t = n at *
  have hlow : u / 2 ^ (n - k) < 2 ^ k := by
    rw [Nat.div_lt_iff_lt_mul (by positivity), ← pow_add]
    rwa [show k + (n - k) = n by omega]
  have hhigh : u * 2 ^ k % 2 ^ n = (u % 2 ^ (n - k)) <<< k := by
    rw [Nat.shiftLeft_eq, ← Nat.mul_mod_mul_right, ← pow_add, show n - k + k = n by omega]
  rw [hhigh, Nat.shiftLeft_add_eq_or_of_lt hlow, ← hhigh, Nat.shiftLeft_eq, Nat.shiftRight_eq_div_pow]

/-! Bit fields (R142). -/

/-- The number with the low o bits and the bits from o + l of y, and between them the low l bits of u. -/
theorem testBit_replaceField (y u o l i : Nat) :
    (y - y / 2 ^ o % 2 ^ l * 2 ^ o + u % 2 ^ l * 2 ^ o).testBit i =
      if i < o then y.testBit i else if i < o + l then u.testBit (i - o) else y.testBit i := by
  have hy : y = 2 ^ o * (2 ^ l * (y / 2 ^ o / 2 ^ l) + y / 2 ^ o % 2 ^ l) + y % 2 ^ o := by
    rw [Nat.div_add_mod, Nat.div_add_mod]
  have hsum : y - y / 2 ^ o % 2 ^ l * 2 ^ o + u % 2 ^ l * 2 ^ o =
      2 ^ o * (2 ^ l * (y / 2 ^ o / 2 ^ l) + u % 2 ^ l) + y % 2 ^ o := by
    rw [Nat.sub_eq_of_eq_add (c := 2 ^ o * (2 ^ l * (y / 2 ^ o / 2 ^ l)) + y % 2 ^ o)]
    · ring
    · calc y = _ := hy
        _ = _ := by ring
  rw [hsum, Nat.testBit_two_pow_mul_add _ (Nat.mod_lt _ (by positivity))]
  split
  case isTrue h => rw [Nat.testBit_mod_two_pow, decide_eq_true h, Bool.true_and]
  case isFalse h =>
    rw [Nat.testBit_two_pow_mul_add _ (Nat.mod_lt _ (by positivity))]
    by_cases hl : i < o + l
    · rw [if_pos (by omega), if_pos hl, Nat.testBit_mod_two_pow, decide_eq_true (by omega), Bool.true_and]
    · rw [if_neg (by omega), if_neg hl, Nat.testBit_div_two_pow, Nat.testBit_div_two_pow]
      congr 1
      omega

/-- The mask of the bits from o up to p. -/
theorem testBit_fieldMask {o p : Nat} (h : o ≤ p) (i : Nat) : (2 ^ p - 2 ^ o).testBit i = (decide (o ≤ i) && decide (i < p)) := by
  obtain ⟨l, rfl⟩ := Nat.exists_eq_add_of_le h
  rw [show 2 ^ (o + l) - 2 ^ o = (2 ^ l - 1) <<< o by rw [Nat.shiftLeft_eq, Nat.sub_mul, ← pow_add, Nat.add_comm l o, Nat.one_mul],
    Nat.testBit_shiftLeft, Nat.testBit_two_pow_sub_one]
  by_cases ho : o ≤ i
  · simp [ho, Nat.sub_lt_iff_lt_add ho, Nat.add_comm]
  · simp [ho]

/-- The field a control names: empty, or the bits from its offset up to its end within the type. -/
theorem bitField_eq (n ctl : Nat) : bitField n ctl =
    if (ctl / 256 % 256 == 0 || decide (n ≤ ctl % 256)) = true then none
    else some (ctl % 256, min (ctl % 256 + ctl / 256 % 256) n - ctl % 256) := rfl

theorem iBfe_eq {t : Nat} (hw : 32 ≤ intBits t) (a k : Nat) : iBfe t a k =
    let top := min (k % 256 + k / 256 % 256) (intBits t)
    let u := (BitVec.ofNat (intBits t) a).toNat
    if (k / 256 % 256 == 0 || decide (intBits t ≤ k % 256)) = true then 0
    else if intSigned t then (BitVec.signExtend (intBits t) (BitVec.ofNat (top - k % 256) (u / 2 ^ (k % 256)))).toNat
    else u / 2 ^ (k % 256) % 2 ^ (top - k % 256) := by
  simp only [iBfe, bitField_eq, ← unsignedOf_eq]
  by_cases h : (k / 256 % 256 == 0 || decide (intBits t ≤ k % 256)) = true
  · rw [if_pos h, if_pos h]
  · rw [if_neg h, if_neg h]
    simp only [Bool.or_eq_true, beq_iff_eq, decide_eq_true_eq, not_or, Nat.not_le] at h
    have hl : 0 < min (k % 256 + k / 256 % 256) (intBits t) - k % 256 := by omega
    have hmod (l x : Nat) : BitVec.ofNat l (x % 2 ^ l) = BitVec.ofNat l x := BitVec.eq_of_toNat_eq (by simp)
    simp only [toSigned_eq hl, intCode_wide hw, BitVec.signExtend, hmod]

theorem iBfi_eq (t a b k : Nat) : iBfi t a b k =
    let field := BitVec.ofNat (intBits t) (2 ^ min (k % 256 + k / 256 % 256) (intBits t) - 2 ^ (k % 256))
    if (k / 256 % 256 == 0 || decide (intBits t ≤ k % 256)) = true then (BitVec.ofNat (intBits t) b).toNat
    else ((BitVec.ofNat (intBits t) b &&& ~~~field) ||| ((BitVec.ofNat (intBits t) a <<< (k % 256)) &&& field)).toNat := by
  simp only [iBfi, bitField_eq, unsignedOf_eq]
  by_cases h : (k / 256 % 256 == 0 || decide (intBits t ≤ k % 256)) = true
  · rw [if_pos h, if_pos h]
  · rw [if_neg h, if_neg h]
    simp only [Bool.or_eq_true, beq_iff_eq, decide_eq_true_eq, not_or, Nat.not_le] at h
    obtain ⟨hop, hpn⟩ : k % 256 ≤ min (k % 256 + k / 256 % 256) (intBits t) ∧
      min (k % 256 + k / 256 % 256) (intBits t) ≤ intBits t := by omega
    generalize min (k % 256 + k / 256 % 256) (intBits t) = p at *
    generalize k % 256 = o at *
    refine Nat.eq_of_testBit_eq fun i => ?_
    simp only [testBit_replaceField, Nat.add_sub_cancel' hop, BitVec.testBit_toNat, BitVec.getLsbD_or, BitVec.getLsbD_and,
      BitVec.getLsbD_not, BitVec.getLsbD_shiftLeft, BitVec.getLsbD_ofNat, testBit_fieldMask hop]
    rcases Nat.lt_or_ge i o with hio | hoi
    · simp [hio, show i < intBits t by omega, show ¬ o ≤ i by omega]
    · rcases Nat.lt_or_ge i p with hip | hpi
      · simp [hip, hoi, show i < intBits t by omega, show ¬ i < o by omega]
      · by_cases hin : i < intBits t <;> simp [hin, show ¬ i < o by omega, show ¬ i < p by omega]

/-! LEA, PRMT, IDOT4 (R143–R145). -/

theorem iLea_eq (t a b sh : Nat) (ht : t = 0 ∨ t = 1) : iLea t a b sh = (BitVec.ofNat 64 a +
    ((if t = 0 then (BitVec.ofNat 32 b).signExtend 64 else (BitVec.ofNat 32 b).setWidth 64) <<< sh)).toNat := by
  have hindex : (if t = 0 then (BitVec.ofNat 32 b).signExtend 64 else (BitVec.ofNat 32 b).setWidth 64) =
      BitVec.ofInt 64 (intValue t b) := by
    rw [intValue_eq]
    rcases ht with rfl | rfl
    · rfl
    · rw [if_neg (by decide), if_neg (by decide), BitVec.ofInt_natCast, BitVec.ofNat_toNat]
      rfl
  rw [iLea, ofSigned_eq, hindex, BitVec.shiftLeft_eq_mul_twoPow, BitVec.ofInt_add, BitVec.ofInt_mul,
    BitVec.ofInt_natCast, BitVec.ofInt_natCast]
  congr 3
  exact BitVec.eq_of_toNat_eq (by simp)

/-- Byte 0 to 7 of a pair, by the low three bits of a selector (R144). -/
def pickedByte (pair sel : Nat) : Nat := pair / 2 ^ (8 * (sel % 8)) % 256

/-- What a selector makes of the byte it names (R144): the byte, 0, or eight copies of its bit 7 or 0. -/
def selectedByte (pair sel : Nat) : Nat :=
  if sel / 8 = 0 then pickedByte pair sel else if sel / 8 = 1 then 0
  else if sel / 8 = 2 then (if 128 ≤ pickedByte pair sel then 255 else 0) else if pickedByte pair sel % 2 = 1 then 255 else 0

theorem iPrmt_eq_selected (a b c : Nat) : iPrmt a b c =
    let pair := a % 2 ^ 32 + b % 2 ^ 32 * 2 ^ 32
    selectedByte pair (c / 2 ^ (5 * 0) % 32) + selectedByte pair (c / 2 ^ (5 * 1) % 32) * 2 ^ 8 +
      selectedByte pair (c / 2 ^ (5 * 2) % 32) * 2 ^ 16 + selectedByte pair (c / 2 ^ (5 * 3) % 32) * 2 ^ 24 := by
  have hbyte (pair sel : Nat) : selectedByte pair sel = (match sel / 8 with
      | 0 => pickedByte pair sel
      | 1 => 0
      | 2 => if bit (pickedByte pair sel) 7 then 255 else 0
      | _ => if bit (pickedByte pair sel) 0 then 255 else 0) := by
    have hlt : pickedByte pair sel < 256 := Nat.mod_lt _ (by decide)
    have h7 : bit (pickedByte pair sel) 7 = decide (128 ≤ pickedByte pair sel) := by
      rw [bit, Bool.beq_eq_decide_eq, decide_eq_decide]
      omega
    have h0 : bit (pickedByte pair sel) 0 = decide (pickedByte pair sel % 2 = 1) := by rw [bit, Nat.pow_zero, Nat.div_one]; rfl
    simp only [selectedByte, h7, h0, decide_eq_true_eq]
    generalize sel / 8 = m
    rcases m with _ | _ | _ | m <;> rfl
  simp only [hbyte]
  rfl

theorem iPrmt_eq (a b c : Nat) : iPrmt a b c = permuted a b c := by
  have hpow (q : Nat) : 2 ^ (8 * (q % 8)) = 256 ^ (q % 8) := pow_mul 2 8 _
  simp only [iPrmt_eq_selected, permuted, selectedByte, pickedByte, hpow]
  norm_num

/-- A number modulo 2^n, by its sign where the type is signed. -/
theorem intValue_eq_ite (t x : Nat) : intValue t x =
    if (intSigned t && decide (2 ^ (intBits t - 1) ≤ x % 2 ^ intBits t)) = true
    then ((x % 2 ^ intBits t : Nat) : Int) - 2 ^ intBits t
    else ((x % 2 ^ intBits t : Nat) : Int) := by
  simp only [intValue, toSigned]
  cases intSigned t
  · rfl
  · simp only [Bool.true_and, if_true, decide_eq_true_eq, ← Nat.not_lt, ite_not]

theorem iDot4_eq {t : Nat} (ht : t = 6 ∨ t = 7) (cl : Bool) (a b c : Nat) : iDot4 t cl a b c = dotted (t = 6) cl a b c := by
  have hbyte (x k : Nat) : x / 2 ^ (8 * k) = x / 256 ^ k := congrArg (x / ·) (pow_mul 2 8 k)
  have hcode (t : Nat) (h : intBits t = 32) (v : Int) : intCode t v = (v % 2 ^ 32).toNat := by
    simp only [intCode, ofSigned, h, ge_iff_le, le_refl, if_true]
  have hset : ∀ t ∈ [6, 7], intBits t = 8 ∧ intBits (t - 6) = 32 ∧ intSigned (t - 6) = intSigned t ∧ intSigned t = decide (t = 6) := by
    decide
  obtain ⟨h8, h32, hs, hd⟩ := hset t (by simpa using ht)
  simp only [iDot4, intResult_eq, hcode _ h32, intMin, intMax, h32, intValue_eq_ite, h8, hs, hbyte, ← hd]
  rfl

end Sys2Proof.Machine
end

