-- ==== Sys2Proof/Proofs/WordRows.lean ====
section
/-! SUPPORT. The tables of words that the statements are written over describe the words of the model: what each reads, the registers it
writes, its value under its environment. -/

namespace Sys2Proof.Machine
open Sys2Proof.Claims

/-- The row `r` describes the word `x` that the opcode `opc` runs with the fields `f`. -/
structure Describes (f : AluW) (r : Row) (opc : Nat) (x : AluSpec) : Prop where
  exec : ∀ s, exec r.i s = runAlu opc f r.own x s
  op : ∀ (rd : BitVec 8 × Nat → Nat) (pin : Bool) (lane : Nat) (rm : RM) (ftz : Bool),
    x.op ⟨x.a.elim 0 rd, x.b.elim x.imm rd, x.c.elim 0 rd, pin, lane, rm, ftz⟩ = LaneOut.ofFloat (r.at ⟨rm, ftz, f.sc, f.cl⟩ rd)
  srcs : x.a.toList ++ x.b.toList ++ x.c.toList = r.srcs := by exact rfl
  dst : x.dst = some (f.d, r.n) := by exact rfl
  pdst : x.pdst = none := by exact rfl
  psrc : x.psrc = none := by exact rfl
  sgn : x.sgn = r.sgn := by exact rfl
  bad : x.bad = false := by exact rfl
  idle : ∀ k ∈ x.idle, (Regs.one k).laneOk = true := by exact fun _ h => nomatch h

theorem intOk_type {f : AluW} {tys : List Nat} {n : Nat} {k : Takes} (h : intOk f tys n k = true) : ty3 f.var ∈ tys := by
  simp only [intOk, Bool.and_eq_true, List.contains_iff_mem] at h
  tauto

/-- In the immediate form a word of one source names none (R95). -/
theorem intOk_imm {f : AluW} {tys : List Nat} {k : Takes} (h : intOk f tys 1 k = true) : (immFlag f.var && f.a != 0#8) = false := by
  simp only [intOk, Bool.and_eq_true, srcsOk] at h
  cases hi : immFlag f.var <;> simp_all

/-- LEA takes bits 6:4 for itself. -/
theorem intOk_type_of_sc {f : AluW} {tys : List Nat} {n : Nat} {k : Takes} (h : intOk { f with sc := 0#3 } tys n k = true) :
    ty3 f.var ∈ tys :=
  intOk_type (f := { f with sc := 0#3 }) h

/-- A word that contexts and callable evaluations have describes the row, whose value does not depend on the environment. -/
def IntDescribed (f : AluW) (r : Row) : Prop := ∃ opc x, Describes f r opc x ∧ streamAllows opc = true ∧ callableAllows opc = true ∧
  ∀ (e e' : Env) (rd : BitVec 8 × Nat → Nat), r.at e rd = r.at e' rd

/-- A word that callable evaluations have describes the row. -/
def LaneDescribed (f : AluW) (r : Row) : Prop := ∃ opc x, Describes f r opc x ∧ callableAllows opc = true

section
variable {f : AluW} {i : Instr} {opc wb : Nat} {sgn : Bool} {op : Nat → LaneIn → Nat}

/-- A row of one, two or three integer sources is described by the word that computes its value. -/
theorem intDescribed_unary {v : Nat → Nat} (hi : ∀ s, exec i s = runAlu opc f false (intSpec f 1 wb sgn op) s)
    (ho : streamAllows opc = true ∧ callableAllows opc = true) (hv : ∀ x : LaneIn, op (ty3 f.var) x = v x.a) :
    IntDescribed f
      { i := i, a := some (f.a, intRegs (ty3 f.var)), n := intRegs (ty3 f.var), sgn := sgn, val := fun _ a _ _ => (v a, Exc.none) } :=
  ⟨opc, _, { exec := hi, op := fun _ _ _ _ _ => congrArg LaneOut.ofInt (hv _) }, ho.1, ho.2, fun _ _ _ => rfl⟩

theorem intDescribed_binary {v : Nat → Nat → Nat} (hi : ∀ s, exec i s = runAlu opc f false (intSpec f 2 wb sgn op) s)
    (ho : streamAllows opc = true ∧ callableAllows opc = true) (hv : ∀ x : LaneIn, op (ty3 f.var) x = v x.a x.b) :
    IntDescribed f
      { i := i, a := some (f.a, intRegs (ty3 f.var)), b := if immFlag f.var then none else some (f.b, wb),
        imm := intImm (ty3 f.var) f.imm, n := intRegs (ty3 f.var), sgn := sgn, val := fun _ a b _ => (v a b, Exc.none) } :=
  ⟨opc, _, { exec := hi, op := fun _ _ _ _ _ => congrArg LaneOut.ofInt (hv _) }, ho.1, ho.2, fun _ _ _ => rfl⟩

theorem intDescribed_ternary {v : Nat → Nat → Nat → Nat} (hi : ∀ s, exec i s = runAlu opc f false (intSpec f 3 wb sgn op) s)
    (ho : streamAllows opc = true ∧ callableAllows opc = true) (hv : ∀ x : LaneIn, op (ty3 f.var) x = v x.a x.b x.c) :
    IntDescribed f
      { i := i, a := some (f.a, intRegs (ty3 f.var)), b := if immFlag f.var then none else some (f.b, wb),
        c := some (f.c, intRegs (ty3 f.var)), imm := intImm (ty3 f.var) f.imm, n := intRegs (ty3 f.var), sgn := sgn,
        val := fun _ a b c => (v a b c, Exc.none) } :=
  ⟨opc, _, { exec := hi, op := fun _ _ _ _ _ => congrArg LaneOut.ofInt (hv _) }, ho.1, ho.2, fun _ _ _ => rfl⟩

end

theorem intRows_described (f : AluW) : ∀ r ∈ intRows f, r.i.wf = true → IntDescribed f r := by
  have sat (e : Int) := (intResult_eq (ty3 f.var) f.cl e).trans (intCode_eq _ _)
  have code (v : Int) := intCode_eq (ty3 f.var) v
  have low (x y : Int) : (if x ≤ y then x else y) = min x y := (min_def x y).symm
  have high (x y : Int) : (if x ≤ y then y else x) = max x y := (max_def x y).symm
  have wide : ∀ t ∈ tysW, 32 ≤ intBits t := by decide
  have sars : ∀ t ∈ [0, 2], intSigned t = true ∧ 32 ≤ intBits t := by decide
  have leas : ∀ t ∈ [0, 1], t = 0 ∨ t = 1 := by decide
  simp only [intRows, List.forall_mem_cons, List.not_mem_nil, false_implies, implies_true, and_true]
  exact ⟨
    fun _ => intDescribed_binary (fun _ => rfl) ⟨rfl, rfl⟩ fun _ => sat _,
    fun _ => intDescribed_binary (fun _ => rfl) ⟨rfl, rfl⟩ fun _ => sat _,
    fun _ => intDescribed_binary (fun _ => rfl) ⟨rfl, rfl⟩ fun _ => sat _,
    fun _ => intDescribed_binary (fun _ => rfl) ⟨rfl, rfl⟩ fun _ => (code _).trans (by push_cast; rfl),
    fun _ => intDescribed_ternary (fun _ => rfl) ⟨rfl, rfl⟩ fun _ => sat _,
    fun _ => intDescribed_binary (fun _ => rfl) ⟨rfl, rfl⟩ fun _ => (congrArg (intResult _ _) (low _ _)).trans (sat _),
    fun _ => intDescribed_binary (fun _ => rfl) ⟨rfl, rfl⟩ fun _ => (congrArg (intResult _ _) (high _ _)).trans (sat _),
    fun _ => intDescribed_binary (fun _ => rfl) ⟨rfl, rfl⟩ fun _ => rfl,
    fun _ => intDescribed_binary (fun _ => rfl) ⟨rfl, rfl⟩ fun _ => by simp only [iDiv, beq_iff_eq, code],
    fun _ => intDescribed_binary (fun _ => rfl) ⟨rfl, rfl⟩ fun _ => by simp only [iRem, beq_iff_eq, code],
    fun _ => intDescribed_binary (fun _ => rfl) ⟨rfl, rfl⟩ fun _ => iAnd_eq _ _ _,
    fun _ => intDescribed_binary (fun _ => rfl) ⟨rfl, rfl⟩ fun _ => iOr_eq _ _ _,
    fun _ => intDescribed_binary (fun _ => rfl) ⟨rfl, rfl⟩ fun _ => iXor_eq _ _ _,
    fun _ => intDescribed_binary (fun _ => rfl) ⟨rfl, rfl⟩ fun _ => iAndn_eq _ _ _,
    fun _ => ⟨0x32, countSpec f iPopc, { exec := fun _ => rfl, op := fun _ _ _ _ _ => congrArg LaneOut.ofInt (iPopc_eq _ _) },
      rfl, rfl, fun _ _ _ => rfl⟩,
    fun _ => ⟨0x31, countSpec f iClz, { exec := fun _ => rfl, op := fun _ _ _ _ _ => congrArg LaneOut.ofInt (iClz_eq _ _) },
      rfl, rfl, fun _ _ _ => rfl⟩,
    fun _ => intDescribed_unary (fun _ => rfl) ⟨rfl, rfl⟩ fun _ => iBrev_eq _ _,
    fun _ => intDescribed_binary (fun _ => rfl) ⟨rfl, rfl⟩ fun _ => iShl_eq _ _ _,
    fun _ => intDescribed_binary (fun _ => rfl) ⟨rfl, rfl⟩ fun _ => iShr_eq _ _ _,
    fun h => intDescribed_binary (fun _ => rfl) ⟨rfl, rfl⟩ fun _ => iSar_eq (sars _ (intOk_type h)).1 (sars _ (intOk_type h)).2 _ _,
    fun _ => intDescribed_binary (fun _ => rfl) ⟨rfl, rfl⟩ fun _ => iRotl_eq _ _ _,
    fun h => intDescribed_binary (fun _ => rfl) ⟨rfl, rfl⟩ fun _ => iBfe_eq (wide _ (intOk_type h)) _ _,
    fun _ => ⟨0x35, _, { exec := fun _ => rfl, op := fun _ _ _ _ _ => congrArg LaneOut.ofInt (iBfi_eq _ _ _ _) },
      rfl, rfl, fun _ _ _ => rfl⟩,
    fun h =>
      have ht := leas _ (intOk_type_of_sc h)
      ⟨0x36, _, { exec := fun _ => rfl, op := fun _ _ _ _ _ => congrArg LaneOut.ofInt (iLea_eq _ _ _ _ ht) }, rfl, rfl, fun _ _ _ => rfl⟩,
    fun h => ⟨0x39, _, { exec := fun _ => rfl, op := fun _ _ _ _ _ => rfl, bad := intOk_imm h }, rfl, rfl, fun _ _ _ => rfl⟩,
    fun _ =>
      have low (a : Nat) : a - a / 2 ^ 0 % 65536 * 2 ^ 0 + f.imm.toNat * 2 ^ 0 = a - a % 65536 + f.imm.toNat := by simp
      ⟨0x3A, _, { exec := fun _ => rfl, op := fun _ _ _ _ _ => congrArg LaneOut.ofInt (low _) }, rfl, rfl, fun _ _ _ => rfl⟩,
    fun _ => ⟨0x3B, _, { exec := fun _ => rfl, op := fun _ _ _ _ _ => rfl },
      rfl, rfl, fun _ _ _ => rfl⟩,
    fun _ => intDescribed_ternary (fun _ => rfl) ⟨rfl, rfl⟩ fun _ => iPrmt_eq _ _ _⟩

section
variable {f : AluW} {i : Instr} {opc : Nat} {op : LaneIn → Nat × Exc}

/-- A row of one, two or three float sources is described by the word that computes its value. -/
theorem laneDescribed_unary {v : Env → Nat → Nat × Exc} (hi : ∀ s, exec i s = runAlu opc f false (floatSpec f 1 op) s)
    (ho : callableAllows opc = true) (hv : ∀ x : LaneIn, op x = v (aluEnv f x) x.a) :
    LaneDescribed f { i := i, a := some (f.a, 1), val := fun e a _ _ => v e a } :=
  ⟨opc, _, { exec := hi, op := fun _ _ _ _ _ => congrArg LaneOut.ofFloat (hv _) }, ho⟩

theorem laneDescribed_binary {v : Env → Nat → Nat → Nat × Exc} (hi : ∀ s, exec i s = runAlu opc f false (floatSpec f 2 op) s)
    (ho : callableAllows opc = true) (hv : ∀ x : LaneIn, op x = v (aluEnv f x) x.a x.b) :
    LaneDescribed f
      { i := i, a := some (f.a, 1), b := if immFlag f.var then none else some (f.b, 1), imm := floatImm (ty3 f.var) f.imm,
        val := fun e a b _ => v e a b } :=
  ⟨opc, _, { exec := hi, op := fun _ _ _ _ _ => congrArg LaneOut.ofFloat (hv _) }, ho⟩

theorem laneDescribed_ternary {v : Env → Nat → Nat → Nat → Nat × Exc} (hi : ∀ s, exec i s = runAlu opc f false (floatSpec f 3 op) s)
    (ho : callableAllows opc = true) (hv : ∀ x : LaneIn, op x = v (aluEnv f x) x.a x.b x.c) :
    LaneDescribed f
      { i := i, a := some (f.a, 1), b := if immFlag f.var then none else some (f.b, 1), c := some (f.c, 1),
        imm := floatImm (ty3 f.var) f.imm, val := v } :=
  ⟨opc, _, { exec := hi, op := fun _ _ _ _ _ => congrArg LaneOut.ofFloat (hv _) }, ho⟩

end

theorem idot4_described {f : AluW} (h : (Instr.idot4 f).wf = true) :
    Describes f
      { i := .idot4 f, a := some (f.a, 1), b := if immFlag f.var then none else some (f.b, 1), c := some (f.c, 1),
        imm := intImm (ty3 f.var) f.imm, val := fun _ a b c => (dotted (ty3 f.var = 6) f.cl a b c, Exc.none) }
      0x3D (intSpec f 3 1 false fun t i => iDot4 t f.cl i.a i.b i.c) := by
  have types : ∀ t ∈ [6, 7], (t = 6 ∨ t = 7) ∧ intRegs t = 1 := by decide
  obtain ⟨ht, hw⟩ := types _ (intOk_type h)
  exact {
    exec := fun _ => rfl
    op := fun _ _ _ _ _ => congrArg LaneOut.ofInt ((iDot4_eq ht _ _ _ _).trans (by simp only [intSpec, hw]; rfl))
    srcs := by simp only [intSpec, hw]; rfl
    dst := by simp only [intSpec, hw] }

/-- PACK reads C when its elements are narrower than 16 bits, and else only names it (R164). -/
theorem pack_described {f : AluW} (h : namedC f (.pack f) = true) :
    ∃ x, Describes f
      { i := .pack f, a := some (f.a, 1), b := some (f.b, 1), c := if packWidth f.var.toNat == 16 then none else some (f.c, 1),
        val := fun e a b c => fPack f.var.toNat ⟨roundOverride e.rm f.h, e.ftz, f.sc, f.cl⟩ ⟨f.ma, f.mb, f.mc⟩ a b c } 0x73 x := by
  let x : AluSpec := cvt3 f fun i => fPack f.var.toNat (cvtEnv f i) (aluMods f) i.a i.b i.c
  have hexec (s : State) : exec (.pack f) s =
      runAlu 0x73 f false (if packWidth f.var.toNat == 16 then { x with c := none, idle := some f.c } else x) s := rfl
  cases hw : packWidth f.var.toNat == 16 <;> simp only [hw] at hexec
  case false => exact ⟨x, { exec := hexec, op := fun _ _ _ _ _ => rfl }⟩
  case true =>
    exact ⟨{ x with c := none, idle := some f.c },
      { exec := hexec, op := fun _ _ _ _ _ => rfl, idle := fun k hk => Option.some.inj hk ▸ h }⟩

/-- An operand that must exist once for the gang does, where a word reads it (R74). -/
theorem extra_ok {reads uniform z : Bool} (h : (!reads || uniform || z) = true) : (reads && !(uniform || z)) = false := by
  revert reads uniform z
  decide

theorem laneRows_described (f : AluW) : ∀ r ∈ laneRows f, r.i.wf = true → namedC f r.i = true → LaneDescribed f r := by
  simp only [laneRows, List.forall_mem_cons, List.not_mem_nil, false_implies, implies_true, and_true]
  exact ⟨
    fun h _ => ⟨0x3D, _, idot4_described h, rfl⟩,
    fun _ _ => laneDescribed_binary (fun _ => rfl) rfl fun _ => rfl,
    fun _ _ => laneDescribed_binary (fun _ => rfl) rfl fun _ => rfl,
    fun _ _ => laneDescribed_binary (fun _ => rfl) rfl fun _ => rfl,
    fun _ _ => laneDescribed_ternary (fun _ => rfl) rfl fun _ => rfl,
    fun _ _ => laneDescribed_binary (fun _ => rfl) rfl fun _ => rfl,
    fun _ _ => laneDescribed_binary (fun _ => rfl) rfl fun _ => rfl,
    fun _ _ => laneDescribed_unary (fun _ => rfl) rfl fun _ => rfl,
    fun _ _ => laneDescribed_unary (fun _ => rfl) rfl fun _ => rfl,
    fun _ _ => laneDescribed_unary (fun _ => rfl) rfl fun _ => rfl,
    fun _ _ => laneDescribed_unary (fun _ => rfl) rfl fun _ => rfl,
    fun _ _ => laneDescribed_unary (fun _ => rfl) rfl fun _ => rfl,
    fun _ _ => laneDescribed_unary (fun _ => rfl) rfl fun _ => rfl,
    fun _ _ => laneDescribed_unary (fun _ => rfl) rfl fun _ => rfl,
    fun _ _ => laneDescribed_binary (fun _ => rfl) rfl fun _ => rfl,
    fun _ _ => laneDescribed_unary (fun _ => rfl) rfl fun _ => rfl,
    fun _ _ => laneDescribed_unary (fun _ => rfl) rfl fun _ => rfl,
    fun _ _ => laneDescribed_unary (fun _ => rfl) rfl fun _ => rfl,
    fun _ _ => laneDescribed_unary (fun _ => rfl) rfl fun _ => rfl,
    fun _ _ => laneDescribed_unary (fun _ => rfl) rfl fun _ => rfl,
    fun _ _ => ⟨0x65, _, { exec := fun _ => rfl, op := fun _ _ _ _ _ => rfl }, rfl⟩,
    fun _ _ => laneDescribed_unary (fun _ => rfl) rfl fun _ => rfl,
    fun _ _ => laneDescribed_ternary (fun _ => rfl) rfl fun _ => rfl,
    fun _ _ => laneDescribed_ternary (fun _ => rfl) rfl fun _ => rfl,
    fun _ _ => laneDescribed_binary (fun _ => rfl) rfl fun _ => rfl,
    fun _ _ => laneDescribed_binary (fun _ => rfl) rfl fun _ => rfl,
    fun _ _ => laneDescribed_ternary (fun _ => rfl) rfl fun _ => rfl,
    fun _ _ => laneDescribed_ternary (fun _ => rfl) rfl fun _ => rfl,
    fun _ h => ⟨0x70, _, { exec := fun _ => rfl, op := fun _ _ _ _ _ => rfl, bad := extra_ok h }, rfl⟩,
    fun _ _ => ⟨0x71, _, { exec := fun _ => rfl, op := fun _ _ _ _ _ => rfl }, rfl⟩,
    fun _ _ => ⟨0x72, _, { exec := fun _ => rfl, op := fun _ _ _ _ _ => rfl }, rfl⟩,
    fun _ h =>
      have ⟨x, hx⟩ := pack_described h
      ⟨0x73, x, hx, rfl⟩,
    fun _ h => ⟨0x74, _, { exec := fun _ => rfl, op := fun _ _ _ _ _ => rfl, bad := extra_ok h }, rfl⟩⟩

/-- The words of both tables, in a lane of a callable evaluation (R121). -/
theorem rows_described {f : AluW} : ∀ r ∈ intRows f ++ laneRows f, r.i.wf = true → namedC f r.i = true → LaneDescribed f r := by
  intro r hr hwf hnamed
  rcases List.mem_append.mp hr with hint | hlane
  · obtain ⟨opc, x, hx, -, ho, -⟩ := intRows_described f r hint hwf
    exact ⟨opc, x, hx, ho⟩
  · exact laneRows_described f r hlane hwf hnamed

end Sys2Proof.Machine
end

