-- ==== Sys2Proof/Proofs/ContextWords.lean ====
section
/-! SUPPORT. How an arithmetic word ends in a Contrail context (R110, R308) and in a lane of a callable evaluation (R299). -/

namespace Sys2Proof.Machine
open Sys2Proof.Claims

/-! The issuer. -/

theorem readyCtx_spec {s : State} {check : KCtx → Except Stop Unit} {c : KCtx} (h : readyCtx s check = some c) :
    ∃ x, s.cur = .context x ∧ kctx? s x = some c ∧ check c = .ok () := by
  unfold readyCtx at h
  split at h
  · rename_i x hcur
    obtain ⟨c', h0, h1⟩ := Option.bind_eq_some_iff.mp h
    cases hc : check c' with
    | error e => simp [hc, Except.toOption] at h1
    | ok u =>
      obtain rfl : c' = c := by simpa [hc, Except.toOption] using h1
      exact ⟨x, hcur, h0, hc⟩
  · cases h

theorem readyLane_spec {s : State} {check : Eval → Except Stop Unit} {k : Nat} {e : Eval} (h : readyLane s check = some (k, e)) :
    s.cur = .lane k ∧ laneOf s k = some e ∧ check e = .ok () := by
  unfold readyLane at h
  split at h
  · rename_i k' hcur
    obtain ⟨e', h0, h1⟩ := Option.bind_eq_some_iff.mp h
    cases hc : check e' with
    | error e => simp [hc, Except.toOption] at h1
    | ok u =>
      obtain ⟨rfl, rfl⟩ : k' = k ∧ e' = e := by simpa [hc, Except.toOption] using h1
      exact ⟨hcur, h0, hc⟩
  · cases h

section
variable {i : Instr} {s : State} {opc : Nat} {g : BitVec 4} {wave : WCtx → Except Stop State} {ctx : KCtx → Except Stop State}
  {lane : Eval → Except Stop Eval}

/-- A word of a context that completes once its checks pass: its next state is the one its meaning gives. -/
theorem exec_readyCtx {s' : State} {check : KCtx → Except Stop Unit} {c : KCtx} (hi : exec i s = issue opc g s wave ctx lane)
    (ho : streamAllows opc = true) (hr : readyCtx s check = some c) (hc : check c = .ok () → ctx c = .ok s') : exec i s = .next s' := by
  obtain ⟨x, hcur, h0, hok⟩ := readyCtx_spec hr
  rw [hi, issue_context hcur h0 ho, hc hok, finishCtx_ok]

/-- A word of a lane that completes once its checks pass: the lane stands as its meaning leaves it. -/
theorem exec_readyLane {check : Eval → Except Stop Unit} {k : Nat} {e e' : Eval} (hi : exec i s = issue opc g s wave ctx lane)
    (ho : callableAllows opc = true) (hr : readyLane s check = some (k, e)) (hl : check e = .ok () → lane e = .ok e') :
    exec i s = .next (setLane s k e') := by
  obtain ⟨hcur, h0, hok⟩ := readyLane_spec hr
  simp only [hi, issue, hcur, h0, ho, if_true, hl hok]
  rfl

end

/-! An arithmetic word of a context. -/

/-- The registers such a word reads and writes (R308). -/
def AluSpec.ctxSrcs (x : AluSpec) : List (BitVec 8) := (x.a.toList ++ x.b.toList ++ x.c.toList).map (·.1) ++ x.psrc.toList
def AluSpec.ctxDsts (x : AluSpec) : List (BitVec 8) := x.dst.toList.map (·.1) ++ x.pdst.toList

/-- What it reads, and the context after its results are written. -/
def AluSpec.ctxIn (x : AluSpec) (c : KCtx) : LaneIn where
  a := x.a.elim 0 fun p => c.k p.1
  b := x.b.elim x.imm fun p => c.k p.1
  c := x.c.elim 0 fun p => c.k p.1
  pin := x.psrc.any fun p => if x.carry then bit (c.k p) 0 else c.k p != 0
  lane := 0
  rm := RM.ne
  ftz := false
def AluSpec.ctxAfter (x : AluSpec) (c : KCtx) : Ctx :=
  let X := x.dst.elim c.X fun p => c.X.putK p.1 (x.ext (x.op (x.ctxIn c)).val)
  x.pdst.elim X fun p => X.putK p (x.op (x.ctxIn c)).pred.toNat

theorem AluSpec.stream_eq {x : AluSpec} {c : KCtx} (hbad : x.bad = false) (ho : c.open x.ctxSrcs x.ctxDsts = .ok ())
    (hp : c.checkPoison x.ctxSrcs = .ok ()) : x.stream true c = .ok (c.retire (x.ctxAfter c)) := by
  unfold AluSpec.ctxSrcs at ho hp
  unfold AluSpec.ctxDsts at ho
  simp only [AluSpec.stream, hbad, Bool.not_true, Bool.or_self, trapIf_false, except_ok_bind, ho, hp, AluSpec.ctxAfter]
  cases x.dst <;> cases x.pdst <;> rfl

theorem AluSpec.ext_eq {x : AluSpec} {d : BitVec 8} {n : Nat} (hd : x.dst = some (d, n)) (v : Nat) :
    x.ext v = if n = 1 ∧ x.sgn = true then ofSigned 64 (toSigned 32 v) else v := by
  unfold AluSpec.ext
  rw [hd]
  rcases n with _ | _ | n
  · simp
  · simp
  · simp

theorem AluSpec.ext_unsigned {x : AluSpec} (h : x.sgn = false) (v : Nat) : x.ext v = v := by
  unfold AluSpec.ext
  split <;> simp [h]

/-- An arithmetic word of a context completes once its checks pass. -/
theorem exec_ctxAlu {i : Instr} {s : State} {f : AluW} {own : Bool} {x : AluSpec} {opc : Nat} {c : KCtx} {srcs dsts : List (BitVec 8)}
    (hi : exec i s = runAlu opc f own x s) (ho : streamAllows opc = true) (hbad : x.bad = false) (hok : aluStreamOk f own = true)
    (hr : readyCtx s (fun c => do c.open srcs dsts; c.checkPoison srcs) = some c) (hsrcs : x.ctxSrcs = srcs)
    (hdsts : x.ctxDsts = dsts) : exec i s = .next (c.retire (x.ctxAfter c)) := by
  subst hsrcs hdsts
  refine exec_readyCtx hi ho hr fun hc => ?_
  obtain ⟨_, hopen, hp⟩ := except_bind_ok.mp hc
  rw [hok, AluSpec.stream_eq hbad hopen hp]

/-- The fields the stream profile keeps 0 (R110). -/
theorem aluStreamOk_spec {f : AluW} {own : Bool} (h : aluStreamOk f own = true) : f.ma = 0#2 ∧ f.mb = 0#2 ∧ f.mc = 0#2 ∧ f.cl = false := by
  simp only [aluStreamOk, Bool.and_eq_true, beq_iff_eq, Bool.not_eq_true'] at h
  tauto

/-- A row of the integer words, run by a context. -/
theorem exec_ctxRow {f : AluW} {r : Row} {s : State} {c : KCtx} (hr : IntDescribed f r) (hok : aluStreamOk f r.own = true)
    (hc : readyCtx s (fun c => do c.open (r.srcs.map (·.1)) [f.d]; c.checkPoison (r.srcs.map (·.1))) = some c) :
    let v := (r.at ⟨RM.ne, false, 0#3, false⟩ fun p => c.k p.1).1
    exec r.i s = .next (c.retire (c.X.putK f.d (if r.n = 1 ∧ r.sgn = true then ofSigned 64 (toSigned 32 v) else v))) := by
  obtain ⟨opc, x, hx, ho, -, henv⟩ := hr
  have hsrcs : x.ctxSrcs = r.srcs.map (·.1) := by simp [AluSpec.ctxSrcs, hx.srcs, hx.psrc]
  have hdsts : x.ctxDsts = [f.d] := by simp [AluSpec.ctxDsts, hx.dst, hx.pdst]
  have hval : (x.op (x.ctxIn c)).val = (r.at ⟨RM.ne, false, 0#3, false⟩ fun p => c.k p.1).1 :=
    (congrArg LaneOut.val (hx.op _ _ _ _ _)).trans (congrArg Prod.fst (henv _ _ _))
  rw [exec_ctxAlu (hx.exec s) ho hx.bad hok hc hsrcs hdsts, AluSpec.ctxAfter, hx.dst, hx.pdst]
  simp only [Option.elim_some, Option.elim_none, AluSpec.ext_eq hx.dst, hx.sgn, hval]

/-! An arithmetic word of a lane. -/

/-- Exceptions ORed into FPCTL of a lane (R68). -/
def Eval.raise (e : Eval) (k : Exc) : Eval := { e with fpctl := e.fpctl ||| BitVec.ofNat 64 (k.toNat * 2 ^ 9) }

theorem Eval.raise_none (e : Eval) : e.raise Exc.none = e := by simp [Eval.raise, Exc.none]

/-- An operand of a lane, by its width. -/
def Eval.read (e : Eval) (p : BitVec 8 × Nat) : Nat := if p.2 == 1 then e.reg p.1 else e.reg64 p.1

theorem Eval.read_one (e : Eval) (c : BitVec 8) : e.read (c, 1) = e.reg c := by simp [Eval.read]
theorem Eval.read_pair (e : Eval) (c : BitVec 8) : e.read (c, 2) = e.reg64 c := by simp [Eval.read]

/-- What an arithmetic word reads in a lane, and the lane after its results are written. -/
def AluSpec.evalIn (x : AluSpec) (e : Eval) : LaneIn where
  a := x.a.elim 0 e.read
  b := x.b.elim x.imm e.read
  c := x.c.elim 0 e.read
  pin := x.psrc.any fun p => e.pred p.toNat
  lane := e.lane
  rm := e.fpctl.extractLsb' 0 2
  ftz := e.fpctl.getLsbD 2
def AluSpec.evalAfter (x : AluSpec) (e : Eval) : Eval :=
  let o := x.op (x.evalIn e)
  let e1 := x.dst.elim (e.raise o.exc) fun p => (e.raise o.exc).putRegs p.1 p.2 o.val
  x.pdst.elim e1 fun p => e1.putPred p.toNat o.pred

/-- With none of its exceptions enabled, a lane goes on with them in FPCTL (R68). -/
theorem settleFlags_one {fpctl : DWord} {k : Exc} (h : k &&& fpctl.extractLsb' 4 5 = 0#5) (l : Nat) :
    settleFlags fpctl [(l, k, Exc.none)] = .ok (fpctl ||| BitVec.ofNat 64 (k.toNat * 2 ^ 9)) := by
  have htotal : Exc.none ||| k ||| Exc.none = k := by simp [Exc.none]
  have hon : ((List.range 5).find? fun i => (0#5).getLsbD i) = none := by decide
  simp only [settleFlags, List.foldl_cons, List.foldl_nil, htotal, h, hon]

/-- Whether a word of a lane meets no ILLEGAL_ENC of its own. -/
structure AluSpec.LaneLegal (x : AluSpec) : Prop where
  bad : x.bad = false
  preds : x.predsOk = true
  idle : ∀ k ∈ x.idle, (Regs.one k).laneOk = true

theorem AluSpec.lane_eq {x : AluSpec} {g : BitVec 4} {e : Eval} (hx : x.LaneLegal) (ho : Eval.open x.srcs x.dsts x.uni = .ok ()) :
    (e.guard g = false → x.lane g e = .ok e.next) ∧
    (e.guard g = true → e.checkPoison x.srcs = .ok () → (x.op (x.evalIn e)).exc &&& e.fpctl.extractLsb' 4 5 = 0#5 →
      x.lane g e = .ok (x.evalAfter e).next) := by
  obtain ⟨hbad, hpreds, hidle⟩ := hx
  have hnone : (x.idle.any fun k => !(Regs.one k).laneOk) = false := by
    cases hi : x.idle with
    | none => rfl
    | some k => simp [hidle k (by simp [hi])]
  simp only [AluSpec.lane, hbad, hpreds, hnone, Bool.not_true, Bool.or_self, trapIf_false, except_ok_bind, ho]
  refine ⟨fun hg => by simp [hg], fun hg hp hk => ?_⟩
  have hflags := settleFlags_one hk e.lane
  unfold AluSpec.evalIn Eval.read at hflags
  simp only [hg, Bool.not_true, Bool.false_eq_true, if_false, hp, except_ok_bind, hflags]
  unfold AluSpec.evalAfter
  cases x.dst <;> cases x.pdst <;> rfl

end Sys2Proof.Machine
end

