-- ==== Sys2Proof/Proofs/StreamWords.lean ====
section
/-! SUPPORT. The words of a Contrail context (R110, R308), one by one. -/

namespace Sys2Proof.Machine
open Sys2Proof.Claims

/-! The words of predicates. -/

/-- The model's words with a predicate, as the datapaths run them. -/
def selSpec (f : AluW) : AluSpec :=
  { intSpec f 2 (intRegs (ty3 f.var)) false (fun t i => unsignedOf t (if i.pin then i.a else i.b)) with psrc := some f.c }
def icmpSpec (f : AluW) : AluSpec :=
  { intSpec f 2 (intRegs (ty3 f.var)) false (fun _ _ => 0) with
    dst := none
    pdst := some f.d
    op := fun i => LaneOut.ofPred (iCmp f.sc (intSrc (ty3 f.var) f.ma i.a) (intSrc (ty3 f.var) f.mb i.b), Exc.none) }
def iaddcSpec (f : AluW) : AluSpec :=
  { intSpec f 2 (intRegs (ty3 f.var)) false (fun _ _ => 0) with
    psrc := some f.c
    pdst := some f.c
    carry := true
    op := fun i => ⟨(iAddc (ty3 f.var) i.a i.b i.pin).1, Exc.none, (iAddc (ty3 f.var) i.a i.b i.pin).2⟩ }

theorem exec_sel (f : AluW) (s : State) : exec (.sel f) s = runAlu 0x38 f false (selSpec f) s := rfl
theorem exec_icmp (f : AluW) (s : State) : exec (.icmp f) s = runAlu 0x37 f true (icmpSpec f) s := rfl
theorem exec_iaddc (f : AluW) (s : State) : exec (.iaddc f) s = runAlu 0x22 f false (iaddcSpec f) s := rfl

/-! Words of a context (R110, R308). -/

section
variable {f : AluW} {i : Instr} {s : State} {opc wb : Nat} {sgn : Bool} {op : Nat → LaneIn → Nat} {c : KCtx}

/-- The registers and the second operand of a word of two sources. -/
def ctxSrcs2 (f : AluW) : List (BitVec 8) := f.a :: if immFlag f.var then [] else [f.b]
def ctxB (f : AluW) (c : KCtx) : Nat := if immFlag f.var then intImm (ty3 f.var) f.imm else c.k f.b

/-- The result at 64 bits (R308). -/
def ctxExt (f : AluW) (sgn : Bool) (v : Nat) : Nat := if intRegs (ty3 f.var) == 1 && sgn then ofSigned 64 (toSigned 32 v) else v

theorem ctxExt_unsigned (f : AluW) (v : Nat) : ctxExt f false v = v := by simp [ctxExt]

theorem intSpec_ext (v : Nat) : (intSpec f 2 wb sgn op).ext v = ctxExt f sgn v := by
  rw [AluSpec.ext_eq (x := intSpec f 2 wb sgn op) rfl, ctxExt]
  simp [intSpec]

section
variable {x : AluSpec} {w : Nat}

/-- A word that has A and B alone reads those and the register that stands for its predicate. -/
theorem ctxSrcs_two (ha : x.a = some (f.a, w)) (hb : x.b = aluB f wb) (hc : x.c = none) : x.ctxSrcs = ctxSrcs2 f ++ x.psrc.toList := by
  rw [AluSpec.ctxSrcs, ha, hb, hc]
  cases h : immFlag f.var <;> simp [aluB, ctxSrcs2, h]

theorem ctxIn_two (ha : x.a = some (f.a, w)) (hb : x.b = aluB f wb) (hc : x.c = none) (hi : x.imm = intImm (ty3 f.var) f.imm) :
    x.ctxIn c = ⟨c.k f.a, ctxB f c, 0, x.psrc.any fun p => if x.carry then bit (c.k p) 0 else c.k p != 0, 0, RM.ne, false⟩ := by
  rw [AluSpec.ctxIn, ha, hb, hc, hi]
  cases h : immFlag f.var <;> simp [aluB, ctxB, h]

end

/-- A word of two integer sources in a context. -/
theorem exec_ctxInt {v : Nat} (hi : exec i s = runAlu opc f false (intSpec f 2 wb sgn op) s) (ho : streamAllows opc = true)
    (hok : aluStreamOk f false = true)
    (hr : readyCtx s (fun c => do c.open (ctxSrcs2 f) [f.d]; c.checkPoison (ctxSrcs2 f)) = some c)
    (hv : op (ty3 f.var) ⟨c.k f.a, ctxB f c, 0, false, 0, RM.ne, false⟩ = v) :
    exec i s = .next (c.retire (c.X.putK f.d (ctxExt f sgn v))) := by
  have hin := ctxIn_two (x := intSpec f 2 wb sgn op) (c := c) rfl rfl rfl rfl
  have hsrcs := ctxSrcs_two (x := intSpec f 2 wb sgn op) rfl rfl rfl
  rw [exec_ctxAlu hi ho rfl hok hr (hsrcs.trans (List.append_nil _)) rfl, AluSpec.ctxAfter, hin, ← intSpec_ext, ← hv]
  rfl

/-- R139: the exact result modulo 2^n, at 64 bits. -/
theorem exec_ctxArith {op : Int → Int → Int}
    (hi : exec i s = runAlu opc f false (intSpec f 2 (intRegs (ty3 f.var)) (intSigned (ty3 f.var)) (arithOp f op)) s)
    (ho : streamAllows opc = true) (hok : aluStreamOk f false = true)
    (hr : readyCtx s (fun c => do c.open (ctxSrcs2 f) [f.d]; c.checkPoison (ctxSrcs2 f)) = some c) :
    exec i s = .next (c.retire (c.X.putK f.d (ctxExt f (intSigned (ty3 f.var))
      (intResult (ty3 f.var) false (op (intSrc (ty3 f.var) 0#2 (c.k f.a)) (intSrc (ty3 f.var) 0#2 (ctxB f c))))))) := by
  obtain ⟨hma, hmb, -, hcl⟩ := aluStreamOk_spec hok
  exact exec_ctxInt hi ho hok hr (by simp only [arithOp, hma, hmb, hcl])

/-- The words whose results are extended by zero. -/
theorem exec_ctxUnsigned {v : Nat → Nat → Nat → Nat} (hi : exec i s = runAlu opc f false (intSpec f 2 wb false fun t i => v t i.a i.b) s)
    (ho : streamAllows opc = true) (hok : aluStreamOk f false = true)
    (hr : readyCtx s (fun c => do c.open (ctxSrcs2 f) [f.d]; c.checkPoison (ctxSrcs2 f)) = some c) :
    exec i s = .next (c.retire (c.X.putK f.d (v (ty3 f.var) (c.k f.a) (ctxB f c)))) := by
  rw [exec_ctxInt hi ho hok hr rfl, ctxExt_unsigned]

theorem exec_ctxIdiv (hok : aluStreamOk f false = true)
    (hr : readyCtx s (fun c => do c.open (ctxSrcs2 f) [f.d]; c.checkPoison (ctxSrcs2 f)) = some c) :
    let x := intSrc (ty3 f.var) 0#2 (c.k f.a)
    let y := intSrc (ty3 f.var) 0#2 (ctxB f c)
    exec (.idiv f) s = .next (c.retire (c.X.putK f.d (ctxExt f (intSigned (ty3 f.var))
      (intCode (ty3 f.var) (if y = 0 then -1 else Int.tdiv x y))))) := by
  obtain ⟨hma, hmb, -, -⟩ := aluStreamOk_spec hok
  exact exec_ctxInt rfl rfl hok hr (by simp only [hma, hmb, iDiv, beq_iff_eq])

/-- SEL takes its condition from a k register (R308). -/
theorem exec_ctxSel (hok : aluStreamOk f false = true)
    (hr : readyCtx s (fun c => do c.open (ctxSrcs2 f ++ [f.c]) [f.d]; c.checkPoison (ctxSrcs2 f ++ [f.c])) = some c) :
    exec (.sel f) s = .next (c.retire (c.X.putK f.d (unsignedOf (ty3 f.var) (if c.k f.c != 0 then c.k f.a else ctxB f c)))) := by
  have hin := ctxIn_two (f := f) (x := selSpec f) (c := c) rfl rfl rfl rfl
  rw [exec_ctxAlu (exec_sel f s) rfl rfl hok hr (ctxSrcs_two rfl rfl rfl) rfl, AluSpec.ctxAfter, hin]
  simp only [AluSpec.ext_unsigned (x := selSpec f) rfl]
  rfl

/-- A comparison gives 1 or 0 (R308). -/
theorem exec_ctxIcmp (hok : aluStreamOk f true = true)
    (hr : readyCtx s (fun c => do c.open (ctxSrcs2 f) [f.d]; c.checkPoison (ctxSrcs2 f)) = some c) :
    exec (.icmp f) s = .next (c.retire (c.X.putK f.d
      (iCmp f.sc (intSrc (ty3 f.var) 0#2 (c.k f.a)) (intSrc (ty3 f.var) 0#2 (ctxB f c))).toNat)) := by
  obtain ⟨hma, hmb, -, -⟩ := aluStreamOk_spec hok
  have hin := ctxIn_two (f := f) (x := icmpSpec f) (c := c) rfl rfl rfl rfl
  have hsrcs := ctxSrcs_two (f := f) (x := icmpSpec f) rfl rfl rfl
  rw [exec_ctxAlu (exec_icmp f s) rfl rfl hok hr (hsrcs.trans (List.append_nil _)) rfl, AluSpec.ctxAfter, hin]
  simp only [icmpSpec, intSpec, hma, hmb]
  rfl

/-- IADDC takes its carry from bit 0 of a k register and writes it there (R308). -/
theorem exec_ctxIaddc (hok : aluStreamOk f false = true)
    (hr : readyCtx s (fun c => do c.open (ctxSrcs2 f ++ [f.c]) [f.d, f.c]; c.checkPoison (ctxSrcs2 f ++ [f.c])) = some c) :
    let n := intBits (ty3 f.var)
    let sum := c.k f.a % 2 ^ n + ctxB f c % 2 ^ n + c.k f.c % 2
    exec (.iaddc f) s = .next (c.retire ((c.X.putK f.d (sum % 2 ^ n)).putK f.c (if 2 ^ n ≤ sum then 1 else 0))) := by
  intro n sum
  have hin := ctxIn_two (f := f) (x := iaddcSpec f) (c := c) rfl rfl rfl rfl
  have hcarry : (bit (c.k f.c) 0).toNat = c.k f.c % 2 := by
    rw [bit_eq_testBit, Nat.testBit_zero]
    rcases Nat.mod_two_eq_zero_or_one (c.k f.c) with h | h <;> simp [h]
  have hout : (if 2 ^ n ≤ sum then 1 else 0) = (decide (2 ^ n ≤ sum)).toNat := by cases h : decide (2 ^ n ≤ sum) <;> simp_all
  rw [exec_ctxAlu (exec_iaddc f s) rfl rfl hok hr (ctxSrcs_two rfl rfl rfl) rfl, AluSpec.ctxAfter, hin, hout]
  simp only [AluSpec.ext_unsigned (x := iaddcSpec f) rfl]
  simp only [iaddcSpec, intSpec, iAddc, unsignedOf, Option.elim_some, Option.any_some, if_true, hcarry]
  rfl

end

/-- NOP goes on (R179). -/
theorem exec_ctxNop {s : State} {c : KCtx} {h : NoneW} (hg : h.g = 0#4) (hr : readyCtx s (fun _ => .ok ()) = some c) :
    exec (.nop h) s = .next (c.retire c.X) :=
  exec_readyCtx (opc := 0x01) rfl rfl hr fun _ => by simp [hg, except_ok_bind]

/-- BRA is taken always, where its register is not 0, or where it is (R110). -/
theorem exec_ctxBra {s : State} {c : KCtx} {h : BraW} (hg : (h.g = 0#4 ∧ h.rdist = 0#8) ∨ h.g = 1#4 ∨ h.g = 9#4)
    (hr : readyCtx s (fun c => do
      c.open (if h.g = 0#4 then [] else [h.rdist]) []
      c.checkPoison (if h.g = 0#4 then [] else [h.rdist])) = some c) :
    exec (.bra h) s = .next (if h.g = 0#4 ∨ (h.g = 1#4 ∧ c.k h.rdist ≠ 0) ∨ (h.g = 9#4 ∧ c.k h.rdist = 0)
      then c.put (c.X.goTo (c.X.kpc + h.off24.signExtend 53)) else c.retire c.X) := by
  refine exec_readyCtx (opc := 0x02) rfl rfl hr fun hc => ?_
  obtain ⟨_, hopen, hp⟩ := except_bind_ok.mp hc
  have taken (hlegal : (!(h.g == 0#4 || h.g == 1#4 || h.g == 9#4) || h.g == 0#4 && h.rdist != 0#8) = false) : braCtx h c =
      .ok (if (h.g == 0#4 || ((c.k h.rdist != 0) == (h.g == 1#4))) = true
        then c.put (c.X.goTo (c.X.kpc + h.off24.signExtend 53)) else c.retire c.X) := by
    simp only [← beq_iff_eq (a := h.g)] at hopen hp
    simp only [braCtx, hlegal, trapIf_false, except_ok_bind, hopen, hp]
  rcases hg with ⟨h0, hd⟩ | h1 | h9
  · rw [taken (by simp [h0, hd]), if_pos (by simp [h0]), if_pos (Or.inl h0)]
  · rw [taken (by simp [h1])]
    simp [h1]
  · rw [taken (by simp [h9])]
    simp [h9]

/-- CSRR reads the context's own registers (R308). -/
theorem exec_ctxCsrr {s : State} {c : KCtx} {h : CsrW} {v : Nat} (hg : h.g = 0#4) (hvar : h.var = 1#4)
    (hr : readyCtx s (fun c => c.open [] [h.d]) = some c)
    (hv : (h.num = 0x101#12 ∧ v = c.X.kpc.toNat * 8) ∨ (h.num = 0x102#12 ∧ v = c.X.ktl.toNat) ∨ (h.num = 0x103#12 ∧ v = c.X.kout) ∨
      (h.num = 0x104#12 ∧ v = c.X.ktag.toNat)) : exec (.csrr h) s = .next (c.retire (c.X.putK h.d v)) := by
  have hput (x : Nat) : c.X.putK h.d (BitVec.ofNat 64 x).toNat = c.X.putK h.d x := by
    simp only [Ctx.putK, BitVec.ofNat_toNat, BitVec.setWidth_eq]
  obtain ⟨w, hw, hput⟩ : ∃ w, ctxCsr c h.num.toNat = some w ∧ c.X.putK h.d w.toNat = c.X.putK h.d v := by
    rcases hv with ⟨hn, rfl⟩ | ⟨hn, rfl⟩ | ⟨hn, rfl⟩ | ⟨hn, rfl⟩ <;> rw [hn]
    · exact ⟨_, rfl, hput _⟩
    · exact ⟨_, rfl, rfl⟩
    · exact ⟨_, rfl, hput _⟩
    · exact ⟨_, rfl, hput _⟩
  obtain ⟨hlt, hfree⟩ : h.num.toNat < 0x800 ∧ (h.num == 0x030#12) = false := by
    rcases hv with ⟨hn, -⟩ | ⟨hn, -⟩ | ⟨hn, -⟩ | ⟨hn, -⟩ <;> rw [hn] <;> decide
  refine exec_readyCtx (opc := 0x10) rfl rfl hr fun hc => ?_
  simp [hg, hvar, hw, csrKnown, csrPriv_of_lt hlt, except_ok_bind, hc, hfree, hput]

end Sys2Proof.Machine
end

