-- ==== Sys2Proof/Proofs/CallableWords.lean ====
section
/-! SUPPORT. The words of a lane of a callable evaluation (R121, R122, R299), one by one, and O11. -/

namespace Sys2Proof.Machine
open Sys2Proof.Claims

/-- A word of a lane whose checks pass: its guard decides whether it has its effect, and the lane then stands at the next word. -/
def LaneRuns (s : State) (k : Nat) (e : Eval) (i : Instr) (g : BitVec 4) (srcs dsts : List Regs) (uni : Bool) (eff : Eval) : Prop :=
  i.wf = true → readyLane s (fun _ => Eval.open srcs dsts uni) = some (k, e) →
    (e.guard g = false → exec i s = .next (setLane s k e.next)) ∧
    (e.guard g = true → e.checkPoison srcs = .ok () → e.fpctl.extractLsb' 4 5 = 0#5 → exec i s = .next (setLane s k eff.next))

section
variable {s : State} {k : Nat} {e eff : Eval} {i : Instr} {g : BitVec 4} {srcs dsts : List Regs} {uni : Bool} {opc : Nat}
  {wave : WCtx → Except Stop State} {ctx : KCtx → Except Stop State}

theorem laneRuns_of_issue {lane : Eval → Except Stop Eval} (hi : exec i s = issue opc g s wave ctx lane)
    (ho : callableAllows opc = true)
    (hw : i.wf = true → Eval.open srcs dsts uni = .ok () → (e.guard g = false → lane e = .ok e.next) ∧
      (e.guard g = true → e.checkPoison srcs = .ok () → e.fpctl.extractLsb' 4 5 = 0#5 → lane e = .ok eff.next)) :
    LaneRuns s k e i g srcs dsts uni eff := fun hwf hr =>
  ⟨fun hg => exec_readyLane hi ho hr fun hopen => (hw hwf hopen).1 hg,
    fun hg hp hq => exec_readyLane hi ho hr fun hopen => (hw hwf hopen).2 hg hp hq⟩

/-- An arithmetic word of a lane. -/
theorem laneRuns_of_spec {x : AluSpec} (hi : exec i s = issue opc g s wave ctx (x.lane g)) (ho : callableAllows opc = true)
    (hx : x.LaneLegal) (hsrcs : x.srcs = srcs) (hdsts : x.dsts = dsts) (huni : x.uni = uni) (heff : x.evalAfter e = eff) :
    LaneRuns s k e i g srcs dsts uni eff := by
  subst hsrcs hdsts huni heff
  refine laneRuns_of_issue hi ho fun _ hopen => ?_
  obtain ⟨hoff, hon⟩ := AluSpec.lane_eq hx hopen
  exact ⟨hoff, fun hg hp hq => hon hg hp (by rw [hq]; exact BitVec.and_zero)⟩

/-- A row of the tables, run by a lane. -/
theorem laneRuns_row {f : AluW} {r : Row} (hr : r.i.wf = true → LaneDescribed f r) :
    let v := r.at ⟨e.fpctl.extractLsb' 0 2, e.fpctl.getLsbD 2, f.sc, f.cl⟩ e.read
    LaneRuns s k e r.i f.g (r.srcs.map fun p => Regs.ofW p.1 p.2) [Regs.ofW f.d r.n] (isUniform f.d)
      ((e.raise v.2).putRegs f.d r.n v.1) := by
  intro v hwf
  obtain ⟨opc, x, hx, ho⟩ := hr hwf
  have hsrcs : x.srcs = r.srcs.map fun p => Regs.ofW p.1 p.2 := by rw [AluSpec.srcs, hx.srcs]
  have hdsts : x.dsts = [Regs.ofW f.d r.n] := by rw [AluSpec.dsts, hx.dst]; rfl
  have huni : x.uni = isUniform f.d := by rw [AluSpec.uni, hx.dst]; rfl
  have hlegal : x.LaneLegal := ⟨hx.bad, by rw [AluSpec.predsOk, hx.pdst, hx.psrc]; rfl, hx.idle⟩
  have hop : x.op (x.evalIn e) = LaneOut.ofFloat v := hx.op e.read _ _ _ _
  refine laneRuns_of_spec (hx.exec s) ho hlegal hsrcs hdsts huni ?_ hwf
  rw [AluSpec.evalAfter, hop, hx.dst, hx.pdst]
  rfl

/-- An arithmetic word of a lane whose sources hold no poison. -/
theorem exec_laneAlu {x : AluSpec} (hi : exec i s = issue opc g s wave ctx (x.lane g)) (ho : callableAllows opc = true)
    (hx : x.LaneLegal) (hsrcs : x.srcs = srcs) (hdsts : x.dsts = dsts) (huni : x.uni = uni)
    (hr : readyLane s (fun e => do Eval.open srcs dsts uni; e.checkPoison srcs) = some (k, e))
    (hk : (x.op (x.evalIn e)).exc &&& e.fpctl.extractLsb' 4 5 = 0#5) :
    exec i s = .next (setLane s k (if e.guard g then (x.evalAfter e).next else e.next)) := by
  subst hsrcs hdsts huni
  refine exec_readyLane hi ho hr fun hc => ?_
  obtain ⟨_, hopen, hp⟩ := except_bind_ok.mp hc
  obtain ⟨hoff, hon⟩ := AluSpec.lane_eq (g := g) (e := e) hx hopen
  cases hg : e.guard g
  · exact hoff hg
  · exact hon hg hp hk

end

section
variable {f : AluW} {e : Eval} {x : AluSpec} {wa wb : Nat}

/-- What a word of two sources reads as B. -/
def evalB (f : AluW) (e : Eval) (imm wb : Nat) : Nat := if immFlag f.var then imm else e.read (f.b, wb)

theorem laneSrcs_two (ha : x.a = some (f.a, wa)) (hb : x.b = aluB f wb) (hc : x.c = none) : x.srcs = srcs2 f wa wb := by
  rw [AluSpec.srcs, ha, hb, hc]
  cases h : immFlag f.var <;> simp [aluB, srcs2, h]

theorem evalIn_two (ha : x.a = some (f.a, wa)) (hb : x.b = aluB f wb) (hc : x.c = none) :
    x.evalIn e = ⟨e.read (f.a, wa), evalB f e x.imm wb, 0, x.psrc.any fun p => e.pred p.toNat, e.lane, e.fpctl.extractLsb' 0 2,
      e.fpctl.getLsbD 2⟩ := by
  rw [AluSpec.evalIn, ha, hb, hc]
  cases h : immFlag f.var <;> simp [aluB, evalB, h]

theorem evalIn_three {p q r : BitVec 8 × Nat} (ha : x.a = some p) (hb : x.b = some q) (hc : x.c = some r) :
    x.evalIn e = ⟨e.read p, e.read q, e.read r, x.psrc.any fun p => e.pred p.toNat, e.lane, e.fpctl.extractLsb' 0 2,
      e.fpctl.getLsbD 2⟩ := by
  simp only [AluSpec.evalIn, ha, hb, hc, Option.elim_some]

/-- The lane after a word without exceptions that writes registers, a predicate, or both. -/
theorem evalAfter_regs {d : BitVec 8} {n v : Nat} {p : Bool} (hop : x.op (x.evalIn e) = ⟨v, Exc.none, p⟩) (hd : x.dst = some (d, n))
    (hp : x.pdst = none) : x.evalAfter e = e.putRegs d n v := by
  rw [AluSpec.evalAfter, hop, hd, hp]
  simp only [Option.elim_some, Option.elim_none, Eval.raise_none]

theorem evalAfter_pred {q : BitVec 8} {v : Nat} {p : Bool} (hop : x.op (x.evalIn e) = ⟨v, Exc.none, p⟩) (hd : x.dst = none)
    (hp : x.pdst = some q) : x.evalAfter e = e.putPred q.toNat p := by
  rw [AluSpec.evalAfter, hop, hd, hp]
  simp only [Option.elim_some, Option.elim_none, Eval.raise_none]

theorem evalAfter_both {d q : BitVec 8} {n v : Nat} {p : Bool} (hop : x.op (x.evalIn e) = ⟨v, Exc.none, p⟩) (hd : x.dst = some (d, n))
    (hp : x.pdst = some q) : x.evalAfter e = (e.putRegs d n v).putPred q.toNat p := by
  rw [AluSpec.evalAfter, hop, hd, hp]
  simp only [Option.elim_some, Eval.raise_none]

end

/-- FCMP, PSET and RNG as the datapaths run them. -/
def fcmpSpec (f : AluW) : AluSpec :=
  { floatSpec f 2 (fun _ => (0, Exc.none)) with
    dst := none
    pdst := some f.d
    op := fun i => LaneOut.ofPred (fCmp (fmtOf f) i.ftz (aluMods f) f.sc i.a i.b) }
def psetSpec (f : AluW) : AluSpec where
  a := some (f.a, 1)
  b := none
  c := none
  imm := 0
  dst := none
  pdst := some f.d
  psrc := none
  sgn := false
  carry := false
  bad := false
  idle := none
  op := fun i => LaneOut.ofPred (if isUniform f.a then bit i.a (i.lane % 32) else i.a != 0, Exc.none)
def rngDraw (unif : Bool) (key s c : Nat) : Nat := if unif then rngUnif (rngOut key s c) else rngOut key s c
def rngSpec (f : SysW) : AluSpec where
  a := some (f.a, 2)
  b := some (f.b, 1)
  c := some (f.c, 1)
  imm := 0
  dst := some (f.d, 1)
  pdst := none
  psrc := none
  sgn := false
  carry := false
  bad := !uniOrZ f.a
  idle := none
  op := fun i => LaneOut.ofInt (rngDraw (f.var.getLsbD 0) i.a i.b i.c)

theorem exec_fcmp (f : AluW) (s : State) : exec (.fcmp f) s = runAlu 0x56 f false (fcmpSpec f) s := rfl
theorem exec_pset (f : AluW) (s : State) : exec (.pset f) s = runAlu 0x45 f false (psetSpec f) s := rfl
theorem exec_rng (f : SysW) (s : State) :
    exec (.rng f) s = issue 0xB4 f.g s ((rngSpec f).wave f.bnd) (fun _ => offProfile 0xB4) ((rngSpec f).lane f.g) := rfl

section
variable {s : State} {k : Nat} {e : Eval} {f : AluW}

/-- IADD of a lane whose sources hold no poison (R139). -/
theorem exec_laneIadd :
    let w := intRegs (ty3 f.var)
    let sum := intResult (ty3 f.var) f.cl
      (intSrc (ty3 f.var) f.ma (e.read (f.a, w)) + intSrc (ty3 f.var) f.mb (evalB f e (intImm (ty3 f.var) f.imm) w))
    readyLane s (fun e => do
      Eval.open (srcs2 f w w) [Regs.ofW f.d w] (isUniform f.d)
      e.checkPoison (srcs2 f w w)) = some (k, e) →
    exec (.iadd f) s = .next (setLane s k (if e.guard f.g then (e.putRegs f.d w sum).next else e.next)) := by
  intro w sum hr
  let x : AluSpec := intSpec f 2 w (intSigned (ty3 f.var)) (arithOp f (· + ·))
  have hin := evalIn_two (f := f) (e := e) (x := x) rfl rfl rfl
  have hafter : x.evalAfter e = e.putRegs f.d w sum := evalAfter_regs (p := false) (by rw [hin]; rfl) rfl rfl
  rw [exec_laneAlu (x := x) (opc := 0x20) rfl rfl ⟨rfl, rfl, nofun⟩ (laneSrcs_two rfl rfl rfl) rfl rfl hr BitVec.zero_and, hafter]

/-- FADD of a lane whose sources hold no poison, with no exception enabled (R68). -/
theorem exec_laneFadd :
    let env : Env := ⟨e.fpctl.extractLsb' 0 2, e.fpctl.getLsbD 2, f.sc, f.cl⟩
    let sum := fAdd (ftOf (ty3 f.var)) env ⟨f.ma, f.mb, f.mc⟩ (e.read (f.a, 1)) (evalB f e (floatImm (ty3 f.var) f.imm) 1)
    readyLane s (fun e => do
      Eval.open (srcs2 f 1 1) [Regs.ofW f.d 1] (isUniform f.d)
      e.checkPoison (srcs2 f 1 1)) = some (k, e) → e.fpctl.extractLsb' 4 5 = 0#5 →
    exec (.fadd f) s = .next (setLane s k (if e.guard f.g then ((e.raise sum.2).putRegs f.d 1 sum.1).next else e.next)) := by
  intro env sum hr hq
  let x : AluSpec := float2Spec f fAdd
  have hin := evalIn_two (f := f) (e := e) (x := x) rfl rfl rfl
  have hafter : x.evalAfter e = (e.raise sum.2).putRegs f.d 1 sum.1 := by rw [AluSpec.evalAfter, hin]; rfl
  rw [exec_laneAlu (x := x) (opc := 0x50) rfl rfl ⟨rfl, rfl, nofun⟩ floatSpec_srcs2 rfl rfl hr (by rw [hq]; exact BitVec.and_zero), hafter]

theorem laneRuns_sel (hp : predCode f.c = true) :
    let w := intRegs (ty3 f.var)
    LaneRuns s k e (.sel f) f.g (srcs2 f w w) [Regs.ofW f.d w] (isUniform f.d) (e.putRegs f.d w
      ((if e.pred f.c.toNat then e.read (f.a, w) else evalB f e (intImm (ty3 f.var) f.imm) w) % 2 ^ intBits (ty3 f.var))) :=
  have hlegal : (selSpec f).LaneLegal := ⟨rfl, by simp [AluSpec.predsOk, selSpec, intSpec, hp], nofun⟩
  have hin := evalIn_two (f := f) (e := e) (x := selSpec f) rfl rfl rfl
  laneRuns_of_spec (exec_sel f s) rfl hlegal (laneSrcs_two rfl rfl rfl) rfl rfl
    (evalAfter_regs (p := false) (by rw [hin]; rfl) rfl rfl)

theorem laneRuns_icmp (hp : predCode f.d = true) :
    let w := intRegs (ty3 f.var)
    LaneRuns s k e (.icmp f) f.g (srcs2 f w w) [] false (e.putPred f.d.toNat (iCmp f.sc (intSrc (ty3 f.var) f.ma (e.read (f.a, w)))
      (intSrc (ty3 f.var) f.mb (evalB f e (intImm (ty3 f.var) f.imm) w)))) :=
  have hlegal : (icmpSpec f).LaneLegal := ⟨rfl, by simp [AluSpec.predsOk, icmpSpec, intSpec, hp], nofun⟩
  have hin := evalIn_two (f := f) (e := e) (x := icmpSpec f) rfl rfl rfl
  laneRuns_of_spec (exec_icmp f s) rfl hlegal (laneSrcs_two rfl rfl rfl) rfl rfl
    (evalAfter_pred (v := 0) (by rw [hin]; rfl) rfl rfl)

theorem laneRuns_fcmp (hp : predCode f.d = true) :
    let r := fCmp (ftOf (ty3 f.var)) (e.fpctl.getLsbD 2) ⟨f.ma, f.mb, f.mc⟩ f.sc (e.read (f.a, 1)) (evalB f e (floatImm (ty3 f.var) f.imm) 1)
    LaneRuns s k e (.fcmp f) f.g (srcs2 f 1 1) [] false ((e.raise r.2).putPred f.d.toNat r.1) := by
  have hlegal : (fcmpSpec f).LaneLegal := ⟨rfl, by simp [AluSpec.predsOk, fcmpSpec, floatSpec, hp], nofun⟩
  have hin := evalIn_two (f := f) (e := e) (x := fcmpSpec f) rfl rfl rfl
  refine laneRuns_of_spec (exec_fcmp f s) rfl hlegal (laneSrcs_two rfl rfl rfl) rfl rfl ?_
  rw [AluSpec.evalAfter, hin]
  rfl

theorem laneRuns_iaddc (hp : predCode f.c = true) :
    let w := intRegs (ty3 f.var)
    let n := intBits (ty3 f.var)
    let sum := e.read (f.a, w) % 2 ^ n + evalB f e (intImm (ty3 f.var) f.imm) w % 2 ^ n + (e.pred f.c.toNat).toNat
    LaneRuns s k e (.iaddc f) f.g (srcs2 f w w) [Regs.ofW f.d w] (isUniform f.d)
      ((e.putRegs f.d w (sum % 2 ^ n)).putPred f.c.toNat (decide (2 ^ n ≤ sum))) :=
  have hlegal : (iaddcSpec f).LaneLegal := ⟨rfl, by simp [AluSpec.predsOk, iaddcSpec, intSpec, hp], nofun⟩
  have hin := evalIn_two (f := f) (e := e) (x := iaddcSpec f) rfl rfl rfl
  laneRuns_of_spec (exec_iaddc f s) rfl hlegal (laneSrcs_two rfl rfl rfl) rfl rfl (evalAfter_both (by rw [hin]; rfl) rfl rfl)

theorem laneRuns_pset (hp : predCode f.d = true) :
    LaneRuns s k e (.pset f) f.g [Regs.ofW f.a 1] [] false
      (e.putPred f.d.toNat (if isUniform f.a then bit (e.read (f.a, 1)) (e.lane % 32) else e.read (f.a, 1) != 0)) :=
  have hlegal : (psetSpec f).LaneLegal := ⟨rfl, by simp [AluSpec.predsOk, psetSpec, hp], nofun⟩
  laneRuns_of_spec (exec_pset f s) rfl hlegal rfl rfl rfl (evalAfter_pred (v := 0) rfl rfl rfl)

theorem laneRuns_rng {h : SysW} (ha : uniOrZ h.a = true) :
    LaneRuns s k e (.rng h) h.g [Regs.ofW h.a 2, Regs.ofW h.b 1, Regs.ofW h.c 1] [Regs.ofW h.d 1] (isUniform h.d)
      (e.putRegs h.d 1 (rngDraw (h.var.getLsbD 0) (e.read (h.a, 2)) (e.read (h.b, 1)) (e.read (h.c, 1)))) :=
  have hlegal : (rngSpec h).LaneLegal := ⟨by simp [rngSpec, ha], rfl, nofun⟩
  have hin := evalIn_three (x := rngSpec h) (e := e) rfl rfl rfl
  laneRuns_of_spec (exec_rng h s) rfl hlegal rfl rfl rfl (evalAfter_regs (p := false) (by rw [hin]; rfl) rfl rfl)

/-- A word of two predicates. -/
theorem laneRuns_predWord {i : Instr} {opc : Nat} {op : Bool → Bool → Bool} (hi : exec i s = predWord opc f op s)
    (ho : callableAllows opc = true) :
    LaneRuns s k e i f.g [] [] false (e.putPred f.d.toNat (op (e.pred f.a.toNat) (e.pred f.b.toNat))) :=
  laneRuns_of_issue hi ho fun _ _ => ⟨fun hg => by simp [hg], fun hg _ _ => by simp [hg]⟩

/-- PGET in a lane gives the bit of the lane at its place (R150). -/
theorem laneRuns_pget :
    LaneRuns s k e (.pget f) f.g [] [Regs.one f.d] false (e.putReg f.d (if e.pred f.a.toNat then 2 ^ (e.lane % 32) else 0)) :=
  laneRuns_of_issue rfl (opc := 0x46) rfl fun _ hopen =>
    ⟨fun hg => by simp [hopen, except_ok_bind, hg], fun hg _ _ => by simp [hopen, except_ok_bind, hg]⟩

/-- What CSRR delivers, by the word's own bits (R186). -/
theorem csrPart_eq (v : BitVec 4) (x : DWord) :
    csrPart v.toNat x = if v = 0#4 then x.toNat % 2 ^ 32 else if v = 1#4 then x.toNat else x.toNat / 2 ^ 32 := by
  simp [csrPart, BitVec.toNat_eq]

/-- CSRR of FPCTL in a lane, by its width (R186). -/
theorem laneRuns_csrr {h : CsrW} (hn : h.num = 0x020#12) (hd : uniOrZ h.d = true) :
    LaneRuns s k e (.csrr h) h.g [] [Regs.ofW h.d (csrRegs h.var.toNat)] false
      (e.putRegs h.d (csrRegs h.var.toNat)
        (if h.var = 0#4 then e.fpctl.toNat % 2 ^ 32 else if h.var = 1#4 then e.fpctl.toNat else e.fpctl.toNat / 2 ^ 32)) := by
  rw [← csrPart_eq]
  refine laneRuns_of_issue rfl (opc := 0x10) rfl fun _ hopen => ⟨fun hg => ?_, fun hg _ _ => ?_⟩
  · simp [hd, hn, csrKnown, csrPriv, hopen, except_ok_bind, hg]
  · simp [hd, hn, csrKnown, csrPriv, hopen, except_ok_bind, hg]

theorem exec_laneNop {h : NoneW} (hr : readyLane s (fun _ => .ok ()) = some (k, e)) : exec (.nop h) s = .next (setLane s k e.next) :=
  exec_readyLane rfl (opc := 0x01) rfl hr fun _ => rfl

/-- BRA in a lane goes forward (R123). -/
theorem exec_laneBra {h : BraW} (hpos : 0 < h.off24.toInt) (hr : readyLane s (fun _ => .ok ()) = some (k, e)) :
    exec (.bra h) s = .next (setLane s k (if e.guard h.g then { e with pc := e.pc + h.off24.signExtend 53 } else e.next)) :=
  exec_readyLane rfl (opc := 0x02) rfl hr fun _ => by
    simp [braLane, Int.not_le.mpr hpos, except_ok_bind]

/-- LDU in a lane delivers what the engine's read answers (R299, R302). -/
theorem exec_laneLdu {h : MemW} {bs : List (Byte × Bool)} (hord : h.ord = 0#2) (huni : (uniOrZ h.d && uniOrZ h.a && uniOrZ h.b) = true)
    (hr : readyLane s (fun e => do
      Eval.open [.pair h.a, .one h.b] [.ofW h.d (accRegs h.var.toNat)] false
      e.checkPoison [.pair h.a, .one h.b]) = some (k, e)) (hg : e.guard h.g = true) :
    let n := accRegs h.var.toNat
    let size := accSize h.var.toNat
    let va := effAddr 64 (e.read (h.a, 2)) (e.read (h.b, 1)) h.xs.toNat h.off8.toNat size
    va % size = 0 → evalRead s k e.slot va size = .ok (some bs) → engMarked bs = false →
      exec (.ldu h) s = .next (setLane s k (({ e with parkAt := none }).putRegs h.d n (loadExt h.var.toNat (engBytes bs))).next) := by
  intro n size va halign hread hclean
  refine exec_readyLane rfl (opc := 0x86) rfl hr fun hc => ?_
  obtain ⟨hcur, -, -⟩ := readyLane_spec hr
  obtain ⟨_, hopen, hp⟩ := except_bind_ok.mp hc
  simp only [Bool.and_eq_true] at huni
  obtain ⟨⟨hd, ha⟩, hb⟩ := huni
  have hva : effAddr 64 (e.reg64 h.a) (e.reg h.b) h.xs.toNat h.off8.toNat (accSize h.var.toNat) = va := by
    simp only [va, Eval.read_pair, Eval.read_one]
    rfl
  simp only [hcur, loadLaneEval, hord, hd, ha, hb, hopen, hg, except_ok_bind, hva]
  simp only [show accSize h.var.toNat = size from rfl, halign, hread, hclean, hp, except_ok_bind, bne_self_eq_false, Bool.and_self,
    Bool.not_true, Bool.or_self, trapIf_false, Bool.false_eq_true, if_false]
  rfl

end

end Sys2Proof.Machine

namespace Sys2Proof.Claims
open Sys2Proof Sys2Proof.Machine

/-- Settles O11: a context and a lane run each word through its datapath, and the tables' values are those of the word's operation. -/
theorem otherProfilesComplete : Obligations.OtherProfilesComplete := by
  refine ⟨fun s f => ?integers, fun s c => ?control, fun s f k e => ?lanes⟩
  case integers => exact ⟨
    fun _ hok _ hr => exec_ctxArith (op := (· + ·)) rfl rfl hok hr,
    fun _ hok _ hr => exec_ctxArith (op := (· - ·)) rfl rfl hok hr,
    fun _ hok _ hr => exec_ctxArith (op := (· * ·)) rfl rfl hok hr,
    fun _ hok _ hr => exec_ctxArith (op := fun x y => if x ≤ y then x else y) rfl rfl hok hr,
    fun _ hok _ hr => exec_ctxArith (op := fun x y => if x ≤ y then y else x) rfl rfl hok hr,
    fun _ hok _ hr => exec_ctxUnsigned (v := iAnd) rfl rfl hok hr,
    fun _ hok _ hr => exec_ctxUnsigned (v := iOr) rfl rfl hok hr,
    fun _ hok _ hr => exec_ctxUnsigned (v := iXor) rfl rfl hok hr,
    fun _ hok _ hr => exec_ctxUnsigned (v := iShl) rfl rfl hok hr,
    fun _ hok _ hr => exec_ctxUnsigned (v := iShr) rfl rfl hok hr,
    fun _ hok _ hr => exec_ctxInt (sgn := true) rfl rfl hok hr rfl,
    fun _ hok _ hr => exec_ctxIdiv hok hr,
    fun _ hok _ hr => exec_ctxSel hok hr,
    fun _ hok _ hr => exec_ctxIcmp hok hr,
    fun r hr hwf hok _ hc => exec_ctxRow (intRows_described f r hr hwf) hok hc,
    fun _ hok _ hr => exec_ctxIaddc hok hr⟩
  case control => exact ⟨
    fun h _ hg hr => exec_ctxNop hg hr,
    fun h _ hg => exec_ctxBra hg,
    fun h v _ hg hvar hr hv => exec_ctxCsrr hg hvar hr hv⟩
  case lanes => exact ⟨
    fun _ hr => exec_laneIadd hr,
    fun _ hr hq => exec_laneFadd hr hq,
    fun r hr hn => laneRuns_row fun hwf => rows_described r hr hwf hn,
    fun hp => laneRuns_sel hp,
    fun hp => laneRuns_icmp hp,
    fun hp => laneRuns_fcmp hp,
    fun hp => laneRuns_iaddc hp,
    fun hp => laneRuns_pset hp,
    laneRuns_pget,
    ⟨laneRuns_predWord (op := (· && ·)) rfl rfl,
      laneRuns_predWord (op := (· || ·)) rfl rfl,
      laneRuns_predWord (op := (· != ·)) rfl rfl,
      laneRuns_predWord (op := fun p _ => !p) rfl rfl,
      laneRuns_predWord (op := fun p _ => p) rfl rfl⟩,
    fun h ha => laneRuns_rng ha,
    fun h _ hr => exec_laneNop hr,
    fun h _ hpos hr => exec_laneBra hpos hr,
    fun h hn hd => laneRuns_csrr hn hd,
    fun h bs _ hord huni hr hg hal hread hclean => exec_laneLdu hord huni hr hg hal hread hclean⟩

end Sys2Proof.Claims
end

