-- ==== Sys2Proof/Proofs/ComputeWords.lean ====
section
/-! SUPPORT. How an arithmetic word of a wave ends once its checks have passed (R35, R36, R67, R132–R135): the settling of its
exceptions, the lanes it writes, the values it sends. -/

namespace Sys2Proof.Machine
open Sys2Proof.Claims

/-! Exceptions. -/

/-- The exceptions that the lanes of a word raise together (R67). -/
def raisedBy (xs : List (Nat × Exc × Exc)) : Exc := xs.foldl (fun a x => a ||| x.2.1 ||| x.2.2) Exc.none

/-- With none of them enabled, the exceptions are ORed into FPCTL (R67, R68). -/
theorem settleFlags_eq {fpctl : DWord} {xs : List (Nat × Exc × Exc)} (h : raisedBy xs &&& fpctl.extractLsb' 4 5 = 0#5) :
    settleFlags fpctl xs = .ok (fpctl ||| BitVec.ofNat 64 ((raisedBy xs).toNat * 2 ^ 9)) := by
  have hon : ((List.range 5).find? fun i => (0#5).getLsbD i) = none := by decide
  unfold raisedBy at h ⊢
  simp only [settleFlags, h, hon]

theorem settleFlags_quiet {fpctl : DWord} (h : fpctl.extractLsb' 4 5 = 0#5) (xs : List (Nat × Exc × Exc)) :
    settleFlags fpctl xs = .ok (fpctl ||| BitVec.ofNat 64 ((raisedBy xs).toNat * 2 ^ 9)) :=
  settleFlags_eq (by rw [h]; exact BitVec.and_zero)

theorem raisedBy_map {α : Type} (ls : List α) (lane : α → Nat) (k : α → Exc) :
    raisedBy (ls.map fun o => (lane o, k o, Exc.none)) = ls.foldl (fun a o => a ||| k o) Exc.none := by
  simp only [raisedBy, List.foldl_map, exc_or_none]

theorem foldl_exc_none {α : Type} {ls : List α} {k : α → Exc} (h : ∀ o ∈ ls, k o = Exc.none) :
    ls.foldl (fun a o => a ||| k o) Exc.none = Exc.none := by
  induction ls with
  | nil => rfl
  | cons o ls ih =>
    obtain ⟨ho, hls⟩ := List.forall_mem_cons.mp h
    rw [List.foldl_cons, ho, exc_or_none, ih hls]

/-- Lanes that raise nothing leave FPCTL as it is. -/
theorem settleFlags_none {α : Type} (fpctl : DWord) (ls : List α) (lane : α → Nat) {k : α → Exc} (h : ∀ o ∈ ls, k o = Exc.none) :
    settleFlags fpctl (ls.map fun o => (lane o, k o, Exc.none)) = .ok fpctl := by
  have hzero : raisedBy (ls.map fun o => (lane o, k o, Exc.none)) = Exc.none := by rw [raisedBy_map, foldl_exc_none h]
  rw [settleFlags_eq (by rw [hzero]; exact BitVec.zero_and), hzero]
  exact congrArg Except.ok BitVec.or_zero

/-! The end of a word. -/

section
variable {c : WCtx} {W : Wave} {bnd : Bool} {vals vals' : Nat → Nat}

/-- A message holds the values of the active lanes only (R40). -/
theorem send_congr (h : ∀ l, c.lanes.getLsbD l = true → vals l = vals' l) : c.send W bnd vals = c.send W bnd vals' := by
  have hvals : (fun i => if c.lanes.getLsbD i then BitVec.ofNat 32 (vals i) else 0) =
      fun i => if c.lanes.getLsbD i then BitVec.ofNat 32 (vals' i) else 0 := by
    funext i
    cases hi : c.lanes.getLsbD i
    · rfl
    · rw [h i hi]
  simp only [WCtx.send, hvals]

theorem done_congr {dst : Option (BitVec 8)} (h : dst = some 0xFE#8 → ∀ l, c.lanes.getLsbD l = true → vals l = vals' l) :
    c.done W bnd dst vals = c.done W bnd dst vals' := by
  by_cases hd : dst = some 0xFE#8
  · simp only [WCtx.done, send_congr (h hd)]
  · have hm : (dst == some 0xFE#8) = false := beq_eq_false_iff_ne.mpr hd
    simp only [WCtx.done, hm, Bool.false_and, if_neg Bool.false_ne_true]

end

theorem isUniform_mb : isUniform 0xFE#8 = false := by decide

/-- A word that sends computes in every active lane. -/
theorem mem_worksIn_of_mb {f : AluW} {c : WCtx} (hd : some f.d = some 0xFE#8) {l : Nat} (hl : c.lanes.getLsbD l = true) :
    l ∈ worksIn f c := by
  rw [worksIn, Option.some.inj hd, isUniform_mb, if_neg Bool.false_ne_true]
  exact (mem_lanesOf _ _).mpr hl

/-- The value of a lane in the list of the lanes' results. -/
theorem find_lane_val (ls : List Nat) (g : Nat → LaneOut) (l : Nat) :
    (((ls.map fun j => (j, g j)).find? fun o => o.1 == l).map fun o => o.2.val).getD 0 = if l ∈ ls then (g l).val else 0 := by
  induction ls with
  | nil => rfl
  | cons j ls ih =>
    rw [List.map_cons, List.find?_cons]
    by_cases hj : j = l
    · subst hj
      simp
    · have hne : (j == l) = false := beq_eq_false_iff_ne.mpr hj
      simpa only [hne, List.mem_cons, Ne.symm hj, false_or] using ih

/-- Whether a word of a wave meets no ILLEGAL_ENC of its own. -/
structure AluSpec.WaveLegal (x : AluSpec) : Prop where
  bad : x.bad = false := by exact rfl
  preds : x.predsOk = true := by exact rfl
  idle : x.idle = none := by exact rfl

/-- An arithmetic word whose lanes raise no exception writes their results and ends. -/
theorem AluSpec.wave_eq {x : AluSpec} {c0 c : WCtx} (bnd : Bool) (hx : x.WaveLegal) (hc : c0.begin x.srcs x.dsts x.uni = .ok c)
    (hexc : ∀ l, (x.op (x.laneIn c l)).exc = Exc.none) :
    x.wave bnd c0 = .ok (c.done (x.write c.W c.lanes (x.outs c)) bnd (x.dst.map (·.1))
      fun l => if l ∈ x.at c then (x.op (x.laneIn c l)).val else 0) := by
  obtain ⟨hbad, hpreds, hidle⟩ := hx
  have hflags : settleFlags c.W.fpctl ((x.outs c).map fun o => (o.1, o.2.exc, Exc.none)) = .ok c.W.fpctl :=
    settleFlags_none _ _ _ fun o ho => by
      obtain ⟨l, -, rfl⟩ := List.mem_map.mp ho
      exact hexc l
  have hvals : (fun l => (((x.outs c).find? fun o => o.1 == l).map fun o => o.2.val).getD 0) =
      fun l => if l ∈ x.at c then (x.op (x.laneIn c l)).val else 0 := funext fun l => find_lane_val _ _ l
  simp only [AluSpec.wave, hbad, hpreds, hidle, Bool.not_true, Bool.or_self, Option.any_none, trapIf_false, except_ok_bind, hc, hflags, hvals]

/-! What the operands are. -/

section
variable {f : AluW} {x : AluSpec} {wa wb wc : Nat} {c : WCtx} {l : Nat}

theorem laneIn_one (ha : x.a = some (f.a, wa)) (hb : x.b = none) (hc : x.c = none) : x.laneIn c l =
    ⟨opA f wa c l, x.imm, 0, x.psrc.any fun p => (c.W.pred p.toNat).getLsbD l, l, c.W.rm, c.W.ftz⟩ := by
  simp only [AluSpec.laneIn, ha, hb, hc, Option.elim_some, Option.elim_none]
  rfl

theorem elim_aluB (imm : Nat) :
    ((aluB f wb).elim imm fun p => c.regN p.1 p.2 l) = opB f wb imm c l := by
  cases h : immFlag f.var <;> simp [aluB, opB, h]

theorem laneIn_two (ha : x.a = some (f.a, wa)) (hb : x.b = aluB f wb) (hc : x.c = none) : x.laneIn c l =
    ⟨opA f wa c l, opB f wb x.imm c l, 0, x.psrc.any fun p => (c.W.pred p.toNat).getLsbD l, l, c.W.rm, c.W.ftz⟩ := by
  simp only [AluSpec.laneIn, ha, hb, hc, elim_aluB, Option.elim_some, Option.elim_none]
  rfl

theorem laneIn_three (ha : x.a = some (f.a, wa)) (hb : x.b = aluB f wb) (hc : x.c = some (f.c, wc)) : x.laneIn c l =
    ⟨opA f wa c l, opB f wb x.imm c l, opC f wc c l, x.psrc.any fun p => (c.W.pred p.toNat).getLsbD l, l, c.W.rm, c.W.ftz⟩ := by
  simp only [AluSpec.laneIn, ha, hb, hc, elim_aluB, Option.elim_some]
  rfl

theorem laneSrcs_three (ha : x.a = some (f.a, wa)) (hb : x.b = aluB f wb) (hc : x.c = some (f.c, wc)) :
    x.srcs = srcs3 f wa wb wc := by
  rw [AluSpec.srcs, ha, hb, hc]
  cases h : immFlag f.var <;> simp [aluB, srcs3, srcs2, h]

end

/-! Words that write D. -/

/-- The word `x` reads `srcs` and writes D, n registers wide, and nothing else. -/
structure Writes (f : AluW) (x : AluSpec) (srcs : List Regs) (n : Nat) : Prop extends x.WaveLegal where
  srcs : x.srcs = srcs := by exact rfl
  dst : x.dst = some (f.d, n) := by exact rfl
  pdst : x.pdst = none := by exact rfl

section
variable {i : Instr} {s : State} {f : AluW} {x : AluSpec} {opc n : Nat} {own : Bool} {srcs : List Regs}

theorem AluSpec.uni_of_dst (hd : x.dst = some (f.d, n)) : x.uni = isUniform f.d := by rw [AluSpec.uni, hd]; rfl

theorem AluSpec.at_of_dst (hd : x.dst = some (f.d, n)) (c : WCtx) : x.at c = worksIn f c := by
  rw [AluSpec.at, AluSpec.uni_of_dst hd]; rfl

/-- The registers of D after the results are written. -/
theorem AluSpec.write_regs (hd : x.dst = some (f.d, n)) (c : WCtx) (W : Wave) :
    (x.outs c).foldl (fun W o => W.putRegs f.d n o.1 o.2.val) W =
      (worksIn f c).foldl (fun W l => W.putRegs f.d n l (x.op (x.laneIn c l)).val) W := by
  rw [AluSpec.outs, List.foldl_map, AluSpec.at_of_dst hd]

/-- A word that computes one value in each lane, without exceptions, completes. -/
theorem gives_of_spec {val : WCtx → Nat → Nat} (hi : exec i s = runAlu opc f own x s) (ho : computeAllows opc = true)
    (hx : Writes f x srcs n) (hv : ∀ c l, x.op (x.laneIn c l) = LaneOut.ofInt (val c l)) : Gives i f s srcs n val := by
  obtain ⟨hlegal, hsrcs, hd, hp⟩ := hx
  subst hsrcs
  intro _ c hr
  refine exec_ready hi ho hr fun c0 hc => ?_
  have hbegin : c0.begin x.srcs x.dsts x.uni = .ok c := by
    rw [AluSpec.uni_of_dst hd, AluSpec.dsts, hd]
    exact hc
  rw [AluSpec.wave_eq f.bnd hlegal hbegin fun l => by rw [hv]; rfl]
  simp only [AluSpec.write, hd, hp, AluSpec.write_regs hd, hv, AluSpec.at_of_dst hd, LaneOut.ofInt, Option.map_some]
  exact congrArg Except.ok (done_congr fun hmb l hl => if_pos (mem_worksIn_of_mb hmb hl))

end

end Sys2Proof.Machine
end

