-- ==== Sys2Proof/Proofs/IntegerWords.lean ====
section
/-! SUPPORT. The integer words of a wave (R138, R139, R146), one by one, and O1. -/

namespace Sys2Proof.Machine
open Sys2Proof.Claims

section
variable {i : Instr} {s : State} {f : AluW} {opc wb : Nat} {own sgn : Bool} {op : Nat → LaneIn → Nat} {val : WCtx → Nat → Nat}

/-- An integer word of one, two or three sources. -/
theorem gives_int1 (hi : exec i s = runAlu opc f own (intSpec f 1 wb sgn op) s) (ho : computeAllows opc = true)
    (hv : ∀ c l, op (ty3 f.var) ⟨opA f (intRegs (ty3 f.var)) c l, intImm (ty3 f.var) f.imm, 0, false, l, c.W.rm, c.W.ftz⟩ = val c l) :
    Gives i f s (srcs1 f (intRegs (ty3 f.var))) (intRegs (ty3 f.var)) val :=
  gives_of_spec hi ho {} fun c l => by
    rw [laneIn_one (x := intSpec f 1 wb sgn op) rfl rfl rfl]
    exact congrArg LaneOut.ofInt (hv c l)

theorem gives_int2 (hi : exec i s = runAlu opc f own (intSpec f 2 wb sgn op) s) (ho : computeAllows opc = true)
    (hv : ∀ c l, op (ty3 f.var) ⟨opA f (intRegs (ty3 f.var)) c l, opB f wb (intImm (ty3 f.var) f.imm) c l, 0, false, l, c.W.rm, c.W.ftz⟩ =
      val c l) : Gives i f s (srcs2 f (intRegs (ty3 f.var)) wb) (intRegs (ty3 f.var)) val :=
  gives_of_spec hi ho { srcs := laneSrcs_two rfl rfl rfl } fun c l => by
    rw [laneIn_two (x := intSpec f 2 wb sgn op) rfl rfl rfl]
    exact congrArg LaneOut.ofInt (hv c l)

theorem gives_int3 (hi : exec i s = runAlu opc f own (intSpec f 3 wb sgn op) s) (ho : computeAllows opc = true)
    (hv : ∀ c l, op (ty3 f.var) ⟨opA f (intRegs (ty3 f.var)) c l, opB f wb (intImm (ty3 f.var) f.imm) c l,
      opC f (intRegs (ty3 f.var)) c l, false, l, c.W.rm, c.W.ftz⟩ = val c l) :
    Gives i f s (srcs3 f (intRegs (ty3 f.var)) wb (intRegs (ty3 f.var))) (intRegs (ty3 f.var)) val :=
  gives_of_spec hi ho { srcs := laneSrcs_three rfl rfl rfl } fun c l => by
    rw [laneIn_three (x := intSpec f 3 wb sgn op) rfl rfl rfl]
    exact congrArg LaneOut.ofInt (hv c l)

/-- A count is one register wide (R139). -/
theorem gives_count {op : Nat → Nat → Nat} (hi : exec i s = runAlu opc f own (countSpec f op) s) (ho : computeAllows opc = true)
    (hv : ∀ c l, op (ty3 f.var) (opA f (intRegs (ty3 f.var)) c l) = val c l) :
    Gives i f s (srcs1 f (intRegs (ty3 f.var))) 1 val :=
  gives_of_spec hi ho {} fun c l => by
    rw [laneIn_one (x := countSpec f op) rfl rfl rfl]
    exact congrArg LaneOut.ofInt (hv c l)

end

/-- A word whose own bits make it complete. -/
theorem gives_of_wf {i : Instr} {f : AluW} {s : State} {srcs : List Regs} {n : Nat} {val : WCtx → Nat → Nat}
    (h : i.wf = true → Gives i f s srcs n val) : Gives i f s srcs n val := fun hwf => h hwf hwf

end Sys2Proof.Machine

namespace Sys2Proof.Claims
open Sys2Proof Sys2Proof.Machine

/-- Settles O1: each word hands its operation to the datapath, and the operation is the arithmetic on bit vectors of the type's width. -/
theorem integerArithmeticCompletes : Obligations.IntegerArithmeticCompletes := by
  intro s f
  have sat (e : Int) := (intResult_eq (ty3 f.var) f.cl e).trans (intCode_eq _ _)
  have code (v : Int) := intCode_eq (ty3 f.var) v
  have low (x y : Int) : (if x ≤ y then x else y) = min x y := (min_def x y).symm
  have high (x y : Int) : (if x ≤ y then y else x) = max x y := (max_def x y).symm
  exact ⟨
    gives_int2 rfl rfl fun _ _ => sat _,
    gives_int2 rfl rfl fun _ _ => sat _,
    gives_int2 rfl rfl fun _ _ => sat _,
    gives_int2 rfl rfl fun _ _ => (code _).trans (by push_cast; rfl),
    gives_int3 rfl rfl fun _ _ => sat _,
    gives_int2 rfl rfl fun _ _ => (congrArg (intResult _ _) (low _ _)).trans (sat _),
    gives_int2 rfl rfl fun _ _ => (congrArg (intResult _ _) (high _ _)).trans (sat _),
    gives_int2 rfl rfl fun _ _ => rfl,
    gives_int2 rfl rfl fun _ _ => by simp only [iDiv, beq_iff_eq, code],
    gives_int2 rfl rfl fun _ _ => by simp only [iRem, beq_iff_eq, code],
    gives_int2 rfl rfl fun _ _ => iAnd_eq _ _ _,
    gives_int2 rfl rfl fun _ _ => iOr_eq _ _ _,
    gives_int2 rfl rfl fun _ _ => iXor_eq _ _ _,
    gives_int2 rfl rfl fun _ _ => iAndn_eq _ _ _,
    gives_count rfl rfl fun _ _ => iPopc_eq _ _,
    gives_count rfl rfl fun _ _ => iClz_eq _ _,
    gives_int1 rfl rfl fun _ _ => iBrev_eq _ _⟩

end Sys2Proof.Claims
end

