-- ==== Sys2Proof/Proofs/BitwiseWords.lean ====
section
/-! SUPPORT. Shifts, bit fields, address arithmetic, moves and selection of a wave (R140, R142–R145, R147, R148), and O2. -/

namespace Sys2Proof.Machine
open Sys2Proof.Claims

section
variable {s : State} {f : AluW}

/-- The model's BFI, LEA and MOV, as the datapaths run them. -/
def bfiSpec (f : AluW) : AluSpec :=
  { intSpec f 3 (intRegs (ty3 f.var)) false (fun t i => iBfi t i.a i.b i.c) with c := some (f.c, 1) }
def leaSpec (f : AluW) : AluSpec :=
  { intSpec f 2 1 false (fun t i => iLea t i.a i.b f.sc.toNat) with a := some (f.a, 2), dst := some (f.d, 2) }
def movSpec (f : AluW) : AluSpec :=
  { intSpec f 1 1 (intSigned (ty3 f.var)) (fun t i => intCode t (intValue t (if immFlag f.var then i.b else i.a))) with
    a := if immFlag f.var then none else some (f.a, intRegs (ty3 f.var))
    bad := immFlag f.var && f.a != 0#8 }

theorem exec_bfi (f : AluW) (s : State) : exec (.bfi f) s = runAlu 0x35 f false (bfiSpec f) s := rfl
theorem exec_lea (f : AluW) (s : State) : exec (.lea f) s = runAlu 0x36 f true (leaSpec f) s := rfl
theorem exec_mov (f : AluW) (s : State) : exec (.mov f) s = runAlu 0x39 f false (movSpec f) s := rfl

/-- BFI takes its control from C, one register (R142). -/
theorem gives_bfi {val : WCtx → Nat → Nat}
    (hv : ∀ c l, iBfi (ty3 f.var) (opA f (intRegs (ty3 f.var)) c l) (opB f (intRegs (ty3 f.var)) (intImm (ty3 f.var) f.imm) c l)
      (opC f 1 c l) = val c l) :
    Gives (.bfi f) f s (srcs3 f (intRegs (ty3 f.var)) (intRegs (ty3 f.var)) 1) (intRegs (ty3 f.var)) val :=
  gives_of_spec (exec_bfi f s) rfl { srcs := laneSrcs_three rfl rfl rfl } fun c l => by
    rw [laneIn_three (x := bfiSpec f) rfl rfl rfl]
    exact congrArg LaneOut.ofInt (hv c l)

/-- LEA reads a pair and writes a pair (R143). -/
theorem gives_lea {val : WCtx → Nat → Nat}
    (hv : ∀ c l, iLea (ty3 f.var) (opA f 2 c l) (opB f 1 (intImm (ty3 f.var) f.imm) c l) f.sc.toNat = val c l) :
    Gives (.lea f) f s (srcs2 f 2 1) 2 val :=
  gives_of_spec (exec_lea f s) rfl { srcs := laneSrcs_two rfl rfl rfl } fun c l => by
    rw [laneIn_two (f := f) (x := leaSpec f) rfl rfl rfl]
    exact congrArg LaneOut.ofInt (hv c l)

/-- MOV reads A, or its immediate and no operand (R147). -/
theorem gives_mov : Gives (.mov f) f s (if immFlag f.var then [] else srcs1 f (intRegs (ty3 f.var))) (intRegs (ty3 f.var)) fun c l =>
    intCode (ty3 f.var) (intValue (ty3 f.var) (if immFlag f.var then intImm (ty3 f.var) f.imm else opA f (intRegs (ty3 f.var)) c l)) :=
  gives_of_wf fun hwf => by
    have hbad : (movSpec f).bad = false := intOk_imm hwf
    have hsrcs : (movSpec f).srcs = if immFlag f.var then [] else srcs1 f (intRegs (ty3 f.var)) := by
      cases h : immFlag f.var <;> simp [AluSpec.srcs, movSpec, intSpec, aluC, srcs1, h]
    refine gives_of_spec (exec_mov f s) rfl { bad := hbad, srcs := hsrcs } fun c l => congrArg LaneOut.ofInt ?_
    cases h : immFlag f.var <;> simp [AluSpec.laneIn, movSpec, intSpec, opA, h]

/-- MOVL and MOVH read D and write it (R147). -/
theorem gives_movHalf {i : Instr} {opc : Nat} {hi : Bool} {val : WCtx → Nat → Nat} (hexec : exec i s = movHalf opc hi f s)
    (ho : computeAllows opc = true)
    (hv : ∀ c l, c.regN f.d 1 l - c.regN f.d 1 l / 2 ^ (if hi then 16 else 0) % 65536 * 2 ^ (if hi then 16 else 0) +
      f.imm.toNat * 2 ^ (if hi then 16 else 0) = val c l) : Gives i f s [Regs.ofW f.d 1] 1 val :=
  gives_of_spec hexec ho {} fun c l => congrArg LaneOut.ofInt (hv c l)

/-- SEL takes its condition from the predicate C names (R148). -/
theorem gives_sel (hp : predCode f.c = true) : Gives (.sel f) f s (srcs2 f (intRegs (ty3 f.var)) (intRegs (ty3 f.var)))
    (intRegs (ty3 f.var)) fun c l => unsignedOf (ty3 f.var) (if (c.W.pred f.c.toNat).getLsbD l
      then opA f (intRegs (ty3 f.var)) c l else opB f (intRegs (ty3 f.var)) (intImm (ty3 f.var) f.imm) c l) :=
  have hpreds : (selSpec f).predsOk = true := by simp [AluSpec.predsOk, selSpec, intSpec, hp]
  gives_of_spec (exec_sel f s) rfl { preds := hpreds, srcs := laneSrcs_two rfl rfl rfl } fun c l => by
    rw [laneIn_two (f := f) (x := selSpec f) rfl rfl rfl]
    rfl

end

end Sys2Proof.Machine

namespace Sys2Proof.Claims
open Sys2Proof Sys2Proof.Machine

/-- Settles O2: as O1; BFE, SAR, LEA and IDOT4 have their value by the types the word admits. -/
theorem bitwiseWordsComplete : Obligations.BitwiseWordsComplete := by
  intro s f
  have wide : ∀ t ∈ tysW, 32 ≤ intBits t := by decide
  have sars : ∀ t ∈ [0, 2], intSigned t = true ∧ 32 ≤ intBits t := by decide
  have leas : ∀ t ∈ [0, 1], t = 0 ∨ t = 1 := by decide
  have dots : ∀ t ∈ [6, 7], t = 6 ∨ t = 7 := by decide
  have lower (a : Nat) : a - a / 2 ^ 0 % 65536 * 2 ^ 0 + f.imm.toNat * 2 ^ 0 = a - a % 65536 + f.imm.toNat := by simp
  have unsigned (b : Bool) (x y : Nat) : unsignedOf (ty3 f.var) (if b then x else y) =
      (if b then BitVec.ofNat (intBits (ty3 f.var)) x else BitVec.ofNat (intBits (ty3 f.var)) y).toNat := by
    cases b <;> exact unsignedOf_eq _ _
  exact ⟨
    gives_int2 rfl rfl fun _ _ => iShl_eq _ _ _,
    gives_int2 rfl rfl fun _ _ => iShr_eq _ _ _,
    gives_of_wf fun h => gives_int2 rfl rfl fun _ _ => iSar_eq (sars _ (intOk_type h)).1 (sars _ (intOk_type h)).2 _ _,
    gives_int2 rfl rfl fun _ _ => iRotl_eq _ _ _,
    gives_of_wf fun h => gives_int2 rfl rfl fun _ _ => iBfe_eq (wide _ (intOk_type h)) _ _,
    gives_bfi fun _ _ => iBfi_eq _ _ _ _,
    gives_of_wf fun h => gives_lea fun _ _ => iLea_eq _ _ _ _ (leas _ (intOk_type_of_sc h)),
    gives_mov,
    gives_movHalf (hi := false) rfl rfl fun _ _ => lower _,
    gives_movHalf (hi := true) rfl rfl fun _ _ => rfl,
    gives_int3 rfl rfl fun _ _ => iPrmt_eq _ _ _,
    gives_of_wf fun h => gives_int3 rfl rfl fun _ _ => iDot4_eq (dots _ (intOk_type h)) _ _ _ _,
    fun hp => by simpa only [unsigned] using gives_sel hp⟩

end Sys2Proof.Claims
end

