-- ==== Sys2Proof/Proofs/PredicateWords.lean ====
section
/-! SUPPORT. The words of a wave that write predicates (R141, R148–R150), and O3. -/

namespace Sys2Proof.Machine
open Sys2Proof.Claims

/-- The word `x` reads `srcs` and writes the predicate that D names, and nothing else. -/
structure WritesPred (f : AluW) (x : AluSpec) (srcs : List Regs) : Prop extends x.WaveLegal where
  srcs : x.srcs = srcs := by exact rfl
  dst : x.dst = none := by exact rfl
  pdst : x.pdst = some f.d := by exact rfl

/-- Whether a test of a lane's result holds of some result that lanes of a list gave. -/
theorem any_lane_pred (ls : List Nat) (p : Nat → Bool) (l : Nat) : (ls.any fun j => j == l && p j) = (ls.contains l && p l) := by
  rw [Bool.eq_iff_iff]
  simp

theorem contains_lanesOf (m : LaneMask) (l : Nat) : (lanesOf m).contains l = m.getLsbD l := by
  rw [Bool.eq_iff_iff, List.contains_iff_mem, mem_lanesOf]

/-- Off the uniform datapath each lane has its own predicate result. -/
theorem predVal_lanes (c : WCtx) (g : Nat → LaneOut) :
    predVal false ((lanesOf c.lanes).map fun l => (l, g l)) = lanesWhere c fun l => (g l).pred := by
  simp only [predVal, if_neg Bool.false_ne_true, List.any_map, Function.comp_def, lanesWhere]
  exact congrArg maskOf (funext fun l => by rw [any_lane_pred _ (fun j => (g j).pred), contains_lanesOf])

/-- On the uniform datapath the predicate result is that of the lowest active lane (R35, R141). -/
theorem predVal_uniform (c : WCtx) (g : Nat → LaneOut) :
    predVal true (((lanesOf c.lanes).take 1).map fun l => (l, g l)) =
      if c.lanes != 0 && (g (lowLane c.lanes)).pred then BitVec.allOnes 32 else 0 := by
  by_cases h0 : c.lanes = 0
  · rw [lanesOf_eq_nil.mpr h0, h0]
    rfl
  · rw [take_lanesOf h0, bne_iff_ne.mpr h0]
    simp [predVal]

section
variable {i : Instr} {s : State} {f : AluW} {x : AluSpec} {opc n : Nat} {own : Bool} {srcs : List Regs}

/-- A word that decides one predicate in each lane, without exceptions, completes. -/
theorem decides_of_spec {p : WCtx → Nat → Bool} (hi : exec i s = runAlu opc f own x s) (ho : computeAllows opc = true)
    (hx : WritesPred f x srcs) (hv : ∀ c l, x.op (x.laneIn c l) = LaneOut.ofPred (p c l, Exc.none)) : Decides i f s srcs p := by
  obtain ⟨hlegal, hsrcs, hd, hp⟩ := hx
  subst hsrcs
  intro _ c hr
  have huni : x.uni = false := by rw [AluSpec.uni, hd]; rfl
  refine exec_ready hi ho hr fun c0 hc => ?_
  have hbegin : c0.begin x.srcs x.dsts x.uni = .ok c := by
    rw [huni, AluSpec.dsts, hd]
    exact hc
  rw [AluSpec.wave_eq f.bnd hlegal hbegin fun l => by rw [hv]; rfl]
  have hval : predVal x.uni (x.outs c) = lanesWhere c (p c) := by
    rw [AluSpec.outs, AluSpec.at, huni, if_neg Bool.false_ne_true, predVal_lanes]
    simp only [hv, LaneOut.ofPred]
  simp only [AluSpec.write, hd, hp, hval]
  rfl

end

section
variable {s : State} {f : AluW}

/-- ICMP compares the sources read as the type (R148). -/
theorem decides_icmp (hp : predCode f.d = true) :
    Decides (.icmp f) f s (srcs2 f (intRegs (ty3 f.var)) (intRegs (ty3 f.var))) fun c l =>
      iCmp f.sc (intSrc (ty3 f.var) f.ma (opA f (intRegs (ty3 f.var)) c l))
        (intSrc (ty3 f.var) f.mb (opB f (intRegs (ty3 f.var)) (intImm (ty3 f.var) f.imm) c l)) :=
  have hpreds : (icmpSpec f).predsOk = true := by simp [AluSpec.predsOk, icmpSpec, intSpec, hp]
  decides_of_spec (exec_icmp f s) rfl { preds := hpreds, srcs := laneSrcs_two rfl rfl rfl } fun c l => by
    rw [laneIn_two (f := f) (x := icmpSpec f) rfl rfl rfl]
    rfl

/-- PSET takes bit l of a uniform register, elsewhere whether the lane's own value is not 0 (R150). -/
theorem decides_pset : Decides (.pset f) f s [Regs.ofW f.a 1] fun c l =>
    if isUniform f.a then bit (opA f 1 c l) (l % 32) else opA f 1 c l != 0 := by
  intro hwf
  have hp : predCode f.d = true := by
    simp only [Instr.wf, Instr.legal, Bool.and_eq_true] at hwf
    tauto
  have hpreds : (psetSpec f).predsOk = true := by simp [AluSpec.predsOk, psetSpec, hp]
  exact decides_of_spec (exec_pset f s) rfl { preds := hpreds } (fun _ _ => rfl) hwf

/-- A word of two predicates (R149). -/
theorem exec_predWord {i : Instr} {opc : Nat} {op : Bool → Bool → Bool} {c : WCtx} (hi : exec i s = predWord opc f op s)
    (ho : computeAllows opc = true) (hr : ready s f.g .ok = some c) :
    exec i s = .next (c.retire (c.W.putPred f.d.toNat c.lanes (maskOf fun l =>
      op ((c.W.pred f.a.toNat).getLsbD l) ((c.W.pred f.b.toNat).getLsbD l))) f.bnd) :=
  exec_ready hi ho hr fun c0 hc => by
    cases hc
    rfl

/-- PGET delivers the predicate over the active lanes (R150). -/
theorem exec_pget {c : WCtx} (hr : ready s f.g (fun c => c.begin [] [.one f.d] false) = some c) :
    exec (.pget f) s = .next (c.finish f.bnd f.d 1 fun _ => (c.W.pred f.a.toNat &&& c.lanes).toNat) :=
  exec_ready (opc := 0x46) rfl rfl hr fun c0 hc => by simp only [hc, except_ok_bind]

/-- The exact sum of IADDC, its carry in named by C (R141). -/
def carrySum (f : AluW) (c : WCtx) (l : Nat) : Nat :=
  opA f (intRegs (ty3 f.var)) c l % 2 ^ intBits (ty3 f.var) +
    opB f (intRegs (ty3 f.var)) (intImm (ty3 f.var) f.imm) c l % 2 ^ intBits (ty3 f.var) +
    ((c.W.pred f.c.toNat).getLsbD l).toNat

/-- The carry out of each lane, from a uniform D that of the one sum (R141). -/
def carryOut (f : AluW) (c : WCtx) : LaneMask :=
  if isUniform f.d then (if c.lanes != 0 && 2 ^ intBits (ty3 f.var) ≤ carrySum f c (lowLane c.lanes) then BitVec.allOnes 32 else 0)
  else lanesWhere c fun l => 2 ^ intBits (ty3 f.var) ≤ carrySum f c l

theorem iaddc_op (c : WCtx) (l : Nat) : (iaddcSpec f).op ((iaddcSpec f).laneIn c l) =
    ⟨carrySum f c l % 2 ^ intBits (ty3 f.var), Exc.none, decide (2 ^ intBits (ty3 f.var) ≤ carrySum f c l)⟩ := by
  rw [laneIn_two (f := f) (x := iaddcSpec f) rfl rfl rfl]
  rfl

theorem predVal_iaddc (c : WCtx) : predVal (iaddcSpec f).uni ((iaddcSpec f).outs c) = carryOut f c := by
  rw [AluSpec.outs, AluSpec.at, AluSpec.uni_of_dst (f := f) (x := iaddcSpec f) rfl, carryOut]
  cases hu : isUniform f.d
  · simp only [if_neg Bool.false_ne_true, predVal_lanes, iaddc_op]
  · simp only [if_true, predVal_uniform, iaddc_op]

/-- IADDC writes the sum, then the carry (R141). -/
theorem exec_iaddc_wave {c : WCtx} (hp : predCode f.c = true)
    (hr : ready s f.g (fun c => c.begin (srcs2 f (intRegs (ty3 f.var)) (intRegs (ty3 f.var))) [Regs.ofW f.d (intRegs (ty3 f.var))]
      (isUniform f.d)) = some c) :
    exec (.iaddc f) s = .next (c.done
      (((worksIn f c).foldl (fun W l => W.putRegs f.d (intRegs (ty3 f.var)) l (carrySum f c l % 2 ^ intBits (ty3 f.var))) c.W).putPred
        f.c.toNat c.lanes (carryOut f c)) f.bnd (some f.d)
      fun l => if c.lanes.getLsbD l then carrySum f c l % 2 ^ intBits (ty3 f.var) else 0) := by
  have hlegal : (iaddcSpec f).WaveLegal := { preds := by simp [AluSpec.predsOk, iaddcSpec, intSpec, hp] }
  refine exec_ready (exec_iaddc f s) rfl hr fun c0 hc => ?_
  have hbegin : c0.begin (iaddcSpec f).srcs (iaddcSpec f).dsts (iaddcSpec f).uni = .ok c := by
    rw [laneSrcs_two (f := f) (x := iaddcSpec f) rfl rfl rfl, AluSpec.uni_of_dst (f := f) (x := iaddcSpec f) rfl]
    exact hc
  have hwrite : (iaddcSpec f).write c.W c.lanes ((iaddcSpec f).outs c) =
      (((iaddcSpec f).outs c).foldl (fun W o => W.putRegs f.d (intRegs (ty3 f.var)) o.1 o.2.val) c.W).putPred f.c.toNat c.lanes
        (predVal (iaddcSpec f).uni ((iaddcSpec f).outs c)) := rfl
  rw [AluSpec.wave_eq f.bnd hlegal hbegin fun l => by rw [iaddc_op], hwrite, predVal_iaddc, AluSpec.write_regs rfl]
  simp only [iaddc_op]
  refine congrArg Except.ok (done_congr fun hmb l hl => ?_)
  rw [AluSpec.at_of_dst (f := f) (x := iaddcSpec f) rfl, if_pos (mem_worksIn_of_mb hmb hl), if_pos hl]

end

end Sys2Proof.Machine

namespace Sys2Proof.Claims
open Sys2Proof Sys2Proof.Machine

/-- Settles O3: the words that decide a predicate run on the datapath lane by lane; IADDC writes its sum and then its carry. -/
theorem predicateWordsComplete : Obligations.PredicateWordsComplete := by
  intro s f
  exact ⟨
    decides_icmp,
    decides_pset,
    fun _ _ hr => exec_predWord (op := (· && ·)) rfl rfl hr,
    fun _ _ hr => exec_predWord (op := (· || ·)) rfl rfl hr,
    fun _ _ hr => exec_predWord (op := (· != ·)) rfl rfl hr,
    fun _ _ hr => exec_predWord (op := fun p _ => !p) rfl rfl hr,
    fun _ _ hr => exec_predWord (op := fun p _ => p) rfl rfl hr,
    fun _ _ hr => exec_pget hr,
    fun _ hp _ hr => exec_iaddc_wave hp hr⟩

end Sys2Proof.Claims
end

