-- ==== Sys2Proof/Proofs/FloatWords.lean ====
section
/-! SUPPORT. A float word that sends its result holds its flags back until the message has been accepted (R228), and O4. -/

namespace Sys2Proof.Machine

/-- fadd.f32 mb, v5, v5: in the state `mailing` it overflows. -/
def sendingAdd : AluW := ⟨false, 0#4, 0#4, 0xFE#8, 5#8, 5#8, 0#8, 0#2, 0#2, 0#2, false, 0#3, 0#2⟩

end Sys2Proof.Machine

namespace Sys2Proof.Claims
open Sys2Proof Sys2Proof.Machine

/-- Refutes O4: with mb as the destination the word ends by sending, and it has no other effect until its message is accepted (R228): the
model keeps FPCTL and holds overflow and inexact back with the word's late effects, where the statement ORs them in at once. -/
theorem not_floatWordsComplete : ¬ Obligations.FloatWordsComplete := by
  intro h
  obtain ⟨hfadd, -⟩ := h mailing sendingAdd
  exact not_givesF_of_fpctl (t := 8) (w := 0) (before := 0#64) (after := 0x2800#64) rfl (by decide +kernel) (by decide) (by decide +kernel)
    hfadd

end Sys2Proof.Claims
end

