-- ==== Sys2Proof/Proofs/ReductionTree.lean ====
section
/-! SUPPORT. The reduction tree (R169) and the blocks of a scan (R170): what a node collects of the lanes below it. -/

namespace Sys2Proof.Machine
open Sys2Proof.Claims

/-! Nodes by level and index. -/

section
variable (f : Int → Int → Int × Exc) (leaf : Nat → Option RNode)

/-- Node i of level k over the leaves (R169). -/
def treeNode : Nat → Nat → Option RNode
  | 0, i => leaf i
  | k + 1, i => RNode.join f (treeNode k (2 * i)) (treeNode k (2 * i + 1))

/-- The lanes below n by their aligned blocks, joined in ascending order (R170). -/
def scanNode (n : Nat) : Option RNode :=
  ([5, 4, 3, 2, 1, 0].filter fun k => n.testBit k).foldl (fun x k => RNode.join f x (treeNode f leaf k (n / 2 ^ (k + 1) * 2))) none

/-- The levels above level 1 are a tree over level 1. -/
theorem treeNode_level_one (k : Nat) : treeNode f (treeNode f leaf 1) k = treeNode f leaf (k + 1) := by
  induction k with
  | zero => rfl
  | succ k ih =>
    funext i
    rw [treeNode, ih]
    rfl

theorem pairUp_map_range (n : Nat) : pairUp f ((List.range (2 * n)).map leaf) = (List.range n).map (treeNode f leaf 1) := by
  induction n generalizing leaf with
  | zero => rfl
  | succ n ih =>
    rw [Nat.mul_succ, List.range_succ_eq_map, List.range_succ_eq_map, List.range_succ_eq_map]
    simp only [List.map_cons, List.map_map, pairUp]
    exact congrArg _ ((ih fun i => leaf (i + 2)).trans rfl)

theorem treeLevels_get {n k : Nat} (hk : k ≤ n) :
    (treeLevels f n ((List.range (2 ^ n)).map leaf))[k]? = some ((List.range (2 ^ (n - k))).map (treeNode f leaf k)) := by
  induction n generalizing leaf k with
  | zero =>
    obtain rfl : k = 0 := by omega
    rfl
  | succ n ih =>
    cases k with
    | zero => rfl
    | succ k =>
      rw [treeLevels, List.getElem?_cons_succ, Nat.pow_succ', pairUp_map_range, ih _ (by omega), Nat.succ_sub_succ, treeNode_level_one]

theorem length_treeLevels (n : Nat) (l : List (Option RNode)) : (treeLevels f n l).length = n + 1 := by
  induction n generalizing l with
  | zero => rfl
  | succ n ih => rw [treeLevels, List.length_cons, ih]

/-- The root is the one node of the last level. -/
theorem treeLevels_root (n : Nat) :
    ((treeLevels f n ((List.range (2 ^ n)).map leaf)).getLast?.bind (·.head?)).join = treeNode f leaf n 0 := by
  rw [List.getLast?_eq_getElem?, length_treeLevels, Nat.add_sub_cancel, treeLevels_get f leaf le_rfl, Nat.sub_self]
  rfl

theorem treeLevels_node {n k i : Nat} (hk : k ≤ n) (hi : i < 2 ^ (n - k)) :
    (((treeLevels f n ((List.range (2 ^ n)).map leaf))[k]?).bind (·[i]?)).join = treeNode f leaf k i := by
  rw [treeLevels_get f leaf hk, Option.bind_some, List.getElem?_map, List.getElem?_range hi]
  rfl

theorem scanBlocks_eq (n : Nat) :
    scanBlocks n = ([5, 4, 3, 2, 1, 0].filter fun k => n.testBit k).map fun k => (k, n / 2 ^ (k + 1) * 2) := by
  rw [scanBlocks]
  generalize [5, 4, 3, 2, 1, 0] = ks
  induction ks with
  | nil => rfl
  | cons k ks ih =>
    rw [List.filterMap_cons, List.filter_cons, ih, bit_eq_testBit]
    cases n.testBit k <;> rfl

/-- The blocks of a scan lie in the tree. -/
theorem block_lt : ∀ n ≤ 32, ∀ k ≤ 5, n.testBit k = true → n / 2 ^ (k + 1) * 2 < 2 ^ (5 - k) := by decide

theorem foldl_scanBlocks {n : Nat} (hn : n ≤ 32) :
    (scanBlocks n).foldl (fun x b =>
      RNode.join f x (((treeLevels f 5 ((List.range 32).map leaf))[b.1]?).bind (·[b.2]?)).join) none = scanNode f leaf n := by
  rw [scanBlocks_eq, List.foldl_map, scanNode]
  refine List.foldl_ext _ _ _ fun x k hk => ?_
  obtain ⟨hmem, hbit⟩ := List.mem_filter.mp hk
  have hk : k ≤ 5 := (by decide : ∀ k ∈ [5, 4, 3, 2, 1, 0], k ≤ 5) k hmem
  exact congrArg _ (treeLevels_node f leaf (n := 5) hk (block_lt n hn k hk hbit))

end

/-! Float values. -/

/-- The exceptions of the events of a node. -/
def eventExcs (evs : List (LaneMask × Exc)) : Exc := evs.foldl (fun k e => k ||| e.2) Exc.none

/-- A node's float code, with the exceptions raised on the way to it. -/
def RNode.code (x : RNode) : Nat × Exc := (x.val.toNat, eventExcs x.evs)

/-- A disjunction of words, bit by bit. -/
theorem getLsbD_foldl_or {α : Type} {w : Nat} (xs : List α) (g : α → BitVec w) (z : BitVec w) (b : Nat) :
    (xs.foldl (fun a x => a ||| g x) z).getLsbD b = (z.getLsbD b || xs.any fun x => (g x).getLsbD b) := by
  induction xs generalizing z with
  | nil => simp
  | cons x xs ih => rw [List.foldl_cons, ih, BitVec.getLsbD_or, List.any_cons, Bool.or_assoc]

theorem getLsbD_eventExcs (evs : List (LaneMask × Exc)) (b : Nat) :
    (eventExcs evs).getLsbD b = evs.any fun e => e.2.getLsbD b := by
  rw [eventExcs, getLsbD_foldl_or]
  simp [Exc.none]

theorem eventExcs_append (xs ys : List (LaneMask × Exc)) : eventExcs (xs ++ ys) = eventExcs xs ||| eventExcs ys :=
  BitVec.eq_of_getLsbD_eq fun b _ => by simp only [BitVec.getLsbD_or, getLsbD_eventExcs, List.any_append]

theorem eventExcs_one (m : LaneMask) (k : Exc) : eventExcs (if k == 0 then [] else [(m, k)]) = k := by
  by_cases hk : k = 0
  · subst hk
    rfl
  · rw [if_neg (by simpa using hk)]
    exact BitVec.zero_or

section
variable {f : Int → Int → Int × Exc} {comb : Nat → Nat → Nat × Exc}
  (hf : ∀ x y : Int, f x y = (((comb x.toNat y.toNat).1 : Int), (comb x.toNat y.toNat).2))
include hf

theorem code_join (x y : Option RNode) : (RNode.join f x y).map RNode.code = joined comb (x.map RNode.code) (y.map RNode.code) := by
  cases x with
  | none => cases y <;> rfl
  | some x =>
    cases y with
    | none => rfl
    | some y => simp only [RNode.join, hf, Option.map_some, RNode.code, joined, eventExcs_append, eventExcs_one, Int.toNat_natCast]

variable {leaf : Nat → Option RNode} {value : Nat → Nat} {on : LaneMask}
  (hleaf : ∀ i, (leaf i).map RNode.code = if on.getLsbD i then some (value i, Exc.none) else none)
include hleaf

/-- A node's float code is that of the tree of R169. -/
theorem code_treeNode (k i : Nat) : (treeNode f leaf k i).map RNode.code = node comb value on k i := by
  induction k generalizing i with
  | zero => exact hleaf i
  | succ k ih => rw [treeNode, code_join hf, ih, ih, node]

theorem code_scanNode (n : Nat) : (scanNode f leaf n).map RNode.code = below comb value on n := by
  rw [scanNode, below, ← List.foldl_hom (Option.map RNode.code)
    (g₂ := fun x k => joined comb x (node comb value on k (n / 2 ^ (k + 1) * 2)))]
  · rfl
  · intro x k
    rw [code_join hf, code_treeNode hf hleaf]

end

/-! Integer values. -/

/-- The operations of R169 on integers. -/
def intOp (op : Nat) (x y : Int) : Int :=
  match op with
  | 0 => x + y
  | 1 => min x y
  | 2 => max x y
  | 3 => (x.toNat &&& y.toNat : Nat)
  | 4 => (x.toNat ||| y.toNat : Nat)
  | _ => (x.toNat ^^^ y.toNat : Nat)

theorem reduxOp_int {t : Nat} (ht : t ≠ 4) (op : Nat) (e : Env) (x y : Int) : reduxOp t op e x y = (intOp op x y, Exc.none) := by
  have hint : (t == 4) = false := beq_eq_false_iff_ne.mpr ht
  unfold reduxOp
  rw [hint, if_neg Bool.false_ne_true]
  rcases op with _ | _ | _ | _ | _ | op
  · rfl
  · exact congrArg (·, Exc.none) (min_def x y).symm
  · exact congrArg (·, Exc.none) (max_def x y).symm
  · rfl
  · rfl
  · rfl

/-- An integer whose 32 bits a test gives. -/
def HasBits (p : Nat → Bool) (e : Int) : Prop := ∃ m : Nat, e = m ∧ m < 2 ^ 32 ∧ ∀ b, b < 32 → m.testBit b = p b

/-- The exact combination of lanes' values, whatever the order they were joined in (R169). -/
def Combines (t op : Nat) (a : Nat → Nat) (ls : List Nat) (e : Int) : Prop :=
  match op with
  | 0 => e = (ls.map fun l => intValue t (a l)).sum
  | 1 => ∃ l ∈ ls, (∀ j ∈ ls, intValue t (a l) ≤ intValue t (a j)) ∧ e = intValue t (a l)
  | 2 => ∃ l ∈ ls, (∀ j ∈ ls, intValue t (a j) ≤ intValue t (a l)) ∧ e = intValue t (a l)
  | 3 => HasBits (fun b => ls.all fun l => (a l).testBit b) e
  | 4 => HasBits (fun b => ls.any fun l => (a l).testBit b) e
  | _ => HasBits (fun b => ls.countP (fun l => (a l).testBit b) % 2 == 1) e

/-- A 32-bit number has its own bits. -/
theorem hasBits_word (x : Nat) {p : Nat → Bool} (hp : ∀ b, p b = x.testBit b) : HasBits p (intValue 1 x) :=
  ⟨x % 2 ^ 32, rfl, Nat.mod_lt _ (by decide), fun b hb => by rw [hp, Nat.testBit_mod_two_pow, decide_eq_true hb, Bool.true_and]⟩

theorem HasBits.bitwise {p q r : Nat → Bool} {x y : Int} {op : Nat → Nat → Nat} {g : Bool → Bool → Bool} (hx : HasBits p x)
    (hy : HasBits q y) (hop : ∀ m n b, (op m n).testBit b = g (m.testBit b) (n.testBit b))
    (hlt : ∀ m n, m < 2 ^ 32 → n < 2 ^ 32 → op m n < 2 ^ 32) (hr : ∀ b, r b = g (p b) (q b)) : HasBits r (op x.toNat y.toNat) := by
  obtain ⟨m, rfl, hm, hp⟩ := hx
  obtain ⟨n, rfl, hn, hq⟩ := hy
  exact ⟨op m n, rfl, hlt m n hm hn, fun b hb => by rw [hop, hp b hb, hq b hb, hr]⟩

/-- The parity of a sum. -/
theorem odd_add (m n : Nat) : ((m + n) % 2 == 1) = ((m % 2 == 1) != (n % 2 == 1)) := by
  rcases Nat.mod_two_eq_zero_or_one m with hm | hm <;> rcases Nat.mod_two_eq_zero_or_one n with hn | hn <;> simp [Nat.add_mod, hm, hn]

section
variable {t op : Nat} {a : Nat → Nat}

theorem combines_leaf (ht : op < 3 ∨ t = 1) (l : Nat) : Combines t op a [l] (intValue t (a l)) := by
  have single : ∀ j ∈ [l], j = l := fun j => List.mem_singleton.mp
  rcases op with _ | _ | _ | op
  · exact List.sum_singleton.symm
  · exact ⟨l, List.mem_singleton_self l, fun j hj => by rw [single j hj], rfl⟩
  · exact ⟨l, List.mem_singleton_self l, fun j hj => by rw [single j hj], rfl⟩
  · obtain rfl : t = 1 := by omega
    rcases op with _ | _ | op
    · exact hasBits_word _ fun b => by simp
    · exact hasBits_word _ fun b => by simp
    · exact hasBits_word _ fun b => by cases h : (a l).testBit b <;> simp [h]

theorem combines_append {xs ys : List Nat} {x y : Int} (hx : Combines t op a xs x) (hy : Combines t op a ys y) :
    Combines t op a (xs ++ ys) (intOp op x y) := by
  rcases op with _ | _ | _ | _ | _ | op
  · subst hx hy
    simp [Combines, intOp]
  · obtain ⟨i, hi, himin, rfl⟩ := hx
    obtain ⟨j, hj, hjmin, rfl⟩ := hy
    rcases Int.le_total (intValue t (a i)) (intValue t (a j)) with h | h
    · exact ⟨i, List.mem_append_left _ hi, List.forall_mem_append.mpr ⟨himin, fun k hk => h.trans (hjmin k hk)⟩, min_eq_left h⟩
    · exact ⟨j, List.mem_append_right _ hj, List.forall_mem_append.mpr ⟨fun k hk => h.trans (himin k hk), hjmin⟩, min_eq_right h⟩
  · obtain ⟨i, hi, himax, rfl⟩ := hx
    obtain ⟨j, hj, hjmax, rfl⟩ := hy
    rcases Int.le_total (intValue t (a i)) (intValue t (a j)) with h | h
    · exact ⟨j, List.mem_append_right _ hj, List.forall_mem_append.mpr ⟨fun k hk => (himax k hk).trans h, hjmax⟩, max_eq_right h⟩
    · exact ⟨i, List.mem_append_left _ hi, List.forall_mem_append.mpr ⟨himax, fun k hk => (hjmax k hk).trans h⟩, max_eq_left h⟩
  · exact HasBits.bitwise hx hy (g := (· && ·)) Nat.testBit_and (fun _ n _ hn => Nat.and_lt_two_pow _ hn) fun b => List.all_append
  · exact HasBits.bitwise hx hy (g := (· || ·)) Nat.testBit_or (fun _ _ => Nat.or_lt_two_pow) fun b => List.any_append
  · exact HasBits.bitwise hx hy (g := (· != ·)) Nat.testBit_xor (fun _ _ => Nat.xor_lt_two_pow) fun b => by
      rw [List.countP_append, odd_add]

/-- A combination at the width of its type is what REDUX and SCAN deliver (R139, R169). -/
theorem combined_of_combines {sc : BitVec 3} {cl : Bool} {ls : List Nat} {e : Int} (ht : t = 0 ∨ t = 1) (hne : ls ≠ [])
    (h : Combines t sc.toNat a ls e) : combined t sc cl ls a (intResult t (cl && sc.toNat == 0) e) := by
  have hcode (v : Int) : intCode t v = (v % 2 ^ 32).toNat := by rcases ht with rfl | rfl <;> rfl
  have hbits {p : Nat → Bool} {e : Int} (h : HasBits p e) : intCode t e < 2 ^ 32 ∧ ∀ b, b < 32 → (intCode t e).testBit b = p b := by
    obtain ⟨m, rfl, hlt, hp⟩ := h
    rw [hcode, Int.emod_eq_of_lt (by omega) (by omega), Int.toNat_natCast]
    exact ⟨hlt, hp⟩
  have hplain (n : Nat) : intResult t (cl && n + 1 == 0) e = intCode t e := by
    rw [show (n + 1 == 0) = false from rfl, Bool.and_false, intResult, if_neg Bool.false_ne_true]
  unfold combined
  generalize sc.toNat = op at h ⊢
  rcases op with _ | _ | _ | _ | _ | op
  · obtain rfl : e = (ls.map fun l => intValue t (a l)).sum := h
    rw [List.sum_eq_foldl, List.foldl_map, beq_self_eq_true, Bool.and_true]
    rfl
  all_goals rw [hplain]
  · obtain ⟨l, hl, hmin, rfl⟩ := h
    exact ⟨fun h0 => absurd h0 hne, fun _ => ⟨l, hl, hmin, hcode _⟩⟩
  · obtain ⟨l, hl, hmax, rfl⟩ := h
    exact ⟨fun h0 => absurd h0 hne, fun _ => ⟨l, hl, hmax, hcode _⟩⟩
  · exact hbits h
  · exact hbits h
  · exact hbits h

/-- Of no lane at all SCAN delivers the identity (R170). -/
theorem combined_nil {sc : BitVec 3} {cl : Bool} (ht : t = 0 ∨ t = 1) : combined t sc cl [] a (scanIdentity t sc.toNat) := by
  have hones : 0xFFFFFFFF < 2 ^ 32 ∧ ∀ b < 32, Nat.testBit 0xFFFFFFFF b = true := by decide
  have hzero : 0 < 2 ^ 32 ∧ ∀ b < 32, Nat.testBit 0 b = false := by decide
  have hint : (t == 4) = false := by rcases ht with rfl | rfl <;> rfl
  unfold combined scanIdentity
  rw [hint, if_neg Bool.false_ne_true]
  generalize sc.toNat = op
  rcases op with _ | _ | _ | _ | _ | op
  · rcases ht with rfl | rfl <;> cases cl <;> rfl
  · refine ⟨fun _ => ?_, fun h => absurd rfl h⟩
    rcases ht with rfl | rfl <;> rfl
  · refine ⟨fun _ => ?_, fun h => absurd rfl h⟩
    rcases ht with rfl | rfl <;> rfl
  · exact hones
  · exact hzero
  · exact hzero

end

/-! What a node collects. -/

/-- The node `x` stands for the lanes `ls`: its events name lanes, and an integer value is the combination of theirs, which raises
nothing. -/
structure Collects (t op : Nat) (a : Nat → Nat) (ls : List Nat) (x : RNode) : Prop where
  nonempty : ls ≠ []
  lanes : ∀ l, x.lanes.getLsbD l = true ↔ l ∈ ls
  events : ∀ e ∈ x.evs, e.1 ≠ 0
  quiet : t ≠ 4 → x.evs = []
  value : t ≠ 4 → Combines t op a ls x.val

/-- A node that is absent stands for no lane. -/
def CollectsOpt (t op : Nat) (a : Nat → Nat) (ls : List Nat) : Option RNode → Prop
  | none => ls = []
  | some x => Collects t op a ls x

section
variable {t op : Nat} {a : Nat → Nat} {e : Env}

theorem Collects.lanes_ne_zero {ls : List Nat} {x : RNode} (h : Collects t op a ls x) : x.lanes ≠ 0 := by
  obtain ⟨l, hl⟩ := List.exists_mem_of_ne_nil ls h.nonempty
  intro h0
  simpa [h0] using (h.lanes l).mpr hl

theorem Collects.join {xs ys : List Nat} {x y : RNode} {v : Int} {k : Exc} (hx : Collects t op a xs x) (hy : Collects t op a ys y)
    (hv : reduxOp t op e x.val y.val = (v, k)) :
    Collects t op a (xs ++ ys) ⟨v, x.lanes ||| y.lanes, x.evs ++ y.evs ++ if k == 0 then [] else [(x.lanes ||| y.lanes, k)]⟩ where
  nonempty := by simp [hx.nonempty]
  lanes l := by rw [BitVec.getLsbD_or, Bool.or_eq_true, hx.lanes, hy.lanes, List.mem_append]
  events := by
    have hor : x.lanes ||| y.lanes ≠ 0 := fun h0 => hx.lanes_ne_zero (BitVec.or_eq_zero_iff.mp h0).1
    refine List.forall_mem_append.mpr ⟨List.forall_mem_append.mpr ⟨hx.events, hy.events⟩, fun ev hev => ?_⟩
    split at hev
    · cases hev
    · rw [List.mem_singleton.mp hev]
      exact hor
  quiet ht := by
    rw [reduxOp_int ht] at hv
    cases hv
    rw [hx.quiet ht, hy.quiet ht]
    rfl
  value ht := by
    rw [reduxOp_int ht] at hv
    cases hv
    exact combines_append (hx.value ht) (hy.value ht)

theorem collectsOpt_join {xs ys : List Nat} {x y : Option RNode} (hx : CollectsOpt t op a xs x) (hy : CollectsOpt t op a ys y) :
    CollectsOpt t op a (xs ++ ys) (RNode.join (reduxOp t op e) x y) := by
  cases x with
  | none =>
    obtain rfl : xs = [] := hx
    exact hy
  | some x =>
    cases y with
    | none =>
      obtain rfl : ys = [] := hy
      rw [List.append_nil]
      exact hx
    | some y => exact Collects.join hx hy rfl

end

section
variable {t op : Nat} {e : Env}

/-- The lanes of block i of 2^k lanes that are active. -/
def blockLanes (on : LaneMask) (k i : Nat) : List Nat := (List.range' (i * 2 ^ k) (2 ^ k)).filter on.getLsbD

/-- The active lanes below n. -/
def lanesBelow (on : LaneMask) (n : Nat) : List Nat := (List.range n).filter on.getLsbD

theorem blockLanes_succ (on : LaneMask) (k i : Nat) :
    blockLanes on (k + 1) i = blockLanes on k (2 * i) ++ blockLanes on k (2 * i + 1) := by
  rw [blockLanes, blockLanes, blockLanes, ← List.filter_append, show i * 2 ^ (k + 1) = 2 * i * 2 ^ k by ring,
    show (2 * i + 1) * 2 ^ k = 2 * i * 2 ^ k + 2 ^ k by ring, List.range'_append_1, Nat.pow_succ, Nat.mul_two]

/-- The lanes below the last multiple of 2^k by those of 2^(k+1) and, where bit k of n is set, the block after it. -/
theorem lanesBelow_block (on : LaneMask) (n k : Nat) : lanesBelow on (n / 2 ^ k * 2 ^ k) =
    lanesBelow on (n / 2 ^ (k + 1) * 2 ^ (k + 1)) ++ if n.testBit k then blockLanes on k (n / 2 ^ (k + 1) * 2) else [] := by
  have hdiv : n / 2 ^ k = n / 2 ^ (k + 1) * 2 + (n.testBit k).toNat := by
    rw [Nat.toNat_testBit, Nat.pow_succ, ← Nat.div_div_eq_div_mul, Nat.mul_comm (_ / 2) 2, Nat.div_add_mod]
  have hbase : n / 2 ^ (k + 1) * 2 ^ (k + 1) = n / 2 ^ (k + 1) * 2 * 2 ^ k := by ring
  rw [hdiv, hbase]
  generalize n / 2 ^ (k + 1) * 2 = m
  cases n.testBit k
  · simp
  · rw [if_pos rfl, Bool.toNat_true, Nat.add_mul, Nat.one_mul, lanesBelow, lanesBelow, blockLanes, ← List.filter_append,
      List.range_eq_range', List.range_eq_range', ← List.range'_append_1, Nat.zero_add]

theorem lanesOf_filter_lt (on : LaneMask) {n : Nat} (hn : n ≤ 32) : (lanesOf on).filter (· < n) = lanesBelow on n := by
  have hrange : (List.range 32).filter (· < n) = List.range n := by
    obtain ⟨d, hd⟩ : ∃ d, 32 = n + d := ⟨32 - n, by omega⟩
    rw [hd, List.range_add, List.filter_append, List.filter_eq_self.mpr, List.filter_eq_nil_iff.mpr, List.append_nil]
    · simp
    · simp
  rw [lanesOf, List.filter_comm, hrange, lanesBelow]

/-- A leaf of the tree (R169). -/
def leafNode (t : Nat) (c : WCtx) (a : BitVec 8) (i : Nat) : Option RNode :=
  if c.lanes.getLsbD i then
    some ⟨if t == 4 then ((c.reg a i : Nat) : Int) else intValue t (c.reg a i), maskOf (· == i), []⟩
  else none

theorem treeLeaves_eq (t : Nat) (c : WCtx) (a : BitVec 8) : treeLeaves t c a = (List.range 32).map (leafNode t c a) := rfl

variable {c : WCtx} {a : BitVec 8}

theorem collectsOpt_leaf (ht : op < 3 ∨ t = 1) (i : Nat) : CollectsOpt t op (c.reg a) (blockLanes c.lanes 0 i) (leafNode t c a i) := by
  have hblock : blockLanes c.lanes 0 i = if c.lanes.getLsbD i then [i] else [] := by
    simp [blockLanes, List.filter_cons]
  rw [hblock, leafNode]
  cases hi : c.lanes.getLsbD i
  · rfl
  · exact {
      nonempty := by simp
      lanes := fun l => by
        have hlane : l = i → l < 32 := fun h => h ▸ lt_of_getLsbD_lane hi
        simpa using and_iff_right_of_imp hlane
      events := fun _ h => nomatch h
      quiet := fun _ => rfl
      value := fun h4 => by
        simp only [beq_eq_false_iff_ne.mpr h4, if_neg Bool.false_ne_true]
        exact combines_leaf ht i }

/-- A node stands for the active lanes of its block. -/
theorem collectsOpt_treeNode (ht : op < 3 ∨ t = 1) (k i : Nat) :
    CollectsOpt t op (c.reg a) (blockLanes c.lanes k i) (treeNode (reduxOp t op e) (leafNode t c a) k i) := by
  induction k generalizing i with
  | zero => exact collectsOpt_leaf ht i
  | succ k ih =>
    rw [blockLanes_succ]
    exact collectsOpt_join (ih _) (ih _)

/-- The blocks of a scan stand for the active lanes below n: each step takes the next lower bit of n. -/
theorem collectsOpt_blocks (ht : op < 3 ∨ t = 1) (n k : Nat) (x : Option RNode)
    (hx : CollectsOpt t op (c.reg a) (lanesBelow c.lanes (n / 2 ^ k * 2 ^ k)) x) :
    CollectsOpt t op (c.reg a) (lanesBelow c.lanes n)
      (((List.range k).reverse.filter fun k => n.testBit k).foldl
        (fun x k => RNode.join (reduxOp t op e) x (treeNode (reduxOp t op e) (leafNode t c a) k (n / 2 ^ (k + 1) * 2))) x) := by
  induction k generalizing x with
  | zero => simpa using hx
  | succ k ih =>
    rw [List.range_succ, List.reverse_append, List.reverse_singleton, List.singleton_append, List.filter_cons]
    have hstep := lanesBelow_block c.lanes n k
    cases hbit : n.testBit k <;> simp only [hbit] at hstep ⊢
    · refine ih x ?_
      rw [hstep]
      simpa using hx
    · refine ih _ ?_
      rw [hstep]
      exact collectsOpt_join hx (collectsOpt_treeNode ht _ _)

theorem collectsOpt_scanNode (ht : op < 3 ∨ t = 1) {n : Nat} (hn : n ≤ 32) :
    CollectsOpt t op (c.reg a) (lanesBelow c.lanes n) (scanNode (reduxOp t op e) (leafNode t c a) n) :=
  collectsOpt_blocks ht n 6 none (by rw [Nat.div_eq_of_lt (by omega)]; rfl)

end

end Sys2Proof.Machine
end

