-- ==== Sys2Proof/Proofs/Reductions.lean ====
section
/-! SUPPORT. What REDUX and SCAN deliver (R169, R170). -/

namespace Sys2Proof.Machine
open Sys2Proof.Claims

/-! What a combination delivers. -/

/-- The result of a node with the exceptions raised for it. -/
def treeOut (t op : Nat) (cl ftz : Bool) (x : RNode) : Nat × Exc :=
  ((treeResult t op cl ftz x).1, eventExcs (treeResult t op cl ftz x).2)

/-- A float result; of a lone lane its value, read and written as a float (R169). -/
def loneOr (ftz : Bool) (ls : List Nat) (r : Nat × Exc) : Nat × Exc := if ls.length = 1 then fLone ftz r.1 else r

/-- The float operation of a combination (R169). -/
def floatComb (f : AluW) (c : WCtx) : Nat → Nat → Nat × Exc :=
  (if f.sc = 0#3 then fAdd else if f.sc = 1#3 then fMin else fMax) .f32 ⟨c.W.rm, c.W.ftz, 0#3, false⟩ ⟨0#2, 0#2, 0#2⟩

/-- The operation of the nodes of a word (R169). -/
def nodeOp (f : AluW) (c : WCtx) : Int → Int → Int × Exc := reduxOp (ty3 f.var) f.sc.toNat ⟨c.W.rm, c.W.ftz, 0#3, false⟩

theorem nodeOp_float {f : AluW} (ht : ty3 f.var = 4) (c : WCtx) (x y : Int) :
    nodeOp f c x y = (((floatComb f c x.toNat y.toNat).1 : Int), (floatComb f c x.toNat y.toNat).2) := by
  have hsc : f.sc.toNat < 8 := f.sc.isLt
  unfold nodeOp reduxOp floatComb
  simp only [ht, beq_self_eq_true, if_true, BitVec.toNat_eq (x := f.sc), BitVec.toNat_ofNat]
  generalize f.sc.toNat = op
  rcases op with _ | _ | op <;> rfl

/-- The types and operations of REDUX and SCAN (R169). -/
theorem reduxOk_spec {f : AluW} (h : reduxOk f (ty3 f.var) = true) :
    (ty3 f.var ≠ 4 → ty3 f.var = 0 ∨ ty3 f.var = 1) ∧ (f.sc.toNat < 3 ∨ ty3 f.var = 1) := by
  simp only [reduxOk, Bool.and_eq_true, Bool.or_eq_true, beq_iff_eq, decide_eq_true_eq] at h
  tauto

section
variable {t op : Nat} {a : Nat → Nat} {ls : List Nat} {x : RNode} {cl ftz : Bool}

theorem treeResult_int (ht : t ≠ 4) (hx : Collects t op a ls x) : treeResult t op cl ftz x = (intResult t (cl && op == 0) x.val, []) := by
  have hint : (t == 4) = false := beq_eq_false_iff_ne.mpr ht
  simp only [treeResult, hint, if_neg Bool.false_ne_true, hx.quiet ht]

theorem length_lanesOf (hx : Collects t op a ls x) (hnd : ls.Nodup) : (lanesOf x.lanes).length = ls.length :=
  ((List.perm_ext_iff_of_nodup (lanesOf_nodup _) hnd).mpr fun l => (mem_lanesOf _ l).trans (hx.lanes l)).length_eq

/-- Every event of a result names lanes. -/
theorem treeResult_events (hx : Collects t op a ls x) : ∀ e ∈ (treeResult t op cl ftz x).2, e.1 ≠ 0 := by
  unfold treeResult
  split
  · split
    · intro e he
      dsimp only at he
      split at he
      · cases he
      · rw [List.mem_singleton.mp he]
        exact hx.lanes_ne_zero
    · exact hx.events
  · exact hx.events

theorem treeOut_float (ht : t = 4) (hx : Collects t op a ls x) (hnd : ls.Nodup) : treeOut t op cl ftz x = loneOr ftz ls x.code := by
  have hlen := length_lanesOf hx hnd
  subst ht
  unfold treeOut treeResult loneOr
  rw [if_pos (beq_self_eq_true 4), hlen]
  by_cases h1 : ls.length = 1
  · rw [if_pos (beq_iff_eq.mpr h1), if_pos h1, eventExcs_one]
    rfl
  · rw [if_neg (mt beq_iff_eq.mp h1), if_neg h1]
    rfl

theorem treeOut_int {sc : BitVec 3} (ht : t ≠ 4) (h01 : t = 0 ∨ t = 1) (hx : Collects t sc.toNat a ls x) :
    (treeOut t sc.toNat cl ftz x).2 = Exc.none ∧ combined t sc cl ls a (treeOut t sc.toNat cl ftz x).1 := by
  rw [treeOut, treeResult_int ht hx]
  exact ⟨rfl, combined_of_combines h01 hx.nonempty (hx.value ht)⟩

end

/-- The exceptions of the lanes that events name are those of the events. -/
theorem raisedBy_evLanes {evs : List (LaneMask × Exc)} (h : ∀ e ∈ evs, e.1 ≠ 0) : raisedBy (evLanes evs) = eventExcs evs := by
  have hlane (l : Nat) : evs.foldl (fun k e => if e.1.getLsbD l then k ||| e.2 else k) Exc.none =
      evs.foldl (fun k e => k ||| if e.1.getLsbD l then e.2 else 0#5) Exc.none := by
    refine List.foldl_ext _ _ _ fun k e _ => ?_
    split
    · rfl
    · exact BitVec.or_zero.symm
  have hnone (b : Nat) : Exc.none.getLsbD b = false := BitVec.getLsbD_zero
  refine BitVec.eq_of_getLsbD_eq fun b _ => ?_
  rw [evLanes, raisedBy_map, getLsbD_eventExcs, getLsbD_foldl_or, hnone, Bool.false_or, Bool.eq_iff_iff]
  simp only [hlane, getLsbD_foldl_or, hnone, Bool.false_or, List.any_eq_true, List.mem_range]
  constructor
  · rintro ⟨l, -, e, he, hb⟩
    refine ⟨e, he, ?_⟩
    split at hb
    · exact hb
    · simp at hb
  · rintro ⟨e, he, hb⟩
    obtain ⟨l, hl⟩ := List.exists_mem_of_ne_nil _ (mt lanesOf_eq_nil.mp (h e he))
    have hl := (mem_lanesOf _ _).mp hl
    exact ⟨l, lt_of_getLsbD_lane hl, e, he, by rw [if_pos hl]; exact hb⟩

theorem code_leafNode {t : Nat} (ht : t = 4) (c : WCtx) (a : BitVec 8) (i : Nat) :
    (leafNode t c a i).map RNode.code = if c.lanes.getLsbD i then some (c.reg a i, Exc.none) else none := by
  subst ht
  unfold leafNode
  split <;> rfl

theorem flagged_congr {c : WCtx} {ls : List Nat} {k k' : Nat → Exc} (h : ∀ l ∈ ls, k l = k' l) : flagged c ls k = flagged c ls k' := by
  have hfold : ls.foldl (fun a l => a ||| k l) Exc.none = ls.foldl (fun a l => a ||| k' l) Exc.none :=
    List.foldl_ext _ _ _ fun a l hl => by rw [h l hl]
  simp only [flagged, hfold]

/-- Lanes that raise nothing leave the gang as it is. -/
theorem flagged_eq {c : WCtx} {ls : List Nat} {k : Nat → Exc} (h : ∀ l ∈ ls, k l = Exc.none) : flagged c ls k = c := by
  have hzero : c.W.fpctl ||| BitVec.ofNat 64 (Exc.none.toNat * 2 ^ 9) = c.W.fpctl := BitVec.or_zero
  simp only [flagged, foldl_exc_none h, hzero]

/-- FPCTL after the exceptions k have been ORed into it (R67). -/
theorem flagged_fpctl (c : WCtx) (k : Exc) :
    (flagged c [0] fun _ => k).W.fpctl = c.W.fpctl ||| BitVec.ofNat 64 (k.toNat * 2 ^ 9) := by
  have hk : Exc.none ||| k = k := BitVec.zero_or
  simp only [flagged, List.foldl_cons, List.foldl_nil, hk]

/-! REDUX (R169). -/

section
variable {s : State} {f : AluW} {c : WCtx}

/-- The gang of a word after its exceptions. -/
def WCtx.withFpctl (c : WCtx) (fp : DWord) : WCtx := { c with W := { c.W with fpctl := fp } }

theorem blockLanes_all (m : LaneMask) : blockLanes m 5 0 = lanesOf m := by
  rw [blockLanes, Nat.zero_mul, lanesOf, List.range_eq_range']
  rfl

theorem exec_redux {x : RNode} (hr : ready s f.g (fun c => c.begin [.one f.a] [.one f.d] false) = some c) (hq : quiet c)
    (hx : treeNode (nodeOp f c) (leafNode (ty3 f.var) c f.a) 5 0 = some x)
    (hev : ∀ e ∈ (treeResult (ty3 f.var) f.sc.toNat f.cl c.W.ftz x).2, e.1 ≠ 0) :
    let o := treeOut (ty3 f.var) f.sc.toNat f.cl c.W.ftz x
    exec (.redux f) s = .next ((c.withFpctl (c.W.fpctl ||| BitVec.ofNat 64 (o.2.toNat * 2 ^ 9))).finish f.bnd f.d 1 fun _ => o.1) := by
  intro o
  have hroot := treeLevels_root (nodeOp f c) (leafNode (ty3 f.var) c f.a) 5
  rw [hx] at hroot
  refine exec_ready (opc := 0x77) rfl rfl hr fun c0 hc => ?_
  unfold nodeOp at hroot
  simp only [hc, except_ok_bind, treeLeaves_eq]
  rw [show 32 = 2 ^ 5 from rfl, hroot]
  simp only [settleFlags_quiet hq, raisedBy_evLanes hev, except_ok_bind]
  rfl

/-- REDUX combines all the active lanes (R169). -/
theorem redux_delivers (hwf : (Instr.redux f).wf = true)
    (hr : ready s f.g (fun c => c.begin [.one f.a] [.one f.d] false) = some c) (hq : quiet c) (h0 : c.lanes ≠ 0) :
    ∃ (v : Nat) (fp : DWord), exec (.redux f) s = .next ((c.withFpctl fp).finish f.bnd f.d 1 fun _ => v) ∧
      (ty3 f.var ≠ 4 → fp = c.W.fpctl ∧ combined (ty3 f.var) f.sc f.cl (lanesOf c.lanes) (c.reg f.a) v) ∧
      (ty3 f.var = 4 → ∀ r, node (floatComb f c) (c.reg f.a) c.lanes 5 0 = some r →
        v = (loneOr c.W.ftz (lanesOf c.lanes) r).1 ∧ fp = (flagged c [0] fun _ => (loneOr c.W.ftz (lanesOf c.lanes) r).2).W.fpctl) := by
  obtain ⟨htypes, hops⟩ := reduxOk_spec (Bool.and_eq_true_iff.mp hwf).2
  have hcollects : CollectsOpt (ty3 f.var) f.sc.toNat (c.reg f.a) (blockLanes c.lanes 5 0)
    (treeNode (nodeOp f c) (leafNode (ty3 f.var) c f.a) 5 0) := collectsOpt_treeNode hops 5 0
  rw [blockLanes_all] at hcollects
  cases hx : treeNode (nodeOp f c) (leafNode (ty3 f.var) c f.a) 5 0 with
  | none =>
    rw [hx] at hcollects
    exact absurd (lanesOf_eq_nil.mp hcollects) h0
  | some x =>
    rw [hx] at hcollects
    refine ⟨_, _, exec_redux hr hq hx (treeResult_events hcollects), fun ht => ?_, fun ht r hnode => ?_⟩
    · obtain ⟨hexc, hval⟩ := treeOut_int (cl := f.cl) (ftz := c.W.ftz) ht (htypes ht) hcollects
      rw [hexc]
      exact ⟨BitVec.or_zero, hval⟩
    · have hcode := code_treeNode (nodeOp_float ht c) (code_leafNode ht c f.a) 5 0
      rw [hx, hnode] at hcode
      obtain rfl : x.code = r := Option.some.inj hcode
      rw [treeOut_float ht hcollects (lanesOf_nodup _), flagged_fpctl]
      exact ⟨rfl, rfl⟩

/-! SCAN (R170). -/

/-- The number of lanes that SCAN combines for a lane: those up to it, in the exclusive form those below it. -/
def scanTop (f : AluW) (l : Nat) : Nat := if immFlag f.var then l else l + 1

/-- The node of a lane of SCAN. -/
def scanAt (f : AluW) (c : WCtx) (l : Nat) : Option RNode :=
  scanNode (nodeOp f c) (leafNode (ty3 f.var) c f.a) (scanTop f l)

/-- What SCAN delivers in a lane, with its exceptions; of no lane at all the identity. -/
def scanOut (f : AluW) (c : WCtx) (l : Nat) : Nat × Exc :=
  (scanAt f c l).elim (scanIdentity (ty3 f.var) f.sc.toNat, Exc.none) (treeOut (ty3 f.var) f.sc.toNat f.cl c.W.ftz)

/-- The entry of a lane in the model's list of results. -/
def scanEntry (f : AluW) (c : WCtx) (l : Nat) (x : Option RNode) : Nat × Nat × Exc :=
  match x with
  | none => (l, scanIdentity (ty3 f.var) f.sc.toNat, Exc.none)
  | some x =>
    let (v, evs) := treeResult (ty3 f.var) f.sc.toNat f.cl c.W.ftz x
    (l, v, evs.foldl (fun k e => k ||| e.2) Exc.none)

theorem scanEntry_eq (l : Nat) : scanEntry f c l (scanAt f c l) = (l, scanOut f c l) := by
  unfold scanEntry scanOut
  cases scanAt f c l <;> rfl

/-- SCAN over its entries. -/
def scanWave (f : AluW) (c0 : WCtx) : Except Stop State := do
  trapIf (!isVector f.d) .illegalEnc
  let c ← c0.begin [.one f.a] [.one f.d] false
  let tree := treeLevels (nodeOp f c) 5 (treeLeaves (ty3 f.var) c f.a)
  let res := (lanesOf c.lanes).map fun l => scanEntry f c l ((scanBlocks (scanTop f l)).foldl
    (fun x b => RNode.join (nodeOp f c) x (((tree[b.1]?).bind (·[b.2]?)).join)) none)
  let fp ← settleFlags c.W.fpctl (res.map fun r => (r.1, r.2.2, Exc.none))
  .ok ((c.withFpctl fp).finish f.bnd f.d 1 fun i => ((res.lookup i).map fun (r : Nat × Exc) => r.1).getD 0)

theorem exec_scan_eq (f : AluW) (s : State) : exec (.scan f) s = issue 0x78 f.g s (scanWave f) := rfl

theorem scanTop_le {l : Nat} (hl : l < 32) : scanTop f l ≤ 32 := by
  unfold scanTop
  split <;> omega

/-- The entries of the active lanes. -/
theorem scanEntries_eq (c : WCtx) :
    ((lanesOf c.lanes).map fun l => scanEntry f c l ((scanBlocks (scanTop f l)).foldl
      (fun x b => RNode.join (nodeOp f c) x
        (((treeLevels (nodeOp f c) 5 (treeLeaves (ty3 f.var) c f.a))[b.1]?).bind (·[b.2]?)).join) none)) =
    (lanesOf c.lanes).map fun l => (l, scanOut f c l) := by
  refine List.map_congr_left fun l hl => ?_
  have hl32 := lt_of_getLsbD_lane ((mem_lanesOf _ _).mp hl)
  rw [treeLeaves_eq, foldl_scanBlocks _ _ (scanTop_le hl32)]
  exact scanEntry_eq l

theorem exec_scan (hv : isVector f.d = true) (hr : ready s f.g (fun c => c.begin [.one f.a] [.one f.d] false) = some c) (hq : quiet c) :
    exec (.scan f) s = .next ((c.withFpctl (flagged c (lanesOf c.lanes) fun l => (scanOut f c l).2).W.fpctl).finish f.bnd f.d 1
      fun i => ((((lanesOf c.lanes).map fun l => (l, scanOut f c l)).lookup i).map Prod.fst).getD 0) := by
  refine exec_ready (exec_scan_eq f s) rfl hr fun c0 hc => ?_
  simp only [scanWave, hv, Bool.not_true, trapIf_false, except_ok_bind, hc, scanEntries_eq, settleFlags_quiet hq, List.map_map,
    Function.comp_def, raisedBy_map]
  rfl

/-- The lanes that SCAN combines for an active lane. -/
theorem under_eq {l : Nat} (hl : l < 32) :
    ((lanesOf c.lanes).filter fun j => j < l || (j == l && !immFlag f.var)) = lanesBelow c.lanes (scanTop f l) := by
  rw [← lanesOf_filter_lt _ (scanTop_le hl)]
  refine congrArg (List.filter · _) (funext fun j => ?_)
  rw [Bool.eq_iff_iff]
  cases himm : immFlag f.var
  · simp [scanTop, himm, Nat.le_iff_lt_or_eq]
  · simp [scanTop, himm]

theorem scanAt_collects (hops : f.sc.toNat < 3 ∨ ty3 f.var = 1) {l : Nat} (hl : l < 32) :
    CollectsOpt (ty3 f.var) f.sc.toNat (c.reg f.a) (lanesBelow c.lanes (scanTop f l)) (scanAt f c l) :=
  collectsOpt_scanNode hops (scanTop_le hl)

/-- An integer SCAN delivers the combination of the lanes (R170). -/
theorem scanOut_int (hok : reduxOk f (ty3 f.var) = true) (ht : ty3 f.var ≠ 4) {l : Nat} (hl : l < 32) :
    (scanOut f c l).2 = Exc.none ∧
      combined (ty3 f.var) f.sc f.cl (lanesBelow c.lanes (scanTop f l)) (c.reg f.a) (scanOut f c l).1 := by
  obtain ⟨htypes, hops⟩ := reduxOk_spec hok
  have hcollects := scanAt_collects (c := c) hops hl
  unfold scanOut
  cases hx : scanAt f c l with
  | none =>
    rw [hx] at hcollects
    rw [show lanesBelow c.lanes (scanTop f l) = [] from hcollects]
    exact ⟨rfl, combined_nil (htypes ht)⟩
  | some x =>
    rw [hx] at hcollects
    exact treeOut_int ht (htypes ht) hcollects

/-- The identity of a float operation (R170). -/
def floatIdentity (f : AluW) : Nat := if f.sc = 0#3 then 0 else if f.sc = 1#3 then 0x7F800000 else 0xFF800000

theorem scanIdentity_float (ht : ty3 f.var = 4) : scanIdentity (ty3 f.var) f.sc.toNat = floatIdentity f := by
  unfold scanIdentity floatIdentity
  simp only [ht, beq_self_eq_true, if_true, BitVec.toNat_eq (x := f.sc), BitVec.toNat_ofNat]
  generalize f.sc.toNat = op
  rcases op with _ | _ | op <;> rfl

/-- What a float SCAN delivers by the tree of R169. -/
def floatScan (f : AluW) (c : WCtx) (ls : List Nat) (l : Nat) : Nat × Exc :=
  match below (floatComb f c) (c.reg f.a) c.lanes (if immFlag f.var then l else l + 1) with
  | some r => loneOr c.W.ftz ls r
  | none => (floatIdentity f, Exc.none)

theorem scanOut_float (hok : reduxOk f (ty3 f.var) = true) (ht : ty3 f.var = 4) {l : Nat} (hl : l < 32) :
    scanOut f c l = floatScan f c (lanesBelow c.lanes (scanTop f l)) l := by
  obtain ⟨-, hops⟩ := reduxOk_spec hok
  have hcollects := scanAt_collects (c := c) hops hl
  have hcode : (scanAt f c l).map RNode.code = below (floatComb f c) (c.reg f.a) c.lanes (if immFlag f.var then l else l + 1) :=
    code_scanNode (nodeOp_float ht c) (code_leafNode ht c f.a) _
  rw [floatScan, ← hcode, scanOut]
  cases hx : scanAt f c l with
  | none => exact congrArg (·, Exc.none) (scanIdentity_float ht)
  | some x =>
    rw [hx] at hcollects
    exact treeOut_float ht hcollects (List.nodup_range.filter _)

/-- SCAN delivers in each active lane, and raises what its lanes raise (R170). -/
theorem scan_delivers (hwf : (Instr.scan f).wf = true) (hv : isVector f.d = true)
    (hr : ready s f.g (fun c => c.begin [.one f.a] [.one f.d] false) = some c) (hq : quiet c) :
    let under (l : Nat) : List Nat := (lanesOf c.lanes).filter fun j => j < l || (j == l && !immFlag f.var)
    ∃ (v : Nat → Nat) (fp : DWord), exec (.scan f) s = .next ((c.withFpctl fp).finish f.bnd f.d 1 v) ∧
      (ty3 f.var ≠ 4 → fp = c.W.fpctl ∧
        ∀ l, c.lanes.getLsbD l = true → combined (ty3 f.var) f.sc f.cl (under l) (c.reg f.a) (v l)) ∧
      (ty3 f.var = 4 → fp = (flagged c (lanesOf c.lanes) fun l => (floatScan f c (under l) l).2).W.fpctl ∧
        ∀ l, c.lanes.getLsbD l = true → v l = (floatScan f c (under l) l).1) := by
  intro under
  have hval (l : Nat) (hl : c.lanes.getLsbD l = true) :
      ((((lanesOf c.lanes).map fun l => (l, scanOut f c l)).lookup l).map Prod.fst).getD 0 = (scanOut f c l).1 := by
    rw [List.lookup_graph _ ((mem_lanesOf _ _).mpr hl)]
    rfl
  have hunder (l : Nat) (hl : c.lanes.getLsbD l = true) : under l = lanesBelow c.lanes (scanTop f l) :=
    under_eq (lt_of_getLsbD_lane hl)
  refine ⟨_, _, exec_scan hv hr hq, fun ht => ⟨?_, fun l hl => ?_⟩, fun ht => ⟨?_, fun l hl => ?_⟩⟩
  · rw [flagged_eq fun l hl => (scanOut_int hwf ht (lt_of_getLsbD_lane ((mem_lanesOf _ _).mp hl))).1]
  · rw [hval l hl, hunder l hl]
    exact (scanOut_int hwf ht (lt_of_getLsbD_lane hl)).2
  · refine congrArg (·.W.fpctl) (flagged_congr fun l hl => ?_)
    have hl := (mem_lanesOf _ _).mp hl
    rw [hunder l hl, scanOut_float hwf ht (lt_of_getLsbD_lane hl)]
  · rw [hval l hl, hunder l hl, scanOut_float hwf ht (lt_of_getLsbD_lane hl)]

end

end Sys2Proof.Machine
end

