-- ==== Sys2Proof/Proofs/LaneWords.lean ====
section
/-! SUPPORT. The lane moves, votes and matches of a wave (R151, R167, R168, R171), and O7. -/

namespace Sys2Proof.Machine
open Sys2Proof.Claims

section
variable {s : State} {f : AluW} {c : WCtx}

/-- RFL delivers the value of the lowest active lane (R151). -/
theorem exec_rfl {n : Nat} (hn : n = wideRegs (f.var.getLsbD 0))
    (hr : ready s f.g (fun c => c.begin [.ofW f.a n] [.ofW f.d n] false) = some c) :
    exec (.rfl f) s = .next (c.finish f.bnd f.d n fun _ => c.regN f.a n (lowLane c.lanes)) := by
  subst hn
  exact exec_ready (opc := 0x47) rfl rfl hr fun c0 hc => by simp only [hc, except_ok_bind]

/-- The second source of RDLANE and WRLANE, where it is a register (R151). -/
def laneNumberSrcs (f : AluW) : List Regs := if immFlag f.var then [] else [Regs.one f.b]

/-- RDLANE delivers the value of the lane named, active or not (R151). -/
theorem exec_rdlane {n : Nat} (hn : n = wideRegs (f.var.getLsbD 0)) (hd : isUniform f.d = true)
    (hb : ((laneNumberSrcs f).all fun r => uniformSrc r.code) = true)
    (hr : ready s f.g (fun c => c.begin (.ofW f.a n :: laneNumberSrcs f) [.ofW f.d n] false) = some c) (h0 : c.lanes ≠ 0)
    (hp : ({ c with lanes := maskOf (· == laneNumber f c) }).poisonLanes (.ofW f.a n) = 0#32) :
    exec (.rdlane f) s = .next (c.finish f.bnd f.d n fun _ => c.regN f.a n (laneNumber f c)) := by
  subst hn
  refine exec_ready (opc := 0x48) rfl rfl hr fun c0 hc => ?_
  unfold laneNumberSrcs at hb hc
  have hclean := checkPoison_clean (c := { c with lanes := maskOf (· == laneNumber f c) })
    (srcs := [.ofW f.a (wideRegs (f.var.getLsbD 0))]) fun r hr => by rw [List.mem_singleton.mp hr]; exact hp
  simp only [hd, hb, Bool.and_self, Bool.not_true, trapIf_false, except_ok_bind, hc, beq_eq_false_iff_ne.mpr h0, hclean,
    if_neg Bool.false_ne_true]

/-- WRLANE writes the lane named, where it is active (R151). -/
theorem exec_wrlane {n : Nat} (hn : n = wideRegs (f.var.getLsbD 0)) (hd : isVector f.d = true)
    (hsrcs : ((Regs.ofW f.a n :: laneNumberSrcs f).all fun r => uniformSrc r.code) = true)
    (hr : ready s f.g (fun c => c.begin (.ofW f.a n :: laneNumberSrcs f) [.ofW f.d n] false) = some c) :
    exec (.wrlane f) s = .next (c.retire (if c.lanes.getLsbD (laneNumber f c)
      then c.W.putRegs f.d n (laneNumber f c) (c.regN f.a n (lowLane c.lanes)) else c.W) f.bnd) := by
  subst hn
  refine exec_ready (opc := 0x49) rfl rfl hr fun c0 hc => ?_
  unfold laneNumberSrcs at hsrcs hc
  simp only [hd, hsrcs, Bool.and_self, Bool.not_true, trapIf_false, except_ok_bind, hc]

/-- SHFL delivers the value of the lane it names, or what stands for it where that lane is not active (R167). -/
theorem exec_shfl {n : Nat} (hn : n = wideRegs (f.var.getLsbD 2))
    (hr : ready s f.g (fun c => c.begin (Regs.ofW f.a n :: if immFlag f.var then [] else [Regs.one f.b, Regs.ofW f.c n])
      [.ofW f.d n] (isUniform f.d)) = some c) :
    exec (.shfl f) s = .next (c.finish f.bnd f.d n fun l =>
      let j := shflLane (f.var.toNat % 4) l (if immFlag f.var then f.imm.toNat else c.reg f.b l)
      if 0 ≤ j && j ≤ 31 && c.lanes.getLsbD j.toNat then c.regN f.a n j.toNat
      else if immFlag f.var then 0 else c.regN f.c n l) := by
  subst hn
  exact exec_ready (opc := 0x75) rfl rfl hr fun c0 hc => by simp only [hc, except_ok_bind]

/-- VOTE over the active lanes, into a predicate (R168). -/
theorem exec_votePred (hm : f.var.toNat % 8 < 3) (hr : ready s f.g .ok = some c) (h0 : c.lanes ≠ 0) :
    exec (.vote f) s = .next (c.retire (c.W.putPred f.d.toNat c.lanes
      (if votePred (f.var.toNat % 8) (c.W.pred f.a.toNat &&& c.lanes) c.lanes then BitVec.allOnes 32 else 0)) f.bnd) :=
  exec_ready (opc := 0x76) rfl rfl hr fun c0 hc => by
    cases hc
    simp only [if_pos hm, beq_eq_false_iff_ne.mpr h0, if_neg Bool.false_ne_true]

/-- VOTE into a register (R168). -/
theorem exec_voteVal (hm : 3 ≤ f.var.toNat % 8) (hr : ready s f.g (fun c => c.begin [] [.one f.d] false) = some c) :
    exec (.vote f) s = .next (c.finish f.bnd f.d 1 fun _ => voteVal (f.var.toNat % 8) (c.W.pred f.a.toNat &&& c.lanes)) :=
  exec_ready (opc := 0x76) rfl rfl hr fun c0 hc => by simp only [if_neg (Nat.not_lt.mpr hm), hc, except_ok_bind]

/-- MATCH delivers the group of a lane, or its lead (R171). -/
theorem exec_matchl {n : Nat} (hn : n = wideRegs (f.var.getLsbD 0)) (hv : isVector f.d = true)
    (hr : ready s f.g (fun c => c.begin [.ofW f.a n] [.one f.d] false) = some c) :
    exec (.matchl f) s = .next (c.finish f.bnd f.d 1 fun l =>
      matchVal (f.var.getLsbD 1) (maskOf fun j => c.lanes.getLsbD j && c.regN f.a n j == c.regN f.a n l) l) := by
  subst hn
  exact exec_ready (opc := 0x79) rfl rfl hr fun c0 hc => by
    simp only [hv, Bool.not_true, trapIf_false, hc, except_ok_bind]

end

end Sys2Proof.Machine

namespace Sys2Proof.Claims
open Sys2Proof Sys2Proof.Machine

/-- Settles O7: the moves, votes and matches read every lane of the gang as it stood after its checks; a node of the tree stands for the
active lanes of its block, and the blocks of a scan for those below its lane. -/
theorem laneWordsComplete : Obligations.LaneWordsComplete := by
  refine ⟨fun s f => ?moves, fun s f => ?combinations⟩
  case moves => exact ⟨
    fun _ _ hr => exec_rfl rfl hr,
    fun _ hd hb _ hr h0 hp => exec_rdlane rfl hd hb hr h0 hp,
    fun _ hd hsrcs _ hr => exec_wrlane rfl hd hsrcs hr,
    fun _ _ hr => exec_shfl rfl hr,
    fun _ hm _ hr h0 => exec_votePred hm hr h0,
    fun _ hm _ hr => exec_voteVal hm hr,
    fun _ hv _ hr => exec_matchl rfl hv hr⟩
  case combinations => exact ⟨
    fun hwf _ hr hq h0 => redux_delivers hwf hr hq h0,
    fun hwf hv _ hr hq => scan_delivers hwf hv hr hq⟩

end Sys2Proof.Claims
end
